-- ==== Sys2Proof/Word.lean ====
section
/-! DEFINITION. The word types of the machine (R10, R13). -/
namespace Sys2Proof

/-- A 64-bit word: scalar registers, control registers, generic addresses (R44, R49). -/
abbrev Word := BitVec 64

/-- One byte of memory. -/
abbrev Byte := BitVec 8

/-- A short vector or a mask register (R49). -/
abbrev Vec := BitVec 256

/-- A long vector register (R49). -/
abbrev LVec := BitVec 2048

/-- A package core number, 0 to 511 (R3). -/
abbrev CoreId := Nat

end Sys2Proof
end

