-- ==== Sys2Proof/Config.lean ====
section
/-! DEFINITION. What one part fixes, and the free values: constants without a body, so nothing can be proved of a
value of theirs. Each is applied to the counter `State.tick` or to its operands. -/
namespace Sys2Proof.Config
open Sys2Proof

/-- Nanoseconds of the 1 GHz reference that pass at a step (R191, log 3). -/
opaque elapsed : Nat → Nat

/-- CCLK cycles delivered to a tile at a step: counter, tile (R191, log 3). -/
opaque cycles : Nat → Nat → Nat

/-- Which of a code word's values since the launch a fetch yields: counter, PA (R61, log 15). -/
opaque fetchPick : Nat → Nat → Nat

/-- Which of the 16 entries of a 64 KiB page that disagree a micro-TLB uses: PA of the first entry (R307, log 22). -/
opaque c64Choice : Nat → Nat

/-- Byte offset of a BAD_DESC where the manual names no field: CPYT totals, gather slot (R176, R178, log 34). -/
opaque descOffset : Nat → BitVec 8

/-- The SM3 digest, named and not given by the manual (R414 to R417, log 17). -/
opaque sm3 : List Byte → BitVec 256

/-- The device's SM2 signature over a digest (R417, log 17). -/
opaque sm2 : BitVec 256 → BitVec 512

/-- Digest, security version and slot of the booted image (R417, log 17). -/
opaque bootDigest : Nat → BitVec 256
opaque securityVersion : Nat → BitVec 32

/-- Values of the signed image that set the registers marked Boot (R416, log 6). -/
opaque bootDroopThr : Nat → BitVec 8
opaque bootDroopEn : Nat → Bool
opaque bootTbCap : Nat → BitVec 16
opaque bootTbFill : Nat → BitVec 8
/-- What flash holds for the guardband of a tile, in 5 mV steps; more than 10 counts as 10 (R391, log 6). -/
opaque flashGuardband : Nat → Nat

/-- Base of the overflow area that the driver allots to a core of a context: context, core (R231, log 25). -/
opaque ovfArea : Nat → Nat → Word

/-- Information field of a gather's fault record, whose packing the manual does not give: element, address, cause
(R156, R247, log 31). -/
opaque gatherInfo : Nat → Nat → Nat → Word

/-- Information field of a ring operation's fault record, which the manual does not give: core, number (R199, R247,
log 36). -/
opaque ringInfo : Nat → Nat → Word

/-- The 64 bytes of a handle in a core record, whose packing the manual does not give: its fields in the order of R246
(log 37). -/
opaque handleImage : List Nat → List Byte

/-- The header of a run of the spill log, whose layout the manual does not give beyond 57 bits for an entry: source and
sequence of each entry, region, context (R372, log 26). -/
opaque runHeader : List Nat → List Byte

/-- The bytes of a cluster record behind its accumulator tiles, whose packing the manual does not give: ACC_OVF of each
tile, the permutation table, the job-queue state (R246, log 37). -/
opaque clusterTail : List Nat → List Byte

/-- The core, modulo 512, whose tile the ring port names when it is first to touch a page, which the manual does not
give: page number (R311, log 38). -/
opaque portCore : Nat → Nat

/-- The set of a second-level TLB, modulo 512, whose index the manual does not give: context, virtual base, size (R308,
log 62). -/
opaque tlbSet : Nat → Nat → Nat → Nat

/-- The dedup domain of a line of a frame that no agent has translated: line (R312, log 39). -/
opaque lineDomain : Nat → Nat

/-- What the fault record of an operation names when its weight buffer has an uncorrectable error, by step (16 R344, log
69). -/
opaque weightInfo : Nat → BitVec 64

/-- How many of a line's pending pairs, less one and modulo their number, one step of an apply folds: counter (R364, log
20). -/
opaque applyCut : Nat → Nat

/-- Whether two consecutive writes that wait at home for a tier line are joined: counter, line (R294, log 57). -/
opaque joined : Nat → Nat → Bool

/-- The set of an L1, modulo its number of sets, whose index the manual does not give: line (R310, log 12). -/
opaque l1Set : Nat → Nat

/-- Windows by which a sequentially consistent operation of a stretched tile reaches Sirocco later: counter, core (R118,
R276, log 11). -/
opaque scLate : Nat → Nat → Nat

/-- The SM3 digest of a checkpoint stream: its nonzero bytes as (place, byte) (R414, R415, log 17). -/
opaque streamDigest : List (Nat × Nat) → BitVec 256

/-- The 64 KiB header of a checkpoint stream, of which the manual gives no layout: its numbers (R415, log 17). -/
opaque ckptHeader : List Nat → List Byte

/-- The numbers that a header of a checkpoint stream holds, by its nonzero bytes: offset, byte (R415, log 17). -/
opaque ckptNumbers : List (Nat × Nat) → List Nat

/-- Bytes streamed when a checkpoint or restore is stopped: counter (R414, log 3). -/
opaque streamed : Nat → Nat

/-- The SM3 digest of the last consumed RING_CFG and DEV_CONFIG (R417, log 17). -/
opaque configDigest : List Byte → List Byte → BitVec 256

/-- What DIAG_READ delivers of an L2 tag and its data entry, of which the manual gives no buffer layout: the fields of
R312, and the 128 bytes (R405, log 41). -/
opaque diagEntry : List Nat → List Byte → List Byte

/-- Power in mW and the hottest sensor of a tile at a diagnostic read: counter, tile (R396, R405, log 41). -/
opaque tilePower : Nat → Nat → Nat
opaque tileHeat : Nat → Nat → Nat

/-- A byte of a local-memory line that an error has destroyed: counter, offset (R251, log 42). -/
opaque lostByte : Nat → Nat → BitVec 8

/-- The ring lane map of the image in a slot (R416, log 6). -/
opaque bootLaneMap : Nat → List Nat

/-- BAR0's flash window, of which the manual gives no place: its offset, its bytes, and whether a word of it lies in the
write-protected area (R416, log 78). -/
opaque flashBase : Nat
opaque flashBytes : Nat
opaque flashProtected : Nat → Bool

/-- Reason code of the last image rejected at boot: the slots that failed (R398, log 6). -/
opaque bootReason : Bool → Bool → BitVec 8

/-- Subtype of the work event of a persistent core that a refused page ends, which the manual does not give (R241,
R409, log 40). -/
opaque pageDeniedSubtype : Nat

/-- Occurrences of an event source that only timing decides: counter, core, source (R395, log 3). -/
opaque timed : Nat → Nat → Nat → Nat

end Sys2Proof.Config
end

