-- ==== Sys2Proof/Syntax.lean ====
section
/-! DEFINITION. The instructions of the ZT4 as syntax: the 211 instruction words of the opcode map (R62) with their
operands by class (R44, R45), and the 92 events of the package's other agents (95_what_each_step_holds.md). -/
namespace Sys2Proof

/-- s0 to s63 (R44). -/
abbrev SReg := BitVec 6
/-- p0 to p7 (R44). -/
abbrev PReg := BitVec 3
/-- Specifiers 0x40 to 0x5F: v0 to v31 in short mode, l0 to l15 in long mode (R44). -/
abbrev VReg := BitVec 5
/-- k0 to k7 (R44). -/
abbrev KReg := BitVec 3
/-- h0 to h15 (R44). -/
abbrev HReg := BitVec 4
/-- An 8-bit immediate specifier without its top bit: the value is this number minus 64 (R44). -/
abbrev Imm := BitVec 7
/-- A mask, or none (0x00). -/
abbrev KOpt := Option KReg

/-- A guard: predicate index and negate bit (R38, R40). -/
structure Guard where
  neg : Bool
  idx : PReg
  deriving DecidableEq, Repr

/-- The fields every word carries beside its operands: guards, cache hint, scheduling control (R38). -/
structure Ctl where
  g1 : Guard
  g2 : Guard
  ch : BitVec 2
  n : BitVec 3
  adv : Bool
  yld : Bool
  deriving DecidableEq, Repr

/-- A scalar source: register, predicate as data, or immediate (R71). -/
inductive Src where
  | s (r : SReg)
  | p (r : PReg)
  | imm (i : Imm)
  deriving DecidableEq, Repr

/-- A source that is a scalar register or an immediate. -/
inductive SImm where
  | s (r : SReg)
  | imm (i : Imm)
  deriving DecidableEq, Repr

/-- A float source: a scalar register or a predicate (R92). -/
inductive SPred where
  | s (r : SReg)
  | p (r : PReg)
  deriving DecidableEq, Repr

/-- A predicate or an immediate (R91). -/
inductive PImm where
  | p (r : PReg)
  | imm (i : Imm)
  deriving DecidableEq, Repr

/-- A vector source: a vector register, or a scalar register or immediate broadcast to every element (R130). -/
inductive VSrc where
  | v (r : VReg)
  | s (r : SReg)
  | imm (i : Imm)
  deriving DecidableEq, Repr

/-- Branch condition against zero (R75). -/
inductive CondZ where
  | eqz | nez | ltz | lez | gtz | gez
  deriving DecidableEq, Repr

/-- Width suffix of SEXT and ZEXT (R86). -/
inductive ExtW where
  | w8 | w16 | w32
  deriving DecidableEq, Repr

/-- Part written by LIMM (R88). -/
inductive LimmPart where
  | lo | mid | top
  deriving DecidableEq, Repr

/-- Integer comparison (R90). -/
inductive Cond where
  | eq | ne | lt | le | gt | ge | ltn | len
  deriving DecidableEq, Repr

/-- Scalar float type (R92). -/
inductive FType where
  | fp32 | bf16
  deriving DecidableEq, Repr

/-- Float comparison (R95). -/
inductive FCond where
  | eq | ne | lt | le | gt | ge | un
  deriving DecidableEq, Repr

/-- Type code of FCVT (R96). -/
inductive CvtType where
  | fp32 | bf16 | i32 | i64 | n32 | n64
  deriving DecidableEq, Repr

/-- Rounding of FRND (R97). -/
inductive Rnd where
  | rne | rtz | rdn | rup | rna
  deriving DecidableEq, Repr

/-- Size of LD and ST (R104). -/
inductive MemSize where
  | i8 | n8 | i16 | n16 | i32 | n32 | i64
  deriving DecidableEq, Repr

/-- Element size of LDVS and STVS (R107). -/
inductive ElSize where
  | b1 | b2 | b4 | b8
  deriving DecidableEq, Repr

/-- Level of PRF (R108). -/
inductive PrfLevel where
  | l1 | l2
  deriving DecidableEq, Repr

/-- Mode of FLL (R108). -/
inductive FllMode where
  | clean | cleaninv
  deriving DecidableEq, Repr

/-- Scope of FENCE (R109). -/
inductive Scope where
  | core | tile | cluster | die | package | system
  deriving DecidableEq, Repr

/-- Type of the atomics and the sequentially consistent operations (R115). -/
inductive AType where
  | i32 | i64 | n32 | n64
  deriving DecidableEq, Repr

/-- Timeline context (R125). -/
inductive Timeline where
  | mx | cp | gt | up | rg
  deriving DecidableEq, Repr

/-- Count read by TLRD (R126). -/
inductive TlWhich where
  | done | issued
  deriving DecidableEq, Repr

/-- Domain phase (R120). -/
inductive PhaseMode where
  | comp | comm
  deriving DecidableEq, Repr

/-- Vector element type (R129). -/
inductive VType where
  | i8 | n8 | i16 | n16 | i32 | n32 | i64 | n64 | bf16 | fp32 | lg6
  deriving DecidableEq, Repr

/-- Condition of VCMP (R136). -/
inductive VCond where
  | eq | ne | lt | le | gt | ge
  deriving DecidableEq, Repr

/-- Half of VZIP and VUZP (R142). -/
inductive Half where
  | lo | hi
  deriving DecidableEq, Repr

/-- Scale mode of VQMX and VTOLG (R144). -/
inductive QMode where
  | given | whole | b32
  deriving DecidableEq, Repr

/-- Destination format of VQMX (R144, codes of R35). -/
inductive QFmt where
  | m8 | m4
  deriving DecidableEq, Repr

/-- Packed trit format of VPK5 and VUPK5 (R147). -/
inductive PkFmt where
  | t5 | t2
  deriving DecidableEq, Repr

/-- Sparsity pattern of VCOMP and VEXPD (R148). -/
inductive Pattern where
  | p24 | p48
  deriving DecidableEq, Repr

/-- Element type of MACR and MACW (R168). -/
inductive AccType where
  | fp32 | bf16 | raw | stat
  deriving DecidableEq, Repr

/-- Field of HSTAT (R173). -/
inductive HstatField where
  | source | destination | object
  deriving DecidableEq, Repr

/-- Direction of GMSK (R178). -/
inductive GmskOp where
  | read | write
  deriving DecidableEq, Repr

/-- Operator of an update region (R180). -/
inductive UpdOp where
  | addI32 | addI64 | addBf16 | addFp32 | minI32 | minI64 | minN32 | minN64 | maxI32 | maxI64 | maxN32 | maxN64 | and32 | and64 | or32 | or64 | xor32 | xor64
  deriving DecidableEq, Repr

/-- Mode of ERET (R185). -/
inductive EretMode where
  | retry | next
  deriving DecidableEq, Repr

/-- Option of ECSUM (R185). -/
inductive EcOpt where
  | keep | clear
  deriving DecidableEq, Repr

/-- Manner of TASKGET (R185). -/
inductive How where
  | poll | wait
  deriving DecidableEq, Repr

/-- Mode of TLBI (R199). -/
inductive TlbiMode where
  | page | context | stable
  deriving DecidableEq, Repr

/-- Scope of TLBI, the FENCE codes 2 to 4 (R199). -/
inductive TlbiScope where
  | cluster | die | package
  deriving DecidableEq, Repr

/-- Mode and share of VMODE (R133). -/
inductive VShare where
  | short | n4 | n8 | n12 | n16
  deriving DecidableEq, Repr

/-- CONVOY on with its barrier, or off (R185). -/
inductive ConvoyOp where
  | on (b : BitVec 7)
  | off
  deriving DecidableEq, Repr

/-- The control registers (R190). -/
inductive CReg where
  | coreId | tileId | clusterId | dieId | pkgId | ctxGen | status
  | spillBase | spillOvf
  | uivec | uiPc | uiBlk | uiEn | uiCause
  | trapCause | trapPc | trapInfo | trapBlk | trapStatus
  | fduty | droopThr | droopCfg | tbCfg | tbBal
  | ec (n : BitVec 3) | ecsel (n : BitVec 3)
  | tl (t : Timeline)
  | rgPath (p : BitVec 2)
  | lastHostSeq | lastDevSeq
  | member (b : BitVec 7)
  deriving DecidableEq, Repr

/-- Scope of PREEMPT, its kill action and RESUME: a node, a launch or a context (R405). -/
inductive ReqScope where
  | node (launch : Word) (n : Nat)
  | launch (launch : Word)
  | context
  deriving DecidableEq, Repr

/-- Where an ECC error lies (R249): a line of memory by PA line number, an L2 entry by the line of its tag, a line of a
tile's local memory or L1, or a 32-byte beat of a partition of the W-stack. -/
inductive Site where
  | mem (line : Nat)
  | l2 (line : Nat)
  | lm (tile line : Nat)
  | l1 (tile line : Nat)
  | longReg (c : CoreId) (r : Nat)
  | wstack (part beat : Nat)
  | pair (i : Nat)
  /-- The header of a sorter's `i`th bin or run of its spill log (20 R375). -/
  | head (sorter i : Nat)
  /-- The weight buffers that an operation of a cluster's engine order reads (16 R344). -/
  | weights (cl op : Nat)
  deriving DecidableEq, Repr

/-- A packet's path and its place in the sending context's sequence: of a put packet on that path, of a flag among the
flags to that package (R255, R256, log 38). -/
structure PathSeq where
  path : Nat
  seq : Nat
deriving DecidableEq, Repr

/-- One constructor per row of spec/opcode_table.json: the instruction words in opcode order, then the events. -/
inductive Instr where
  | nop (c : Ctl)
  | br (c : Ctl) (off : BitVec 24)
  | brc (c : Ctl) (a : Src) (cond : CondZ) (off : BitVec 24)
  | brx (c : Ctl) (a : SReg)
  | call (c : Ctl) (d : SReg) (off : BitVec 24)
  | callx (c : Ctl) (d a : SReg)
  | ret (c : Ctl) (a : SReg)
  | loop (c : Ctl) (a : SReg) (off : BitVec 24)
  | halt (c : Ctl)
  | sleep (c : Ctl) (d : SReg) (t : SImm)
  | yield (c : Ctl)
  | add (c : Ctl) (d : SReg) (a b : Src)
  | sub (c : Ctl) (d : SReg) (a b : Src)
  | mul (c : Ctl) (d : SReg) (a b : Src)
  | mulh (c : Ctl) (d : SReg) (a b : Src)
  | mulhn (c : Ctl) (d : SReg) (a b : Src)
  | div (c : Ctl) (d : SReg) (a b : Src)
  | divn (c : Ctl) (d : SReg) (a b : Src)
  | rem (c : Ctl) (d : SReg) (a b : Src)
  | remn (c : Ctl) (d : SReg) (a b : Src)
  | neg (c : Ctl) (d : SReg) (a : Src)
  | abs (c : Ctl) (d : SReg) (a : Src)
  | min (c : Ctl) (d : SReg) (a b : Src)
  | max (c : Ctl) (d : SReg) (a b : Src)
  | minn (c : Ctl) (d : SReg) (a b : Src)
  | maxn (c : Ctl) (d : SReg) (a b : Src)
  | and (c : Ctl) (d : SReg) (a b : Src)
  | or (c : Ctl) (d : SReg) (a b : Src)
  | xor (c : Ctl) (d : SReg) (a b : Src)
  | andn (c : Ctl) (d : SReg) (a b : Src)
  | orn (c : Ctl) (d : SReg) (a b : Src)
  | shl (c : Ctl) (d : SReg) (a b : Src)
  | shr (c : Ctl) (d : SReg) (a b : Src)
  | sar (c : Ctl) (d : SReg) (a b : Src)
  | rol (c : Ctl) (d : SReg) (a b : Src)
  | ror (c : Ctl) (d : SReg) (a b : Src)
  | clz (c : Ctl) (d : SReg) (a : Src)
  | ctz (c : Ctl) (d : SReg) (a : Src)
  | popc (c : Ctl) (d : SReg) (a : Src)
  | brev (c : Ctl) (d : SReg) (a : Src)
  | bext (c : Ctl) (d : SReg) (a pos len : Src)
  | bins (c : Ctl) (d : SReg) (a pos len : Src)
  | sext (c : Ctl) (d : SReg) (a : Src) (w : ExtW)
  | zext (c : Ctl) (d : SReg) (a : Src) (w : ExtW)
  | sel (c : Ctl) (d : SReg) (pc : PReg) (a b : Src)
  | mov (c : Ctl) (d : SReg) (a : Src)
  | limm (c : Ctl) (d : SReg) (part : LimmPart) (imm : BitVec 24)
  | addr (c : Ctl) (d : SReg) (base index : Src) (sc : BitVec 3)
  | cmp (c : Ctl) (d : PReg) (cond : Cond) (a b : Src)
  | pand (c : Ctl) (d : PReg) (a b : PImm)
  | por (c : Ctl) (d : PReg) (a b : PImm)
  | pxor (c : Ctl) (d : PReg) (a b : PImm)
  | pnot (c : Ctl) (d : PReg) (a : PImm)
  | pset (c : Ctl) (a m : SImm)
  | pget (c : Ctl) (d : SReg)
  | fadd (c : Ctl) (d : SReg) (a b : SPred) (t : FType)
  | fsub (c : Ctl) (d : SReg) (a b : SPred) (t : FType)
  | fmul (c : Ctl) (d : SReg) (a b : SPred) (t : FType)
  | ffma (c : Ctl) (d : SReg) (a b e : SPred) (t : FType)
  | fmin (c : Ctl) (d : SReg) (a b : SPred) (t : FType)
  | fmax (c : Ctl) (d : SReg) (a b : SPred) (t : FType)
  | fabs (c : Ctl) (d : SReg) (a : SPred) (t : FType)
  | fneg (c : Ctl) (d : SReg) (a : SPred) (t : FType)
  | fcmp (c : Ctl) (d : PReg) (cond : FCond) (a b : SPred) (t : FType)
  | fcvt (c : Ctl) (d : SReg) (a : Src) (dst src : CvtType)
  | frnd (c : Ctl) (d : SReg) (a : SPred) (mode : Rnd) (t : FType)
  | ld (c : Ctl) (d b : SReg) (size : MemSize) (disp : BitVec 16)
  | st (c : Ctl) (b : SReg) (a : Src) (size : MemSize) (disp : BitVec 16)
  | ldp (c : Ctl) (d1 d2 b : SReg) (disp : BitVec 16)
  | stp (c : Ctl) (b : SReg) (a1 a2 : Src) (disp : BitVec 16)
  | ldv (c : Ctl) (d : VReg) (b : SReg) (k : KOpt) (disp : BitVec 16)
  | stv (c : Ctl) (b : SReg) (v : VReg) (k : KOpt) (disp : BitVec 16)
  | ldvs (c : Ctl) (d : VReg) (b : SReg) (stride : SImm) (size : ElSize) (k : KOpt)
  | stvs (c : Ctl) (b : SReg) (v : VReg) (stride : SImm) (size : ElSize) (k : KOpt)
  | prf (c : Ctl) (b : SReg) (level : PrfLevel) (disp : BitVec 16)
  | fll (c : Ctl) (b : SReg) (mode : FllMode) (disp : BitVec 16)
  | fence (c : Ctl) (pred succ : BitVec 8) (scope : Scope)
  | acq (c : Ctl) (d : SReg) (obj : SImm)
  | rel (c : Ctl) (d : SReg) (obj : SImm)
  | sobj (c : Ctl) (obj : SImm) (slot : BitVec 3) (base len : SReg)
  | aadd (c : Ctl) (d b : SReg) (v : SImm) (t : AType)
  | amin (c : Ctl) (d b : SReg) (v : SImm) (t : AType)
  | amax (c : Ctl) (d b : SReg) (v : SImm) (t : AType)
  | aand (c : Ctl) (d b : SReg) (v : SImm) (t : AType)
  | aor (c : Ctl) (d b : SReg) (v : SImm) (t : AType)
  | axor (c : Ctl) (d b : SReg) (v : SImm) (t : AType)
  | axchg (c : Ctl) (d b : SReg) (v : SImm) (t : AType)
  | acas (c : Ctl) (d b : SReg) (cv nv : SImm) (t : AType)
  | anadd (c : Ctl) (b : SReg) (v : SImm) (t : AType)
  | scld (c : Ctl) (d b : SReg) (t : AType)
  | scst (c : Ctl) (b : SReg) (v : SImm) (t : AType)
  | scxch (c : Ctl) (d b : SReg) (v : SImm) (t : AType)
  | bara (c : Ctl) (opts : BitVec 2) (bar : BitVec 7)
  | barw (c : Ctl) (bar : BitVec 7)
  | bart (c : Ctl) (d : PReg) (bar : BitVec 7)
  | barm (c : Ctl) (d : SReg) (m : SImm) (bar : BitVec 7)
  | tlwait (c : Ctl) (tl : Timeline) (n : SImm)
  | tlrd (c : Ctl) (d : SReg) (tl : Timeline) (which : TlWhich)
  | tlpoll (c : Ctl) (d : PReg) (tl : Timeline) (n : SImm)
  | phase (c : Ctl) (mode : PhaseMode) (bar : BitVec 7)
  | pdrain (c : Ctl) (d : SReg) (bar : BitVec 7)
  | vmode (c : Ctl) (share : VShare)
  | vadd (c : Ctl) (d a : VReg) (b : VSrc) (k : KOpt) (t : VType)
  | vsub (c : Ctl) (d a : VReg) (b : VSrc) (k : KOpt) (t : VType)
  | vadds (c : Ctl) (d a : VReg) (b : VSrc) (k : KOpt) (t : VType)
  | vsubs (c : Ctl) (d a : VReg) (b : VSrc) (k : KOpt) (t : VType)
  | vmul (c : Ctl) (d a : VReg) (b : VSrc) (k : KOpt) (t : VType)
  | vmulh (c : Ctl) (d a : VReg) (b : VSrc) (k : KOpt) (t : VType)
  | vmin (c : Ctl) (d a : VReg) (b : VSrc) (k : KOpt) (t : VType)
  | vmax (c : Ctl) (d a : VReg) (b : VSrc) (k : KOpt) (t : VType)
  | vabs (c : Ctl) (d a : VReg) (k : KOpt) (t : VType)
  | vand (c : Ctl) (d a : VReg) (b : VSrc) (k : KOpt) (t : VType)
  | vor (c : Ctl) (d a : VReg) (b : VSrc) (k : KOpt) (t : VType)
  | vxor (c : Ctl) (d a : VReg) (b : VSrc) (k : KOpt) (t : VType)
  | vshl (c : Ctl) (d a : VReg) (b : VSrc) (k : KOpt) (t : VType)
  | vshr (c : Ctl) (d a : VReg) (b : VSrc) (k : KOpt) (t : VType)
  | vsar (c : Ctl) (d a : VReg) (b : VSrc) (k : KOpt) (t : VType)
  | vcmp (c : Ctl) (d : KReg) (a : VReg) (b : VSrc) (k : KOpt) (cond : VCond) (t : VType)
  | vsel (c : Ctl) (d a : VReg) (b : VSrc) (k : KReg) (t : VType)
  | vmov (c : Ctl) (d : VReg) (b : VSrc) (k : KOpt) (t : VType)
  | vbc (c : Ctl) (d a : VReg) (idx : SImm) (k : KOpt) (t : VType)
  | vext (c : Ctl) (d : SReg) (a : VReg) (idx : SImm) (t : VType)
  | vins (c : Ctl) (d : VReg) (a idx : SImm) (t : VType)
  | vfadd (c : Ctl) (d a : VReg) (b : VSrc) (k : KOpt) (t : VType)
  | vfsub (c : Ctl) (d a : VReg) (b : VSrc) (k : KOpt) (t : VType)
  | vfmul (c : Ctl) (d a : VReg) (b : VSrc) (k : KOpt) (t : VType)
  | vffma (c : Ctl) (d a : VReg) (b : VSrc) (k : KOpt) (t : VType)
  | vfmin (c : Ctl) (d a : VReg) (b : VSrc) (k : KOpt) (t : VType)
  | vfmax (c : Ctl) (d a : VReg) (b : VSrc) (k : KOpt) (t : VType)
  | vfcmp (c : Ctl) (d : KReg) (a : VReg) (b : VSrc) (k : KOpt) (cond : FCond) (t : VType)
  | vexp2 (c : Ctl) (d a : VReg) (k : KOpt) (t : VType)
  | vlog2 (c : Ctl) (d a : VReg) (k : KOpt) (t : VType)
  | vrcp (c : Ctl) (d a : VReg) (k : KOpt) (t : VType)
  | vrsq (c : Ctl) (d a : VReg) (k : KOpt) (t : VType)
  | vtanh (c : Ctl) (d a : VReg) (k : KOpt) (t : VType)
  | vlut (c : Ctl) (d a tab : VReg) (k : KOpt) (t : VType)
  | vrsum (c : Ctl) (d : SReg) (a : VReg) (k : KOpt) (t : VType)
  | vrmax (c : Ctl) (d : SReg) (a : VReg) (k : KOpt) (t : VType)
  | vrmin (c : Ctl) (d : SReg) (a : VReg) (k : KOpt) (t : VType)
  | vperm (c : Ctl) (d a idx : VReg) (k : KOpt) (t : VType)
  | vshuf (c : Ctl) (d a b idx : VReg) (t : VType)
  | vslide (c : Ctl) (d a b : VReg) (n : SImm) (t : VType)
  | vzip (c : Ctl) (d a b : VReg) (half : Half) (t : VType)
  | vuzp (c : Ctl) (d a b : VReg) (half : Half) (t : VType)
  | vcvt (c : Ctl) (d a : VReg) (k : KOpt) (part : BitVec 3) (dst src : VType)
  | vqmx (c : Ctl) (d a : VReg) (e : SReg) (part : BitVec 4) (mode : QMode) (fmt : QFmt) (src : VType)
  | vtern (c : Ctl) (d a : VReg) (thr : SImm) (part : BitVec 3) (t : VType)
  | vpk5 (c : Ctl) (d a : VReg) (o : SImm) (fmt : PkFmt)
  | vupk5 (c : Ctl) (d a : VReg) (o : SImm) (fmt : PkFmt)
  | vtolg (c : Ctl) (d a : VReg) (e : SReg) (part : BitVec 4) (mode : QMode) (src : VType)
  | vfrlg (c : Ctl) (d a : VReg) (e : SReg) (part : BitVec 2) (t : VType)
  | vcomp (c : Ctl) (d m a : VReg) (part : BitVec 1) (pat : Pattern) (t : VType)
  | vexpd (c : Ctl) (d m a : VReg) (part : BitVec 1) (pat : Pattern) (t : VType)
  | vpmrg (c : Ctl) (d a : VReg) (bar : BitVec 7)
  | kand (c : Ctl) (d a b : KReg)
  | kor (c : Ctl) (d a b : KReg)
  | knot (c : Ctl) (d a : KReg)
  | kpop (c : Ctl) (d : SReg) (a : KReg)
  | kfirst (c : Ctl) (d : SReg) (a : KReg)
  | mcfg (c : Ctl) (dr : BitVec 2) (b : SReg) (disp : BitVec 16)
  | mperm (c : Ctl) (d b : SReg)
  | mscl (c : Ctl) (d w : SReg) (v : VReg)
  | mgang (c : Ctl) (d : SReg) (dr : BitVec 2)
  | mjob (c : Ctl) (d : SReg) (dr : BitVec 2)
  | macr (c : Ctl) (d : VReg) (n : SReg) (t : AccType) (tile : BitVec 2) (row col : SImm)
  | macz (c : Ctl) (d : SReg) (tile : BitVec 2)
  | macw (c : Ctl) (d : SReg) (v : VReg) (t : AccType) (tile : BitVec 2) (row col : SImm)
  | mbld (c : Ctl) (d w b len : SReg)
  | jwait (c : Ctl) (d tag : SReg)
  | jpoll (c : Ctl) (d : PReg) (tag : SReg)
  | hcfg (c : Ctl) (h : HReg) (base bytes slots : SImm)
  | hbind (c : Ctl) (d : SReg) (h : HReg) (b : SReg)
  | hadvp (c : Ctl) (h : HReg)
  | hadvc (c : Ctl) (h : HReg)
  | hstat (c : Ctl) (d : SReg) (h : HReg) (field : HstatField)
  | hunb (c : Ctl) (h : HReg)
  | cpy (c : Ctl) (d dst src len : SReg)
  | cpyt (c : Ctl) (d b : SReg)
  | cthr (c : Ctl) (d b : SReg)
  | gth (c : Ctl) (d : SReg) (h : HReg) (b : SReg) (idx : VReg) (r : SReg)
  | gthm (c : Ctl) (d : SReg) (h : HReg) (b : SReg) (idx : VReg) (r : SReg)
  | gmsk (c : Ctl) (k : KReg) (op : GmskOp)
  | ureg (c : Ctl) (h : HReg) (base len : SReg) (op : Byte)
  | upd (c : Ctl) (h : HReg) (off : SReg) (v : SImm)
  | updv (c : Ctl) (h : HReg) (off v : VReg) (k : KOpt)
  | uflsh (c : Ctl) (d : SReg) (h : HReg)
  | uqry (c : Ctl) (d : SReg) (h : HReg)
  | trap (c : Ctl) (imm : BitVec 16)
  | eret (c : Ctl) (mode : EretMode)
  | uiret (c : Ctl)
  | crr (c : Ctl) (d : SReg) (cr : CReg)
  | crw (c : Ctl) (a : SImm) (cr : CReg)
  | crset (c : Ctl) (d : SReg) (a : SImm) (cr : CReg)
  | crclr (c : Ctl) (d : SReg) (a : SImm) (cr : CReg)
  | tstamp (c : Ctl) (d : SReg)
  | cyc (c : Ctl) (d : SReg)
  | ecrd (c : Ctl) (d : SReg) (n : BitVec 3)
  | eccfg (c : Ctl) (n : BitVec 3) (src : SImm)
  | ecsum (c : Ctl) (b : SReg) (opt : EcOpt) (bar : BitVec 7)
  | rng (c : Ctl) (d : SReg) (k x : SImm)
  | taskget (c : Ctl) (a k l : SReg) (how : How)
  | taskput (c : Ctl) (d : PReg) (key : SImm) (e : SReg) (arg : SImm)
  | taskend (c : Ctl)
  | taskab (c : Ctl) (code : SImm)
  | convoy (c : Ctl) (op : ConvoyOp)
  | tlbi (c : Ctl) (mode : TlbiMode) (a : SReg) (scope : TlbiScope)
  | rput (c : Ctl) (d : SReg) (pkg : SImm) (dst src : SReg) (len : SImm)
  | rflag (c : Ctl) (d : SReg) (pkg : SImm) (dst : SReg) (v : SImm)
  | rfence (c : Ctl) (d : SReg)
  | rsend (c : Ctl) (d : SReg) (h : HReg) (ch : BitVec 5)
  | rrecv (c : Ctl) (d : SReg) (h : HReg) (ch : BitVec 5)
  /-- R63: a word with no instruction of its own. -/
  | unassignedOpcode (w : Word)
  /-- R404, R406. -/
  | devConfig (seq : Nat) (block : Word)
  /-- R404, R405. -/
  | ctxCreate (seq ctx split : Nat) (gen root vec : Word) (wdLimit : Nat) (block : Word)
  /-- R404. -/
  | ctxKill (seq ctx : Nat) (gen : Word)
  /-- R214. -/
  | launch (seq ctx : Nat) (id card : Word) (size : Nat)
  /-- R243: pre-emption of a scope. -/
  | preempt (seq ctx : Nat) (scope : ReqScope)
  /-- R216: kill of a scope. -/
  | preemptKill (seq ctx : Nat) (scope : ReqScope)
  /-- R243. -/
  | resume (seq ctx : Nat) (scope : ReqScope)
  /-- R242. -/
  | pageAnswer (seq ctx : Nat) (refused : Bool) (gen va reqSeq : Word)
  /-- R319. -/
  | migrate (seq ctx size alloc : Nat) (va target replica : Word)
  /-- R404. -/
  | setLimit (seq w : Nat)
  /-- R412. -/
  | ringCfg (seq n pkg : Nat) (block : Word)
  /-- R414. -/
  | ckpt (seq : Nat) (extents : Word) (count : Nat)
  /-- R414. -/
  | ckptAbort (seq : Nat)
  /-- R415. -/
  | restore (seq : Nat) (extents : Word) (count : Nat) (digest : BitVec 256)
  /-- R405. -/
  | diagRead (seq kind : Nat) (target addr : Word) (count : Nat)
  /-- R403. -/
  | eventResend (seq n : Nat)
  /-- R417. -/
  | attest (seq : Nat) (nonce : BitVec 256) (addr : Word)
  /-- R410. -/
  | debugResume (seq ctx : Nat) (c : CoreId) (gen : Word)
  /-- R410. -/
  | debugHaltRequest (seq ctx : Nat) (c : CoreId) (gen : Word)
  /-- R188: core `c` enters its user-interrupt handler. -/
  | userInterruptEntry (c : CoreId)
  /-- R81: a SLEEP ends; `spurious`: it ends with no reason. -/
  | sleepWake (c : CoreId) (spurious : Bool)
  /-- R262: the outstanding load issued as access `n` of core `c` is performed. -/
  | loadReturn (c : CoreId) (n : Nat)
  /-- R234: poisoned data reaches the outstanding load `n` of core `c`. -/
  | loadDataUe (c : CoreId) (n : Nat)
  /-- R262: the buffered store issued as access `n` of core `c` drains. -/
  | storeDrain (c : CoreId) (n : Nat)
  /-- R118: the Sirocco window closes. -/
  | siroccoWindowClose
  /-- R118: the performed operation of core `c` completes for it. -/
  | scOperationComplete (c : CoreId)
  /-- R377: a line held by the synchronisation engine returns to its home. -/
  | syncLineReturn (line : Nat)
  /-- R121: the phase of barrier `b` that core `c` takes part in completes. -/
  | barrierPhaseComplete (c : CoreId) (b : Nat)
  /-- R229: one probe pass of the drain phase of barrier `b` of core `c`. -/
  | probePass (c : CoreId) (b : Nat)
  /-- R359: the merge unit merges the pairs of the VPMRG phase of `b` of core `c`. -/
  | vpmrgMerge (c : CoreId) (b : Nat)
  /-- R330: the job queue of cluster `cl` accepts an offered entry. -/
  | jobQueueAccept (cl : Nat)
  /-- R330: the oldest MJOB (`mx`) or copy entry leaves the job queue. -/
  | jobQueueDepart (cl : Nat) (mx : Bool)
  /-- R329: the first arrived operation not yet started starts. -/
  | matrixOperationStart (cl : Nat)
  /-- R340: the running operation `op` commits its next step. -/
  | matrixStepCommit (cl op : Nat)
  /-- R166: the last cluster of the chain of operation `op` adds the partial tiles. -/
  | chainAdd (cl op : Nat)
  /-- R174: the next free slot of the STREAM handle is filled. -/
  | streamSlotFill (c : CoreId) (h : HReg)
  /-- R156: operation `n` of the timeline completes or fails. -/
  | engineOperationComplete (c : CoreId) (tl : Timeline) (n : Nat)
  /-- R369: the open batch of a sorter closes. -/
  | sorterBatchClose (sorter : Nat)
  /-- R373: the pending pairs of a 4 KiB block of a context are applied. -/
  | updateApply (ctx line : Nat)
  /-- R374: a sorter's background flush applies the bin of a line. -/
  | backgroundFlush (sorter line : Nat)
  /-- R313: a line is installed at its home slice. -/
  | l2Install (slice line : Nat)
  /-- R313: a partial write waiting at home is performed. -/
  | l2Write (slice line : Nat)
  /-- R313: the idle sweep rehashes a tag written in place. -/
  | idleSweep (slice line : Nat)
  /-- R294: a tier write waiting for a slot is performed. -/
  | tierWrite (line : Nat)
  /-- R297: a tier line is read and checked; `good`: whether a refetch of a malformed line succeeded. -/
  | tierRead (line : Nat) (good : Bool)
  /-- R318: the oldest unsettled view write is settled. -/
  | viewSettle
  /-- R255: a put packet of package `pkg` and its ring context arrives on `path`. -/
  | ringPacketPerform (pkg rctx : Nat) (path : PathSeq) (dst : Word) (data : List Byte)
  /-- R256: an ordered flag arrives, or a held one is performed. -/
  | orderedFlagPerform (pkg rctx : Nat) (path : PathSeq) (dst v : Word) (counts : List Nat)
  /-- R257: a packet of ring operation `n` of core `c` is acknowledged on `path`, with the target's status. -/
  | ringAck (c : CoreId) (n path : Nat) (status : Byte)
  /-- R202: a slot arrives on channel `ch` of `port`. -/
  | ringSlotArrive (port ch : Nat) (data : List Byte)
  /-- R413: a flit of a link is sent again. -/
  | flitRetransmit (link : Nat)
  /-- R413: a lane of a link is retired. -/
  | laneRetire (link : Nat)
  /-- R413: a link goes down. -/
  | linkDown (link : Nat)
  /-- R222: a READY core node takes an idle core of its home cluster. -/
  | nodePlacement (ctx launch node : Nat)
  /-- R222: a core node spills over after its wait. -/
  | nearSpillOver (ctx launch node : Nat)
  /-- R223: a gang node starts on its home cluster. -/
  | gangPlacement (ctx launch node : Nat)
  /-- R224: a persistent launch starts. -/
  | persistentStart (ctx launch : Nat)
  /-- R197: the node in ENDING is reported. -/
  | taskCompletionReport (ctx launch node : Nat)
  /-- R243: the pending request of core `c` is taken. -/
  | preemptHalt (c : CoreId)
  /-- R243: loads have returned and stores have drained. -/
  | drainDone (c : CoreId)
  /-- R246: the save record is written. -/
  | saveDone (c : CoreId)
  /-- R245: the saved work of core record `c` of a context is reloaded onto core `onto`. -/
  | contextRestoreDone (ctx : Nat) (c onto : CoreId)
  /-- R240: a held aborted node enters the pool. -/
  | replayRelease (ctx launch node : Nat)
  /-- R248: the watchdog count of core `c` has passed its limit. -/
  | watchdogExpiry (c : CoreId)
  /-- R388: a division; the measured draw, the cores' demands, and what the tiles would draw, under 8 tile + point, are
  readings in mW. -/
  | budgetDivision (draw : Nat) (demands draws : List (Nat × Nat))
  /-- R387: a tile takes its new operating point. -/
  | operatingPointChange (tile : Nat)
  /-- R389: a power sample in mW. -/
  | powerSample (mw : Nat)
  /-- R381: a tile senses a droop of `mv`. -/
  | droopAlarm (tile mv : Nat)
  /-- R381: the halved window of a tile ends. -/
  | droopHalvingEnd (tile : Nat)
  /-- R392: a dwell ends with a count of canary errors; `early`: by one of the early ends. -/
  | calibrationDwellEnd (tile errors : Nat) (early : Bool)
  /-- R251: an uncorrectable error in an open window; the failing store as R409 codes it. -/
  | calibUe (tile store : Nat) (lines : List Nat)
  /-- R393: a measurement; `grown`: the delay exceeds what the guardband covers. -/
  | ageingMeasure (tile : Nat) (grown : Bool)
  /-- R394: a scrub read; `err`: 0 none, 1 corrected, 2 uncorrectable. -/
  | patrolScrub (site : Site) (err : Nat)
  /-- R249: a corrected error. -/
  | correctedError (site : Site) (canary : Bool)
  /-- R250: an uncorrectable error in a line. -/
  | uncorrectableError (site : Site)
  /-- R249: a register-file parity error in the register with this specifier. -/
  | registerParityError (c : CoreId) (reg : Byte)
  /-- R396: the telemetry of a die; readings per tile: mW, 0.125 degrees. -/
  | telemetrySample (die : Nat) (readings : List (Nat × Nat))
  /-- R402: the host writes STREAM_TAIL n. -/
  | streamTailWrite (n : Nat) (v : Word)
  /-- R403: the host writes EVENT_HEAD. -/
  | eventHeadWrite (v : Word)
  /-- R411: the host writes ATTACH. -/
  | reattach (epoch : BitVec 32)
  /-- R410: the host writes WAKE. -/
  | wake (v : Word)
  /-- R398: the host writes another BAR0 register. -/
  | hostRegisterWrite (off : Nat) (v : Word)
  /-- R397: a BAR2 access at an offset: a read of `len` bytes, or a write of `data`. -/
  | hostWindowAccess (off len : Nat) (data : Option (List Byte))
  /-- R414, R415: the running stream ends. -/
  | checkpointStreamEnd
  /-- R402: 1 ms of waiting for a missing SEQ. -/
  | seqGap
  /-- R400. -/
  | msiXInterrupt
  /-- R416: device reset; which image slots verify. -/
  | deviceReset (slotA slotB : Bool)
  /-- R367: the pair at position `i` of those in flight arrives at its sorter. -/
  | updatePairArrival (i : Nat)
  /-- R319: the migration of a page reaches the end of step 5. -/
  | migrationComplete (ctx page : Nat)
  /-- R392: the suspension of stepping at a point expires. -/
  | calibrationStepResume (tile point : Nat)
  /-- R413: a link finishes training with a number of good lanes. -/
  | linkTrained (link lanes : Nat)
  deriving DecidableEq, Repr

end Sys2Proof
end

