-- ==== Sys2Proof/WellFormed.lean ====
section
/-! DEFINITION. Which instructions of the syntax the opcode map can encode: the conditions that the decoding checks 3
and 4 of R58 put on a word beyond its slots' own classes. For an event: its numbers lie in their ranges (R3). -/
namespace Sys2Proof

/-- Element width in bits (R129). -/
def VType.width : VType → Nat
  | .i8 | .n8 | .lg6 => 8
  | .i16 | .n16 | .bf16 => 16
  | .i32 | .n32 | .fp32 => 32
  | .i64 | .n64 => 64

def VType.isSigned : VType → Bool
  | .i8 | .i16 | .i32 | .i64 => true
  | .n8 | .n16 | .n32 | .n64 | .bf16 | .fp32 | .lg6 => false

def VType.isFloat : VType → Bool
  | .bf16 | .fp32 => true
  | .i8 | .n8 | .i16 | .n16 | .i32 | .n32 | .i64 | .n64 | .lg6 => false

def VType.isInt (t : VType) : Bool := !t.isFloat && t != .lg6

/-- Types of VLUT (R140). -/
def VType.isLut (t : VType) : Bool := t.isInt && t.width ≤ 16

/-- Types of VCOMP and VEXPD (R148). -/
def VType.isComp (t : VType) : Bool := t == .i8 || t == .lg6

/-- No immediate beside a float type (R130). -/
def VSrc.fits (t : VType) : VSrc → Bool
  | .imm _ => !t.isFloat
  | .v _ | .s _ => true

/-- No immediate beside a float type (R130, R137, R146). -/
def SImm.fits (t : VType) : SImm → Bool
  | .imm _ => !t.isFloat
  | .s _ => true

/-- Parts of VCVT (R143). -/
def cvtParts (dst src : VType) : Nat :=
  if src.width < dst.width then dst.width / src.width
  else if dst.width < src.width then src.width / dst.width else 1

/-- Destination bits per element of VQMX (R144). -/
def QFmt.bits : QFmt → Nat
  | .m8 => 8
  | .m4 => 4

/-- Conditions of VCMP on type and condition (R136). -/
def vcmpOk (cond : VCond) (t : VType) : Bool :=
  t.isInt || (t == .lg6 && (cond == .eq || cond == .ne))

/-- Registers CRW may name (R189). -/
def CReg.writable : CReg → Bool
  | .coreId | .tileId | .clusterId | .dieId | .pkgId | .ctxGen | .status | .tbBal | .tl _ | .lastHostSeq
  | .lastDevSeq => false
  | .spillBase | .spillOvf | .uivec | .uiPc | .uiBlk | .uiEn | .uiCause | .trapCause | .trapPc | .trapInfo
  | .trapBlk | .trapStatus | .fduty | .droopThr | .droopCfg | .tbCfg | .ec _ | .ecsel _ | .rgPath _
  | .member _ => true

/-- Registers CRSET and CRCLR may name: writable and not W1C (R189). -/
def CReg.modifiable (r : CReg) : Bool := r.writable && r != .uiCause

/-- No cache hint, no handle: CH and SC.ADV are zero (R41, R42). -/
def Ctl.plain (c : Ctl) : Bool := c.ch == 0 && !c.adv
/-- An asterisk opcode without a handle source: CH is free (R41). -/
def Ctl.hinted (c : Ctl) : Bool := !c.adv
/-- A handle source: SC.ADV is free (R42). -/
def Ctl.handleSource (c : Ctl) : Bool := c.ch == 0
/-- A handle object: SC.N and SC.ADV are zero (R172). -/
def Ctl.handleObject (c : Ctl) : Bool := c.plain && c.n == 0
/-- A handle object on an asterisk opcode. -/
def Ctl.hintedObject (c : Ctl) : Bool := c.hinted && c.n == 0

/-- The control field by HSTAT's field, which sets the role of its handle (R173). -/
def Ctl.hstatOk (c : Ctl) : HstatField → Bool
  | .source => c.handleSource
  | .destination => c.plain
  | .object => c.handleObject

/-- Integer types of FCVT (R96). -/
def CvtType.isInt : CvtType → Bool
  | .fp32 | .bf16 => false
  | .i32 | .i64 | .n32 | .n64 => true

/-- An immediate source. -/
def Src.isImm : Src → Bool
  | .imm _ => true
  | .s _ | .p _ => false

/-- FCVT converts between a float and something else (R96). -/
def fcvtOk (dst src : CvtType) : Bool := dst != src && !(dst.isInt && src.isInt)

/-- Opcodes that no instruction has: dashes of the map, 0x1FF and, inside a block body, 0x1FE (R62, R63). -/
def opUnassigned (op : Nat) : Bool :=
  !((0x001 ≤ op && op ≤ 0x00B) ||
    (0x040 ≤ op && op ≤ 0x04E) ||
    (0x050 ≤ op && op ≤ 0x054) ||
    (0x058 ≤ op && op ≤ 0x05C) ||
    (0x060 ≤ op && op ≤ 0x06C) ||
    (0x080 ≤ op && op ≤ 0x085) ||
    (0x0C0 ≤ op && op ≤ 0x0CA) ||
    (0x100 ≤ op && op ≤ 0x109) ||
    (0x110 ≤ op && op ≤ 0x113) ||
    (0x118 ≤ op && op ≤ 0x120) ||
    (0x128 ≤ op && op ≤ 0x12A) ||
    (0x130 ≤ op && op ≤ 0x133) ||
    (0x138 ≤ op && op ≤ 0x13A) ||
    (0x140 ≤ op && op ≤ 0x141) ||
    (0x160 ≤ op && op ≤ 0x160) ||
    (0x168 ≤ op && op ≤ 0x17C) ||
    (0x180 ≤ op && op ≤ 0x186) ||
    (0x188 ≤ op && op ≤ 0x18D) ||
    (0x190 ≤ op && op ≤ 0x192) ||
    (0x198 ≤ op && op ≤ 0x19C) ||
    (0x1A0 ≤ op && op ≤ 0x1A6) ||
    (0x1A8 ≤ op && op ≤ 0x1BA) ||
    (0x1C0 ≤ op && op ≤ 0x1C5) ||
    (0x1C8 ≤ op && op ≤ 0x1CA) ||
    (0x1CC ≤ op && op ≤ 0x1CE) ||
    (0x1D0 ≤ op && op ≤ 0x1D4) ||
    (0x1E0 ≤ op && op ≤ 0x1E6) ||
    (0x1E8 ≤ op && op ≤ 0x1ED) ||
    (0x1F0 ≤ op && op ≤ 0x1F5) ||
    (0x1F8 ≤ op && op ≤ 0x1FC))

/-- A word of such an opcode. -/
def opcodeUnassigned (w : Word) : Bool := opUnassigned (w.toNat / 2 ^ 55)

/-- What the opcode map can encode, and events with numbers in range. -/
def Instr.wf : Instr → Bool
  | .nop c => c.plain
  | .br c .. => c.plain
  | .brc c .. => c.plain
  | .brx c .. => c.plain
  | .call c .. => c.plain
  | .callx c .. => c.plain
  | .ret c .. => c.plain
  | .loop c .. => c.plain
  | .halt c => c.plain
  | .sleep c .. => c.plain
  | .yield c => c.plain
  | .add c .. => c.plain
  | .sub c .. => c.plain
  | .mul c .. => c.plain
  | .mulh c .. => c.plain
  | .mulhn c .. => c.plain
  | .div c .. => c.plain
  | .divn c .. => c.plain
  | .rem c .. => c.plain
  | .remn c .. => c.plain
  | .neg c .. => c.plain
  | .abs c .. => c.plain
  | .min c .. => c.plain
  | .max c .. => c.plain
  | .minn c .. => c.plain
  | .maxn c .. => c.plain
  | .and c .. => c.plain
  | .or c .. => c.plain
  | .xor c .. => c.plain
  | .andn c .. => c.plain
  | .orn c .. => c.plain
  | .shl c .. => c.plain
  | .shr c .. => c.plain
  | .sar c .. => c.plain
  | .rol c .. => c.plain
  | .ror c .. => c.plain
  | .clz c .. => c.plain
  | .ctz c .. => c.plain
  | .popc c .. => c.plain
  | .brev c .. => c.plain
  | .bext c .. => c.plain
  | .bins c .. => c.plain
  | .sext c .. => c.plain
  | .zext c .. => c.plain
  | .sel c .. => c.plain
  | .mov c .. => c.plain
  | .limm c _ part imm => c.plain && (part != .top || imm.toNat < 65536)
  | .addr c .. => c.plain
  | .cmp c .. => c.plain
  | .pand c .. => c.plain
  | .por c .. => c.plain
  | .pxor c .. => c.plain
  | .pnot c .. => c.plain
  | .pset c .. => c.plain
  | .pget c .. => c.plain
  | .fadd c .. => c.plain
  | .fsub c .. => c.plain
  | .fmul c .. => c.plain
  | .ffma c .. => c.plain
  | .fmin c .. => c.plain
  | .fmax c .. => c.plain
  | .fabs c .. => c.plain
  | .fneg c .. => c.plain
  | .fcmp c .. => c.plain
  | .fcvt c _ a dst src => c.plain && fcvtOk dst src && (src.isInt || !a.isImm)
  | .frnd c .. => c.plain
  | .ld c .. => c.hinted
  | .st c .. => c.hinted
  | .ldp c d1 d2 .. => c.hinted && (d1 != d2 || d1 == 0)
  | .stp c .. => c.hinted
  | .ldv c .. => c.hinted
  | .stv c .. => c.hinted
  | .ldvs c .. => c.hinted
  | .stvs c .. => c.hinted
  | .prf c .. => c.hinted
  | .fll c .. => c.hinted
  | .fence c .. => c.plain
  | .acq c .. => c.plain
  | .rel c .. => c.plain
  | .sobj c .. => c.plain
  | .aadd c .. => c.plain
  | .amin c .. => c.plain
  | .amax c .. => c.plain
  | .aand c .. => c.plain
  | .aor c .. => c.plain
  | .axor c .. => c.plain
  | .axchg c .. => c.plain
  | .acas c .. => c.plain
  | .anadd c .. => c.plain
  | .scld c .. => c.plain
  | .scst c .. => c.plain
  | .scxch c .. => c.plain
  | .bara c .. => c.plain
  | .barw c .. => c.plain
  | .bart c .. => c.plain
  | .barm c .. => c.plain
  | .tlwait c .. => c.plain
  | .tlrd c .. => c.plain
  | .tlpoll c .. => c.plain
  | .phase c .. => c.plain
  | .pdrain c .. => c.plain
  | .vmode c .. => c.plain
  | .vadd c _ _ b _ t => c.plain && b.fits t && t.isInt
  | .vsub c _ _ b _ t => c.plain && b.fits t && t.isInt
  | .vadds c _ _ b _ t => c.plain && b.fits t && t.isInt
  | .vsubs c _ _ b _ t => c.plain && b.fits t && t.isInt
  | .vmul c _ _ b _ t => c.plain && b.fits t && t.isInt
  | .vmulh c _ _ b _ t => c.plain && b.fits t && t.isInt
  | .vmin c _ _ b _ t => c.plain && b.fits t && t.isInt
  | .vmax c _ _ b _ t => c.plain && b.fits t && t.isInt
  | .vabs c _ _ _ t => c.plain && t.isSigned
  | .vand c _ _ b _ t => c.plain && b.fits t
  | .vor c _ _ b _ t => c.plain && b.fits t
  | .vxor c _ _ b _ t => c.plain && b.fits t
  | .vshl c _ _ b _ t => c.plain && b.fits t && t.isInt
  | .vshr c _ _ b _ t => c.plain && b.fits t && t.isInt
  | .vsar c _ _ b _ t => c.plain && b.fits t && t.isInt
  | .vcmp c _ _ b _ cond t => c.plain && b.fits t && vcmpOk cond t
  | .vsel c _ _ b _ t => c.plain && b.fits t
  | .vmov c _ b _ t => c.plain && b.fits t
  | .vbc c .. => c.plain
  | .vext c .. => c.plain
  | .vins c _ a _ t => c.plain && a.fits t
  | .vfadd c _ _ b _ t => c.plain && b.fits t && t.isFloat
  | .vfsub c _ _ b _ t => c.plain && b.fits t && t.isFloat
  | .vfmul c _ _ b _ t => c.plain && b.fits t && t.isFloat
  | .vffma c _ _ b _ t => c.plain && b.fits t && t.isFloat
  | .vfmin c _ _ b _ t => c.plain && b.fits t && t.isFloat
  | .vfmax c _ _ b _ t => c.plain && b.fits t && t.isFloat
  | .vfcmp c _ _ b _ _ t => c.plain && b.fits t && t.isFloat
  | .vexp2 c _ _ _ t => c.plain && t.isFloat
  | .vlog2 c _ _ _ t => c.plain && t.isFloat
  | .vrcp c _ _ _ t => c.plain && t.isFloat
  | .vrsq c _ _ _ t => c.plain && t.isFloat
  | .vtanh c _ _ _ t => c.plain && t.isFloat
  | .vlut c _ _ _ _ t => c.plain && t.isLut
  | .vrsum c _ _ _ t => c.plain && t != .lg6
  | .vrmax c _ _ _ t => c.plain && t != .lg6
  | .vrmin c _ _ _ t => c.plain && t != .lg6
  | .vperm c .. => c.plain
  | .vshuf c .. => c.plain
  | .vslide c .. => c.plain
  | .vzip c .. => c.plain
  | .vuzp c .. => c.plain
  | .vcvt c _ _ _ part dst src => c.plain && dst != src && dst != .lg6 && src != .lg6 && part.toNat < cvtParts dst src
  | .vqmx c _ _ _ part _ fmt src => c.plain && src.isFloat && part.toNat < src.width / fmt.bits
  | .vtern c _ _ thr part t => c.plain && thr.fits t && t != .lg6 && part.toNat < t.width / 8
  | .vpk5 c .. => c.plain
  | .vupk5 c .. => c.plain
  | .vtolg c _ _ _ part _ src => c.plain && src.isFloat && part.toNat < src.width / 8
  | .vfrlg c _ _ _ part t => c.plain && t.isFloat && part.toNat < t.width / 8
  | .vcomp c d m _ _ pat t => c.plain && t.isComp && (t == .i8 || pat == .p24) && d != m
  | .vexpd c d m _ _ pat t => c.plain && t.isComp && (t == .i8 || pat == .p24) && d != m
  | .vpmrg c .. => c.plain
  | .kand c .. => c.plain
  | .kor c .. => c.plain
  | .knot c .. => c.plain
  | .kpop c .. => c.plain
  | .kfirst c .. => c.plain
  | .mcfg c .. => c.plain
  | .mperm c .. => c.plain
  | .mscl c .. => c.plain
  | .mgang c .. => c.plain
  | .mjob c .. => c.plain
  | .macr c .. => c.plain
  | .macz c .. => c.plain
  | .macw c _ _ t .. => c.plain && t != .stat
  | .mbld c .. => c.hinted
  | .jwait c .. => c.plain
  | .jpoll c .. => c.plain
  | .hcfg c .. => c.handleObject
  | .hbind c .. => c.hintedObject
  | .hadvp c .. => c.plain
  | .hadvc c .. => c.plain
  | .hstat c _ _ field => c.hstatOk field
  | .hunb c .. => c.handleObject
  | .cpy c .. => c.hinted
  | .cpyt c .. => c.hinted
  | .cthr c .. => c.hinted
  | .gth c .. => c.hinted
  | .gthm c .. => c.hintedObject
  | .gmsk c .. => c.plain
  | .ureg c .. => c.handleObject
  | .upd c .. => c.handleObject
  | .updv c .. => c.handleObject
  | .uflsh c .. => c.handleObject
  | .uqry c .. => c.handleObject
  | .trap c .. => c.plain
  | .eret c .. => c.plain
  | .uiret c => c.plain
  | .crr c .. => c.plain
  | .crw c _ cr => c.plain && cr.writable
  | .crset c _ _ cr => c.plain && cr.modifiable
  | .crclr c _ _ cr => c.plain && cr.modifiable
  | .tstamp c .. => c.plain
  | .cyc c .. => c.plain
  | .ecrd c .. => c.plain
  | .eccfg c .. => c.plain
  | .ecsum c .. => c.plain
  | .rng c .. => c.plain
  | .taskget c .. => c.plain
  | .taskput c .. => c.plain
  | .taskend c => c.plain
  | .taskab c .. => c.plain
  | .convoy c .. => c.plain
  | .tlbi c .. => c.plain
  | .rput c .. => c.hinted
  | .rflag c .. => c.plain
  | .rfence c .. => c.plain
  | .rsend c .. => c.handleSource
  | .rrecv c .. => c.plain
  | .unassignedOpcode w => opcodeUnassigned w
  | .devConfig .. => true
  | .ctxCreate .. => true
  | .ctxKill .. => true
  | .launch .. => true
  | .preempt .. => true
  | .preemptKill .. => true
  | .resume .. => true
  | .pageAnswer .. => true
  | .migrate .. => true
  | .setLimit .. => true
  | .ringCfg .. => true
  | .ckpt .. => true
  | .ckptAbort .. => true
  | .restore .. => true
  | .diagRead .. => true
  | .eventResend .. => true
  | .attest .. => true
  | .debugResume .. => true
  | .debugHaltRequest .. => true
  | .userInterruptEntry c => c < 512
  | .sleepWake c _ => c < 512
  | .loadReturn c _ => c < 512
  | .loadDataUe c _ => c < 512
  | .storeDrain c _ => c < 512
  | .siroccoWindowClose => true
  | .scOperationComplete c => c < 512
  | .syncLineReturn .. => true
  | .barrierPhaseComplete c b => c < 512 && b < 128
  | .probePass c b => c < 512 && b < 128
  | .vpmrgMerge c b => c < 512 && b < 128
  | .jobQueueAccept cl => cl < 64
  | .jobQueueDepart cl _ => cl < 64
  | .matrixOperationStart cl => cl < 64
  | .matrixStepCommit cl _ => cl < 64
  | .chainAdd cl _ => cl < 64
  | .streamSlotFill c _ => c < 512
  | .engineOperationComplete c _ _ => c < 512
  | .sorterBatchClose x => x < 16
  | .updateApply .. => true
  | .backgroundFlush x _ => x < 16
  | .l2Install x _ => x < 128
  | .l2Write x _ => x < 128
  | .idleSweep x _ => x < 128
  | .tierWrite .. => true
  | .tierRead .. => true
  | .viewSettle => true
  | .ringPacketPerform _ _ p _ _ => p.path < 4
  | .orderedFlagPerform _ _ p _ _ _ => p.path < 4
  | .ringAck c _ p _ => c < 512 && p < 4
  | .ringSlotArrive p ch _ => p < 2 && ch < 16
  | .flitRetransmit l => l < 4
  | .laneRetire l => l < 4
  | .linkDown l => l < 4
  | .nodePlacement .. => true
  | .nearSpillOver .. => true
  | .gangPlacement .. => true
  | .persistentStart .. => true
  | .taskCompletionReport .. => true
  | .preemptHalt c => c < 512
  | .drainDone c => c < 512
  | .saveDone c => c < 512
  | .contextRestoreDone _ c o => c < 512 && o < 512
  | .replayRelease .. => true
  | .watchdogExpiry c => c < 512
  | .budgetDivision .. => true
  | .operatingPointChange x => x < 128
  | .powerSample .. => true
  | .droopAlarm x _ => x < 128
  | .droopHalvingEnd x => x < 128
  | .calibrationDwellEnd x _ _ => x < 128
  | .calibUe x _ _ => x < 128
  | .ageingMeasure x _ => x < 128
  | .patrolScrub .. => true
  | .correctedError .. => true
  | .uncorrectableError .. => true
  | .registerParityError c _ => c < 512
  | .telemetrySample d _ => d < 4
  | .streamTailWrite n _ => n ≤ 16
  | .eventHeadWrite .. => true
  | .reattach .. => true
  | .wake .. => true
  | .hostRegisterWrite .. => true
  | .hostWindowAccess .. => true
  | .checkpointStreamEnd => true
  | .seqGap => true
  | .msiXInterrupt => true
  | .deviceReset .. => true
  | .updatePairArrival .. => true
  | .migrationComplete .. => true
  | .calibrationStepResume x p => x < 128 && p < 8
  | .linkTrained l n => l < 4 && n ≤ 16

end Sys2Proof
end

