-- ==== Sys2Proof/Decode.lean ====
section
/-! DEFINITION. Decoding of instruction words and block headers (R38 to R63), and the encoder written from the same
tables. A word's checks 2 to 4 of R58 give a rejection by subcode and slot (R59). -/
namespace Sys2Proof

/-! ## Operand specifiers (R44) -/

/-- What an 8-bit specifier names (R44). -/
inductive Spec where
  | s (r : SReg)
  | v (r : VReg)
  | h (r : HReg)
  | k (r : KReg)
  | p (r : PReg)
  | imm (i : Imm)
  deriving DecidableEq, Repr

/-- R44, the table of specifiers read from the value. -/
def specOf (b : Byte) : Spec :=
  if b.extractLsb' 7 1 = 1#1 then .imm (b.extractLsb' 0 7)
  else if b.extractLsb' 6 1 = 0#1 then .s (b.extractLsb' 0 6)
  else if b.extractLsb' 5 1 = 0#1 then .v (b.extractLsb' 0 5)
  else if b.extractLsb' 4 1 = 0#1 then .h (b.extractLsb' 0 4)
  else if b.extractLsb' 3 1 = 0#1 then .k (b.extractLsb' 0 3)
  else .p (b.extractLsb' 0 3)

/-- R44, the value of a specifier. -/
def Spec.byte : Spec → Byte
  | .s r => 0#2 ++ r
  | .v r => 0b010#3 ++ r
  | .h r => 0b0110#4 ++ r
  | .k r => 0b01110#5 ++ r
  | .p r => 0b01111#5 ++ r
  | .imm i => 1#1 ++ i

/-- The value of an immediate specifier: the specifier minus 0xC0 (R44). -/
def Imm.value (i : Imm) : Int := (i.toNat : Int) - 64

def Src.byte : Src → Byte
  | .s r => Spec.byte (.s r)
  | .p r => Spec.byte (.p r)
  | .imm i => Spec.byte (.imm i)
def SImm.byte : SImm → Byte
  | .s r => Spec.byte (.s r)
  | .imm i => Spec.byte (.imm i)
def SPred.byte : SPred → Byte
  | .s r => Spec.byte (.s r)
  | .p r => Spec.byte (.p r)
def PImm.byte : PImm → Byte
  | .p r => Spec.byte (.p r)
  | .imm i => Spec.byte (.imm i)
def VSrc.byte : VSrc → Byte
  | .v r => Spec.byte (.v r)
  | .s r => Spec.byte (.s r)
  | .imm i => Spec.byte (.imm i)
/-- A mask, or 0x00 for none (R130). -/
def KOpt.byte : KOpt → Byte
  | none => 0
  | some r => Spec.byte (.k r)

def Spec.sreg : Spec → Option SReg
  | .s r => some r
  | .v _ | .h _ | .k _ | .p _ | .imm _ => none
def Spec.preg : Spec → Option PReg
  | .p r => some r
  | .v _ | .h _ | .k _ | .s _ | .imm _ => none
def Spec.vreg : Spec → Option VReg
  | .v r => some r
  | .p _ | .h _ | .k _ | .s _ | .imm _ => none
def Spec.kreg : Spec → Option KReg
  | .k r => some r
  | .p _ | .h _ | .v _ | .s _ | .imm _ => none
def Spec.hreg : Spec → Option HReg
  | .h r => some r
  | .p _ | .k _ | .v _ | .s _ | .imm _ => none
def Spec.immediate : Spec → Option Imm
  | .imm i => some i
  | .p _ | .k _ | .v _ | .s _ | .h _ => none
def Spec.src : Spec → Option Src
  | .s r => some (.s r)
  | .p r => some (.p r)
  | .imm i => some (.imm i)
  | .v _ | .h _ | .k _ => none
def Spec.simm : Spec → Option SImm
  | .s r => some (.s r)
  | .imm i => some (.imm i)
  | .v _ | .h _ | .k _ | .p _ => none
def Spec.spred : Spec → Option SPred
  | .s r => some (.s r)
  | .p r => some (.p r)
  | .v _ | .h _ | .k _ | .imm _ => none
def Spec.pimm : Spec → Option PImm
  | .p r => some (.p r)
  | .imm i => some (.imm i)
  | .v _ | .h _ | .k _ | .s _ => none
def Spec.vsrc : Spec → Option VSrc
  | .v r => some (.v r)
  | .s r => some (.s r)
  | .imm i => some (.imm i)
  | .p _ | .h _ | .k _ => none

/-- A mask slot: 0x00 is none (R130). -/
def kopt (b : Byte) : Option KOpt := if b = 0 then some none else (specOf b).kreg.map some

/-! ## Selector bytes (R45, R72) -/

def CondZ.code : CondZ → Nat
  | .eqz => 0
  | .nez => 1
  | .ltz => 2
  | .lez => 3
  | .gtz => 4
  | .gez => 5
def CondZ.ofCode : Nat → Option CondZ
  | 0 => some .eqz
  | 1 => some .nez
  | 2 => some .ltz
  | 3 => some .lez
  | 4 => some .gtz
  | 5 => some .gez
  | _ => none

def ExtW.code : ExtW → Nat
  | .w8 => 0
  | .w16 => 1
  | .w32 => 2
def ExtW.ofCode : Nat → Option ExtW
  | 0 => some .w8
  | 1 => some .w16
  | 2 => some .w32
  | _ => none

def LimmPart.code : LimmPart → Nat
  | .lo => 0
  | .mid => 1
  | .top => 2
def LimmPart.ofCode : Nat → Option LimmPart
  | 0 => some .lo
  | 1 => some .mid
  | 2 => some .top
  | _ => none

def Cond.code : Cond → Nat
  | .eq => 0
  | .ne => 1
  | .lt => 2
  | .le => 3
  | .gt => 4
  | .ge => 5
  | .ltn => 6
  | .len => 7
def Cond.ofCode : Nat → Option Cond
  | 0 => some .eq
  | 1 => some .ne
  | 2 => some .lt
  | 3 => some .le
  | 4 => some .gt
  | 5 => some .ge
  | 6 => some .ltn
  | 7 => some .len
  | _ => none

def FType.code : FType → Nat
  | .fp32 => 0
  | .bf16 => 1
def FType.ofCode : Nat → Option FType
  | 0 => some .fp32
  | 1 => some .bf16
  | _ => none

def FCond.code : FCond → Nat
  | .eq => 0
  | .ne => 1
  | .lt => 2
  | .le => 3
  | .gt => 4
  | .ge => 5
  | .un => 6
def FCond.ofCode : Nat → Option FCond
  | 0 => some .eq
  | 1 => some .ne
  | 2 => some .lt
  | 3 => some .le
  | 4 => some .gt
  | 5 => some .ge
  | 6 => some .un
  | _ => none

def CvtType.code : CvtType → Nat
  | .fp32 => 0
  | .bf16 => 1
  | .i32 => 2
  | .i64 => 3
  | .n32 => 4
  | .n64 => 5
def CvtType.ofCode : Nat → Option CvtType
  | 0 => some .fp32
  | 1 => some .bf16
  | 2 => some .i32
  | 3 => some .i64
  | 4 => some .n32
  | 5 => some .n64
  | _ => none

def Rnd.code : Rnd → Nat
  | .rne => 0
  | .rtz => 1
  | .rdn => 2
  | .rup => 3
  | .rna => 4
def Rnd.ofCode : Nat → Option Rnd
  | 0 => some .rne
  | 1 => some .rtz
  | 2 => some .rdn
  | 3 => some .rup
  | 4 => some .rna
  | _ => none

def MemSize.code : MemSize → Nat
  | .i8 => 0
  | .n8 => 1
  | .i16 => 2
  | .n16 => 3
  | .i32 => 4
  | .n32 => 5
  | .i64 => 6
def MemSize.ofCode : Nat → Option MemSize
  | 0 => some .i8
  | 1 => some .n8
  | 2 => some .i16
  | 3 => some .n16
  | 4 => some .i32
  | 5 => some .n32
  | 6 => some .i64
  | _ => none

def ElSize.code : ElSize → Nat
  | .b1 => 0
  | .b2 => 1
  | .b4 => 2
  | .b8 => 3
def ElSize.ofCode : Nat → Option ElSize
  | 0 => some .b1
  | 1 => some .b2
  | 2 => some .b4
  | 3 => some .b8
  | _ => none

def PrfLevel.code : PrfLevel → Nat
  | .l1 => 0
  | .l2 => 1
def PrfLevel.ofCode : Nat → Option PrfLevel
  | 0 => some .l1
  | 1 => some .l2
  | _ => none

def FllMode.code : FllMode → Nat
  | .clean => 0
  | .cleaninv => 1
def FllMode.ofCode : Nat → Option FllMode
  | 0 => some .clean
  | 1 => some .cleaninv
  | _ => none

def Scope.code : Scope → Nat
  | .core => 0
  | .tile => 1
  | .cluster => 2
  | .die => 3
  | .package => 4
  | .system => 5
def Scope.ofCode : Nat → Option Scope
  | 0 => some .core
  | 1 => some .tile
  | 2 => some .cluster
  | 3 => some .die
  | 4 => some .package
  | 5 => some .system
  | _ => none

def AType.code : AType → Nat
  | .i32 => 0
  | .i64 => 1
  | .n32 => 2
  | .n64 => 3
def AType.ofCode : Nat → Option AType
  | 0 => some .i32
  | 1 => some .i64
  | 2 => some .n32
  | 3 => some .n64
  | _ => none

def Timeline.code : Timeline → Nat
  | .mx => 0
  | .cp => 1
  | .gt => 2
  | .up => 3
  | .rg => 4
def Timeline.ofCode : Nat → Option Timeline
  | 0 => some .mx
  | 1 => some .cp
  | 2 => some .gt
  | 3 => some .up
  | 4 => some .rg
  | _ => none

def TlWhich.code : TlWhich → Nat
  | .done => 0
  | .issued => 1
def TlWhich.ofCode : Nat → Option TlWhich
  | 0 => some .done
  | 1 => some .issued
  | _ => none

def PhaseMode.code : PhaseMode → Nat
  | .comp => 0
  | .comm => 1
def PhaseMode.ofCode : Nat → Option PhaseMode
  | 0 => some .comp
  | 1 => some .comm
  | _ => none

def VType.code : VType → Nat
  | .i8 => 0
  | .n8 => 1
  | .i16 => 2
  | .n16 => 3
  | .i32 => 4
  | .n32 => 5
  | .i64 => 6
  | .n64 => 7
  | .bf16 => 8
  | .fp32 => 9
  | .lg6 => 10
def VType.ofCode : Nat → Option VType
  | 0 => some .i8
  | 1 => some .n8
  | 2 => some .i16
  | 3 => some .n16
  | 4 => some .i32
  | 5 => some .n32
  | 6 => some .i64
  | 7 => some .n64
  | 8 => some .bf16
  | 9 => some .fp32
  | 10 => some .lg6
  | _ => none

def VCond.code : VCond → Nat
  | .eq => 0
  | .ne => 1
  | .lt => 2
  | .le => 3
  | .gt => 4
  | .ge => 5
def VCond.ofCode : Nat → Option VCond
  | 0 => some .eq
  | 1 => some .ne
  | 2 => some .lt
  | 3 => some .le
  | 4 => some .gt
  | 5 => some .ge
  | _ => none

def Half.code : Half → Nat
  | .lo => 0
  | .hi => 1
def Half.ofCode : Nat → Option Half
  | 0 => some .lo
  | 1 => some .hi
  | _ => none

def QMode.code : QMode → Nat
  | .given => 0
  | .whole => 1
  | .b32 => 2
def QMode.ofCode : Nat → Option QMode
  | 0 => some .given
  | 1 => some .whole
  | 2 => some .b32
  | _ => none

def QFmt.code : QFmt → Nat
  | .m8 => 3
  | .m4 => 4
def QFmt.ofCode : Nat → Option QFmt
  | 3 => some .m8
  | 4 => some .m4
  | _ => none

def PkFmt.code : PkFmt → Nat
  | .t5 => 0
  | .t2 => 1
def PkFmt.ofCode : Nat → Option PkFmt
  | 0 => some .t5
  | 1 => some .t2
  | _ => none

def Pattern.code : Pattern → Nat
  | .p24 => 0
  | .p48 => 1
def Pattern.ofCode : Nat → Option Pattern
  | 0 => some .p24
  | 1 => some .p48
  | _ => none

def AccType.code : AccType → Nat
  | .fp32 => 0
  | .bf16 => 1
  | .raw => 2
  | .stat => 3
def AccType.ofCode : Nat → Option AccType
  | 0 => some .fp32
  | 1 => some .bf16
  | 2 => some .raw
  | 3 => some .stat
  | _ => none

def HstatField.code : HstatField → Nat
  | .source => 0
  | .destination => 1
  | .object => 2
def HstatField.ofCode : Nat → Option HstatField
  | 0 => some .source
  | 1 => some .destination
  | 2 => some .object
  | _ => none

def GmskOp.code : GmskOp → Nat
  | .read => 0
  | .write => 1
def GmskOp.ofCode : Nat → Option GmskOp
  | 0 => some .read
  | 1 => some .write
  | _ => none

def UpdOp.code : UpdOp → Nat
  | .addI32 => 0
  | .addI64 => 1
  | .addBf16 => 2
  | .addFp32 => 3
  | .minI32 => 4
  | .minI64 => 5
  | .minN32 => 6
  | .minN64 => 7
  | .maxI32 => 8
  | .maxI64 => 9
  | .maxN32 => 10
  | .maxN64 => 11
  | .and32 => 12
  | .and64 => 13
  | .or32 => 14
  | .or64 => 15
  | .xor32 => 16
  | .xor64 => 17
def UpdOp.ofCode : Nat → Option UpdOp
  | 0 => some .addI32
  | 1 => some .addI64
  | 2 => some .addBf16
  | 3 => some .addFp32
  | 4 => some .minI32
  | 5 => some .minI64
  | 6 => some .minN32
  | 7 => some .minN64
  | 8 => some .maxI32
  | 9 => some .maxI64
  | 10 => some .maxN32
  | 11 => some .maxN64
  | 12 => some .and32
  | 13 => some .and64
  | 14 => some .or32
  | 15 => some .or64
  | 16 => some .xor32
  | 17 => some .xor64
  | _ => none

def EretMode.code : EretMode → Nat
  | .retry => 0
  | .next => 1
def EretMode.ofCode : Nat → Option EretMode
  | 0 => some .retry
  | 1 => some .next
  | _ => none

def EcOpt.code : EcOpt → Nat
  | .keep => 0
  | .clear => 1
def EcOpt.ofCode : Nat → Option EcOpt
  | 0 => some .keep
  | 1 => some .clear
  | _ => none

def How.code : How → Nat
  | .poll => 0
  | .wait => 1
def How.ofCode : Nat → Option How
  | 0 => some .poll
  | 1 => some .wait
  | _ => none

def TlbiMode.code : TlbiMode → Nat
  | .page => 0
  | .context => 1
  | .stable => 2
def TlbiMode.ofCode : Nat → Option TlbiMode
  | 0 => some .page
  | 1 => some .context
  | 2 => some .stable
  | _ => none

def TlbiScope.code : TlbiScope → Nat
  | .cluster => 2
  | .die => 3
  | .package => 4
def TlbiScope.ofCode : Nat → Option TlbiScope
  | 2 => some .cluster
  | 3 => some .die
  | 4 => some .package
  | _ => none

/-- A selector that fills its slot. -/
def selByte (x : Nat) : Byte := BitVec.ofNat 8 x
/-- Two nibbles of a selector byte. -/
def nib (hi lo : Nat) : Byte := BitVec.ofNat 8 (16 * hi + lo)
def hiNib (b : Byte) : Nat := b.toNat / 16
def loNib (b : Byte) : Nat := b.toNat % 16

/-- The codes of VMODE's OA and OB (R133). -/
def VShare.bytes : VShare → Byte × Byte
  | .short => (0, 0)
  | .n4 => (1, 4)
  | .n8 => (1, 8)
  | .n12 => (1, 12)
  | .n16 => (1, 16)
def VShare.ofBytes (a b : Byte) : Option VShare :=
  match a.toNat, b.toNat with
  | 0, 0 => some .short
  | 1, 4 => some .n4
  | 1, 8 => some .n8
  | 1, 12 => some .n12
  | 1, 16 => some .n16
  | _, _ => none

/-- Numbers of the control registers (R190). -/
def CReg.number : CReg → Nat
  | .coreId => 0x000 | .tileId => 0x001 | .clusterId => 0x002 | .dieId => 0x003 | .pkgId => 0x004
  | .ctxGen => 0x005 | .status => 0x006
  | .spillBase => 0x010 | .spillOvf => 0x011
  | .uivec => 0x020 | .uiPc => 0x021 | .uiBlk => 0x022 | .uiEn => 0x023 | .uiCause => 0x024
  | .trapCause => 0x030 | .trapPc => 0x031 | .trapInfo => 0x032 | .trapBlk => 0x033 | .trapStatus => 0x034
  | .fduty => 0x040 | .droopThr => 0x041 | .droopCfg => 0x042 | .tbCfg => 0x043 | .tbBal => 0x044
  | .ec n => 0x050 + n.toNat
  | .ecsel n => 0x058 + n.toNat
  | .tl t => 0x060 + t.code
  | .rgPath p => 0x068 + p.toNat
  | .lastHostSeq => 0x070 | .lastDevSeq => 0x071
  | .member b => 0x100 + b.toNat

/-- R190 read from the number. -/
def CReg.ofNumber (n : Nat) : Option CReg :=
  match n with
  | 0x000 => some .coreId | 0x001 => some .tileId | 0x002 => some .clusterId | 0x003 => some .dieId
  | 0x004 => some .pkgId | 0x005 => some .ctxGen | 0x006 => some .status
  | 0x010 => some .spillBase | 0x011 => some .spillOvf
  | 0x020 => some .uivec | 0x021 => some .uiPc | 0x022 => some .uiBlk | 0x023 => some .uiEn
  | 0x024 => some .uiCause
  | 0x030 => some .trapCause | 0x031 => some .trapPc | 0x032 => some .trapInfo | 0x033 => some .trapBlk
  | 0x034 => some .trapStatus
  | 0x040 => some .fduty | 0x041 => some .droopThr | 0x042 => some .droopCfg | 0x043 => some .tbCfg
  | 0x044 => some .tbBal
  | 0x060 => some (.tl .mx) | 0x061 => some (.tl .cp) | 0x062 => some (.tl .gt) | 0x063 => some (.tl .up)
  | 0x064 => some (.tl .rg)
  | 0x070 => some .lastHostSeq | 0x071 => some .lastDevSeq
  | n =>
    if 0x050 ≤ n ∧ n < 0x058 then some (.ec (BitVec.ofNat 3 (n - 0x050)))
    else if 0x058 ≤ n ∧ n < 0x060 then some (.ecsel (BitVec.ofNat 3 (n - 0x058)))
    else if 0x068 ≤ n ∧ n < 0x06C then some (.rgPath (BitVec.ofNat 2 (n - 0x068)))
    else if 0x100 ≤ n ∧ n < 0x180 then some (.member (BitVec.ofNat 7 (n - 0x100)))
    else none

/-! ## The fields of a word (R38) -/

/-- R38. -/
structure Fields where
  op : BitVec 9
  ctl : Ctl
  a : Byte
  b : Byte
  c : Byte
  d : Byte
  e : Byte
  deriving DecidableEq, Repr

def unpack (w : Word) : Fields where
  op := w.extractLsb' 55 9
  ctl :=
    { g1 := { neg := w.getLsbD 54, idx := w.extractLsb' 51 3 }
      g2 := { neg := w.getLsbD 50, idx := w.extractLsb' 47 3 }
      ch := w.extractLsb' 45 2
      n := w.extractLsb' 42 3
      adv := w.getLsbD 41
      yld := w.getLsbD 40 }
  a := w.extractLsb' 32 8
  b := w.extractLsb' 24 8
  c := w.extractLsb' 16 8
  d := w.extractLsb' 8 8
  e := w.extractLsb' 0 8

def pack (f : Fields) : Word :=
  f.op ++ (BitVec.ofBool f.ctl.g1.neg ++ f.ctl.g1.idx) ++ (BitVec.ofBool f.ctl.g2.neg ++ f.ctl.g2.idx) ++ f.ctl.ch
    ++ f.ctl.n ++ BitVec.ofBool f.ctl.adv ++ BitVec.ofBool f.ctl.yld ++ f.a ++ f.b ++ f.c ++ f.d ++ f.e

/-- The natural 16-bit immediate OD:OE (R46). -/
def Fields.imm16 (f : Fields) : BitVec 16 := f.d ++ f.e
/-- The 24-bit immediate OC:OD:OE (R46). -/
def Fields.imm24 (f : Fields) : BitVec 24 := f.c ++ f.d ++ f.e

/-! ## The slots of an opcode (R45, R58) -/

/-- What a slot admits: a reserved value is SUB 0x05, a class not permitted is SUB 0x06. Both may look at the vector
share in force (0: short mode) and at the other fields. -/
structure Slot where
  reserved : Fields → Byte → Bool := fun _ _ => false
  badClass : Nat → Fields → Byte → Bool := fun _ _ _ => false

/-- A vector specifier in the mode in force: in long mode only l0 to l(n-1) (R44, R134). -/
def vecInMode (share : Nat) (r : VReg) : Bool := share == 0 || r.toNat < share

namespace Slot
def zero : Slot := { reserved := fun _ b => b != 0 }
/-- Part of a wide immediate, or checked by the slot before it. -/
def free : Slot := {}
def cls (ok : Spec → Bool) : Slot := { badClass := fun _ _ b => !ok (specOf b) }
def s : Slot := cls (·.sreg.isSome)
def src : Slot := cls (·.src.isSome)
def si : Slot := cls (·.simm.isSome)
def sp : Slot := cls (·.spred.isSome)
def p : Slot := cls (·.preg.isSome)
def pi : Slot := cls (·.pimm.isSome)
def k : Slot := cls (·.kreg.isSome)
def h : Slot := cls (·.hreg.isSome)
def ko : Slot := { badClass := fun _ _ b => (kopt b).isNone }
def v : Slot :=
  { badClass := fun sh _ b => match (specOf b).vreg with
      | some r => !vecInMode sh r
      | none => true }
/-- Source b of R130: no immediate beside a float type in OE[3:0]; so too where R135 takes from the type its width only
(log 67). -/
def vsi : Slot :=
  { badClass := fun sh f b => match (specOf b).vsrc with
      | some (.v r) => !vecInMode sh r
      | some (.s _) => false
      | some (.imm _) => loNib f.e == 8 || loNib f.e == 9
      | none => true }
/-- A scalar register or immediate, no immediate beside a float type in OE[3:0] (R137, R146). -/
def sif : Slot :=
  { badClass := fun _ f b => match (specOf b).simm with
      | some (.s _) => false
      | some (.imm _) => loNib f.e == 8 || loNib f.e == 9
      | none => true }
/-- FCVT's source: no immediate beside a float source type in OC[3:0] (R71, R92). -/
def cvt : Slot :=
  { badClass := fun _ f b => match (specOf b).src with
      | some (.imm _) => loNib f.c < 2
      | some (.s _) | some (.p _) => false
      | none => true }
/-- An immediate from 0 to 2^n - 1 (R45). -/
def imm (n : Nat) : Slot :=
  { reserved := fun _ b => match (specOf b).immediate with
      | some i => i.toNat < 64 || 64 + 2 ^ n ≤ i.toNat
      | none => false
    badClass := fun _ _ b => (specOf b).immediate.isNone }
/-- A selector byte (R72). -/
def sel (ok : Byte → Bool) : Slot := { reserved := fun _ b => !ok b }
/-- A selector byte whose values depend on other fields. -/
def selBy (ok : Fields → Byte → Bool) : Slot := { reserved := fun f b => !ok f b }
/-- A vector register that must differ from OA (R148). -/
def vNotA : Slot :=
  { badClass := fun sh f b => v.badClass sh f b || b == f.a }
/-- LDP's second destination (R105). -/
def sNotA : Slot :=
  { badClass := fun sh f b => s.badClass sh f b || (b == f.a && b != 0) }
/-- A barrier number in OD:OE, below 128: a selector value (R120, R185), whose WHERE is the pair's first slot (log 8). -/
def bar : Slot := { reserved := fun f _ => 128 ≤ f.imm16.toNat }
/-- A control register number in OD:OE (R189), a selector value as well (log 8). -/
def cr (ok : CReg → Bool) : Slot :=
  { reserved := fun f _ => match CReg.ofNumber f.imm16.toNat with
      | some r => !ok r
      | none => true }
end Slot

/-- The role of an instruction's handle (R172). -/
inductive Role where
  | none | source | destination | object | sourceNoAdv
  deriving DecidableEq, Repr

/-- One row of the opcode map: asterisk, handle role, slots, and the instruction its fields build. -/
structure Row where
  star : Bool
  role : Fields → Role
  slots : List Slot
  build : Fields → Option Instr

def Row.mk' (star : Bool) (role : Role) (slots : List Slot) (build : Fields → Option Instr) : Row :=
  { star, role := fun _ => role, slots, build }

/-- The value of a small immediate slot. -/
def small (n : Nat) (b : Byte) : Option (BitVec n) :=
  match (specOf b).immediate with
  | some i => some (BitVec.ofNat n (i.toNat - 64))
  | .none => .none

def barOf (f : Fields) : Option (BitVec 7) := some (f.e.extractLsb' 0 7)

/-- HSTAT's handle by its field (R173). -/
def hstatRole (f : Fields) : Role :=
  match f.c.toNat with
  | 0 => .source
  | 1 => .destination
  | _ => .object

def vt (ok : VType → Bool) (b : Byte) : Bool := hiNib b == 0 && (VType.ofCode (loNib b)).any ok

/-- The opcode map (R62) with the operands of each instruction. -/
def opRow : Nat → Option Row
  | 0x001 => some (.mk' false .none [.zero, .zero, .zero, .zero, .zero]
      fun f => some (.nop f.ctl))
  | 0x002 => some (.mk' false .none [.zero, .zero, .free, .free, .free]
      fun f => do return .br f.ctl (← some f.imm24))
  | 0x003 => some (.mk' false .none [.src, (.sel fun b => (CondZ.ofCode b.toNat).isSome), .free, .free, .free]
      fun f => do return .brc f.ctl (← (specOf f.a).src) (← CondZ.ofCode f.b.toNat) (← some f.imm24))
  | 0x004 => some (.mk' false .none [.s, .zero, .zero, .zero, .zero]
      fun f => do return .brx f.ctl (← (specOf f.a).sreg))
  | 0x005 => some (.mk' false .none [.s, .zero, .free, .free, .free]
      fun f => do return .call f.ctl (← (specOf f.a).sreg) (← some f.imm24))
  | 0x006 => some (.mk' false .none [.s, .s, .zero, .zero, .zero]
      fun f => do return .callx f.ctl (← (specOf f.a).sreg) (← (specOf f.b).sreg))
  | 0x007 => some (.mk' false .none [.s, .zero, .zero, .zero, .zero]
      fun f => do return .ret f.ctl (← (specOf f.a).sreg))
  | 0x008 => some (.mk' false .none [.s, .zero, .free, .free, .free]
      fun f => do return .loop f.ctl (← (specOf f.a).sreg) (← some f.imm24))
  | 0x009 => some (.mk' false .none [.zero, .zero, .zero, .zero, .zero]
      fun f => some (.halt f.ctl))
  | 0x00A => some (.mk' false .none [.s, .si, .zero, .zero, .zero]
      fun f => do return .sleep f.ctl (← (specOf f.a).sreg) (← (specOf f.b).simm))
  | 0x00B => some (.mk' false .none [.zero, .zero, .zero, .zero, .zero]
      fun f => some (.yield f.ctl))
  | 0x040 => some (.mk' false .none [.s, .src, .src, .zero, .zero]
      fun f => do return .add f.ctl (← (specOf f.a).sreg) (← (specOf f.b).src) (← (specOf f.c).src))
  | 0x041 => some (.mk' false .none [.s, .src, .src, .zero, .zero]
      fun f => do return .sub f.ctl (← (specOf f.a).sreg) (← (specOf f.b).src) (← (specOf f.c).src))
  | 0x042 => some (.mk' false .none [.s, .src, .src, .zero, .zero]
      fun f => do return .mul f.ctl (← (specOf f.a).sreg) (← (specOf f.b).src) (← (specOf f.c).src))
  | 0x043 => some (.mk' false .none [.s, .src, .src, .zero, .zero]
      fun f => do return .mulh f.ctl (← (specOf f.a).sreg) (← (specOf f.b).src) (← (specOf f.c).src))
  | 0x044 => some (.mk' false .none [.s, .src, .src, .zero, .zero]
      fun f => do return .mulhn f.ctl (← (specOf f.a).sreg) (← (specOf f.b).src) (← (specOf f.c).src))
  | 0x045 => some (.mk' false .none [.s, .src, .src, .zero, .zero]
      fun f => do return .div f.ctl (← (specOf f.a).sreg) (← (specOf f.b).src) (← (specOf f.c).src))
  | 0x046 => some (.mk' false .none [.s, .src, .src, .zero, .zero]
      fun f => do return .divn f.ctl (← (specOf f.a).sreg) (← (specOf f.b).src) (← (specOf f.c).src))
  | 0x047 => some (.mk' false .none [.s, .src, .src, .zero, .zero]
      fun f => do return .rem f.ctl (← (specOf f.a).sreg) (← (specOf f.b).src) (← (specOf f.c).src))
  | 0x048 => some (.mk' false .none [.s, .src, .src, .zero, .zero]
      fun f => do return .remn f.ctl (← (specOf f.a).sreg) (← (specOf f.b).src) (← (specOf f.c).src))
  | 0x049 => some (.mk' false .none [.s, .src, .zero, .zero, .zero]
      fun f => do return .neg f.ctl (← (specOf f.a).sreg) (← (specOf f.b).src))
  | 0x04A => some (.mk' false .none [.s, .src, .zero, .zero, .zero]
      fun f => do return .abs f.ctl (← (specOf f.a).sreg) (← (specOf f.b).src))
  | 0x04B => some (.mk' false .none [.s, .src, .src, .zero, .zero]
      fun f => do return .min f.ctl (← (specOf f.a).sreg) (← (specOf f.b).src) (← (specOf f.c).src))
  | 0x04C => some (.mk' false .none [.s, .src, .src, .zero, .zero]
      fun f => do return .max f.ctl (← (specOf f.a).sreg) (← (specOf f.b).src) (← (specOf f.c).src))
  | 0x04D => some (.mk' false .none [.s, .src, .src, .zero, .zero]
      fun f => do return .minn f.ctl (← (specOf f.a).sreg) (← (specOf f.b).src) (← (specOf f.c).src))
  | 0x04E => some (.mk' false .none [.s, .src, .src, .zero, .zero]
      fun f => do return .maxn f.ctl (← (specOf f.a).sreg) (← (specOf f.b).src) (← (specOf f.c).src))
  | 0x050 => some (.mk' false .none [.s, .src, .src, .zero, .zero]
      fun f => do return .and f.ctl (← (specOf f.a).sreg) (← (specOf f.b).src) (← (specOf f.c).src))
  | 0x051 => some (.mk' false .none [.s, .src, .src, .zero, .zero]
      fun f => do return .or f.ctl (← (specOf f.a).sreg) (← (specOf f.b).src) (← (specOf f.c).src))
  | 0x052 => some (.mk' false .none [.s, .src, .src, .zero, .zero]
      fun f => do return .xor f.ctl (← (specOf f.a).sreg) (← (specOf f.b).src) (← (specOf f.c).src))
  | 0x053 => some (.mk' false .none [.s, .src, .src, .zero, .zero]
      fun f => do return .andn f.ctl (← (specOf f.a).sreg) (← (specOf f.b).src) (← (specOf f.c).src))
  | 0x054 => some (.mk' false .none [.s, .src, .src, .zero, .zero]
      fun f => do return .orn f.ctl (← (specOf f.a).sreg) (← (specOf f.b).src) (← (specOf f.c).src))
  | 0x058 => some (.mk' false .none [.s, .src, .src, .zero, .zero]
      fun f => do return .shl f.ctl (← (specOf f.a).sreg) (← (specOf f.b).src) (← (specOf f.c).src))
  | 0x059 => some (.mk' false .none [.s, .src, .src, .zero, .zero]
      fun f => do return .shr f.ctl (← (specOf f.a).sreg) (← (specOf f.b).src) (← (specOf f.c).src))
  | 0x05A => some (.mk' false .none [.s, .src, .src, .zero, .zero]
      fun f => do return .sar f.ctl (← (specOf f.a).sreg) (← (specOf f.b).src) (← (specOf f.c).src))
  | 0x05B => some (.mk' false .none [.s, .src, .src, .zero, .zero]
      fun f => do return .rol f.ctl (← (specOf f.a).sreg) (← (specOf f.b).src) (← (specOf f.c).src))
  | 0x05C => some (.mk' false .none [.s, .src, .src, .zero, .zero]
      fun f => do return .ror f.ctl (← (specOf f.a).sreg) (← (specOf f.b).src) (← (specOf f.c).src))
  | 0x060 => some (.mk' false .none [.s, .src, .zero, .zero, .zero]
      fun f => do return .clz f.ctl (← (specOf f.a).sreg) (← (specOf f.b).src))
  | 0x061 => some (.mk' false .none [.s, .src, .zero, .zero, .zero]
      fun f => do return .ctz f.ctl (← (specOf f.a).sreg) (← (specOf f.b).src))
  | 0x062 => some (.mk' false .none [.s, .src, .zero, .zero, .zero]
      fun f => do return .popc f.ctl (← (specOf f.a).sreg) (← (specOf f.b).src))
  | 0x063 => some (.mk' false .none [.s, .src, .zero, .zero, .zero]
      fun f => do return .brev f.ctl (← (specOf f.a).sreg) (← (specOf f.b).src))
  | 0x064 => some (.mk' false .none [.s, .src, .src, .src, .zero]
      fun f => do return .bext f.ctl (← (specOf f.a).sreg) (← (specOf f.b).src) (← (specOf f.c).src) (← (specOf f.d).src))
  | 0x065 => some (.mk' false .none [.s, .src, .src, .src, .zero]
      fun f => do return .bins f.ctl (← (specOf f.a).sreg) (← (specOf f.b).src) (← (specOf f.c).src) (← (specOf f.d).src))
  | 0x066 => some (.mk' false .none [.s, .src, (.sel fun b => (ExtW.ofCode b.toNat).isSome), .zero, .zero]
      fun f => do return .sext f.ctl (← (specOf f.a).sreg) (← (specOf f.b).src) (← ExtW.ofCode f.c.toNat))
  | 0x067 => some (.mk' false .none [.s, .src, (.sel fun b => (ExtW.ofCode b.toNat).isSome), .zero, .zero]
      fun f => do return .zext f.ctl (← (specOf f.a).sreg) (← (specOf f.b).src) (← ExtW.ofCode f.c.toNat))
  | 0x068 => some (.mk' false .none [.s, .p, .src, .src, .zero]
      fun f => do return .sel f.ctl (← (specOf f.a).sreg) (← (specOf f.b).preg) (← (specOf f.c).src) (← (specOf f.d).src))
  | 0x069 => some (.mk' false .none [.s, .src, .zero, .zero, .zero]
      fun f => do return .mov f.ctl (← (specOf f.a).sreg) (← (specOf f.b).src))
  | 0x06A => some (.mk' false .none [.s, (.sel fun b => (LimmPart.ofCode b.toNat).isSome), (.selBy fun f b => f.b != 2 || b == 0), .free, .free]
      fun f => do return .limm f.ctl (← (specOf f.a).sreg) (← LimmPart.ofCode f.b.toNat) (← some f.imm24))
  | 0x06B => some (.mk' false .none [.s, .src, .src, (.imm 3), .zero]
      fun f => do return .addr f.ctl (← (specOf f.a).sreg) (← (specOf f.b).src) (← (specOf f.c).src) (← small 3 f.d))
  | 0x06C => some (.mk' false .none [.p, (.sel fun b => (Cond.ofCode b.toNat).isSome), .src, .src, .zero]
      fun f => do return .cmp f.ctl (← (specOf f.a).preg) (← Cond.ofCode f.b.toNat) (← (specOf f.c).src) (← (specOf f.d).src))
  | 0x080 => some (.mk' false .none [.p, .pi, .pi, .zero, .zero]
      fun f => do return .pand f.ctl (← (specOf f.a).preg) (← (specOf f.b).pimm) (← (specOf f.c).pimm))
  | 0x081 => some (.mk' false .none [.p, .pi, .pi, .zero, .zero]
      fun f => do return .por f.ctl (← (specOf f.a).preg) (← (specOf f.b).pimm) (← (specOf f.c).pimm))
  | 0x082 => some (.mk' false .none [.p, .pi, .pi, .zero, .zero]
      fun f => do return .pxor f.ctl (← (specOf f.a).preg) (← (specOf f.b).pimm) (← (specOf f.c).pimm))
  | 0x083 => some (.mk' false .none [.p, .pi, .zero, .zero, .zero]
      fun f => do return .pnot f.ctl (← (specOf f.a).preg) (← (specOf f.b).pimm))
  | 0x084 => some (.mk' false .none [.si, .si, .zero, .zero, .zero]
      fun f => do return .pset f.ctl (← (specOf f.a).simm) (← (specOf f.b).simm))
  | 0x085 => some (.mk' false .none [.s, .zero, .zero, .zero, .zero]
      fun f => do return .pget f.ctl (← (specOf f.a).sreg))
  | 0x0C0 => some (.mk' false .none [.s, .sp, .sp, .zero, (.sel fun b => (FType.ofCode b.toNat).isSome)]
      fun f => do return .fadd f.ctl (← (specOf f.a).sreg) (← (specOf f.b).spred) (← (specOf f.c).spred) (← FType.ofCode f.e.toNat))
  | 0x0C1 => some (.mk' false .none [.s, .sp, .sp, .zero, (.sel fun b => (FType.ofCode b.toNat).isSome)]
      fun f => do return .fsub f.ctl (← (specOf f.a).sreg) (← (specOf f.b).spred) (← (specOf f.c).spred) (← FType.ofCode f.e.toNat))
  | 0x0C2 => some (.mk' false .none [.s, .sp, .sp, .zero, (.sel fun b => (FType.ofCode b.toNat).isSome)]
      fun f => do return .fmul f.ctl (← (specOf f.a).sreg) (← (specOf f.b).spred) (← (specOf f.c).spred) (← FType.ofCode f.e.toNat))
  | 0x0C3 => some (.mk' false .none [.s, .sp, .sp, .sp, (.sel fun b => (FType.ofCode b.toNat).isSome)]
      fun f => do return .ffma f.ctl (← (specOf f.a).sreg) (← (specOf f.b).spred) (← (specOf f.c).spred) (← (specOf f.d).spred) (← FType.ofCode f.e.toNat))
  | 0x0C4 => some (.mk' false .none [.s, .sp, .sp, .zero, (.sel fun b => (FType.ofCode b.toNat).isSome)]
      fun f => do return .fmin f.ctl (← (specOf f.a).sreg) (← (specOf f.b).spred) (← (specOf f.c).spred) (← FType.ofCode f.e.toNat))
  | 0x0C5 => some (.mk' false .none [.s, .sp, .sp, .zero, (.sel fun b => (FType.ofCode b.toNat).isSome)]
      fun f => do return .fmax f.ctl (← (specOf f.a).sreg) (← (specOf f.b).spred) (← (specOf f.c).spred) (← FType.ofCode f.e.toNat))
  | 0x0C6 => some (.mk' false .none [.s, .sp, .zero, .zero, (.sel fun b => (FType.ofCode b.toNat).isSome)]
      fun f => do return .fabs f.ctl (← (specOf f.a).sreg) (← (specOf f.b).spred) (← FType.ofCode f.e.toNat))
  | 0x0C7 => some (.mk' false .none [.s, .sp, .zero, .zero, (.sel fun b => (FType.ofCode b.toNat).isSome)]
      fun f => do return .fneg f.ctl (← (specOf f.a).sreg) (← (specOf f.b).spred) (← FType.ofCode f.e.toNat))
  | 0x0C8 => some (.mk' false .none [.p, (.sel fun b => (FCond.ofCode b.toNat).isSome), .sp, .sp, (.sel fun b => (FType.ofCode b.toNat).isSome)]
      fun f => do return .fcmp f.ctl (← (specOf f.a).preg) (← FCond.ofCode f.b.toNat) (← (specOf f.c).spred) (← (specOf f.d).spred) (← FType.ofCode f.e.toNat))
  | 0x0C9 => some (.mk' false .none [.s, .cvt, (.sel fun b => match CvtType.ofCode (hiNib b), CvtType.ofCode (loNib b) with
      | some d, some s => fcvtOk d s
      | _, _ => false), .zero, .zero]
      fun f => do return .fcvt f.ctl (← (specOf f.a).sreg) (← (specOf f.b).src) (← CvtType.ofCode (hiNib f.c)) (← CvtType.ofCode (loNib f.c)))
  | 0x0CA => some (.mk' false .none [.s, .sp, (.sel fun b => (Rnd.ofCode b.toNat).isSome), .zero, (.sel fun b => (FType.ofCode b.toNat).isSome)]
      fun f => do return .frnd f.ctl (← (specOf f.a).sreg) (← (specOf f.b).spred) (← Rnd.ofCode f.c.toNat) (← FType.ofCode f.e.toNat))
  | 0x100 => some (.mk' true .none [.s, .s, (.sel fun b => (MemSize.ofCode b.toNat).isSome), .free, .free]
      fun f => do return .ld f.ctl (← (specOf f.a).sreg) (← (specOf f.b).sreg) (← MemSize.ofCode f.c.toNat) (← some f.imm16))
  | 0x101 => some (.mk' true .none [.s, .src, (.sel fun b => (MemSize.ofCode b.toNat).isSome), .free, .free]
      fun f => do return .st f.ctl (← (specOf f.a).sreg) (← (specOf f.b).src) (← MemSize.ofCode f.c.toNat) (← some f.imm16))
  | 0x102 => some (.mk' true .none [.s, .sNotA, .s, .free, .free]
      fun f => do return .ldp f.ctl (← (specOf f.a).sreg) (← (specOf f.b).sreg) (← (specOf f.c).sreg) (← some f.imm16))
  | 0x103 => some (.mk' true .none [.s, .src, .src, .free, .free]
      fun f => do return .stp f.ctl (← (specOf f.a).sreg) (← (specOf f.b).src) (← (specOf f.c).src) (← some f.imm16))
  | 0x104 => some (.mk' true .none [.v, .s, .ko, .free, .free]
      fun f => do return .ldv f.ctl (← (specOf f.a).vreg) (← (specOf f.b).sreg) (← kopt f.c) (← some f.imm16))
  | 0x105 => some (.mk' true .none [.s, .v, .ko, .free, .free]
      fun f => do return .stv f.ctl (← (specOf f.a).sreg) (← (specOf f.b).vreg) (← kopt f.c) (← some f.imm16))
  | 0x106 => some (.mk' true .none [.v, .s, .si, (.sel fun b => (ElSize.ofCode b.toNat).isSome), .ko]
      fun f => do return .ldvs f.ctl (← (specOf f.a).vreg) (← (specOf f.b).sreg) (← (specOf f.c).simm) (← ElSize.ofCode f.d.toNat) (← kopt f.e))
  | 0x107 => some (.mk' true .none [.s, .v, .si, (.sel fun b => (ElSize.ofCode b.toNat).isSome), .ko]
      fun f => do return .stvs f.ctl (← (specOf f.a).sreg) (← (specOf f.b).vreg) (← (specOf f.c).simm) (← ElSize.ofCode f.d.toNat) (← kopt f.e))
  | 0x108 => some (.mk' true .none [.s, (.sel fun b => (PrfLevel.ofCode b.toNat).isSome), .zero, .free, .free]
      fun f => do return .prf f.ctl (← (specOf f.a).sreg) (← PrfLevel.ofCode f.b.toNat) (← some f.imm16))
  | 0x109 => some (.mk' true .none [.s, (.sel fun b => (FllMode.ofCode b.toNat).isSome), .zero, .free, .free]
      fun f => do return .fll f.ctl (← (specOf f.a).sreg) (← FllMode.ofCode f.b.toNat) (← some f.imm16))
  | 0x110 => some (.mk' false .none [.free, .free, (.sel fun b => (Scope.ofCode b.toNat).isSome), .zero, .zero]
      fun f => do return .fence f.ctl (← some f.a) (← some f.b) (← Scope.ofCode f.c.toNat))
  | 0x111 => some (.mk' false .none [.s, .si, .zero, .zero, .zero]
      fun f => do return .acq f.ctl (← (specOf f.a).sreg) (← (specOf f.b).simm))
  | 0x112 => some (.mk' false .none [.s, .si, .zero, .zero, .zero]
      fun f => do return .rel f.ctl (← (specOf f.a).sreg) (← (specOf f.b).simm))
  | 0x113 => some (.mk' false .none [.si, (.imm 3), .s, .s, .zero]
      fun f => do return .sobj f.ctl (← (specOf f.a).simm) (← small 3 f.b) (← (specOf f.c).sreg) (← (specOf f.d).sreg))
  | 0x118 => some (.mk' false .none [.s, .s, .si, .zero, (.sel fun b => (AType.ofCode b.toNat).isSome)]
      fun f => do return .aadd f.ctl (← (specOf f.a).sreg) (← (specOf f.b).sreg) (← (specOf f.c).simm) (← AType.ofCode f.e.toNat))
  | 0x119 => some (.mk' false .none [.s, .s, .si, .zero, (.sel fun b => (AType.ofCode b.toNat).isSome)]
      fun f => do return .amin f.ctl (← (specOf f.a).sreg) (← (specOf f.b).sreg) (← (specOf f.c).simm) (← AType.ofCode f.e.toNat))
  | 0x11A => some (.mk' false .none [.s, .s, .si, .zero, (.sel fun b => (AType.ofCode b.toNat).isSome)]
      fun f => do return .amax f.ctl (← (specOf f.a).sreg) (← (specOf f.b).sreg) (← (specOf f.c).simm) (← AType.ofCode f.e.toNat))
  | 0x11B => some (.mk' false .none [.s, .s, .si, .zero, (.sel fun b => (AType.ofCode b.toNat).isSome)]
      fun f => do return .aand f.ctl (← (specOf f.a).sreg) (← (specOf f.b).sreg) (← (specOf f.c).simm) (← AType.ofCode f.e.toNat))
  | 0x11C => some (.mk' false .none [.s, .s, .si, .zero, (.sel fun b => (AType.ofCode b.toNat).isSome)]
      fun f => do return .aor f.ctl (← (specOf f.a).sreg) (← (specOf f.b).sreg) (← (specOf f.c).simm) (← AType.ofCode f.e.toNat))
  | 0x11D => some (.mk' false .none [.s, .s, .si, .zero, (.sel fun b => (AType.ofCode b.toNat).isSome)]
      fun f => do return .axor f.ctl (← (specOf f.a).sreg) (← (specOf f.b).sreg) (← (specOf f.c).simm) (← AType.ofCode f.e.toNat))
  | 0x11E => some (.mk' false .none [.s, .s, .si, .zero, (.sel fun b => (AType.ofCode b.toNat).isSome)]
      fun f => do return .axchg f.ctl (← (specOf f.a).sreg) (← (specOf f.b).sreg) (← (specOf f.c).simm) (← AType.ofCode f.e.toNat))
  | 0x11F => some (.mk' false .none [.s, .s, .si, .si, (.sel fun b => (AType.ofCode b.toNat).isSome)]
      fun f => do return .acas f.ctl (← (specOf f.a).sreg) (← (specOf f.b).sreg) (← (specOf f.c).simm) (← (specOf f.d).simm) (← AType.ofCode f.e.toNat))
  | 0x120 => some (.mk' false .none [.s, .si, .zero, .zero, (.sel fun b => (AType.ofCode b.toNat).isSome)]
      fun f => do return .anadd f.ctl (← (specOf f.a).sreg) (← (specOf f.b).simm) (← AType.ofCode f.e.toNat))
  | 0x128 => some (.mk' false .none [.s, .s, .zero, .zero, (.sel fun b => (AType.ofCode b.toNat).isSome)]
      fun f => do return .scld f.ctl (← (specOf f.a).sreg) (← (specOf f.b).sreg) (← AType.ofCode f.e.toNat))
  | 0x129 => some (.mk' false .none [.s, .si, .zero, .zero, (.sel fun b => (AType.ofCode b.toNat).isSome)]
      fun f => do return .scst f.ctl (← (specOf f.a).sreg) (← (specOf f.b).simm) (← AType.ofCode f.e.toNat))
  | 0x12A => some (.mk' false .none [.s, .s, .si, .zero, (.sel fun b => (AType.ofCode b.toNat).isSome)]
      fun f => do return .scxch f.ctl (← (specOf f.a).sreg) (← (specOf f.b).sreg) (← (specOf f.c).simm) (← AType.ofCode f.e.toNat))
  | 0x130 => some (.mk' false .none [(.sel fun b => b.toNat < 4), .zero, .zero, .bar, .free]
      fun f => do return .bara f.ctl (← some (f.a.extractLsb' 0 2)) (← barOf f))
  | 0x131 => some (.mk' false .none [.zero, .zero, .zero, .bar, .free]
      fun f => do return .barw f.ctl (← barOf f))
  | 0x132 => some (.mk' false .none [.p, .zero, .zero, .bar, .free]
      fun f => do return .bart f.ctl (← (specOf f.a).preg) (← barOf f))
  | 0x133 => some (.mk' false .none [.s, .si, .zero, .bar, .free]
      fun f => do return .barm f.ctl (← (specOf f.a).sreg) (← (specOf f.b).simm) (← barOf f))
  | 0x138 => some (.mk' false .none [(.sel fun b => (Timeline.ofCode b.toNat).isSome), .si, .zero, .zero, .zero]
      fun f => do return .tlwait f.ctl (← Timeline.ofCode f.a.toNat) (← (specOf f.b).simm))
  | 0x139 => some (.mk' false .none [.s, (.sel fun b => (Timeline.ofCode b.toNat).isSome), (.sel fun b => (TlWhich.ofCode b.toNat).isSome), .zero, .zero]
      fun f => do return .tlrd f.ctl (← (specOf f.a).sreg) (← Timeline.ofCode f.b.toNat) (← TlWhich.ofCode f.c.toNat))
  | 0x13A => some (.mk' false .none [.p, (.sel fun b => (Timeline.ofCode b.toNat).isSome), .si, .zero, .zero]
      fun f => do return .tlpoll f.ctl (← (specOf f.a).preg) (← Timeline.ofCode f.b.toNat) (← (specOf f.c).simm))
  | 0x140 => some (.mk' false .none [(.sel fun b => (PhaseMode.ofCode b.toNat).isSome), .zero, .zero, .bar, .free]
      fun f => do return .phase f.ctl (← PhaseMode.ofCode f.a.toNat) (← barOf f))
  | 0x141 => some (.mk' false .none [.s, .zero, .zero, .bar, .free]
      fun f => do return .pdrain f.ctl (← (specOf f.a).sreg) (← barOf f))
  | 0x160 => some (.mk' false .none [(.sel fun b => b.toNat < 2), (.selBy fun f b => (VShare.ofBytes f.a b).isSome), .zero, .zero, .zero]
      fun f => do return .vmode f.ctl (← VShare.ofBytes f.a f.b))
  | 0x168 => some (.mk' false .none [.v, .v, .vsi, .ko, (.sel (vt VType.isInt))]
      fun f => do return .vadd f.ctl (← (specOf f.a).vreg) (← (specOf f.b).vreg) (← (specOf f.c).vsrc) (← kopt f.d) (← VType.ofCode (loNib f.e)))
  | 0x169 => some (.mk' false .none [.v, .v, .vsi, .ko, (.sel (vt VType.isInt))]
      fun f => do return .vsub f.ctl (← (specOf f.a).vreg) (← (specOf f.b).vreg) (← (specOf f.c).vsrc) (← kopt f.d) (← VType.ofCode (loNib f.e)))
  | 0x16A => some (.mk' false .none [.v, .v, .vsi, .ko, (.sel (vt VType.isInt))]
      fun f => do return .vadds f.ctl (← (specOf f.a).vreg) (← (specOf f.b).vreg) (← (specOf f.c).vsrc) (← kopt f.d) (← VType.ofCode (loNib f.e)))
  | 0x16B => some (.mk' false .none [.v, .v, .vsi, .ko, (.sel (vt VType.isInt))]
      fun f => do return .vsubs f.ctl (← (specOf f.a).vreg) (← (specOf f.b).vreg) (← (specOf f.c).vsrc) (← kopt f.d) (← VType.ofCode (loNib f.e)))
  | 0x16C => some (.mk' false .none [.v, .v, .vsi, .ko, (.sel (vt VType.isInt))]
      fun f => do return .vmul f.ctl (← (specOf f.a).vreg) (← (specOf f.b).vreg) (← (specOf f.c).vsrc) (← kopt f.d) (← VType.ofCode (loNib f.e)))
  | 0x16D => some (.mk' false .none [.v, .v, .vsi, .ko, (.sel (vt VType.isInt))]
      fun f => do return .vmulh f.ctl (← (specOf f.a).vreg) (← (specOf f.b).vreg) (← (specOf f.c).vsrc) (← kopt f.d) (← VType.ofCode (loNib f.e)))
  | 0x16E => some (.mk' false .none [.v, .v, .vsi, .ko, (.sel (vt VType.isInt))]
      fun f => do return .vmin f.ctl (← (specOf f.a).vreg) (← (specOf f.b).vreg) (← (specOf f.c).vsrc) (← kopt f.d) (← VType.ofCode (loNib f.e)))
  | 0x16F => some (.mk' false .none [.v, .v, .vsi, .ko, (.sel (vt VType.isInt))]
      fun f => do return .vmax f.ctl (← (specOf f.a).vreg) (← (specOf f.b).vreg) (← (specOf f.c).vsrc) (← kopt f.d) (← VType.ofCode (loNib f.e)))
  | 0x170 => some (.mk' false .none [.v, .v, .zero, .ko, (.sel (vt VType.isSigned))]
      fun f => do return .vabs f.ctl (← (specOf f.a).vreg) (← (specOf f.b).vreg) (← kopt f.d) (← VType.ofCode (loNib f.e)))
  | 0x171 => some (.mk' false .none [.v, .v, .vsi, .ko, (.sel (vt fun _ => true))]
      fun f => do return .vand f.ctl (← (specOf f.a).vreg) (← (specOf f.b).vreg) (← (specOf f.c).vsrc) (← kopt f.d) (← VType.ofCode (loNib f.e)))
  | 0x172 => some (.mk' false .none [.v, .v, .vsi, .ko, (.sel (vt fun _ => true))]
      fun f => do return .vor f.ctl (← (specOf f.a).vreg) (← (specOf f.b).vreg) (← (specOf f.c).vsrc) (← kopt f.d) (← VType.ofCode (loNib f.e)))
  | 0x173 => some (.mk' false .none [.v, .v, .vsi, .ko, (.sel (vt fun _ => true))]
      fun f => do return .vxor f.ctl (← (specOf f.a).vreg) (← (specOf f.b).vreg) (← (specOf f.c).vsrc) (← kopt f.d) (← VType.ofCode (loNib f.e)))
  | 0x174 => some (.mk' false .none [.v, .v, .vsi, .ko, (.sel (vt VType.isInt))]
      fun f => do return .vshl f.ctl (← (specOf f.a).vreg) (← (specOf f.b).vreg) (← (specOf f.c).vsrc) (← kopt f.d) (← VType.ofCode (loNib f.e)))
  | 0x175 => some (.mk' false .none [.v, .v, .vsi, .ko, (.sel (vt VType.isInt))]
      fun f => do return .vshr f.ctl (← (specOf f.a).vreg) (← (specOf f.b).vreg) (← (specOf f.c).vsrc) (← kopt f.d) (← VType.ofCode (loNib f.e)))
  | 0x176 => some (.mk' false .none [.v, .v, .vsi, .ko, (.sel (vt VType.isInt))]
      fun f => do return .vsar f.ctl (← (specOf f.a).vreg) (← (specOf f.b).vreg) (← (specOf f.c).vsrc) (← kopt f.d) (← VType.ofCode (loNib f.e)))
  | 0x177 => some (.mk' false .none [.k, .v, .vsi, .ko, (.sel fun b => match VCond.ofCode (hiNib b), VType.ofCode (loNib b) with
      | some x, some t => vcmpOk x t
      | _, _ => false)]
      fun f => do return .vcmp f.ctl (← (specOf f.a).kreg) (← (specOf f.b).vreg) (← (specOf f.c).vsrc) (← kopt f.d) (← VCond.ofCode (hiNib f.e)) (← VType.ofCode (loNib f.e)))
  | 0x178 => some (.mk' false .none [.v, .v, .vsi, .k, (.sel (vt fun _ => true))]
      fun f => do return .vsel f.ctl (← (specOf f.a).vreg) (← (specOf f.b).vreg) (← (specOf f.c).vsrc) (← (specOf f.d).kreg) (← VType.ofCode (loNib f.e)))
  | 0x179 => some (.mk' false .none [.v, .zero, .vsi, .ko, (.sel (vt fun _ => true))]
      fun f => do return .vmov f.ctl (← (specOf f.a).vreg) (← (specOf f.c).vsrc) (← kopt f.d) (← VType.ofCode (loNib f.e)))
  | 0x17A => some (.mk' false .none [.v, .v, .si, .ko, (.sel (vt fun _ => true))]
      fun f => do return .vbc f.ctl (← (specOf f.a).vreg) (← (specOf f.b).vreg) (← (specOf f.c).simm) (← kopt f.d) (← VType.ofCode (loNib f.e)))
  | 0x17B => some (.mk' false .none [.s, .v, .si, .zero, (.sel (vt fun _ => true))]
      fun f => do return .vext f.ctl (← (specOf f.a).sreg) (← (specOf f.b).vreg) (← (specOf f.c).simm) (← VType.ofCode (loNib f.e)))
  | 0x17C => some (.mk' false .none [.v, .sif, .si, .zero, (.sel (vt fun _ => true))]
      fun f => do return .vins f.ctl (← (specOf f.a).vreg) (← (specOf f.b).simm) (← (specOf f.c).simm) (← VType.ofCode (loNib f.e)))
  | 0x180 => some (.mk' false .none [.v, .v, .vsi, .ko, (.sel (vt VType.isFloat))]
      fun f => do return .vfadd f.ctl (← (specOf f.a).vreg) (← (specOf f.b).vreg) (← (specOf f.c).vsrc) (← kopt f.d) (← VType.ofCode (loNib f.e)))
  | 0x181 => some (.mk' false .none [.v, .v, .vsi, .ko, (.sel (vt VType.isFloat))]
      fun f => do return .vfsub f.ctl (← (specOf f.a).vreg) (← (specOf f.b).vreg) (← (specOf f.c).vsrc) (← kopt f.d) (← VType.ofCode (loNib f.e)))
  | 0x182 => some (.mk' false .none [.v, .v, .vsi, .ko, (.sel (vt VType.isFloat))]
      fun f => do return .vfmul f.ctl (← (specOf f.a).vreg) (← (specOf f.b).vreg) (← (specOf f.c).vsrc) (← kopt f.d) (← VType.ofCode (loNib f.e)))
  | 0x183 => some (.mk' false .none [.v, .v, .vsi, .ko, (.sel (vt VType.isFloat))]
      fun f => do return .vffma f.ctl (← (specOf f.a).vreg) (← (specOf f.b).vreg) (← (specOf f.c).vsrc) (← kopt f.d) (← VType.ofCode (loNib f.e)))
  | 0x184 => some (.mk' false .none [.v, .v, .vsi, .ko, (.sel (vt VType.isFloat))]
      fun f => do return .vfmin f.ctl (← (specOf f.a).vreg) (← (specOf f.b).vreg) (← (specOf f.c).vsrc) (← kopt f.d) (← VType.ofCode (loNib f.e)))
  | 0x185 => some (.mk' false .none [.v, .v, .vsi, .ko, (.sel (vt VType.isFloat))]
      fun f => do return .vfmax f.ctl (← (specOf f.a).vreg) (← (specOf f.b).vreg) (← (specOf f.c).vsrc) (← kopt f.d) (← VType.ofCode (loNib f.e)))
  | 0x186 => some (.mk' false .none [.k, .v, .vsi, .ko, (.sel fun b => (FCond.ofCode (hiNib b)).isSome && (VType.ofCode (loNib b)).any VType.isFloat)]
      fun f => do return .vfcmp f.ctl (← (specOf f.a).kreg) (← (specOf f.b).vreg) (← (specOf f.c).vsrc) (← kopt f.d) (← FCond.ofCode (hiNib f.e)) (← VType.ofCode (loNib f.e)))
  | 0x188 => some (.mk' false .none [.v, .v, .zero, .ko, (.sel (vt VType.isFloat))]
      fun f => do return .vexp2 f.ctl (← (specOf f.a).vreg) (← (specOf f.b).vreg) (← kopt f.d) (← VType.ofCode (loNib f.e)))
  | 0x189 => some (.mk' false .none [.v, .v, .zero, .ko, (.sel (vt VType.isFloat))]
      fun f => do return .vlog2 f.ctl (← (specOf f.a).vreg) (← (specOf f.b).vreg) (← kopt f.d) (← VType.ofCode (loNib f.e)))
  | 0x18A => some (.mk' false .none [.v, .v, .zero, .ko, (.sel (vt VType.isFloat))]
      fun f => do return .vrcp f.ctl (← (specOf f.a).vreg) (← (specOf f.b).vreg) (← kopt f.d) (← VType.ofCode (loNib f.e)))
  | 0x18B => some (.mk' false .none [.v, .v, .zero, .ko, (.sel (vt VType.isFloat))]
      fun f => do return .vrsq f.ctl (← (specOf f.a).vreg) (← (specOf f.b).vreg) (← kopt f.d) (← VType.ofCode (loNib f.e)))
  | 0x18C => some (.mk' false .none [.v, .v, .zero, .ko, (.sel (vt VType.isFloat))]
      fun f => do return .vtanh f.ctl (← (specOf f.a).vreg) (← (specOf f.b).vreg) (← kopt f.d) (← VType.ofCode (loNib f.e)))
  | 0x18D => some (.mk' false .none [.v, .v, .v, .ko, (.sel (vt VType.isLut))]
      fun f => do return .vlut f.ctl (← (specOf f.a).vreg) (← (specOf f.b).vreg) (← (specOf f.c).vreg) (← kopt f.d) (← VType.ofCode (loNib f.e)))
  | 0x190 => some (.mk' false .none [.s, .v, .zero, .ko, (.sel (vt (· != .lg6)))]
      fun f => do return .vrsum f.ctl (← (specOf f.a).sreg) (← (specOf f.b).vreg) (← kopt f.d) (← VType.ofCode (loNib f.e)))
  | 0x191 => some (.mk' false .none [.s, .v, .zero, .ko, (.sel (vt (· != .lg6)))]
      fun f => do return .vrmax f.ctl (← (specOf f.a).sreg) (← (specOf f.b).vreg) (← kopt f.d) (← VType.ofCode (loNib f.e)))
  | 0x192 => some (.mk' false .none [.s, .v, .zero, .ko, (.sel (vt (· != .lg6)))]
      fun f => do return .vrmin f.ctl (← (specOf f.a).sreg) (← (specOf f.b).vreg) (← kopt f.d) (← VType.ofCode (loNib f.e)))
  | 0x198 => some (.mk' false .none [.v, .v, .v, .ko, (.sel (vt fun _ => true))]
      fun f => do return .vperm f.ctl (← (specOf f.a).vreg) (← (specOf f.b).vreg) (← (specOf f.c).vreg) (← kopt f.d) (← VType.ofCode (loNib f.e)))
  | 0x199 => some (.mk' false .none [.v, .v, .v, .v, (.sel (vt fun _ => true))]
      fun f => do return .vshuf f.ctl (← (specOf f.a).vreg) (← (specOf f.b).vreg) (← (specOf f.c).vreg) (← (specOf f.d).vreg) (← VType.ofCode (loNib f.e)))
  | 0x19A => some (.mk' false .none [.v, .v, .v, .si, (.sel (vt fun _ => true))]
      fun f => do return .vslide f.ctl (← (specOf f.a).vreg) (← (specOf f.b).vreg) (← (specOf f.c).vreg) (← (specOf f.d).simm) (← VType.ofCode (loNib f.e)))
  | 0x19B => some (.mk' false .none [.v, .v, .v, (.sel fun b => (Half.ofCode b.toNat).isSome), (.sel (vt fun _ => true))]
      fun f => do return .vzip f.ctl (← (specOf f.a).vreg) (← (specOf f.b).vreg) (← (specOf f.c).vreg) (← Half.ofCode f.d.toNat) (← VType.ofCode (loNib f.e)))
  | 0x19C => some (.mk' false .none [.v, .v, .v, (.sel fun b => (Half.ofCode b.toNat).isSome), (.sel (vt fun _ => true))]
      fun f => do return .vuzp f.ctl (← (specOf f.a).vreg) (← (specOf f.b).vreg) (← (specOf f.c).vreg) (← Half.ofCode f.d.toNat) (← VType.ofCode (loNib f.e)))
  | 0x1A0 => some (.mk' false .none [.v, .v, .ko, (.selBy fun f b => b.toNat < (match VType.ofCode (hiNib f.e), VType.ofCode (loNib f.e) with
      | some d, some s => cvtParts d s
      | _, _ => 8)), (.sel fun b => match VType.ofCode (hiNib b), VType.ofCode (loNib b) with
      | some d, some s => d != s && d != .lg6 && s != .lg6
      | _, _ => false)]
      fun f => do return .vcvt f.ctl (← (specOf f.a).vreg) (← (specOf f.b).vreg) (← kopt f.c) (← some (f.d.extractLsb' 0 3)) (← VType.ofCode (hiNib f.e)) (← VType.ofCode (loNib f.e)))
  | 0x1A1 => some (.mk' false .none [.v, .v, .s, (.selBy fun f b => loNib b < 3 && hiNib b < (match QFmt.ofCode (hiNib f.e), VType.ofCode (loNib f.e) with
      | some q, some s => s.width / q.bits
      | _, _ => 16)), (.sel fun b => (QFmt.ofCode (hiNib b)).isSome && (VType.ofCode (loNib b)).any VType.isFloat)]
      fun f => do return .vqmx f.ctl (← (specOf f.a).vreg) (← (specOf f.b).vreg) (← (specOf f.c).sreg) (← some (f.d.extractLsb' 4 4)) (← QMode.ofCode (loNib f.d)) (← QFmt.ofCode (hiNib f.e)) (← VType.ofCode (loNib f.e)))
  | 0x1A2 => some (.mk' false .none [.v, .v, .sif, (.selBy fun f b => b.toNat < (match VType.ofCode (loNib f.e) with
      | some s => s.width / 8
      | none => 8)), (.sel (vt (· != .lg6)))]
      fun f => do return .vtern f.ctl (← (specOf f.a).vreg) (← (specOf f.b).vreg) (← (specOf f.c).simm) (← some (f.d.extractLsb' 0 3)) (← VType.ofCode (loNib f.e)))
  | 0x1A3 => some (.mk' false .none [.v, .v, .si, (.sel fun b => (PkFmt.ofCode b.toNat).isSome), .zero]
      fun f => do return .vpk5 f.ctl (← (specOf f.a).vreg) (← (specOf f.b).vreg) (← (specOf f.c).simm) (← PkFmt.ofCode f.d.toNat))
  | 0x1A4 => some (.mk' false .none [.v, .v, .si, (.sel fun b => (PkFmt.ofCode b.toNat).isSome), .zero]
      fun f => do return .vupk5 f.ctl (← (specOf f.a).vreg) (← (specOf f.b).vreg) (← (specOf f.c).simm) (← PkFmt.ofCode f.d.toNat))
  | 0x1A5 => some (.mk' false .none [.v, .v, .s, (.selBy fun f b => loNib b < 3 && hiNib b < (match VType.ofCode (loNib f.e) with
      | some s => s.width / 8
      | none => 16)), (.sel fun b => hiNib b == 5 && (VType.ofCode (loNib b)).any VType.isFloat)]
      fun f => do return .vtolg f.ctl (← (specOf f.a).vreg) (← (specOf f.b).vreg) (← (specOf f.c).sreg) (← some (f.d.extractLsb' 4 4)) (← QMode.ofCode (loNib f.d)) (← VType.ofCode (loNib f.e)))
  | 0x1A6 => some (.mk' false .none [.v, .v, .s, (.selBy fun f b => b.toNat < (match VType.ofCode (loNib f.e) with
      | some s => s.width / 8
      | none => 8)), (.sel (vt VType.isFloat))]
      fun f => do return .vfrlg f.ctl (← (specOf f.a).vreg) (← (specOf f.b).vreg) (← (specOf f.c).sreg) (← some (f.d.extractLsb' 0 2)) (← VType.ofCode (loNib f.e)))
  | 0x1A8 => some (.mk' false .none [.v, .vNotA, .v, (.sel fun b => hiNib b < 2 && loNib b < 2), (.selBy fun f b => vt (fun t => t.isComp && (t == .i8 || loNib f.d == 0)) b)]
      fun f => do return .vcomp f.ctl (← (specOf f.a).vreg) (← (specOf f.b).vreg) (← (specOf f.c).vreg) (← some (f.d.extractLsb' 4 1)) (← Pattern.ofCode (loNib f.d)) (← VType.ofCode (loNib f.e)))
  | 0x1A9 => some (.mk' false .none [.v, .vNotA, .v, (.sel fun b => hiNib b < 2 && loNib b < 2), (.selBy fun f b => vt (fun t => t.isComp && (t == .i8 || loNib f.d == 0)) b)]
      fun f => do return .vexpd f.ctl (← (specOf f.a).vreg) (← (specOf f.b).vreg) (← (specOf f.c).vreg) (← some (f.d.extractLsb' 4 1)) (← Pattern.ofCode (loNib f.d)) (← VType.ofCode (loNib f.e)))
  | 0x1AA => some (.mk' false .none [.v, .v, .zero, .bar, .free]
      fun f => do return .vpmrg f.ctl (← (specOf f.a).vreg) (← (specOf f.b).vreg) (← barOf f))
  | 0x1AB => some (.mk' false .none [.k, .k, .k, .zero, .zero]
      fun f => do return .kand f.ctl (← (specOf f.a).kreg) (← (specOf f.b).kreg) (← (specOf f.c).kreg))
  | 0x1AC => some (.mk' false .none [.k, .k, .k, .zero, .zero]
      fun f => do return .kor f.ctl (← (specOf f.a).kreg) (← (specOf f.b).kreg) (← (specOf f.c).kreg))
  | 0x1AD => some (.mk' false .none [.k, .k, .zero, .zero, .zero]
      fun f => do return .knot f.ctl (← (specOf f.a).kreg) (← (specOf f.b).kreg))
  | 0x1AE => some (.mk' false .none [.s, .k, .zero, .zero, .zero]
      fun f => do return .kpop f.ctl (← (specOf f.a).sreg) (← (specOf f.b).kreg))
  | 0x1AF => some (.mk' false .none [.s, .k, .zero, .zero, .zero]
      fun f => do return .kfirst f.ctl (← (specOf f.a).sreg) (← (specOf f.b).kreg))
  | 0x1B0 => some (.mk' false .none [(.imm 2), .s, .zero, .free, .free]
      fun f => do return .mcfg f.ctl (← small 2 f.a) (← (specOf f.b).sreg) (← some f.imm16))
  | 0x1B1 => some (.mk' false .none [.s, .s, .zero, .zero, .zero]
      fun f => do return .mperm f.ctl (← (specOf f.a).sreg) (← (specOf f.b).sreg))
  | 0x1B2 => some (.mk' false .none [.s, .s, .v, .zero, .zero]
      fun f => do return .mscl f.ctl (← (specOf f.a).sreg) (← (specOf f.b).sreg) (← (specOf f.c).vreg))
  | 0x1B3 => some (.mk' false .none [.s, (.imm 2), .zero, .zero, .zero]
      fun f => do return .mgang f.ctl (← (specOf f.a).sreg) (← small 2 f.b))
  | 0x1B4 => some (.mk' false .none [.s, (.imm 2), .zero, .zero, .zero]
      fun f => do return .mjob f.ctl (← (specOf f.a).sreg) (← small 2 f.b))
  | 0x1B5 => some (.mk' false .none [.v, .s, (.sel fun b => hiNib b == 0), .si, .si]
      fun f => do return .macr f.ctl (← (specOf f.a).vreg) (← (specOf f.b).sreg) (← AccType.ofCode (f.c.toNat / 4 % 4)) (← some (f.c.extractLsb' 0 2)) (← (specOf f.d).simm) (← (specOf f.e).simm))
  | 0x1B6 => some (.mk' false .none [.s, (.imm 2), .zero, .zero, .zero]
      fun f => do return .macz f.ctl (← (specOf f.a).sreg) (← small 2 f.b))
  | 0x1B7 => some (.mk' false .none [.s, .v, (.sel fun b => b.toNat < 12), .si, .si]
      fun f => do return .macw f.ctl (← (specOf f.a).sreg) (← (specOf f.b).vreg) (← AccType.ofCode (f.c.toNat / 4 % 4)) (← some (f.c.extractLsb' 0 2)) (← (specOf f.d).simm) (← (specOf f.e).simm))
  | 0x1B8 => some (.mk' true .none [.s, .s, .s, .s, .zero]
      fun f => do return .mbld f.ctl (← (specOf f.a).sreg) (← (specOf f.b).sreg) (← (specOf f.c).sreg) (← (specOf f.d).sreg))
  | 0x1B9 => some (.mk' false .none [.s, .s, .zero, .zero, .zero]
      fun f => do return .jwait f.ctl (← (specOf f.a).sreg) (← (specOf f.b).sreg))
  | 0x1BA => some (.mk' false .none [.p, .s, .zero, .zero, .zero]
      fun f => do return .jpoll f.ctl (← (specOf f.a).preg) (← (specOf f.b).sreg))
  | 0x1C0 => some (.mk' false .object [.h, .si, .si, .si, .zero]
      fun f => do return .hcfg f.ctl (← (specOf f.a).hreg) (← (specOf f.b).simm) (← (specOf f.c).simm) (← (specOf f.d).simm))
  | 0x1C1 => some (.mk' true .object [.s, .h, .s, .zero, .zero]
      fun f => do return .hbind f.ctl (← (specOf f.a).sreg) (← (specOf f.b).hreg) (← (specOf f.c).sreg))
  | 0x1C2 => some (.mk' false .destination [.h, .zero, .zero, .zero, .zero]
      fun f => do return .hadvp f.ctl (← (specOf f.a).hreg))
  | 0x1C3 => some (.mk' false .sourceNoAdv [.h, .zero, .zero, .zero, .zero]
      fun f => do return .hadvc f.ctl (← (specOf f.a).hreg))
  | 0x1C4 => some ⟨false, hstatRole, [.s, .h, (.sel fun b => (HstatField.ofCode b.toNat).isSome), .zero, .zero], fun f => do return .hstat f.ctl (← (specOf f.a).sreg) (← (specOf f.b).hreg) (← HstatField.ofCode f.c.toNat)⟩
  | 0x1C5 => some (.mk' false .object [.h, .zero, .zero, .zero, .zero]
      fun f => do return .hunb f.ctl (← (specOf f.a).hreg))
  | 0x1C8 => some (.mk' true .none [.s, .s, .s, .s, .zero]
      fun f => do return .cpy f.ctl (← (specOf f.a).sreg) (← (specOf f.b).sreg) (← (specOf f.c).sreg) (← (specOf f.d).sreg))
  | 0x1C9 => some (.mk' true .none [.s, .s, .zero, .zero, .zero]
      fun f => do return .cpyt f.ctl (← (specOf f.a).sreg) (← (specOf f.b).sreg))
  | 0x1CA => some (.mk' true .none [.s, .s, .zero, .zero, .zero]
      fun f => do return .cthr f.ctl (← (specOf f.a).sreg) (← (specOf f.b).sreg))
  | 0x1CC => some (.mk' true .destination [.s, .h, .s, .v, .s]
      fun f => do return .gth f.ctl (← (specOf f.a).sreg) (← (specOf f.b).hreg) (← (specOf f.c).sreg) (← (specOf f.d).vreg) (← (specOf f.e).sreg))
  | 0x1CD => some (.mk' true .object [.s, .h, .s, .v, .s]
      fun f => do return .gthm f.ctl (← (specOf f.a).sreg) (← (specOf f.b).hreg) (← (specOf f.c).sreg) (← (specOf f.d).vreg) (← (specOf f.e).sreg))
  | 0x1CE => some (.mk' false .none [.k, (.sel fun b => (GmskOp.ofCode b.toNat).isSome), .zero, .zero, .zero]
      fun f => do return .gmsk f.ctl (← (specOf f.a).kreg) (← GmskOp.ofCode f.b.toNat))
  | 0x1D0 => some (.mk' false .object [.h, .s, .s, .free, .zero]
      fun f => do return .ureg f.ctl (← (specOf f.a).hreg) (← (specOf f.b).sreg) (← (specOf f.c).sreg) (← some f.d))
  | 0x1D1 => some (.mk' false .object [.h, .s, .si, .zero, .zero]
      fun f => do return .upd f.ctl (← (specOf f.a).hreg) (← (specOf f.b).sreg) (← (specOf f.c).simm))
  | 0x1D2 => some (.mk' false .object [.h, .v, .v, .ko, .zero]
      fun f => do return .updv f.ctl (← (specOf f.a).hreg) (← (specOf f.b).vreg) (← (specOf f.c).vreg) (← kopt f.d))
  | 0x1D3 => some (.mk' false .object [.s, .h, .zero, .zero, .zero]
      fun f => do return .uflsh f.ctl (← (specOf f.a).sreg) (← (specOf f.b).hreg))
  | 0x1D4 => some (.mk' false .object [.s, .h, .zero, .zero, .zero]
      fun f => do return .uqry f.ctl (← (specOf f.a).sreg) (← (specOf f.b).hreg))
  | 0x1E0 => some (.mk' false .none [.zero, .zero, .zero, .free, .free]
      fun f => do return .trap f.ctl (← some f.imm16))
  | 0x1E1 => some (.mk' false .none [(.sel fun b => (EretMode.ofCode b.toNat).isSome), .zero, .zero, .zero, .zero]
      fun f => do return .eret f.ctl (← EretMode.ofCode f.a.toNat))
  | 0x1E2 => some (.mk' false .none [.zero, .zero, .zero, .zero, .zero]
      fun f => some (.uiret f.ctl))
  | 0x1E3 => some (.mk' false .none [.s, .zero, .zero, (.cr fun _ => true), .free]
      fun f => do return .crr f.ctl (← (specOf f.a).sreg) (← CReg.ofNumber f.imm16.toNat))
  | 0x1E4 => some (.mk' false .none [.zero, .si, .zero, (.cr CReg.writable), .free]
      fun f => do return .crw f.ctl (← (specOf f.b).simm) (← CReg.ofNumber f.imm16.toNat))
  | 0x1E5 => some (.mk' false .none [.s, .si, .zero, (.cr CReg.modifiable), .free]
      fun f => do return .crset f.ctl (← (specOf f.a).sreg) (← (specOf f.b).simm) (← CReg.ofNumber f.imm16.toNat))
  | 0x1E6 => some (.mk' false .none [.s, .si, .zero, (.cr CReg.modifiable), .free]
      fun f => do return .crclr f.ctl (← (specOf f.a).sreg) (← (specOf f.b).simm) (← CReg.ofNumber f.imm16.toNat))
  | 0x1E8 => some (.mk' false .none [.s, .zero, .zero, .zero, .zero]
      fun f => do return .tstamp f.ctl (← (specOf f.a).sreg))
  | 0x1E9 => some (.mk' false .none [.s, .zero, .zero, .zero, .zero]
      fun f => do return .cyc f.ctl (← (specOf f.a).sreg))
  | 0x1EA => some (.mk' false .none [.s, (.imm 3), .zero, .zero, .zero]
      fun f => do return .ecrd f.ctl (← (specOf f.a).sreg) (← small 3 f.b))
  | 0x1EB => some (.mk' false .none [(.imm 3), .si, .zero, .zero, .zero]
      fun f => do return .eccfg f.ctl (← small 3 f.a) (← (specOf f.b).simm))
  | 0x1EC => some (.mk' false .none [.s, (.sel fun b => (EcOpt.ofCode b.toNat).isSome), .zero, .bar, .free]
      fun f => do return .ecsum f.ctl (← (specOf f.a).sreg) (← EcOpt.ofCode f.b.toNat) (← barOf f))
  | 0x1ED => some (.mk' false .none [.s, .si, .si, .zero, .zero]
      fun f => do return .rng f.ctl (← (specOf f.a).sreg) (← (specOf f.b).simm) (← (specOf f.c).simm))
  | 0x1F0 => some (.mk' false .none [.s, .s, .s, (.sel fun b => (How.ofCode b.toNat).isSome), .zero]
      fun f => do return .taskget f.ctl (← (specOf f.a).sreg) (← (specOf f.b).sreg) (← (specOf f.c).sreg) (← How.ofCode f.d.toNat))
  | 0x1F1 => some (.mk' false .none [.p, .si, .s, .si, .zero]
      fun f => do return .taskput f.ctl (← (specOf f.a).preg) (← (specOf f.b).simm) (← (specOf f.c).sreg) (← (specOf f.d).simm))
  | 0x1F2 => some (.mk' false .none [.zero, .zero, .zero, .zero, .zero]
      fun f => some (.taskend f.ctl))
  | 0x1F3 => some (.mk' false .none [.zero, .si, .zero, .zero, .zero]
      fun f => do return .taskab f.ctl (← (specOf f.b).simm))
  | 0x1F4 => some (.mk' false .none [(.sel fun b => b.toNat < 2), .zero, .zero, (.selBy fun f b => if f.a = 1 then f.imm16.toNat < 128 else b = 0), (.selBy fun f b => f.a = 1 || b = 0)]
      fun f => do return .convoy f.ctl (← some (if f.a = 1 then .on (f.e.extractLsb' 0 7) else .off)))
  | 0x1F5 => some (.mk' false .none [(.sel fun b => (TlbiMode.ofCode b.toNat).isSome), .s, (.sel fun b => (TlbiScope.ofCode b.toNat).isSome), .zero, .zero]
      fun f => do return .tlbi f.ctl (← TlbiMode.ofCode f.a.toNat) (← (specOf f.b).sreg) (← TlbiScope.ofCode f.c.toNat))
  | 0x1F8 => some (.mk' true .none [.s, .si, .s, .s, .si]
      fun f => do return .rput f.ctl (← (specOf f.a).sreg) (← (specOf f.b).simm) (← (specOf f.c).sreg) (← (specOf f.d).sreg) (← (specOf f.e).simm))
  | 0x1F9 => some (.mk' false .none [.s, .si, .s, .si, .zero]
      fun f => do return .rflag f.ctl (← (specOf f.a).sreg) (← (specOf f.b).simm) (← (specOf f.c).sreg) (← (specOf f.d).simm))
  | 0x1FA => some (.mk' false .none [.s, .zero, .zero, .zero, .zero]
      fun f => do return .rfence f.ctl (← (specOf f.a).sreg))
  | 0x1FB => some (.mk' false .source [.s, .h, (.imm 5), .zero, .zero]
      fun f => do return .rsend f.ctl (← (specOf f.a).sreg) (← (specOf f.b).hreg) (← small 5 f.c))
  | 0x1FC => some (.mk' false .destination [.s, .h, (.imm 5), .zero, .zero]
      fun f => do return .rrecv f.ctl (← (specOf f.a).sreg) (← (specOf f.b).hreg) (← small 5 f.c))
  | _ => none

/-! ## Decoding checks (R58, R59) -/

/-- TRAP_INFO of ILLEGAL_OP: subcode and WHERE (R59). -/
structure Illegal where
  sub : Nat
  whr : Nat
  deriving DecidableEq, Repr

/-- The control-field part of check 3: CH, then SC (R41, R42, R172). -/
def checkCtl (r : Row) (f : Fields) : Option Illegal :=
  if f.ctl.ch != 0 && !r.star then some ⟨0x05, 5⟩
  else match r.role f with
    | .none | .destination | .sourceNoAdv => if f.ctl.adv then some ⟨0x05, 6⟩ else none
    | .source => none
    | .object => if f.ctl.adv || f.ctl.n != 0 then some ⟨0x05, 6⟩ else none

/-- The first slot that fails a check. -/
def firstBad (sub : Nat) : List Bool → Nat → Option Illegal
  | [], _ => none
  | b :: bs, i => if b then some ⟨sub, i⟩ else firstBad sub bs (i + 1)

def Fields.slotBytes (f : Fields) : List Byte := [f.a, f.b, f.c, f.d, f.e]

/-- Checks 3 and 4 of R58: CH, SC.ADV and the slots' reserved values in the order in which check 3 lists them, then the
classes of the slots (log 8). -/
def checkRow (share : Nat) (r : Row) (f : Fields) : Option Illegal :=
  match checkCtl r f with
  | some e => some e
  | none =>
    match firstBad 0x05 (List.zipWith (fun s b => s.reserved f b) r.slots f.slotBytes) 0 with
    | some e => some e
    | none => firstBad 0x06 (List.zipWith (fun s b => s.badClass share f b) r.slots f.slotBytes) 0

/-- Checks 3 and 4 on the fields of a word with an assigned opcode. -/
def checkFields (share : Nat) (f : Fields) : Option Illegal :=
  match opRow f.op.toNat with
  | some r => checkRow share r f
  | none => some ⟨0x01, 0xFF⟩

/-- The instruction in a word under the vector share in force; a word without an assigned opcode is
`unassignedOpcode`, whose meaning raises ILLEGAL_OP (R63). -/
def decodeIn (share : Nat) (w : Word) : Except Illegal Instr :=
  let f := unpack w
  match opRow f.op.toNat with
  | none => .ok (.unassignedOpcode w)
  | some r =>
    match checkRow share r f with
    | some e => .error e
    | none =>
      match r.build f with
      | some i => .ok i
      | none => .error ⟨0x05, 0xFF⟩

/-- Decoding in short mode. -/
def decode (w : Word) : Except Illegal Instr := decodeIn 0 w

/-- The little-endian word of a list of bytes, least significant first (R13, R39). -/
def wordOfBytes (bs : List Byte) : Word :=
  bs.foldr (fun b acc => (acc <<< 8) ||| b.zeroExtend 64) 0

/-- Decoding of the bytes at the program counter: eight bytes make a word (R39). -/
def decodeBytes (bs : List Byte) : Option (Except Illegal Instr × List Byte) :=
  if bs.length < 8 then none else some (decode (wordOfBytes (bs.take 8)), bs.drop 8)

/-- The bytes of a word, least significant first (R39). -/
def bytesOfWord (w : Word) : List Byte :=
  [w.extractLsb' 0 8, w.extractLsb' 8 8, w.extractLsb' 16 8, w.extractLsb' 24 8, w.extractLsb' 32 8,
   w.extractLsb' 40 8, w.extractLsb' 48 8, w.extractLsb' 56 8]

/-- The instruction read from a word of the opcode table's numbering. -/
def decodeTableWord (nbits w : Nat) : Option Instr :=
  if 64 < nbits then none
  else match decodeBytes (bytesOfWord (BitVec.ofNat 64 (w % 2 ^ nbits))) with
    | some (.ok i, _) => some i
    | some (.error _, _) | none => none

/-! ## Block headers (R50) -/

/-- R50. -/
structure Header where
  len : Nat
  live : Byte
  vlive : BitVec 4
  rcv : Int
  pf : Nat
  kind : Nat
  flags : Byte
  deriving DecidableEq, Repr

/-- OP = 0x1FE (R50). -/
def isHeader (w : Word) : Bool := w.extractLsb' 55 9 == 0x1FE#9

def headerOf (w : Word) : Header where
  len := (w.extractLsb' 48 7).toNat
  live := w.extractLsb' 40 8
  vlive := w.extractLsb' 36 4
  rcv := (w.extractLsb' 20 16).toInt
  pf := (w.extractLsb' 12 8).toNat
  kind := (w.extractLsb' 8 4).toNat
  flags := w.extractLsb' 0 8

/-- Fields whose values R59 calls invalid, SUB 0x04. -/
def Header.bad (h : Header) : Bool := h.len == 0 || 5 ≤ h.kind || 4 ≤ h.flags.toNat
def Header.uniform (h : Header) : Bool := h.flags.getLsbD 0
def Header.noSpill (h : Header) : Bool := h.flags.getLsbD 1

/-! ## The encoder -/

def immByte (x : Nat) : Byte := Spec.byte (.imm (BitVec.ofNat 7 (64 + x)))
def sB (r : SReg) : Byte := Spec.byte (.s r)
def vB (r : VReg) : Byte := Spec.byte (.v r)
def pB (r : PReg) : Byte := Spec.byte (.p r)
def kB (r : KReg) : Byte := Spec.byte (.k r)
def hB (r : HReg) : Byte := Spec.byte (.h r)

/-- Fields with five slot bytes. -/
def mkF (op : Nat) (c : Ctl) (a b cc d e : Byte) : Option Fields := some ⟨BitVec.ofNat 9 op, c, a, b, cc, d, e⟩
/-- Fields with a 16-bit immediate in OD:OE. -/
def mkF16 (op : Nat) (c : Ctl) (a b cc : Byte) (i : BitVec 16) : Option Fields :=
  some ⟨BitVec.ofNat 9 op, c, a, b, cc, i.extractLsb' 8 8, i.extractLsb' 0 8⟩
/-- Fields with a 24-bit immediate in OC:OD:OE. -/
def mkF24 (op : Nat) (c : Ctl) (a b : Byte) (i : BitVec 24) : Option Fields :=
  some ⟨BitVec.ofNat 9 op, c, a, b, i.extractLsb' 16 8, i.extractLsb' 8 8, i.extractLsb' 0 8⟩

/-- The fields of an instruction that is a word; an event has none. -/
def Instr.fields : Instr → Option Fields
  | .nop c => mkF 0x001 c 0 0 0 0 0
  | .br c off => mkF24 0x002 c 0 0 off
  | .brc c a cond off => mkF24 0x003 c a.byte (selByte cond.code) off
  | .brx c a => mkF 0x004 c (sB a) 0 0 0 0
  | .call c d off => mkF24 0x005 c (sB d) 0 off
  | .callx c d a => mkF 0x006 c (sB d) (sB a) 0 0 0
  | .ret c a => mkF 0x007 c (sB a) 0 0 0 0
  | .loop c a off => mkF24 0x008 c (sB a) 0 off
  | .halt c => mkF 0x009 c 0 0 0 0 0
  | .sleep c d t => mkF 0x00A c (sB d) t.byte 0 0 0
  | .yield c => mkF 0x00B c 0 0 0 0 0
  | .add c d a b => mkF 0x040 c (sB d) a.byte b.byte 0 0
  | .sub c d a b => mkF 0x041 c (sB d) a.byte b.byte 0 0
  | .mul c d a b => mkF 0x042 c (sB d) a.byte b.byte 0 0
  | .mulh c d a b => mkF 0x043 c (sB d) a.byte b.byte 0 0
  | .mulhn c d a b => mkF 0x044 c (sB d) a.byte b.byte 0 0
  | .div c d a b => mkF 0x045 c (sB d) a.byte b.byte 0 0
  | .divn c d a b => mkF 0x046 c (sB d) a.byte b.byte 0 0
  | .rem c d a b => mkF 0x047 c (sB d) a.byte b.byte 0 0
  | .remn c d a b => mkF 0x048 c (sB d) a.byte b.byte 0 0
  | .neg c d a => mkF 0x049 c (sB d) a.byte 0 0 0
  | .abs c d a => mkF 0x04A c (sB d) a.byte 0 0 0
  | .min c d a b => mkF 0x04B c (sB d) a.byte b.byte 0 0
  | .max c d a b => mkF 0x04C c (sB d) a.byte b.byte 0 0
  | .minn c d a b => mkF 0x04D c (sB d) a.byte b.byte 0 0
  | .maxn c d a b => mkF 0x04E c (sB d) a.byte b.byte 0 0
  | .and c d a b => mkF 0x050 c (sB d) a.byte b.byte 0 0
  | .or c d a b => mkF 0x051 c (sB d) a.byte b.byte 0 0
  | .xor c d a b => mkF 0x052 c (sB d) a.byte b.byte 0 0
  | .andn c d a b => mkF 0x053 c (sB d) a.byte b.byte 0 0
  | .orn c d a b => mkF 0x054 c (sB d) a.byte b.byte 0 0
  | .shl c d a b => mkF 0x058 c (sB d) a.byte b.byte 0 0
  | .shr c d a b => mkF 0x059 c (sB d) a.byte b.byte 0 0
  | .sar c d a b => mkF 0x05A c (sB d) a.byte b.byte 0 0
  | .rol c d a b => mkF 0x05B c (sB d) a.byte b.byte 0 0
  | .ror c d a b => mkF 0x05C c (sB d) a.byte b.byte 0 0
  | .clz c d a => mkF 0x060 c (sB d) a.byte 0 0 0
  | .ctz c d a => mkF 0x061 c (sB d) a.byte 0 0 0
  | .popc c d a => mkF 0x062 c (sB d) a.byte 0 0 0
  | .brev c d a => mkF 0x063 c (sB d) a.byte 0 0 0
  | .bext c d a pos len => mkF 0x064 c (sB d) a.byte pos.byte len.byte 0
  | .bins c d a pos len => mkF 0x065 c (sB d) a.byte pos.byte len.byte 0
  | .sext c d a w => mkF 0x066 c (sB d) a.byte (selByte w.code) 0 0
  | .zext c d a w => mkF 0x067 c (sB d) a.byte (selByte w.code) 0 0
  | .sel c d pc a b => mkF 0x068 c (sB d) (pB pc) a.byte b.byte 0
  | .mov c d a => mkF 0x069 c (sB d) a.byte 0 0 0
  | .limm c d part imm => mkF24 0x06A c (sB d) (selByte part.code) imm
  | .addr c d base index sc => mkF 0x06B c (sB d) base.byte index.byte (immByte sc.toNat) 0
  | .cmp c d cond a b => mkF 0x06C c (pB d) (selByte cond.code) a.byte b.byte 0
  | .pand c d a b => mkF 0x080 c (pB d) a.byte b.byte 0 0
  | .por c d a b => mkF 0x081 c (pB d) a.byte b.byte 0 0
  | .pxor c d a b => mkF 0x082 c (pB d) a.byte b.byte 0 0
  | .pnot c d a => mkF 0x083 c (pB d) a.byte 0 0 0
  | .pset c a m => mkF 0x084 c a.byte m.byte 0 0 0
  | .pget c d => mkF 0x085 c (sB d) 0 0 0 0
  | .fadd c d a b t => mkF 0x0C0 c (sB d) a.byte b.byte 0 (selByte t.code)
  | .fsub c d a b t => mkF 0x0C1 c (sB d) a.byte b.byte 0 (selByte t.code)
  | .fmul c d a b t => mkF 0x0C2 c (sB d) a.byte b.byte 0 (selByte t.code)
  | .ffma c d a b e t => mkF 0x0C3 c (sB d) a.byte b.byte e.byte (selByte t.code)
  | .fmin c d a b t => mkF 0x0C4 c (sB d) a.byte b.byte 0 (selByte t.code)
  | .fmax c d a b t => mkF 0x0C5 c (sB d) a.byte b.byte 0 (selByte t.code)
  | .fabs c d a t => mkF 0x0C6 c (sB d) a.byte 0 0 (selByte t.code)
  | .fneg c d a t => mkF 0x0C7 c (sB d) a.byte 0 0 (selByte t.code)
  | .fcmp c d cond a b t => mkF 0x0C8 c (pB d) (selByte cond.code) a.byte b.byte (selByte t.code)
  | .fcvt c d a dst src => mkF 0x0C9 c (sB d) a.byte (nib dst.code src.code) 0 0
  | .frnd c d a mode t => mkF 0x0CA c (sB d) a.byte (selByte mode.code) 0 (selByte t.code)
  | .ld c d b size disp => mkF16 0x100 c (sB d) (sB b) (selByte size.code) disp
  | .st c b a size disp => mkF16 0x101 c (sB b) a.byte (selByte size.code) disp
  | .ldp c d1 d2 b disp => mkF16 0x102 c (sB d1) (sB d2) (sB b) disp
  | .stp c b a1 a2 disp => mkF16 0x103 c (sB b) a1.byte a2.byte disp
  | .ldv c d b k disp => mkF16 0x104 c (vB d) (sB b) (KOpt.byte k) disp
  | .stv c b v k disp => mkF16 0x105 c (sB b) (vB v) (KOpt.byte k) disp
  | .ldvs c d b stride size k => mkF 0x106 c (vB d) (sB b) stride.byte (selByte size.code) (KOpt.byte k)
  | .stvs c b v stride size k => mkF 0x107 c (sB b) (vB v) stride.byte (selByte size.code) (KOpt.byte k)
  | .prf c b level disp => mkF16 0x108 c (sB b) (selByte level.code) 0 disp
  | .fll c b mode disp => mkF16 0x109 c (sB b) (selByte mode.code) 0 disp
  | .fence c pred succ scope => mkF 0x110 c pred succ (selByte scope.code) 0 0
  | .acq c d obj => mkF 0x111 c (sB d) obj.byte 0 0 0
  | .rel c d obj => mkF 0x112 c (sB d) obj.byte 0 0 0
  | .sobj c obj slot base len => mkF 0x113 c obj.byte (immByte slot.toNat) (sB base) (sB len) 0
  | .aadd c d b v t => mkF 0x118 c (sB d) (sB b) v.byte 0 (selByte t.code)
  | .amin c d b v t => mkF 0x119 c (sB d) (sB b) v.byte 0 (selByte t.code)
  | .amax c d b v t => mkF 0x11A c (sB d) (sB b) v.byte 0 (selByte t.code)
  | .aand c d b v t => mkF 0x11B c (sB d) (sB b) v.byte 0 (selByte t.code)
  | .aor c d b v t => mkF 0x11C c (sB d) (sB b) v.byte 0 (selByte t.code)
  | .axor c d b v t => mkF 0x11D c (sB d) (sB b) v.byte 0 (selByte t.code)
  | .axchg c d b v t => mkF 0x11E c (sB d) (sB b) v.byte 0 (selByte t.code)
  | .acas c d b cv nv t => mkF 0x11F c (sB d) (sB b) cv.byte nv.byte (selByte t.code)
  | .anadd c b v t => mkF 0x120 c (sB b) v.byte 0 0 (selByte t.code)
  | .scld c d b t => mkF 0x128 c (sB d) (sB b) 0 0 (selByte t.code)
  | .scst c b v t => mkF 0x129 c (sB b) v.byte 0 0 (selByte t.code)
  | .scxch c d b v t => mkF 0x12A c (sB d) (sB b) v.byte 0 (selByte t.code)
  | .bara c opts bar => mkF16 0x130 c (opts.zeroExtend 8) 0 0 (bar.zeroExtend 16)
  | .barw c bar => mkF16 0x131 c 0 0 0 (bar.zeroExtend 16)
  | .bart c d bar => mkF16 0x132 c (pB d) 0 0 (bar.zeroExtend 16)
  | .barm c d m bar => mkF16 0x133 c (sB d) m.byte 0 (bar.zeroExtend 16)
  | .tlwait c tl n => mkF 0x138 c (selByte tl.code) n.byte 0 0 0
  | .tlrd c d tl which => mkF 0x139 c (sB d) (selByte tl.code) (selByte which.code) 0 0
  | .tlpoll c d tl n => mkF 0x13A c (pB d) (selByte tl.code) n.byte 0 0
  | .phase c mode bar => mkF16 0x140 c (selByte mode.code) 0 0 (bar.zeroExtend 16)
  | .pdrain c d bar => mkF16 0x141 c (sB d) 0 0 (bar.zeroExtend 16)
  | .vmode c share => mkF 0x160 c share.bytes.1 share.bytes.2 0 0 0
  | .vadd c d a b k t => mkF 0x168 c (vB d) (vB a) b.byte (KOpt.byte k) (selByte t.code)
  | .vsub c d a b k t => mkF 0x169 c (vB d) (vB a) b.byte (KOpt.byte k) (selByte t.code)
  | .vadds c d a b k t => mkF 0x16A c (vB d) (vB a) b.byte (KOpt.byte k) (selByte t.code)
  | .vsubs c d a b k t => mkF 0x16B c (vB d) (vB a) b.byte (KOpt.byte k) (selByte t.code)
  | .vmul c d a b k t => mkF 0x16C c (vB d) (vB a) b.byte (KOpt.byte k) (selByte t.code)
  | .vmulh c d a b k t => mkF 0x16D c (vB d) (vB a) b.byte (KOpt.byte k) (selByte t.code)
  | .vmin c d a b k t => mkF 0x16E c (vB d) (vB a) b.byte (KOpt.byte k) (selByte t.code)
  | .vmax c d a b k t => mkF 0x16F c (vB d) (vB a) b.byte (KOpt.byte k) (selByte t.code)
  | .vabs c d a k t => mkF 0x170 c (vB d) (vB a) 0 (KOpt.byte k) (selByte t.code)
  | .vand c d a b k t => mkF 0x171 c (vB d) (vB a) b.byte (KOpt.byte k) (selByte t.code)
  | .vor c d a b k t => mkF 0x172 c (vB d) (vB a) b.byte (KOpt.byte k) (selByte t.code)
  | .vxor c d a b k t => mkF 0x173 c (vB d) (vB a) b.byte (KOpt.byte k) (selByte t.code)
  | .vshl c d a b k t => mkF 0x174 c (vB d) (vB a) b.byte (KOpt.byte k) (selByte t.code)
  | .vshr c d a b k t => mkF 0x175 c (vB d) (vB a) b.byte (KOpt.byte k) (selByte t.code)
  | .vsar c d a b k t => mkF 0x176 c (vB d) (vB a) b.byte (KOpt.byte k) (selByte t.code)
  | .vcmp c d a b k cond t => mkF 0x177 c (kB d) (vB a) b.byte (KOpt.byte k) (nib cond.code t.code)
  | .vsel c d a b k t => mkF 0x178 c (vB d) (vB a) b.byte (kB k) (selByte t.code)
  | .vmov c d b k t => mkF 0x179 c (vB d) 0 b.byte (KOpt.byte k) (selByte t.code)
  | .vbc c d a idx k t => mkF 0x17A c (vB d) (vB a) idx.byte (KOpt.byte k) (selByte t.code)
  | .vext c d a idx t => mkF 0x17B c (sB d) (vB a) idx.byte 0 (selByte t.code)
  | .vins c d a idx t => mkF 0x17C c (vB d) a.byte idx.byte 0 (selByte t.code)
  | .vfadd c d a b k t => mkF 0x180 c (vB d) (vB a) b.byte (KOpt.byte k) (selByte t.code)
  | .vfsub c d a b k t => mkF 0x181 c (vB d) (vB a) b.byte (KOpt.byte k) (selByte t.code)
  | .vfmul c d a b k t => mkF 0x182 c (vB d) (vB a) b.byte (KOpt.byte k) (selByte t.code)
  | .vffma c d a b k t => mkF 0x183 c (vB d) (vB a) b.byte (KOpt.byte k) (selByte t.code)
  | .vfmin c d a b k t => mkF 0x184 c (vB d) (vB a) b.byte (KOpt.byte k) (selByte t.code)
  | .vfmax c d a b k t => mkF 0x185 c (vB d) (vB a) b.byte (KOpt.byte k) (selByte t.code)
  | .vfcmp c d a b k cond t => mkF 0x186 c (kB d) (vB a) b.byte (KOpt.byte k) (nib cond.code t.code)
  | .vexp2 c d a k t => mkF 0x188 c (vB d) (vB a) 0 (KOpt.byte k) (selByte t.code)
  | .vlog2 c d a k t => mkF 0x189 c (vB d) (vB a) 0 (KOpt.byte k) (selByte t.code)
  | .vrcp c d a k t => mkF 0x18A c (vB d) (vB a) 0 (KOpt.byte k) (selByte t.code)
  | .vrsq c d a k t => mkF 0x18B c (vB d) (vB a) 0 (KOpt.byte k) (selByte t.code)
  | .vtanh c d a k t => mkF 0x18C c (vB d) (vB a) 0 (KOpt.byte k) (selByte t.code)
  | .vlut c d a tab k t => mkF 0x18D c (vB d) (vB a) (vB tab) (KOpt.byte k) (selByte t.code)
  | .vrsum c d a k t => mkF 0x190 c (sB d) (vB a) 0 (KOpt.byte k) (selByte t.code)
  | .vrmax c d a k t => mkF 0x191 c (sB d) (vB a) 0 (KOpt.byte k) (selByte t.code)
  | .vrmin c d a k t => mkF 0x192 c (sB d) (vB a) 0 (KOpt.byte k) (selByte t.code)
  | .vperm c d a idx k t => mkF 0x198 c (vB d) (vB a) (vB idx) (KOpt.byte k) (selByte t.code)
  | .vshuf c d a b idx t => mkF 0x199 c (vB d) (vB a) (vB b) (vB idx) (selByte t.code)
  | .vslide c d a b n t => mkF 0x19A c (vB d) (vB a) (vB b) n.byte (selByte t.code)
  | .vzip c d a b half t => mkF 0x19B c (vB d) (vB a) (vB b) (selByte half.code) (selByte t.code)
  | .vuzp c d a b half t => mkF 0x19C c (vB d) (vB a) (vB b) (selByte half.code) (selByte t.code)
  | .vcvt c d a k part dst src => mkF 0x1A0 c (vB d) (vB a) (KOpt.byte k) (part.zeroExtend 8) (nib dst.code src.code)
  | .vqmx c d a e part mode fmt src => mkF 0x1A1 c (vB d) (vB a) (sB e) (nib part.toNat mode.code) (nib fmt.code src.code)
  | .vtern c d a thr part t => mkF 0x1A2 c (vB d) (vB a) thr.byte (part.zeroExtend 8) (selByte t.code)
  | .vpk5 c d a o fmt => mkF 0x1A3 c (vB d) (vB a) o.byte (selByte fmt.code) 0
  | .vupk5 c d a o fmt => mkF 0x1A4 c (vB d) (vB a) o.byte (selByte fmt.code) 0
  | .vtolg c d a e part mode src => mkF 0x1A5 c (vB d) (vB a) (sB e) (nib part.toNat mode.code) (nib 5 src.code)
  | .vfrlg c d a e part t => mkF 0x1A6 c (vB d) (vB a) (sB e) (part.zeroExtend 8) (selByte t.code)
  | .vcomp c d m a part pat t => mkF 0x1A8 c (vB d) (vB m) (vB a) (nib part.toNat pat.code) (selByte t.code)
  | .vexpd c d m a part pat t => mkF 0x1A9 c (vB d) (vB m) (vB a) (nib part.toNat pat.code) (selByte t.code)
  | .vpmrg c d a bar => mkF16 0x1AA c (vB d) (vB a) 0 (bar.zeroExtend 16)
  | .kand c d a b => mkF 0x1AB c (kB d) (kB a) (kB b) 0 0
  | .kor c d a b => mkF 0x1AC c (kB d) (kB a) (kB b) 0 0
  | .knot c d a => mkF 0x1AD c (kB d) (kB a) 0 0 0
  | .kpop c d a => mkF 0x1AE c (sB d) (kB a) 0 0 0
  | .kfirst c d a => mkF 0x1AF c (sB d) (kB a) 0 0 0
  | .mcfg c dr b disp => mkF16 0x1B0 c (immByte dr.toNat) (sB b) 0 disp
  | .mperm c d b => mkF 0x1B1 c (sB d) (sB b) 0 0 0
  | .mscl c d w v => mkF 0x1B2 c (sB d) (sB w) (vB v) 0 0
  | .mgang c d dr => mkF 0x1B3 c (sB d) (immByte dr.toNat) 0 0 0
  | .mjob c d dr => mkF 0x1B4 c (sB d) (immByte dr.toNat) 0 0 0
  | .macr c d n t tile row col => mkF 0x1B5 c (vB d) (sB n) (selByte (4 * t.code + tile.toNat)) row.byte col.byte
  | .macz c d tile => mkF 0x1B6 c (sB d) (immByte tile.toNat) 0 0 0
  | .macw c d v t tile row col => mkF 0x1B7 c (sB d) (vB v) (selByte (4 * t.code + tile.toNat)) row.byte col.byte
  | .mbld c d w b len => mkF 0x1B8 c (sB d) (sB w) (sB b) (sB len) 0
  | .jwait c d tag => mkF 0x1B9 c (sB d) (sB tag) 0 0 0
  | .jpoll c d tag => mkF 0x1BA c (pB d) (sB tag) 0 0 0
  | .hcfg c h base bytes slots => mkF 0x1C0 c (hB h) base.byte bytes.byte slots.byte 0
  | .hbind c d h b => mkF 0x1C1 c (sB d) (hB h) (sB b) 0 0
  | .hadvp c h => mkF 0x1C2 c (hB h) 0 0 0 0
  | .hadvc c h => mkF 0x1C3 c (hB h) 0 0 0 0
  | .hstat c d h field => mkF 0x1C4 c (sB d) (hB h) (selByte field.code) 0 0
  | .hunb c h => mkF 0x1C5 c (hB h) 0 0 0 0
  | .cpy c d dst src len => mkF 0x1C8 c (sB d) (sB dst) (sB src) (sB len) 0
  | .cpyt c d b => mkF 0x1C9 c (sB d) (sB b) 0 0 0
  | .cthr c d b => mkF 0x1CA c (sB d) (sB b) 0 0 0
  | .gth c d h b idx r => mkF 0x1CC c (sB d) (hB h) (sB b) (vB idx) (sB r)
  | .gthm c d h b idx r => mkF 0x1CD c (sB d) (hB h) (sB b) (vB idx) (sB r)
  | .gmsk c k op => mkF 0x1CE c (kB k) (selByte op.code) 0 0 0
  | .ureg c h base len op => mkF 0x1D0 c (hB h) (sB base) (sB len) op 0
  | .upd c h off v => mkF 0x1D1 c (hB h) (sB off) v.byte 0 0
  | .updv c h off v k => mkF 0x1D2 c (hB h) (vB off) (vB v) (KOpt.byte k) 0
  | .uflsh c d h => mkF 0x1D3 c (sB d) (hB h) 0 0 0
  | .uqry c d h => mkF 0x1D4 c (sB d) (hB h) 0 0 0
  | .trap c imm => mkF16 0x1E0 c 0 0 0 imm
  | .eret c mode => mkF 0x1E1 c (selByte mode.code) 0 0 0 0
  | .uiret c => mkF 0x1E2 c 0 0 0 0 0
  | .crr c d cr => mkF16 0x1E3 c (sB d) 0 0 (BitVec.ofNat 16 cr.number)
  | .crw c a cr => mkF16 0x1E4 c 0 a.byte 0 (BitVec.ofNat 16 cr.number)
  | .crset c d a cr => mkF16 0x1E5 c (sB d) a.byte 0 (BitVec.ofNat 16 cr.number)
  | .crclr c d a cr => mkF16 0x1E6 c (sB d) a.byte 0 (BitVec.ofNat 16 cr.number)
  | .tstamp c d => mkF 0x1E8 c (sB d) 0 0 0 0
  | .cyc c d => mkF 0x1E9 c (sB d) 0 0 0 0
  | .ecrd c d n => mkF 0x1EA c (sB d) (immByte n.toNat) 0 0 0
  | .eccfg c n src => mkF 0x1EB c (immByte n.toNat) src.byte 0 0 0
  | .ecsum c b opt bar => mkF16 0x1EC c (sB b) (selByte opt.code) 0 (bar.zeroExtend 16)
  | .rng c d k x => mkF 0x1ED c (sB d) k.byte x.byte 0 0
  | .taskget c a k l how => mkF 0x1F0 c (sB a) (sB k) (sB l) (selByte how.code) 0
  | .taskput c d key e arg => mkF 0x1F1 c (pB d) key.byte (sB e) arg.byte 0
  | .taskend c => mkF 0x1F2 c 0 0 0 0 0
  | .taskab c code => mkF 0x1F3 c 0 code.byte 0 0 0
  | .convoy c (.on b) => mkF16 0x1F4 c 1 0 0 (b.zeroExtend 16)
  | .convoy c .off => mkF16 0x1F4 c 0 0 0 0
  | .tlbi c mode a scope => mkF 0x1F5 c (selByte mode.code) (sB a) (selByte scope.code) 0 0
  | .rput c d pkg dst src len => mkF 0x1F8 c (sB d) pkg.byte (sB dst) (sB src) len.byte
  | .rflag c d pkg dst v => mkF 0x1F9 c (sB d) pkg.byte (sB dst) v.byte 0
  | .rfence c d => mkF 0x1FA c (sB d) 0 0 0 0
  | .rsend c d h ch => mkF 0x1FB c (sB d) (hB h) (immByte ch.toNat) 0 0
  | .rrecv c d h ch => mkF 0x1FC c (sB d) (hB h) (immByte ch.toNat) 0 0
  | .unassignedOpcode w => some (unpack w)
  | .devConfig .. => none
  | .ctxCreate .. => none
  | .ctxKill .. => none
  | .launch .. => none
  | .preempt .. => none
  | .preemptKill .. => none
  | .resume .. => none
  | .pageAnswer .. => none
  | .migrate .. => none
  | .setLimit .. => none
  | .ringCfg .. => none
  | .ckpt .. => none
  | .ckptAbort .. => none
  | .restore .. => none
  | .diagRead .. => none
  | .eventResend .. => none
  | .attest .. => none
  | .debugResume .. => none
  | .debugHaltRequest .. => none
  | .userInterruptEntry .. => none
  | .sleepWake .. => none
  | .loadReturn .. => none
  | .loadDataUe .. => none
  | .storeDrain .. => none
  | .siroccoWindowClose => none
  | .scOperationComplete .. => none
  | .syncLineReturn .. => none
  | .barrierPhaseComplete .. => none
  | .probePass .. => none
  | .vpmrgMerge .. => none
  | .jobQueueAccept .. => none
  | .jobQueueDepart .. => none
  | .matrixOperationStart .. => none
  | .matrixStepCommit .. => none
  | .chainAdd .. => none
  | .streamSlotFill .. => none
  | .engineOperationComplete .. => none
  | .sorterBatchClose .. => none
  | .updateApply .. => none
  | .backgroundFlush .. => none
  | .l2Install .. => none
  | .l2Write .. => none
  | .idleSweep .. => none
  | .tierWrite .. => none
  | .tierRead .. => none
  | .viewSettle => none
  | .ringPacketPerform .. => none
  | .orderedFlagPerform .. => none
  | .ringAck .. => none
  | .ringSlotArrive .. => none
  | .flitRetransmit .. => none
  | .laneRetire .. => none
  | .linkDown .. => none
  | .nodePlacement .. => none
  | .nearSpillOver .. => none
  | .gangPlacement .. => none
  | .persistentStart .. => none
  | .taskCompletionReport .. => none
  | .preemptHalt .. => none
  | .drainDone .. => none
  | .saveDone .. => none
  | .contextRestoreDone .. => none
  | .replayRelease .. => none
  | .watchdogExpiry .. => none
  | .budgetDivision .. => none
  | .operatingPointChange .. => none
  | .powerSample .. => none
  | .droopAlarm .. => none
  | .droopHalvingEnd .. => none
  | .calibrationDwellEnd .. => none
  | .calibUe .. => none
  | .ageingMeasure .. => none
  | .patrolScrub .. => none
  | .correctedError .. => none
  | .uncorrectableError .. => none
  | .registerParityError .. => none
  | .telemetrySample .. => none
  | .streamTailWrite .. => none
  | .eventHeadWrite .. => none
  | .reattach .. => none
  | .wake .. => none
  | .hostRegisterWrite .. => none
  | .hostWindowAccess .. => none
  | .checkpointStreamEnd => none
  | .seqGap => none
  | .msiXInterrupt => none
  | .deviceReset .. => none
  | .updatePairArrival .. => none
  | .migrationComplete .. => none
  | .calibrationStepResume .. => none
  | .linkTrained .. => none

/-- The word of an instruction; none for an event. -/
def encode (i : Instr) : Option Word := i.fields.map pack

/-- A decoding of a word the spec writes out is the instruction it stands for. -/
def decodesTo (w : Word) (i : Instr) : Bool :=
  match decode w with
  | .ok j => j == i
  | .error _ => false

end Sys2Proof
end

