-- ==== Sys2Proof/Machine/State.lean ====
section
/-! DEFINITION. The state of one ZT4 package (00_scope R2, R3), as plain data, and the reasons a step can stop.
Arrays of units and of registers are sparse maps: an entry that is not listed has the value named at reset. -/
namespace Sys2Proof.Machine
open Sys2Proof

/-- A sparse map from numbers. Read and written only by `SMap.get`, `SMap.find`, `SMap.set`, `SMap.erase`. -/
abbrev SMap (α : Type) := List (Nat × α)

/-- Bytes at addresses, in the canonical form `Memory.wf` (14_memory_hierarchy R302, R304). -/
abbrev Mem := List Host.Cell

/-! ## Why a step stops -/

/-- Stops with a fault. -/
inductive Fault where
  /-- Raised by `Move`s and events that name a unit the package does not have (R2, R3): safe, nothing in the package
  would make such a step. -/
  | noSuchUnit
  deriving DecidableEq, Repr

/-- Refusals. -/
inductive Refusal where
  /-- Raised by arms of `exec` only, for an instruction without a meaning: safe, nothing is claimed of it. -/
  | notModelled (mnemonic : String)
  deriving DecidableEq, Repr

/-! ## Traps -/

/-- TRAP_CAUSE codes (10_traps R233). -/
inductive Cause where
  | illegalOp | badTarget | privOp | misaligned | addrFault | atomicLocal | protFault | scScope | nonidemOp
  | badObject | barrierFault | timelineAhead | handleUnbound | handleState | handleFault | badDesc | updOverlap
  | updRange | updFull | swTrap | uiState | dataUe
  deriving DecidableEq, Repr

/-! ## Handles (06 R171, R174, R181) -/

inductive HState where
  | unbound | ring | stream | update
  deriving DecidableEq, Repr

/-- One handle. `outOfOrder`: claimed slots a producer has finished before an earlier one; `failed`: slots of failed
gathers, oldest first (R179). -/
structure Handle where
  st : HState := .unbound
  fault : Bool := false
  exhausted : Bool := false
  base : Word := 0
  bytes : Nat := 0
  slots : Nat := 0
  p : Nat := 0
  q : Nat := 0
  c : Nat := 0
  d : Nat := 0
  doneP : List Nat := []
  doneC : List Nat := []
  failed : List Nat := []
  desc : List Byte := []
  committed : Nat := 0
  opNum : Nat := 0
  /-- The status of the stream, once it has failed, and what its record carries (06 R156, 16 R344). -/
  status : Byte := 0
  info : Word := 0
  region : Option Nat := none
  deriving DecidableEq, Repr

/-- The handles of work that is over while operations of it still use them (10 R239). -/
structure Orphan where
  core : CoreId
  inst : Nat
  handles : SMap Handle
  deriving DecidableEq, Repr

/-! ## Timelines and engine operations (04 R125, 06 R154 to R156) -/

/-- One timeline context: issued I, completed C, the numbers completed beyond C, and the kept statuses. -/
structure Tline where
  issued : Nat := 0
  done : Nat := 0
  beyond : List Nat := []
  status : SMap Byte := []
  deriving DecidableEq, Repr

/-- What an engine operation does. Addresses are generic. `k` counts the bytes or elements already done. -/
inductive OpKind where
  | copy (dst src : Word) (len : Nat)
  | pattern (desc : List Byte)
  | ternarise (desc : List Byte)
  | stream (h : HReg)
  | gather (h : HReg) (pos : Nat) (base : Word) (idx : List Nat) (row : Nat) (todo : List Nat)
    (bad : List (Nat × Nat × Nat))
  /-- `upto`: the pairs that had left the cores of the package at issue. -/
  | flush (region upto : Nat)
  | load (w : Word) (src : Word) (len : Nat)
  | scale (w : Word) (data : List Byte)
  | perm (src : Word)
  | zero (tile : Nat)
  | accWrite (t : AccType) (tile row col : Nat) (data : List Byte)
  | matrix (gang : Bool) (desc : List Byte)
  | put (pkg : Nat) (dst src : Word) (len : Nat)
  | flag (pkg : Nat) (dst v : Word)
  | send (h : HReg) (port ch first n : Nat)
  | recv (h : HReg) (port ch first n : Nat)
  deriving DecidableEq, Repr

/-- Grants and shares of the work (09 R212, 14 R303). -/
structure Grants where
  handles : Nat := 0
  barriers : Nat := 0
  lregs : Nat := 0
  stack : Nat := 0
  ovf : Nat := 0
  shareBase : Nat := 0
  shareSize : Nat := 0
  outs : List (Nat × Nat) := []
  wouts : List (Nat × Nat) := []
  deriving DecidableEq, Repr

/-- What an operation keeps of its core's state at issue: privilege, share and stack mapping (14 R301, R303). -/
structure EngEnv where
  user : Bool := true
  grants : Grants := {}
  spillBase : Word := 0
  ovfBase : Word := 0
  deriving DecidableEq, Repr

/-- A packet of a put or flag that has left: its path, its sequence number on the path, its bytes; of a flag, the put
packets sent before it on the four paths (11 R256). -/
structure SentPkt where
  path : Nat
  seq : Nat
  data : List Byte
  counts : List Nat := []
  deriving DecidableEq, Repr

/-- An operation outstanding on a core's timeline. `inst` is the instance of work that issued it (R125). -/
structure EngOp where
  core : CoreId
  ctx : Nat
  inst : Nat
  tl : Timeline
  n : Nat
  kind : OpKind
  prog : Nat := 0
  fail : Option (Byte × Word) := none
  acked : Nat := 0
  /-- The packets of a put or flag that have left (11 R256). -/
  sent : List SentPkt := []
  /-- W-stack bytes of CTHR's groups still to be written, by W byte (06 R165, R177). -/
  out : Mem := []
  queued : Bool := false
  env : EngEnv := {}
  /-- The page it waits for. -/
  page : Option Nat := none
  /-- Accesses of the core issued before the operation: its reads observe them (R155). -/
  issued : Nat := 0
  /-- Pages that the host has refused it. -/
  denied : List Nat := []
  /-- The core that numbers the packets of its ring context (11 R256, log 38). -/
  rc : CoreId := 0
  /-- Pieces of a copy done beyond `prog`, by where they start. -/
  ahead : List Nat := []
  /-- Bytes of a pattern copy produced and not yet written, by where they lie, each with its generic address (12 R277). -/
  stage : SMap (Nat × Byte) := []
  deriving DecidableEq, Repr

/-! ## Cores -/

/-- A 32-byte beat, or less, of a store issued and not yet drained (04 R100, 12 R262): cells by local-memory offset
(`loc`), or by physical key. `lcl`: of the local classes, through the stack overflow area (04 R99). -/
structure PendStore where
  n : Nat
  loc : Bool
  /-- The access of which it is a beat, by the number of its first one. -/
  acc : Nat := 0
  /-- The access writes all 128 bytes of the beat's line (10 R250). -/
  whole : Bool := false
  /-- A global load has taken its value from here (12 R271). -/
  fwd : Bool := false
  /-- A streaming store: a line that it fills is the next victim (14 R310). -/
  stream : Bool := false
  lcl : Bool := false
  home : Nat := 0
  va : Word := 0
  bypass : Bool := false
  cells : Mem
  deriving DecidableEq, Repr

/-- Where a load's value goes, and how (04 R104 to R107). -/
inductive LoadDst where
  | scalar (r : SReg) (bytes : Nat) (signed : Bool)
  | pair (r1 r2 : SReg)
  | vec (r : VReg) (long : Bool)
  /-- ANADD returns nothing (04 R116). -/
  | nothing
  deriving DecidableEq, Repr

/-- Where one byte of an access lies: destination or source byte, generic address, PA, home slice, and whether the
access keeps out of L1 (12 R263). -/
structure Lane where
  i : Nat
  va : Word
  pa : Nat
  home : Nat
  bypass : Bool
  stb : Bool
  /-- A streaming access: a line that it fills is the next victim (14 R310). -/
  stream : Bool := false
  /-- Reached through the stack overflow area: of the local classes (04 R99). -/
  ovf : Bool := false
  deriving DecidableEq, Repr

/-- What an atomic stores (04 R115). -/
inductive AtomOp where
  | add | min | max | and | or | xor | xchg
  /-- ACAS: what the location is compared with. -/
  | cas (old : Nat)
  deriving DecidableEq, Repr

/-- An atomic that has been issued: its operation, type and operand (04 R115, R116). -/
structure Rmw where
  op : AtomOp
  t : AType
  v : Nat
  deriving DecidableEq, Repr

/-- A load or an atomic issued and not yet performed (04 R116, 12 R262): one lane for each enabled byte of global memory,
one (index, offset) for each of local memory; what it has read so far. -/
structure PendLoad where
  n : Nat
  pc : Word
  blk : Word
  dst : LoadDst
  lanes : List Lane
  locs : List (Nat × Nat) := []
  got : List (Nat × Byte) := []
  ue : Option Word := none
  rmw : Option Rmw := none
  deriving DecidableEq, Repr

/-- A FENCE whose successor steps have not been taken (04 R110). `upto`: accesses issued before it; `pairs`: the pairs that
had left the cores of the package at its issue. -/
structure FenceRec where
  pred : Byte
  succ : Byte
  scope : Scope
  upto : Nat
  pairs : Nat := 0
  deriving DecidableEq, Repr

/-- A sequentially consistent operation (04 R117, R118). -/
inductive ScKind where
  | load | store | xchg
  deriving DecidableEq, Repr

structure ScOp where
  kind : ScKind
  d : SReg
  t : AType
  pa : Nat
  home : Nat
  va : Word
  v : Word
  pc : Word
  blk : Word
  bad : Bool := false
  /-- Windows that close before it reaches Sirocco (12 R276). -/
  late : Nat := 0
  /-- The old value once the window has closed and the operation has been performed. -/
  performed : Option Word := none
  deriving DecidableEq, Repr

inductive BarSt where
  | idle | arrived | done
  deriving DecidableEq, Repr

/-- What an arrival contributes and receives at completion (04 R122, 05 R151, 07 R194, R198). -/
inductive Arrival where
  | plain (nofence : Bool)
  | drain (d : SReg)
  | merge (d : VReg) (long : Bool) (v : LVec)
  /-- The record's place: a physical key with its home slice, or, without one, an offset of the tile's local memory. -/
  | counters (pa : Nat) (home : Option Nat) (clear : Bool)
  | convoy
  deriving DecidableEq, Repr

/-- One named barrier of a core (04 R119 to R122, R124). `mark`: the word that made the arrival and waits. -/
structure Bar where
  mem : BitVec 16 := 0
  st : BarSt := .idle
  mark : Option Word := none
  fault : Option Nat := none
  arr : Option Arrival := none
  comm : Bool := false
  /-- The merge of VPMRG has not been returned yet (18 R359). -/
  owed : Bool := false
  /-- Accesses of the core issued before its arrival (R123). -/
  upto : Nat := 0
  /-- The phase that completed was a drain phase (R124). -/
  drained : Bool := false
  deriving DecidableEq, Repr

/-- A translation held by a micro-TLB (14 R308). -/
structure TlbEntry where
  ctx : Nat
  va : Nat
  size : Nat
  leaf : Word
  pte : Nat
  deriving DecidableEq, Repr

/-- A non-leaf entry held by a die's walk cache: its context, where it lies, and its value (14 R308). -/
structure WalkEntry where
  ctx : Nat
  pa : Nat
  e : Nat
  deriving DecidableEq, Repr

/-- The work on a core: a member of a graph node, or of a persistent program (09 R216, R224). -/
structure WorkRef where
  ctx : Nat
  launch : Word
  node : Option Nat
  idem : Bool
  gang : Bool
  deriving DecidableEq, Repr

/-- Pre-emption states (10 R243); `free`: no work on the core. -/
inductive PreState where
  | free | run | draining | saving
  deriving DecidableEq, Repr

/-- A pending request of rank 1 (10 R238, R243). -/
inductive Req where
  | preempt (why : Nat)
  | kill
  | watchdog
  deriving DecidableEq, Repr

/-- How the header at the program counter is being entered (02 R51, R53). -/
inductive Entry where
  | fall | jump | handler
  deriving DecidableEq, Repr

/-- What stands at the program counter: a word of the open block, or a header to enter. -/
inductive Pos where
  | word
  | header (how : Entry)
  deriving DecidableEq, Repr

/-- How a gang member's part of the work has ended (07 R197). -/
inductive Ended where
  | taskEnd
  | taskAb (code : Word) (order : Nat)
  deriving DecidableEq, Repr

/-- A pair of an update stream (20 R368). -/
structure Pair where
  ctx : Nat
  region : Nat
  addr : Nat
  src : CoreId
  seq : Nat
  value : Word
  /-- The model's own number of the pair, in the order in which pairs leave the cores of the package. -/
  num : Nat := 0
  deriving DecidableEq, Repr

/-- The trap registers (07 R190). -/
structure TrapRegs where
  cause : Word := 0
  pc : Word := 0
  info : Word := 0
  blk : Word := 0
  status : Word := 0
  deriving DecidableEq, Repr

/-- The user-interrupt registers (07 R188, R190). -/
structure UiRegs where
  vec : Word := 0
  pc : Word := 0
  blk : Word := 0
  en : BitVec 5 := 0
  cause : BitVec 5 := 0
  deriving DecidableEq, Repr

/-- SLEEP in progress (03 R81). -/
structure Sleep where
  d : SReg
  since : Nat
  timeout : Word
  deriving DecidableEq, Repr

/-- One core (02 R49, 07 R190). Register maps: an unlisted register is zero. -/
structure Core where
  s : SMap Word := []
  p : Byte := 0
  v : SMap Vec := []
  l : SMap LVec := []
  k : SMap Vec := []
  share : Nat := 0
  dr : SMap (List Byte) := []
  h : SMap Handle := []
  gcm : Vec := 0
  shadow : SMap Word := []
  pc : Word := 0
  blk : Word := 0
  hdr : Word := 0
  pos : Pos := .word
  priv : Bool := false
  convoy : Bool := false
  uih : Bool := false
  inHandler : Bool := false
  deferredTrap : Bool := false
  trap : TrapRegs := {}
  ui : UiRegs := {}
  spillBase : Word := 0
  ovfBase : Word := 0
  ovfMark : Word := 0
  duty : BitVec 5 := 16
  opreq : BitVec 3 := 7
  ec : SMap (BitVec 48) := []
  ecsel : SMap (BitVec 17) := []
  /-- BADTRIT occurrences since the dispatch, whether or not a counter selects them (15 R324, R327). -/
  badtrits : Nat := 0
  tls : SMap Tline := []
  rgPath : SMap Word := []
  ringFails : Nat := 0
  /-- The core under whose number the packets of its ring context go on, where that is another one: work that came back onto
  another core (11 R256, log 38). -/
  ringCore : Option CoreId := none
  bars : SMap Bar := []
  stores : List PendStore := []
  loads : List PendLoad := []
  fences : List FenceRec := []
  seen : List Nat := []
  /-- Bytes of global memory that the core has read ahead of the loads that will return them (12 R268), by physical key. -/
  early : SMap Byte := []
  wrote : List Nat := []
  sc : Option ScOp := none
  upd : List Pair := []
  credits : Nat := 256
  view : Option (Nat × Nat) := none
  utlb : List TlbEntry := []
  work : Option WorkRef := none
  inst : Nat := 0
  grants : Grants := {}
  pre : PreState := .free
  req : Option Req := none
  /-- The deferred DATA_UEs to take, oldest first: TRAP_PC, TRAP_BLK, address (10 R234). -/
  due : List (Word × Word × Word) := []
  debug : Bool := false
  debugReq : Bool := false
  sleep : Option Sleep := none
  wakes : BitVec 6 := 0
  cyc : Nat := 0
  wd : Nat := 0
  rejoin : Option Word := none
  parked : Bool := false
  heldFor : Option WorkRef := none
  ended : Option Ended := none
  engFail : Option Byte := none
  /-- Lines written by operations and not yet acquired: timeline, number, line (04 R127). -/
  engWrote : List (Nat × Nat × Nat) := []
  waitPage : Option Nat := none
  defer : List Bool := []
  issue : Nat := 0
  /-- The word issued last carries SC.YLD (02 R42). -/
  yld : Bool := false
  /-- The long word at this address has been taken by the long unit, and the other members of the convoy still offer
  theirs (18 R353). -/
  paid : Option Word := none
  /-- The word that waited at the core's last boundary (10 R238, R246). -/
  stood : Option Word := none
  deriving DecidableEq, Repr

/-! ## Tiles, clusters, dies -/

/-- A line of a tile's L1 (14 R310): its bytes as filled, and its dirty bytes. -/
structure L1Line where
  bytes : List Byte
  dirty : BitVec 128 := 0
  home : Nat := 0
  stb : Bool := false
  /-- One store has written all its bytes, in part through home: its next write-back leaves no poison there (10 R250). -/
  clean : Bool := false
  deriving DecidableEq, Repr

/-- Calibration of one operating point (22 R391, R392), in steps of 5 mV below nominal. -/
structure Calib where
  good : Nat := 0
  offset : Nat := 0
  suspended : Bool := false
  deriving DecidableEq, Repr

/-- One tile. -/
structure Tile where
  lm : Mem := []
  /-- LM_SPLIT in force (14 R302). -/
  split : Nat := 0
  l1 : SMap L1Line := []
  /-- Lines of L1 in order of replacement: the last of a set goes first (14 R310). -/
  l1Order : List Nat := []
  poison : List Nat := []
  l1Poison : List Nat := []
  cap : BitVec 16 := 0
  fill : BitVec 8 := 0
  bal : BitVec 16 := 0
  /-- The offer of a long word that the bucket has refused: its core and its address (18 R353). -/
  offer : Option (CoreId × Word) := none
  thr : Byte := 0
  alarms : BitVec 16 := 0
  maxd : Byte := 0
  droopEn : Bool := false
  stretch : Nat := 0
  halve : Nat := 0
  point : Nat := 7
  granted : Nat := 7
  calib : SMap Calib := []
  dwell : Bool := false
  guardband : Nat := 0
  telMaxd : Byte := 0
  telAlarms : Nat := 0
  telEcc : Nat := 0
  deriving DecidableEq, Repr

/-- An operation outstanding on a core, by name: as a job-queue entry (06 R158, 16 R330), or as a part of a matrix
operation. -/
structure JobRef where
  core : CoreId
  inst : Nat
  tl : Timeline
  n : Nat
  deriving DecidableEq, Repr

/-- An accumulator tile (16 R340): elements at 128 row + col, unlisted +0. -/
structure AccTile where
  e : SMap (BitVec 48) := []
  ovf : BitVec 16 := 0
  steps : Nat := 0
  /-- The operation that arrived latest on the tile, 0 when none has since MACZ (06 R169). -/
  last : Nat := 0
  deriving DecidableEq, Repr

/-- A matrix operation or W-stack or accumulator operation in the engine order of a cluster (16 R329). -/
structure MxOp where
  id : Nat
  /-- The timeline operations it completes: one, or the eight of a gang (06 R164). -/
  parts : List JobRef
  kind : OpKind
  started : Bool := false
  steps : Nat := 0
  base : Option AccTile := none
  /-- The partial tile of the last cluster of a chain, kept apart until it is added (16 R343). -/
  partialTile : SMap (BitVec 48) := []
  /-- Metadata bits of each taking-part slice, copied at issue (06 R160). -/
  metas : SMap (List Byte) := []
  /-- Handle of each taking-part slice with its first claimed position. -/
  claims : SMap (JobRef × Nat) := []
  fail : Option (Byte × Nat × Word) := none
  finished : Bool := false
  deriving DecidableEq, Repr

/-- The backing record of a 4 KiB W range (10 R250). -/
structure Backing where
  src : Word := 0
  mask : BitVec 128 := 0
  /-- The tile for which MBLD read the source, and whether the source lies in its scratchpad. -/
  tile : Nat := 0
  lm : Bool := false
  deriving DecidableEq, Repr

/-- An MGANG issued and not joined (06 R164): its number, its copies at issue, its first claimed slot. -/
structure GangIssue where
  inst : Nat
  n : Nat
  desc : List Byte
  metaBits : List Byte
  claim : Nat
  deriving DecidableEq, Repr

/-- A completed phase of VPMRG that the merge unit has still to serve: its barrier, and its participants as cores and
instances (18 R359). -/
structure MergeJob where
  b : Nat
  seats : List (CoreId × Nat)
  deriving DecidableEq, Repr

/-- One cluster. -/
structure Cluster where
  acc : SMap AccTile := []
  perm : SMap (BitVec 9) := []
  jobs : List JobRef := []
  offers : List JobRef := []
  /-- The offers of cores that yield: they are taken after all others (16 R330). -/
  late : List JobRef := []
  rr : Nat := 7
  /-- MGANGs issued and not joined, per core-in-cluster, in issue order. -/
  gangs : SMap (List GangIssue) := []
  order : List MxOp := []
  /-- MJOBs that wait in the job queue. -/
  pending : List MxOp := []
  ptr : Nat := 0
  reserved : Option (Nat × Word × Nat) := none
  persist : Option (Nat × Word) := none
  reqCap : Nat := 256
  /-- Phases that wait for the merge unit, in order of completion (18 R359). -/
  merges : List MergeJob := []
  /-- The second-level TLB (14 R308). -/
  tlb : List TlbEntry := []
  deriving DecidableEq, Repr

/-- An entry of a die's priority queue (09 R225). -/
structure PqEntry where
  ctx : Nat
  key : BitVec 32
  entry : Word
  arg : Word
  skip : Nat := 0
  push : Nat
  deriving DecidableEq, Repr

/-- A synchronisation object (04 R112): ranges by slot, release count. -/
structure SObj where
  count : Word := 0
  ranges : SMap (Word × Word) := []
  deriving DecidableEq, Repr

/-- One die. -/
structure Die where
  pq : List PqEntry := []
  pushes : Nat := 0
  /-- Lines held by the synchronisation engine, least recently used first (20 R377). -/
  held : List Nat := []
  /-- The walk cache of the die's walkers (14 R308). -/
  walks : List WalkEntry := []
  deriving DecidableEq, Repr

/-- A run of the spill log: the entries of one line that are not yet consumed, and the place in the ring's 16-byte units at
which its header stands (20 R372). -/
structure SpillRun where
  start : Nat
  pairs : List Pair
  deriving DecidableEq, Repr

/-- An update sorter (20 R369 to R372): the open batch, bins with their line, least recently filled first, the spill
log, and the 16-byte units written to its ring so far. -/
structure Sorter where
  batch : List Pair := []
  bins : List (Nat × List Pair) := []
  spill : List SpillRun := []
  written : Nat := 0
  /-- Pairs that an error has made unreadable (20 R375). -/
  dead : List Pair := []
  deriving DecidableEq, Repr

/-- An update region (06 R181, R183). -/
structure Region where
  ctx : Nat
  base : Nat
  len : Nat
  op : UpdOp
  handles : List (CoreId × HReg) := []
  poisoned : Bool := false
  /-- The application that HUNB has started takes the pairs numbered below (06 R181). -/
  flush : Nat := 0
  /-- Launches whose work has registered it. -/
  launches : List Word := []
  /-- Pairs of the region that have left each core (20 R368). -/
  seqs : SMap Nat := []
  /-- The translations of its pages, pinned since it was registered (06 R181). -/
  pins : List TlbEntry := []
  deriving DecidableEq, Repr

/-! ## Memory system -/

/-- A line's tag on the capacity tier (13 R296). -/
structure TierTag where
  check : BitVec 32 := 0
  enc : BitVec 3 := 0
  alloc : BitVec 3 := 0
  ovf : Bool := false
  poison : Bool := false
  optr : Nat := 0
  deriving DecidableEq, Repr

/-- An L2 tag (14 R312), under its line number; ER is computed from the operations under way. -/
structure L2Tag where
  drt : Bool := false
  unh : Bool := false
  view : Nat := 0
  dom : Nat := 0
  dd : Bool := false
  age : Nat := 0
  dptr : Nat := 0
  deriving DecidableEq, Repr

/-- An L2 data entry (14 R312). -/
structure L2Data where
  bytes : List Byte
  hash : BitVec 32 := 0
  ref : Nat := 0
  own : Nat := 0
  pin : Bool := false
  psn : Bool := false
  nsh : Bool := false
  deriving DecidableEq, Repr

/-- One L2 slice: tags by line, data entries by index. -/
structure Slice where
  tags : SMap L2Tag := []
  data : SMap L2Data := []
  collision : Nat := 0
  /-- The clock over the data entries: where the next search for an entry to free starts (14 R313). -/
  hand : Nat := 0
  deriving DecidableEq, Repr

/-- What sends a write to a home slice: a store or another partial write, an L1 write-back, an engine or the ring port (14
R313). -/
inductive Via where
  | store | l1 | engine
  deriving DecidableEq, Repr

/-- A write that waits at home (13 R298, 14 R319, R320): whose it is, the bytes by PA, and what sends them. -/
structure HomeWrite where
  core : Option CoreId
  home : Nat
  cells : Mem
  via : Via := .store
  /-- The host has been told that no overflow slot is free for it (14 R320). -/
  told : Bool := false
  /-- The engine operation whose write it is (12 R277). -/
  job : Option JobRef := none
  /-- Its number among the host's writes through BAR2, from 1; 0 for any other (23 R402). -/
  host : Nat := 0
  /-- What it does to its line's poison once it is performed: sets it, or ends it (10 R250, 13 R298). -/
  mark : Option Bool := none
  deriving DecidableEq, Repr

/-- The latest translation that named a 4 KiB frame: its context, which is its lines' dedup domain, the generic address
of the frame, and the leaf, which gives DDIS and the home of each line (14 R306, R311, R312). -/
structure FrameUse where
  ctx : Nat
  va : Nat
  leaf : Word
  deriving DecidableEq, Repr

/-- A view write not yet settled (12 R279). -/
structure ViewWrite where
  core : Option CoreId
  region : Nat
  view : Nat
  cells : Mem
  deriving DecidableEq, Repr

/-- A page migration under way (14 R319). -/
structure Migration where
  ctx : Nat
  va : Nat
  size : Nat
  src : Nat
  dst : Nat
  alloc : Nat
  /-- Where the record says that a replica of F1 lies (13 R297). -/
  replica : Option Nat := none
  /-- The host has been told that no overflow slot is free for it (14 R320). -/
  told : Bool := false
  deriving DecidableEq, Repr

/-! ## Contexts, launches, records -/

/-- A resident context (23 R404, R405, R407). -/
structure Ctx where
  gen : Word
  root : Nat
  vec : Word
  wdLimit : Nat
  split : Nat
  save : Nat
  faultLog : Nat
  objTable : Nat
  wparts : BitVec 512
  subsets : SMap (BitVec 128)
  faults : Nat := 0
  /-- Held since a reattach or a checkpoint, until a RESUME names it (R411, R414). -/
  held : Bool := false
  /-- Held since a reattach: its LAUNCH and PREEMPT records wait as well (R411). -/
  recsHeld : Bool := false
  /-- Killed, with work that has still to leave its cores (R216). -/
  dying : Bool := false
  deriving DecidableEq, Repr

/-- Fields of a launch card (09 R210), each with its byte offset in the card; names are numbers. -/
inductive CardKey where
  | stack (n : Nat) | ovf (n : Nat) | scratch (n : Nat) | handles (n : Nat) | barriers (n : Nat) | lregs (n : Nat)
  | tensor (name base bytes tile : Nat) (cols : Option Nat)
  | near (n : Nat)
  | persist (entry : Word)
  | pclusters (first count : Nat)
  | arg (v : Word)
  | node (name : Nat)
  | entry (e : Word)
  | cls (gang : Bool)
  | idem (yes : Bool)
  | nodeArg (v : Word)
  | out (tensor row col : Nat)
  | wout (slice off bytes : Nat)
  | inTile (tensor : Nat) (tile : Option (Nat × Nat))
  | after (names : List Nat)
  | prio (n : Nat)
  | unknown
  deriving DecidableEq, Repr

structure CardField where
  off : Nat
  key : CardKey
  deriving DecidableEq, Repr

inductive NodeSt where
  | waiting | ready | running | ending | done | failed | cancelled
  deriving DecidableEq, Repr

/-- A node of an admitted graph (09 R216). -/
structure Node where
  entry : Word
  gang : Bool
  idem : Bool
  arg : Word
  outs : List (Nat × Nat)
  wouts : List (Nat × Nat)
  after : List Nat
  prio : Nat
  st : NodeSt
  status : Byte := 0
  code : Word := 0
  replays : Nat := 0
  wd : Nat := 0
  order : Nat := 0
  /-- Since when it has headed the pool for its home cluster (09 R222). -/
  head : Option Nat := none
  /-- Instances of aborted runs whose operations are still outstanding, and the page awaited (R240). -/
  held : Option Nat := none
  page : Option Nat := none
  core : Option CoreId := none
  saved : Bool := false
  deriving DecidableEq, Repr

/-- A launch (09 R210, R224). -/
structure Launch where
  ctx : Nat
  id : Word
  grants : Grants
  near : Nat
  scratch : Nat
  nodes : List Node
  persist : Option (Word × Nat × Nat × Word) := none
  started : Bool := false
  /-- Persistent cores that have ended. -/
  ended : List CoreId := []
  reported : Bool := false
  /-- Memory at its first word: device memory and L2, for instruction fetch (02 R61). -/
  img : Mem := []
  imgL2 : SMap Slice := []
  imgTier : SMap (List Byte) := []
  imgTags : SMap TierTag := []
  imgHost : Mem := []
  imgViews : List ViewWrite := []
  /-- How many entries of `State.past` are older. -/
  pastFrom : Nat := 0
  deriving DecidableEq, Repr

/-- A page request sent and not answered (10 R241). -/
structure PageReq where
  ctx : Nat
  gen : Word
  page : Nat
  acc : Nat
  agent : Nat
  core : Nat
  malformed : Bool
  seq : Nat
  deriving DecidableEq, Repr

/-- A saved piece of work (10 R243 to R246): the core whose record it is, and what the record cannot hold. -/
structure SavedRec where
  ctx : Nat
  core : CoreId
  work : WorkRef
  inst : Nat
  /-- The core as it was saved. -/
  snap : Core
  /-- PA and length of its scratchpad image, and the local-memory offset of its first byte. -/
  image : Nat
  imageLen : Nat
  imageLo : Nat := 0
  /-- Its cluster's record, when one is saved with it: what that record's stated parts do not hold. -/
  clus : Option Cluster
  arrivals : SMap Bar
  gangs : List GangIssue
  engWrote : List (Nat × Nat × Nat)
  /-- Paths of the ring packets acknowledged since the save. -/
  latePaths : List Nat := []
  /-- Puts and flags failed since the save. -/
  ringFails : Nat := 0
  /-- Operations completed since the save: timeline, number, status (10 R244). -/
  late : List (Nat × Nat × Byte) := []
  /-- Convoy, persistent program or gang saved together: the lowest core of the group. -/
  group : CoreId := 0
  resumed : Bool := false
  deriving DecidableEq, Repr

/-- A device record as written (23 R400, R409). -/
structure DevRec where
  seq : Nat
  bytes : List Byte
  deriving DecidableEq, Repr

/-- One direction and one end of a channel (23 R408). -/
structure Chan where
  core : CoreId
  ctx : Nat
  rctx : Nat
  rcore : Nat
  valid : Bool
  sends : Bool
  deriving DecidableEq, Repr

structure Link where
  up : Bool := false
  lanes : Nat := 0
  training : Bool := false
  deriving DecidableEq, Repr

/-- A held ordered flag, or a packet held for a page (11 R256, 07 R200). `seq`: the put packets that its ring context has
sent before it on its path; `page`: the page that it waits for. -/
structure RingPkt where
  pkg : Nat
  rctx : Nat
  path : Nat
  seq : Nat := 0
  dst : Word
  data : List Byte
  counts : Option (List Nat) := none
  page : Option Nat := none
  /-- Its place in the order in which packets were held for a page, from 1 (07 R200). -/
  held : Nat := 0
  deriving DecidableEq, Repr

/-- The ring port (23 R412, R413, 11 R256). -/
structure Ring where
  n : Nat := 0
  pkgId : Nat := 0
  peers : SMap Nat := []
  chans : SMap Chan := []
  links : SMap Link := []
  /-- Put packets performed from each path of a source ring context: how many of the first, and which beyond (11 R256). -/
  performed : SMap (Nat × List Nat) := []
  /-- Put packets sent by a ring context to a package on a path. -/
  sent : SMap Nat := []
  /-- Flags sent by a ring context to a package, and flags of a source ring context that have taken a place here. -/
  flagsSent : SMap Nat := []
  flagsTaken : SMap Nat := []
  flags : List RingPkt := []
  waiting : List RingPkt := []
  /-- Packets held for a page so far. -/
  holds : Nat := 0
  /-- The lane map of the booted image (23 R416). -/
  laneMap : List Nat := []
  deriving DecidableEq, Repr

/-- BAR0 registers that hold a value (23 R398). -/
structure Bar0 where
  tails : SMap Word := []
  eventHead : Word := 0
  lastHost : Nat := 0
  attach : BitVec 32 := 0
  stale : Nat := 0
  dups : Nat := 0
  winBase : Word := 0
  bootStatus : Word := 0
  /-- Writes through BAR2 so far. -/
  writes : Nat := 0
  /-- Tail writes behind writes that may still wait at home: the stream, its tail before, and the number of the last such
  write (23 R402). -/
  tailQ : List (Nat × Nat × Nat) := []
  deriving DecidableEq, Repr

/-- DEV_CONFIG's allocations (23 R406). -/
structure DevCfg where
  placed : Bool := false
  streams : SMap (Nat × Nat) := []
  evBase : Nat := 0
  evLog : Nat := 0
  backlogBase : Nat := 0
  keptBase : Nat := 0
  telBase : Nat := 0
  telSize : Nat := 0
  spill : SMap (Nat × Nat) := []
  syncOvf : SMap (Nat × Nat) := []
  viewTable : Nat := 0
  alloc : SMap Nat := []
  pools : SMap (Nat × Nat) := []
  deriving DecidableEq, Repr

/-- The device's own state in the header of a checkpoint stream (23 R415). -/
structure Snapshot where
  ctxs : SMap Ctx
  launches : List Launch
  saved : List SavedRec
  ops : List EngOp
  regions : SMap Region
  objs : SMap SObj
  /-- Merges that a cluster's merge unit has still to return (18 R359). -/
  merges : SMap (List MergeJob)
  lastHost : Nat
  lastDev : Nat
  nextInst : Nat
  deriving DecidableEq, Repr

/-- A checkpoint or restore stream under way. -/
structure CkptRun where
  restore : Bool
  /-- Address and length of each extent. -/
  extents : List (Nat × Nat)
  digest : BitVec 256
  deriving DecidableEq, Repr

/-- The probe of a drain domain: passes of its run under way, and the receipts made before its last pass (09 R229). -/
structure Probe where
  passes : Nat := 0
  seen : Nat := 0
  deriving DecidableEq, Repr

/-- A choice of the environment: which agent acts next, and the finer steps that no row of the opcode table names. -/
inductive Move where
  /-- Core `c` takes its next boundary. -/
  | core (c : CoreId)
  /-- An event of the opcode table. -/
  | ev (i : Instr)
  /-- The device consumes the next record of stream `n`, if it is the next of the series (23 R402). -/
  | consume (n : Nat)
  /-- A line leaves a tile's L1 by replacement (12 R263). -/
  | l1Evict (tile line : Nat)
  /-- The ring port sends the next packet of a put or flag on a path, what it has not yet read of its source read now (07
  R200). -/
  | ringSend (c : CoreId) (n path : Nat)
  /-- The ring port reads a 32-byte beat of a put's source ahead of its packet (11 R258). -/
  | ringRead (c : CoreId) (n beat : Nat)
  /-- An engine moves one more unit of an operation: of a copy the 32-byte piece `pick`, counted from the first that is
  left (06 R155, 12 R277). -/
  | engineBeat (c : CoreId) (tl : Timeline) (n pick : Nat)
  /-- A core takes the predecessor steps of its oldest FENCE (04 R110). -/
  | fence (c : CoreId)
  /-- A core's micro-TLB drops its entry for an address (14 R308). -/
  | tlbDrop (c : CoreId) (va : Nat)
  /-- A cluster's second-level TLB drops its entries for an address (14 R308). -/
  | tlb2Drop (cl va : Nat)
  /-- A die's walk cache drops the entry at a physical address (14 R308). -/
  | walkDrop (d pa : Nat)
  /-- The plan of core `c`: which coming loads and atomics are left outstanding at issue. -/
  | plan (c : CoreId) (l : List Bool)
  /-- Core `c` reads beat `k` of those that its outstanding load `n` has still to read (04 R100). -/
  | loadBeat (c : CoreId) (n k : Nat)
  /-- Core `c` reads the beat at a generic address ahead of a load that it has not issued (12 R268). -/
  | early (c : CoreId) (va : Nat)
  /-- The driver places a launch card in memory, as the fields ZOF lists (09 R210). -/
  | card (pa : Nat) (fields : List CardField)
  /-- The host marks a region of the CXL device as persistent (23 R399, log 76). -/
  | persist (base len : Nat)
  deriving DecidableEq, Repr

/-- One ZT4 package. The last group of fields is the model's own. -/
structure State where
  cores : SMap Core := []
  tiles : SMap Tile := []
  clusters : SMap Cluster := []
  dies : SMap Die := []
  wstack : Mem := []
  backing : SMap Backing := []
  /-- Poisoned 32-byte beats of the W-stack (10 R250). -/
  wpoison : List Nat := []
  /-- Lines that patrol scrubbing has reported (22 R394, log 73). -/
  scrubbed : List Site := []
  objs : SMap SObj := []
  sorters : SMap Sorter := []
  mem : Mem := []
  host : Mem := []
  /-- What the capacity tier stores of each line: its payload, in place or in its overflow slot; unlisted, none (13
  R295). -/
  tier : SMap (List Byte) := []
  tierTags : SMap TierTag := []
  pools : SMap (List Nat) := []
  slices : SMap Slice := []
  homeQ : List HomeWrite := []
  /-- The latest use of each frame of physical memory, by frame number with its view (14 R312). -/
  frames : SMap FrameUse := []
  viewPend : List ViewWrite := []
  /-- View lines that stand in L2 slices, in the order in which the cross-view directories took them (14 R318). -/
  viewDir : List Nat := []
  /-- What lines held before writes reached them at home, oldest first, while a launch is live (02 R61). -/
  past : List (Nat × List Byte) := []
  poison : List Nat := []
  regions : SMap Region := []
  flight : List Pair := []
  /-- Pairs that have left the cores of the package. -/
  pairsOut : Nat := 0
  ops : List EngOp := []
  orphans : List Orphan := []
  ctxs : SMap Ctx := []
  launches : List Launch := []
  pageReqs : List PageReq := []
  migrations : List Migration := []
  saved : List SavedRec := []
  /-- Probes of drain domains, by domain (09 R229). -/
  probes : SMap Probe := []
  /-- The latest receipt of something that core `c` sent, at an interface that lies on probe paths from level `l` upward:
  under 8 c + l (09 R228, R229). -/
  received : SMap Nat := []
  receipts : Nat := 0
  ring : Ring := {}
  bar0 : Bar0 := {}
  cfg : DevCfg := {}
  streamPos : SMap Nat := []
  lastDev : Nat := 0
  evTail : Nat := 0
  backlog : List DevRec := []
  kept : List DevRec := []
  /-- Since when a record waits for a missing one, and whether SEQ_GAP has been written (R402). -/
  gap : Option (Nat × Bool) := none
  /-- Records written to the event ring since MSI-X vector 0 was last raised, since when, and how often it was raised (23
  R400). -/
  msix : Nat := 0
  msixSince : Nat := 0
  msixRaised : Nat := 0
  limit : Nat := 1400
  measured : Nat := 0
  capHigh : Bool := false
  ckpt : Option CkptRun := none
  heldRecs : List Instr := []
  /-- Headers of the checkpoint streams written so far, by digest. -/
  safe : SMap Snapshot := []
  attachPending : Option (BitVec 32) := none
  telNext : Nat := 0
  bootSlot : Nat := 0
  /-- Guardbands written to flash since manufacture, by tile (R393). -/
  flash : SMap Nat := []
  /-- What the host has written through BAR0's flash window, by offset in it (23 R416). -/
  flashWords : SMap Word := []
  /-- The operating-point table: nominal set points in mV, by point (22 R387, 23 R416). -/
  points : List Nat := []
  /-- Persistent regions of the CXL device, which the capacity tier does not hold, and their bytes (23 R399, log 76). -/
  persist : List (Nat × Nat) := []
  safeCxl : Mem := []
  /-- The last consumed RING_CFG and DEV_CONFIG with their blocks (R417). -/
  ringRec : List Byte := []
  devRec : List Byte := []
  now : Nat := 0
  -- the model's own
  cur : CoreId := 0
  agenda : List Move := []
  tick : Nat := 0
  cards : SMap (List CardField) := []
  nextInst : Nat := 1
  nextOp : Nat := 1
  orders : Nat := 0
  deriving DecidableEq, Repr

/-- The package right after reset (log 2 to 6, 21): no boot has run, no context is resident, no core holds work. -/
def State.reset : State := {}

end Sys2Proof.Machine
end

