-- ==== Sys2Proof/Machine/Bits.lean ====
section
/-! DEFINITION. Sparse maps, bytes, bit fields and memory as a canonical list of cells (R10, R13). -/
namespace Sys2Proof.Machine
open Sys2Proof

/-! ## Sparse maps -/

/-- The first entry of a key. -/
def SMap.find {α : Type} (m : SMap α) (k : Nat) : Option α :=
  match m with
  | [] => none
  | (j, a) :: r => if j = k then some a else SMap.find r k

/-- The entry of a key, or the value that an unlisted one has. -/
def SMap.get {α : Type} (m : SMap α) (k : Nat) (dflt : α) : α := (SMap.find m k).getD dflt

/-- Writes the entry of a key; a map in rising order stays in rising order. -/
def SMap.set {α : Type} (m : SMap α) (k : Nat) (a : α) : SMap α :=
  match m with
  | [] => [(k, a)]
  | (j, b) :: r =>
    if j = k then (k, a) :: r
    else if k < j then (k, a) :: (j, b) :: r
    else (j, b) :: SMap.set r k a

/-- Removes the entries of a key. -/
def SMap.erase {α : Type} (m : SMap α) (k : Nat) : SMap α :=
  match m with
  | [] => []
  | (j, b) :: r => if j = k then SMap.erase r k else (j, b) :: SMap.erase r k

def SMap.mapVals {α : Type} (m : SMap α) (f : Nat → α → α) : SMap α :=
  match m with
  | [] => []
  | (j, b) :: r => (j, f j b) :: SMap.mapVals r f

/-! ## Bytes (R13) -/

/-- The low `n` bytes of a number, least significant first. -/
def leBytes : Nat → Nat → List Byte
  | 0, _ => []
  | n + 1, x => BitVec.ofNat 8 (x % 256) :: leBytes n (x / 256)

/-- The number that a list of bytes holds, least significant first. -/
def ofLe : List Byte → Nat
  | [] => 0
  | b :: bs => b.toNat + 256 * ofLe bs

/-- The little-endian number in bytes [i, i + n) of a list; bytes past its end read zero. -/
def leAt (bs : List Byte) (i n : Nat) : Nat := ofLe ((bs.drop i).take n)

/-- Replaces the bytes from position `i` of a list by others, within its length. -/
def putAt (bs : List Byte) (i : Nat) (xs : List Byte) : List Byte :=
  (bs.take i ++ xs ++ bs.drop (i + xs.length)).take bs.length

/-- A list of exactly `n` bytes: cut, or padded with zero bytes. -/
def padTo (n : Nat) (bs : List Byte) : List Byte := bs.take n ++ List.replicate (n - bs.length) 0

/-- Sign extension of the low `w` bits of a number to a 64-bit word. -/
def sext64 (w : Nat) (x : Nat) : Word := BitVec.ofInt 64 ((BitVec.ofNat w x).toInt)

/-- Bits [lo + n - 1 : lo] of a number. -/
def bitsOf (x lo n : Nat) : Nat := x / 2 ^ lo % 2 ^ n

def alignDown (a n : Nat) : Nat := a / n * n

/-- The numbers lo, lo + 1, …, lo + n - 1. -/
def rangeFrom (lo n : Nat) : List Nat := (List.range n).map (lo + ·)

def updateAt {α : Type} (l : List α) (i : Nat) (f : α → α) : List α :=
  match l, i with
  | [], _ => []
  | a :: r, 0 => f a :: r
  | a :: r, i + 1 => a :: updateAt r i f

/-- Removes the first element that satisfies `p`, and gives it. -/
def takeFirst {α : Type} (p : α → Bool) : List α → Option (α × List α)
  | [] => none
  | a :: r => if p a then some (a, r) else (takeFirst p r).map fun (x, r') => (x, a :: r')

/-- Adds an element to a list without repeats. -/
def addNew {α : Type} [BEq α] (l : List α) (x : α) : List α := if l.contains x then l else x :: l

/-! ## Memory -/

/-- The byte at an address; an unlisted byte is zero (log 4). -/
def Mem.get (m : Mem) (a : Nat) : Byte :=
  match m with
  | [] => 0
  | (j, b) :: r => if j = a then b else Mem.get r a

/-- Removes the cells of an address. -/
def Mem.clear (m : Mem) (a : Nat) : Mem :=
  match m with
  | [] => []
  | (j, b) :: r => if j = a then Mem.clear r a else (j, b) :: Mem.clear r a

/-- Lists a byte at an address, in rising order. -/
def Mem.list (m : Mem) (a : Nat) (b : Byte) : Mem :=
  match m with
  | [] => [(a, b)]
  | (j, x) :: r =>
    if j = a then (a, b) :: r
    else if a < j then (a, b) :: (j, x) :: r
    else (j, x) :: Mem.list r a b

/-- Writes a byte; writing what an unlisted address reads as removes the entry. -/
def Mem.put (m : Mem) (a : Nat) (b : Byte) : Mem := if b = 0 then m.clear a else m.list a b

/-- `n` bytes from an address. -/
def Mem.read (m : Mem) (a n : Nat) : List Byte := (List.range n).map fun i => m.get (a + i)

/-- Writes bytes from an address upward. -/
def Mem.write (m : Mem) (a : Nat) : List Byte → Mem
  | [] => m
  | b :: bs => Mem.write (m.put a b) (a + 1) bs

/-- Writes listed cells, first first. -/
def Mem.writeCells (m : Mem) : List Host.Cell → Mem
  | [] => m
  | (a, b) :: cs => Mem.writeCells (m.put a b) cs

/-- Addresses strictly rising above a bound, no entry zero. -/
def Mem.wfFrom (lo : Nat) : Mem → Bool
  | [] => true
  | (a, b) :: r => decide (lo ≤ a) && b != 0 && Mem.wfFrom (a + 1) r

/-- The canonical form of a memory: addresses strictly rising, no entry equal to what an unlisted address reads. -/
def Memory.wf (m : Mem) : Bool := Mem.wfFrom 0 m

end Sys2Proof.Machine
end

