-- ==== Sys2Proof/Machine/Operands.lean ====
section
/-! DEFINITION. The units of the package by number (R3), the registers of a core, and the value of every operand form
(R44, R47, R71, R92, R130). -/
namespace Sys2Proof.Machine
open Sys2Proof

/-! ## Units by number (R3) -/

def State.core (s : State) (c : CoreId) : Core := s.cores.get c {}
def State.setCore (s : State) (c : CoreId) (q : Core) : State := { s with cores := s.cores.set c q }
def State.modCore (s : State) (c : CoreId) (f : Core → Core) : State := s.setCore c (f (s.core c))

def tileOf (c : CoreId) : Nat := c / 4
def clusterOf (c : CoreId) : Nat := c / 8
def dieOf (c : CoreId) : Nat := c / 128
/-- Core-in-tile i. -/
def inTile (c : CoreId) : Nat := c % 4
/-- Core-in-cluster j, the number of its slice. -/
def inCluster (c : CoreId) : Nat := c % 8
/-- The convoy leader of a core's cluster. -/
def leaderOf (c : CoreId) : CoreId := c / 8 * 8
/-- The eight cores of a cluster, ascending. -/
def clusterCores (cl : Nat) : List CoreId := rangeFrom (8 * cl) 8

def State.tile (s : State) (t : Nat) : Tile := s.tiles.get t {}
def State.setTile (s : State) (t : Nat) (x : Tile) : State := { s with tiles := s.tiles.set t x }
def State.modTile (s : State) (t : Nat) (f : Tile → Tile) : State := s.setTile t (f (s.tile t))
def State.cluster (s : State) (n : Nat) : Cluster := s.clusters.get n {}
def State.setCluster (s : State) (n : Nat) (x : Cluster) : State := { s with clusters := s.clusters.set n x }
def State.modCluster (s : State) (n : Nat) (f : Cluster → Cluster) : State := s.setCluster n (f (s.cluster n))
def State.die (s : State) (d : Nat) : Die := s.dies.get d {}
def State.modDie (s : State) (d : Nat) (f : Die → Die) : State := { s with dies := s.dies.set d (f (s.die d)) }

/-! ## Registers (R44, R49) -/

/-- s0 reads zero. -/
def Core.rs (q : Core) (r : SReg) : Word := if r = 0 then 0 else q.s.get r.toNat 0
/-- A write to s0 is discarded. -/
def Core.ws (q : Core) (r : SReg) (x : Word) : Core := if r = 0 then q else { q with s := q.s.set r.toNat x }
/-- p0 reads 1. -/
def Core.rp (q : Core) (r : PReg) : Bool := r == 0 || q.p.getLsbD r.toNat
/-- A predicate takes one bit; a write to p0 is discarded. -/
def Core.wp (q : Core) (r : PReg) (x : Bool) : Core :=
  if r = 0 then q
  else { q with p := (q.p &&& ~~~(1#8 <<< r.toNat)) ||| (if x then 1#8 <<< r.toNat else 0) }
def Core.rk (q : Core) (r : KReg) : Vec := q.k.get r.toNat 0
def Core.wk (q : Core) (r : KReg) (x : Vec) : Core := { q with k := q.k.set r.toNat x }

/-- Long mode (STATUS.LONG): a share is held (R134). -/
def Core.long (q : Core) : Bool := q.share != 0
/-- Bits of a vector register in the mode in force (R129). -/
def Core.vbits (q : Core) : Nat := if q.long then 2048 else 256
/-- The vector register a specifier names in the mode in force, as a number (R44). -/
def Core.rv (q : Core) (r : VReg) : Nat :=
  if q.long then (q.l.get r.toNat 0).toNat else (q.v.get r.toNat 0).toNat
def Core.wv (q : Core) (r : VReg) (x : Nat) : Core :=
  if q.long then { q with l := q.l.set r.toNat (BitVec.ofNat 2048 x) }
  else { q with v := q.v.set r.toNat (BitVec.ofNat 256 x) }

def Core.handle (q : Core) (h : HReg) : Handle := q.h.get h.toNat {}
def Core.setHandle (q : Core) (h : HReg) (x : Handle) : Core := { q with h := q.h.set h.toNat x }
def Core.tl (q : Core) (t : Timeline) : Tline := q.tls.get t.code {}
def Core.setTl (q : Core) (t : Timeline) (x : Tline) : Core := { q with tls := q.tls.set t.code x }
def Core.bar (q : Core) (b : Nat) : Bar := q.bars.get b {}
def Core.setBar (q : Core) (b : Nat) (x : Bar) : Core := { q with bars := q.bars.set b x }
/-- A descriptor register of 64 bytes (R159). -/
def Core.desc (q : Core) (d : BitVec 2) : List Byte := q.dr.get d.toNat (List.replicate 64 0)
def Core.idem (q : Core) : Bool := q.work.any (·.idem)

end Sys2Proof.Machine

namespace Sys2Proof
open Machine

/-! ## Operand values -/

/-- An immediate as a source: sign-extended to the operand width (R47). -/
def Imm.word (i : Imm) : Word := BitVec.ofInt 64 (Imm.value i)

/-- R71. -/
def Src.val (q : Core) : Src → Word
  | .s r => q.rs r
  | .p r => if q.rp r then 1 else 0
  | .imm i => Imm.word i
def SImm.val (q : Core) : SImm → Word
  | .s r => q.rs r
  | .imm i => Imm.word i
/-- R92. -/
def SPred.val (q : Core) : SPred → Word
  | .s r => q.rs r
  | .p r => if q.rp r then 1 else 0
/-- Bit 0 of a predicate or immediate (R91). -/
def PImm.bit (q : Core) : PImm → Bool
  | .p r => q.rp r
  | .imm i => (Imm.word i).getLsbD 0

/-- A guard holds when its predicate XOR its negate bit is 1 (R40). -/
def Guard.holds (q : Core) (g : Guard) : Bool := xor (q.rp g.idx) g.neg
/-- Both guards of a word (R40). -/
def Ctl.guards (q : Core) (c : Ctl) : Bool := c.g1.holds q && c.g2.holds q

end Sys2Proof

namespace Sys2Proof.Machine
open Sys2Proof

/-! ## Elements of vectors and masks (R129 to R131) -/

/-- Element `e` of width `w` of a register held as a number. -/
def elem (w x e : Nat) : Nat := x / 2 ^ (w * e) % 2 ^ w
/-- A register of `n` elements of width `w`, element 0 lowest. -/
def ofElems (w : Nat) : List Nat → Nat
  | [] => 0
  | x :: xs => x % 2 ^ w + 2 ^ w * ofElems w xs
/-- Count(t) (R129). -/
def Core.count (q : Core) (w : Nat) : Nat := q.vbits / w
/-- Bit `i` of a mask in the mode in force: in short mode only bits [31:0] take part (R131). -/
def Core.maskBit (q : Core) (k : KReg) (i : Nat) : Bool := (q.long || decide (i < 32)) && (q.rk k).getLsbD i
/-- Enabled(e) (R131). -/
def Core.enabled (q : Core) (k : KOpt) (w e : Nat) : Bool :=
  match k with
  | none => true
  | some r => q.maskBit r (e * w / 8)
/-- A vector built element by element: enabled elements take their result, the others keep their value (R131). -/
def Core.merge (q : Core) (d : VReg) (k : KOpt) (w : Nat) (f : Nat → Nat) : Core :=
  let old := q.rv d
  q.wv d (ofElems w ((List.range (q.count w)).map fun e => if q.enabled k w e then f e else elem w old e))

end Sys2Proof.Machine

namespace Sys2Proof
open Machine

/-- Element e of source b: a vector's element, or the broadcast of a scalar or immediate, cut to the width (R130,
R135). -/
def VSrc.elemAt (q : Core) (w e : Nat) : VSrc → Nat
  | .v r => elem w (q.rv r) e
  | .s r => (q.rs r).toNat % 2 ^ w
  | .imm i => (Imm.word i).toNat % 2 ^ w
end Sys2Proof

namespace Sys2Proof.Machine
open Sys2Proof

/-! ## STATUS and the state an exception saves (R190) -/

/-- STATUS (R190). -/
def Core.status (q : Core) : Word :=
  (if q.priv then 1 else 0) ||| (if q.idem then 2 else 0) ||| (if q.convoy then 4 else 0)
    ||| (if q.long then 8 else 0) ||| (if q.uih then 16 else 0)

/-- The fall-through address of the open block (R51). -/
def Core.fallthrough (q : Core) : Word := q.blk + 8 * (BitVec.ofNat 64 (headerOf q.hdr).len + 1)

/-- Past a word of the open block: the next word, or the fall-through header after the last (R51). -/
def Core.advance (q : Core) : Core :=
  let pc := q.pc + 8
  if pc = q.fallthrough then { q with pc, pos := .header .fall, paid := none } else { q with pc, paid := none }

/-! ## Event counters (R192, R193, R395) -/

/-- Adds `n` occurrences of a source to a core's counters; of BADTRIT also to the count that needs none (R327). -/
def Core.countEvent (q : Core) (src n : Nat) : Core :=
  { q with ec := (List.range 8).foldl (fun ec i =>
      let sel := q.ecsel.get i 0
      if sel.getLsbD 16 && (sel.toNat % 65536 == src) then
        ec.set i (BitVec.ofNat 48 (min (2 ^ 48 - 1) ((ec.get i 0).toNat + n)))
      else ec) q.ec
           badtrits := if src = 0x0020 then q.badtrits + n else q.badtrits }

end Sys2Proof.Machine
end

