-- ==== Sys2Proof/Machine/Flags.lean ====
section
/-! DEFINITION. Comparisons and the predicates they form. The machine keeps no condition flags (R73): every flag
computation the manual gives is one of these conditions. -/
namespace Sys2Proof

/-- BRC (R75). -/
def CondZ.holds (c : CondZ) (a : Word) : Bool :=
  match c with
  | .eqz => a == 0
  | .nez => a != 0
  | .ltz => decide (a.toInt < 0)
  | .lez => decide (a.toInt ≤ 0)
  | .gtz => decide (0 < a.toInt)
  | .gez => decide (0 ≤ a.toInt)

/-- CMP (R90). -/
def Cond.holds (c : Cond) (a b : Word) : Bool :=
  match c with
  | .eq => a == b
  | .ne => a != b
  | .lt => decide (a.toInt < b.toInt)
  | .le => decide (a.toInt ≤ b.toInt)
  | .gt => decide (b.toInt < a.toInt)
  | .ge => decide (b.toInt ≤ a.toInt)
  | .ltn => decide (a.toNat < b.toNat)
  | .len => decide (a.toNat ≤ b.toNat)

/-- VCMP on two elements read as the type's integers (R136). -/
def VCond.holds (c : VCond) (a b : Int) : Bool :=
  match c with
  | .eq => a == b
  | .ne => a != b
  | .lt => decide (a < b)
  | .le => decide (a ≤ b)
  | .gt => decide (b < a)
  | .ge => decide (b ≤ a)

/-- The order of two floats: none when unordered (R95). -/
def FCond.holds (c : FCond) (o : Option Ordering) : Bool :=
  match c, o with
  | .eq, some .eq => true
  | .ne, some .eq => false
  | .ne, _ => true
  | .lt, some .lt => true
  | .le, some .lt | .le, some .eq => true
  | .gt, some .gt => true
  | .ge, some .gt | .ge, some .eq => true
  | .un, none => true
  | .eq, _ | .lt, _ | .le, _ | .gt, _ | .ge, _ | .un, _ => false

/-- A type's integer value of an element (R129, R13). -/
def VType.int (t : VType) (x : Nat) : Int :=
  if t.isSigned then (BitVec.ofNat t.width x).toInt else (x : Int)

/-- Smallest and largest value of a type (R135). -/
def VType.minInt (t : VType) : Int := if t.isSigned then -(2 ^ (t.width - 1)) else 0
def VType.maxInt (t : VType) : Int := if t.isSigned then 2 ^ (t.width - 1) - 1 else 2 ^ t.width - 1
/-- An integer as an element, modulo 2^w. -/
def VType.ofInt (t : VType) (x : Int) : Nat := (BitVec.ofInt t.width x).toNat
/-- Sat (R135). -/
def VType.sat (t : VType) (x : Int) : Nat :=
  t.ofInt (if x < t.minInt then t.minInt else if t.maxInt < x then t.maxInt else x)
/-- The 64-bit word of an element: sign-extended for I types, else zero-extended (R137). -/
def VType.extend (t : VType) (x : Nat) : Word :=
  if t.isSigned then Machine.sext64 t.width x else BitVec.ofNat 64 x

end Sys2Proof
end

