-- ==== Sys2Proof/Machine/Float.lean ====
section
/-! DEFINITION. Floating point (R34, R92 to R97) and ACX48 (R32, R33): values held exactly, one rounding at the end. -/
namespace Sys2Proof.Machine
open Sys2Proof

/-- A float's value: NaN, an infinity, or sign, magnitude m * 2^e. A zero magnitude keeps its sign. -/
inductive FVal where
  | nan
  | inf (neg : Bool)
  | fin (neg : Bool) (m : Nat) (e : Int)
  deriving DecidableEq, Repr

/-- A format of IEEE shape: exponent and fraction bits. -/
structure FFmt where
  eb : Nat
  mb : Nat
  deriving DecidableEq, Repr

def fp32 : FFmt := ⟨8, 23⟩
def bf16 : FFmt := ⟨8, 7⟩

def FFmt.bias (f : FFmt) : Nat := 2 ^ (f.eb - 1) - 1
def FFmt.signBit (f : FFmt) : Nat := 2 ^ (f.eb + f.mb)
/-- The bits of +infinity. -/
def FFmt.infBits (f : FFmt) : Nat := (2 ^ f.eb - 1) * 2 ^ f.mb
/-- The canonical quiet NaN (R34). -/
def FFmt.nanBits (f : FFmt) : Nat := f.infBits + 2 ^ (f.mb - 1)

/-- The value of a bit pattern; subnormals are kept. -/
def FFmt.decode (f : FFmt) (x : Nat) : FVal :=
  let neg := x / f.signBit % 2 == 1
  let ex := x / 2 ^ f.mb % 2 ^ f.eb
  let fr := x % 2 ^ f.mb
  if ex = 2 ^ f.eb - 1 then (if fr = 0 then .inf neg else .nan)
  else if ex = 0 then .fin neg fr (1 - (f.bias : Int) - f.mb)
  else .fin neg (2 ^ f.mb + fr) ((ex : Int) - f.bias - f.mb)

/-- m / 2^d rounded to nearest, ties to even. -/
def rneShift (m d : Nat) : Nat :=
  if d = 0 then m
  else
    let q := m / 2 ^ d
    let r := m % 2 ^ d
    if 2 ^ (d - 1) < r || (r == 2 ^ (d - 1) && q % 2 == 1) then q + 1 else q

/-- m * 2^e as a multiple of 2^q, rounded to nearest even. -/
def rneAt (m : Nat) (e q : Int) : Nat :=
  if q ≤ e then m * 2 ^ (e - q).toNat else rneShift m (q - e).toNat

/-- The bits of a value in a format: one rounding to nearest even, overflow to infinity (R34). -/
def FFmt.encode (f : FFmt) (v : FVal) : Nat :=
  match v with
  | .nan => f.nanBits
  | .inf neg => (if neg then f.signBit else 0) + f.infBits
  | .fin neg m e =>
    let s := if neg then f.signBit else 0
    if m = 0 then s
    else
      let lsb : Int := max ((Nat.log2 m : Int) + e - f.mb) (1 - (f.bias : Int) - f.mb)
      let n := rneAt m e lsb
      let body := if n < 2 ^ f.mb then n
        else (lsb + f.mb + f.bias).toNat * 2 ^ f.mb + (n - 2 ^ f.mb)
      s + min body f.infBits

/-- The vector unit's flush of an input: a subnormal reads as zero of its sign (R34). -/
def FFmt.flush (f : FFmt) (x : Nat) : Nat :=
  if x / 2 ^ f.mb % 2 ^ f.eb = 0 then x / f.signBit % 2 * f.signBit else x

/-- The value the vector unit reads. -/
def FFmt.decodeV (f : FFmt) (x : Nat) : FVal := f.decode (f.flush x)
/-- The vector unit's result: rounded, then flushed. -/
def FFmt.encodeV (f : FFmt) (v : FVal) : Nat := f.flush (f.encode v)

/-! ## Exact operations -/

def FVal.neg : FVal → FVal
  | .nan => .nan
  | .inf n => .inf (!n)
  | .fin n m e => .fin (!n) m e

def FVal.isNan : FVal → Bool
  | .nan => true
  | .inf _ | .fin .. => false

def FVal.isZero : FVal → Bool
  | .fin _ 0 _ => true
  | .nan | .inf _ | .fin _ (_ + 1) _ => false

/-- A signed integer at a common exponent. -/
def scaledInt (neg : Bool) (m : Nat) (e base : Int) : Int :=
  let x : Int := (m * 2 ^ (e - base).toNat : Nat)
  if neg then -x else x

/-- The value of an integer times 2^e. -/
def FVal.ofInt (x : Int) (e : Int) : FVal := .fin (decide (x < 0)) x.natAbs e

/-- Exact sum; an exact zero sum is +0 but for (-0) + (-0) (R93). -/
def FVal.add (a b : FVal) : FVal :=
  match a, b with
  | .nan, _ | _, .nan => .nan
  | .inf x, .inf y => if x == y then .inf x else .nan
  | .inf x, .fin .. => .inf x
  | .fin .., .inf y => .inf y
  | .fin x m e, .fin y n g =>
    let base := min e g
    let t := scaledInt x m e base + scaledInt y n g base
    if t = 0 then .fin (x && y && m == 0 && n == 0) 0 0 else FVal.ofInt t base

def FVal.sub (a b : FVal) : FVal := a.add b.neg

/-- Exact product; infinity times zero is NaN. -/
def FVal.mul (a b : FVal) : FVal :=
  match a, b with
  | .nan, _ | _, .nan => .nan
  | .inf x, .inf y => .inf (xor x y)
  | .inf x, .fin y n _ => if n = 0 then .nan else .inf (xor x y)
  | .fin x m _, .inf y => if m = 0 then .nan else .inf (xor x y)
  | .fin x m e, .fin y n g => .fin (xor x y) (m * n) (e + g)

/-- Exact a * b + c (R93). -/
def FVal.fma (a b c : FVal) : FVal := (a.mul b).add c

/-- The order of two values, none when either is NaN; -0 equals +0 (R95). -/
def FVal.cmp (a b : FVal) : Option Ordering :=
  match a, b with
  | .nan, _ | _, .nan => none
  | .inf x, .inf y => some (if x == y then .eq else if x then .lt else .gt)
  | .inf x, .fin .. => some (if x then .lt else .gt)
  | .fin .., .inf y => some (if y then .gt else .lt)
  | .fin x m e, .fin y n g =>
    let base := min e g
    some (compare (scaledInt x m e base) (scaledInt y n g base))

/-- Sign of a value, for the order of zeros. -/
def FVal.isNeg : FVal → Bool
  | .nan => false
  | .inf n => n
  | .fin n _ _ => n

/-- FMIN and FMAX on bit patterns (R94): -0 below +0, a lone NaN gives the other source. -/
def FFmt.minMax (f : FFmt) (isMax : Bool) (x y : Nat) : Nat :=
  let a := f.decode x
  let b := f.decode y
  match a.isNan, b.isNan with
  | true, true => f.nanBits
  | true, false => y
  | false, true => x
  | false, false =>
    match a.cmp b with
    | some .lt => if isMax then y else x
    | some .gt => if isMax then x else y
    | _ => if a.isNeg == isMax then y else x

/-- A magnitude num / den as a value precise enough that rounding it to any format here rounds the quotient: 80 and
more leading bits and a sticky bit. -/
def FVal.ofRat (neg : Bool) (num den : Nat) (e : Int) : FVal :=
  if num = 0 then .fin neg 0 0
  else
    let k := 80 + Nat.log2 den
    let q := num * 2 ^ k / den
    let sticky := if num * 2 ^ k % den = 0 then 0 else 1
    .fin neg (2 * q + sticky) (e - k - 1)

/-! ## Integral values and integers (R96, R97) -/

/-- m * 2^e rounded to an integer magnitude under a rounding mode; `neg` is the sign. -/
def roundInt (mode : Rnd) (neg : Bool) (m : Nat) (e : Int) : Nat :=
  if 0 ≤ e then m * 2 ^ e.toNat
  else
    let d := (-e).toNat
    let q := m / 2 ^ d
    let r := m % 2 ^ d
    match mode with
    | .rne => rneShift m d
    | .rtz => q
    | .rdn => if neg && r != 0 then q + 1 else q
    | .rup => if !neg && r != 0 then q + 1 else q
    | .rna => if 2 ^ (d - 1) ≤ r then q + 1 else q

/-- FRND (R97). -/
def FVal.round (mode : Rnd) : FVal → FVal
  | .nan => .nan
  | .inf n => .inf n
  | .fin n m e => .fin n (roundInt mode n m e) 0

/-- Round toward zero and saturate (R96). -/
def FVal.toIntSat (lo hi : Int) : FVal → Int
  | .nan => 0
  | .inf n => if n then lo else hi
  | .fin n m e =>
    let x : Int := roundInt .rtz n m e
    max lo (min hi (if n then -x else x))

/-- Floor(Log2(m * 2^e)) of a nonzero magnitude. -/
def floorLog2 (m : Nat) (e : Int) : Int := (Nat.log2 m : Int) + e

/-! ## ACX48 (R32, R33) -/

/-- The canonical NaN of ACX48. -/
def acxNan : BitVec 48 := 0x7FFFFFFFFFFF#48

/-- The value of an ACX48 pattern; an exponent field of 0 is a zero. -/
def acxDecode (x : BitVec 48) : FVal :=
  let neg := x.getLsbD 47
  let ex : Nat := x.toNat / 2 ^ 37 % 1024
  if ex = 1023 then .nan
  else if ex = 0 then .fin neg 0 0
  else .fin neg (2 ^ 37 + x.toNat % 2 ^ 37 : Nat) ((ex : Int) - 511 - 37)

/-- AcxRound: the pattern, and whether it counts on ACC_OVF (R33). -/
def acxRound (v : FVal) : BitVec 48 × Bool :=
  match v with
  | .nan => (acxNan, false)
  | .inf n => (BitVec.ofNat 48 ((if n then 2 ^ 47 else 0) + 0x7FDFFFFFFFFF), true)
  | .fin n m e =>
    let s := if n then 2 ^ 47 else 0
    if m = 0 then (BitVec.ofNat 48 s, false)
    else
      let lsb := floorLog2 m e - 37
      let r := rneAt m e lsb
      let r' := if r = 2 ^ 38 then 2 ^ 37 else r
      let ex := lsb + 37 + 511 + (if r = 2 ^ 38 then 1 else 0)
      if 1022 < ex then (BitVec.ofNat 48 (s + 0x7FDFFFFFFFFF), true)
      else if ex < 1 then (BitVec.ofNat 48 s, false)
      else (BitVec.ofNat 48 (s + ex.toNat * 2 ^ 37 + (r' - 2 ^ 37)), false)

/-- One step of an accumulator element: AcxRound(E + V) (R33). -/
def acxAdd (x : BitVec 48) (v : FVal) : BitVec 48 × Bool := acxRound ((acxDecode x).add v)

end Sys2Proof.Machine
end

