-- ==== Sys2Proof/Machine/Tables.lean ====
section
/-! DEFINITION. The tables of the special functions: 128 rows C0, C1, C2 of each, worked out from the formulas of R355. -/
namespace Sys2Proof.Machine

def tabExp20 : List (Int × Int × Int) := [
  (1076653033, 5830305, 15786), (1082499153, 5861963, 15872), (1088377016, 5893793, 15958), (1094286796, 5925795, 16045),
  (1100228665, 5957972, 16132), (1106202798, 5990323, 16219), (1112209370, 6022850, 16308), (1118248556, 6055553, 16396),
  (1124320536, 6088434, 16485), (1130425485, 6121494, 16575), (1136563583, 6154733, 16665), (1142735011, 6188153, 16755),
  (1148939949, 6221754, 16846), (1155178580, 6255537, 16938), (1161451085, 6289504, 17030), (1167757650, 6323656, 17122)]
def tabExp21 : List (Int × Int × Int) := [
  (1174098458, 6357992, 17215), (1180473697, 6392516, 17308), (1186883552, 6427226, 17402), (1193328213, 6462126, 17497),
  (1199807867, 6497214, 17592), (1206322705, 6532494, 17687), (1212872918, 6567964, 17783), (1219458698, 6603628, 17880),
  (1226080238, 6639485, 17977), (1232737732, 6675537, 18075), (1239431376, 6711784, 18173), (1246161366, 6748228, 18272),
  (1252927899, 6784871, 18371), (1259731174, 6821712, 18471), (1266571390, 6858753, 18571), (1273448747, 6895995, 18672)]
def tabExp22 : List (Int × Int × Int) := [
  (1280363448, 6933440, 18773), (1287315695, 6971088, 18875), (1294305692, 7008940, 18977), (1301333643, 7046998, 19080),
  (1308399756, 7085263, 19184), (1315504238, 7123735, 19288), (1322647296, 7162416, 19393), (1329829140, 7201307, 19498),
  (1337049980, 7240410, 19604), (1344310030, 7279724, 19711), (1351609500, 7319252, 19818), (1358948606, 7358995, 19925),
  (1366327563, 7398954, 20033), (1373746586, 7439129, 20142), (1381205894, 7479523, 20252), (1388705706, 7520136, 20362)]
def tabExp23 : List (Int × Int × Int) := [
  (1396246240, 7560970, 20472), (1403827719, 7602025, 20583), (1411450365, 7643303, 20695), (1419114401, 7684806, 20807),
  (1426820052, 7726534, 20920), (1434567544, 7768488, 21034), (1442357104, 7810670, 21148), (1450188960, 7853081, 21263),
  (1458063343, 7895723, 21379), (1465980482, 7938596, 21495), (1473940611, 7981701, 21611), (1481943963, 8025041, 21729),
  (1489990772, 8068616, 21847), (1498081275, 8112428, 21965), (1506215708, 8156478, 22085), (1514394310, 8200767, 22204)]
def tabExp24 : List (Int × Int × Int) := [
  (1522617322, 8245296, 22325), (1530884983, 8290067, 22446), (1539197537, 8335082, 22568), (1547555228, 8380340, 22691),
  (1555958300, 8425845, 22814), (1564406999, 8471596, 22938), (1572901575, 8517596, 23062), (1581442275, 8563846, 23188),
  (1590029350, 8610347, 23313), (1598663052, 8657100, 23440), (1607343634, 8704107, 23567), (1616071351, 8751370, 23695),
  (1624846459, 8798889, 23824), (1633669214, 8846666, 23953), (1642539877, 8894702, 24083), (1651458706, 8943000, 24214)]
def tabExp25 : List (Int × Int × Int) := [
  (1660425963, 8991559, 24346), (1669441912, 9040382, 24478), (1678506817, 9089471, 24611), (1687620943, 9138826, 24744),
  (1696784557, 9188449, 24879), (1705997930, 9238341, 25014), (1715261330, 9288504, 25150), (1724575029, 9338940, 25286),
  (1733939301, 9389650, 25423), (1743354420, 9440634, 25562), (1752820662, 9491896, 25700), (1762338305, 9543436, 25840),
  (1771907628, 9595256, 25980), (1781528911, 9647357, 26121), (1791202437, 9699742, 26263), (1800928489, 9752410, 26406)]
def tabExp26 : List (Int × Int × Int) := [
  (1810707353, 9805365, 26549), (1820539314, 9858607, 26693), (1830424663, 9912138, 26838), (1840363688, 9965960, 26984),
  (1850356681, 10020074, 27130), (1860403934, 10074482, 27278), (1870505744, 10129186, 27426), (1880662405, 10184186, 27575),
  (1890874216, 10239485, 27724), (1901141476, 10295085, 27875), (1911464486, 10350986, 28026), (1921843549, 10407191, 28179),
  (1932278970, 10463701, 28332), (1942771053, 10520518, 28485), (1953320108, 10577643, 28640), (1963926443, 10635079, 28796)]
def tabExp27 : List (Int × Int × Int) := [
  (1974590370, 10692826, 28952), (1985312200, 10750887, 29109), (1996092249, 10809263, 29267), (2006930832, 10867957, 29426),
  (2017828268, 10926969, 29586), (2028784876, 10986301, 29747), (2039800978, 11045955, 29908), (2050876895, 11105934, 30070),
  (2062012954, 11166238, 30234), (2073209480, 11226870, 30398), (2084466803, 11287830, 30563), (2095785251, 11349122, 30729),
  (2107165158, 11410747, 30896), (2118606857, 11472706, 31064), (2130110682, 11535002, 31232), (2141676973, 11597636, 31402)]
/-- EXP2 (R355). -/
def tabExp2 : List (Int × Int × Int) :=
  tabExp20 ++ tabExp21 ++ tabExp22 ++ tabExp23 ++ tabExp24 ++ tabExp25 ++ tabExp26 ++ tabExp27

def tabLog20 : List (Int × Int × Int) := [
  (6039314, 12055113, -46907), (18047761, 11962023, -46185), (29963836, 11870360, -45480), (41788947, 11780091, -44791),
  (53524472, 11691185, -44118), (65171760, 11603611, -43459), (76732128, 11517338, -42815), (88206862, 11432340, -42186),
  (99597222, 11348586, -41570), (110904440, 11266051, -40967), (122129721, 11184708, -40378), (133274244, 11104530, -39801),
  (144339162, 11025495, -39237), (155325606, 10947576, -38684), (166234679, 10870751, -38143), (177067464, 10794997, -37613)]
def tabLog21 : List (Int × Int × Int) := [
  (187825021, 10720291, -37094), (198508388, 10646612, -36586), (209118580, 10573939, -36089), (219656594, 10502251, -35601),
  (230123404, 10431529, -35123), (240519966, 10361753, -34655), (250847218, 10292904, -34196), (261106077, 10224964, -33746),
  (271297442, 10157915, -33305), (281422197, 10091739, -32872), (291481207, 10026421, -32448), (301475319, 9961942, -32032),
  (311405366, 9898288, -31624), (321272163, 9835441, -31224), (331076513, 9773388, -30831), (340819199, 9712113, -30445)]
def tabLog22 : List (Int × Int × Int) := [
  (350500993, 9651601, -30067), (360122651, 9591839, -29696), (369684916, 9532812, -29332), (379188517, 9474508, -28974),
  (388634168, 9416912, -28623), (398022572, 9360012, -28278), (407354420, 9303796, -27939), (416630388, 9248251, -27607),
  (425851141, 9193365, -27280), (435017334, 9139127, -26959), (444129607, 9085525, -26644), (453188592, 9032548, -26334),
  (462194908, 8980186, -26030), (471149164, 8928427, -25730), (480051959, 8877261, -25436), (488903880, 8826678, -25147)]
def tabLog23 : List (Int × Int × Int) := [
  (497705506, 8776669, -24863), (506457405, 8727223, -24584), (515160136, 8678331, -24309), (523814248, 8629983, -24039),
  (532420281, 8582172, -23773), (540978767, 8534887, -23512), (549490228, 8488121, -23255), (557955178, 8441864, -23002),
  (566374123, 8396108, -22754), (574747559, 8350846, -22509), (583075977, 8306070, -22268), (591359858, 8261771, -22031),
  (599599675, 8217942, -21798), (607795895, 8174575, -21569), (615948977, 8131664, -21343), (624059373, 8089201, -21121)]
def tabLog24 : List (Int × Int × Int) := [
  (632127527, 8047179, -20902), (640153876, 8005592, -20686), (648138853, 7964432, -20474), (656082880, 7923693, -20265),
  (663986377, 7883369, -20059), (671849754, 7843453, -19857), (679673418, 7803940, -19657), (687457766, 7764822, -19461),
  (695203192, 7726095, -19267), (702910083, 7687752, -19076), (710578822, 7649788, -18888), (718209783, 7612197, -18703),
  (725803337, 7574973, -18521), (733359850, 7538112, -18341), (740879680, 7501608, -18164), (748363183, 7465455, -17989)]
def tabLog25 : List (Int × Int × Int) := [
  (755810707, 7429650, -17817), (763222597, 7394186, -17647), (770599192, 7359059, -17480), (777940826, 7324265, -17315),
  (785247830, 7289798, -17152), (792520529, 7255653, -16992), (799759243, 7221828, -16834), (806964289, 7188316, -16678),
  (814135978, 7155113, -16525), (821274617, 7122216, -16373), (828380510, 7089620, -16223), (835453956, 7057321, -16076),
  (842495250, 7025315, -15930), (849504683, 6993598, -15787), (856482542, 6962166, -15645), (863429109, 6931016, -15506)]
def tabLog26 : List (Int × Int × Int) := [
  (870344666, 6900143, -15368), (877229486, 6869543, -15232), (884083842, 6839214, -15098), (890908003, 6809152, -14965),
  (897702233, 6779352, -14834), (904466794, 6749813, -14705), (911201944, 6720529, -14578), (917907937, 6691499, -14452),
  (924585025, 6662718, -14328), (931233456, 6634184, -14206), (937853475, 6605893, -14085), (944445323, 6577843, -13966),
  (951009239, 6550030, -13848), (957545460, 6522451, -13731), (964054218, 6495103, -13617), (970535742, 6467983, -13503)]
def tabLog27 : List (Int × Int × Int) := [
  (976990259, 6441089, -13391), (983417995, 6414418, -13280), (989819169, 6387967, -13171), (996194001, 6361733, -13063),
  (1002542707, 6335714, -12956), (1008865499, 6309906, -12851), (1015162589, 6284308, -12747), (1021434185, 6258917, -12644),
  (1027680492, 6233730, -12543), (1033901713, 6208746, -12442), (1040098049, 6183960, -12343), (1046269699, 6159372, -12245),
  (1052416858, 6134978, -12148), (1058539720, 6110777, -12053), (1064638476, 6086766, -11958), (1070713315, 6062943, -11865)]
/-- LOG2 (R355). -/
def tabLog2 : List (Int × Int × Int) :=
  tabLog20 ++ tabLog21 ++ tabLog22 ++ tabLog23 ++ tabLog24 ++ tabLog25 ++ tabLog26 ++ tabLog27

def tabRcp0 : List (Int × Int × Int) := [
  (1069563840, -8323454, 64774), (1061304660, -8195403, 63285), (1053172057, -8070284, 61841), (1045163144, -7948009, 60441),
  (1037275121, -7828491, 59083), (1029505269, -7711650, 57765), (1021850955, -7597405, 56486), (1014309620, -7485680, 55245),
  (1006878780, -7376401, 54040), (999556025, -7269498, 52869), (992339014, -7164903, 51732), (985225473, -7062548, 50628),
  (978213192, -6962371, 49554), (971300025, -6864311, 48511), (964483884, -6768308, 47497), (957762742, -6674305, 46511)]
def tabRcp1 : List (Int × Int × Int) := [
  (951134626, -6582247, 45552), (944597618, -6492080, 44619), (938149853, -6403753, 43712), (931789515, -6317217, 42829),
  (925514838, -6232423, 41969), (919324103, -6149325, 41133), (913215638, -6067878, 40318), (907187812, -5988038, 39525),
  (901239039, -5909764, 38753), (895367775, -5833015, 38000), (889572514, -5757751, 37267), (883851791, -5683934, 36553),
  (878204176, -5611528, 35856), (872628276, -5540497, 35178), (867122735, -5470806, 34516), (861686229, -5402421, 33871)]
def tabRcp2 : List (Int × Int × Int) := [
  (856317467, -5335311, 33242), (851015192, -5269444, 32628), (845778175, -5204789, 32029), (840605220, -5141316, 31445),
  (835495158, -5078998, 30875), (830446849, -5017806, 30319), (825459180, -4957713, 29776), (820531066, -4898693, 29246),
  (815661445, -4840721, 28728), (810849283, -4783772, 28223), (806093569, -4727822, 27729), (801393315, -4672847, 27247),
  (796747556, -4618826, 26776), (792155351, -4565737, 26315), (787615779, -4513557, 25866), (783127940, -4462267, 25426)]
def tabRcp3 : List (Int × Int × Int) := [
  (778690955, -4411847, 24996), (774303963, -4362276, 24576), (769966126, -4313536, 24165), (765676621, -4265608, 23764),
  (761434645, -4218474, 23371), (757239413, -4172118, 22987), (753090156, -4126521, 22611), (748986122, -4081668, 22243),
  (744926577, -4037542, 21884), (740910800, -3994128, 21532), (736938088, -3951411, 21187), (733007752, -3909375, 20850),
  (729119117, -3868006, 20520), (725271522, -3827290, 20197), (721464323, -3787214, 19880), (717696885, -3747764, 19571)]
def tabRcp4 : List (Int × Int × Int) := [
  (713968589, -3708928, 19267), (710278829, -3670692, 18970), (706627010, -3633044, 18679), (703012550, -3595972, 18394),
  (699434878, -3559465, 18114), (695893435, -3523511, 17841), (692387675, -3488099, 17572), (688917060, -3453218, 17309),
  (685481065, -3418858, 17052), (682079174, -3385008, 16799), (678710881, -3351659, 16551), (675375693, -3318799, 16309),
  (672073122, -3286421, 16071), (668802693, -3254514, 15837), (665563939, -3223070, 15608), (662356402, -3192079, 15384)]
def tabRcp5 : List (Int × Int × Int) := [
  (659179633, -3161533, 15163), (656033191, -3131423, 14947), (652916644, -3101742, 14735), (649829567, -3072480, 14527),
  (646771546, -3043631, 14323), (643742171, -3015186, 14123), (640741042, -2987138, 13926), (637767766, -2959479, 13733),
  (634821956, -2932203, 13544), (631903234, -2905302, 13358), (629011229, -2878770, 13175), (626145574, -2852599, 12996),
  (623305911, -2826784, 12820), (620491889, -2801318, 12647), (617703162, -2776194, 12477), (614939389, -2751407, 12311)]
def tabRcp6 : List (Int × Int × Int) := [
  (612200238, -2726950, 12147), (609485381, -2702818, 11986), (606794497, -2679004, 11828), (604127268, -2655504, 11673),
  (601483385, -2632312, 11520), (598862542, -2609423, 11370), (596264440, -2586831, 11223), (593688784, -2564530, 11078),
  (591135284, -2542517, 10936), (588603655, -2520787, 10796), (586093618, -2499333, 10658), (583604898, -2478152, 10523),
  (581137224, -2457240, 10390), (578690330, -2436591, 10259), (576263956, -2416201, 10131), (573857843, -2396066, 10004)]
def tabRcp7 : List (Int × Int × Int) := [
  (571471740, -2376182, 9880), (569105397, -2356544, 9758), (566758571, -2337149, 9638), (564431020, -2317992, 9519),
  (562122509, -2299070, 9403), (559832804, -2280378, 9289), (557561677, -2261913, 9176), (555308903, -2243672, 9065),
  (553074259, -2225651, 8956), (550857529, -2207846, 8849), (548658497, -2190253, 8744), (546476952, -2172871, 8640),
  (544312687, -2155694, 8537), (542165497, -2138720, 8437), (540035181, -2121946, 8338), (537921540, -2105368, 8240)]
/-- RCP (R355). -/
def tabRcp : List (Int × Int × Int) :=
  tabRcp0 ++ tabRcp1 ++ tabRcp2 ++ tabRcp3 ++ tabRcp4 ++ tabRcp5 ++ tabRcp6 ++ tabRcp7

def tabRsqe0 : List (Int × Int × Int) := [
  (1071650796, -4169847, 24338), (1067505129, -4121641, 23871), (1063407206, -4074357, 23416), (1059356116, -4027970, 22973),
  (1055350975, -3982457, 22542), (1051390920, -3937794, 22122), (1047475111, -3893960, 21714), (1043602731, -3850933, 21315),
  (1039772984, -3808692, 20927), (1035985091, -3767219, 20548), (1032238298, -3726492, 20180), (1028531865, -3686494, 19820),
  (1024865073, -3647207, 19469), (1021237220, -3608612, 19127), (1017647623, -3570693, 18793), (1014095614, -3533434, 18467)]
def tabRsqe1 : List (Int × Int × Int) := [
  (1010580540, -3496818, 18150), (1007101767, -3460831, 17839), (1003658674, -3425456, 17536), (1000250655, -3390680, 17241),
  (996877119, -3356489, 16952), (993537488, -3322868, 16670), (990231198, -3289805, 16394), (986957697, -3257286, 16125),
  (983716448, -3225300, 15862), (980506924, -3193834, 15605), (977328611, -3162876, 15354), (974181007, -3132415, 15108),
  (971063620, -3102440, 14868), (967975969, -3072940, 14633), (964917586, -3043904, 14403), (961888010, -3015323, 14179)]
def tabRsqe2 : List (Int × Int × Int) := [
  (958886792, -2987186, 13959), (955913492, -2959484, 13744), (952967681, -2932208, 13533), (950048937, -2905348, 13327),
  (947156848, -2878896, 13126), (944291011, -2852843, 12928), (941451032, -2827180, 12735), (938636523, -2801900, 12546),
  (935847107, -2776994, 12361), (933082412, -2752455, 12179), (930342076, -2728276, 12001), (927625743, -2704448, 11827),
  (924933065, -2680965, 11656), (922263700, -2657820, 11489), (919617314, -2635007, 11325), (916993578, -2612517, 11165)]
def tabRsqe3 : List (Int × Int × Int) := [
  (914392173, -2590346, 11007), (911812782, -2568487, 10853), (909255098, -2546933, 10701), (906718816, -2525679, 10553),
  (904203641, -2504719, 10407), (901709282, -2484048, 10265), (899235452, -2463659, 10125), (896781872, -2443547, 9987),
  (894348266, -2423708, 9852), (891934367, -2404136, 9720), (889539908, -2384825, 9590), (887164630, -2365772, 9463),
  (884808279, -2346972, 9338), (882470604, -2328418, 9215), (880151361, -2310109, 9095), (877850307, -2292037, 8977)]
def tabRsqe4 : List (Int × Int × Int) := [
  (875567208, -2274201, 8861), (873301830, -2256594, 8746), (871053945, -2239213, 8634), (868823329, -2222055, 8525),
  (866609763, -2205114, 8416), (864413030, -2188387, 8310), (862232918, -2171871, 8206), (860069218, -2155562, 8104),
  (857921726, -2139456, 8003), (855790241, -2123549, 7904), (853674563, -2107838, 7807), (851574500, -2092321, 7711),
  (849489859, -2076992, 7617), (847420453, -2061850, 7525), (845366097, -2046891, 7434), (843326610, -2032112, 7345)]
def tabRsqe5 : List (Int × Int × Int) := [
  (841301814, -2017510, 7257), (839291532, -2003082, 7171), (837295592, -1988826, 7086), (835313824, -1974737, 7003),
  (833346062, -1960814, 6921), (831392141, -1947054, 6840), (829451900, -1933454, 6760), (827525180, -1920012, 6682),
  (825611825, -1906725, 6605), (823711680, -1893590, 6530), (821824594, -1880605, 6455), (819950420, -1867769, 6382),
  (818089009, -1855077, 6310), (816240218, -1842529, 6239), (814403904, -1830121, 6169), (812579929, -1817852, 6100)]
def tabRsqe6 : List (Int × Int × Int) := [
  (810768155, -1805720, 6032), (808968445, -1793722, 5966), (807180667, -1781856, 5900), (805404690, -1770120, 5836),
  (803640384, -1758513, 5772), (801887622, -1747032, 5709), (800146279, -1735675, 5648), (798416231, -1724441, 5587),
  (796697356, -1713328, 5527), (794989536, -1702333, 5468), (793292651, -1691456, 5410), (791606586, -1680693, 5353),
  (789931227, -1670045, 5296), (788266459, -1659508, 5241), (786612173, -1649082, 5186), (784968259, -1638765, 5132)]
def tabRsqe7 : List (Int × Int × Int) := [
  (783334608, -1628554, 5079), (781711115, -1618450, 5026), (780097675, -1608449, 4975), (778494183, -1598551, 4924),
  (776900539, -1588754, 4873), (775316643, -1579056, 4824), (773742394, -1569457, 4775), (772177696, -1559955, 4727),
  (770622452, -1550548, 4680), (769076568, -1541236, 4633), (767539950, -1532016, 4587), (766012506, -1522888, 4541),
  (764494145, -1513850, 4497), (762984777, -1504901, 4452), (761484314, -1496040, 4409), (759992668, -1487265, 4366)]
/-- RSQE (R355). -/
def tabRsqe : List (Int × Int × Int) :=
  tabRsqe0 ++ tabRsqe1 ++ tabRsqe2 ++ tabRsqe3 ++ tabRsqe4 ++ tabRsqe5 ++ tabRsqe6 ++ tabRsqe7

def tabRsqo0 : List (Int × Int × Int) := [
  (757771545, -2948527, 17209), (754840116, -2914441, 16879), (751942447, -2881006, 16558), (749077893, -2848205, 16245),
  (746245831, -2816022, 15940), (743445649, -2784441, 15643), (740676754, -2753445, 15354), (737938568, -2723021, 15072),
  (735230528, -2693152, 14798), (732552083, -2663826, 14530), (729902700, -2635028, 14269), (727281856, -2606745, 14015),
  (724689043, -2578965, 13767), (722123764, -2551674, 13525), (719585535, -2524862, 13289), (717073885, -2498515, 13058)]
def tabRsqo1 : List (Int × Int × Int) := [
  (714588353, -2472624, 12834), (712128489, -2447177, 12614), (709693855, -2422163, 12400), (707284021, -2397573, 12191),
  (704898571, -2373396, 11987), (702537095, -2349622, 11787), (700199195, -2326243, 11593), (697884480, -2303249, 11402),
  (695592571, -2280631, 11216), (693323095, -2258381, 11034), (691075688, -2236491, 10857), (688849996, -2214952, 10683),
  (686645670, -2193756, 10513), (684462372, -2172896, 10347), (682299768, -2152365, 10185), (680157534, -2132155, 10026)]
def tabRsqo2 : List (Int × Int × Int) := [
  (678035353, -2112260, 9870), (675932912, -2092672, 9718), (673849909, -2073384, 9569), (671786046, -2054392, 9424),
  (669741030, -2035687, 9281), (667714578, -2017265, 9142), (665706409, -1999118, 9005), (663716251, -1981243, 8871),
  (661743836, -1963632, 8740), (659788901, -1946280, 8612), (657851191, -1929182, 8486), (655930453, -1912334, 8363),
  (654026442, -1895729, 8242), (652138916, -1879363, 8124), (650267639, -1863231, 8008), (648412378, -1847329, 7895)]
def tabRsqo3 : List (Int × Int × Int) := [
  (646572906, -1831651, 7783), (644749001, -1816194, 7674), (642940445, -1800954, 7567), (641147024, -1785925, 7462),
  (639368526, -1771104, 7359), (637604748, -1756487, 7258), (635855486, -1742070, 7159), (634120543, -1727849, 7062),
  (632399724, -1713820, 6967), (630692839, -1699981, 6873), (628999701, -1686326, 6781), (627320126, -1672854, 6691),
  (625653934, -1659560, 6603), (624000948, -1646440, 6516), (622360996, -1633493, 6431), (620733905, -1620715, 6347)]
def tabRsqo4 : List (Int × Int × Int) := [
  (619119510, -1608103, 6265), (617517646, -1595653, 6185), (615928151, -1583363, 6106), (614350868, -1571230, 6028),
  (612785640, -1559251, 5951), (611232315, -1547424, 5876), (609690743, -1535745, 5803), (608160777, -1524212, 5730),
  (606642271, -1512824, 5659), (605135082, -1501576, 5589), (603639073, -1490467, 5520), (602154103, -1479494, 5453),
  (600680040, -1468655, 5386), (599216749, -1457948, 5321), (597764100, -1447371, 5257), (596321965, -1436920, 5194)]
def tabRsqo5 : List (Int × Int × Int) := [
  (594890217, -1426595, 5132), (593468733, -1416393, 5071), (592057391, -1406312, 5011), (590656069, -1396350, 4952),
  (589264652, -1386505, 4894), (587883021, -1376775, 4836), (586511063, -1367159, 4780), (585148667, -1357654, 4725),
  (583795720, -1348258, 4671), (582452115, -1338970, 4617), (581117744, -1329789, 4564), (579792502, -1320712, 4513),
  (578476286, -1311738, 4462), (577168993, -1302865, 4412), (575870523, -1294091, 4362), (574580778, -1285416, 4313)]
def tabRsqo6 : List (Int × Int × Int) := [
  (573299660, -1276837, 4266), (572027073, -1268353, 4218), (570762923, -1259962, 4172), (569507118, -1251664, 4126),
  (568259565, -1243456, 4081), (567020175, -1235338, 4037), (565788860, -1227308, 3993), (564565531, -1219364, 3950),
  (563350103, -1211506, 3908), (562142492, -1203731, 3866), (560942613, -1196040, 3825), (559750385, -1188430, 3785),
  (558565727, -1180900, 3745), (557388559, -1173450, 3706), (556218802, -1166077, 3667), (555056379, -1158782, 3629)]
def tabRsqo7 : List (Int × Int × Int) := [
  (553901213, -1151562, 3591), (552753230, -1144417, 3554), (551612356, -1137345, 3518), (550478516, -1130346, 3482),
  (549351640, -1123418, 3446), (548231656, -1116561, 3411), (547118494, -1109774, 3377), (546012085, -1103055, 3343),
  (544912362, -1096403, 3309), (543819257, -1089818, 3276), (542732704, -1083299, 3243), (541652637, -1076844, 3211),
  (540578994, -1070453, 3180), (539511710, -1064126, 3148), (538450722, -1057860, 3117), (537395969, -1051656, 3087)]
/-- RSQO (R355). -/
def tabRsqo : List (Int × Int × Int) :=
  tabRsqo0 ++ tabRsqo1 ++ tabRsqo2 ++ tabRsqo3 ++ tabRsqo4 ++ tabRsqo5 ++ tabRsqo6 ++ tabRsqo7

end Sys2Proof.Machine
end

