-- ==== Sys2Proof/Machine/Special.lean ====
section
/-! DEFINITION. The special functions of the vector unit on FP32 patterns (R139, R355 to R357), the merge of softmax
pairs (R151) and the float reductions (R141). -/
namespace Sys2Proof.Machine
open Sys2Proof

/-- Eval(T, i, d, B) in units of 2^-30 (R355). -/
def tableEval (t : List (Int × Int × Int)) (i : Nat) (d : Int) (b : Nat) : Int :=
  let (c0, c1, c2) := t.getD i (0, 0, 0)
  c0 + c1 * d / 2 ^ b + c2 * d * d / 2 ^ (2 * b)

/-- The value y * 2^e rounded once to FP32 with the vector flush. -/
def roundF (y e : Int) : Nat := fp32.encodeV (FVal.ofInt y e)

/-- The fraction field's segment and offset (R356): i = F[22:16], d = F[15:0] - 2^15. -/
def evalFrac (t : List (Int × Int × Int)) (f : Nat) : Int :=
  tableEval t (f / 65536) ((f % 65536 : Nat) - 32768) 16

/-- Exponent e and fraction F of a normal FP32 pattern. -/
def fpExp (x : Nat) : Int := ((x / 2 ^ 23 % 256 : Nat) : Int) - 127
def fpFrac (x : Nat) : Nat := x % 2 ^ 23

/-- VRCP on a flushed FP32 pattern (R139, R356). -/
def recip (x : Nat) : Nat :=
  let neg := x / 2 ^ 31 % 2 == 1
  match fp32.decode x with
  | .nan => fp32.nanBits
  | .inf _ => if neg then fp32.signBit else 0
  | v =>
    if v.isZero then (if neg then fp32.signBit else 0) + fp32.infBits
    else
      let y := if fpFrac x = 0 then 2 ^ 30 else evalFrac tabRcp (fpFrac x)
      roundF (if neg then -y else y) (-30 - fpExp x)

/-- VRSQ on a flushed FP32 pattern (R139, R356). -/
def recipSqrt (x : Nat) : Nat :=
  let neg := x / 2 ^ 31 % 2 == 1
  match fp32.decode x with
  | .nan => fp32.nanBits
  | .inf _ => if neg then fp32.nanBits else 0
  | v =>
    if v.isZero then (if neg then fp32.signBit else 0) + fp32.infBits
    else if neg then fp32.nanBits
    else
      let e := fpExp x
      if e % 2 = 0 then
        roundF (if fpFrac x = 0 then 2 ^ 30 else evalFrac tabRsqe (fpFrac x)) (-30 - e / 2)
      else if fpFrac x = 0 then
        -- 0xB504F3 * 2^-24 is the FP32 value nearest 1 / sqrt 2
        roundF 0xB504F3 (-24 - (e - 1) / 2)
      else roundF (evalFrac tabRsqo (fpFrac x)) (-30 - (e - 1) / 2)

/-- VLOG2 on a flushed FP32 pattern (R139, R356). -/
def log2F (x : Nat) : Nat :=
  let neg := x / 2 ^ 31 % 2 == 1
  match fp32.decode x with
  | .nan => fp32.nanBits
  | .inf _ => if neg then fp32.nanBits else fp32.infBits
  | v =>
    if v.isZero then fp32.signBit + fp32.infBits
    else if neg then fp32.nanBits
    else
      let y := if fpFrac x = 0 then 0 else evalFrac tabLog2 (fpFrac x)
      roundF (fpExp x * 2 ^ 30 + y) (-30)

/-- VEXP2 on a flushed FP32 pattern (R139, R356). -/
def exp2F (x : Nat) : Nat :=
  match fp32.decode x with
  | .nan => fp32.nanBits
  | .inf neg => if neg then 0 else fp32.infBits
  | .fin neg m e =>
    if m = 0 then 0x3F800000
    else if 7 ≤ floorLog2 m e then (if neg then (if 8 ≤ floorLog2 m e then 0 else small neg m e) else fp32.infBits)
    else small neg m e
where
  /-- |a| below 256: n = Floor(a), Phi = Floor((a - n) * 2^30). -/
  small (neg : Bool) (m : Nat) (e : Int) : Nat :=
    let a := scaledInt neg m e (-149)
    let n := a / 2 ^ 149
    let r := a % 2 ^ 149
    let phi := (r / 2 ^ 119).toNat
    let y := if r = 0 then 2 ^ 30
      else tableEval tabExp2 (phi / 2 ^ 23) (((phi % 2 ^ 23 : Nat) : Int) - 2 ^ 22) 23
    roundF y (n - 30)

def mulF (x y : Nat) : Nat := fp32.encodeV ((fp32.decodeV x).mul (fp32.decodeV y))
def addF (x y : Nat) : Nat := fp32.encodeV ((fp32.decodeV x).add (fp32.decodeV y))
def subF (x y : Nat) : Nat := fp32.encodeV ((fp32.decodeV x).sub (fp32.decodeV y))

/-- VTANH on a flushed FP32 pattern (R139, R357). -/
def tanhF (x : Nat) : Nat :=
  let s := x / 2 ^ 31 % 2 * fp32.signBit
  let a := x % 2 ^ 31
  match fp32.decode x with
  | .nan => fp32.nanBits
  | .inf _ => s + 0x3F800000
  | .fin .. =>
    if a < 0x39800000 then s + a
    else if 0x41100000 ≤ a then s + 0x3F800000
    else
      let w := exp2F (mulF (fp32.signBit + a) 0x4038AA3B)
      s + mulF (subF 0x3F800000 w) (recip (addF 0x3F800000 w))

/-- A special function on an element of FP32 or BF16: widened exactly, rounded back, flushed (R139). -/
def specialElem (f : Nat → Nat) (t : VType) (x : Nat) : Nat :=
  if t == .bf16 then bf16.encodeV (fp32.decode (f (bf16.flush x * 65536)))
  else f (fp32.flush x)

/-! ## The fixed pairwise tree (R37) -/

/-- One level: entries 2k and 2k + 1 combine, an odd last entry passes up. -/
def treeLevel {α : Type} (op : α → α → α) : List α → List α
  | a :: b :: r => op a b :: treeLevel op r
  | [a] => [a]
  | [] => []

/-- The tree, with as many levels as `fuel`. -/
def treeFold {α : Type} (op : α → α → α) : Nat → List α → List α
  | 0, l => l
  | n + 1, l => match l with
    | [] => []
    | [a] => [a]
    | l => treeFold op n (treeLevel op l)

/-! ## Merge of softmax partial pairs (R151) -/

/-- Merge((m1, s1), (m2, s2)) on FP32 patterns. -/
def mergePair (a b : Nat × Nat) : Nat × Nat :=
  let v := fun x => fp32.decodeV x
  let posInf := fun x => v x == .inf false
  let negInf := fun x => v x == .inf true
  if (v a.1).isNan || (v a.2).isNan || (v b.1).isNan || (v b.2).isNan || posInf a.1 || posInf b.1 then
    (fp32.nanBits, fp32.nanBits)
  else
    let m := fp32.minMax true (fp32.flush a.1) (fp32.flush b.1)
    let term := fun (x : Nat × Nat) => if negInf x.1 then 0 else mulF x.2 (exp2F (subF x.1 m))
    (m, addF (term a) (term b))

/-- Each pair position of the participants' values, combined by the tree (R151); `bits` of a register. -/
def mergeAll (bits : Nat) (vs : List Nat) : Nat :=
  ofElems 32 ((List.range (bits / 64)).flatMap fun q =>
    match treeFold mergePair 10 (vs.map fun v => (elem 32 v (2 * q), elem 32 v (2 * q + 1))) with
    | p :: _ => [p.1, p.2]
    | [] => [0, 0])

end Sys2Proof.Machine
end

