-- ==== Sys2Proof/Machine/Formats.lean ====
section
/-! DEFINITION. The number formats of 01_number_formats: trits, sparse metadata, MX, LG6, GS8, and quantisation. -/
namespace Sys2Proof.Machine
open Sys2Proof

/-! ## Trits (R14 to R19) -/

/-- A trit from its digit: 0, +1, -1 (R14). -/
def tritOfDigit (d : Nat) : Int := if d = 1 then 1 else if d = 2 then -1 else 0
def digitOfTrit (t : Int) : Nat := if t = 1 then 1 else if t = -1 then 2 else 0

/-- The five trits of a T5 byte, and whether the code is illegal (R14, R15). -/
def t5Decode (b : Nat) : List Int × Bool :=
  if 243 ≤ b then ([0, 0, 0, 0, 0], true)
  else ([b % 3, b / 3 % 3, b / 9 % 3, b / 27 % 3, b / 81 % 3].map tritOfDigit, false)

/-- The T5 byte of up to five trits, missing ones zero. -/
def t5Encode (ts : List Int) : Nat :=
  ts.foldr (fun t acc => digitOfTrit t + 3 * acc) 0

/-- A T2 code (R16). -/
def t2Decode (c : Nat) : Int × Bool :=
  match c with
  | 0 => (0, false)
  | 1 => (1, false)
  | 3 => (-1, false)
  | _ => (0, true)
def t2Encode (t : Int) : Nat := if t = 1 then 1 else if t = -1 then 3 else 0

/-- The first `n` trits of a T5 run, with the count of illegal codes in its bytes. -/
def t5Run (n : Nat) (bs : List Byte) : List Int × Nat :=
  let ds := (bs.take ((n + 4) / 5)).map fun b => t5Decode b.toNat
  ((ds.flatMap (·.1)).take n, (ds.filter (·.2)).length)

/-- The first `n` trits of a T2 run, with the count of illegal codes among them. -/
def t2Run (n : Nat) (bs : List Byte) : List Int × Nat :=
  let x := ofLe bs
  let ds := (List.range n).map fun k => t2Decode (x / 4 ^ k % 4)
  (ds.map (·.1), (ds.filter (·.2)).length)

/-- T5 bytes of a run of trits. -/
def t5Pack : Nat → List Int → List Byte
  | 0, _ => []
  | n + 1, ts => BitVec.ofNat 8 (t5Encode (ts.take 5)) :: t5Pack n (ts.drop 5)

/-- Positions of a group's metadata: how many positions, of how many bits each (R18, R19, R29). -/
structure Group where
  /-- Elements of a group. -/
  width : Nat
  /-- Values of a group. -/
  keep : Nat
  /-- Bits of a position. -/
  bits : Nat
  deriving DecidableEq, Repr

def group24 : Group := ⟨4, 2, 2⟩
def group48 : Group := ⟨8, 4, 3⟩

def Group.metaBits (g : Group) : Nat := g.keep * g.bits
def Group.positions (g : Group) (m : Nat) : List Nat :=
  (List.range g.keep).map fun k => m / 2 ^ (g.bits * k) % 2 ^ g.bits

/-- Strictly rising positions, then the last one repeated (R18, R19). -/
def wellFormedPos : List Nat → Bool
  | a :: b :: r =>
    if a < b then wellFormedPos (b :: r) else a == b && r.all (· == b)
  | [_] | [] => true

/-- The distinct positions of a well-formed list. -/
def distinctPos : List Nat → List Nat
  | a :: b :: r => if a < b then a :: distinctPos (b :: r) else [a]
  | [a] => [a]
  | [] => []

/-- A group of a sparse ternary weight (R18, R19): its weights and whether it is malformed. -/
def sparseWeights (g : Group) (metadata values : Nat) : List Int × Bool :=
  let ps := g.positions metadata
  if !wellFormedPos ps then (List.replicate g.width 0, true)
  else
    let ds := distinctPos ps
    let present := ds.length == g.keep || values / 2 ^ ds.length % 2 == 1
    ((List.range g.width).map fun x =>
      if !present then 0
      else match ds.findIdx? (· == x) with
        | some k => if values / 2 ^ k % 2 = 1 then -1 else 1
        | none => 0, false)

/-- A group of a sparse activation (R29): which value each position takes, and whether it is malformed. -/
def sparseIndex (g : Group) (metadata : Nat) : List (Option Nat) × Bool :=
  let ps := g.positions metadata
  if !wellFormedPos ps then (List.replicate g.width none, true)
  else ((List.range g.width).map fun x => (distinctPos ps).findIdx? (· == x), false)

/-! ## LG6 (R25 to R28) -/

/-- T[f], Q1.15 values of 2^(f/4). -/
def lgT (f : Nat) : Nat := [0x8000, 0x9838, 0xB505, 0xD745].getD f 0
def lgL (b : Nat) : Nat := b % 32
def lgS (b : Nat) : Bool := b / 32 % 2 == 1

/-- Mag(L) in units of 2^-20 (R25). -/
def lgMag (l : Nat) : Nat :=
  if l = 0 then 0
  else
    let n : Int := ((l : Int) - 20) / 4
    lgT ((l : Int) - 20 - 4 * n).toNat * 2 ^ (n + 5).toNat

/-- A product of two LG6 bytes in units of 2^-25 (R26). -/
def lgProd (a b : Nat) : Int :=
  if lgL a = 0 || lgL b = 0 then 0
  else
    let lp : Int := (lgL a : Int) + lgL b - 20
    let n := (lp - 20) / 4
    let mag : Int := (lgT (lp - 20 - 4 * n).toNat * 2 ^ (n + 10).toNat : Nat)
    if xor (lgS a) (lgS b) then -mag else mag

/-- m * 2^e against a natural number of units 2^u. -/
def cmpUnits (m : Nat) (e : Int) (x : Nat) (u : Int) : Ordering :=
  let base := min e u
  compare (m * 2 ^ (e - base).toNat) (x * 2 ^ (u - base).toNat)

/-- The code L nearest to a magnitude, ties to even, saturating (R27). -/
def lgNearest (m : Nat) (e : Int) : Nat :=
  let l := ((List.range 31).filter fun k => cmpUnits m e (lgMag k + lgMag (k + 1)) (-21) == .gt).length
  if l < 31 && l % 2 == 1 && cmpUnits m e (lgMag l + lgMag (l + 1)) (-21) == .eq then l + 1 else l

/-- The LG6 byte of x divided by a block scale (R27). -/
def lgQuant (scale : Nat) (v : FVal) : Nat :=
  match v with
  | .nan | .inf _ => 0
  | .fin n m e => (if n then 32 else 0) + (if m = 0 then 0 else lgNearest m (e + 127 - scale))

/-- The value of an LG6 byte under a block scale (R145). -/
def lgValue (scale b : Nat) : FVal :=
  if scale = 255 then .nan
  else .fin (lgS b) (lgMag (lgL b)) ((scale : Int) - 127 - 20)

/-! ## MX (R21 to R24) -/

/-- An element of M8 or M4 (R24), as a signed integer: `f` is 6 or 2 and the clamp 127 or 7. -/
def mxQuant (f : Nat) (clamp : Int) (scale : Nat) (v : FVal) : Int :=
  match v with
  | .nan | .inf _ => 0
  | .fin n m e =>
    let r : Int := rneAt m (e + 127 - scale + f) 0
    if n then max (-clamp) (-r) else min clamp r

/-- Whether a block holds a NaN or an infinity. -/
def blockBad (vs : List FVal) : Bool := vs.any fun v => match v with
  | .nan | .inf _ => true
  | .fin .. => false

/-- The derived block scale (R24 with 127, R27 with 125). -/
def blockScale (offset : Int) (vs : List FVal) : Nat :=
  if blockBad vs then 255
  else
    let logs := vs.filterMap fun v => match v with
      | .fin _ m e => if m = 0 then none else some (floorLog2 m e)
      | .nan | .inf _ => none
    match logs with
    | [] => 0
    | l :: ls => (max 1 (min 254 (ls.foldl max l + offset))).toNat

/-! ## GS8 (R30, R31) -/

/-- The value of a GS8 byte; none when reserved. -/
def gs8Value (b : Nat) : Option FVal :=
  let e := b / 8
  if e = 31 then none
  else if e = 0 then some (.fin false 0 0)
  else some (.fin false (8 + b % 8) ((e : Int) - 18))

/-- The GS8 byte nearest to a value (R31). -/
def gs8Round (v : FVal) : Nat :=
  match v with
  | .nan | .inf _ => 0
  | .fin neg m e =>
    if m = 0 || neg then 0
    else
      let l := floorLog2 m e
      if l < -14 then (if cmpUnits m e 1 (-15) == .gt then 0x08 else 0)
      else
        let r := rneAt m e (l - 3)
        let x := (l + 15) * 8 + ((r : Int) - 8)
        if 0xF7 < x then 0xF7 else x.toNat

end Sys2Proof.Machine
end

