-- ==== Sys2Proof/Machine/Records.lean ====
section
/-! DEFINITION. Device records: their layout, the event ring, the backlog and the kept copy (23 R400 to R403, R409). -/
namespace Sys2Proof.Machine
open Sys2Proof

/-- A 64-byte record from fields (offset, width in bytes, value); unlisted bytes are zero (R409). -/
def recordBytes (fields : List (Nat × Nat × Nat)) : List Byte :=
  fields.foldl (fun bs (o, w, v) => putAt bs o (leBytes w v)) (List.replicate 64 0)

/-- No slot has booted: of the host port only the boot registers and the flash window answer (R416). -/
def State.recovery (s : State) : Bool := s.bar0.bootStatus.toNat % 4 == 2

/-- What the host does to the device, unless it is in recovery (R416). -/
def State.fromHost (s : State) (r : State) : Host.Outcome State Fault Refusal := .next (if s.recovery then s else r)

/-- Records in the event ring that the host has not consumed. -/
def State.evUsed (s : State) : Nat := s.evTail - s.bar0.eventHead.toNat

/-- Puts one record into the event ring of host memory (R400). -/
def State.ringRecord (s : State) (r : DevRec) : State :=
  { s with host := s.host.write (s.cfg.evBase + 64 * (s.evTail % 2 ^ s.cfg.evLog)) r.bytes
           evTail := s.evTail + 1, msix := s.msix + 1, msixSince := if s.msix = 0 then s.now else s.msixSince }

/-- Whether the event ring has room (R403). -/
def State.evRoom (s : State) : Bool := s.cfg.placed && s.evUsed < 2 ^ s.cfg.evLog

/-- A record goes to an area of `n` records in HBM, to the place that its number gives it (R403, log 71). -/
def State.hbmRecord (s : State) (base n : Nat) (r : DevRec) : State :=
  if s.cfg.placed then { s with mem := s.mem.write (base + 64 * (r.seq % n)) r.bytes } else s

/-- The areas of R406 for the latest records, and for those that wait for the event ring. -/
def keptCap : Nat := 65536
def backlogCap : Nat := 2 ^ 20

/-- A record waits behind the backlog (R403). -/
def State.queueRecord (s : State) (r : DevRec) : State :=
  { s with backlog := s.backlog ++ [r] }.hbmRecord s.cfg.backlogBase backlogCap r

/-- Moves records of the backlog into the ring while there is room, at most `fuel`. -/
def State.drainBacklog : Nat → State → State
  | 0, s => s
  | n + 1, s =>
    match s.backlog with
    | [] => s
    | r :: rs => if s.evRoom then drainBacklog n ({ s with backlog := rs }.ringRecord r) else s

/-- Writes a device record: numbered, kept, into the ring or behind the backlog (R403). -/
def State.emit (s : State) (type : Nat) (fields : List (Nat × Nat × Nat)) : State :=
  let seq := s.lastDev + 1
  let r : DevRec := ⟨seq, recordBytes ((0, 8, seq) :: (8, 4, type) :: fields)⟩
  let kept := s.kept ++ [r]
  let s := { s with lastDev := seq, kept := kept.drop (kept.length - keptCap) }.hbmRecord s.cfg.keptBase keptCap r
  if s.backlog.isEmpty && s.evRoom then s.ringRecord r else s.queueRecord r

/-- Something that core `c` sent is received at an interface on the probe paths from level `l` upward (09 R228, R229). -/
def State.receipt (s : State) (c : CoreId) (l : Nat) : State :=
  { s with receipts := s.receipts + 1, received := s.received.set (8 * c + l) (s.receipts + 1) }

/-- The lowest level whose probe path, from core `c`, holds an L2 slice, or an update sorter (R228, R362). -/
def sliceLevel (c : CoreId) (home : Nat) : Nat :=
  if home / 2 = clusterOf c then 2 else if home / 32 = dieOf c then 3 else 4
def sorterLevel (c : CoreId) (sorter : Nat) : Nat := if sorter / 4 = dieOf c then 3 else 4

/-- The context number of a core's work, or 0xFF. -/
def Core.ctxNum (q : Core) : Nat := (q.work.map (·.ctx)).getD 0xFF

/-- The generation of the context of a core's work (CTX_GEN, R190). -/
def State.ctxGen (s : State) (q : Core) : Word :=
  match q.work with
  | some w => ((s.ctxs.find w.ctx).map (·.gen)).getD 0
  | none => 0

/-- Fields that every work event carries (R409). -/
def workFields (sub : Nat) (c : CoreId) (w : WorkRef) : List (Nat × Nat × Nat) :=
  [(12, 1, w.ctx), (13, 1, sub), (14, 2, c), (16, 8, w.launch.toNat), (24, 4, w.node.getD 0xFFFFFFFF)]

/-- A work event with four values (R409). -/
def State.workEvent (s : State) (sub : Nat) (c : CoreId) (w : WorkRef) (flags : Nat) (x0 x1 x2 x3 : Word) : State :=
  s.emit 0x24 (workFields sub c w ++
    [(28, 1, flags), (32, 8, x0.toNat), (40, 8, x1.toNat), (48, 8, x2.toNat), (56, 8, x3.toNat)])

/-- A resource event (R409). -/
def State.resourceEvent (s : State) (sub ctx x : Nat) : State :=
  s.emit 0x26 [(12, 1, ctx), (13, 1, sub), (16, 8, x), (56, 8, s.now)]

/-- A REJECT record with its error and the rejected SEQ (R409). -/
def State.reject (s : State) (ctx err seq : Nat) (more : List (Nat × Nat × Nat)) : State :=
  s.emit 0x22 ([(12, 1, ctx), (13, 1, err), (16, 8, seq)] ++ more)

/-- Sends a page request, unless one for the page is outstanding (10 R241). -/
def State.pageRequest (s : State) (ctx : Nat) (va acc agent core : Nat) (malformed : Bool) : State :=
  let page := alignDown va 4096
  if s.pageReqs.any (fun r => r.ctx == ctx && r.page == page) then s
  else
    let gen := ((s.ctxs.find ctx).map (·.gen)).getD 0
    let s := s.emit 0x23 [(12, 1, ctx), (13, 1, acc), (14, 1, if malformed then 1 else 0), (15, 1, agent),
      (16, 8, gen.toNat), (24, 8, page), (32, 2, core)]
    { s with pageReqs := s.pageReqs ++ [⟨ctx, gen, page, acc, agent, core, malformed, s.lastDev⟩] }

end Sys2Proof.Machine
end

