-- ==== Sys2Proof/Machine/Descriptors.lean ====
section
/-! DEFINITION. The fields of the descriptors that engine operations copy: matrix operations, patterns and ternarising copies
(06_matrix_stream R159, R162, R176, R177). -/
namespace Sys2Proof.Machine
open Sys2Proof

/-! ## Matrix operations (R159, R162) -/

def mdByte (d : List Byte) (i : Nat) : Nat := leAt d i 1
def mdA (d : List Byte) : Nat := mdByte d 0 % 16
def mdB (d : List Byte) : Nat := mdByte d 0 / 16
def mdM (d : List Byte) : Nat := mdByte d 1 % 128 + 1
def mdKS (d : List Byte) : Nat := leAt d 2 2 % 2048
def mdSteps (d : List Byte) : Nat := leAt d 4 2
def mdN (d : List Byte) : Nat := mdByte d 6 % 128 + 1
def mdSparse (d : List Byte) : Nat := mdByte d 7 / 32 % 4
def mdPerm (d : List Byte) : Bool := mdByte d 7 / 16 % 2 == 1
def mdTrans (d : List Byte) : Bool := mdByte d 7 / 8 % 2 == 1
def mdStrict (d : List Byte) : Bool := mdByte d 7 / 4 % 2 == 1
def mdAcc (d : List Byte) : Nat := mdByte d 7 % 4
def mdMask (d : List Byte) : Nat := mdByte d 8
def mdHandle (d : List Byte) : HReg := BitVec.ofNat 4 (mdByte d 9)
def mdMreg (d : List Byte) : Nat := mdByte d 10 % 32
def mdMcnt (d : List Byte) : Nat := mdByte d 10 / 32 + 1
def mdW (d : List Byte) : Nat := leAt d 12 4 % 2 ^ 26
def mdWStep (d : List Byte) : Nat := leAt d 16 4 % 2 ^ 26
def mdGsOn (d : List Byte) : Bool := mdByte d 23 / 128 == 1
def mdGs (d : List Byte) : Nat := leAt d 20 4 % 2 ^ 26
def mdBs (d : List Byte) : Nat := leAt d 24 4 % 2 ^ 26
def mdChn (d : List Byte) : Nat := mdByte d 32
/-- The clusters of the chain, in listed order. -/
def mdList (d : List Byte) : List Nat := ((d.drop 33).take (mdChn d)).map BitVec.toNat

/-- Whether slice j takes part in a matrix operation that core-in-cluster `own` issues. -/
def takesPart (gang : Bool) (d : List Byte) (own j : Nat) : Bool := if gang then (mdMask d).testBit j else own == j

/-- Steps of an operation still to run, or none when it has failed. -/
def MxOp.running (op : MxOp) : Bool :=
  match op.kind with
  | .matrix _ d => op.fail.isNone && op.steps < mdSteps d
  | _ => true

/-! ## Patterns (R176) -/

def patRun (p : List Byte) : Nat := leAt p 8 2 + 1
def patCount (p : List Byte) (k : Nat) : Nat := leAt p (8 + 2 * k) 2 + 1
def patStride (p : List Byte) (k : Nat) : Word := sext64 32 (leAt p (12 + 4 * k) 4)
/-- Bytes that a pattern names. -/
def patTotal (p : List Byte) : Nat := patRun p * patCount p 1 * patCount p 2 * patCount p 3

/-- The generic address of byte `x` of a pattern's enumeration. -/
def patAddr (p : List Byte) (x : Nat) : Nat :=
  let r := x / patRun p
  let i1 := r % patCount p 1
  let i2 := r / patCount p 1 % patCount p 2
  let i3 := r / patCount p 1 / patCount p 2
  (BitVec.ofNat 64 (leAt p 0 8 + x % patRun p) + BitVec.ofNat 64 i1 * patStride p 1 + BitVec.ofNat 64 i2 * patStride p 2
    + BitVec.ofNat 64 i3 * patStride p 3).toNat

/-! ## Ternarising copies (R177) -/

def thGroups (d : List Byte) : Nat := leAt d 8 4
def thG (d : List Byte) : Nat := leAt d 12 2
def thT (d : List Byte) : Nat := leAt d 16 4
def thS (d : List Byte) : Nat := leAt d 20 4
def thStep (d : List Byte) : Nat := leAt d 24 4
def thBytes (d : List Byte) : Nat := (thG d + 4) / 5

end Sys2Proof.Machine
end

