-- ==== Sys2Proof/Machine/Memory.lean ====
section
/-! DEFINITION. The stores below the cores: the physical address map, the capacity tier, the L2 slices with their
Atoll data arrays, view lines, and reads and writes at home (13_program_line_compression, 14_memory_hierarchy). A
physical key is a PA, with the view of a view-space page in bits [53:52]. -/
namespace Sys2Proof.Machine
open Sys2Proof

/-! ## Physical address map (R304) -/

inductive Store where
  | hbm | lpddr | cxl | host | view | unbacked
  deriving DecidableEq, Repr

/-- R304. -/
def storeOf (pk : Nat) : Store :=
  let pa := pk % 2 ^ 52
  if pa < 0x4800000000 then .hbm
  else if 0x10000000000 ≤ pa && pa < 0x20000000000 then .lpddr
  else if 0x20000000000 ≤ pa && pa < 0x40000000000 then .cxl
  else if 0x80000000000 ≤ pa && pa < 0x100000000000 then .host
  else if 0xF000000000000 ≤ pa then .view
  else .unbacked

/-- Whether a physical key lies on the capacity tier. -/
def onTier (pk : Nat) : Bool :=
  match storeOf pk with
  | .lpddr | .cxl => true
  | .hbm | .host | .view | .unbacked => false

/-- A byte of a persistent region of the CXL device, which the capacity tier leaves out (R399). -/
def State.excluded (s : State) (pk : Nat) : Bool :=
  s.persist.any fun (base, n) => decide (base ≤ pk % 2 ^ 52) && decide (pk % 2 ^ 52 < base + n)

/-- Whether a range of physical addresses meets such a region. -/
def State.meetsPersist (s : State) (a n : Nat) : Bool :=
  s.persist.any fun (base, k) => decide (a < base + k) && decide (base < a + n)

/-- Whether a physical key names a line of the capacity tier (R304, R399). -/
def State.tiered (s : State) (pk : Nat) : Bool := onTier pk && !s.excluded pk

/-- The host address behind a PA of the host window (log 24). -/
def hostAddr (pa : Nat) : Nat := pa - 0x80000000000

/-- View of a physical key: 0 plain, 1 to 3 for V0 to V2 (R306). -/
def viewOf (pk : Nat) : Nat := pk / 2 ^ 52 % 4
/-- View region number of a view-space key (R304). -/
def viewRegion (pk : Nat) : Nat := pk / 2 ^ 36 % 2 ^ 12
def viewOffset (pk : Nat) : Nat := pk % 2 ^ 36

/-! ## CRC-32C and the encodings of tier lines (R295, R296) -/

def crcByte (c : BitVec 32) (b : Byte) : BitVec 32 :=
  (List.range 8).foldl (fun c _ => if c.getLsbD 0 then (c >>> 1) ^^^ 0x82F63B78#32 else c >>> 1)
    (c ^^^ b.setWidth 32)

/-- CRC-32C (R296). -/
def crc32c (bs : List Byte) : BitVec 32 := ~~~ bs.foldl crcByte 0xFFFFFFFF#32

/-- The elements of a line, `ew` bytes each. -/
def lineElems (ew : Nat) (bs : List Byte) : List Nat :=
  (List.range (bs.length / ew)).map fun i => leAt bs (ew * i) ew

/-- Whether every delta from element 0 fits `dw` bytes as a signed value (R295). -/
def deltasFit (ew dw : Nat) (bs : List Byte) : Bool :=
  let base := leAt bs 0 ew
  (lineElems ew bs).all fun x =>
    let d := (BitVec.ofInt (8 * ew) ((x : Int) - base)).toInt
    decide (-(2 ^ (8 * dw - 1)) ≤ d) && decide (d < 2 ^ (8 * dw - 1))

/-- The first encoding in code order that represents a line (R295). -/
def encodingOf (bs : List Byte) : Nat :=
  if bs.all (· == 0) then 0
  else if (lineElems 8 bs).all (· == leAt bs 0 8) then 1
  else if deltasFit 8 1 bs then 2
  else if deltasFit 4 1 bs then 3
  else if deltasFit 8 2 bs then 4
  else if deltasFit 2 1 bs then 5
  else if deltasFit 4 2 bs then 6
  else 7

/-- Payload sectors of an encoding (R295). -/
def encSectors (enc : Nat) : Nat := [0, 1, 1, 2, 2, 3, 3].getD enc 4

/-- Element bytes and delta bytes of the B encodings (R295). -/
def encShape : Nat → Option (Nat × Nat)
  | 2 => some (8, 1)
  | 3 => some (4, 1)
  | 4 => some (8, 2)
  | 5 => some (2, 1)
  | 6 => some (4, 2)
  | _ => none

/-- Bytes of a payload before its padding (R295). -/
def encBytes (enc : Nat) : Nat :=
  match encShape enc with
  | some (ew, dw) => ew + dw * (128 / ew)
  | none => if enc = 0 then 0 else if enc = 1 then 8 else 128

/-- The payload of a line under an encoding: the base, then the deltas in element order, little-endian, padded with zero
bytes to whole sectors (R295). -/
def encPayload (enc : Nat) (bs : List Byte) : List Byte :=
  padTo (32 * encSectors enc) (match encShape enc with
    | some (ew, dw) =>
      let base := leAt bs 0 ew
      bs.take ew ++ (lineElems ew bs).flatMap fun x => leBytes dw ((x + 2 ^ (8 * ew) - base) % 2 ^ (8 * dw))
    | none => bs.take (encBytes enc))

/-- The line that a payload stands for (R295). -/
def decPayload (enc : Nat) (p : List Byte) : List Byte :=
  match encShape enc with
  | some (ew, dw) =>
    let base := leAt p 0 ew
    (List.range (128 / ew)).flatMap fun i =>
      leBytes ew ((base + ((BitVec.ofNat (8 * dw) (leAt p (ew + dw * i) dw)).signExtend (8 * ew)).toNat) % 2 ^ (8 * ew))
  | none =>
    if enc = 0 then List.replicate 128 0
    else if enc = 1 then (List.replicate 16 (padTo 8 p)).flatten
    else padTo 128 p

/-- Tier channel of a PA (R406). -/
def tierChannel (pa : Nat) : Nat := (match storeOf pa with | .cxl => 8 | _ => 0) + bitsOf pa 8 3

/-- A line's tier tag; an unlisted one is as DEV_CONFIG sets it (R418). -/
def State.tierTag (s : State) (line : Nat) : TierTag :=
  s.tierTags.get line
    { check := crc32c (List.replicate 128 0), alloc := BitVec.ofNat 3 (s.cfg.alloc.get (tierChannel (128 * line)) 0) }

/-- The 64-bit tag as DIAG_READ delivers it (R296). -/
def TierTag.word (t : TierTag) : Nat :=
  t.check.toNat * 2 ^ 32 + t.enc.toNat * 2 ^ 29 + t.alloc.toNat * 2 ^ 26 + (if t.ovf then 2 ^ 25 else 0)
    + (if t.poison then 2 ^ 24 else 0) + t.optr % 2 ^ 24

/-- Overflow slots of a channel that are in use, and the pool's size (R320, R406). -/
def State.slotsUsed (s : State) (ch : Nat) : List Nat := s.pools.get ch []
def State.poolSize (s : State) (ch : Nat) : Nat := (s.cfg.pools.get ch (0, 0)).2

/-- The lowest number below `n` that is not in a list. -/
def lowestFree (used : List Nat) (n : Nat) : Option Nat := (List.range n).find? fun i => !used.contains i

/-- A line of the tier as its stored payload gives it (R295, R319). -/
def State.tierLine (s : State) (line : Nat) : List Byte :=
  decPayload (s.tierTag line).enc.toNat (s.tier.get line [])

/-- The tests of a tier read (R297). -/
def State.tierMalformed (s : State) (line : Nat) : Bool :=
  let t := s.tierTag line
  decide (4 < t.alloc.toNat) || (!t.ovf && decide (t.alloc.toNat < encSectors t.enc.toNat))
    || ((s.tier.get line []).drop (encBytes t.enc.toNat)).any (· != 0) || t.check != crc32c (s.tierLine line)

/-- A home access of a line is poisoned (R250): on the tier by its tag, or because it is malformed and no refetch gives
other bytes (R297). -/
def State.poisoned (s : State) (line : Nat) : Bool :=
  if s.tiered (128 * line) then (s.tierTag line).poison || s.tierMalformed line else s.poison.contains line

/-- Poison, or its end, for a line at home (R250, R296). -/
def State.setPoison (s : State) (line : Nat) (bad : Bool) : State :=
  if s.tiered (128 * line) then
    if (s.tierTag line).poison == bad then s
    else { s with tierTags := s.tierTags.set line { s.tierTag line with poison := bad } }
  else { s with poison := if bad then addNew s.poison line else s.poison.filter (· != line) }

/-- What a tier write does: the payload is stored, with its tag and slot; none when it needs a slot and the pool is empty
(R295, R296, R320). -/
def State.tierAccept (s : State) (line : Nat) (bytes : List Byte) : Option State :=
  let t := s.tierTag line
  let ch := tierChannel (128 * line)
  let enc := encodingOf bytes
  let t' := { t with check := crc32c bytes, enc := BitVec.ofNat 3 enc }
  let s := { s with tier := if enc = 0 then s.tier.erase line else s.tier.set line (encPayload enc bytes) }
  if encSectors enc ≤ t.alloc.toNat then
    some { s with
      tierTags := s.tierTags.set line { t' with ovf := false, optr := 0 }
      pools := if t.ovf then s.pools.set ch ((s.slotsUsed ch).erase t.optr) else s.pools }
  else if t.ovf then some { s with tierTags := s.tierTags.set line t' }
  else
    match lowestFree (s.slotsUsed ch) (s.poolSize ch) with
    | none => none
    | some i =>
      let used := i :: s.slotsUsed ch
      let s' := { s with tierTags := s.tierTags.set line { t' with ovf := true, optr := i }
                         pools := s.pools.set ch used }
      let free := s.poolSize ch - used.length
      some (if 16 * free < s.poolSize ch && s.poolSize ch ≤ 16 * (free + 1)
        then s'.resourceEvent 3 0xFF ch else s')

/-! ## View regions (R316, R317) -/

structure ViewGeom where
  rows : Nat
  cols : Nat
  z : Nat
  /-- HCTL: the stack whose controller keeps the cross-view directory. -/
  ctl : Nat
  base : Nat
  deriving DecidableEq, Repr

/-- The view-table entry of a region: none where VAL is 0 or a reserved field is in use (R316). -/
def viewEntry (e : Nat) : Option ViewGeom :=
  let rt := bitsOf e 88 20
  let ct := bitsOf e 68 20
  let esz := bitsOf e 66 2
  if e % 2 = 0 || bitsOf e 108 20 != 0 || bitsOf e 64 2 != 0 || bitsOf e 52 9 != 0 || bitsOf e 1 20 != 0 || esz = 3
    || rt = 0 || ct = 0
  then none
  else some ⟨32 * rt, 32 * ct, 2 ^ esz, bitsOf e 61 3, bitsOf e 21 31 * 2 ^ 21⟩

def ViewGeom.bytes (g : ViewGeom) : Nat := g.rows * g.cols * g.z

/-- The array byte of a view offset (R317). Views are numbered as the PTE field. -/
def ViewGeom.arrayByte (g : ViewGeom) (view o : Nat) : Nat :=
  let e := o / g.z
  let b := o % g.z
  let (r, c) :=
    if view = 2 then (e % g.rows, e / g.rows)
    else if view = 3 then
      let t := e / 1024
      let i := e % 1024
      (32 * (t / (g.cols / 32)) + i / 32, 32 * (t % (g.cols / 32)) + i % 32)
    else (e / g.cols, e % g.cols)
  g.base + (r * g.cols + c) * g.z + b

/-! ## Line placement (R220, R311) -/

/-- The hash of PlaceSlice: the product y (R220). -/
def placeHash (va : Nat) : Nat :=
  let l := va % 2 ^ 56 / 128
  let x := (l ^^^ (l / 2 ^ 17) ^^^ (l / 2 ^ 34)) % 2 ^ 32
  x * 0x9E3779B1 % 2 ^ 32

/-- PlaceSlice over the slices of a subset, ascending (R220). -/
def placeSlice (va : Nat) (sub : List Nat) : Nat := sub.getD (placeHash va * sub.length / 2 ^ 32) 0

/-- All 128 slices. -/
def allSlices : List Nat := List.range 128

/-- The slices of subset `n` of a context; an empty subset acts as all 128 (R311). -/
def Ctx.subset (x : Ctx) (n : Nat) : List Nat :=
  let m := x.subsets.get n 0
  let l := allSlices.filter fun i => m.getLsbD i
  if l.isEmpty then allSlices else l

/-! ## Page-table entries (R306) -/

/-- Field [lo + n - 1 : lo] of an entry. -/
def pteA (e : Nat) : Bool := bitsOf e 63 1 == 1
def pteLparg (e : Nat) : Nat := bitsOf e 56 7
def pteD (e : Nat) : Bool := bitsOf e 55 1 == 1
def pteFrame (e : Nat) : Nat := bitsOf e 12 40 * 4096
def pteLpm (e : Nat) : Nat := bitsOf e 10 2
def pteView (e : Nat) : Nat := bitsOf e 8 2
def pteC64 (e : Nat) : Bool := bitsOf e 7 1 == 1
def pteDdis (e : Nat) : Bool := bitsOf e 6 1 == 1
def pteStb (e : Nat) : Bool := bitsOf e 5 1 == 1
def pteX (e : Nat) : Bool := bitsOf e 4 1 == 1
def pteU (e : Nat) : Bool := bitsOf e 3 1 == 1
def pteW (e : Nat) : Bool := bitsOf e 2 1 == 1
def pteLeaf (e : Nat) : Bool := bitsOf e 1 1 == 1
def pteP (e : Nat) : Bool := e % 2 == 1

/-- Home slice of a line (R311); an unassigned leaf takes the hash of 00. -/
def State.homeOf (s : State) (ctx va leaf : Nat) : Nat :=
  match pteLpm leaf with
  | 1 => placeSlice va (((s.ctxs.find ctx).map fun x => x.subset (pteLparg leaf % 16)).getD allSlices)
  | 2 => pteLparg leaf
  | _ => placeSlice va allSlices

/-- The home slice of a line, by the latest translation of its frame (R311). -/
def State.lineHome (s : State) (line : Nat) : Option Nat :=
  (s.frames.find (line / 32)).map fun f => s.homeOf f.ctx (f.va + line % 32 * 128) f.leaf.toNat

/-- A slice is the home of a line by the latest translation of its frame, or by a cached one: two mappings of a frame may
give it two homes, with a copy in each (R311). -/
def State.homesAt (s : State) (h line : Nat) : Bool :=
  let by' := fun (t : TlbEntry) =>
    let k := alignDown (pteFrame t.leaf.toNat) t.size + 2 ^ 52 * pteView t.leaf.toNat
    decide (k ≤ 128 * line) && decide (128 * line < k + t.size) &&
      s.homeOf t.ctx (128 * line - k + t.va) t.leaf.toNat == h
  s.lineHome line == some h || (s.cores.any fun (_, q) => q.utlb.any by') || s.clusters.any fun (_, k) => k.tlb.any by'

/-! ## L2 slices (R311 to R314) -/

def State.slice (s : State) (h : Nat) : Slice := s.slices.get h {}
def State.setSlice (s : State) (h : Nat) (x : Slice) : State := { s with slices := s.slices.set h x }

/-- The tag and data entry of a line in a slice. -/
def State.l2At (s : State) (h line : Nat) : Option (L2Tag × L2Data) :=
  match (s.slice h).tags.find line with
  | none => none
  | some t => ((s.slice h).data.find t.dptr).map (t, ·)

/-- Set index of a line (R311). -/
def setOf (line : Nat) : Nat := (line % 4096) ^^^ (line / 4096 % 4096)

/-- Tags of a slice that share a line's set, the line's own left out. -/
def Slice.ways (x : Slice) (line : Nat) : SMap L2Tag := x.tags.filter fun (l, _) => l != line && setOf l == setOf line

/-- Release (R313): one reference fewer; a free entry is unlisted. -/
def Slice.release (x : Slice) (i : Nat) : Slice :=
  match x.data.find i with
  | none => x
  | some e => if e.ref ≤ 1 then { x with data := x.data.erase i }
    else { x with data := x.data.set i { e with ref := e.ref - 1 } }

/-- A free data entry of a slice's 32,768, the lowest. -/
def Slice.freeEntry (x : Slice) : Option Nat := lowestFree (x.data.map (·.1)) 32768

/-- The first entry, in index order, that a non-DD tag of a domain may share (R313), and how many 128-byte compares
failed on the way. -/
def shareWith (h : BitVec 32) (dom : Nat) (bytes : List Byte) : SMap L2Data → Option Nat × Nat
  | [] => (none, 0)
  | (i, e) :: r =>
    if e.hash == h && e.own == dom && !e.nsh && !e.pin && !e.psn then
      if e.bytes == bytes then (some i, 0)
      else
        let (o, n) := shareWith h dom bytes r
        (o, n + 1)
    else shareWith h dom bytes r

/-- Install (R313): the tag takes an entry that holds `bytes`. None when no entry is free. -/
def Slice.install (x : Slice) (line : Nat) (t : L2Tag) (bytes : List Byte) : Option Slice :=
  let x := match x.tags.find line with
    | some old => x.release old.dptr
    | none => x
  let h := crc32c bytes
  let (hit, coll) := if t.dd then (none, 0) else shareWith h t.dom bytes x.data
  match hit with
  | some i =>
    let e := x.data.get i { bytes := bytes }
    some { x with
      tags := x.tags.set line { t with dptr := i, unh := false }
      data := x.data.set i { e with ref := e.ref + 1, own := t.dom, pin := e.pin || e.ref + 1 == 4095 }
      collision := x.collision + coll }
  | none =>
    match x.freeEntry with
    | none => none
    | some i => some { x with
        tags := x.tags.set line { t with dptr := i, unh := false }
        data := x.data.set i { bytes := bytes, hash := h, ref := 1, own := t.dom, nsh := t.dd }
        collision := x.collision + coll }

/-- Write (R313): un-shares first, then merges bytes (position in the line, byte). `drt`: the line now differs from
memory. None when a private entry is needed and none is free. -/
def Slice.write (x : Slice) (line : Nat) (drt : Bool) (upd : List Byte → List Byte) : Option Slice :=
  match x.tags.find line with
  | none => none
  | some t =>
    match x.data.find t.dptr with
    | none => none
    | some e =>
      let t' := { t with drt := t.drt || drt, unh := true }
      if e.ref ≤ 1 then
        some { x with tags := x.tags.set line t', data := x.data.set t.dptr { e with bytes := upd e.bytes } }
      else
        match x.freeEntry with
        | none => none
        | some i => some { x with
            tags := x.tags.set line { t' with dptr := i }
            data := (x.data.set t.dptr { e with ref := e.ref - 1 }).set i
              { bytes := upd e.bytes, hash := e.hash, ref := 1, own := t.dom, nsh := e.nsh } }

/-- Install of a tag's own bytes, where it has been written in place (R313). -/
def Slice.rehash (x : Slice) (line : Nat) : Option Slice :=
  match x.tags.find line with
  | none => some x
  | some t =>
    if !t.unh then some x
    else (x.data.find t.dptr).bind fun e => x.install line t e.bytes

/-- Bytes of one line reach its tag (R313): a whole line of an L1 write-back or an engine is one Install; any other write
is one Write, and where it is an L1 write-back, a tag that was written in place before is hashed again (log 63). -/
def Slice.merge (x : Slice) (line : Nat) (drt whole wb : Bool) (upd : List Byte → List Byte) : Option Slice :=
  match x.tags.find line with
  | none => none
  | some t =>
    if whole then x.install line { t with drt := t.drt || drt } (upd (List.replicate 128 0))
    else (x.write line drt upd).bind fun y => if wb && t.unh then y.rehash line else some y

/-- Invalidates a tag. -/
def Slice.drop (x : Slice) (line : Nat) : Slice :=
  match x.tags.find line with
  | none => x
  | some t => let x := x.release t.dptr; { x with tags := x.tags.erase line }

/-! ## Below L2 -/

/-- Puts bytes over a list at (position, byte). -/
def overlay (bs : List Byte) (cells : List (Nat × Byte)) : List Byte :=
  cells.foldl (fun bs (i, b) => updateAt bs i fun _ => b) bs

/-- The byte of memory under a plain key: HBM and persistent regions hold bytes, the tier payloads, the host window the host's
memory. -/
def State.plainByte (s : State) (pa : Nat) : Byte :=
  match storeOf pa with
  | .host => s.host.get (hostAddr pa)
  | .lpddr | .cxl => if s.excluded pa then s.safeCxl.get pa else if (s.tier.find (pa / 128)).isNone then 0 else (s.tierLine (pa / 128)).getD (pa % 128) 0
  | .hbm | .view | .unbacked => s.mem.get pa

/-- The slice that holds a tag of a line, by number. -/
def State.slotOfLine (s : State) (line : Nat) : Option Nat :=
  (s.slices.find? fun (_, x) => (x.tags.find line).isSome).map (·.1)

/-- A byte of device memory as an agent that knows only its PA reads it. -/
def State.paByte (s : State) (pa : Nat) : Byte :=
  match s.slotOfLine (pa / 128) with
  | none => s.plainByte pa
  | some h =>
    match s.l2At h (pa / 128) with
    | some (_, e) => e.bytes.getD (pa % 128) 0
    | none => s.plainByte pa

def State.paRead (s : State) (pa n : Nat) : List Byte := (List.range n).map fun i => s.paByte (pa + i)
/-- A little-endian number of device memory. -/
def State.paNum (s : State) (pa n : Nat) : Nat := ofLe (s.paRead pa n)

/-- The geometry of a view region, from the view table (R316). -/
def State.viewGeom (s : State) (region : Nat) : Option ViewGeom :=
  viewEntry (s.paNum (s.cfg.viewTable + 16 * region) 16)

/-- The byte below L2 of a view key: the array's byte, under the unsettled writes of the same view (R279, R317). -/
def State.viewByte (s : State) (pk : Nat) : Byte :=
  let mine := s.viewPend.filter fun w => w.cells.any (·.1 == pk)
  match mine.getLast? with
  | some w => w.cells.get pk
  | none =>
    match s.viewGeom (viewRegion pk) with
    | none => 0
    | some g => s.mem.get (g.arrayByte (viewOf pk) (viewOffset pk))

def State.belowByte (s : State) (pk : Nat) : Byte := if viewOf pk = 0 then s.plainByte pk else s.viewByte pk
def State.belowLine (s : State) (line : Nat) : List Byte := (List.range 128).map fun i => s.belowByte (128 * line + i)

/-! ## Reads and writes at home -/

/-- A byte read at a home slice (R262). -/
def State.homeByte (s : State) (h pk : Nat) : Byte :=
  match s.l2At h (pk / 128) with
  | some (_, e) => e.bytes.getD (pk % 128) 0
  | none => s.belowByte pk

def State.homeLine (s : State) (h line : Nat) : List Byte := (List.range 128).map fun i => s.homeByte h (128 * line + i)

/-- A line is migrating: writes to it wait at home (R319). -/
def State.migrating (s : State) (line : Nat) : Bool :=
  s.migrations.any fun m => m.src ≤ 128 * line && 128 * line < m.src + m.size

/-- What a write that has been performed does to its line's poison (R250). -/
def State.markPoison (s : State) (line : Nat) (mark : Option Bool) : State := (mark.map (s.setPoison line)).getD s

/-- A write clears poison only when it covers all 128 bytes (R250). -/
def State.clearPoison (s : State) (line : Nat) (cells : Mem) : State :=
  if cells.length = 128 then s.setPoison line false else s

/-- Whether an update region that is registered holds a line (R312). -/
def Region.holdsLine (g : Region) (line : Nat) : Bool :=
  g.pins.any fun t =>
    let k := alignDown (pteFrame t.leaf.toNat) t.size + 2 ^ 52 * pteView t.leaf.toNat
    let va := 128 * line - k + t.va
    decide (k ≤ 128 * line) && decide (128 * line < k + t.size) && decide (g.base < va + 128) && decide (va < g.base + g.len)

def State.regionLine (s : State) (line : Nat) : Bool := s.regions.any fun (_, g) => g.holdsLine line

/-- The tag that a line takes when it is installed; a frame that no agent has translated has a free domain (R312, log
39). -/
def State.newTag (s : State) (line : Nat) : L2Tag :=
  let x := s.frames.find (line / 32)
  let pk := 128 * line
  { view := viewOf pk
    dom := (x.map (·.ctx)).getD (Config.lineDomain line % 16)
    dd := (x.any fun f => pteDdis f.leaf.toNat) || viewOf pk != 0 || s.tiered pk || s.regionLine line }

/-- Tags age when a line of their set is installed. -/
def Slice.aged (x : Slice) (line : Nat) : Slice :=
  { x with tags := x.tags.mapVals fun l t => if setOf l == setOf line then { t with age := min 7 (t.age + 1) } else t }

/-- Invalidates, in every slice, the tags that a test picks. -/
def State.l2DropAll (s : State) (p : Nat → L2Tag → Bool) : State :=
  { s with slices := s.slices.mapVals fun _ x =>
      x.tags.foldl (fun x (line, t) => if p line t then x.drop line else x) x }

/-- Entries of a controller's cross-view directory (R318, log 68). -/
def viewDirCap : Nat := 65536

/-- A view line enters its controller's directory; where that is full, the line of its oldest entry leaves L2 (R318). -/
def State.dirEnter (s : State) (line : Nat) : State :=
  if viewOf (128 * line) = 0 then s
  else
    let ctl := fun (l : Nat) => (s.viewGeom (viewRegion (128 * l))).map (·.ctl)
    let live := s.viewDir.filter fun l => l != line && (s.slotOfLine l).isSome
    let mine := live.filter fun l => ctl l == ctl line
    let old := mine.take (mine.length + 1 - viewDirCap)
    ({ s with viewDir := (live.filter (!old.contains ·)) ++ [line] } : State).l2DropAll fun l _ => old.contains l

/-- A line takes a tag of a slice with the bytes that it is to hold: none where the set or the data array has no room
(R313). -/
def State.installLine (s : State) (h line : Nat) (drt : Bool) (bytes : List Byte) : Option State :=
  let x := s.slice h
  if 16 ≤ (x.ways line).length then none
  else ((x.aged line).install line { s.newTag line with drt := drt } bytes).map fun x => (s.setSlice h x).dirEnter line

/-- A line comes from memory into a slice: none where it stands there, may not lie there, or finds no room (R313). -/
def State.l2Bring (s : State) (h line : Nat) : Option State :=
  let st := storeOf (128 * line)
  if (s.l2At h line).isSome || st == .host || st == .unbacked || 128 ≤ h then none
  else
    (s.installLine h line false (s.belowLine line)).map fun s' =>
      let x := s'.slice h
      let at_ := (x.tags.find line).map (·.dptr)
      let mark := fun (i : Nat) (e : L2Data) => if some i == at_ && s.poisoned line then { e with psn := true } else e
      s'.setSlice h { x with data := x.data.mapVals mark }

/-- What a write that has been accepted below does at its slice: its tag's entry changes, or, where it has none, a whole
line of an L1 write-back or an engine is installed (R313). None: it must wait for room. -/
def State.sliceWrite (s : State) (h line : Nat) (drt : Bool) (via : Via) (whole : Bool) (up : List Byte → List Byte) :
    Option State :=
  match s.l2At h line with
  | some _ => ((s.slice h).merge line drt whole (via == .l1) up).map fun x => s.setSlice h x
  | none => if whole then s.installLine h line drt (up (List.replicate 128 0)) else some s

/-- What a line held, or a tile's L1 holds of it, is kept for fetches while a launch is live (02 R61). -/
def State.keepCode (s : State) (line : Nat) (bytes : List Byte) : State :=
  if s.launches.all (·.reported) then s else { s with past := s.past ++ [(line, bytes)] }

/-- A line's bytes before a write at home are kept for fetches. -/
def State.keepPast (s : State) (h line : Nat) : State := s.keepCode line (s.homeLine h line)

/-- The package with the memory of a launch's first word, for fetches (R61). -/
def State.imageOf (s : State) (l : Launch) : State :=
  { s with mem := l.img, slices := l.imgL2, tier := l.imgTier, tierTags := l.imgTags, host := l.imgHost, viewPend := l.imgViews }

/-- Writes one line's bytes at its home, at once: none when the write must wait (R294, R298, R313, R318, R319). The
bytes lie in one line; their addresses are physical keys, in rising order. -/
def State.homeWriteNow (s : State) (core : Option CoreId) (h : Nat) (cells : Mem) (via : Via := .store) :
    Option State :=
  match cells with
  | [] => some s
  | (pk, _) :: _ =>
    let line := pk / 128
    let rel := cells.map fun (a, b) => (a % 128, b)
    let up := fun bs => overlay bs rel
    let whole := via != .store && cells.length == 128
    if s.migrating line then none
    else if viewOf pk != 0 then
      let s := s.keepPast h line
      ({ s with viewPend := s.viewPend ++ [⟨core, viewRegion pk, viewOf pk, cells⟩] } : State).sliceWrite h line false via
        whole up
    else
      match storeOf pk with
      | .host =>
        let s := s.keepPast h line
        some { s with host := s.host.writeCells (cells.map fun (a, b) => (hostAddr a, b)) }
      | .lpddr | .cxl =>
        if s.excluded pk then
          let s := (s.keepPast h line).clearPoison line cells
          some { s with safeCxl := s.safeCxl.writeCells cells }
        else
        -- a narrow write reads the stored line; one that is malformed stays poisoned (R294, R297)
        let s := s.setPoison line (s.poisoned line && cells.length != 128)
        match (s.keepPast h line).tierAccept line (up (s.tierLine line)) with
        | none => none
        | some s => s.sliceWrite h line false via whole up
      | .hbm | .view | .unbacked =>
        let s := (s.keepPast h line).clearPoison line cells
        match s.l2At h line, whole with
        | none, false => some { s with mem := s.mem.writeCells cells }
        | _, _ => s.sliceWrite h line true via whole up

/-- Whether a waiting write to the line of a key is queued at home. -/
def State.lineQueued (s : State) (line : Nat) : Bool := s.homeQ.any fun w => w.cells.any (·.1 / 128 == line)

/-- A write to a line of the tier needs an overflow slot, and its channel's pool is empty (R320). -/
def State.noSlot (s : State) (cells : Mem) : Bool :=
  match cells with
  | [] => false
  | (pk, _) :: _ => s.tiered pk && !s.migrating (pk / 128) &&
      (s.tierAccept (pk / 128) (overlay (s.tierLine (pk / 128)) (cells.map fun (a, b) => (a % 128, b)))).isNone

/-- A write waits at home, in front of `r`; the host is told, once, that its pool is empty (R320). -/
def State.waitHome (s : State) (w : HomeWrite) (put : HomeWrite → List HomeWrite) : State :=
  let tell := !w.told && s.noSlot w.cells
  let s := { s with homeQ := put { w with told := w.told || tell } }
  if tell then s.resourceEvent 4 0xFF (tierChannel ((w.cells.head?.map (·.1)).getD 0)) else s

/-- A write of one line's bytes reaches home: performed, or queued behind what it must wait for (R298, R320). -/
def State.homeWrite (s : State) (core : Option CoreId) (h : Nat) (cells : Mem) (via : Via := .store)
    (job : Option JobRef := none) (mark : Option Bool := none) : State :=
  match cells with
  | [] => s
  | (pk, _) :: _ =>
    let w : HomeWrite := { core := core, home := h, cells := cells, via := via, job := job, mark := mark }
    if s.lineQueued (pk / 128) then { s with homeQ := s.homeQ ++ [w] }
    else
      match s.homeWriteNow core h cells via with
      | some s' => s'.markPoison (pk / 128) mark
      | none => s.waitHome w fun w => s.homeQ ++ [w]

/-- The first write that waits at home for a line is performed, unless it has to wait on. A tier line's waiting writes may
be joined with the next one (R294): a free choice (log 57). -/
def State.retryWrite (s : State) (line : Nat) : State :=
  let mine := fun (w : HomeWrite) => w.cells.any (·.1 / 128 == line)
  match takeFirst mine s.homeQ with
  | none => s
  | some (w, r) =>
    let joined := match takeFirst mine r with
      | some (w2, r2) =>
        if s.tiered (128 * line) && !s.poisoned line && w.mark.isNone && w2.mark.isNone && w2.core == w.core && w2.home == w.home && w2.job == w.job && Config.joined s.tick line then
          some ({ w2 with host := if w.host = 0 then w2.host else w.host, cells := (w.cells.filter fun (a, _) => !w2.cells.any (·.1 == a)) ++ w2.cells }, r2)
        else none
      | none => none
    match joined with
    | some (w, r) => { s with homeQ := w :: r }
    | none =>
      match ({ s with homeQ := r } : State).homeWriteNow w.core w.home w.cells w.via with
      | none => s.waitHome w fun w => w :: r
      | some s =>
        let s := s.markPoison line w.mark
        match w.core with
        | some c => s.receipt c (sliceLevel c w.home)
        | none => s

/-- Cells of several lines, line by line. -/
def splitLines : Mem → List Mem
  | [] => []
  | (a, b) :: r =>
    match splitLines r with
    | ((a', b') :: l) :: ls => if a / 128 = a' / 128 then ((a, b) :: (a', b') :: l) :: ls
      else [(a, b)] :: ((a', b') :: l) :: ls
    | ls => [(a, b)] :: ls

/-- An agent that knows only the PA writes device memory. -/
def State.paWrite (s : State) (pa : Nat) (bytes : List Byte) : State :=
  let cells : Mem := (rangeFrom pa bytes.length).zip bytes
  (splitLines cells).foldl (fun s c =>
    match c with
    | [] => s
    | (a, _) :: _ => s.homeWrite none ((s.slotOfLine (a / 128)).getD 0) c) s

/-- Writes one tag's line back to memory, when it is dirty (R314). -/
def State.l2WriteBack (s : State) (h line : Nat) : State :=
  match s.l2At h line with
  | none => s
  | some (t, e) =>
    if t.drt then
      { s with mem := s.mem.write (128 * line) e.bytes }.setSlice h
        { s.slice h with tags := (s.slice h).tags.set line { t with drt := false } }
    else s

/-- Hashes a tag that was written in place again (R313). -/
def State.rehash (s : State) (h line : Nat) : State :=
  match (s.slice h).rehash line with
  | none => s
  | some x => s.setSlice h x

/-- Writes a line back and invalidates its tag; it is hashed again first (R313). -/
def State.l2Evict (s : State) (h line : Nat) : State :=
  let s := (s.l2WriteBack h line).rehash h line
  s.setSlice h ((s.slice h).drop line)

/-- Writes back and invalidates every tag that a test picks, in every slice. -/
def State.l2EvictAll (s : State) (p : Nat → L2Tag → Bool) : State :=
  s.slices.foldl (fun s (h, x) => x.tags.foldl (fun s (line, t) => if p line t then s.l2Evict h line else s) s) s

/-! ## Settling view writes (R279, R318) -/

/-- The elements of one write with an element size, as runs of array bytes: a partial element is applied whole. -/
def ViewGeom.arrayCells (g : ViewGeom) (w : ViewWrite) : Mem :=
  w.cells.map fun (pk, b) => (g.arrayByte w.view (viewOffset pk), b)

/-- The cross-view step of one write: into HBM, then every overlapping line of the other views leaves L2. -/
def State.settleOne (s : State) (w : ViewWrite) : State :=
  match s.viewGeom w.region with
  | none => s
  | some g =>
    let cells := g.arrayCells w
    let elems := cells.map fun (a, _) => a / g.z
    let s := (cells.foldl (fun l (a, _) => addNew l (a / 128)) []).foldl (fun s line => s.keepCode line (s.belowLine line)) s
    let s := { s with mem := s.mem.writeCells cells }
    s.l2DropAll fun line _ =>
      let pk := 128 * line
      viewOf pk != 0 && viewRegion pk == w.region && viewOf pk != w.view &&
        (List.range 128).any fun i =>
          viewOffset pk + i < g.bytes && elems.contains (g.arrayByte (viewOf pk) (viewOffset pk + i) / g.z)

/-- Settles the oldest unsettled view write. -/
def State.settleView (s : State) : State :=
  match s.viewPend with
  | [] => s
  | w :: r => { s with viewPend := r }.settleOne w

/-- Settles every view write, oldest first. -/
def State.settleViews (s : State) : State :=
  s.viewPend.foldl (fun s _ => s.settleView) s

end Sys2Proof.Machine
end

