-- ==== Sys2Proof/Machine/Translate.lean ====
section
/-! DEFINITION. Generic addresses: apertures and shares (R301 to R303, R231), page tables and translation (R305 to
R309), line placement (R220, R311), and the checks of R101. -/
namespace Sys2Proof.Machine
open Sys2Proof

/-! ## Page tables (R305 to R307) -/

/-- Malformed (R307). -/
def pteMalformed (e lvl va : Nat) : Bool :=
  (pteLeaf e && decide (3 ≤ lvl))
    || (decide (1 ≤ lvl) && !pteLeaf e && (bitsOf e 2 10 != 0 || bitsOf e 52 12 != 0))
    || (pteLeaf e && lvl == 2 && bitsOf e 12 18 != 0)
    || (pteLeaf e && lvl == 1 && bitsOf e 12 9 != 0)
    || (pteC64 e && (lvl != 0 || bitsOf e 12 4 != bitsOf va 12 4))
    || bitsOf e 52 3 != 0
    || (pteLpm e == 1 && bitsOf e 60 3 != 0)

/-- Index of a VA at a level (R305). -/
def pteIndex (va lvl : Nat) : Nat := bitsOf va (12 + 9 * lvl) (if lvl = 4 then 8 else 9)

/-- Why a walk finds no leaf (R304, R307). -/
inductive Miss where
  | absent | malformed | unbacked
  deriving DecidableEq, Repr

/-- The malformed flag of a page request (R307). -/
def Miss.bad (m : Miss) : Bool := m == .malformed

/-- What an entry that has no further walk is missing, if anything. A table in a frame that does not exist is asked for as an
absent page is; of a leaf the frame itself does not exist (R304). -/
def missOf (e lvl va : Nat) : Option Miss :=
  if pteMalformed e lvl va then some .malformed
  else if !pteP e then some .absent
  else if storeOf (pteFrame e) == .unbacked then some (if lvl = 0 || pteLeaf e then .unbacked else .absent)
  else none

/-- What a walk finds: a leaf at the address of its entry, or a miss. -/
inductive Walk where
  | miss (why : Miss)
  | leaf (pte : Nat) (e : Nat) (lvl : Nat)
  deriving DecidableEq, Repr

/-- Walk from a table at level `lvl` (R307); `rd` gives the entry at an address. -/
def walkFrom (rd : Nat → Nat) (va : Nat) : Nat → Nat → Walk
  | 0, t =>
    let a := t + 8 * pteIndex va 0
    let e := rd a
    match missOf e 0 va with
    | some m => .miss m
    | none => .leaf a e 0
  | lvl + 1, t =>
    let a := t + 8 * pteIndex va (lvl + 1)
    let e := rd a
    match missOf e (lvl + 1) va with
    | some m => .miss m
    | none => if pteLeaf e then .leaf a e (lvl + 1) else walkFrom rd va lvl (pteFrame e)

/-- The non-leaf entries that a walk from a table passes, with where they lie. -/
def walkPath (rd : Nat → Nat) (va : Nat) : Nat → Nat → List (Nat × Nat)
  | 0, _ => []
  | lvl + 1, t =>
    let a := t + 8 * pteIndex va (lvl + 1)
    let e := rd a
    if (missOf e (lvl + 1) va).isSome || pteLeaf e then []
    else (a, e) :: walkPath rd va lvl (pteFrame e)

/-- One entry of the 16 of a 64 KiB page: the walked one when they agree, else any of them (R307, log 22). -/
def State.c64Entry (s : State) (pte e : Nat) : Nat :=
  let first := pte / 128 * 128
  let all := (List.range 16).map fun i => s.paNum (first + 8 * i) 8
  let core := fun x => x - bitsOf x 12 4 * 4096
  if all.all fun x => core x == core e then e
  else
    let x := all.getD (Config.c64Choice first % 16) e
    if pteP x && pteC64 x then x else e

/-- A translation: the leaf, where it lies, and the virtual range that it maps. -/
structure Xlat where
  pte : Nat
  leaf : Nat
  base : Nat
  size : Nat
  deriving DecidableEq, Repr

/-- Walks the tables of a context, entries read by `rd` (R307). -/
def State.walkBy (s : State) (rd : Nat → Nat) (ctx va : Nat) : Except Miss Xlat :=
  match s.ctxs.find ctx with
  | none => .error .absent
  | some x =>
    match walkFrom rd va 4 x.root with
    | .miss m => .error m
    | .leaf pte e lvl =>
      if pteC64 e then .ok ⟨pte, s.c64Entry pte e, alignDown va 65536, 65536⟩
      else .ok ⟨pte, e, alignDown va (2 ^ (12 + 9 * lvl)), 2 ^ (12 + 9 * lvl)⟩

/-- The tables as memory holds them now. -/
def State.walk (s : State) (ctx va : Nat) : Except Miss Xlat := s.walkBy (fun a => s.paNum a 8) ctx va

/-- An entry as the walkers of a die read it: from the walk cache, or from memory (R308). -/
def State.walkEntry (s : State) (d ctx a : Nat) : Nat :=
  match (s.die d).walks.find? fun w => w.ctx == ctx && w.pa == a with
  | some w => w.e
  | none => s.paNum a 8

/-- A walk by a walker of a die (R308). -/
def State.walkIn (s : State) (d ctx va : Nat) : Except Miss Xlat := s.walkBy (s.walkEntry d ctx) ctx va

/-- Fills a die's walk cache of 256 entries with the non-leaf entries of a walk (R308). -/
def State.fillWalks (s : State) (d ctx va : Nat) : State :=
  match s.ctxs.find ctx with
  | none => s
  | some x =>
    let new := (walkPath (s.walkEntry d ctx) va 4 x.root).map fun (a, e) => (⟨ctx, a, e⟩ : WalkEntry)
    s.modDie d fun y => { y with
      walks := (new ++ y.walks.filter fun w => !(w.ctx == ctx && new.any (·.pa == w.pa))).take 256 }

/-- A translation that a list of entries holds for an address. -/
def tlbFind (l : List TlbEntry) (ctx va : Nat) : Option Xlat :=
  (l.find? fun t => t.ctx == ctx && t.va ≤ va && va < t.va + t.size).map fun t => ⟨t.pte, t.leaf.toNat, t.va, t.size⟩

/-- A translation as a core finds it: in its µTLB, in its cluster's second-level TLB, or by a walk (R308). -/
def State.look (s : State) (c : CoreId) (ctx va : Nat) : Except Miss Xlat :=
  match tlbFind (s.core c).utlb ctx va with
  | some x => .ok x
  | none =>
    match tlbFind (s.cluster (clusterOf c)).tlb ctx va with
    | some x => .ok x
    | none => s.walkIn (dieOf c) ctx va

/-- The physical key of an address under a translation. -/
def Xlat.key (x : Xlat) (va : Nat) : Nat := alignDown (pteFrame x.leaf) x.size + va % x.size + 2 ^ 52 * pteView x.leaf

/-- A page of a context is stable for a kernel, by its leaf as it now stands (R306, R309). -/
def State.pageStb (s : State) (ctx va : Nat) : Bool :=
  match s.walk ctx va with
  | .ok x => pteStb x.leaf
  | .error _ => false

/-- A line of memory belongs to such a page, by the latest use of its frame. -/
def State.lineStb (s : State) (line : Nat) : Bool :=
  (s.frames.find (line / 32)).any fun f =>
    match s.walk f.ctx f.va with
    | .ok x => x.key f.va / 4096 == line / 32 && pteStb x.leaf
    | .error _ => false

/-- The leaf after first-touch assignment for a core (R311). -/
def assignLeaf (c : CoreId) (leaf : Nat) : Nat :=
  if pteLpm leaf = 3 then
    leaf - 2 ^ 10 - pteLparg leaf * 2 ^ 56 + (2 * clusterOf c + tileOf c % 2) * 2 ^ 56
  else leaf

/-- The leaf after a translation for reading or writing: first touch, A, and D on a write (R306, R311). -/
def touchedLeaf (c : CoreId) (write : Bool) (leaf : Nat) : Nat :=
  let e := assignLeaf c leaf
  let e := if pteA e then e else e + 2 ^ 63
  if write && !pteD e then e + 2 ^ 55 else e

/-- Writes an entry that is present, changed by `f`. -/
def State.modEntry (s : State) (pte : Nat) (f : Nat → Nat) : State :=
  let m := s.paNum pte 8
  if pteP m then s.paWrite pte (leBytes 8 (f m)) else s

/-- Assigns a leaf for a core: all 16 entries of a 64 KiB page together, so that they go on agreeing (R307, R311). -/
def State.assignPage (s : State) (c : CoreId) (x : Xlat) : State :=
  if pteLpm x.leaf = 3 && pteC64 x.leaf then
    (List.range 16).foldl (fun s i => s.modEntry (x.pte / 128 * 128 + 8 * i) (assignLeaf c)) s
  else s

/-- Marks a leaf as used: the entry in memory takes A, D and the assignment, by an indivisible update (R307). -/
def State.touchLeaf (s : State) (c : CoreId) (write : Bool) (x : Xlat) : State × Xlat :=
  let e := touchedLeaf c write x.leaf
  if e = x.leaf then (s, x) else ((s.assignPage c x).modEntry x.pte (touchedLeaf c write), { x with leaf := e })

/-- A translation put in front of a list of entries. -/
def tlbPut (l : List TlbEntry) (ctx : Nat) (x : Xlat) : List TlbEntry :=
  ⟨ctx, x.base, x.size, BitVec.ofNat 64 x.leaf, x.pte⟩ :: l.filter fun t => !(t.ctx == ctx && t.va == x.base)

/-- The set of a second-level TLB that an entry goes to (R308, log 62). -/
def TlbEntry.set (t : TlbEntry) : Nat := Config.tlbSet t.ctx t.va t.size % 512

/-- Keeps the first `n` entries of one set, and those of every other set. -/
def keepWays (set : Nat) : Nat → List TlbEntry → List TlbEntry
  | _, [] => []
  | n, t :: r =>
    if t.set = set then
      match n with
      | 0 => keepWays set 0 r
      | n + 1 => t :: keepWays set n r
    else t :: keepWays set n r

/-- Fills a cluster's second-level TLB: 512 sets of 8 ways (R308). -/
def State.fillTlb2 (s : State) (cl ctx : Nat) (x : Xlat) : State :=
  s.modCluster cl fun k => { k with tlb := keepWays (Config.tlbSet ctx x.base x.size % 512) 8 (tlbPut k.tlb ctx x) }

/-- Fills a core's µTLB of 64 entries and its cluster's second-level TLB (R308). -/
def State.fillTlbs (s : State) (c : CoreId) (ctx : Nat) (x : Xlat) : State :=
  (s.modCore c fun q => { q with utlb := (tlbPut q.utlb ctx x).take 64 }).fillTlb2 (clusterOf c) ctx x

/-- The frame of an address was translated for a context (R306, R312). -/
def State.noteFrame (s : State) (ctx va : Nat) (x : Xlat) : State :=
  { s with frames := s.frames.set (x.key va / 4096) ⟨ctx, alignDown va 4096, BitVec.ofNat 64 x.leaf⟩ }

/-- Translates for a core: the translation, used and cached; a walk leaves its entries in the walk cache. -/
def State.xlat (s : State) (c : CoreId) (ctx va : Nat) (write : Bool) : State × Except Miss Xlat :=
  match s.look c ctx va with
  | .error b => (s, .error b)
  | .ok x =>
    let held := (tlbFind (s.core c).utlb ctx va).isSome || (tlbFind (s.cluster (clusterOf c)).tlb ctx va).isSome
    let s := if held then s else s.fillWalks (dieOf c) ctx va
    let (s, x) := s.touchLeaf c write x
    ((s.fillTlbs c ctx x).noteFrame ctx va x, .ok x)

/-- A translation as an engine of a core finds it: in the second-level TLB of the core's cluster, or by a walker of its
die (R308, log 62). -/
def State.lookEngine (s : State) (c : CoreId) (ctx va : Nat) : Except Miss Xlat :=
  match tlbFind (s.cluster (clusterOf c)).tlb ctx va with
  | some x => .ok x
  | none => s.walkIn (dieOf c) ctx va

/-- Translates for an engine of a core. -/
def State.xlatEngine (s : State) (c : CoreId) (ctx va : Nat) (write : Bool) : State × Except Miss Xlat :=
  match s.lookEngine c ctx va with
  | .error b => (s, .error b)
  | .ok x =>
    let s := if (tlbFind (s.cluster (clusterOf c)).tlb ctx va).isSome then s else s.fillWalks (dieOf c) ctx va
    let (s, x) := s.touchLeaf c write x
    ((s.fillTlb2 (clusterOf c) ctx x).noteFrame ctx va x, .ok x)

/-- Drops cached translations (R199, R308): of the µTLBs and second-level TLBs in reach those that `p` picks, of the
walk caches of the dies in reach the entries that `w` picks. -/
def State.tlbDropAll (s : State) (reach : CoreId → Bool) (p : TlbEntry → Bool) (w : WalkEntry → Bool) : State :=
  { s with
    cores := s.cores.mapVals fun k x => if reach k then { x with utlb := x.utlb.filter fun t => !p t } else x
    clusters := s.clusters.mapVals fun k x => if reach (8 * k) then { x with tlb := x.tlb.filter fun t => !p t } else x
    dies := s.dies.mapVals fun d x =>
      if (List.range 16).any fun i => reach (128 * d + 8 * i) then { x with walks := x.walks.filter fun y => !w y } else x }

/-! ## Apertures (R231, R301 to R303) -/

def stackBase : Nat := 0x00FE000000000000
def scratchBase : Nat := 0x00FF000000000000

/-- Scratchpad bytes of a tile under a split (R302). -/
def scratchBytes (split : Nat) : Nat := 524288 * split

/-- LM_SPLIT of the context on a core. -/
def State.split (s : State) (q : Core) : Nat :=
  match q.work with
  | some w => ((s.ctxs.find w.ctx).map (·.split)).getD 0
  | none => 0

/-- Where a generic address leads before translation. -/
inductive Place where
  /-- Local memory of the tile. -/
  | lm (off : Nat)
  /-- A global address; `ovf`: reached through the stack overflow area (local class, R99). -/
  | glob (va : Nat) (ovf : Bool)
  deriving DecidableEq, Repr

/-- Whether a scratchpad offset lies in the core's share (R303). -/
def Core.inShare (q : Core) (off : Nat) : Bool :=
  q.grants.shareBase ≤ off && off < q.grants.shareBase + q.grants.shareSize

/-- Steers one byte's address: none is ADDR_FAULT (R101 order 3, R231, R301). -/
def Core.place (q : Core) (ea : Nat) : Option Place :=
  if ea < stackBase then some (.glob ea false)
  else if ea < stackBase + 2 ^ 33 then
    let o := ea - stackBase
    if o < q.grants.stack then
      let a := (q.spillBase.toNat + o) % 2 ^ 64
      if scratchBase ≤ a && q.inShare (a - scratchBase) then some (.lm (a - scratchBase)) else none
    else if o < q.grants.stack + q.grants.ovf then
      some (.glob ((q.ovfBase.toNat + (o - q.grants.stack)) % 2 ^ 64) true)
    else none
  else if scratchBase ≤ ea && ea < scratchBase + 2 ^ 22 then
    if q.inShare (ea - scratchBase) then some (.lm (ea - scratchBase)) else none
  else none

/-- Whether an address lies in the global window. -/
def isGlobal (ea : Nat) : Bool := ea < stackBase

/-! ## The checks of R101 -/

/-- What an access does, as far as its checks go. `code`: access type of a page request (R409). -/
structure AccKind where
  write : Bool
  code : Nat
  global : Bool
  sc : Bool
  deriving DecidableEq, Repr

def accRead : AccKind := ⟨false, 0, false, false⟩
def accWrite : AccKind := ⟨true, 1, false, false⟩
def accAtomic : AccKind := ⟨true, 3, true, false⟩
def accScRead : AccKind := ⟨false, 3, true, true⟩
def accScWrite : AccKind := ⟨true, 3, true, true⟩

/-- Why an access does not take place. -/
inductive MemFail where
  | trap (cause : Cause) (info : Word)
  /-- A page is not present: the address to request. -/
  | page (va : Nat) (malformed : Bool) (code : Nat)
  deriving DecidableEq, Repr

/-- Whether a page may be used so: PROT_FAULT otherwise (R101 order 5, R307). -/
def Core.mayUse (q : Core) (write : Bool) (leaf : Nat) : Bool :=
  (!write || (pteW leaf && !pteStb leaf)) && (q.priv || pteU leaf)

/-- A view window's access outside its region or through an unusable entry (R316), a leaf whose VIEW and frame do not go
together (log 24), or a frame in a persistent region of the CXL device (log 76). -/
def State.viewBad (s : State) (pk : Nat) : Bool :=
  s.excluded pk || match viewOf pk == 0, storeOf pk == .view with
  | true, false => false
  | true, true | false, false => true
  | false, true =>
    match s.viewGeom (viewRegion pk) with
    | none => true
    | some g => g.bytes ≤ viewOffset pk

/-- The first check of R101, from order 3 on, that one byte of an access fails, with its order. -/
def State.byteFail (s : State) (c : CoreId) (k : AccKind) (report : Word) (ea : Nat) : Option (Nat × MemFail) :=
  let q := s.core c
  match q.place ea with
  | none => some (3, .trap .addrFault report)
  | some (.lm _) => if k.global then some (4, .trap .atomicLocal report) else none
  | some (.glob va ovf) =>
    if ovf && k.global then some (4, .trap .atomicLocal report)
    else if stackBase ≤ va then some (3, .trap .addrFault report)
    else
      let ctx := q.ctxNum
      match s.look c ctx va with
      | .error m => some (6, .page va m.bad k.code)
      | .ok x =>
        if s.viewBad (x.key va) then some (3, .trap .addrFault report)
        else if !q.mayUse k.write x.leaf then some (5, .trap .protFault report)
        else if k.sc && storeOf (x.key va) == .host then some (7, .trap .scScope report)
        else none

/-- Of two failures, the one of the lower order; the earlier when equal. -/
def firstFail (a b : Option (Nat × MemFail)) : Option (Nat × MemFail) :=
  match a, b with
  | none, b => b
  | a, none => a
  | some x, some y => if y.1 < x.1 then some y else some x

/-- An element of an access: its address, its bytes, and its alignment. -/
structure Elem where
  ea : Word
  n : Nat
  align : Nat
  deriving DecidableEq, Repr

/-- The first failing check of one element (R101): alignment, then its first byte, then its last. -/
def State.elemFail (s : State) (c : CoreId) (k : AccKind) (e : Elem) : Option (Nat × MemFail) :=
  if e.ea.toNat % e.align != 0 then some (2, .trap .misaligned e.ea)
  else firstFail (s.byteFail c k e.ea e.ea.toNat)
    (if e.n ≤ 1 then none else s.byteFail c k e.ea (e.ea.toNat + e.n - 1))

/-- The checks of R101 from order 2 on, over every enabled element: the lowest order first, then the first element. -/
def State.accessFail (s : State) (c : CoreId) (k : AccKind) (es : List Elem) : Option MemFail :=
  (es.foldl (fun f e => firstFail f (s.elemFail c k e)) none).map (·.2)

end Sys2Proof.Machine
end

