-- ==== Sys2Proof/Machine/Updates.lean ====
section
/-! DEFINITION. Update streams: pairs, sorters, bins, the spill log, and the apply (20_update_streams R366 to R376). -/
namespace Sys2Proof
open Machine

/-- Operand width of a region's operator, in bits (R180). -/
def UpdOp.width : UpdOp → Nat
  | .addBf16 => 16
  | .addI32 | .addFp32 | .minI32 | .minN32 | .maxI32 | .maxN32 | .and32 | .or32 | .xor32 => 32
  | .addI64 | .minI64 | .minN64 | .maxI64 | .maxN64 | .and64 | .or64 | .xor64 => 64

/-- One float step: RoundV of the sum (R34, R180). -/
def addRound (f : FFmt) (x y : Nat) : Nat := f.encodeV ((f.decodeV x).add (f.decodeV y))

/-- Reduce on w-bit patterns (R180, R370). -/
def UpdOp.reduce (op : UpdOp) (v x : Nat) : Nat :=
  let w := op.width
  let i := fun (n : Nat) => (BitVec.ofNat w n).toInt
  match op with
  | .addI32 | .addI64 => (v + x) % 2 ^ w
  | .addBf16 => addRound bf16 v x
  | .addFp32 => addRound fp32 v x
  | .minI32 | .minI64 => if i x < i v then x else v
  | .maxI32 | .maxI64 => if i v < i x then x else v
  | .minN32 | .minN64 => if x < v then x else v
  | .maxN32 | .maxN64 => if v < x then x else v
  | .and32 | .and64 => v &&& x
  | .or32 | .or64 => v ||| x
  | .xor32 | .xor64 => v ^^^ x

end Sys2Proof

namespace Sys2Proof.Machine
open Sys2Proof

/-! ## Keys and places -/

/-- Key order (R368). -/
def pairLt (a b : Pair) : Bool :=
  decide (a.addr < b.addr) || (a.addr == b.addr &&
    (decide (a.src < b.src) || (a.src == b.src && decide (a.seq < b.seq))))

def insertPair (p : Pair) : List Pair → List Pair
  | [] => [p]
  | q :: r => if pairLt p q then p :: q :: r else q :: insertPair p r

/-- Pairs in ascending key. -/
def sortPairs (l : List Pair) : List Pair := l.foldl (fun acc p => insertPair p acc) []

def State.region (s : State) (r : Nat) : Option Region := s.regions.find r

/-- The physical key and home slice of an address of a region, by the translations pinned at its registration (R181,
R366). -/
def State.regionLoc (s : State) (g : Region) (va : Nat) : Option (Nat × Nat) :=
  (tlbFind g.pins g.ctx va).map fun x => (x.key va, s.homeOf g.ctx va x.leaf)

/-- The physical key and home slice of a pair's location (R366). -/
def State.pairLoc (s : State) (p : Pair) : Option (Nat × Nat) :=
  match s.region p.region with
  | none => none
  | some g => s.regionLoc g p.addr

/-- The sorter of a home slice: 4 x die + quadrant (R366). -/
def sorterOf (home : Nat) : Nat := home / 2 / 16 * 4 + home / 2 % 16 / 4

def State.sorter (s : State) (k : Nat) : Sorter := s.sorters.get k {}
def State.setSorter (s : State) (k : Nat) (x : Sorter) : State := { s with sorters := s.sorters.set k x }

def Sorter.spilled (x : Sorter) : List Pair := x.spill.flatMap (·.pairs)
def Sorter.pairs (x : Sorter) : List Pair := x.batch ++ x.bins.flatMap (·.2) ++ x.spilled
/-- Every pair present at a sorter. -/
def State.sorterPairs (s : State) : List Pair := s.sorters.flatMap fun (_, x) => x.pairs

/-- Removes pairs from a sorter; an empty bin is free, and so is a run whose entries are all consumed. -/
def Sorter.without (x : Sorter) (pick : Pair → Bool) : Sorter := { x with
  batch := x.batch.filter (!pick ·)
  bins := (x.bins.map fun (l, ps) => (l, ps.filter (!pick ·))).filter fun (_, ps) => !ps.isEmpty
  spill := (x.spill.map fun r => { r with pairs := r.pairs.filter (!pick ·) }).filter fun r => !r.pairs.isEmpty
  dead := x.dead.filter (!pick ·) }

/-- A health event (R409). -/
def State.healthEvent (s : State) (sub ctx tile : Nat) (more : List (Nat × Nat × Nat)) : State :=
  s.emit 0x25 ([(12, 1, ctx), (13, 1, sub), (14, 2, tile), (56, 8, s.now)] ++ more)

/-- UPD_POISON (R375): the region is marked and its context is told. -/
def State.updPoison (s : State) (r line : Nat) : State :=
  match s.region r with
  | none => s
  | some g =>
    { s with regions := s.regions.set r { g with poisoned := true } }.healthEvent 2 g.ctx 0
      [(16, 8, g.base), (24, 8, 128 * line)]

/-! ## The apply (R370, R373 to R375) -/

/-- Folds one pair into its location, read and written at home; none while an earlier write of the line waits there
(R298). -/
def State.applyPair (s : State) (p : Pair) : Option State :=
  match s.pairLoc p, s.region p.region with
  | some (pk, h), some g =>
    let n := g.op.width / 8
    if s.lineQueued (pk / 128) then none else
    let old := ofLe ((List.range n).map fun i => s.homeByte h (pk + i))
    let new := g.op.reduce old (p.value.toNat % 2 ^ g.op.width)
    s.homeWriteNow none h ((rangeFrom pk n).zip (leBytes n new))
  | none, _ | _, none => some s

/-- Folds pairs, in order; none when a write would have to wait. -/
def State.applyList (s : State) : List Pair → Option State
  | [] => some s
  | p :: r =>
    match s.applyPair p with
    | none => none
    | some s' => s'.applyList r

def distinct {α : Type} [DecidableEq α] : List α → List α
  | [] => []
  | a :: r => a :: (distinct r).filter (· != a)

/-- Applies the pairs at the sorters that a test picks. The pairs of a poisoned line and the unreadable pairs are dropped, and
each line's region and context are told once (R375). None: the apply must wait for a write at home. -/
def State.applyWhere (s : State) (pick : Pair → Bool) : Option State :=
  let mine := sortPairs (s.sorterPairs.filter pick)
  if mine.isEmpty then some s
  else
    let bad := fun (p : Pair) => (s.sorters.any fun (_, x) => x.dead.contains p) || match s.pairLoc p with
      | some (pk, _) => s.poisoned (pk / 128)
      | none => false
    let s1 : State := { s with sorters := s.sorters.mapVals fun _ x => x.without pick }
    match s1.applyList (mine.filter (!bad ·)) with
    | none => none
    | some s2 =>
      some ((distinct ((mine.filter bad).map fun p => (p.region, ((s.pairLoc p).getD (0, 0)).1 / 128))).foldl
        (fun s (r, line) => s.updPoison r line) s2)

/-- Whether a pair lies in the apply block of a line: the 4 KiB-aligned part of the pair's region that holds the line, by
physical line number (R373). -/
def State.inBlockOf (s : State) (line : Nat) (p : Pair) : Bool :=
  match s.region p.region, s.pairLoc p with
  | some g, some (pk, _) =>
    let va := alignDown p.addr 4096 + line % 32 * 128
    pk / 4096 == line / 32 && decide (g.base ≤ va) && decide (va < g.base + g.len)
  | none, _ | _, none => false

/-- Applies every pending pair of the apply block of a line (R373). -/
def State.applyBlock (s : State) (line : Nat) : Option State := s.applyWhere (s.inBlockOf line)

/-! ## Arrival, batches, bins, spills (R366 to R372) -/

/-- Entries of a bin, bins of a sorter, pairs of a batch. -/
def binCap : Nat := 120
def binCount : Nat := 4096
def batchCap : Nat := 256

/-- 16-byte units of the spill log's ring of a sorter (R372). -/
def State.spillCap (s : State) (k : Nat) : Nat := (s.cfg.spill.get k (0, 0)).2 / 16

/-- Units of a run header: 57 bits for each entry, and one unit for region and context (R372, log 26). -/
def runHead (n : Nat) : Nat := (57 * n + 127) / 128 + 1

/-- Units of its ring that a sorter's log holds: from its oldest run that is not consumed. -/
def Sorter.ringUsed (x : Sorter) : Nat :=
  match x.spill with
  | [] => 0
  | r :: _ => x.written - r.start

/-- The apply block, as a context, a region and a page of generic addresses, of the most pairs of a list. -/
def fullestBlock (l : List Pair) : Option (Nat × Nat × Nat) :=
  (distinct (l.map fun p => (p.ctx, p.region, p.addr / 4096))).foldl (fun best b =>
    let n := fun (x : Nat × Nat × Nat) => (l.filter fun p => (p.ctx, p.region, p.addr / 4096) == x).length
    match best with
    | none => some b
    | some x => if n x < n b then some b else some x) none

/-- Makes room in the spill log of a sorter for a bin's entries: while they do not fit, the block with the most spill
entries, or of an empty log the most of theirs, is applied and SPILL_FULL goes to the host (R372, log 26). None: an apply
has to wait. The answer holds the entries that are left to append. -/
def State.spillRoom (k : Nat) : Nat → State → List Pair → Option (State × List Pair)
  | 0, s, ps => some (s, ps)
  | fuel + 1, s, ps =>
    let x := s.sorter k
    if ps.isEmpty || decide (x.ringUsed + runHead ps.length + ps.length ≤ s.spillCap k) then some (s, ps)
    else
      match (fullestBlock x.spilled).or (fullestBlock ps) with
      | none => some (s, ps)
      | some b =>
        let mine := fun (p : Pair) => (p.ctx, p.region, p.addr / 4096) == b
        -- the bin's entries take part in the apply as entries of the log
        let s1 := s.setSorter k { x with spill := x.spill ++ [⟨x.written, ps.filter mine⟩] }
        match s1.applyWhere mine with
        | none => none
        | some s2 => State.spillRoom k fuel (s2.resourceEvent 2 0xFF k) (ps.filter (!mine ·))

/-- A spill-log entry (R372). -/
def State.spillImage (s : State) (p : Pair) : List Byte :=
  leBytes 8 (p.addr % 2 ^ 56 + (((s.region p.region).map (·.op.code)).getD 0) * 2 ^ 56) ++ leBytes 8 p.value.toNat

/-- Writes 16-byte units to the ring of a sorter's spill log, from unit `i`. -/
def State.ringUnits (s : State) (k i : Nat) (bytes : List Byte) : State :=
  let base := (s.cfg.spill.get k (0, 0)).1
  let cap := s.spillCap k
  (List.range (bytes.length / 16)).foldl (fun s j =>
    { s with mem := s.mem.write (base + 16 * ((i + j) % cap)) ((bytes.drop (16 * j)).take 16) }) s

/-- Appends a bin's entries to the spill log, in key order, as one run behind its header (R372). None: there is no room,
and an apply that would make some has to wait. -/
def State.spillBin (s : State) (k : Nat) (ps : List Pair) : Option State :=
  match State.spillRoom k (ps.length + (s.sorter k).spilled.length) s (sortPairs ps) with
  | none => none
  | some (s, ps) =>
    if ps.isEmpty then some s
    else
      let x := s.sorter k
      let n := runHead ps.length
      let p := ps.headD ⟨0, 0, 0, 0, 0, 0, 0⟩
      let head := padTo (16 * n) (Config.runHeader (ps.flatMap (fun p => [p.src, p.seq]) ++ [p.region, p.ctx]))
      let s := s.ringUnits k x.written (head ++ ps.flatMap s.spillImage)
      some (s.setSorter k { x with spill := x.spill ++ [⟨x.written, ps⟩], written := x.written + n + ps.length })

/-- Puts a pair into the bin of its line, spilling first where a bin is full or none is free (R371). None: the spill has to
wait. -/
def State.binPair (s : State) (k : Nat) (p : Pair) : Option State :=
  match s.pairLoc p with
  | none => some s
  | some (pk, _) =>
    let line := pk / 128
    let x := s.sorter k
    let start := fun (s : State) => let x := s.sorter k; s.setSorter k { x with bins := x.bins ++ [(line, [p])] }
    match x.bins.find? (·.1 == line) with
    | some (_, ps) =>
      if ps.length < binCap then
        some (s.setSorter k { x with bins := x.bins.filter (·.1 != line) ++ [(line, insertPair p ps)] })
      else ((s.setSorter k { x with bins := x.bins.filter (·.1 != line) }).spillBin k ps).map start
    | none =>
      match x.bins with
      | (_, ps) :: r =>
        if x.bins.length < binCount then some (start s)
        else ((s.setSorter k { x with bins := r }).spillBin k ps).map start
      | [] => some (start s)

/-- Passes pairs to their bins; the first that has to wait stays in the batch with those behind it. -/
def State.binPairs (s : State) (k : Nat) : List Pair → State
  | [] => s
  | p :: r =>
    match s.binPair k p with
    | some s => s.binPairs k r
    | none => let x := s.sorter k; s.setSorter k { x with batch := p :: r ++ x.batch }

/-- Closes the open batch of a sorter: ordered by key, its pairs pass to their bins (R369). -/
def State.closeBatch (s : State) (k : Nat) : State :=
  let x := s.sorter k
  (s.setSorter k { x with batch := [] }).binPairs k (sortPairs x.batch)

/-- The sorter whose batch a pair enters, when it is to enter one. -/
def State.entersAt (s : State) (p : Pair) : Option Nat :=
  if (s.ctxs.find p.ctx).any (·.dying) then none else (s.pairLoc p).map fun (_, h) => sorterOf h

/-- The pair at position `i` of those in flight arrives: its credit returns, it enters a batch; a pair of a killed
context, or of a region that is no more, is dropped (R367, R369, R376). While a full log holds up a full batch, nothing
enters it (R372). -/
def State.arrivePair (s : State) (i : Nat) : State :=
  match s.flight[i]? with
  | none => s
  | some p =>
    let gone := fun (s : State) => ({ s with flight := s.flight.eraseIdx i } : State).modCore p.src fun q =>
      { q with credits := min 256 (q.credits + 1) }
    match s.entersAt p with
    | none => gone s
    | some k =>
      let s := if batchCap ≤ (s.sorter k).batch.length then s.closeBatch k else s
      if batchCap ≤ (s.sorter k).batch.length then s
      else
        let s := (gone s).receipt p.src (sorterLevel p.src k)
        let x := s.sorter k
        let s := s.setSorter k { x with batch := x.batch ++ [p] }
        if batchCap ≤ x.batch.length + 1 then s.closeBatch k else s

/-- Every pair of a core in flight arrives, oldest first. -/
def State.arriveAll (s : State) (c : CoreId) : State :=
  s.flight.foldl (fun s p =>
    if p.src == c then
      match s.flight.findIdx? (· == p) with
      | some i => s.arrivePair i
      | none => s
    else s) s

/-- The same; none while one of them finds no place at its sorter. -/
def State.arriveFully (s : State) (c : CoreId) : Option State :=
  let s := s.arriveAll c
  if s.flight.any (·.src == c) then none else some s

/-- Pairs of a region that have left their cores and are not yet applied (R183). -/
def State.pendingOf (s : State) (r : Nat) : Nat :=
  (s.flight.filter (·.region == r)).length + (s.sorterPairs.filter (·.region == r)).length

/-- A region without handles and without pairs to come is plain memory again (R181, R376). -/
def State.retireRegions (s : State) : State :=
  { s with regions := s.regions.filter fun (r, g) =>
      !(g.handles.isEmpty && s.pendingOf r == 0 && s.cores.all fun (_, q) => q.upd.all (·.region != r)) }

end Sys2Proof.Machine
end

