-- ==== Sys2Proof/Machine/Access.lean ====
section
/-! DEFINITION. The tiles' L1 and local memory, and the points at which a core's loads and stores take effect
(12_memory_model R262 to R267; 14_memory_hierarchy R310). -/
namespace Sys2Proof.Machine
open Sys2Proof

/-! ## L1 (R310) -/

/-- LM_SPLIT of the context whose work a tile holds; 8 leaves no L1 (R302). -/
def State.tileSplit (s : State) (c : CoreId) : Nat := s.split (s.core c)

/-- A line held by a synchronisation engine: every access to it is performed there (R116, R377). -/
def State.heldLine (s : State) (line : Nat) : Bool := s.dies.any fun (_, d) => d.held.contains line

/-- The set of a line in an L1 that has what a split leaves of 4 MiB, in 16 ways of 128 bytes (R302, R310, log 12). -/
def l1SetOf (split line : Nat) : Nat := Config.l1Set line % ((8 - split) * 256)

/-- The other lines of a tile's L1 in a line's set, in order of replacement. -/
def Tile.l1Ways (x : Tile) (line : Nat) : List Nat :=
  x.l1Order.filter fun l => l != line && (x.l1.find l).isSome && l1SetOf x.split l == l1SetOf x.split line

/-- The dirty bytes of an L1 line, by physical key. -/
def L1Line.dirtyCells (l : L1Line) (line : Nat) : Mem :=
  ((List.range 128).filter fun i => l.dirty.getLsbD i).map fun i => (128 * line + i, l.bytes.getD i 0)

/-- Writes a dirty line's dirty bytes to its home and keeps the line; poison goes with it (R250, R310). -/
def State.l1WriteBack (s : State) (t line : Nat) : State :=
  let x := s.tile t
  match x.l1.find line with
  | none => s
  | some l =>
    if l.dirty = 0 then s
    else
      let mark := if x.l1Poison.contains line then some true else if l.clean then some false else none
      (s.setTile t { x with l1 := x.l1.set line { l with dirty := 0, clean := false } }).homeWrite (some (4 * t)) l.home
        (l.dirtyCells line) .l1 none mark

/-- Invalidates an L1 line without writing it back. -/
def State.l1Drop (s : State) (t line : Nat) : State :=
  s.modTile t fun x =>
    { x with l1 := x.l1.erase line, l1Order := x.l1Order.filter (· != line), l1Poison := x.l1Poison.filter (· != line) }

/-- A line leaves L1: its dirty bytes are written back first (R263). -/
def State.l1Expel (s : State) (t line : Nat) : State := (s.l1WriteBack t line).l1Drop t line

/-- Writes back, and where `inval` expels, every L1 line of a tile that a test picks. -/
def State.l1Sweep (s : State) (t : Nat) (inval : Bool) (p : Nat → L1Line → Bool) : State :=
  (s.tile t).l1.foldl (fun s (line, l) =>
    if p line l then (if inval then s.l1Expel t line else s.l1WriteBack t line) else s) s

/-- The same on every tile of the package. -/
def State.l1SweepAll (s : State) (inval : Bool) (p : Nat → L1Line → Bool) : State :=
  s.tiles.foldl (fun s (t, _) => s.l1Sweep t inval p) s

/-- Writes of a tile that wait at home (R298, R320). -/
def State.tileWaits (s : State) (t : Nat) : Bool := s.homeQ.any fun w => w.core.any (tileOf · == t)

/-- A byte at home as the cores of a tile see it: under the tile's own writes that wait there (R264). -/
def State.homeByteFor (s : State) (t h pk : Nat) : Byte :=
  match (s.homeQ.filter fun w => w.core.any (tileOf · == t) && w.cells.any (·.1 == pk)).getLast? with
  | some w => w.cells.get pk
  | none => s.homeByte h pk

/-- Whether a line at home is poisoned as the cores of a tile see it: behind the tile's own writes that wait there (R250,
R264). -/
def State.poisonedFor (s : State) (t line : Nat) : Bool :=
  let mine := s.homeQ.filterMap fun w =>
    if w.core.any (tileOf · == t) && w.cells.any (·.1 / 128 == line) then
      w.mark.or (if w.cells.length = 128 then some false else none)
    else none
  mine.getLast?.getD (s.poisoned line)

/-- Where its set is full, the line that is last in the order of replacement leaves (R310). -/
def State.l1Room (s : State) (t line : Nat) : State :=
  let ways := (s.tile t).l1Ways line
  if ways.length < 16 then s
  else
    match ways.getLast? with
    | none => s
    | some v => s.l1Expel t v

/-- Fills a line into a tile's L1 from home; a streaming one is the next victim (R310). -/
def State.l1Fill (s : State) (t h line : Nat) (stb stream : Bool) : State :=
  let s := s.l1Room t line
  let bytes := (List.range 128).map fun i => s.homeByteFor t h (128 * line + i)
  s.modTile t fun x =>
    { x with l1 := x.l1.set line { bytes := bytes, home := h, stb := stb }
             l1Order := let l := x.l1Order.filter (· != line); if stream then l ++ [line] else line :: l
             l1Poison := if s.poisonedFor t line then addNew x.l1Poison line else x.l1Poison }

/-- An access finds its line in L1, where it is the most recent one now, or fills it (R262, R310). -/
def State.l1Use (s : State) (t h line : Nat) (stb stream : Bool) : State :=
  match (s.tile t).l1.find line with
  | some _ => s.modTile t fun x => { x with l1Order := line :: x.l1Order.filter (· != line) }
  | none => s.l1Fill t h line stb stream

/-- Whether an access of a tile keeps out of L1: by itself, without an L1, or on a line of a synchronisation engine or of a
registered update region (R263, R302, R374, R377). -/
def State.noL1 (s : State) (c : CoreId) (bypass : Bool) (pk : Nat) : Bool :=
  bypass || decide (8 ≤ s.tileSplit c) || s.heldLine (pk / 128) || s.regionLine (pk / 128)

/-! ## Resolving an access that has passed its checks -/

/-- Where the bytes of an access lie: local-memory offsets, and lanes of global memory; each with its byte index. -/
structure Where where
  locs : List (Nat × Nat) := []
  lanes : List Lane := []
  deriving DecidableEq, Repr

/-- SPILL_OVF marks an access at `ea` of the overflow area that starts at `base` (R231). -/
def Core.markOvf (q : Core) (base : Word) (g : Grants) (ea : Nat) : Core :=
  let used := ea - stackBase - g.stack + 1
  let m := base + BitVec.ofNat 64 ((used + 127) / 128 * 128)
  { q with ovfMark := if q.ovfMark.toNat < m.toNat then m else q.ovfMark }

/-- Resolves one byte: translation is used, cached and marked; the overflow mark and the view tracker move (R231,
R318). `ch`: the cache hint, which counts for nothing in the stack (R38, R41). -/
def State.resolveByte (s : State) (c : CoreId) (write : Bool) (ch : BitVec 2) (w : Where) (i ea : Nat) : State × Where :=
  let q := s.core c
  match q.place ea with
  | none => (s, w)
  | some (.lm off) => (s, { w with locs := w.locs ++ [(i, off)] })
  | some (.glob va ovf) =>
    let ctx := q.ctxNum
    match s.xlat c ctx va write with
    | (s, .error _) => (s, w)
    | (s, .ok x) =>
      let pk := x.key va
      let ch := if ovf then 0 else ch
      let bypass := ch == 3 || decide (2 ≤ viewOf pk)
      let lane : Lane := ⟨i, BitVec.ofNat 64 va, pk, s.homeOf ctx va x.leaf, bypass, pteStb x.leaf, ch == 1, ovf⟩
      let s := if viewOf pk = 0 then s
        else s.modCore c fun q => { q with view := some (viewRegion pk, viewOf pk) }
      let s := if ovf then s.modCore c fun q => q.markOvf q.ovfBase q.grants ea else s
      (s, { w with lanes := w.lanes ++ [lane] })

/-- Resolves the bytes of an access: (byte index, address). -/
def State.resolve (s : State) (c : CoreId) (write : Bool) (ch : BitVec 2) (bytes : List (Nat × Nat)) : State × Where :=
  bytes.foldl (fun (s, w) (i, ea) => s.resolveByte c write ch w i ea) (s, {})

/-! ## Stores (R262) -/

/-- Groups neighbours of a list by a key. -/
def runsBy {α : Type} (key : α → Nat) : List α → List (List α)
  | [] => []
  | a :: r =>
    match runsBy key r with
    | (b :: l) :: ls => if key a = key b then (a :: b :: l) :: ls else [a] :: (b :: l) :: ls
    | ls => [a] :: ls

/-- Neighbouring lanes of one line, and of one 32-byte beat and the same classes (R99). -/
def laneRuns (l : List Lane) : List (List Lane) := runsBy (·.pa / 128) l
def laneBeats (l : List Lane) : List (List Lane) := runsBy (fun x => 2 * (x.pa / 32) + if x.ovf then 1 else 0) l

/-- A beat of a store enters a core's buffer; what the core has read ahead of it there does not count (R264). -/
def Core.addStore (q : Core) (p : PendStore) : Core :=
  { q with stores := q.stores ++ [p], issue := q.issue + 1
           early := if p.loc then q.early else q.early.filter fun (a, _) => !p.cells.any (·.1 == a) }

/-- The beats of the local part of a store, numbered from `n`. -/
def localBeats (n : Nat) (cells : Mem) : List PendStore :=
  (runsBy (·.1 / 32) cells).zipIdx.map fun (run, i) =>
    { n := n + i, loc := true, acc := n, lcl := true, cells := run
      whole := (cells.filter fun x => x.1 / 128 == (run.headD (0, 0)).1 / 128).length == 128 }

/-- Buffers a store, 32-byte beat by beat (R100, R262). -/
def State.buffer (s : State) (c : CoreId) (w : Where) (byte : Nat → Byte) : State :=
  s.modCore c fun q =>
    let acc := q.issue
    let q := (localBeats acc (w.locs.map fun (i, off) => (off, byte i))).foldl Core.addStore q
    (laneBeats w.lanes).foldl (fun q run =>
      match run with
      | [] => q
      | l :: _ =>
        q.addStore { n := q.issue, loc := false, acc := acc, lcl := l.ovf, home := l.home, va := l.va, bypass := l.bypass
                     stream := l.stream, whole := (w.lanes.filter fun x => x.pa / 128 == l.pa / 128).length == 128
                     cells := run.map fun l => (l.pa, byte l.i) }) q

/-- Whether two lists of cells meet in an address. -/
def meets (a b : Mem) : Bool := a.any fun (x, _) => b.any (·.1 == x)

/-- Whether an outstanding load reads one of some bytes. -/
def PendLoad.reads (l : PendLoad) (loc : Bool) (a : Nat) : Bool :=
  if loc then l.locs.any (·.2 == a) else l.lanes.any (·.pa == a)

/-- Whether a buffered store must wait for an earlier access of its core to the same bytes (R264). -/
def Core.storeBlocked (q : Core) (p : PendStore) : Bool :=
  (q.stores.any fun o => decide (o.n < p.n) && o.loc == p.loc && meets o.cells p.cells)
    || q.loads.any fun l => decide (l.n < p.n) && p.cells.any fun (a, _) => l.reads p.loc a

/-- Whether a beat is the last of its access to drain into its line. -/
def Core.lastBeat (q : Core) (p : PendStore) : Bool :=
  let line := fun (p : PendStore) => (p.cells.headD (0, 0)).1 / 128
  q.stores.all fun o => o.n == p.n || o.acc != p.acc || o.loc != p.loc || line o != line p

/-- Puts one buffered beat where it drains: local memory, the tile's L1, or home (R262, R310); a store that has now written
all of its line clears the line's poison (R250). None: an apply that the line waits for cannot be done yet (R373). -/
def State.drainCells (s : State) (c : CoreId) (p : PendStore) : Option State :=
  let t := tileOf c
  let clean := p.whole && (s.core c).lastBeat p
  match p.cells with
  | [] => some s
  | (pk, _) :: _ =>
    let line := pk / 128
    if p.loc then
      some (s.modTile t fun x =>
        { x with lm := x.lm.writeCells p.cells
                 poison := if clean then x.poison.filter (· != line) else x.poison })
    else
      match s.applyBlock line with
      | none => none
      | some s =>
        if s.noL1 c p.bypass pk then
          some ((s.l1Expel t line).homeWrite (some c) p.home p.cells .store none (if clean then some false else none))
        else
          let s := (s.l1Use t p.home line false p.stream).modTile t fun x =>
            match x.l1.find line with
            | none => x
            | some l =>
              let rel := p.cells.map fun (a, b) => (a % 128, b)
              let mask := p.cells.foldl (fun (m : BitVec 128) (a, _) => m ||| (1#128 <<< (a % 128))) 0
              let l := { l with bytes := overlay l.bytes rel, dirty := l.dirty ||| mask, clean := l.clean || clean }
              { x with l1 := x.l1.set line l
                       l1Poison := if clean then x.l1Poison.filter (· != line) else x.l1Poison }
          let s := s.keepCode line (((s.tile t).l1.find line).elim [] (·.bytes))
          some (s.modCore c fun q =>
            { q with wrote := addNew q.wrote line, seen := if p.fwd then addNew q.seen line else q.seen })

/-- Drains the beat issued as access `n` of a core. What reaches a slice at once is received there (R228);
what has to wait at home is no longer the task's to discard (DESIGN CHOICE, log 86). -/
def State.drainStore (s : State) (c : CoreId) (n : Nat) : State :=
  let q := s.core c
  match q.stores.find? (·.n == n) with
  | none => s
  | some p =>
    if q.storeBlocked p then s
    else
      match s.drainCells c p with
      | none => s
      | some s =>
        let s := s.modCore c fun q => { q with stores := q.stores.filter (·.n != n) }
        if p.lcl then s else s.receipt c (sliceLevel c p.home)

/-- Drains, in program order, the stores of a core that a test picks, with what must drain before them. -/
def State.drainWhere (s : State) (c : CoreId) (pick : PendStore → Bool) : State :=
  let l := (s.core c).stores
  let need := fun (p : PendStore) => pick p ||
    l.any fun o => pick o && decide (p.n < o.n) && p.loc == o.loc && meets p.cells o.cells
  l.foldl (fun s p => if need p then s.drainStore c p.n else s) s

def State.drainAll (s : State) (c : CoreId) : State := s.drainWhere c fun _ => true

/-! ## The synchronisation engines (R116, R377) -/

/-- Lines that an engine holds: its SRAM and its overflow area. -/
def State.holdCap (s : State) (d : Nat) : Nat := 32768 + (s.cfg.syncOvf.get d (0, 0)).2 / 128

/-- The engine of a home slice's die takes a line, or touches one it holds (R377). None: the line waits at home. -/
def State.holdLine (s : State) (h line : Nat) : Option State :=
  let d := h / 2 / 16
  if (s.die d).held.contains line then
    some (s.modDie d fun x => { x with held := x.held.filter (· != line) ++ [line] })
  else
    let s := s.tiles.foldl (fun s (t, _) => s.l1Expel t line) s
    let s := s.l2EvictAll fun l _ => l == line
    if s.lineQueued line then none
    else some (s.modDie d fun x =>
      let l := x.held ++ [line]
      { x with held := l.drop (l.length - s.holdCap d) })

def atypeBits : AType → Nat
  | .i32 | .n32 => 32
  | .i64 | .n64 => 64
def atypeSigned : AType → Bool
  | .i32 | .i64 => true
  | .n32 | .n64 => false

/-- Extend (R115). -/
def atypeExtend (t : AType) (x : Nat) : Word :=
  if atypeSigned t then sext64 (atypeBits t) x else BitVec.ofNat 64 (x % 2 ^ atypeBits t)
/-- The type's value of the low bits of a word. -/
def atypeInt (t : AType) (x : Nat) : Int :=
  if atypeSigned t then (BitVec.ofNat (atypeBits t) x).toInt else (x % 2 ^ atypeBits t : Nat)

/-- What an atomic stores, from the old value (R115). -/
def Rmw.new (x : Rmw) (old : Nat) : Nat :=
  match x.op with
  | .add => old + x.v
  | .min => if atypeInt x.t x.v < atypeInt x.t old then x.v else old
  | .max => if atypeInt x.t old < atypeInt x.t x.v then x.v else old
  | .and => old &&& x.v
  | .or => old ||| x.v
  | .xor => old ^^^ x.v
  | .xchg => x.v
  | .cas e => if old = e then x.v else old

/-- Reads and writes one location at its engine, indivisibly and behind the writes that wait there (R298): the old value
and whether it was poisoned. None: the operation waits at home. -/
def State.engineRmw (s : State) (h pk : Nat) (t : AType) (new : Nat → Nat) : Option (State × Nat × Bool) :=
  let n := atypeBits t / 8
  let line := pk / 128
  match s.applyBlock line with
  | none => none
  | some s =>
    match s.holdLine h line with
    | none => none
    | some s =>
      if s.lineQueued line then none
      else
        let old := ofLe ((List.range n).map fun i => s.homeByte h (pk + i))
        if s.poisoned line then some (s, old, true)
        else
          let x := new old % 2 ^ atypeBits t
          if x = old then some (s, old, false)
          else (s.homeWriteNow none h ((rangeFrom pk n).zip (leBytes n x))).map fun s => (s, old, false)

/-! ## Loads (R262) -/

/-- The latest buffered store of a core, issued before access `n`, that holds a byte. -/
def Core.forwardFrom (q : Core) (n : Nat) (loc : Bool) (a : Nat) : Option PendStore :=
  (q.stores.filter fun p => p.loc == loc && decide (p.n < n) && p.cells.any (·.1 == a)).getLast?

/-- The byte that it holds. -/
def Core.forward (q : Core) (n : Nat) (loc : Bool) (a : Nat) : Option Byte :=
  (q.forwardFrom n loc a).map fun p => p.cells.get a

/-- What a load has read so far: bytes by index, and the address of poisoned data. -/
structure Read where
  bytes : List (Nat × Byte) := []
  ue : Option Word := none
  deriving DecidableEq, Repr

/-- One byte of local memory (R262). -/
def State.readLocal (s : State) (c : CoreId) (n : Nat) (r : Read) (i off : Nat) : Read :=
  match (s.core c).forward n true off with
  | some b => { r with bytes := r.bytes ++ [(i, b)] }
  | none =>
    let x := s.tile (tileOf c)
    { bytes := r.bytes ++ [(i, x.lm.get off)]
      ue := if x.poison.contains (off / 128) && r.ue.isNone then some (BitVec.ofNat 64 (scratchBase + off)) else r.ue }

/-- One byte of global memory: from the core's buffered store, or else from what the core has read ahead (R268), from the
tile's L1, or from home (R262, R263). None: an apply that the byte waits for cannot be done yet. -/
def State.readLane (s : State) (c : CoreId) (n : Nat) (r : Read) (l : Lane) : Option (State × Read) :=
  let t := tileOf c
  let line := l.pa / 128
  match s.applyBlock line with
  | none => none
  | some s =>
    match (s.core c).forwardFrom n false l.pa, (s.core c).early.find l.pa with
    | some p, _ =>
      some (s.modCore c fun q => { q with stores := q.stores.map fun o => if o.n = p.n then { o with fwd := true } else o },
        { r with bytes := r.bytes ++ [(l.i, p.cells.get l.pa)] })
    | none, some b => some (s, { r with bytes := r.bytes ++ [(l.i, b)] })
    | none, none =>
      let ue := fun (bad : Bool) => if bad && r.ue.isNone then some l.va else r.ue
      if s.noL1 c l.bypass l.pa then
        let s := s.l1Expel t line
        some (s, { bytes := r.bytes ++ [(l.i, s.homeByteFor t l.home l.pa)], ue := ue (s.poisonedFor t line) })
      else
        let s := (s.l1Use t l.home line l.stb l.stream).modCore c fun q => { q with seen := addNew q.seen line }
        match (s.tile t).l1.find line with
        | none => some (s, r)
        | some x =>
          some (s, { bytes := r.bytes ++ [(l.i, x.bytes.getD (l.pa % 128) 0)]
                     ue := ue ((s.tile t).l1Poison.contains line) })

/-- Reads lanes in order; what had been read ahead of them is used up. -/
def State.readEach (s : State) (c : CoreId) (n : Nat) (r : Read) : List Lane → Option (State × Read)
  | [] => some (s, r)
  | l :: ls =>
    match s.readLane c n r l with
    | none => none
    | some (s, r) =>
      (s.readEach c n r ls).map fun (s, r) =>
        (s.modCore c fun q => { q with early := q.early.erase l.pa }, r)

/-- What a core has read ahead counts for an access only where it holds every byte that the access reads of a beat: the beat
is read at one instant, then or now (R100, R267, R268). -/
def Core.wholeEarly (q : Core) (ls : List Lane) : Core :=
  { q with early := (laneBeats ls).foldl (fun m run =>
      if run.all fun l => (m.find l.pa).isSome then m else run.foldl (fun m l => m.erase l.pa) m) q.early }

/-- Reads the lanes of an access. -/
def State.readLanes (s : State) (c : CoreId) (n : Nat) (r : Read) (ls : List Lane) : Option (State × Read) :=
  (if ls.isEmpty then s else s.modCore c fun q => q.wholeEarly ls).readEach c n r ls

/-- Reads every byte of an access. -/
def State.readWhere (s : State) (c : CoreId) (n : Nat) (w : Where) : Option (State × Read) :=
  let r := w.locs.foldl (fun r (i, off) => s.readLocal c n r i off) {}
  s.readLanes c n r w.lanes

/-- The byte read for an index; a lane that takes no part is zero. -/
def Read.byte (r : Read) (i : Nat) : Byte := ((r.bytes.find? (·.1 == i)).map (·.2)).getD 0
/-- The little-endian number in `n` bytes from an index. -/
def Read.num (r : Read) (i n : Nat) : Nat := ofLe ((List.range n).map fun k => r.byte (i + k))

/-- Writes a load's value where it goes (R104 to R107). -/
def Core.loadInto (q : Core) (d : LoadDst) (r : Read) : Core :=
  match d with
  | .scalar x n signed => q.ws x (if signed then sext64 (8 * n) (r.num 0 n) else BitVec.ofNat 64 (r.num 0 n))
  | .pair a b => (q.ws a (BitVec.ofNat 64 (r.num 0 8))).ws b (BitVec.ofNat 64 (r.num 8 8))
  | .vec x long =>
    if long then { q with l := q.l.set x.toNat (BitVec.ofNat 2048 (r.num 0 256)) }
    else { q with v := q.v.set x.toNat (BitVec.ofNat 256 (r.num 0 32)) }
  | .nothing => q

/-- Poisoned data reached a load of a core: the destination stays unwritten and the deferred trap is pending, behind those
that are, or an idempotent task ends DATA_UE (R234, R250); both are taken at a boundary. -/
def Core.loadUe (q : Core) (pc blk va : Word) : Core := { q with due := q.due ++ [(pc, blk, va)] }

/-- Whether an outstanding load must wait for an earlier access of the same bytes: a load, or the core's own store where it
is an atomic (R264). -/
def Core.loadBlocked (q : Core) (l : PendLoad) : Bool :=
  (q.loads.any fun o => decide (o.n < l.n) && ((l.lanes.any fun a => o.reads false a.pa) || l.locs.any fun a => o.reads true a.2))
    || (l.rmw.isSome && q.stores.any fun p => decide (p.n < l.n) && !p.loc && p.cells.any fun (a, _) => l.reads false a)

/-- An outstanding load has read all its bytes: it returns (R234). -/
def Core.returnLoad (q : Core) (l : PendLoad) (r : Read) : Core :=
  let q := { q with loads := q.loads.filter (·.n != l.n) }
  match r.ue with
  | some va => if l.dst == .nothing then q else q.loadUe l.pc l.blk va
  | none => q.loadInto l.dst r

/-- Performs an outstanding atomic at its engine (R116). -/
def State.performRmw (s : State) (c : CoreId) (l : PendLoad) (x : Rmw) : State :=
  match l.lanes with
  | [] => s
  | a :: _ =>
    match s.engineRmw a.home a.pa x.t x.new with
    | none => s
    | some (s, old, bad) =>
      let n := atypeBits x.t / 8
      s.modCore c fun q =>
        ({ q with early := q.early.filter fun (k, _) => k / 32 != a.pa / 32 } : Core).returnLoad l
          { bytes := (List.range n).zip (leBytes n old), ue := if bad then some a.va else none }

/-- Performs the outstanding load or atomic `n` of a core (R262, R103). -/
def State.performLoad (s : State) (c : CoreId) (n : Nat) : State :=
  let q := s.core c
  match q.loads.find? (·.n == n) with
  | none => s
  | some l =>
    if q.loadBlocked l then s
    else
      match l.rmw with
      | some x => s.performRmw c l x
      | none =>
        let r := l.locs.foldl (fun r (i, off) => s.readLocal c n r i off) { bytes := l.got, ue := l.ue }
        match s.readLanes c n r l.lanes with
        | none => s
        | some (s, r) => s.modCore c fun q => q.returnLoad l r

/-- Bytes that an access of a kind reads at one instant at least (R100). -/
def LoadDst.unit : LoadDst → Nat
  | .vec .. => 32
  | .pair .. => 16
  | .scalar .. | .nothing => 8

/-- Reads one beat of an outstanding load, ahead of its others (R100): the `k`th of those it has still to read. -/
def State.loadBeat (s : State) (c : CoreId) (n k : Nat) : State :=
  let q := s.core c
  match q.loads.find? (·.n == n) with
  | none => s
  | some l =>
    if q.loadBlocked l || l.rmw.isSome then s
    else
      let set := fun (s : State) (l' : PendLoad) =>
        s.modCore c fun q => { q with loads := q.loads.map fun o => if o.n = n then l' else o }
      let r : Read := { bytes := l.got, ue := l.ue }
      let locs := runsBy (·.2 / l.dst.unit) l.locs
      let lanes := runsBy (·.pa / l.dst.unit) l.lanes
      if locs.length + lanes.length ≤ 1 then s
      else
        match locs[k]? with
        | some run =>
          let r := run.foldl (fun r (i, off) => s.readLocal c n r i off) r
          set s { l with locs := l.locs.filter (!run.contains ·), got := r.bytes, ue := r.ue }
        | none =>
          match lanes[k - locs.length]? with
          | none => s
          | some run =>
            match s.readLanes c n r run with
            | none => s
            | some (s, r) => set s { l with lanes := l.lanes.filter (!run.contains ·), got := r.bytes, ue := r.ue }

/-- Performs every outstanding load of a core, oldest first. -/
def State.performLoads (s : State) (c : CoreId) : State :=
  (s.core c).loads.foldl (fun s l => s.performLoad c l.n) s

/-- Reads a beat of global memory ahead of a load that the core has not issued (R268, R259 and R255: log 11): nothing that it has issued orders
later loads of the beat, and no other agent's order does. -/
def State.earlyRead (s : State) (c : CoreId) (va : Nat) : State :=
  let q := s.core c
  let ctx := q.ctxNum
  let a := alignDown va 32
  if q.work.isNone || !isGlobal a || !q.fences.isEmpty || q.sc.isSome then s
  else
    match s.xlat c ctx a false with
    | (_, .error _) => s
    | (s, .ok x) =>
      let pk := x.key a
      if storeOf pk == .host || s.viewBad pk || !q.mayUse false x.leaf || s.heldLine (pk / 128) || s.regionLine (pk / 128)
        || (q.stores.any fun p => !p.loc && p.cells.any (·.1 / 32 == pk / 32))
        || (q.loads.any fun l => l.lanes.any (·.pa / 32 == pk / 32)) then s
      else
        let lanes : List Lane := (List.range 32).map fun i =>
          ⟨i, BitVec.ofNat 64 (a + i), pk + i, s.homeOf ctx a x.leaf, decide (2 ≤ viewOf pk), pteStb x.leaf, false, false⟩
        match s.readLanes c q.issue {} lanes with
        | none => s
        | some (t, r) =>
          if r.ue.isSome then s
          else t.modCore c fun q =>
            { q with early := (List.range 32).foldl (fun m i => SMap.set m (pk + i) (r.byte i)) q.early }

/-! ## Ranges of generic addresses and L1 (R113, R114, R127, R218) -/

/-- The physical lines of a range of a context, page by page; absent pages have none. -/
def State.rangeLines (s : State) (ctx base len : Nat) : List (Nat × Nat) :=
  if len = 0 then []
  else
    let first := base / 4096
    let last := (base + len - 1) / 4096
    (rangeFrom first (last - first + 1)).filterMap fun pg =>
      let a := max base (4096 * pg)
      let e := min (base + len) (4096 * (pg + 1))
      match s.walk ctx a with
      | .error _ => none
      | .ok x => some (x.key a, x.key a + (e - a))

/-- Whether a line meets one of several physical ranges. -/
def lineIn (ranges : List (Nat × Nat)) (line : Nat) : Bool :=
  ranges.any fun (a, e) => decide (a < 128 * line + 128) && decide (128 * line < e)

end Sys2Proof.Machine
end

