-- ==== Sys2Proof/Machine/Engine.lean ====
section
/-! DEFINITION. Engine operations: numbering, their reads and writes, completion, failure and fault records
(04_memory_sync R125 to R127, 06_matrix_stream R154 to R157, 10_traps R247). -/
namespace Sys2Proof.Machine
open Sys2Proof

/-! ## The save area (R246) -/

def State.saveArea (s : State) (ctx : Nat) : Nat := ((s.ctxs.find ctx).map (·.save)).getD 0
def State.coreRecord (s : State) (ctx : Nat) (c : CoreId) : Nat := s.saveArea ctx + 0x2100 * c

/-! ## Timelines (R125, R154) -/

/-- The tag of an operation: timeline code and number (R154). -/
def tagOf (t : Timeline) (n : Nat) : Word := BitVec.ofNat 64 (t.code * 2 ^ 61 + n % 2 ^ 61)

/-- Takes completed numbers into C while they follow it. -/
def Tline.catchUp : Nat → Tline → Tline
  | 0, t => t
  | k + 1, t =>
    if t.beyond.contains (t.done + 1) then
      Tline.catchUp k { t with done := t.done + 1, beyond := t.beyond.filter (· != t.done + 1) }
    else t

/-- Operation `n` counts as completed with a status, which is kept while it is one of the 256 most recent (R125, R156). -/
def Tline.complete (t : Tline) (n : Nat) (status : Byte) : Tline :=
  let t := { t with beyond := addNew t.beyond n
                    status := if t.issued < n + 256 then t.status.set (n % 256) status else t.status }
  t.catchUp t.beyond.length

/-- The kept status of an operation: EXPIRED beyond the 256 most recent (R156). -/
def Tline.statusOf (t : Tline) (n : Nat) : Byte :=
  if n = 0 then 0 else if n + 256 ≤ t.issued then 0xFF else t.status.get (n % 256) 0

/-- A user-level interrupt is pending (R188). -/
def Core.uiPending (q : Core) : Bool := q.ui.cause &&& q.ui.en != 0

/-- Sets a wake reason for SLEEP (R81). -/
def Core.wakeFor (q : Core) (bit : Nat) : Core := { q with wakes := q.wakes ||| (1#6 <<< bit) }

/-- What the completion of an operation does to the core whose work issued it: C, the kept status, UI_CAUSE when C
advances, and the wake reasons of a SLEEP (R81, R125, R190). -/
def Core.opDone (q : Core) (t : Timeline) (n : Nat) (status : Byte) : Core :=
  let old := q.tl t
  let new := old.complete n status
  let q := (q.setTl t new).wakeFor 2
  let q := if status == 0x10 || (status == 0x13 && q.engFail.isNone) then { q with engFail := some status } else q
  if new.done = old.done then q
  else
    let q := { q with ui := { q.ui with cause := q.ui.cause ||| (1#5 <<< t.code) } }
    if q.uiPending then q.wakeFor 1 else q

/-! ## Requests (R238, R243) -/

/-- A kill prevails over an expiry, and that over a pre-emption. -/
def Req.rank : Req → Nat
  | .preempt _ => 1
  | .watchdog => 2
  | .kill => 3

/-- Puts a request before a core, unless a stronger one is pending; a pre-emption, of which an expiry is one, is a
reason for its next SLEEP to end (R81, R243). -/
def Core.request (q : Core) (r : Req) : Core :=
  let q := match r with
    | .preempt _ | .watchdog => q.wakeFor 4
    | .kill => q
  match q.req with
  | some r' => if r'.rank < r.rank then { q with req := some r } else q
  | none => { q with req := some r }

/-! ## Issue -/

/-- What an operation keeps of its core (R301). -/
def Core.engEnv (q : Core) : EngEnv := ⟨!q.priv, q.grants, q.spillBase, q.ovfBase⟩

/-- Numbers an operation on a timeline of a core: the state and the number (R125). -/
def State.engIssue (s : State) (c : CoreId) (t : Timeline) (kind : OpKind) : State × Nat :=
  let q := s.core c
  let n := (q.tl t).issued + 1
  let o : EngOp := { core := c, ctx := q.ctxNum, inst := q.inst, tl := t, n := n, kind := kind, env := q.engEnv,
                     issued := q.issue, rc := q.ringCore.getD c }
  let q := q.setTl t { q.tl t with issued := n }
  ({ s.setCore c q with ops := s.ops ++ [o] }, n)

/-- The outstanding operation `n` of the work now on a core. -/
def State.op (s : State) (c : CoreId) (t : Timeline) (n : Nat) : Option EngOp :=
  s.ops.find? fun o => o.core == c && o.tl == t && o.n == n && o.inst == (s.core c).inst

/-- Identity of an operation. -/
def EngOp.same (a b : EngOp) : Bool := a.core == b.core && a.inst == b.inst && a.tl == b.tl && a.n == b.n

/-- Replaces an outstanding operation. -/
def State.setOp (s : State) (o : EngOp) : State := { s with ops := s.ops.map fun x => if x.same o then o else x }

/-- Outstanding operations of an instance of work. -/
def State.opsOf (s : State) (inst : Nat) : List EngOp := s.ops.filter (·.inst == inst)

/-! ## Fault records (R247) -/

def State.faultRecord (s : State) (o : EngOp) (status : Byte) (slice : Nat) (info : Word) : State :=
  match s.ctxs.find o.ctx with
  | none => s
  | some x =>
    let rec8 := leBytes 8 (tagOf o.tl o.n).toNat ++ leBytes 2 o.core ++ [status, BitVec.ofNat 8 slice]
      ++ leBytes 4 x.gen.toNat ++ leBytes 8 info.toNat ++ leBytes 8 s.now
    let s := if 4096 ≤ x.faults then s.resourceEvent 1 o.ctx 0 else s
    let s := s.paWrite (x.faultLog + 32 * (x.faults % 4096)) rec8
    { s with ctxs := s.ctxs.set o.ctx { x with faults := x.faults + 1 } }

/-- An operation completes: it fails with a fault record, or it succeeds; the work that issued it, and no later work,
sees it on its timeline (R125, R156, R244). -/
def State.opComplete (s : State) (o : EngOp) (status : Byte) (slice : Nat) (info : Word) : State :=
  let s := (if status = 0 then s else s.faultRecord o status slice info).settleViews
  let s := { s with ops := s.ops.filter fun x => !x.same o }
  if (s.core o.core).inst = o.inst then s.modCore o.core fun q => q.opDone o.tl o.n status
  else { s with saved := s.saved.map fun r =>
    if r.inst = o.inst && r.core = o.core then { r with late := r.late ++ [(o.tl.code, o.n, status)] } else r }

/-! ## Reads and writes of engines (R155, R277) -/

/-- A core with an operation's privilege, share and stack mapping, as far as its addresses go. -/
def EngOp.view (o : EngOp) : Core :=
  { grants := o.env.grants, spillBase := o.env.spillBase, ovfBase := o.env.ovfBase, priv := !o.env.user,
    work := some ⟨o.ctx, 0, none, false, false⟩ }

/-- Agent code of a page request (R409). -/
def OpKind.agent : OpKind → Nat
  | .matrix .. | .load .. | .scale .. | .perm .. | .zero .. | .accWrite .. => 1
  | .copy .. | .pattern .. | .ternarise .. | .stream .. => 2
  | .gather .. => 3
  | .flush .. => 4
  | .put .. | .flag .. | .send .. | .recv .. => 5

/-- What an engine's access answers. -/
inductive EngRes (α : Type) where
  | ok (s : State) (a : α)
  /-- A page has been requested, or an apply or a write has to wait. -/
  | wait (s : State)
  | fail (s : State) (status : Byte) (info : Word)

/-- The work of an instance is off its core, saved (10 R244). -/
def State.isSaved (s : State) (c : CoreId) (inst : Nat) : Bool := s.saved.any fun r => r.inst == inst && r.core == c

/-- The record of an operation's work while it is saved. -/
def State.savedOf (s : State) (o : EngOp) : Option SavedRec := s.saved.find? fun r => r.inst == o.inst && r.core == o.core

/-- Where the scratchpad byte at a local-memory offset lies for an operation whose work is saved: in the image saved with it,
or with the record of the same work that holds the tile's (R244, R246). -/
def State.imageAt (s : State) (o : EngOp) (off : Nat) : Option Nat :=
  (s.savedOf o).bind fun mine =>
    (s.saved.find? fun r => r.work == mine.work && tileOf r.core == tileOf o.core && decide (r.imageLo ≤ off)
      && decide (off < r.imageLo + r.imageLen)).map fun r => r.image + (off - r.imageLo)

/-- The operation may read: the stores its core issued before it have drained (R155). -/
def State.opReady (s : State) (o : EngOp) : Bool :=
  let q := s.core o.core
  q.inst != o.inst || q.stores.all fun p => decide (o.issued ≤ p.n)

/-- The page of a translation miss is requested, and the operation waits for it (R241); an unbacked frame fails it (R304). -/
def State.opMiss (s : State) (o : EngOp) (va acc : Nat) (m : Miss) {α : Type} : EngRes α :=
  if m == .unbacked then .fail s 0x12 (BitVec.ofNat 64 va)
  else .wait ((s.pageRequest o.ctx va acc o.kind.agent o.core m.bad).setOp { o with page := some (alignDown va 4096) })

/-- Lines that an operation has written, and its work not acquired (R127). -/
def State.opWrote (s : State) (o : EngOp) : List (Nat × Nat × Nat) :=
  if (s.core o.core).inst = o.inst then (s.core o.core).engWrote else ((s.savedOf o).map (·.engWrote)).getD []

/-- Records the lines an operation has written, for the acquire of its work (R127). -/
def State.noteWrite (s : State) (o : EngOp) (line : Nat) : State :=
  let e := (o.tl.code, o.n, line)
  if (s.core o.core).inst = o.inst then
    s.modCore o.core fun q => { q with engWrote := addNew q.engWrote e }
  else { s with saved := s.saved.map fun r =>
    if r.inst = o.inst && r.core = o.core then { r with engWrote := addNew r.engWrote e } else r }

/-- An operation's access at `ea` counts for SPILL_OVF of its work, while the work's overflow area is that of the issue (R231,
DEDUCED, log 81): on its core, or in its record. -/
def State.noteOvf (s : State) (o : EngOp) (ea : Nat) : State :=
  let f := fun (q : Core) => if q.ovfBase == o.env.ovfBase then q.markOvf o.env.ovfBase o.env.grants ea else q
  if (s.core o.core).inst = o.inst then s.modCore o.core f
  else
    match s.savedOf o with
    | none => s
    | some r =>
      let snap := f r.snap
      if snap.ovfMark = r.snap.ovfMark then s
      else { s with saved := s.saved.map fun (x : SavedRec) => if x.inst = o.inst && x.core = o.core then { x with snap := snap } else x }.paWrite
        (s.coreRecord r.ctx r.core + 0x78) (leBytes 8 snap.ovfMark.toNat)

/-- Translates an address for an operation and checks the access (R101, R156, R304). `ea`: the address as named. -/
def State.engXlat (s : State) (o : EngOp) (write : Bool) (ea va : Nat) : EngRes Xlat :=
  let info := BitVec.ofNat 64 ea
  let acc := if write then 1 else 0
  if stackBase ≤ va then .fail s 0x12 info
  else if o.denied.contains (alignDown va 4096) then .fail s 0x10 info
  else
    match s.xlatEngine o.core o.ctx va false with
    | (s, .error m) => s.opMiss o va acc m
    | (s, .ok x) =>
      if s.viewBad (x.key va) then .fail s 0x12 info
      else if !o.view.mayUse write x.leaf then .fail s 0x11 info
      else
        match if write then s.xlatEngine o.core o.ctx va true else (s, .ok x) with
        | (s, .error m) => s.opMiss o va acc m
        | (s, .ok x) => .ok s x

/-- Reads one byte for an operation: local memory or its saved image, or global memory as a load of the core's reads it,
from the tile's L1 or from home; a line that the operation itself has written is read at home (R155, R175). -/
def State.engByte (s : State) (o : EngOp) (ea : Nat) : EngRes Byte :=
  let t := tileOf o.core
  let info := BitVec.ofNat 64 ea
  match o.view.place ea with
  | none => .fail s 0x12 info
  | some (.lm off) =>
    match s.imageAt o off with
    | some pa => if s.poisoned (pa / 128) then .fail s 0x13 info else .ok s (s.paByte pa)
    | none => if (s.tile t).poison.contains (off / 128) then .fail s 0x13 info else .ok s ((s.tile t).lm.get off)
  | some (.glob va ovf) =>
    match s.engXlat o false ea va with
    | .wait s => .wait s
    | .fail s st i => .fail s st i
    | .ok s x =>
      let s := if ovf then s.noteOvf o ea else s
      let pk := x.key va
      let line := pk / 128
      match s.applyBlock line with
      | none => .wait s
      | some s =>
        let l1 := if decide (2 ≤ viewOf pk) || s.regionLine line || s.heldLine line
            || (s.opWrote o).contains (o.tl.code, o.n, line) then none
          else (s.tile t).l1.find line
        match l1 with
        | some l =>
          if (s.tile t).l1Poison.contains line then .fail s 0x13 info else .ok s (l.bytes.getD (pk % 128) 0)
        | none =>
          if s.poisonedFor t line then .fail s 0x13 info
          else .ok s (s.homeByteFor t (s.homeOf o.ctx va x.leaf) pk)

/-- Reads the bytes at addresses, in order. -/
def State.engBytes (s : State) (o : EngOp) : List Nat → EngRes (List Byte)
  | [] => .ok s []
  | a :: r =>
    match s.engByte o a with
    | .wait s => .wait s
    | .fail s st i => .fail s st i
    | .ok s b =>
      match s.engBytes o r with
      | .wait s => .wait s
      | .fail s st i => .fail s st i
      | .ok s bs => .ok s (b :: bs)

/-- Where a byte lies for an operation: in local memory, or in memory; none where it has no translation. -/
def State.engKey (s : State) (o : EngOp) (ea : Nat) : Option Nat :=
  match o.view.place ea with
  | some (.lm off) => some (2 ^ 60 + off)
  | some (.glob va _) =>
    match s.lookEngine o.core o.ctx va with
    | .ok x => some (x.key va)
    | .error _ => none
  | none => none

/-- The name of an operation. -/
def EngOp.ref (o : EngOp) : JobRef := ⟨o.core, o.inst, o.tl, o.n⟩

/-- No write of an operation waits on its way home (R277). -/
def State.landed (s : State) (o : EngOp) : Bool := s.homeQ.all fun w => w.job != some o.ref

/-- Writes bytes of the line of an address for an operation, each at its place in the line: scratchpad at once, global memory
at home, the tile's dirty bytes of the line first (R155, R277). -/
def State.engWriteCells (s : State) (o : EngOp) (ea : Nat) (cells : List (Nat × Byte)) : EngRes Unit :=
  let t := tileOf o.core
  match o.view.place ea with
  | none => .fail s 0x12 (BitVec.ofNat 64 ea)
  | some (.lm off) =>
    let lo := off - ea % 128
    match s.imageAt o off with
    | some pa => .ok (cells.foldl (fun s (i, b) => s.paWrite (pa - ea % 128 + i) [b]) s) ()
    | none =>
      .ok (s.modTile t fun x =>
        { x with lm := x.lm.writeCells (cells.map fun (i, b) => (lo + i, b))
                 poison := if cells.length = 128 && lo % 128 = 0 then x.poison.filter (· != lo / 128) else x.poison }) ()
  | some (.glob va ovf) =>
    match s.engXlat o true ea va with
    | .wait s => .wait s
    | .fail s st i => .fail s st i
    | .ok s x =>
      let s := if ovf then s.noteOvf o (ea - ea % 128 + ((cells.map (·.1)).foldl max 0)) else s
      let line := x.key va / 128
      match s.applyBlock line with
      | none => .wait s
      | some s =>
        let s := (s.l1WriteBack t line).noteWrite o line
        .ok (s.homeWrite (some o.core) (s.homeOf o.ctx va x.leaf) (cells.map fun (i, b) => (128 * line + i, b)) .engine
          (some o.ref)) ()

/-- Writes bytes within one line for an operation. -/
def State.engWriteLine (s : State) (o : EngOp) (ea : Nat) (bytes : List Byte) : EngRes Unit :=
  let last := ea + bytes.length - 1
  if (o.view.place last).isNone then .fail s 0x12 (BitVec.ofNat 64 ea)
  else s.engWriteCells o ea ((rangeFrom (ea % 128) bytes.length).zip bytes)

/-- Length of the part of [a, a + n) that lies in a's line. -/
def lineRoom (a n : Nat) : Nat := min n (128 - a % 128)

/-- Writes bytes line by line; `fuel` lines at most. -/
def State.engWrite (s : State) (o : EngOp) : Nat → Nat → List Byte → EngRes Unit
  | 0, _, _ => .ok s ()
  | fuel + 1, ea, bytes =>
    if bytes.isEmpty then .ok s ()
    else
      let n := lineRoom ea bytes.length
      match s.engWriteLine o ea (bytes.take n) with
      | .ok s _ => s.engWrite o fuel (ea + n) (bytes.drop n)
      | .wait s => .wait s
      | .fail s st i => .fail s st i

/-! ## Acquire (R127) -/

/-- Makes the effects of operations 1 to n visible: the lines they wrote leave the tile's L1 (R127). -/
def State.acquire (s : State) (c : CoreId) (t : Timeline) (n : Nat) : State :=
  let mine := (s.core c).engWrote.filter fun (k, m, _) => k == t.code && decide (m ≤ n)
  let s := mine.foldl (fun s (_, _, line) => s.l1Expel (tileOf c) line) s
  s.modCore c fun q =>
    { q with engWrote := q.engWrote.filter fun (k, m, _) => !(k == t.code && decide (m ≤ n))
             early := q.early.filter fun (a, _) => !mine.any fun (_, _, line) => a / 128 == line }

/-! ## Issue-time checks on global writes of an idempotent task (R157, R211) -/

/-- Whether [a, e) is covered by ranges (base, length), with as many steps as `fuel`. -/
def coverFrom (outs : List (Nat × Nat)) : Nat → Nat → Nat → Bool
  | 0, a, e => decide (e ≤ a)
  | n + 1, a, e =>
    decide (e ≤ a) || match outs.find? fun (b, len) => b ≤ a && a < b + len with
      | none => false
      | some (b, len) => coverFrom outs n (b + len) e

/-- Whether a byte range lies inside a task's declared outputs. -/
def Core.declared (q : Core) (a n : Nat) : Bool := coverFrom q.grants.outs q.grants.outs.length a (a + n)

/-- Whether a W range, partition and offset joined, lies inside the declared W-stack outputs. -/
def Core.declaredW (q : Core) (w n : Nat) : Bool := coverFrom q.grants.wouts q.grants.wouts.length w (w + n)

/-! ## Progress -/

/-- What one unit of an operation's progress answers. -/
inductive Beat where
  | more (s : State)
  | wait (s : State)
  | over (s : State) (status : Byte) (slice : Nat) (info : Word)

/-- Stores that the core issued before the operation drain (R155): none while one of them cannot. -/
def State.ownStores (s : State) (o : EngOp) : Option State :=
  let s := if (s.core o.core).inst = o.inst then s.drainWhere o.core fun p => decide (p.n < o.issued) else s
  if s.opReady o then some s else none

/-- An outstanding operation as it stands now. -/
def State.current (s : State) (o : EngOp) : EngOp := (s.ops.find? (·.same o)).getD o

end Sys2Proof.Machine
end

