-- ==== Sys2Proof/Machine/Sync.lean ====
section
/-! DEFINITION. Fences and their predecessor steps (04_memory_sync R109, R110; 12_memory_model R270 to R279). -/
namespace Sys2Proof.Machine
open Sys2Proof

/-! ## Access classes (R109) -/

def clsGl : Byte := 0x01
def clsGs : Byte := 0x02
def clsLl : Byte := 0x04
def clsLs : Byte := 0x08
def clsEi : Byte := 0x10
def clsUe : Byte := 0x20
def clsRp : Byte := 0x40
def clsVw : Byte := 0x80

/-- Whether two sets of classes meet. -/
def meet (a b : Byte) : Bool := a &&& b != 0

/-- A fence of local classes only acts at most within the tile (R110). -/
def FenceRec.reach (f : FenceRec) : Nat :=
  if (f.pred ||| f.succ) &&& 0xF3 == 0 then min 1 f.scope.code else f.scope.code

/-- An operation whose issue a FENCE orders: its descriptor and source are read after issue (R110, log 28). -/
def OpKind.readsSource : OpKind → Bool
  | .copy .. | .pattern .. | .ternarise .. | .load .. | .perm .. | .gather .. | .stream .. | .matrix .. => true
  | .flush .. | .scale .. | .zero .. | .accWrite .. | .put .. | .flag .. | .send .. | .recv .. => false
/-- A ring operation whose source is read after issue. -/
def OpKind.ringSource : OpKind → Bool
  | .put .. | .send .. => true
  | .copy .. | .pattern .. | .ternarise .. | .stream .. | .gather .. | .flush .. | .load .. | .scale .. | .perm ..
  | .zero .. | .accWrite .. | .matrix .. | .flag .. | .recv .. => false

/-- An operation whose source has been read, or will not be read further: what is left of it is its completion (R110). -/
def State.sourceRead (s : State) (o : EngOp) : Bool :=
  o.fail.isSome || match o.kind with
    | .copy _ _ len | .load _ _ len => decide (len ≤ o.prog)
    | .pattern d => decide (patTotal (d.take 32) ≤ o.prog)
    | .ternarise d => decide (thGroups d ≤ o.prog)
    | .put _ _ _ len => decide (len ≤ 256 * o.sent.length)
    | .send _ _ _ _ n => decide (n ≤ o.sent.length)
    | .matrix .. => s.clusters.any fun (_, x) => x.order.any fun op => op.parts.contains o.ref && op.started && !op.running
    | .gather .. | .stream .. | .perm .. | .flush .. | .scale .. | .zero .. | .accWrite .. | .flag .. | .recv .. => false

/-- A buffered store of a class of the set, or one whose value a load of class gl has returned (R271). -/
def PendStore.inSet (p : PendStore) (set : Byte) : Bool :=
  (if p.lcl then meet set clsLs else meet set clsGs || (p.fwd && meet set clsGl))
    || (meet set clsVw && !p.loc && p.cells.any fun (a, _) => viewOf a != 0)

/-- An outstanding load or atomic of a class of the set (R109, R116). -/
def PendLoad.inSet (l : PendLoad) (set : Byte) : Bool :=
  (meet set clsGl && (l.lanes.any (!·.ovf)) && l.dst != .nothing) || (meet set clsGs && l.rmw.isSome)
    || (meet set clsLl && (!l.locs.isEmpty || l.lanes.any (·.ovf)))
    || (meet set clsVw && l.lanes.any fun a => viewOf a.pa != 0)

/-! ## Visibility beyond the tile -/

/-- Writes back every dirty line that the core has written (`gs`) or read (`gl`), to its home (R262, R310). -/
def State.publishLines (s : State) (c : CoreId) (gs gl : Bool) : State :=
  let q := s.core c
  let mine := (if gs then q.wrote else []) ++ (if gl then q.seen else [])
  let s := mine.foldl (fun s line => s.l1WriteBack (tileOf c) line) s
  s.modCore c fun q => { q with wrote := if gs then [] else q.wrote, seen := if gl then [] else q.seen }

/-- Writes back every dirty V0 line that the core has written, to its home, where the cross-view step takes it (R279). -/
def State.publishViews (s : State) (c : CoreId) : State :=
  ((s.core c).wrote.filter fun line => viewOf (128 * line) != 0).foldl (fun s line => s.l1WriteBack (tileOf c) line) s

/-- Later loads of the core take other agents' writes: lines of its tile's L1 leave, but those of stable pages (R270, R309). -/
def State.freshLines (s : State) (c : CoreId) : State :=
  (s.l1Sweep (tileOf c) true fun line _ => !s.lineStb line).modCore c fun q => { q with early := [] }

/-- The classes of stores that a fence drains: a set that includes vw takes the earlier writes to view regions with it (R110,
R279). -/
def FenceRec.before (f : FenceRec) : Byte := f.pred ||| ((f.pred ||| f.succ) &&& clsVw)

/-- The predecessor steps of a fence are done (R110, R270); an operation's completion is not among them. -/
def State.fenceDone (s : State) (c : CoreId) (f : FenceRec) : Bool :=
  let q := s.core c
  let gl := meet f.pred clsGl
  let gs := meet f.pred clsGs
  let vw := meet (f.pred ||| f.succ) clsVw
  let wide := decide (2 ≤ f.reach)
  !(((gl || gs) && q.sc.isSome) || (q.loads.any fun l => decide (l.n < f.upto) && l.inSet f.pred)
    || (q.stores.any fun p => decide (p.n < f.upto) && p.inSet f.before)
    || (wide && (gl || gs) && s.tileWaits (tileOf c))
    || (meet f.pred clsUe && !q.idem && s.flight.any fun p => p.src == c && decide (p.num < f.pairs))
    || (vw && s.homeQ.any fun w => w.core.any (tileOf · == tileOf c) && w.cells.any fun (a, _) => viewOf a != 0)
    || (s.opsOf q.inst).any fun o => o.core == c && decide (o.issued ≤ f.upto) && !s.sourceRead o &&
        ((meet f.pred clsEi && o.kind.readsSource) || (meet f.pred clsRp && o.kind.ringSource)))

/-- Takes the predecessor steps of a fence, as far as they can be taken (R110, R270, R271, R279). -/
def State.fenceTry (s : State) (c : CoreId) (f : FenceRec) : State :=
  let gl := meet f.pred clsGl
  let gs := meet f.pred clsGs
  let vw := meet (f.pred ||| f.succ) clsVw
  let wide := decide (2 ≤ f.reach)
  let s := if (s.core c).loads.any fun l => decide (l.n < f.upto) && l.inSet f.pred then s.performLoads c else s
  let s := s.drainWhere c fun p => decide (p.n < f.upto) && p.inSet f.before
  let s := if wide && (gl || gs) then s.publishLines c gs gl else s
  let s := if meet f.pred clsUe && !(s.core c).idem then s.arriveAll c else s
  let s := if vw then (s.publishViews c).settleViews else s
  if wide && meet f.succ clsGl then s.freshLines c else s

/-- Takes the predecessor steps of a fence. None: one of them must still wait. -/
def State.fenceSteps (s : State) (c : CoreId) (f : FenceRec) : Option State :=
  let s := s.fenceTry c f
  if s.fenceDone c f then some s else none

/-- The gate of an access of some classes: completes every fence that orders one of them after its predecessors. None:
the access waits before issue, for such a fence (R110) or for a sequentially consistent operation, which acts as a fence of all
classes (R118, R276). -/
def State.fenceGate (s : State) (c : CoreId) (cls : Byte) : Option State :=
  if (s.core c).sc.isSome && cls != 0 then none
  else (s.core c).fences.foldl (fun r f =>
    match r with
    | none => none
    | some s =>
      if meet f.succ cls then
        (s.fenceSteps c f).map fun s => s.modCore c fun q => { q with fences := q.fences.filter (· != f) }
      else some s) (some s)

/-- The oldest fence of a core completes, if its predecessor steps can be done. -/
def State.fenceMove (s : State) (c : CoreId) : State :=
  match (s.core c).fences with
  | [] => s
  | f :: _ => ((s.fenceSteps c f).map fun s => s.modCore c fun q => { q with fences := q.fences.filter (· != f) }).getD s

/-- Completes the fences of several cores, whatever they order (R110). None: one of them must still wait. -/
def State.finishFences (s : State) (ms : List CoreId) : Option State :=
  ms.foldl (fun r m => (s.core m).fences.foldl (fun r f =>
    match r with
    | none => none
    | some s => (s.fenceSteps m f).map fun s => s.modCore m fun q => { q with fences := q.fences.filter (· != f) }) r)
    (some s)

/-- Every load and store of a core before now, of every class, performed within a reach (R121, R218, R231). -/
def State.releaseAll (s : State) (c : CoreId) (scope : Scope) : Option State :=
  s.fenceSteps c { pred := clsGl ||| clsGs ||| clsLl ||| clsLs ||| clsVw, succ := 0, scope := scope, upto := (s.core c).issue }

end Sys2Proof.Machine
end

