-- ==== Sys2Proof/Machine/Work.lean ====
section
/-! DEFINITION. The work on a core: dispatch, abort, end, and the transitions of graph nodes (09_execution R210 to R224,
10_traps R235, R239, R240). -/
namespace Sys2Proof.Machine
open Sys2Proof

/-! ## Handles: counts, claims and commits (R171) -/

def HState.code : HState → Nat
  | .unbound => 0
  | .ring => 1
  | .stream => 2
  | .update => 3

/-- Filled slots for a new consumer. -/
def Handle.filled (h : Handle) : Nat := h.p - h.d
/-- Free slots for a new producer. -/
def Handle.free (h : Handle) : Nat := h.slots - (h.q - h.c)
/-- The generic address of a slot position. -/
def Handle.slotAt (h : Handle) (x : Nat) : Word := h.base + BitVec.ofNat 64 (x % h.slots * h.bytes)
/-- An engine claim is outstanding. -/
def Handle.claimed (h : Handle) : Bool := h.p != h.q || h.c != h.d

/-- P moves over the finished claims that follow it. -/
def Handle.catchP : Nat → Handle → Handle
  | 0, h => h
  | n + 1, h =>
    if h.doneP.contains h.p then Handle.catchP n { h with p := h.p + 1, doneP := h.doneP.filter (· != h.p) } else h

/-- C moves over the consumed slots that follow it, as far as they are filled (R344). -/
def Handle.catchC : Nat → Handle → Handle
  | 0, h => h
  | n + 1, h =>
    if h.c < h.p && h.doneC.contains h.c then
      Handle.catchC n { h with c := h.c + 1, doneC := h.doneC.filter (· != h.c) }
    else h

/-- Commits in claim order what is finished. -/
def Handle.settle (h : Handle) : Handle :=
  let h := h.catchP h.doneP.length
  h.catchC h.doneC.length

/-- A producer has finished the claimed position `x`. -/
def Handle.commitP (h : Handle) (x : Nat) : Handle := Handle.settle { h with doneP := addNew h.doneP x }
/-- A consumer has finished the claimed position `x`. -/
def Handle.commitC (h : Handle) (x : Nat) : Handle := Handle.settle { h with doneC := addNew h.doneC x }

/-! ## The handles of an operation's work -/

/-- A handle of the work that issued an operation: on its core, or kept for it after the work is over (R239), or saved. -/
def State.opHandle (s : State) (c : CoreId) (inst : Nat) (h : HReg) : Handle :=
  if (s.core c).inst = inst then (s.core c).handle h
  else
    match s.saved.find? (fun r => r.core == c && r.inst == inst), s.orphans.find? (fun o => o.core == c && o.inst == inst) with
    | some r, _ => r.snap.handle h
    | none, some o => o.handles.get h.toNat {}
    | none, none => {}

/-- A handle's 64 bytes (log 37). -/
def Handle.image (x : Handle) : List Byte :=
  padTo 64 (Config.handleImage [x.st.code, if x.fault then 1 else 0, if x.exhausted then 1 else 0, x.base.toNat, x.bytes,
    x.slots, x.p, x.q, x.c, x.d, x.committed])

/-- Changes a handle of an operation's work; one of saved work also in its record (R244, R246). -/
def State.modOpHandle (s : State) (c : CoreId) (inst : Nat) (h : HReg) (f : Handle → Handle) : State :=
  if (s.core c).inst = inst then s.modCore c fun q => q.setHandle h (f (q.handle h))
  else
    match s.saved.find? fun r => r.core == c && r.inst == inst with
    | some r =>
      let x := f (r.snap.handle h)
      { s with saved := s.saved.map fun (y : SavedRec) =>
          if y.core = c && y.inst = inst then { y with snap := y.snap.setHandle h x } else y }.paWrite
        (s.coreRecord r.ctx c + 0x6C0 + 64 * h.toNat) x.image
    | none => { s with orphans := s.orphans.map fun o =>
        if o.core = c && o.inst = inst then { o with handles := o.handles.set h.toNat (f (o.handles.get h.toNat {})) } else o }

/-- Claimed slots that no step has read count as consumed (R325, R344). -/
def State.dropSlots (s : State) (c : CoreId) (inst : Nat) (h : HReg) (first n : Nat) : State :=
  s.modOpHandle c inst h fun x => { x with doneC := x.doneC ++ (rangeFrom first n).filter (!x.doneC.contains ·) }.settle

/-! ## Launches and nodes -/

/-- The live launch of a context with an identifier. -/
def State.launch? (s : State) (ctx : Nat) (id : Word) : Option Launch :=
  s.launches.find? fun l => l.ctx == ctx && l.id == id && !l.reported

def State.setLaunch (s : State) (l : Launch) : State :=
  { s with launches := s.launches.map fun x => if x.ctx == l.ctx && x.id == l.id && !x.reported then l else x }

/-- A node that holds nothing, for positions past a graph's end. -/
def noNode : Node :=
  { entry := 0, gang := false, idem := false, arg := 0, outs := [], wouts := [], after := [], prio := 0, st := .cancelled }

def Launch.node (l : Launch) (n : Nat) : Node := l.nodes.getD n noNode
def Launch.setNode (l : Launch) (n : Nat) (x : Node) : Launch := { l with nodes := l.nodes.set n x }

/-- Changes a node of a launch. -/
def State.modNode (s : State) (ctx : Nat) (id : Word) (n : Nat) (f : Node → Node) : State :=
  match s.launch? ctx id with
  | none => s
  | some l => s.setLaunch (l.setNode n (f (l.node n)))

def State.node? (s : State) (ctx : Nat) (id : Word) (n : Nat) : Option Node :=
  (s.launch? ctx id).bind fun l => l.nodes[n]?

/-- The cores that hold a piece of work together: a gang's cluster, or one core. -/
def State.membersOf (s : State) (c : CoreId) : List CoreId :=
  if (s.core c).work.any (·.gang) then clusterCores (clusterOf c) else [c]

/-- Work has ended for good. -/
def NodeSt.over : NodeSt → Bool
  | .done | .failed | .cancelled => true
  | .waiting | .ready | .running | .ending => false

/-! ## Cores become free (R239, R219) -/

/-- Withdraws the core's pending barrier arrivals (R123); memberships stay only where `keep` (R239). -/
def Core.withdraw (q : Core) (keep : Bool) : SMap Bar :=
  if keep then (q.bars.filter fun (_, b) => b.mem.getLsbD 15).map fun (i, b) => (i, { mem := b.mem })
  else []

/-- Re-forms a dissolved convoy once every member that has not ended its task waits at the reconvergence header (R55).
Where the former leader has ended, the lowest-numbered member that rejoins leads (DESIGN CHOICE, log 82). -/
def State.rejoinConvoy (s : State) (cl : Nat) : State :=
  let ms := (clusterCores cl).filter fun m => (s.core m).work.isSome && (s.core m).ended.isNone
  if !ms.isEmpty && ms.all fun m => (s.core m).parked then
    ms.foldl (fun s m => s.modCore m fun q => { q with convoy := true, parked := false, rejoin := none }) s
  else s

/-- The core without its work: nothing of it is left but what belongs to the core itself, and the memberships that are
held for a replay. -/
def Core.freed (q : Core) (keep : Bool) : Core :=
  let bars := q.withdraw keep
  { duty := q.duty, utlb := q.utlb, bars := bars, cyc := q.cyc, credits := q.credits
    heldFor := if keep && !bars.isEmpty then q.work else none }

/-- The core when its work has come to its end: what the work left in registers, handles, timelines and memberships stands
until the next dispatch (R219, R327, R350, R385). -/
def Core.finished (q : Core) : Core :=
  { q.freed false with
    s := q.s, p := q.p, v := q.v, l := q.l, k := q.k, share := q.share, dr := q.dr, h := q.h, gcm := q.gcm, ec := q.ec
    badtrits := q.badtrits, ecsel := q.ecsel, tls := q.tls, rgPath := q.rgPath, trap := q.trap, ui := q.ui, shadow := q.shadow
    bars := q.bars.map fun (i, b) => (i, { mem := b.mem }) }

/-- Withdraws a core's UPDATE handles from their regions; a region that loses its last one has its pairs applied (R376). -/
def State.dropHandles (s : State) (c : CoreId) : State :=
  { s with regions := s.regions.mapVals fun _ g => { g with handles := g.handles.filter (·.1 != c) } }.retireRegions

/-- An MGANG of a core that has not joined fails with GANG_CANCEL, and the slots that it claims count as consumed (R164,
R344). -/
def State.cancelGang (s : State) (c : CoreId) (g : GangIssue) : State :=
  match s.ops.find? fun o => o.core == c && o.inst == g.inst && o.tl == .mx && o.n == g.n with
  | none => s
  | some o =>
    let own := inCluster c
    let s := if takesPart true g.desc own own then s.dropSlots c g.inst (mdHandle g.desc) g.claim (mdSteps g.desc) else s
    s.opComplete o 4 0xFF 0

/-- The MGANGs that a core has issued and that have not joined are cancelled (R164). -/
def State.cancelGangs (s : State) (c : CoreId) : State :=
  let cl := s.cluster (clusterOf c)
  let mine := cl.gangs.get (inCluster c) []
  let s := s.setCluster (clusterOf c) { cl with gangs := cl.gangs.erase (inCluster c) }
  mine.foldl (fun s g => s.cancelGang c g) s

/-- Discards a core's undrained stores and its update buffer, as an abort does (R235, R239). A store that
has left for its home and waits there is performed all the same (DESIGN CHOICE, log 86). -/
def State.discard (s : State) (c : CoreId) : State :=
  s.modCore c fun q => { q with stores := [], loads := [], upd := [], fences := [] }

/-- Operations of the work on a core that use its handles beyond their issue. -/
def EngOp.usesHandle (o : EngOp) : Bool :=
  match o.kind with
  | .gather .. | .matrix .. | .send .. | .recv .. => true
  | .copy .. | .pattern .. | .ternarise .. | .stream .. | .flush .. | .load .. | .scale .. | .perm .. | .zero ..
  | .accWrite .. | .put .. | .flag .. => false

def EngOp.isStream (o : EngOp) : Bool :=
  match o.kind with
  | .stream .. => true
  | _ => false

/-- The streams of a core's work stop: their operations complete (R173). -/
def State.stopStreams (s : State) (c : CoreId) : State :=
  ((s.opsOf (s.core c).inst).filter fun o => o.core == c && o.isStream).foldl (fun s o => s.opComplete o 0 0xFF 0) s

/-- The handles of a core's work stay with the operations that still use them, and its streams go on for these; without
such an operation the streams stop (R239, R342, log 53). -/
def State.keepHandles (s : State) (c : CoreId) : State :=
  let q := s.core c
  if (s.opsOf q.inst).any fun o => o.core == c && o.usesHandle then
    { s with orphans := s.orphans ++ [⟨c, q.inst, q.h⟩] }
  else s.stopStreams c

/-- Frees a core whose work is over: `f` says what of the core stays. A dissolved convoy may now be complete (R55). -/
def State.freeWith (s : State) (c : CoreId) (f : Core → Core) : State :=
  ((((s.discard c).dropHandles c).keepHandles c).modCore c f).rejoinConvoy (clusterOf c)

/-- Frees a core whose work is aborted or ended from outside: its state goes, and its UPDATE handles with it. -/
def State.freeCore (s : State) (c : CoreId) (keep : Bool) : State := s.freeWith c fun q => q.freed keep

/-- Handles kept for operations that are no more go, and the streams that went on for these stop. -/
def State.dropOrphans (s : State) : State :=
  let used := fun (x : Orphan) => s.ops.any fun o => o.core == x.core && o.inst == x.inst && o.usesHandle
  let gone := s.orphans.filter (!used ·)
  let s := { s with orphans := s.orphans.filter used }
  (s.ops.filter fun o => o.isStream && gone.any fun x => o.core == x.core && o.inst == x.inst).foldl
    (fun s o => s.opComplete o 0 0xFF 0) s

/-! ## Graph transitions (R216, R217) -/

/-- Cancels every waiting node with a predecessor that failed or was cancelled; `fuel` rounds settle a chain. -/
def cancelRound : Nat → List Node → List Node
  | 0, ns => ns
  | k + 1, ns =>
    let bad := fun (x : Node) => x.after.any fun p =>
      match (ns.getD p noNode).st with
      | .failed | .cancelled => true
      | .waiting | .ready | .running | .ending | .done => false
    cancelRound k (ns.map fun x => if x.st == .waiting && bad x then { x with st := .cancelled, status := 0x41 } else x)

/-- Nodes whose predecessors are all DONE become READY, numbered in readiness order from `order`. -/
def readyNodes (order : Nat) (ns : List Node) : List Node :=
  ns.zipIdx.map fun (x, i) =>
    if x.st == .waiting && x.after.all fun p => (ns.getD p noNode).st == .done then
      { x with st := .ready, order := order + i, head := none }
    else x

/-- Settles a graph after a node has ended. -/
def State.settleGraph (s : State) (ctx : Nat) (id : Word) : State :=
  match s.launch? ctx id with
  | none => s
  | some l =>
    let ns := readyNodes s.orders (cancelRound l.nodes.length l.nodes)
    { s.setLaunch { l with nodes := ns } with orders := s.orders + ns.length }

def countNodes (ns : List Node) (st : NodeSt) : Nat := (ns.filter (·.st == st)).length

/-- Writes the completion record of each launch that is over, once every region its work registered has been applied and
unpinned (R216, R224, R376). -/
def State.reportOne (s : State) (l : Launch) : State :=
  let open_ := s.regions.any fun (_, g) => g.ctx == l.ctx && g.launches.contains l.id
  let isOver := match l.persist with
    | some (_, first, count, _) => l.started && (rangeFrom (8 * first) (8 * count)).all fun c => l.ended.contains c
    | none => l.nodes.all (·.st.over)
  if l.reported || open_ || !isOver then s
  else
    let failed := l.nodes.zipIdx.find? fun (x, _) => x.st == .failed
    let s := s.emit 0x20 ([(12, 1, l.ctx), (13, 1, if l.persist.isSome then 2 else 1), (16, 8, l.id.toNat),
      (24, 4, countNodes l.nodes .done), (28, 4, countNodes l.nodes .failed), (32, 4, countNodes l.nodes .cancelled),
      (56, 8, s.now)] ++ (if l.persist.isSome then [] else
        [(36, 4, (failed.map (·.2)).getD 0xFFFFFFFF), (40, 1, ((failed.map (·.1.status.toNat)).getD 0))]))
    { s with launches := s.launches.map fun x =>
        if x.ctx == l.ctx && x.id == l.id && !x.reported then { x with reported := true } else x }

def State.reportLaunches (s : State) : State := s.launches.foldl State.reportOne s

/-- A node ends with a status (R216, R217). -/
def State.endNode (s : State) (ctx : Nat) (id : Word) (n : Nat) (status : Byte) (code : Word) : State :=
  let s := s.modNode ctx id n fun x =>
    { x with st := if status = 0 then .done else if status = 0x41 then .cancelled else .failed
             status := status, code := code, core := none, held := none, page := none, saved := false }
  (s.settleGraph ctx id).reportLaunches

/-- A core's part of a persistent launch ends (R224). -/
def State.endPersistent (s : State) (c : CoreId) (w : WorkRef) : State :=
  match s.launch? w.ctx w.launch with
  | none => s
  | some l => (s.setLaunch { l with ended := addNew l.ended c }).reportLaunches

/-- The work on a core ends without completing: all members of a gang go with it (R235, R241, R248). Work that the host
has killed ends CANCELLED (R216). -/
def State.endWork (s : State) (c : CoreId) (status : Byte) : State :=
  match (s.core c).work with
  | none => s
  | some w =>
    let ms := s.membersOf c
    let status := if ms.any fun m => (s.core m).req == some .kill then 0x41 else status
    let wd := ((ms.map fun m => (s.core m).wd).foldl max 0)
    let s := ms.foldl (fun s m => (s.cancelGangs m).freeCore m false) s
    match w.node with
    | some n => (s.modNode w.ctx w.launch n fun x => { x with wd := x.wd + wd }).endNode w.ctx w.launch n status 0
    | none => s.endPersistent c w

/-- A trap that no handler takes ends the work (R235, R236): the record with the trap's values, and after a nested trap
the first one's. -/
def State.endTrapped (s : State) (c : CoreId) (nested vfail : Bool) (cause pc info : Word) : State :=
  let q := s.core c
  match q.work with
  | none => s
  | some w =>
    let flags := (if nested then 1 else 0) + (if vfail then 2 else 0)
    let s := s.workEvent 1 c w flags cause pc info q.trap.status
    let s := if nested then s.workEvent 6 c w 1 q.trap.cause q.trap.pc q.trap.info q.trap.status else s
    s.endWork c 0x42

/-! ## Abort for replay (R239, R240) -/

/-- Aborts an idempotent task: registers, undrained stores and the update buffer are discarded, and the node returns to
READY, held until its operations have completed and the page it faulted on has been answered. A killed one ends instead
(R216). -/
def State.abortTask (s : State) (c : CoreId) (why : Nat) (info : Word) (page : Option Nat) : State :=
  match (s.core c).work with
  | none => s
  | some w =>
    match w.node with
    | none => s
    | some n =>
      let ms := s.membersOf c
      if ms.any fun m => (s.core m).req == some .kill then s.endWork c 0x41 else
      let first := ms.headD c
      let inst := (s.core c).inst
      let wd := ((ms.map fun m => (s.core m).wd).foldl max 0)
      let count := min (2 ^ 32 - 1) (((s.node? w.ctx w.launch n).map (·.replays)).getD 0 + 1)
      let s := ms.foldl (fun s m => (s.cancelGangs m).freeCore m true) s
      let gen := ((s.ctxs.find w.ctx).map (·.gen)).getD 0
      let s := s.emit 0x21 [(12, 4, n), (16, 8, w.launch.toNat), (24, 2, first), (26, 1, why), (28, 4, count),
        (32, 8, gen.toNat), (40, 8, info.toNat), (48, 8, s.now)]
      s.modNode w.ctx w.launch n fun x =>
        { x with st := .ready, replays := count, held := some inst, page := page, core := some first, wd := x.wd + wd,
                 head := none }

/-! ## Dispatch (R204, R218, R219, R303) -/

/-- The grants of a launch on one core: its share and its outputs (R212, R303). -/
def coreGrants (g : Grants) (split : Nat) (c : CoreId) (whole : Bool) (outs wouts : List (Nat × Nat)) : Grants :=
  let sp := scratchBytes split
  { g with shareBase := if whole then 0 else inTile c * (sp / 4)
           shareSize := if whole then sp else sp / 4, outs := outs, wouts := wouts }

/-- A core's tile has a context's split, or can take it (R302). -/
def State.splitFits (s : State) (c : CoreId) (split : Nat) : Bool :=
  (s.tile (tileOf c)).split == split || (rangeFrom (4 * tileOf c) 4).all fun m => (s.core m).work.isNone

/-- The tile takes its context's split when none of its cores holds work: its L1 is written back first (R302). -/
def State.applySplit (s : State) (c : CoreId) (split : Nat) : State :=
  let t := tileOf c
  if (s.tile t).split = split || (rangeFrom (4 * t) 4).any fun m => (s.core m).work.isSome then s
  else (s.l1Sweep t true fun _ _ => true).modTile t fun x => { x with split := split }

/-- A core starts work at an entry, in the state of R219. Memberships held for this work's replay are kept. -/
def State.startCore (s : State) (c : CoreId) (w : WorkRef) (inst : Nat) (g : Grants) (entry s1 s2 s3 : Word) : State :=
  let base := BitVec.ofNat 64 (scratchBase + g.shareBase + g.shareSize - g.stack)
  let ovf := BitVec.ofNat 64 (alignDown (Config.ovfArea w.ctx c).toNat 128)
  { s with received := s.received.filter fun (k, _) => k / 8 != c }.modCore c fun q =>
    { duty := q.duty, utlb := q.utlb, bars := if q.heldFor.isSome then q.bars else [], credits := q.credits, s := SMap.set (SMap.set (SMap.set [] 1 s1) 2 s2) 3 s3, pc := entry, blk := entry
      pos := .header .handler, spillBase := base, ovfBase := ovf, ovfMark := ovf, work := some w, inst := inst
      grants := g, pre := .run }

/-- The kernel boundary of a launch's first word: the STB lines and translations of the context go, and code is fresh
(R61, R309). -/
def State.kernelBoundary (s : State) (ctx : Nat) : State :=
  let stb := fun (t : TlbEntry) => pteStb t.leaf.toNat || s.pageStb t.ctx t.va
  let s := s.l1SweepAll true fun line l => l.stb || s.lineStb line
  let s := { s with cores := s.cores.mapVals fun _ q => { q with early := [] } }
  s.tlbDropAll (fun _ => true) (fun t => t.ctx == ctx && stb t) fun _ => false

/-- The first word of a launch is about to issue (R309). -/
def State.startLaunch (s : State) (l : Launch) : State :=
  if l.started then s
  else
    let s := s.kernelBoundary l.ctx
    s.setLaunch { l with started := true, img := s.mem, imgL2 := s.slices, imgTier := s.tier, imgTags := s.tierTags
                         imgHost := s.host, imgViews := s.viewPend, pastFrom := s.past.length }

/-- Invalidates, in a tile's L1, the declared outputs of a node's predecessors (R218), but no line of a stable page
(R309). -/
def State.freshInputs (s : State) (t : Nat) (l : Launch) (x : Node) : State :=
  let ranges := x.after.flatMap fun p => (l.node p).outs.flatMap fun (b, n) => s.rangeLines l.ctx b n
  s.l1Sweep t true fun line _ => lineIn ranges line && !s.lineStb line

/-- A node starts on a core or, a gang, on a cluster (R204, R219, R223). -/
def State.startNode (s : State) (l : Launch) (n : Nat) (first : CoreId) : State :=
  match s.ctxs.find l.ctx with
  | none => s
  | some ctx =>
    let x := l.node n
    let ms := if x.gang then clusterCores (clusterOf first) else [first]
    let inst := s.nextInst
    let s := { s with nextInst := inst + 1 }
    let s := ms.foldl (fun s m => s.applySplit m ctx.split) s
    let s := (s.startLaunch l)
    let s := s.modNode l.ctx l.id n fun x => { x with st := .running, core := some first, held := none, page := none, head := none }
    ms.foldl (fun s m =>
      let s := s.freshInputs (tileOf m) l x
      let g := coreGrants l.grants ctx.split m false x.outs x.wouts
      let s2 := BitVec.ofNat 64 ((x.outs.headD (0, 0)).1)
      s.startCore m ⟨l.ctx, l.id, some n, x.idem, x.gang⟩ inst g x.entry x.arg s2
        (if x.gang then BitVec.ofNat 64 (inCluster m) else 0)) s

/-- The memberships that a core held for a replay of a node are released when the node ends otherwise (R239). -/
def State.releaseHeld (s : State) (ctx : Nat) (id : Word) (n : Nat) : State :=
  { s with cores := s.cores.mapVals fun _ q =>
      match q.heldFor with
      | some w => if w.ctx == ctx && w.launch == id && w.node == some n then { q with bars := [], heldFor := none } else q
      | none => q }

end Sys2Proof.Machine
end

