-- ==== Sys2Proof/Machine/Ops.lean ====
section
/-! DEFINITION. Instruction fetch, control transfers, taking a trap and returning from one, user-level interrupts,
convoys, and the frame in which every instruction word runs (02_instruction_word, 07 R187, R188, 09 R226, R227,
10 R233 to R241). -/
namespace Sys2Proof.Machine
open Sys2Proof

/-! ## Trap causes -/

/-- R233. -/
def Cause.code : Cause → Word
  | .illegalOp => 0x01
  | .badTarget => 0x02
  | .privOp => 0x03
  | .misaligned => 0x04
  | .addrFault => 0x05
  | .atomicLocal => 0x06
  | .protFault => 0x07
  | .scScope => 0x09
  | .nonidemOp => 0x0A
  | .badObject => 0x0B
  | .barrierFault => 0x0C
  | .timelineAhead => 0x0D
  | .handleUnbound => 0x0E
  | .handleState => 0x0F
  | .handleFault => 0x10
  | .badDesc => 0x11
  | .updOverlap => 0x12
  | .updRange => 0x13
  | .updFull => 0x14
  | .swTrap => 0x15
  | .uiState => 0x16
  | .dataUe => 0x17

/-- TRAP_INFO of ILLEGAL_OP (R59). -/
def illegalInfo (x : Illegal) : Word := BitVec.ofNat 64 (x.whr * 256 + x.sub)

/-! ## Convoys (R226, R227) -/

/-- The members that run a word together: the convoy of a core, leader first, or the core alone. -/
def State.convoyOf (s : State) (c : CoreId) : List CoreId :=
  if (s.core c).convoy then (clusterCores (clusterOf c)).filter fun m => (s.core m).convoy else [c]

/-! ## Fetch (R39, R61) -/

inductive Fetch where
  | word (w : Word)
  | page (bad : Bool)
  | trap (cause : Cause)
  /-- Its apply block has pending pairs: they are applied first (R373). -/
  | busy
  deriving DecidableEq, Repr

/-- The word in memory at a physical key, little-endian. -/
def State.homeWord (s : State) (h pk : Nat) : Word := BitVec.ofNat 64 (ofLe ((List.range 8).map fun i => s.homeByte h (pk + i)))

/-- The values of a code word since a launch: at the launch, before each write to it since, and now (R61). -/
def State.codeWords (s : State) (l : Launch) (h pk : Nat) : List Word :=
  (s.imageOf l).homeWord h pk :: ((s.past.drop l.pastFrom).filter fun (line, _) => line == pk / 128).map
    (fun (_, bs) => BitVec.ofNat 64 (leAt bs (pk % 128) 8)) ++ [s.homeWord h pk]

/-- A word of code: its value in memory, or, where that has changed since the launch, any that it has had since (R61, log
15). -/
def State.codeWord (s : State) (c : CoreId) (h pk : Nat) : Word :=
  let new := s.homeWord h pk
  match (s.core c).work.bind fun w => s.launch? w.ctx w.launch with
  | none => new
  | some l =>
    if !l.started then new
    else
      let all := s.codeWords l h pk
      if all.all (· == new) then new else all.getD (Config.fetchPick s.tick pk % all.length) new

/-- Fetches the word at an address for a core, at privilege `priv`, once no pairs of its apply block are pending (R373). An
address outside the global window is BAD_TARGET, also where the fetch is sequential (DESIGN CHOICE, log 64: the manual
says so of branch targets). -/
def State.fetch (s : State) (c : CoreId) (priv : Bool) (va : Word) : Fetch :=
  let q := s.core c
  let a := va.toNat
  if a % 8 != 0 || !isGlobal a then .trap .badTarget
  else
    match s.look c q.ctxNum a with
    | .error m => .page m.bad
    | .ok x =>
      if s.viewBad (x.key a) then .trap .addrFault
      else if !pteX x.leaf || !(priv || pteU x.leaf) then .trap .protFault
      else if s.sorterPairs.any (s.inBlockOf (x.key a / 128)) then .busy
      else .word (s.codeWord c (s.homeOf q.ctxNum a (assignLeaf c x.leaf)) (x.key a))

/-- The translation of a fetched word is used and cached (R308). -/
def State.fetchUse (s : State) (c : CoreId) (va : Word) : State := (s.xlat c (s.core c).ctxNum va.toNat false).1

/-- The pairs pending in the apply block of an address are applied, as far as they need not wait, for the fetch that stands
behind them (R373). -/
def State.codeApply (s : State) (c : CoreId) (va : Word) : State :=
  match s.xlat c (s.core c).ctxNum va.toNat false with
  | (s, .error _) => s
  | (s, .ok x) => (s.applyBlock (x.key va.toNat / 128)).getD s

/-- A fault at an address has walked its page's tables, which marks the leaf (R306). -/
def State.faultWalk (s : State) (c : CoreId) (cause : Cause) (info : Word) : State :=
  if cause == .protFault || cause == .scScope || cause == .addrFault then
    match (s.core c).place info.toNat with
    | some (.glob va _) => if isGlobal va then (s.xlat c (s.core c).ctxNum va false).1 else s
    | some (.lm _) | none => s
  else s

/-! ## Taking a trap (R235 to R237) -/

/-- TRAP_STATUS (R190): member 0xFF outside a convoy. -/
def trapStatus (q : Core) (compl : Bool) (member : CoreId) : Word :=
  BitVec.ofNat 64 ((if q.priv then 1 else 0) + (if q.convoy then 2 else 0) + (if compl then 4 else 0)
    + 256 * (if q.convoy then inCluster member else 0xFF))

/-- The vector of the context on a core; 0 for none. -/
def State.vector (s : State) (q : Core) : Word :=
  match q.work with
  | some w => ((s.ctxs.find w.ctx).map (·.vec)).getD 0
  | none => 0

/-- A vector is usable: aligned, its page present and executable, its word a header of KIND 2. -/
def State.vectorOk (s : State) (c : CoreId) (v : Word) : Bool :=
  match s.fetch c true v with
  | .word w => isHeader w && (headerOf w).kind == 2
  | .page _ | .trap _ | .busy => false

/-- The vector that a trap would fetch, whose apply block has pending pairs (R373). -/
def State.busyVector (s : State) (ms : List CoreId) : Option Word :=
  let q := s.core (ms.headD 0)
  let v := s.vector q
  if q.inHandler || v = 0 || s.fetch (ms.headD 0) true v != .busy then none else some v

/-- The trap of a state, or first the apply that the fetch of its vector waits for (R373). -/
def State.orApply (s : State) (ms : List CoreId) (trapped : State) : State :=
  match s.busyVector ms with
  | some v => s.codeApply (ms.headD 0) v
  | none => trapped

/-- Ends the work of trapping members: a gang or a core's task once, a persistent program on each core (R235). -/
def State.endTraps (s : State) (ms : List CoreId) (nested vfail : Bool) (cause pc info : Word) : State :=
  let first := ms.headD 0
  let ends := if (s.core first).work.any (·.gang) then [first] else ms
  ends.foldl (fun s m => s.endTrapped m nested vfail cause pc info) s

/-- TakeTrap (R235) by every member together (R237): `member` supplies the values, `blk` is BlockOf(pc). -/
def State.takeTrap (s : State) (ms : List CoreId) (member : CoreId) (cause : Cause) (info pc blk : Word)
    (compl deferred : Bool) : State :=
  let first := ms.headD 0
  if (s.core first).inHandler then s.endTraps ms true false cause.code pc info
  else
    let s := ms.foldl (fun s m => s.modCore m fun q =>
      { q with trap := { cause := cause.code, pc := pc, info := info, blk := blk
                         status := trapStatus q compl member }, deferredTrap := deferred }) s
    let v := s.vector (s.core first)
    if v = 0 then s.endTraps ms false false cause.code pc info
    else if !s.vectorOk first v then s.endTraps ms false true cause.code pc info
    else ms.foldl (fun s m => s.modCore m fun q =>
      { q with priv := true, inHandler := true, pc := v, pos := .header .handler, waitPage := none }) s

/-- Some member has an instruction that has issued and not completed (R98), or a deferred trap to take. -/
def State.unsettled (s : State) (ms : List CoreId) : Bool :=
  ms.any fun m => !(s.core m).loads.isEmpty || (s.core m).sc.isSome || !(s.core m).due.isEmpty

/-- A precise trap: every earlier word completes first, and a FENCE only with its predecessor steps (R98, R110, R234). -/
def State.preciseTrap (s : State) (ms : List CoreId) (member : CoreId) (cause : Cause) (info pc blk : Word) : State :=
  let s := ms.foldl (fun s m => s.performLoads m) s
  if s.unsettled ms then s
  else
    match s.finishFences ms with
    | none => s
    | some s => s.orApply ms (s.takeTrap ms member cause info pc blk false false)

/-! ## Page faults of cores (R241) -/

/-- A core access or a fetch of absent page `va`: the request, and the abort of an idempotent task or the wait of other
work. -/
def State.pageFault (s : State) (c : CoreId) (va : Nat) (bad : Bool) (code : Nat) : State :=
  let q := s.core c
  let s := s.pageRequest q.ctxNum va code 0 c bad
  if q.idem then s.abortTask c 2 (BitVec.ofNat 64 va) (some (alignDown va 4096))
  else s.modCore c fun q => { q with waitPage := some (alignDown va 4096) }

/-! ## What a word does -/

/-- The outcome of a word's own effect on one core. -/
inductive Res where
  /-- It completes; the core goes on behind it. -/
  | done (s : State)
  /-- It completes; where the core goes on is set. -/
  | jumped (s : State)
  /-- It has made an arrival, and is looked at once more (R121). -/
  | arrived (s : State)
  /-- It waits before issue (R238). -/
  | wait
  /-- It waits for the pairs pending in the apply block of an address from which a core fetches (R373). -/
  | busy (c : CoreId) (va : Word)
  | page (va : Nat) (bad : Bool) (code : Nat)
  | trap (cause : Cause) (info : Word)
  /-- BARRIER_FAULT at completion: the phase is consumed (R234). -/
  | trapCompl (s : State) (sub : Nat)

/-- Checks 1 and the target checks of a control transfer (R52, R53): the target's word is a header that may be entered.
A reserved KIND is the header's own fault; a KIND that may not be entered so is the transfer's, also where the header has
another bad field (DESIGN CHOICE, log 64). -/
def State.checkTarget (s : State) (c : CoreId) (t : Word) (ok : Nat → Bool) (go : State → Res) : Res :=
  let q := s.core c
  if t.toNat % 8 != 0 || !isGlobal t.toNat then .trap .badTarget t
  else
    match s.fetch c q.priv t with
    | .busy => .busy c t
    | .page bad => .page t.toNat bad 2
    | .trap cause => .trap cause t
    | .word w =>
      if !isHeader w || (decide ((headerOf w).kind < 5) && !ok (headerOf w).kind) then .trap .badTarget t
      else go (s.fetchUse c t)

/-- Headers a branch may enter; the header LOOP needs; the header of a task (R53). -/
def kindNormal (k : Nat) : Bool := decide (k ≤ 1)
def kindLoop (k : Nat) : Bool := k == 1
def kindTask (k : Nat) : Bool := k == 3

/-- The members stand before the header at `t`. -/
def State.goTo (s : State) (ms : List CoreId) (t : Word) : State :=
  ms.foldl (fun s m => s.modCore m fun q => { q with pc := t, pos := .header .jump }) s

/-- Jump (R76): checked in the leader, taken by every member. -/
def State.jump (s : State) (ms : List CoreId) (t : Word) (ok : Nat → Bool) (before : State → State) : Res :=
  s.checkTarget (ms.headD 0) t ok fun s => .jumped ((before s).goTo ms t)

/-! ## Entering a header (R50 to R57) -/

/-- The uniform flag at a branch (R55, R57): the convoy dissolves, each member with the reconvergence target `t`. -/
def State.dissolve (s : State) (ms : List CoreId) (t : Option Word) : State :=
  ms.foldl (fun s m => s.modCore m fun q => { q with convoy := false, rejoin := t }) s

/-- Opens the block whose header at the members' pc has word `w`. -/
def State.openBlock (s : State) (ms : List CoreId) (w : Word) : State :=
  ms.foldl (fun s m => s.modCore m fun q => { q with blk := q.pc, hdr := w, pc := q.pc + 8, pos := .word }) s

/-- Enters the header that a core and its convoy stand before. -/
def State.enterHeader (s : State) (c : CoreId) (how : Entry) : State :=
  let ms := s.convoyOf c
  let l := ms.headD c
  let q := s.core l
  let h := q.pc
  match s.fetch l q.priv h with
  | .busy => s.codeApply l h
  | .page bad => s.pageFault l h.toNat bad 2
  | .trap cause => (s.faultWalk l cause h).preciseTrap ms l cause h h q.blk
  | .word w =>
    let s := s.fetchUse l h
    if !isHeader w then s.preciseTrap ms l .illegalOp (illegalInfo ⟨0x03, 0xFF⟩) h q.blk
    else if (headerOf w).bad then s.preciseTrap ms l .illegalOp (illegalInfo ⟨0x04, 7⟩) h h
    else if !q.convoy && q.rejoin == some h then
      (s.modCore l fun q => { q with parked := true, pos := .header .handler }).rejoinConvoy (clusterOf l)
    else if q.convoy && how == .jump && !(headerOf w).uniform then
      if (headerOf w).rcv = 0 then (s.dissolve ms none).openBlock ms w
      else
        let t := h + BitVec.ofInt 64 (8 * (headerOf w).rcv)
        match s.fetch l q.priv t with
        | .busy => s.codeApply l t
        | .page bad => s.pageFault l t.toNat bad 2
        | .trap _ => s.preciseTrap ms l .badTarget t h h
        | .word w' =>
          if isHeader w' then (s.dissolve ms (some t)).openBlock ms w
          else s.preciseTrap ms l .badTarget t h h
    else s.openBlock ms w

/-! ## Return from a trap (R187, R234) -/

/-- ERET on one core. From a deferred trap, whatever its mode, it ends the work, once for all members of a convoy: when
the last of them has come to it (R237). -/
def State.eretFrom (s : State) (c : CoreId) (mode : EretMode) : Res :=
  let q := s.core c
  let h := q.trap.blk
  let pc := q.trap.pc
  let bad : Res := .trap .badTarget pc
  if q.deferredTrap then
    let ms := s.convoyOf c
    .jumped (if ms.getLast? == some c then s.endTraps ms false false q.trap.cause pc q.trap.info else s)
  else
    match s.fetch c q.priv h with
    | .busy => .busy c h
    | .page m => .page h.toNat m 2
    | .trap _ => bad
    | .word w =>
      let last := h + BitVec.ofNat 64 (8 * (headerOf w).len)
      if !isHeader w || pc.toNat % 8 != 0 || decide (pc.toNat < h.toNat + 8) || decide (last.toNat < pc.toNat) then bad
      else if mode == .retry && q.trap.status.getLsbD 2 then bad
      else
        let back := fun (q : Core) =>
          let q := { q with priv := q.trap.status.getLsbD 0, inHandler := false, blk := h, hdr := w }
          let q := if q.trap.status.getLsbD 1 then (if q.convoy then q else { q with parked := true })
            else { q with convoy := false }
          match mode with
          | .retry => { q with pc := pc, pos := .word }
          | .next =>
            if pc = last then { q with pc := pc + 8, pos := .header .fall } else { q with pc := pc + 8, pos := .word }
        .jumped (((s.fetchUse c h).modCore c back).rejoinConvoy (clusterOf c))

/-! ## User-level interrupts (R188, R238) -/

/-- Rank 3 holds for a core: enabled causes are pending and no handler runs. -/
def Core.uiReady (q : Core) : Bool := q.uiPending && !q.inHandler && !q.uih && q.ui.vec != 0

/-- Enters the user-interrupt handler with every member, once every earlier word has completed (R98); the leader's vector
and causes count, and a vector that is no KIND 4 header clears the leader's UI_EN alone (DEDUCED, log 87). A header on a page
that is present and not executable is none that may be entered (DESIGN CHOICE, log 64). -/
def State.uiEnter (s : State) (c : CoreId) : State :=
  let ms := s.convoyOf c
  let s := ms.foldl (fun s m => s.performLoads m) s
  let l := ms.headD c
  let q := s.core l
  let v := q.ui.vec
  let blk := if q.pos == .word then q.blk else q.pc
  let bad := s.orApply ms
    ((s.modCore l fun q => { q with ui := { q.ui with en := 0 } }).takeTrap ms l .badTarget v q.pc blk false false)
  if s.unsettled ms then s
  else
    match s.fetch l q.priv v with
    | .busy => s.codeApply l v
    | .page m => s.pageFault l v.toNat m 2
    | .trap _ => bad
    | .word w =>
      if !isHeader w || (headerOf w).kind != 4 then bad
      else
        ms.foldl (fun s m => s.modCore m fun q =>
          { q with shadow := (List.range 8).foldl (fun sh i => SMap.set sh i (q.s.get (56 + i) 0)) []
                   ui := { q.ui with pc := q.pc, blk := if q.pos == .word then q.blk else q.pc }
                   uih := true, priv := false, pc := v, pos := .header .handler, waitPage := none }) (s.fetchUse l v)

/-- UIRET on one core. A UI_BLK that is no header, or a UI_PC outside its block, is BAD_TARGET as ERET's is (log 27). -/
def State.uiretFrom (s : State) (c : CoreId) : Res :=
  let q := s.core c
  let h := q.ui.blk
  let pc := q.ui.pc
  if !q.uih then .trap .uiState 0
  else
    let back := fun (s : State) (w : Word) (pos : Pos) =>
      s.modCore c fun q =>
        { (List.range 8).foldl (fun q i => { q with s := q.s.set (56 + i) (q.shadow.get i 0) }) q with
          uih := false, pc := pc, blk := h, hdr := w, pos := pos }
    match s.fetch c q.priv h with
    | .busy => .busy c h
    | .page m => .page h.toNat m 2
    | .trap _ => .trap .badTarget pc
    | .word w =>
      if pc = h then .jumped (back s q.hdr (.header .fall))
      else if !isHeader w || pc.toNat % 8 != 0 || decide (pc.toNat < h.toNat + 8) ||
          decide (h.toNat + 8 * (headerOf w).len < pc.toNat) then .trap .badTarget pc
      else .jumped (back (s.fetchUse c h) w .word)

/-! ## Running a word -/

/-- The core may issue a word: it runs work, and nothing holds it. -/
def Core.issuing (q : Core) : Bool :=
  q.work.isSome && q.pre == .run && !q.debug && q.sleep.isNone && !q.parked && q.ended.isNone && q.pos == .word

/-- Whether a pending load writes a register that a word names: some slot of the word holds its specifier. A word that
saves or clears registers it does not name counts as naming all. -/
def LoadDst.named (d : LoadDst) (bytes : List Byte) : Bool :=
  match d with
  | .scalar r _ _ => bytes.contains (sB r)
  | .pair a b => bytes.contains (sB a) || bytes.contains (sB b)
  | .vec r _ => bytes.contains (vB r)
  | .nothing => false

/-- Opcodes that touch registers their slots do not name: VMODE, HALT, SLEEP, YIELD, and the system instructions. -/
def touchesAll (op : Nat) : Bool := op == 0x160 || (decide (0x1E0 ≤ op) && decide (op ≤ 0x1F5)) || (decide (0x009 ≤ op) && decide (op ≤ 0x00B))

/-- Performs the outstanding loads that a word must wait for, and those behind which they wait. -/
def State.settleLoads (s : State) (m : CoreId) (f : Fields) : State :=
  if (s.core m).loads.any fun l => touchesAll f.op.toNat || l.dst.named f.slotBytes then s.performLoads m else s

/-- A word's registers are still awaited. -/
def Core.awaits (q : Core) (f : Fields) : Bool :=
  (q.loads.any fun l => touchesAll f.op.toNat || l.dst.named f.slotBytes)
    || q.sc.any fun o => touchesAll f.op.toNat || f.slotBytes.contains (sB o.d)

/-- One member's pass through a word: the state so far, the members that must look again, those that jumped, and what
stopped the word. -/
structure Pass where
  s : State
  again : List CoreId := []
  jumped : List CoreId := []
  stop : Option (CoreId × Res) := none

/-- Of two stops, the one that counts: a trap before a page fault before a wait; the lower member when alike. -/
def worseStop (a : Option (CoreId × Res)) (b : CoreId × Res) : Option (CoreId × Res) :=
  let rank := fun (r : Res) => match r with
    | .trap .. => 3
    | .trapCompl .. => 3
    | .page .. => 2
    | .wait | .busy .. => 1
    | .done _ | .jumped _ | .arrived _ => 0
  match a with
  | none => some b
  | some x => if rank x.2 < rank b.2 then some b else some x

/-- Takes one member's outcome into the pass. -/
def Pass.take (p : Pass) (m : CoreId) (r : Res) : Pass :=
  match r with
  | .done s => { p with s := s }
  | .jumped s => { p with s := s, jumped := m :: p.jumped }
  | .arrived s => { p with s := s, again := p.again ++ [m] }
  | .trapCompl .. | .wait | .busy .. | .page .. | .trap .. => { p with stop := worseStop p.stop (m, r) }

/-- VQMX and VTOLG in mode b32 are long-mode forms (R144). -/
def modeReserved (share : Nat) (f : Fields) : Bool :=
  share == 0 && (f.op == 0x1A1 || f.op == 0x1A5) && loNib f.d == 2

/-- Checks 3 and 4 in the vector mode in force. -/
def checkMode (share : Nat) (f : Fields) : Option Illegal :=
  match checkFields share f with
  | some e => if e.sub = 0x06 && modeReserved share f then some ⟨0x05, 3⟩ else some e
  | none => if modeReserved share f then some ⟨0x05, 3⟩ else none

/-! ## The current bucket (R353, R382, R383) -/

/-- Cycles that a long instruction holds the unit (R353). -/
def heldCycles (op : Nat) : Nat :=
  if (0x188 ≤ op && op ≤ 0x18D) then 4
  else if op == 0x16C || op == 0x16D || op == 0x182 || op == 0x183 || op == 0x1A1 || op == 0x1A5 then 2 else 1

/-- Units of a long instruction per held cycle (R383). -/
def bucketUnits (op : Nat) : Nat :=
  if heldCycles op == 2 then 24
  else if (0x180 ≤ op && op ≤ 0x18D) then 16
  else if op == 0x1A0 || op == 0x1A2 || op == 0x1A3 || op == 0x1A4 || op == 0x1A6 || op == 0x1A8 || op == 0x1A9
    || (0x190 ≤ op && op ≤ 0x192) then 12 else 8

/-- A word that the long unit takes: a vector instruction in long mode, but VMODE and the mask instructions. -/
def takesLong (op : Nat) : Bool := decide (0x161 ≤ op) && decide (op ≤ 0x1AA)

/-- A core offers its word to the long unit: in long mode, guarded on, and neither taken yet nor waiting behind an
arrival (R353). -/
def Core.offers (q : Core) (f : Fields) : Bool :=
  q.long && takesLong f.op.toNat && f.ctl.guards q && q.paid != some q.pc && q.bars.all fun (_, b) => b.mark != some q.pc

/-- Another core's refused offer of a long word stands at a tile: no offer passes it (R353). -/
def State.heldOffer (s : State) (m : CoreId) : Bool :=
  (s.tile (tileOf m)).offer.any fun (c, pc) =>
    c != m && (s.core c).issuing && (s.core c).waitPage.isNone && (s.core c).long && (s.core c).pc == pc && (s.core c).paid != some pc &&
      (s.core c).bars.all fun (_, b) => b.mark != some pc

/-- The bucket's test of one core's offer: the unit takes it, which it pays whole, or refuses it (R353, R383). -/
def State.offer (s : State) (m : CoreId) (op : Nat) : State × Bool :=
  let t := s.tile (tileOf m)
  let cost := bucketUnits op * heldCycles op
  let cap := t.cap.toNat
  let pay := fun (bal : Nat) =>
    ((s.setTile (tileOf m) { t with bal := BitVec.ofNat 16 bal, offer := none }).modCore m
      fun q => { q with paid := some q.pc }, true)
  if cap = 0 then (s, true)
  else if s.heldOffer m then (s, false)
  else if cost ≤ cap && cost ≤ t.bal.toNat then pay (t.bal.toNat - cost)
  else if cap < cost && t.bal.toNat == cap then pay 0
  else (s.setTile (tileOf m) { t with offer := some (m, (s.core m).pc) }, false)

/-- The members of a convoy offer a long word in turn; those that are taken do not pay again while the others wait
(R353). -/
def State.offerAll (s : State) (ms : List CoreId) (f : Fields) : State × Bool :=
  ms.foldl (fun (s, ok) m =>
    if (s.core m).offers f then
      let (s, taken) := s.offer m f.op.toNat
      (s, ok && taken)
    else (s, ok)) (s, true)

/-- Checks 2 to 6 of R58 for one member, then the word's effect. `priv`: a supervisor instruction. -/
def State.memberRes (s : State) (m : CoreId) (f : Fields) (priv : Bool) (guarded : Bool) (body : CoreId → State → Res) :
    Res :=
  match checkMode (s.core m).share f with
  | some e => .trap .illegalOp (illegalInfo e)
  | none =>
    if priv && !(s.core m).priv then .trap .privOp 0
    else
      if (s.core m).awaits f then .wait
      else if guarded && !f.ctl.guards (s.core m) then .done s
      else body m s

/-- A word that has issued counts in the core's event counters (R395), and its SC.YLD stands for the next (R42). -/
def Core.counted (q : Core) (f : Fields) : Core :=
  let q := ({ q with yld := f.ctl.yld, stood := none } : Core).countEvent 0x0002 1
  if 0x160 ≤ f.op.toNat ∧ f.op.toNat ≤ 0x1AF then q.countEvent 0x0003 1 else q

/-- The members have issued the word. -/
def State.countIssue (s : State) (ms : List CoreId) (f : Fields) : State :=
  ms.foldl (fun s m => s.modCore m fun q => q.counted f) s

/-- The faulted phases that members consume, one after the other, at a word that traps at completion (R234). -/
def State.consumePhases (s : State) (ms : List CoreId) (body : CoreId → State → Res) : State :=
  ms.foldl (fun s m => match body m s with
    | .trapCompl s' _ => s'
    | .done _ | .jumped _ | .arrived _ | .wait | .busy .. | .page .. | .trap .. => s) s

/-- What a stop of the word at the members' pc does. `s0`: before the word; `consume`: what a trap at completion has
consumed, once every earlier word is complete (R98, R234). -/
def State.stopWord (s0 : State) (ms : List CoreId) (m : CoreId) (r : Res) (consume : State → State := id) : State :=
  let q := s0.core m
  match r with
  | .trap cause info => (s0.faultWalk m cause info).preciseTrap ms m cause info q.pc q.blk
  | .trapCompl _ sub =>
    let s := ms.foldl (fun s m => s.performLoads m) s0
    if s.unsettled ms then s
    else
      match s.finishFences ms with
      | none => s
      | some s => s.orApply ms ((consume s).takeTrap ms m .barrierFault (BitVec.ofNat 64 sub) q.pc q.blk true false)
  | .busy c va => s0.codeApply c va
  | .page va bad code =>
    -- An access behind a FENCE is made, and faults, only with the FENCE's predecessor steps done (R110).
    if code = 2 then s0.pageFault m va bad code
    else ((s0.finishFences [m]).map fun s => s.pageFault m va bad code).getD s0
  | .wait | .done _ | .jumped _ | .arrived _ => s0

/-- The members that did not jump go on behind the word. -/
def Pass.finish (p : Pass) (ms : List CoreId) (f : Fields) : State :=
  ms.foldl (fun s m => if p.jumped.contains m then s else s.modCore m Core.advance) (p.s.countIssue ms f)

/-- The effects of a word whose checks no member fails: `s0` is the state before the word, `s` the one in which the long
unit has taken it. Members that arrive at a barrier look again when all have arrived. -/
def State.runEffects (s0 s : State) (f : Fields) (priv : Bool) (body : CoreId → State → Res) : State :=
  let ms := s0.convoyOf s0.cur
  let run := fun m (s : State) => s.memberRes m f priv true body
  let p1 := ms.foldl (fun (p : Pass) m => p.take m (run m p.s)) { s := s }
  match p1.stop with
  | some (m, r) => s0.stopWord ms m r fun s => s.consumePhases ms run
  | none =>
    if p1.again.isEmpty then p1.finish ms f
    else
      let p2 := p1.again.foldl (fun (p : Pass) m => p.take m (body m p.s)) { s := p1.s, jumped := p1.jumped }
      match p2.stop with
      | some (m, .trapCompl s' sub) => p1.s.stopWord ms m (.trapCompl s' sub) fun s => s.consumePhases p1.again body
      | some _ => p1.s
      | none => p2.finish ms f

/-- Runs a word that every member executes on its own registers (R226): all of them together, or none. -/
def State.runMembers (s : State) (f : Fields) (priv : Bool) (body : CoreId → State → Res) : State :=
  let ms := s.convoyOf s.cur
  let p0 := ms.foldl (fun (p : Pass) m => p.take m (p.s.memberRes m f priv true fun _ s => .done s)) { s := s }
  match p0.stop, s.offerAll ms f with
  | some (m, r), _ => s.stopWord ms m r
  | none, (s1, false) => s1
  | none, (s1, true) => s.runEffects s1 f priv body

/-- Runs a word that the leader resolves for every member (R226). -/
def State.runLeader (s : State) (f : Fields) (body : List CoreId → State → Res) : State :=
  let ms := s.convoyOf s.cur
  let l := ms.headD s.cur
  let checked := ms.foldl (fun (p : Pass) m => p.take m (p.s.memberRes m f false false fun _ s => .done s)) { s := s }
  match checked.stop with
  | some (m, r) => s.stopWord ms m r
  | none =>
    let r := if f.ctl.guards (s.core l) then body ms checked.s else .done checked.s
    match r with
    | .done s' => { s := s' : Pass }.finish ms f
    | .jumped s' => s'.countIssue ms f
    | .arrived s' =>
      match body ms s' with
      | .done s'' => { s := s'' : Pass }.finish ms f
      | .jumped s'' => s''.countIssue ms f
      | .trapCompl s'' sub => s'.stopWord ms l (.trapCompl s'' sub) fun s => s.consumePhases [l] fun _ => body ms
      | .wait | .busy .. | .page .. | .trap .. | .arrived _ => s'
    | .wait | .busy .. | .page .. | .trap .. | .trapCompl .. =>
      s.stopWord ms l r fun s => s.consumePhases [l] fun _ => body ms

/-- An instruction word at the current core, when the core and its convoy issue. Loads whose registers it names return
first; when one brings a deferred trap, the word waits for it (R234). -/
def State.word (s : State) (i : Instr) (run : Fields → State → State) : Host.Outcome State Fault Refusal :=
  match i.fields with
  | none => .next s
  | some f =>
    let ms := s.convoyOf s.cur
    if ms.all fun m => (s.core m).issuing then
      let s := ms.foldl (fun s m => s.settleLoads m f) s
      if ms.any fun m => !(s.core m).due.isEmpty then .next s else .next (run f s)
    else .next s

/-- A word that each member executes. -/
def runWord (i : Instr) (s : State) (body : CoreId → State → Res) : Host.Outcome State Fault Refusal :=
  s.word i fun f s => s.runMembers f false body

/-- A supervisor word (R60). -/
def runPriv (i : Instr) (s : State) (body : CoreId → State → Res) : Host.Outcome State Fault Refusal :=
  s.word i fun f s => s.runMembers f true body

/-- A word that the leader resolves. -/
def runLeaderWord (i : Instr) (s : State) (body : List CoreId → State → Res) : Host.Outcome State Fault Refusal :=
  s.word i fun f s => s.runLeader f body

/-- A word whose whole effect is on one core's own state. -/
def runCore (i : Instr) (s : State) (f : Core → Core) : Host.Outcome State Fault Refusal :=
  runWord i s fun m s => .done (s.modCore m f)

end Sys2Proof.Machine
end

