-- ==== Sys2Proof/Machine/MemWords.lean ====
section
/-! DEFINITION. Loads, stores, prefetch and line write-back (04_memory_sync R99 to R108). -/
namespace Sys2Proof.Machine
open Sys2Proof

/-! ## The parts of an access -/

/-- A signed displacement (R99). -/
def effAddr (q : Core) (b : SReg) (disp : BitVec 16) : Word := q.rs b + disp.signExtend 64

/-- An address in the stack aperture (R231). -/
def inStack (ea : Word) : Bool := stackBase ≤ ea.toNat && ea.toNat < stackBase + 2 ^ 33

/-- The checks of an access at issue: a no-spill block (R57), then R101 (log 29). -/
def State.checkAccess (s : State) (c : CoreId) (k : AccKind) (es : List Elem) : Option Res :=
  let q := s.core c
  if (headerOf q.hdr).noSpill && es.any fun e => inStack e.ea then
    some (.trap .illegalOp (illegalInfo ⟨0x07, 0xFF⟩))
  else
    match s.accessFail c k es with
    | some (.trap cause info) => some (.trap cause info)
    | some (.page va bad code) => some (.page va bad code)
    | none => none

/-- A cross-view access: to the region of the core's latest view access, through another view (R318). -/
def Core.crossView (q : Core) (pk : Nat) : Bool :=
  match q.view with
  | some (r, v) => viewOf pk != 0 && r == viewRegion pk && v != viewOf pk
  | none => false

/-- The classes of an access (R99, R109): local or global, and cross-view. -/
def Where.classes (w : Where) (q : Core) (store : Bool) : Byte :=
  (if w.locs.isEmpty && !w.lanes.any (·.ovf) then 0 else if store then clsLs else clsLl)
    ||| (if w.lanes.all (·.ovf) then 0 else if store then clsGs else clsGl)
    ||| (if w.lanes.any fun l => q.crossView l.pa then clsVw else 0)

/-- Checks an access, waits for the fences before it, and resolves its bytes (byte index, address). `ch`: the cache hint,
of which 11 keeps it out of L1 (R38, R41). -/
def State.access (s : State) (c : CoreId) (k : AccKind) (ch : BitVec 2) (store : Bool) (es : List Elem) (bytes : List (Nat × Nat))
    (go : State → Where → Res) : Res :=
  match s.checkAccess c k es with
  | some r => r
  | none =>
    match s.fenceGate c ((s.resolve c k.write ch bytes).2.classes (s.core c) store) with
    | none => .wait
    | some s => let (s, w) := s.resolve c k.write ch bytes; go s w

/-- Counts a global access: lines that hit and miss L1, and the access (R395). -/
def State.countAccess (s : State) (c : CoreId) (w : Where) (src : Nat) : State :=
  if w.lanes.isEmpty then s
  else
    let runs := (laneRuns w.lanes).filterMap fun r => (r.head?).bind fun l => if l.bypass then none else some (l.pa / 128)
    let hits := (runs.filter fun line => ((s.tile (tileOf c)).l1.find line).isSome).length
    s.modCore c fun q => ((q.countEvent 0x0010 hits).countEvent 0x0011 (runs.length - hits)).countEvent src 1

/-- An earlier outstanding load of the core reads one of the same bytes (R264). -/
def Core.loadsMeet (q : Core) (w : Where) : Bool :=
  q.loads.any fun o => (w.lanes.any fun a => o.reads false a.pa) || w.locs.any fun a => o.reads true a.2

/-- A load or an atomic is left outstanding (R116, R262). -/
def Core.deferLoad (q : Core) (dst : LoadDst) (w : Where) (rmw : Option Rmw) : Core :=
  { q with loads := q.loads ++ [{ n := q.issue, pc := q.pc, blk := q.blk, dst := dst, lanes := w.lanes, locs := w.locs
                                  rmw := rmw }]
           issue := q.issue + 1 }

/-- A load that has passed its checks: left outstanding when the core's plan says so, or when it has to wait for an earlier load
or for an apply (R262, R264, R374), else performed (log 11). One that reads no byte is over at once. -/
def State.issueLoad (s : State) (c : CoreId) (dst : LoadDst) (w : Where) : Res :=
  let s := s.countAccess c w 0x0012
  let q := s.core c
  let none_ := w.lanes.isEmpty && w.locs.isEmpty
  let s := if none_ then s else s.modCore c fun q => { q with defer := q.defer.drop 1 }
  if q.defer.headD false && !none_ then .done (s.modCore c fun q => q.deferLoad dst w none)
  else
    let s := if q.loadsMeet w then s.performLoads c else s
    let later := Res.done (s.modCore c fun q => q.deferLoad dst w none)
    if (s.core c).loadsMeet w then later
    else
      match s.readWhere c q.issue w with
      | none => later
      | some (s, r) =>
        .done (s.modCore c fun q =>
          match r.ue with
          | some va => q.loadUe q.pc q.blk va
          | none => q.loadInto dst r)

/-- A load of elements into a destination. -/
def State.load (s : State) (c : CoreId) (ch : BitVec 2) (dst : LoadDst) (es : List Elem) (bytes : List (Nat × Nat)) : Res :=
  s.access c accRead ch false es bytes fun s w => s.issueLoad c dst w

/-- A store of elements; `byte i` is the byte with index i. -/
def State.store (s : State) (c : CoreId) (ch : BitVec 2) (es : List Elem) (bytes : List (Nat × Nat)) (byte : Nat → Byte) :
    Res :=
  s.access c accWrite ch true es bytes fun s w => .done ((s.countAccess c w 0x0013).buffer c w byte)

/-- Reads `n` bytes as one load at issue, for an instruction that uses them itself: a descriptor. -/
def State.loadData (s : State) (c : CoreId) (ea : Word) (n align : Nat) (go : State → List Byte → Res) : Res :=
  s.access c accRead 0 false [⟨ea, n, align⟩] ((List.range n).map fun i => (i, (ea + BitVec.ofNat 64 i).toNat)) fun s w =>
    let s := s.countAccess c w 0x0012
    let s := if (s.core c).loadsMeet w then s.performLoads c else s
    if (s.core c).loadsMeet w then .wait
    else
      match s.readWhere c (s.core c).issue w with
      | none => .wait
      | some (s, r) =>
        match r.ue with
        | some va => .done (s.modCore c fun q => q.loadUe q.pc q.blk va)
        | none => go s ((List.range n).map r.byte)

/-- Bytes i = 0, 1, … of a run from an address. -/
def runBytes (ea : Word) (n : Nat) : List (Nat × Nat) := (List.range n).map fun i => (i, (ea + BitVec.ofNat 64 i).toNat)

/-! ## Scalar accesses (R104, R105) -/

def memBytes : MemSize → Nat
  | .i8 | .n8 => 1
  | .i16 | .n16 => 2
  | .i32 | .n32 => 4
  | .i64 => 8

def memSigned : MemSize → Bool
  | .i8 | .i16 | .i32 | .i64 => true
  | .n8 | .n16 | .n32 => false

/-- Byte i of a word. -/
def wordByte (x : Word) (i : Nat) : Byte := x.extractLsb' (8 * i) 8

def execLd (c : Ctl) (d b : SReg) (size : MemSize) (disp : BitVec 16) (s : State) : Host.Outcome State Fault Refusal :=
  runWord (.ld c d b size disp) s fun m s =>
    let ea := effAddr (s.core m) b disp
    let n := memBytes size
    s.load m c.ch (.scalar d n (memSigned size)) [⟨ea, n, n⟩] (runBytes ea n)

def execSt (c : Ctl) (b : SReg) (a : Src) (size : MemSize) (disp : BitVec 16) (s : State) :
    Host.Outcome State Fault Refusal :=
  runWord (.st c b a size disp) s fun m s =>
    let ea := effAddr (s.core m) b disp
    let n := memBytes size
    s.store m c.ch [⟨ea, n, n⟩] (runBytes ea n) (wordByte (a.val (s.core m)))

def execLdp (c : Ctl) (d1 d2 b : SReg) (disp : BitVec 16) (s : State) : Host.Outcome State Fault Refusal :=
  runWord (.ldp c d1 d2 b disp) s fun m s =>
    let ea := effAddr (s.core m) b disp
    s.load m c.ch (.pair d1 d2) [⟨ea, 16, 8⟩] (runBytes ea 16)

def execStp (c : Ctl) (b : SReg) (a1 a2 : Src) (disp : BitVec 16) (s : State) : Host.Outcome State Fault Refusal :=
  runWord (.stp c b a1 a2 disp) s fun m s =>
    let q := s.core m
    let ea := effAddr q b disp
    s.store m c.ch [⟨ea, 16, 8⟩] (runBytes ea 16)
      fun i => if i < 8 then wordByte (a1.val q) i else wordByte (a2.val q) (i - 8)

/-! ## Vector accesses (R106, R107) -/

/-- Byte b of the vector register a specifier names. -/
def vecByte (q : Core) (v : VReg) (b : Nat) : Byte := BitVec.ofNat 8 (elem 8 (q.rv v) b)

/-- The byte lanes of LDV and STV that take part: (byte, address). -/
def Core.vecLanes (q : Core) (k : KOpt) (ea : Word) : List (Nat × Nat) :=
  (runBytes ea (q.vbits / 8)).filter fun (b, _) => q.enabled k 8 b

/-- Whether a whole-register access is misaligned (R100): whatever its mask (log 30). -/
def misalignedVec (ea : Word) : Bool := ea.toNat % 32 != 0

/-- The elements of a whole-register access: its enabled byte lanes. -/
def laneElems (l : List (Nat × Nat)) : List Elem := l.map fun (_, a) => ⟨BitVec.ofNat 64 a, 1, 1⟩

/-- LDV; its misalignment counts before the check of a no-spill block (DESIGN CHOICE, log 29), and its EA is the base's
whichever lanes are enabled (DESIGN CHOICE, log 83). -/
def execLdv (c : Ctl) (d : VReg) (b : SReg) (k : KOpt) (disp : BitVec 16) (s : State) :
    Host.Outcome State Fault Refusal :=
  runWord (.ldv c d b k disp) s fun m s =>
    let q := s.core m
    let ea := effAddr q b disp
    let l := q.vecLanes k ea
    if misalignedVec ea then .trap .misaligned ea
    else s.load m c.ch (.vec d q.long) (laneElems l) l

/-- STV; its misalignment counts before the check of a no-spill block (DESIGN CHOICE, log 29), and its EA is the base's
whichever lanes are enabled (DESIGN CHOICE, log 83). -/
def execStv (c : Ctl) (b : SReg) (v : VReg) (k : KOpt) (disp : BitVec 16) (s : State) :
    Host.Outcome State Fault Refusal :=
  runWord (.stv c b v k disp) s fun m s =>
    let q := s.core m
    let ea := effAddr q b disp
    let l := q.vecLanes k ea
    if misalignedVec ea then .trap .misaligned ea
    else s.store m c.ch (laneElems l) l (vecByte q v)

def elBytes : ElSize → Nat
  | .b1 => 1
  | .b2 => 2
  | .b4 => 4
  | .b8 => 8

/-- The enabled elements of a strided access: (element, address). -/
def Core.strided (q : Core) (b : SReg) (stride : SImm) (w : Nat) (k : KOpt) : List (Nat × Word) :=
  ((List.range (q.vbits / 8 / w)).filter fun e => q.enabled k (8 * w) e).map fun e =>
    (e, q.rs b + BitVec.ofNat 64 e * stride.val q)

/-- The bytes of strided elements. -/
def stridedBytes (w : Nat) (es : List (Nat × Word)) : List (Nat × Nat) :=
  es.flatMap fun (e, a) => (List.range w).map fun i => (w * e + i, (a + BitVec.ofNat 64 i).toNat)

def stridedElems (w : Nat) (es : List (Nat × Word)) : List Elem := es.map fun (_, a) => ⟨a, w, w⟩

/-- Of bytes with one address, the last: the highest overlapping element leaves its bytes (R107). -/
def lastWins : List (Nat × Nat) → List (Nat × Nat)
  | [] => []
  | (i, a) :: r => if r.any (·.2 == a) then lastWins r else (i, a) :: lastWins r

def execLdvs (c : Ctl) (d : VReg) (b : SReg) (stride : SImm) (size : ElSize) (k : KOpt) (s : State) :
    Host.Outcome State Fault Refusal :=
  runWord (.ldvs c d b stride size k) s fun m s =>
    let q := s.core m
    let w := elBytes size
    let es := q.strided b stride w k
    s.load m c.ch (.vec d q.long) (stridedElems w es) (stridedBytes w es)

def execStvs (c : Ctl) (b : SReg) (v : VReg) (stride : SImm) (size : ElSize) (k : KOpt) (s : State) :
    Host.Outcome State Fault Refusal :=
  runWord (.stvs c b v stride size k) s fun m s =>
    let q := s.core m
    let w := elBytes size
    let es := q.strided b stride w k
    s.store m c.ch (stridedElems w es) (lastWins (stridedBytes w es)) (vecByte q v)

/-! ## PRF and FLL (R108) -/

/-- PRF: the line is requested into the named level, where its page is present and it may lie there. -/
def State.prefetch (s : State) (c : CoreId) (ch : BitVec 2) (level : PrfLevel) (ea : Word) : State :=
  let q := s.core c
  if !isGlobal ea.toNat then s
  else
    match s.xlat c q.ctxNum ea.toNat false with
    | (s, .error _) => s
    | (s, .ok x) =>
      let pk := x.key ea.toNat
      let line := pk / 128
      let t := tileOf c
      let home := s.homeOf q.ctxNum ea.toNat x.leaf
      if s.viewBad pk then s
      else
        match s.applyBlock line with
        | none => s
        | some s =>
          match level with
          | .l1 =>
            if s.noL1 c (ch == 3 || decide (2 ≤ viewOf pk)) pk || ((s.tile t).l1.find line).isSome then s
            else s.l1Fill t home line (pteStb x.leaf) (ch == 1)
          | .l2 => if s.heldLine line then s else (s.l2Bring home line).getD s

def execPrf (c : Ctl) (b : SReg) (level : PrfLevel) (disp : BitVec 16) (s : State) :
    Host.Outcome State Fault Refusal :=
  runWord (.prf c b level disp) s fun m s =>
    .done (s.prefetch m c.ch level (effAddr (s.core m) b disp))

/-- FLL of a line: the core's own stores to it drain, then it is written back, and with `inval` leaves L1. -/
def State.flushLine (s : State) (c : CoreId) (inval : Bool) (line : Nat) : Res :=
  let mine := fun (p : PendStore) => !p.loc && p.cells.any fun (a, _) => a / 128 == line
  let s := s.drainWhere c mine
  if (s.core c).stores.any mine then .wait
  else .done (if inval then s.l1Expel (tileOf c) line else s.l1WriteBack (tileOf c) line)

def execFll (c : Ctl) (b : SReg) (mode : FllMode) (disp : BitVec 16) (s : State) : Host.Outcome State Fault Refusal :=
  runWord (.fll c b mode disp) s fun m s =>
    let q := s.core m
    let ea := effAddr q b disp
    match q.place ea.toNat with
    | none => .trap .addrFault ea
    | some (.lm _) => .done s
    | some (.glob va ovf) =>
      if ovf then .done s
      else
        match s.look m q.ctxNum va with
        | .error _ => .done s
        | .ok x =>
          if s.viewBad (x.key va) then .trap .addrFault ea
          else if !q.mayUse true x.leaf then .trap .protFault ea
          else
            match s.fenceGate m clsGs with
            | none => .wait
            | some s => (s.xlat m q.ctxNum va false).1.flushLine m (mode == .cleaninv) (x.key va / 128)

end Sys2Proof.Machine
end

