-- ==== Sys2Proof/Machine/Barriers.lean ====
section
/-! DEFINITION. Named barriers, domain phases and drains, the merge of VPMRG and the record of ECSUM
(04_memory_sync R119 to R124, 05 R150, R151, 07 R194, R198, 09 R228 to R230). -/
namespace Sys2Proof.Machine
open Sys2Proof

/-! ## Membership (R119, R121) -/

def memOn (m : BitVec 16) : Bool := m.getLsbD 15
def memLevel (m : BitVec 16) : Nat := (m.extractLsb' 12 3).toNat
def memGroup (m : BitVec 16) : Nat := (m.extractLsb' 0 8).toNat

/-- A core may take part in barrier `b`: the subcode of BARRIER_FAULT, if a write of `m` has one (R121, R212). -/
def Core.memberFault (q : Core) (b : Nat) (m : Word) : Option Nat :=
  if q.grants.barriers ≤ b then some 11
  else if m.toNat / 2 ^ 16 != 0 || bitsOf m.toNat 8 4 != 0 ||
      (m.getLsbD 15 && (bitsOf m.toNat 12 3 == 0 || decide (5 < bitsOf m.toNat 12 3))) then some 1
  else if (q.bar b).st != .idle then some 2
  else none

/-- Writes a membership register. -/
def Core.setMember (q : Core) (b : Nat) (m : Word) : Core := q.setBar b { q.bar b with mem := m.setWidth 16 }

/-- Whether two cores lie in one instance of a level (R228). -/
def sameInstance (level : Nat) (a b : CoreId) : Bool :=
  match level with
  | 1 => tileOf a == tileOf b
  | 2 => clusterOf a == clusterOf b
  | 3 => dieOf a == dieOf b
  | _ => true

def levelScope (level : Nat) : Scope :=
  match level with
  | 1 => .tile
  | 2 => .cluster
  | 3 => .die
  | _ => .package

/-! ## Participants (R119, R122, R239) -/

/-- A participant: its package core number, its position among the saved records when it is off its core, its barrier. -/
structure Seat where
  core : CoreId
  saved : Option Nat
  bar : Bar
  deriving DecidableEq, Repr

def insertSeat (x : Seat) : List Seat → List Seat
  | [] => [x]
  | y :: r => if x.core < y.core then x :: y :: r else y :: insertSeat x r

/-- The context whose memberships a core holds: its work's, or that of the replay they are held for. -/
def Core.barCtx (q : Core) : Option Nat :=
  match q.work, q.heldFor with
  | some w, _ => some w.ctx
  | none, some w => some w.ctx
  | none, none => none

/-- The participants of barrier `b` for core `c`, ascending (log 18). -/
def State.seats (s : State) (c : CoreId) (b : Nat) : List Seat :=
  let q := s.core c
  let m := (q.bar b).mem
  let fits := fun (c' : CoreId) (x : Bar) => x.mem == m && memOn x.mem && sameInstance (memLevel m) c c'
  let live : List Seat := s.cores.filterMap fun (c', q') =>
    if q'.barCtx == q.barCtx && fits c' (q'.bar b) then some ⟨c', none, q'.bar b⟩ else none
  let off : List Seat := s.saved.zipIdx.filterMap fun (r, i) =>
    let x := r.arrivals.get b {}
    if some r.ctx == q.barCtx && fits r.core x then some ⟨r.core, some i, x⟩ else none
  off.foldl (fun l x => insertSeat x l) live

/-- A domain of a barrier, as a number: context, level, instance, group, barrier. -/
def State.domainKey (s : State) (c : CoreId) (b : Nat) : Nat :=
  let q := s.core c
  let m := (q.bar b).mem
  let inst := match memLevel m with
    | 1 => tileOf c
    | 2 => clusterOf c
    | 3 => dieOf c
    | _ => 0
  (((((q.barCtx.getD 255) * 8 + memLevel m) * 512 + inst) * 256 + memGroup m) * 128) + b

/-! ## The save record of a participant off its core (R122, R246) -/

/-- A barrier's entry in a core record (R246). -/
def barEntry (b : Bar) : Nat :=
  b.mem.toNat + (match b.st with | .idle => 0 | .arrived => 1 | .done => 2) * 2 ^ 16
    + (if b.comm then 2 ^ 18 else 0) + (if b.mark.isSome then 2 ^ 19 else 0) + (if b.fault.isSome then 2 ^ 20 else 0)

/-- Event counter `k` of a participant. -/
def State.seatEc (s : State) (x : Seat) (k : Nat) : Nat × Nat :=
  match x.saved with
  | none => (((s.core x.core).ec.get k 0).toNat, ((s.core x.core).ecsel.get k 0).toNat)
  | some i =>
    match s.saved[i]? with
    | none => (0, 0)
    | some r =>
      let a := s.coreRecord r.ctx r.core + 0x0FE0
      (s.paNum (a + 8 * k) 8, s.paNum (a + 64 + 8 * k) 8)

/-! ## Completion of a phase (R121 to R124) -/

def Arrival.fenced : Arrival → Bool
  | .plain nofence => !nofence
  | .drain _ | .convoy => true
  | .merge .. | .counters .. => false

/-- Arrivals behind which later loads are read anew. -/
def Arrival.orders : Arrival → Bool
  | .counters .. => true
  | a => a.fenced

def Seat.isDrain (x : Seat) : Bool := match x.bar.arr with
  | some (.drain _) => true
  | _ => false
def Seat.isConvoy (x : Seat) : Bool := x.bar.arr == some .convoy
/-- The contribution of a VPMRG. -/
def Seat.merge? (x : Seat) : Option (Bool × LVec) := match x.bar.arr with
  | some (.merge _ long v) => some (long, v)
  | _ => none

/-- The work of a participant. -/
def State.seatWork (s : State) (x : Seat) : Option WorkRef :=
  match x.saved with
  | none => (s.core x.core).work
  | some i => (s.saved[i]?).map (·.work)

/-- The core of a participant, as it stands or as it was saved. -/
def State.seatCore (s : State) (x : Seat) : Core :=
  match x.saved with
  | none => s.core x.core
  | some i => ((s.saved[i]?).map (·.snap)).getD {}

/-- CONVOY on forms only among exactly the eight cores of a cluster, in one task or program, that all arrive by CONVOY on (R198,
R226; DESIGN CHOICE for a phase in which some arrive by another word: it forms none, log 72). -/
def State.convoyForms (s : State) (l : List Seat) : Bool :=
  match l with
  | [] => false
  | x :: _ => l.length == 8 && memLevel x.bar.mem == 2 && l.map (·.core) == clusterCores (clusterOf x.core) &&
      l.all fun y => y.isConvoy && s.seatWork y == s.seatWork x

/-- The completion fault of a participant: 9 of every one where a convoy does not form, 7 of a merge (R121, R151, R198).
A phase on which other participants arrive by BARA or PDRAIN merges, counts and fails among its VPMRG arrivals alone (DESIGN
CHOICE, log 72). -/
def State.phaseFault (s : State) (l : List Seat) (x : Seat) : Option Nat :=
  if l.any Seat.isConvoy && !s.convoyForms l then some 9
  else
    match x.bar.arr with
    | some (.merge _ long _) => if (l.filterMap Seat.merge?).all fun (g, _) => g == long then none else some 7
    | _ => none

/-- The root pairs of a merge phase (R151). -/
def mergeOf (l : List Seat) : LVec :=
  let vs := l.filterMap Seat.merge?
  let bits := if (vs.map (·.1)).headD false then 2048 else 256
  BitVec.ofNat 2048 (mergeAll bits (vs.map fun (_, v) => v.toNat))

/-- ECSUM's record over its participants (R194). -/
def State.ecRecord (s : State) (b : Nat) (l : List Seat) : List Byte :=
  let vals := fun (k : Nat) => l.map fun x => s.seatEc x k
  let mixed := ((List.range 8).map fun k => if (vals k).all fun v => some v.2 == (vals k).head?.map (·.2) then 0 else 2 ^ k).sum
  let level := (l.head?.map fun x => memLevel x.bar.mem).getD 0
  padTo 128 (leBytes 8 (l.length % 65536 + mixed * 2 ^ 16 + b * 2 ^ 24 + level * 2 ^ 32)
    ++ (List.range 8).flatMap (fun k => leBytes 8 (min (2 ^ 64 - 1) ((vals k).map (·.1)).sum)) ++ leBytes 8 s.now)

def Seat.counters? (x : Seat) : Option (Nat × Option Nat) := match x.bar.arr with
  | some (.counters pa home _) => some (pa, home)
  | _ => none

/-- The bytes of an ECSUM record: local memory from an offset, or global memory from a physical key. -/
def inRecord (loc : Bool) (at_ : Nat) (a : Nat) (l : Bool) : Bool := loc == l && decide (at_ ≤ a) && decide (a < at_ + 128)

/-- What a participant has issued before its arrival on the bytes of the record takes place before the record is written, which
it reads behind its ECSUM (R194, R264). None: some of it has to wait. -/
def State.clearRecord (s : State) (loc : Bool) (at_ : Nat) (x : Seat) : Option State :=
  if x.saved.isSome then some s
  else
    let reads := fun (l : PendLoad) =>
      if loc then l.locs.any fun y => inRecord loc at_ y.2 true else l.lanes.any fun y => inRecord loc at_ y.pa false
    let writes := fun (p : PendStore) => p.cells.any fun y => inRecord loc at_ y.1 p.loc
    let s := if (s.core x.core).loads.any reads then s.performLoads x.core else s
    let s := s.drainWhere x.core writes
    if (s.core x.core).loads.any reads || (s.core x.core).stores.any writes then none else some s

/-- The same for every participant. -/
def State.clearRecords (s : State) (loc : Bool) (at_ : Nat) (l : List Seat) : Option State :=
  l.foldl (fun (r : Option State) x => r.bind fun s => s.clearRecord loc at_ x) (some s)

/-- Writes the record of an ECSUM phase at the address of its lowest participant: of one off its core, into the image of
its scratchpad (R122, R246). Where some participants arrive by another word, the record is that of those that arrive by ECSUM
(DESIGN CHOICE, log 72). None: the write waits at home. -/
def State.writeEcSum (s : State) (b : Nat) (l : List Seat) : Option State :=
  let mine := l.filter fun x => x.counters?.isSome
  match mine, mine.head?.bind Seat.counters? with
  | x :: _, some (off, none) =>
    match x.saved.bind fun i => s.saved[i]? with
    | none => (s.clearRecords true off (mine.filter fun y => tileOf y.core == tileOf x.core)).map fun s =>
      (s.modTile (tileOf x.core) fun t =>
        { t with lm := t.lm.write off (s.ecRecord b mine), poison := t.poison.filter (· != off / 128) })
    | some r => some (s.paWrite (r.image + (off - r.imageLo)) (s.ecRecord b mine))
  | _ :: _, some (pk, some home) =>
    let bytes := s.ecRecord b mine
    ((s.clearRecords false pk mine).bind fun s => s.applyBlock (pk / 128)).bind fun s =>
      let s := mine.foldl (fun s x => s.l1Expel (tileOf x.core) (pk / 128)) s
      if s.lineQueued (pk / 128) then none else s.homeWriteNow none home ((rangeFrom pk 128).zip bytes) .engine
  | [], _ | _ :: _, none => some s

/-- What completion does to a participant on its core. -/
def Core.phaseDone (q : Core) (b : Nat) (x : Bar) (fault : Option Nat) (drain : Option Nat) (merged : LVec)
    (leader : Core) : Core :=
  let y := { x with st := .done, fault := fault, comm := x.comm && drain.isNone, drained := drain.isSome }
  let q := q.wakeFor 3
  if fault.isSome then q.setBar b y
  else
    match x.arr with
    | some (.drain d) => (q.setBar b y).ws d (BitVec.ofNat 64 (drain.getD 0))
    | some (.merge d long _) => q.setBar b { y with arr := some (.merge d long merged), owed := true }
    | some (.counters _ _ clear) => let q := q.setBar b y; if clear then { q with ec := [] } else q
    | some .convoy => { q.setBar b y with convoy := true, rejoin := none, pc := leader.pc, blk := leader.blk, hdr := leader.hdr }
    | some (.plain _) | none => q.setBar b y

/-- The pairs of a merge go into the record of a participant off its core (R122, R246). -/
def State.recordMerge (s : State) (r : SavedRec) (d : VReg) (long : Bool) (merged : LVec) : State :=
  let a := s.coreRecord r.ctx r.core
  if long then s.paWrite (a + 0x1080 + 256 * d.toNat) (leBytes 256 merged.toNat)
  else s.paWrite (a + 0x0AC0 + 32 * d.toNat) (leBytes 32 (merged.toNat % 2 ^ 256))

/-- What completion does to a participant off its core: its results go into its save record (R122). -/
def State.phaseDoneOff (s : State) (i b : Nat) (x : Bar) (fault : Option Nat) (drain : Option Nat) (merged : LVec)
    (leader : Core) : State :=
  match s.saved[i]? with
  | none => s
  | some r =>
    let y := { x with st := .done, fault := fault, comm := x.comm && drain.isNone, drained := drain.isSome }
    let y := match x.arr, fault with
      | some (.merge d long _), none => { y with arr := some (.merge d long merged), owed := true }
      | _, _ => y
    let a := s.coreRecord r.ctx r.core
    let forms := fault.isNone && x.arr == some .convoy
    let snap := r.snap.wakeFor 3
    let snap := if forms then { snap with convoy := true, rejoin := none, pc := leader.pc, blk := leader.blk, hdr := leader.hdr, pos := leader.pos }
      else snap
    let s := { s with saved := s.saved.set i { r with arrivals := r.arrivals.set b y, snap := snap } }
    let s := s.paWrite (a + 0x04C0 + 4 * b) (leBytes 4 (barEntry y))
    if fault.isSome then s
    else
      match x.arr with
      | some (.drain d) => if d = 0 then s else s.paWrite (a + 0x0100 + 8 * d.toNat) (leBytes 8 (drain.getD 0))
      | some (.counters _ _ true) => s.paWrite (a + 0x0FE0) (List.replicate 64 0)
      | some .convoy =>
        let flags := s.paNum (a + 0x10) 8
        let flags := bitsOf flags 16 48 * 2 ^ 16 + (2 ^ 2 ||| flags % 2 ^ 8) + inCluster r.core * 2 ^ 8
        ((s.paWrite (a + 0x08) (leBytes 8 (leader.pc.toNat % 2 ^ 56))).paWrite (a + 0x10) (leBytes 8 flags)).paWrite (a + 0xB8)
          (leBytes 8 (leader.blk.toNat % 2 ^ 56))
      | some (.counters _ _ false) | some (.merge ..) | some (.plain _) | none => s

/-- Performs what a fenced arrival, or any arrival on a drain phase, orders before the phase completes (R123, R124). -/
def State.releaseSeat (s : State) (level : Nat) (drain : Bool) (x : Seat) : Option State :=
  if x.saved.isSome || !(drain || x.bar.arr.any Arrival.fenced) then some s
  else s.fenceSteps x.core { pred := clsGl ||| clsGs ||| clsLl ||| clsLs ||| clsVw, succ := 0,
                             scope := levelScope level, upto := x.bar.upto }

def State.releaseSeats (s : State) (level : Nat) (drain : Bool) : List Seat → Option State
  | [] => some s
  | x :: l =>
    match s.releaseSeat level drain x with
    | none => none
    | some s => s.releaseSeats level drain l

/-- Every participant of `b` for core `c` has arrived. -/
def State.allArrived (s : State) (c : CoreId) (b : Nat) : Bool :=
  let l := s.seats c b
  !l.isEmpty && l.all fun x => x.bar.st == .arrived

/-- Completes the phase of barrier `b` that core `c` takes part in; `drain`: the passes of its probe. None: some
participant has not arrived, or an access that it orders must still wait. -/
def State.completePhase (s : State) (c : CoreId) (b : Nat) (drain : Option Nat) : Option State :=
  let l := s.seats c b
  if !s.allArrived c b then none
  else
    match s.releaseSeats (memLevel ((s.core c).bar b).mem) drain.isSome l with
    | none => none
    | some s =>
      match s.writeEcSum b l with
      | none => none
      | some s =>
        let merged := mergeOf l
        let leader := (l.head?.map s.seatCore).getD {}
        let faults := l.map fun x => (x, s.phaseFault l x)
        let queue := ({ b := b, seats := (l.filter fun x => x.merge?.isSome && (s.phaseFault l x).isNone).map fun x =>
          (x.core, (s.seatCore x).inst) } : MergeJob)
        let s := faults.foldl (fun s (x, f) =>
          match x.saved with
          | none => s.modCore x.core fun q => q.phaseDone b x.bar f drain merged leader
          | some i => s.phaseDoneOff i b x.bar f drain merged leader) s
        some (if queue.seats.isEmpty then s
          else s.modCluster (clusterOf c) fun k => { k with merges := k.merges ++ [queue] })

/-- Returns the pairs of a completed merge to a participant (R359). -/
def Core.returnMerge (q : Core) (b : Nat) : Core :=
  let x := q.bar b
  match x.owed, x.arr with
  | true, some (.merge d true v) => { q.setBar b { x with owed := false } with l := q.l.set d.toNat v }
  | true, some (.merge d false v) => { q.setBar b { x with owed := false } with v := q.v.set d.toNat (v.setWidth 256) }
  | _, _ => q

/-- Returns the pairs to a participant that has been saved meanwhile: into its record (R122, R359). -/
def State.returnMergeOff (s : State) (c : CoreId) (inst b : Nat) : State :=
  match s.saved.findIdx? fun r => r.core == c && r.inst == inst with
  | none => s
  | some i =>
    match s.saved[i]? with
    | none => s
    | some r =>
      let x := r.arrivals.get b {}
      match x.owed, x.arr with
      | true, some (.merge d long v) =>
        ({ s with saved := s.saved.set i { r with arrivals := r.arrivals.set b { x with owed := false } } } : State).recordMerge
          r d long v
      | _, _ => s

/-- The merge unit serves one phase: it returns the pairs to every participant together (R359). -/
def State.serveMerge (s : State) (x : MergeJob) : State :=
  x.seats.foldl (fun s (c, inst) =>
    if (s.core c).inst = inst && (s.core c).work.isSome then s.modCore c fun q => q.returnMerge x.b
    else s.returnMergeOff c inst x.b) s

/-- The merge unit of a cluster serves the phase that completed first (R359). -/
def State.mergeNext (s : State) (cl : Nat) : State :=
  match (s.cluster cl).merges with
  | [] => s
  | x :: r => (s.modCluster cl fun k => { k with merges := r }).serveMerge x

/-- The work of a seat is on its core, or saved: it can still take its pairs. -/
def State.seatLives (s : State) (c : CoreId) (inst : Nat) : Bool :=
  ((s.core c).inst == inst && (s.core c).work.isSome) || s.isSaved c inst

/-- Phases of which no participant is left pass through the merge unit with nothing to return (R359). -/
def State.passDead (s : State) (cl : Nat) : State :=
  s.modCluster cl fun k => { k with merges := k.merges.dropWhile fun x => !x.seats.any fun (c, inst) => s.seatLives c inst }

/-! ## Arrivals and waits (R121 to R123) -/

/-- The barrier of a word that is over: IDLE, with its membership and its phase. -/
def Bar.over (x : Bar) : Bar := { mem := x.mem, comm := x.comm }

/-- A core goes on behind a phase: IDLE, and what it reads later is read after completion (R123), behind ECSUM at least its
record (R194). -/
def State.leaveBarrier (s : State) (c : CoreId) (b : Nat) : State :=
  let x := (s.core c).bar b
  let s := s.modCore c fun q => q.setBar b x.over
  if !(x.drained || x.arr.any Arrival.orders) then s
  else if 2 ≤ memLevel x.mem && (x.drained || x.arr.any Arrival.fenced) then s.freshLines c
  else s.modCore c fun q => { q with early := [] }

/-- A word that finds the phase of a fuzzy arrival completed goes on behind it, its core changed as `g` says, or raises
the fault with which the phase completed (R121, R198). -/
def State.afterPhase (s : State) (c : CoreId) (b : Nat) (g : Core → Core) : Res :=
  let x := (s.core c).bar b
  match x.fault with
  | some f => .trapCompl (s.modCore c fun q => q.setBar b x.over) f
  | none => .done ((s.leaveBarrier c b).modCore c g)

/-- Ring puts of a core that are not yet acknowledged. -/
def State.putsOpen (s : State) (c : CoreId) : Bool :=
  (s.opsOf (s.core c).inst).any fun o => o.core == c && o.tl == .rg && match o.kind with
    | .put .. | .flag .. => true
    | _ => false

/-- Registers the arrival of a core; a group of one completes at once (R121). -/
def State.register (s : State) (c : CoreId) (b : Nat) (arr : Arrival) (waits : Bool) : State :=
  let s := s.modCore c fun q =>
    let x := q.bar b
    q.setBar b { x with st := .arrived, arr := some arr, mark := if waits then some q.pc else none, upto := q.issue
                        fault := none, owed := false, drained := false }
  let k := s.domainKey c b
  let s := { s with probes := s.probes.set k { s.probes.get k {} with passes := 0 } }
  let l := s.seats c b
  if l.length = 1 && !(l.any Seat.isDrain) && (memLevel ((s.core c).bar b).mem != 5 || decide (s.ring.n ≤ 1)) then
    let s := s.passDead (clusterOf c)
    let idle := (s.cluster (clusterOf c)).merges.isEmpty
    let s := (s.completePhase c b none).getD s
    if idle then s.mergeNext (clusterOf c) else s
  else s

/-- A word that arrives on `b` and, with `waits`, stalls until the phase completes; `level` says which levels it takes,
`late` is the state check of PDRAIN (R121, R122). -/
def State.arrive (s : State) (c : CoreId) (b : Nat) (arr : State → Arrival) (waits : Bool) (level : Nat → Bool)
    (late : Bar → Option Nat) (extra : State → Option Res) : Res :=
  let q := s.core c
  let x := q.bar b
  if waits && x.mark == some q.pc && x.st != .idle then
    match x.st, x.fault with
    | .done, some f => .trapCompl (s.modCore c fun q => q.setBar b x.over) f
    | .done, none => if x.owed then .wait else .done (s.leaveBarrier c b)
    | .arrived, _ | .idle, _ => .wait
  else
    let fault := fun (n : Nat) => Res.trap .barrierFault (BitVec.ofNat 64 n)
    if !memOn x.mem then fault 5
    else if !level (memLevel x.mem) then fault 8
    else if x.st != .idle then fault 3
    else
      match late x with
      | some n => fault n
      | none =>
        match extra s with
        | some r => r
        | none =>
          if memLevel x.mem == 5 && (arr s).fenced && s.putsOpen c then .wait
          else
            let s := s.register c b (arr s) waits
            if waits then .arrived s else .done s

def execBara (c : Ctl) (opts : BitVec 2) (bar : BitVec 7) (s : State) : Host.Outcome State Fault Refusal :=
  runWord (.bara c opts bar) s fun m s =>
    s.arrive m bar.toNat (fun _ => .plain (opts.getLsbD 1)) (!opts.getLsbD 0) (fun _ => true) (fun _ => none) fun _ => none

def execBarw (c : Ctl) (bar : BitVec 7) (s : State) : Host.Outcome State Fault Refusal :=
  runWord (.barw c bar) s fun m s =>
    let x := (s.core m).bar bar.toNat
    match x.st with
    | .idle => .trap .barrierFault 4
    | .arrived => .wait
    | .done => s.afterPhase m bar.toNat id

def execBart (c : Ctl) (d : PReg) (bar : BitVec 7) (s : State) : Host.Outcome State Fault Refusal :=
  runWord (.bart c d bar) s fun m s =>
    match ((s.core m).bar bar.toNat).st with
    | .idle => .done (s.modCore m fun q => q.wp d true)
    | .arrived => .done (s.modCore m fun q => q.wp d false)
    | .done => s.afterPhase m bar.toNat fun q => q.wp d true

def execBarm (c : Ctl) (d : SReg) (m : SImm) (bar : BitVec 7) (s : State) : Host.Outcome State Fault Refusal :=
  runWord (.barm c d m bar) s fun k s =>
    let q := s.core k
    match q.memberFault bar.toNat (m.val q) with
    | some n => .trap .barrierFault (BitVec.ofNat 64 n)
    | none =>
      let old := ((q.bar bar.toNat).mem).setWidth 64
      .done (s.setCore k ((q.setMember bar.toNat (m.val q)).ws d old))

def execPhase (c : Ctl) (mode : PhaseMode) (bar : BitVec 7) (s : State) : Host.Outcome State Fault Refusal :=
  runCore (.phase c mode bar) s fun q => q.setBar bar.toNat { q.bar bar.toNat with comm := mode == .comm }

def execPdrain (c : Ctl) (d : SReg) (bar : BitVec 7) (s : State) : Host.Outcome State Fault Refusal :=
  runWord (.pdrain c d bar) s fun m s =>
    s.arrive m bar.toNat (fun _ => .drain d) true (fun _ => true) (fun x => if x.comm then none else some 6) fun _ => none

def execVpmrg (c : Ctl) (d a : VReg) (bar : BitVec 7) (s : State) : Host.Outcome State Fault Refusal :=
  runWord (.vpmrg c d a bar) s fun m s =>
    s.arrive m bar.toNat (fun s => .merge d (s.core m).long (BitVec.ofNat 2048 ((s.core m).rv a))) true
      (fun n => n == 1 || n == 2) (fun _ => none) fun _ => none

/-- ECSUM (R194): its address is checked as a store at issue, 128-byte aligned. -/
def execEcsum (c : Ctl) (b : SReg) (opt : EcOpt) (bar : BitVec 7) (s : State) : Host.Outcome State Fault Refusal :=
  runWord (.ecsum c b opt bar) s fun m s =>
    let a := (s.core m).rs b
    if (s.core m).idem then .trap .nonidemOp 0
    else
      s.arrive m bar.toNat
        (fun s =>
          let w := (s.resolve m true 3 (runBytes a 1)).2
          match w.lanes with
          | l :: _ => .counters l.pa (some l.home) (opt == .clear)
          | [] => .counters ((w.locs.map (·.2)).headD 0) none (opt == .clear))
        true (fun n => n != 5) (fun _ => none)
        fun s => s.checkAccess m accWrite [⟨a, 128, 128⟩]

/-! ## Events -/

/-- BARRIER_PHASE_COMPLETE (R121): a phase without a drain arrival. -/
def execBarrierPhaseComplete (c : CoreId) (b : Nat) (s : State) : Host.Outcome State Fault Refusal :=
  if (s.seats c b).any Seat.isDrain then .next s else .next ((s.completePhase c b none).getD s)

/-- A receive sends nothing: the probe counts ring puts, flags among them, and sends (R124). -/
def OpKind.isRecv : OpKind → Bool
  | .recv .. => true
  | .copy .. | .pattern .. | .ternarise .. | .stream .. | .gather .. | .flush .. | .load .. | .scale .. | .perm ..
  | .zero .. | .accWrite .. | .matrix .. | .put .. | .flag .. | .send .. => false

/-- The lowest level whose probe path holds the interface that has yet to receive an operation: of a put or send the ring
port, of one in the job queue the copy unit or the matrix engine, of a gather that has not begun its gather engine; none
once it has been received (R124, R228). -/
def State.commandLevel (s : State) (o : EngOp) : Option Nat :=
  if o.tl == .rg then (if o.kind.isRecv then none else some 5)
  else if o.queued || (s.cluster (clusterOf o.core)).pending.any (·.parts.contains o.ref) then some 2
  else
    match o.kind with
    | .gather .. => if o.prog = 0 then some 3 else none
    | _ => none

/-- What a participant has sent and nobody has received, at the interfaces on the probe path of a level, also where its work,
the instance `inst`, has been saved since (R124, R228, R229, R362, log 19). -/
def State.inFlight (s : State) (c : CoreId) (inst level : Nat) : Nat :=
  (s.flight.filter fun p => p.src == c && (s.entersAt p).any fun k => decide (sorterLevel c k ≤ level)).length
    + (s.homeQ.filter fun w => w.core == some c && decide (sliceLevel c w.home ≤ level)).length
    + ((s.opsOf inst).filter fun o => o.core == c && (s.commandLevel o).any (· ≤ level)).length

/-- The ring port as a source of receipts: what it has received for a context from another package (R228). -/
def portSource (ctx : Nat) : CoreId := 512 + ctx

/-- Whether an interface on the probe path of a level has received something from one of some cores since a pass. -/
def State.receivedSince (s : State) (cores : List CoreId) (level seen : Nat) : Bool :=
  s.received.any fun (k, n) => decide (seen < n) && decide (k % 8 ≤ level) && cores.contains (k / 8)

/-- PROBE_PASS (R229): one pass of the probe of a drain phase; with no traffic in flight the second pass ends it (R232). -/
def execProbePass (c : CoreId) (b : Nat) (s : State) : Host.Outcome State Fault Refusal :=
  let l := s.seats c b
  if !s.allArrived c b || !(l.any Seat.isDrain) then .next s
  else
    let k := s.domainKey c b
    let old := s.probes.get k {}
    let level := memLevel ((s.core c).bar b).mem
    let cores := l.map (·.core)
    let black := s.receivedSince (portSource (s.core c).ctxNum :: cores) level old.seen
    let sum := (l.map fun x => s.inFlight x.core (s.seatCore x).inst level).sum
    let s := { s with probes := s.probes.set k ⟨old.passes + 1, s.receipts⟩ }
    if black || sum != 0 then .next s
    else .next ((s.completePhase c b (some (old.passes + 1))).getD s)

/-- The merge unit of a cluster has next a phase of a core on a barrier, its work on the core or saved. -/
def State.mergeDue (s : State) (c : CoreId) (b cl : Nat) : Bool :=
  match (s.cluster cl).merges with
  | [] => false
  | x :: _ => x.b == b && x.seats.any fun (c', inst) => c' == c && s.seatLives c inst

/-- VPMRG_MERGE (R359): a merge unit serves the phase that completed first, when it is one of a core's on that barrier: the unit
of the core's cluster, or of that in which the phase completed before the work came back onto this core (R245). -/
def execVpmrgMerge (c : CoreId) (b : Nat) (s : State) : Host.Outcome State Fault Refusal :=
  let s := (s.clusters.map (·.1)).foldl (fun s cl => s.passDead cl) s
  match (clusterOf c :: s.clusters.map (·.1)).find? (s.mergeDue c b) with
  | none => .next s
  | some cl => .next (s.mergeNext cl)

end Sys2Proof.Machine
end

