-- ==== Sys2Proof/Machine/Handles.lean ====
section
/-! DEFINITION. The operand forms of handles, and the handle instructions but HBIND
(06_matrix_stream R171 to R173, 02 R42, R48). -/
namespace Sys2Proof.Machine
open Sys2Proof

/-! ## Operand forms (R172) -/

/-- A slot's number in SC.N: N + 1 slots (R42). -/
def Ctl.slots (c : Ctl) : Nat := c.n.toNat + 1

/-- A handle source with a count of slots: the trap, or the wait; none when it may proceed. -/
def Handle.sourceStop (x : Handle) (h : HReg) (n : Nat) : Option Res :=
  match x.st with
  | .unbound => some (.trap .handleUnbound (h.setWidth 64))
  | .update => some (.trap .handleState 3)
  | .ring | .stream =>
    if n ≤ x.filled then none
    else if x.st == .stream && x.fault then some (.trap .handleFault 1)
    else if x.st == .stream && x.exhausted then some (.trap .handleFault 2)
    else some .wait

/-- A handle destination with a count of slots. Only a RING has a free slot to give to the program. -/
def Handle.destStop (x : Handle) (n : Nat) : Option Res :=
  match x.st with
  | .ring => if n ≤ x.free then none else some .wait
  | .unbound | .stream | .update => some (.trap .handleState (BitVec.ofNat 64 x.st.code))

/-- The core consumes `n` slots: it claims and commits at once. -/
def Handle.consume (x : Handle) (n : Nat) : Handle :=
  { x with d := x.d + n, doneC := x.doneC ++ (rangeFrom x.d n).filter (!x.doneC.contains ·) }.settle

/-- The core produces `n` slots. -/
def Handle.produce (x : Handle) (n : Nat) : Handle :=
  { x with q := x.q + n, doneP := x.doneP ++ (rangeFrom x.q n).filter (!x.doneP.contains ·) }.settle

/-! ## HCFG, HADVP, HADVC, HSTAT, HUNB (R173) -/

/-- A range inside the issuing work's scratchpad share (R303). -/
def Core.shareRange (q : Core) (base : Word) (n : Nat) : Bool :=
  scratchBase ≤ base.toNat && base.toNat < scratchBase + 2 ^ 22
    && q.grants.shareBase ≤ base.toNat - scratchBase
    && base.toNat - scratchBase + n ≤ q.grants.shareBase + q.grants.shareSize

def execHcfg (c : Ctl) (h : HReg) (base bytes slots : SImm) (s : State) : Host.Outcome State Fault Refusal :=
  runWord (.hcfg c h base bytes slots) s fun m s =>
    let q := s.core m
    let b := base.val q
    let n := (bytes.val q).toNat
    let k := (slots.val q).toNat
    let x := q.handle h
    if q.grants.handles ≤ h.toNat then .trap .handleState 0x10
    else if n % 32 != 0 || n < 32 || 65536 < n then .trap .illegalOp (illegalInfo ⟨0x05, 2⟩)
    else if k < 1 || 256 < k then .trap .illegalOp (illegalInfo ⟨0x05, 3⟩)
    else if b.toNat % 32 != 0 then .trap .misaligned b
    else if !q.shareRange b (n * k) then .trap .addrFault b
    else if !(x.st == .unbound || (x.st == .ring && !x.claimed)) then .trap .handleState (BitVec.ofNat 64 x.st.code)
    else .done (s.modCore m fun q => q.setHandle h { st := .ring, base := b, bytes := n, slots := k })

def execHadvp (c : Ctl) (h : HReg) (s : State) : Host.Outcome State Fault Refusal :=
  runWord (.hadvp c h) s fun m s =>
    match ((s.core m).handle h).destStop (Ctl.slots c) with
    | some r => r
    | none =>
      let s := if (s.core m).loads.any fun l => !l.locs.isEmpty then s.performLoads m else s
      let s := s.drainWhere m (·.loc)
      if (s.core m).stores.any (·.loc) then .wait
      else .done (s.modCore m fun q => q.setHandle h ((q.handle h).produce (Ctl.slots c)))

/-- Whether an outstanding load of a core reads local memory in `n` slots of a handle from a position on. -/
def Core.loadsSlots (q : Core) (x : Handle) (pos n : Nat) : Bool :=
  (rangeFrom pos n).any fun p =>
    let lo := (x.slotAt p).toNat - scratchBase
    q.loads.any fun l => l.locs.any fun (_, a) => decide (lo ≤ a) && decide (a < lo + x.bytes)

/-- HADVC (R173): the core's earlier loads of the slots complete first. -/
def execHadvc (c : Ctl) (h : HReg) (s : State) : Host.Outcome State Fault Refusal :=
  runWord (.hadvc c h) s fun m s =>
    match ((s.core m).handle h).sourceStop h (Ctl.slots c) with
    | some r => r
    | none =>
      let held := fun (s : State) => (s.core m).loadsSlots ((s.core m).handle h) ((s.core m).handle h).d (Ctl.slots c)
      let s := if held s then s.performLoads m else s
      if held s then .wait
      else .done (s.modCore m fun q => q.setHandle h ((q.handle h).consume (Ctl.slots c)))

/-- The object word of HSTAT. -/
def Handle.word (x : Handle) : Word :=
  BitVec.ofNat 64 (x.filled % 65536 + x.free * 2 ^ 16 + x.st.code * 2 ^ 32 + (if x.fault then 2 ^ 36 else 0)
    + (if x.exhausted then 2 ^ 37 else 0))

def execHstat (c : Ctl) (d : SReg) (h : HReg) (field : HstatField) (s : State) : Host.Outcome State Fault Refusal :=
  runWord (.hstat c d h field) s fun m s =>
    let x := (s.core m).handle h
    match field with
    | .object => .done (s.modCore m fun q => q.ws d x.word)
    | .destination =>
      match x.destStop (Ctl.slots c) with
      | some r => r
      | none => .done (s.modCore m fun q => q.ws d (x.slotAt x.q))
    | .source =>
      match x.sourceStop h (Ctl.slots c) with
      | some r => r
      | none => .done (s.modCore m fun q =>
          (if c.adv then q.setHandle h (x.consume (Ctl.slots c)) else q).ws d (x.slotAt x.d))

/-- UNBOUND; the counts stand as they were. -/
def Handle.released (x : Handle) : Handle := { x with st := .unbound, region := none }

/-- The region of a handle loses it; its pairs are applied, and with its last handle the region ends (R181, R376). -/
def State.unbindRegion (s : State) (c : CoreId) (h : HReg) : State :=
  match ((s.core c).handle h).region with
  | none => s
  | some r =>
    match s.region r with
    | none => s
    | some g =>
      let s := { s with regions := s.regions.set r { g with handles := g.handles.filter (· != (c, h)), flush := s.pairsOut } }
      let s := (s.modCore c fun q => q.setHandle h (q.handle h).released)
      s.retireRegions

/-- HUNB on one core. A stream first stops after its current slot. -/
def State.unbind (s : State) (c : CoreId) (h : HReg) : Res :=
  let q := s.core c
  let x := q.handle h
  match x.st with
  | .update => .done (s.unbindRegion c h)
  | .unbound => .done s
  | .ring => if x.claimed then .wait else .done (s.modCore c fun q => q.setHandle h (q.handle h).released)
  | .stream =>
    match (s.opsOf q.inst).find? fun o => o.core == c && o.kind == .stream h with
    | some o => .arrived (s.opComplete o 0 0xFF 0)
    | none => if x.claimed then .wait else .done (s.modCore c fun q => q.setHandle h (q.handle h).released)

def execHunb (c : Ctl) (h : HReg) (s : State) : Host.Outcome State Fault Refusal :=
  runWord (.hunb c h) s fun m s => s.unbind m h

end Sys2Proof.Machine
end

