-- ==== Sys2Proof/Machine/MatrixData.lean ====
section
/-! DEFINITION. The matrix descriptor and its checks, the operands of a step, the slice sums and their scaling, and the
W-stack (06_matrix_stream R159 to R163, 16_matrix_engine R331 to R339, 01_number_formats R14 to R36). -/
namespace Sys2Proof.Machine
open Sys2Proof

/-! ## Formats (R35, R36, R160) -/

def fmtScaled (f : Nat) : Bool := f == 3 || f == 4 || f == 5 || f == 6 || f == 14
def fmtLog (f : Nat) : Bool := f == 5 || f == 6 || f == 14
/-- SPMODE that a sparse operand needs; 0 for a dense one (R336). -/
def sparseA (f : Nat) : Nat := if f == 12 || f == 14 then 1 else if f == 13 then 2 else 0
def sparseB (f : Nat) : Nat := if f == 9 || f == 14 then 1 else if f == 10 then 2 else 0

/-- R36. -/
def pairOk (a b : Nat) : Bool :=
  (((decide (7 ≤ b) && decide (b ≤ 11)) && (decide (a ≤ 4) || a == 12 || a == 13 || a == 15))
    || (fmtLog a && fmtLog b)) && !(sparseA a != 0 && sparseB b != 0)

/-- Bytes of a column of weights for a step (R160). -/
def colBytes (b ks : Nat) : Nat :=
  match b with
  | 7 => (ks + 4) / 5
  | 8 => (ks + 3) / 4
  | 11 => (ks + 7) / 8
  | 9 => 24 * ks / 128
  | 10 => 32 * ks / 128
  | 5 => ks
  | 6 => 3 * ((ks + 3) / 4)
  | _ => 5 * ks / 8

/-- Bytes of a row of A for a step (R160). -/
def rowBytes (a ks : Nat) : Nat :=
  match a with
  | 0 | 1 | 3 | 5 => ks
  | 15 => 2 * ks
  | 6 => 3 * ((ks + 3) / 4)
  | _ => (ks * 4 + 7) / 8

/-- Bytes of A elements of 8 bits and wider; 0 for a narrower format. -/
def wideBytes (a : Nat) : Nat := if a == 15 then 2 else if a == 0 || a == 1 || a == 3 || a == 5 then 1 else 0

/-- Bytes of a step's A slot (R160). -/
def slotNeed (d : List Byte) : Nat := mdM d * rowBytes (mdA d) (mdKS d) + (if fmtScaled (mdA d) then mdM d else 0)

/-- Metadata bits of one row of sparse A. -/
def metaRow (a ks : Nat) : Nat := if sparseA a = 1 then ks / 4 * 4 else if sparseA a = 2 then ks / 8 * 12 else 0

/-! ## The checks of MCFG (R161): the byte offset and the subcode of the first that fails -/

def isPow32 (ks : Nat) : Bool := [32, 64, 128, 256, 512, 1024].contains ks

/-- CLIST names a cluster twice, or one above 63. -/
def badList (l : List Nat) : Bool := l.any (63 < ·) || !l.Nodup

/-- The first reserved field that is not zero (R159), by its byte offset. -/
def reservedAt (d : List Byte) : Option Nat :=
  let part := [(1, mdByte d 1 / 128), (2, leAt d 2 2 / 2048), (6, mdByte d 6 / 128), (7, mdByte d 7 / 128),
    (9, mdByte d 9 / 16), (11, mdByte d 11), (12, leAt d 12 4 / 2 ^ 26), (16, leAt d 16 4 / 2 ^ 26),
    (20, leAt d 20 4 / 2 ^ 26 % 32), (24, leAt d 24 4 / 2 ^ 26)]
  let whole := [(28, leAt d 28 4), (41, leAt d 41 23)]
  ((part ++ whole).find? fun (_, x) => x != 0).map (·.1)

def mcfgFail (d : List Byte) : Option (Nat × Nat) :=
  let a := mdA d
  let b := mdB d
  let ks := mdKS d
  if !pairOk a b then some (0, 1)
  else if mdSparse d != max (sparseA a) (sparseB b) then some (7, 1)
  else if ks = 0 || 1024 < ks || ((fmtScaled a || fmtScaled b) && !isPow32 ks) || (sparseA a == 1 && ks % 4 != 0)
      || (sparseA a == 2 && ks % 8 != 0) || ((b == 9 || b == 10) && ks % 128 != 0) then some (2, 2)
  else if mdSteps d = 0 then some (4, 3)
  else if mdTrans d && wideBytes a = 0 then some (7, 4)
  else if mdPerm d && 512 < ks then some (7, 5)
  else if mdChn d = 1 || 8 < mdChn d then some (32, 6)
  else if badList (mdList d) then some (33, 6)
  else (reservedAt d).map fun i => (i, 7)

def badDesc (off sub : Nat) : Res := .trap .badDesc (BitVec.ofNat 64 (off * 256 + sub))

/-! ## The W-stack (R167, R250, R315) -/

/-- Number of a byte of the W-stack: cluster, slice in it, offset. -/
def wByte (cl j off : Nat) : Nat := (8 * cl + j) * 2 ^ 26 + off
/-- The byte that a W address of a cluster's core names. -/
def wAddr (cl : Nat) (w : Nat) : Nat := wByte cl (w / 2 ^ 26 % 8) (w % 2 ^ 26)

/-- The first poisoned beat of a range, as a byte number. -/
def State.wBad (s : State) (a n : Nat) : Option Nat :=
  ((rangeFrom (a / 32) ((a + n + 31) / 32 - a / 32)).find? s.wpoison.contains).map (32 * ·)

/-- Writes bytes of the W-stack; a beat written whole loses its poison. -/
def State.wWrite (s : State) (a : Nat) (bytes : List Byte) : State :=
  let whole := fun (beat : Nat) => decide (a ≤ 32 * beat) && decide (32 * beat + 32 ≤ a + bytes.length)
  { s with wstack := s.wstack.write a bytes, wpoison := s.wpoison.filter (!whole ·) }

/-- The beats that a write of `n` bytes touches. -/
def beatsOf (a n : Nat) : List Nat := if n = 0 then [] else rangeFrom (a / 32) ((a + n - 1) / 32 - a / 32 + 1)

/-- Clears the backing bit of every beat that a write touches (R250). -/
def State.unback (s : State) (a n : Nat) : State :=
  (beatsOf a n).foldl (fun s beat =>
    match s.backing.find (beat / 128) with
    | none => s
    | some r => { s with backing := s.backing.set (beat / 128) { r with mask := r.mask &&& ~~~(1#128 <<< (beat % 128)) } }) s

/-- The backing record after MBLD writes part of a beat for a tile from `src`, the source of byte `a`, which lies in global
memory or, with `lm`, in the tile's scratchpad (R250). -/
def State.back (s : State) (a n : Nat) (src : Word) (tile : Nat) (lm : Bool) : State :=
  (beatsOf a n).foldl (fun s beat =>
    let rng := beat / 128
    let origin := src + BitVec.ofNat 64 (4096 * rng) - BitVec.ofNat 64 a
    let r := s.backing.get rng {}
    let mask := if r.src = origin && r.lm == lm && (!lm || r.tile == tile) then r.mask else 0
    let bit := 1#128 <<< (beat % 128)
    let whole := decide (a ≤ 32 * beat) && decide (32 * beat + 32 ≤ a + n)
    { s with backing := s.backing.set rng ⟨origin, if whole then mask ||| bit else mask &&& ~~~bit, tile, lm⟩ }) s

/-! ## Elements of operand A (R20, R22, R25, R28, R29, R160) -/

/-- `n` fields of `w` bits from the bytes of a run. -/
def fieldsOf (w n : Nat) (bs : List Byte) : List Nat :=
  let x := ofLe bs
  (List.range n).map fun k => x / 2 ^ (w * k) % 2 ^ w

def signedFields (w n : Nat) (bs : List Byte) : List Int := (fieldsOf w n bs).map fun x => (BitVec.ofNat w x).toInt

/-- A format's dense elements; logarithmic ones as their byte. -/
def denseA (f ks : Nat) (bs : List Byte) : List Int :=
  match f with
  | 0 | 3 => signedFields 8 ks bs
  | 1 | 5 => (fieldsOf 8 ks bs).map Int.ofNat
  | 2 | 4 => signedFields 4 ks bs
  | 15 => signedFields 16 ks bs
  | 6 => (fieldsOf 6 ks bs).map Int.ofNat
  | _ => []

/-- The elements of sparse A from its values and its metadata groups: absent positions are none; and how many groups
are malformed. -/
def sparseElems (g : Group) (vals : List Int) (metas : List Nat) : List (Option Int) × Nat :=
  let gs := metas.zipIdx.map fun (m, i) =>
    let (idx, bad) := sparseIndex g m
    (idx.map fun (o : Option Nat) => o.map fun k => vals.getD (g.keep * i + k) 0, bad)
  (gs.flatMap (·.1), (gs.filter (·.2)).length)

def groupA (f : Nat) : Group := if sparseA f = 1 then group24 else group48

/-- The metadata groups of row `row` of a sparse A, counted over the rows of all steps. -/
def rowMetas (d metas : List Byte) (row : Nat) : List Nat :=
  let g := groupA (mdA d)
  let bits := ofLe metas / 2 ^ (row * metaRow (mdA d) (mdKS d))
  (List.range (mdKS d / g.width)).map fun i => bits / 2 ^ (g.metaBits * i) % 2 ^ g.metaBits

/-- The byte of a row's first malformed metadata group, in the metadata of the whole operation. -/
def metaBad (d metas : List Byte) (row : Nat) : Option Nat :=
  let g := groupA (mdA d)
  ((rowMetas d metas row).findIdx? fun m => (sparseIndex g m).2).map fun i =>
    (row * metaRow (mdA d) (mdKS d) + g.metaBits * i) / 8

/-- Row r of a step's A: its elements, and the malformed groups. `row0`: the row's first metadata row. -/
def aRow (d : List Byte) (slot metas : List Byte) (row0 r : Nat) : List (Option Int) × Nat :=
  let f := mdA d
  let ks := mdKS d
  let w := wideBytes f
  let raw := if mdTrans d then (List.range ks).flatMap fun k => (slot.drop ((k * mdM d + r) * w)).take w
    else (slot.drop (r * rowBytes f ks)).take (rowBytes f ks)
  if sparseA f = 0 then ((denseA f ks raw).map some, 0)
  else
    let g := groupA f
    let n := ks / g.width
    let vals := if f == 14 then (fieldsOf 8 (2 * n) raw).map Int.ofNat else signedFields 8 (g.keep * n) raw
    sparseElems g vals (rowMetas d metas (row0 + r))

/-! ## Columns of operand B (R14 to R19, R25, R28, R29, R160) -/

/-- A column: its weights (absent ones none), its illegal codes, and the byte offset of the first. -/
structure Column where
  w : List (Option Int)
  bad : Nat
  first : Option Nat

/-- Weights of units of sparse ternary columns: `mb` metadata bytes and then value bytes for 128 weights. -/
def sparseColumn (g : Group) (unit mb : Nat) (ks : Nat) (bs : List Byte) : Column :=
  let per := 128 / g.width
  let gs := (List.range (ks / 128)).flatMap fun u =>
    let ms := ofLe ((bs.drop (unit * u)).take mb)
    let vs := ofLe ((bs.drop (unit * u + mb)).take (unit - mb))
    (List.range per).map fun i =>
      let (ws, bad) := sparseWeights g (ms / 2 ^ (g.metaBits * i) % 2 ^ g.metaBits) (vs / 2 ^ (g.keep * i) % 2 ^ g.keep)
      (ws, bad, unit * u + g.metaBits * i / 8)
  { w := gs.flatMap fun (ws, _, _) => ws.map some
    bad := (gs.filter (·.2.1)).length
    first := (gs.find? (·.2.1)).map (·.2.2) }

def column (b ks : Nat) (bs : List Byte) : Column :=
  match b with
  | 7 =>
    let (ts, n) := t5Run ks bs
    ⟨ts.map some, n, (bs.take ((ks + 4) / 5)).findIdx? fun x => (t5Decode x.toNat).2⟩
  | 8 =>
    let (ts, n) := t2Run ks bs
    ⟨ts.map some, n, ((fieldsOf 2 ks bs).findIdx? fun x => (t2Decode x).2).map (· / 4)⟩
  | 11 => ⟨(fieldsOf 1 ks bs).map fun x => some (if x = 1 then -1 else 1), 0, none⟩
  | 9 => sparseColumn group24 24 16 ks bs
  | 10 => sparseColumn group48 32 24 ks bs
  | 5 => ⟨(fieldsOf 8 ks bs).map fun x => some (Int.ofNat x), 0, none⟩
  | 6 => ⟨(fieldsOf 6 ks bs).map fun x => some (Int.ofNat x), 0, none⟩
  | _ =>
    let ms := (fieldsOf 4 (ks / 4) (bs.drop (ks / 2)))
    let (ws, n) := sparseElems group24 ((fieldsOf 8 (ks / 2) bs).map Int.ofNat) ms
    ⟨ws, n, (ms.findIdx? fun m => (sparseIndex group24 m).2).map fun i => ks / 2 + i / 2⟩

/-! ## Slice sums and V (R33, R163, R338) -/

/-- A sum over positions P(k), exact. -/
def sliceSum (log : Bool) (perm : Option (List Nat)) (ks : Nat) (a b : List (Option Int)) : Int :=
  let at' := fun (l : List (Option Int)) (k : Nat) => (l.getD k none).getD 0
  let prod := fun (k : Nat) => if log then lgProd (at' a k).toNat (at' b k).toNat else at' a k * at' b k
  ((match perm with
    | none => List.range ks
    | some p => p.take ks).map prod).sum

/-- Element scale exponent (R338). -/
def elemExp (a b : Nat) : Int := if fmtLog b then -25 else if a == 3 then -6 else if a == 4 then -2 else 0

/-- V of a slice sum: the ACX48 value and whether it overflowed. -/
def scaleSum (sum : Int) (gs ea eb : Nat) (ex : Int) : BitVec 48 × Bool :=
  if gs / 8 = 0 then (0, false)
  else if ea = 255 || eb = 255 then (acxNan, false)
  else acxRound (FVal.ofInt (sum * (8 + gs % 8 : Nat)) ((gs / 8 : Nat) - 18 + ex + (ea : Int) - 127 + (eb : Int) - 127))

/-! ## Compaction cycles (R331, R332) -/

/-- Extra cycles of a row pass, from the occupied positions n(c, q) of 128 columns and Q K-steps. -/
def extraCycles (q : Nat) (n : Nat → Nat → Nat) : Nat :=
  let key := fun (c k : Nat) => c * 64 + k
  let all := (List.range q).flatMap fun k => (List.range 128).map fun c => (c, k)
  let idle : SMap Nat := all.foldl (fun m (c, k) => m.set (key c k) (32 - min 32 (n c k))) []
  let exc : SMap Nat := all.foldl (fun m (c, k) => m.set (key c k) (n c k - 32)) []
  let give := fun (st : SMap Nat × SMap Nat) (c k : Nat) (t : Option Nat) =>
    match t with
    | none => st
    | some t =>
      let m := min (st.2.get (key c k) 0) (st.1.get t 0)
      (SMap.set st.1 t (st.1.get t 0 - m), SMap.set st.2 (key c k) (st.2.get (key c k) 0 - m))
  let st := all.foldl (fun st (c, k) =>
    [(if k + 1 < q then some (key c (k + 1)) else none), (if k + 2 < q then some (key c (k + 2)) else none),
      (if 1 ≤ c then some (key (c - 1) k) else none), (if c + 1 < 128 then some (key (c + 1) k) else none)].foldl
        (fun st t => give st c k t) st) (idle, exc)
  ((List.range ((q + 1) / 2)).filter fun p =>
    (List.range 128).any fun c => st.2.get (key c (2 * p)) 0 != 0 || st.2.get (key c (2 * p + 1)) 0 != 0).length

/-- Occupied positions of a column in each K-step. -/
def occupied (perm : Option (List Nat)) (ks : Nat) (w : List (Option Int)) (k : Nat) : Nat :=
  ((rangeFrom (64 * k) (min 64 (ks - 64 * k))).filter fun i =>
    let x := match perm with
      | none => i
      | some p => p.getD i 0
    (w.getD x none).getD 0 != 0).length

end Sys2Proof.Machine
end

