-- ==== Sys2Proof/Machine/Scalar.lean ====
section
/-! DEFINITION. Control transfers and the scalar unit (03_control_scalar R71 to R97), but SLEEP and YIELD. -/
namespace Sys2Proof.Machine
open Sys2Proof

/-! ## Integer functions (R83 to R86) -/

/-- R84. -/
def divS (a b : Word) : Word := if b = 0 then -1 else BitVec.ofInt 64 (a.toInt.tdiv b.toInt)
def divN (a b : Word) : Word := if b = 0 then -1 else BitVec.ofNat 64 (a.toNat / b.toNat)
def remS (a b : Word) : Word := if b = 0 then a else a - b * divS a b
def remN (a b : Word) : Word := if b = 0 then a else a - b * divN a b

/-- High halves of the 128-bit products (R83). -/
def mulHigh (a b : Word) : Word := BitVec.ofInt 64 (a.toInt * b.toInt / 2 ^ 64)
def mulHighN (a b : Word) : Word := BitVec.ofNat 64 (a.toNat * b.toNat / 2 ^ 64)

def absW (a : Word) : Word := if a.toInt < 0 then 0 - a else a
def minS (a b : Word) : Word := if b.toInt < a.toInt then b else a
def maxS (a b : Word) : Word := if a.toInt < b.toInt then b else a
def minN (a b : Word) : Word := if b.toNat < a.toNat then b else a
def maxN (a b : Word) : Word := if a.toNat < b.toNat then b else a

/-- A shift or rotate count: b[5:0] (R83). -/
def count6 (b : Word) : Nat := b.toNat % 64

def popc (a : Word) : Nat := (List.range 64).countP fun i => a.getLsbD i
/-- Zero bits above the top one bit, or below the lowest; 64 for zero. -/
def clz (a : Word) : Nat := ((List.range 64).findIdx? fun i => a.getLsbD (63 - i)).getD 64
def ctz (a : Word) : Nat := ((List.range 64).findIdx? fun i => a.getLsbD i).getD 64
def brev (a : Word) : Word := BitVec.ofNat 64 (ofElems 1 ((List.range 64).map fun k => if a.getLsbD (63 - k) then 1 else 0))

/-- Position and mask of a bit field (R85). -/
def fieldPos (pos : Word) : Nat := pos.toNat % 64
def fieldMask (pos len : Word) : Word :=
  let n := min (len.toNat % 128) 64
  BitVec.ofNat 64 (2 ^ (if 64 < fieldPos pos + n then 64 - fieldPos pos else n) - 1)

def ExtWbits : ExtW → Nat
  | .w8 => 8
  | .w16 => 16
  | .w32 => 32

/-! ## Float functions (R92 to R97) -/

def FTypeFmt : FType → FFmt
  | .fp32 => fp32
  | .bf16 => bf16

def FTypeBits : FType → Nat
  | .fp32 => 32
  | .bf16 => 16

/-- The bits of a float source. -/
def fbits (q : Core) (t : FType) (a : SPred) : Nat := (a.val q).toNat % 2 ^ FTypeBits t
def fval (q : Core) (t : FType) (a : SPred) : FVal := (FTypeFmt t).decode (fbits q t a)
/-- A float result, zero-extended. -/
def fres (t : FType) (v : FVal) : Word := BitVec.ofNat 64 ((FTypeFmt t).encode v)

/-- The value of an FCVT source: an integer, or a float (R96). -/
def cvtSource (t : CvtType) (x : Word) : FVal :=
  match t with
  | .fp32 => fp32.decode (x.toNat % 2 ^ 32)
  | .bf16 => bf16.decode (x.toNat % 2 ^ 16)
  | .i32 => FVal.ofInt (BitVec.ofNat 32 x.toNat).toInt 0
  | .i64 => FVal.ofInt x.toInt 0
  | .n32 => FVal.ofInt (x.toNat % 2 ^ 32 : Nat) 0
  | .n64 => FVal.ofInt (x.toNat : Nat) 0

/-- The FCVT result in a destination type (R96). -/
def cvtResult (t : CvtType) (v : FVal) : Word :=
  match t with
  | .fp32 => BitVec.ofNat 64 (fp32.encode v)
  | .bf16 => BitVec.ofNat 64 (bf16.encode v)
  | .i32 => BitVec.ofInt 64 (v.toIntSat (-(2 ^ 31)) (2 ^ 31 - 1))
  | .i64 => BitVec.ofInt 64 (v.toIntSat (-(2 ^ 63)) (2 ^ 63 - 1))
  | .n32 => BitVec.ofInt 64 (v.toIntSat 0 (2 ^ 32 - 1))
  | .n64 => BitVec.ofInt 64 (v.toIntSat 0 (2 ^ 64 - 1))

/-! ## Forms -/

/-- `MNEM sD, a, b`. -/
def runInt2 (i : Instr) (s : State) (d : SReg) (a b : Src) (f : Word → Word → Word) :
    Host.Outcome State Fault Refusal :=
  runCore i s fun q => q.ws d (f (a.val q) (b.val q))
/-- `MNEM sD, a`. -/
def runInt1 (i : Instr) (s : State) (d : SReg) (a : Src) (f : Word → Word) : Host.Outcome State Fault Refusal :=
  runCore i s fun q => q.ws d (f (a.val q))
/-- `MNEM pD, a, b` on bit 0 of two sources. -/
def runPred2 (i : Instr) (s : State) (d : PReg) (a b : PImm) (f : Bool → Bool → Bool) :
    Host.Outcome State Fault Refusal :=
  runCore i s fun q => q.wp d (f (a.bit q) (b.bit q))
/-- `MNEM.t sD, a, b` on floats. -/
def runFlt2 (i : Instr) (s : State) (d : SReg) (a b : SPred) (t : FType) (f : FVal → FVal → FVal) :
    Host.Outcome State Fault Refusal :=
  runCore i s fun q => q.ws d (fres t (f (fval q t a) (fval q t b)))

/-! ## Control transfers (R74 to R79) -/

/-- The target of an offset in words from the word at the leader's pc (R74). -/
def offTarget (q : Core) (off : BitVec 24) : Word := q.pc + 8 * off.signExtend 64

/-- Every member writes a register with the leader's value (R78). -/
def writeAll (ms : List CoreId) (d : SReg) (x : Word) (s : State) : State :=
  ms.foldl (fun s m => s.modCore m fun q => q.ws d x) s

def execNop (c : Ctl) (s : State) : Host.Outcome State Fault Refusal := runCore (.nop c) s fun q => q

def execBr (c : Ctl) (off : BitVec 24) (s : State) : Host.Outcome State Fault Refusal :=
  runLeaderWord (.br c off) s fun ms s => s.jump ms (offTarget (s.core (ms.headD 0)) off) kindNormal id

def execBrc (c : Ctl) (a : Src) (cond : CondZ) (off : BitVec 24) (s : State) : Host.Outcome State Fault Refusal :=
  runLeaderWord (.brc c a cond off) s fun ms s =>
    let q := s.core (ms.headD 0)
    if cond.holds (a.val q) then s.jump ms (offTarget q off) kindNormal id else .done s

def execBrx (c : Ctl) (a : SReg) (s : State) : Host.Outcome State Fault Refusal :=
  runLeaderWord (.brx c a) s fun ms s => s.jump ms ((s.core (ms.headD 0)).rs a) kindNormal id

def execCall (c : Ctl) (d : SReg) (off : BitVec 24) (s : State) : Host.Outcome State Fault Refusal :=
  runLeaderWord (.call c d off) s fun ms s =>
    let q := s.core (ms.headD 0)
    s.jump ms (offTarget q off) kindNormal (writeAll ms d q.fallthrough)

def execCallx (c : Ctl) (d a : SReg) (s : State) : Host.Outcome State Fault Refusal :=
  runLeaderWord (.callx c d a) s fun ms s =>
    let q := s.core (ms.headD 0)
    s.jump ms (q.rs a) kindNormal (writeAll ms d q.fallthrough)

def execRet (c : Ctl) (a : SReg) (s : State) : Host.Outcome State Fault Refusal :=
  runLeaderWord (.ret c a) s fun ms s => s.jump ms ((s.core (ms.headD 0)).rs a) kindNormal id

def execLoop (c : Ctl) (a : SReg) (off : BitVec 24) (s : State) : Host.Outcome State Fault Refusal :=
  runLeaderWord (.loop c a off) s fun ms s =>
    let q := s.core (ms.headD 0)
    let n := q.rs a
    if n = 0 then .done s
    else if n - 1 = 0 then .done (writeAll ms a 0 s)
    else s.jump ms (offTarget q off) kindLoop (writeAll ms a (n - 1))

/-- HALT (R80): every member stops behind the word; the record names the leader. -/
def execHalt (c : Ctl) (s : State) : Host.Outcome State Fault Refusal :=
  runLeaderWord (.halt c) s fun ms s =>
    let l := ms.headD 0
    let q := s.core l
    let s := ms.foldl (fun s m => s.modCore m fun q => { q.advance with debug := true }) s
    .jumped (match q.work with
      | some w => s.workEvent 4 l w 0 (s.ctxGen q) q.pc 0 0
      | none => s)

/-! ## Integer arithmetic and logic (R83 to R89) -/

def execAdd (c : Ctl) (d : SReg) (a b : Src) (s : State) : Host.Outcome State Fault Refusal :=
  runInt2 (.add c d a b) s d a b fun a b => a + b

def execSub (c : Ctl) (d : SReg) (a b : Src) (s : State) : Host.Outcome State Fault Refusal :=
  runInt2 (.sub c d a b) s d a b fun a b => a - b

def execMul (c : Ctl) (d : SReg) (a b : Src) (s : State) : Host.Outcome State Fault Refusal :=
  runInt2 (.mul c d a b) s d a b fun a b => a * b

def execMulh (c : Ctl) (d : SReg) (a b : Src) (s : State) : Host.Outcome State Fault Refusal :=
  runInt2 (.mulh c d a b) s d a b fun a b => mulHigh a b

def execMulhn (c : Ctl) (d : SReg) (a b : Src) (s : State) : Host.Outcome State Fault Refusal :=
  runInt2 (.mulhn c d a b) s d a b fun a b => mulHighN a b

def execDiv (c : Ctl) (d : SReg) (a b : Src) (s : State) : Host.Outcome State Fault Refusal :=
  runInt2 (.div c d a b) s d a b fun a b => divS a b

def execDivn (c : Ctl) (d : SReg) (a b : Src) (s : State) : Host.Outcome State Fault Refusal :=
  runInt2 (.divn c d a b) s d a b fun a b => divN a b

def execRem (c : Ctl) (d : SReg) (a b : Src) (s : State) : Host.Outcome State Fault Refusal :=
  runInt2 (.rem c d a b) s d a b fun a b => remS a b

def execRemn (c : Ctl) (d : SReg) (a b : Src) (s : State) : Host.Outcome State Fault Refusal :=
  runInt2 (.remn c d a b) s d a b fun a b => remN a b

def execMin (c : Ctl) (d : SReg) (a b : Src) (s : State) : Host.Outcome State Fault Refusal :=
  runInt2 (.min c d a b) s d a b fun a b => minS a b

def execMax (c : Ctl) (d : SReg) (a b : Src) (s : State) : Host.Outcome State Fault Refusal :=
  runInt2 (.max c d a b) s d a b fun a b => maxS a b

def execMinn (c : Ctl) (d : SReg) (a b : Src) (s : State) : Host.Outcome State Fault Refusal :=
  runInt2 (.minn c d a b) s d a b fun a b => minN a b

def execMaxn (c : Ctl) (d : SReg) (a b : Src) (s : State) : Host.Outcome State Fault Refusal :=
  runInt2 (.maxn c d a b) s d a b fun a b => maxN a b

def execAnd (c : Ctl) (d : SReg) (a b : Src) (s : State) : Host.Outcome State Fault Refusal :=
  runInt2 (.and c d a b) s d a b fun a b => a &&& b

def execOr (c : Ctl) (d : SReg) (a b : Src) (s : State) : Host.Outcome State Fault Refusal :=
  runInt2 (.or c d a b) s d a b fun a b => a ||| b

def execXor (c : Ctl) (d : SReg) (a b : Src) (s : State) : Host.Outcome State Fault Refusal :=
  runInt2 (.xor c d a b) s d a b fun a b => a ^^^ b

def execAndn (c : Ctl) (d : SReg) (a b : Src) (s : State) : Host.Outcome State Fault Refusal :=
  runInt2 (.andn c d a b) s d a b fun a b => a &&& ~~~b

def execOrn (c : Ctl) (d : SReg) (a b : Src) (s : State) : Host.Outcome State Fault Refusal :=
  runInt2 (.orn c d a b) s d a b fun a b => a ||| ~~~b

def execShl (c : Ctl) (d : SReg) (a b : Src) (s : State) : Host.Outcome State Fault Refusal :=
  runInt2 (.shl c d a b) s d a b fun a b => a <<< count6 b

def execShr (c : Ctl) (d : SReg) (a b : Src) (s : State) : Host.Outcome State Fault Refusal :=
  runInt2 (.shr c d a b) s d a b fun a b => a >>> count6 b

def execSar (c : Ctl) (d : SReg) (a b : Src) (s : State) : Host.Outcome State Fault Refusal :=
  runInt2 (.sar c d a b) s d a b fun a b => a.sshiftRight (count6 b)

def execRol (c : Ctl) (d : SReg) (a b : Src) (s : State) : Host.Outcome State Fault Refusal :=
  runInt2 (.rol c d a b) s d a b fun a b => a.rotateLeft (count6 b)

def execRor (c : Ctl) (d : SReg) (a b : Src) (s : State) : Host.Outcome State Fault Refusal :=
  runInt2 (.ror c d a b) s d a b fun a b => a.rotateRight (count6 b)

def execNeg (c : Ctl) (d : SReg) (a : Src) (s : State) : Host.Outcome State Fault Refusal :=
  runInt1 (.neg c d a) s d a fun a => 0 - a

def execAbs (c : Ctl) (d : SReg) (a : Src) (s : State) : Host.Outcome State Fault Refusal :=
  runInt1 (.abs c d a) s d a fun a => absW a

def execClz (c : Ctl) (d : SReg) (a : Src) (s : State) : Host.Outcome State Fault Refusal :=
  runInt1 (.clz c d a) s d a fun a => BitVec.ofNat 64 (clz a)

def execCtz (c : Ctl) (d : SReg) (a : Src) (s : State) : Host.Outcome State Fault Refusal :=
  runInt1 (.ctz c d a) s d a fun a => BitVec.ofNat 64 (ctz a)

def execPopc (c : Ctl) (d : SReg) (a : Src) (s : State) : Host.Outcome State Fault Refusal :=
  runInt1 (.popc c d a) s d a fun a => BitVec.ofNat 64 (popc a)

def execBrev (c : Ctl) (d : SReg) (a : Src) (s : State) : Host.Outcome State Fault Refusal :=
  runInt1 (.brev c d a) s d a fun a => brev a

def execMov (c : Ctl) (d : SReg) (a : Src) (s : State) : Host.Outcome State Fault Refusal :=
  runInt1 (.mov c d a) s d a fun a => a

def execBext (c : Ctl) (d : SReg) (a pos len : Src) (s : State) : Host.Outcome State Fault Refusal :=
  runCore (.bext c d a pos len) s fun q =>
    q.ws d ((a.val q >>> fieldPos (pos.val q)) &&& fieldMask (pos.val q) (len.val q))

def execBins (c : Ctl) (d : SReg) (a pos len : Src) (s : State) : Host.Outcome State Fault Refusal :=
  runCore (.bins c d a pos len) s fun q =>
    let p := fieldPos (pos.val q)
    let m := fieldMask (pos.val q) (len.val q)
    q.ws d ((q.rs d &&& ~~~(m <<< p)) ||| ((a.val q &&& m) <<< p))

def execSext (c : Ctl) (d : SReg) (a : Src) (w : ExtW) (s : State) : Host.Outcome State Fault Refusal :=
  runInt1 (.sext c d a w) s d a fun a => sext64 (ExtWbits w) a.toNat

def execZext (c : Ctl) (d : SReg) (a : Src) (w : ExtW) (s : State) : Host.Outcome State Fault Refusal :=
  runInt1 (.zext c d a w) s d a fun a => BitVec.ofNat 64 (a.toNat % 2 ^ ExtWbits w)

def execSel (c : Ctl) (d : SReg) (pc : PReg) (a b : Src) (s : State) : Host.Outcome State Fault Refusal :=
  runCore (.sel c d pc a b) s fun q => q.ws d (if q.rp pc then a.val q else b.val q)

/-- LIMM (R88); the decoder has refused a top part with nonzero bits [23:16]. -/
def execLimm (c : Ctl) (d : SReg) (part : LimmPart) (imm : BitVec 24) (s : State) : Host.Outcome State Fault Refusal :=
  runCore (.limm c d part imm) s fun q =>
    let old := q.rs d
    q.ws d (match part with
      | .lo => imm.signExtend 64
      | .mid => (old &&& ~~~(0xFFFFFF#64 <<< 24)) ||| (imm.setWidth 64 <<< 24)
      | .top => (old &&& ~~~(0xFFFF#64 <<< 48)) ||| ((imm.setWidth 16).setWidth 64 <<< 48))

def execAddr (c : Ctl) (d : SReg) (base index : Src) (sc : BitVec 3) (s : State) : Host.Outcome State Fault Refusal :=
  runCore (.addr c d base index sc) s fun q => q.ws d (base.val q + (index.val q <<< sc.toNat))

/-! ## Comparison and predicates (R90, R91) -/

def execCmp (c : Ctl) (d : PReg) (cond : Cond) (a b : Src) (s : State) : Host.Outcome State Fault Refusal :=
  runCore (.cmp c d cond a b) s fun q => q.wp d (cond.holds (a.val q) (b.val q))

def execPand (c : Ctl) (d : PReg) (a b : PImm) (s : State) : Host.Outcome State Fault Refusal :=
  runPred2 (.pand c d a b) s d a b fun x y => x && y

def execPor (c : Ctl) (d : PReg) (a b : PImm) (s : State) : Host.Outcome State Fault Refusal :=
  runPred2 (.por c d a b) s d a b fun x y => x || y

def execPxor (c : Ctl) (d : PReg) (a b : PImm) (s : State) : Host.Outcome State Fault Refusal :=
  runPred2 (.pxor c d a b) s d a b fun x y => xor x y

def execPnot (c : Ctl) (d : PReg) (a : PImm) (s : State) : Host.Outcome State Fault Refusal :=
  runCore (.pnot c d a) s fun q => q.wp d (!a.bit q)

def execPset (c : Ctl) (a m : SImm) (s : State) : Host.Outcome State Fault Refusal :=
  runCore (.pset c a m) s fun q =>
    let x : Byte := (a.val q).setWidth 8
    let k : Byte := (m.val q).setWidth 8 &&& 0xFE
    { q with p := (q.p &&& ~~~k) ||| (x &&& k) }

def execPget (c : Ctl) (d : SReg) (s : State) : Host.Outcome State Fault Refusal :=
  runCore (.pget c d) s fun q => q.ws d ((q.p &&& 0xFE).setWidth 64 ||| 1)

/-! ## Scalar floats (R92 to R97) -/

def execFadd (c : Ctl) (d : SReg) (a b : SPred) (t : FType) (s : State) : Host.Outcome State Fault Refusal :=
  runFlt2 (.fadd c d a b t) s d a b t FVal.add

def execFsub (c : Ctl) (d : SReg) (a b : SPred) (t : FType) (s : State) : Host.Outcome State Fault Refusal :=
  runFlt2 (.fsub c d a b t) s d a b t FVal.sub

def execFmul (c : Ctl) (d : SReg) (a b : SPred) (t : FType) (s : State) : Host.Outcome State Fault Refusal :=
  runFlt2 (.fmul c d a b t) s d a b t FVal.mul

def execFfma (c : Ctl) (d : SReg) (a b e : SPred) (t : FType) (s : State) : Host.Outcome State Fault Refusal :=
  runCore (.ffma c d a b e t) s fun q => q.ws d (fres t ((fval q t a).fma (fval q t b) (fval q t e)))

def execFmin (c : Ctl) (d : SReg) (a b : SPred) (t : FType) (s : State) : Host.Outcome State Fault Refusal :=
  runCore (.fmin c d a b t) s fun q =>
    q.ws d (BitVec.ofNat 64 ((FTypeFmt t).minMax false (fbits q t a) (fbits q t b)))

def execFmax (c : Ctl) (d : SReg) (a b : SPred) (t : FType) (s : State) : Host.Outcome State Fault Refusal :=
  runCore (.fmax c d a b t) s fun q =>
    q.ws d (BitVec.ofNat 64 ((FTypeFmt t).minMax true (fbits q t a) (fbits q t b)))

def execFabs (c : Ctl) (d : SReg) (a : SPred) (t : FType) (s : State) : Host.Outcome State Fault Refusal :=
  runCore (.fabs c d a t) s fun q => q.ws d (BitVec.ofNat 64 (fbits q t a % (FTypeFmt t).signBit))

def execFneg (c : Ctl) (d : SReg) (a : SPred) (t : FType) (s : State) : Host.Outcome State Fault Refusal :=
  runCore (.fneg c d a t) s fun q =>
    q.ws d (BitVec.ofNat 64 (fbits q t a) ^^^ BitVec.ofNat 64 (FTypeFmt t).signBit)

def execFcmp (c : Ctl) (d : PReg) (cond : FCond) (a b : SPred) (t : FType) (s : State) :
    Host.Outcome State Fault Refusal :=
  runCore (.fcmp c d cond a b t) s fun q => q.wp d (cond.holds ((fval q t a).cmp (fval q t b)))

def execFcvt (c : Ctl) (d : SReg) (a : Src) (dst src : CvtType) (s : State) : Host.Outcome State Fault Refusal :=
  runCore (.fcvt c d a dst src) s fun q => q.ws d (cvtResult dst (cvtSource src (a.val q)))

def execFrnd (c : Ctl) (d : SReg) (a : SPred) (mode : Rnd) (t : FType) (s : State) :
    Host.Outcome State Fault Refusal :=
  runCore (.frnd c d a mode t) s fun q => q.ws d (fres t ((fval q t a).round mode))

end Sys2Proof.Machine
end

