-- ==== Sys2Proof/Machine/Vector.lean ====
section
/-! DEFINITION. The vector unit (05_vector_instructions R129 to R152), but VPMRG. -/
namespace Sys2Proof.Machine
open Sys2Proof

/-! ## Element functions -/

def vfmt (t : VType) : FFmt := if t == .bf16 then bf16 else fp32

/-- A value of a float element, flushed (R132). -/
def velemF (t : VType) (x : Nat) : FVal := (vfmt t).decodeV x
/-- A float result, rounded and flushed. -/
def vresF (t : VType) (v : FVal) : Nat := (vfmt t).encodeV v

def vminI (t : VType) (a b : Nat) : Nat := if t.int b < t.int a then b else a
def vmaxI (t : VType) (a b : Nat) : Nat := if t.int a < t.int b then b else a

/-- FMIN and FMAX on flushed elements (R94, R138). -/
def vminMaxF (t : VType) (isMax : Bool) (a b : Nat) : Nat :=
  (vfmt t).minMax isMax ((vfmt t).flush a) ((vfmt t).flush b)

/-- Conversion of one element (R143): between integer types it saturates, which a type that holds every value of the source
makes exact. -/
def vconv (dst src : VType) (x : Nat) : Nat :=
  if src.isFloat then
    if dst.isFloat then vresF dst (velemF src x)
    else dst.ofInt ((velemF src x).toIntSat dst.minInt dst.maxInt)
  else if dst.isFloat then vresF dst (FVal.ofInt (src.int x) 0)
  else dst.sat (src.int x)

/-! ## Forms (R130, R131) -/

/-- Element-wise, from one register. -/
def runVec1 (i : Instr) (s : State) (d a : VReg) (k : KOpt) (t : VType) (f : Nat → Nat) :
    Host.Outcome State Fault Refusal :=
  runCore i s fun q => q.merge d k t.width fun e => f (elem t.width (q.rv a) e)

/-- Element-wise, from a register and source b. -/
def runVec2 (i : Instr) (s : State) (d a : VReg) (b : VSrc) (k : KOpt) (t : VType) (f : Nat → Nat → Nat) :
    Host.Outcome State Fault Refusal :=
  runCore i s fun q => q.merge d k t.width fun e => f (elem t.width (q.rv a) e) (b.elemAt q t.width e)

/-- Every element of the destination, from element numbers. -/
def runVecAll (i : Instr) (s : State) (d : VReg) (t : VType) (f : Core → Nat → Nat) :
    Host.Outcome State Fault Refusal :=
  runCore i s fun q => q.merge d none t.width fun e => f q e

/-- A mask written by a comparison: the byte lanes of each enabled element take its result (R136). -/
def Core.mergeMask (q : Core) (d : KReg) (k : KOpt) (w : Nat) (f : Nat → Bool) : Core :=
  let old := q.rk d
  q.wk d (BitVec.ofNat 256 (ofElems 1 ((List.range 256).map fun i =>
    let e := i / (w / 8)
    if (if decide (i < q.vbits / 8) && q.enabled k w e then f e else old.getLsbD i) then 1 else 0)))

/-- Replaces elements first, first + 1, … of width `w` of a destination; the other bits are kept. -/
def Core.place1 (q : Core) (d : VReg) (w first : Nat) (xs : List Nat) : Core :=
  q.merge d none w fun e => if first ≤ e && e < first + xs.length then xs.getD (e - first) 0 else elem w (q.rv d) e

/-! ## VMODE (R133, R134, R212) -/

def shareOf : VShare → Nat
  | .short => 0
  | .n4 => 4
  | .n8 => 8
  | .n12 => 12
  | .n16 => 16

/-- A new share is cleared, with the masks; leaving long mode keeps the masks. -/
def Core.setShare (q : Core) (n : Nat) : Core :=
  if n = q.share then q
  else if n = 0 then { q with share := 0, l := [] }
  else { q with share := n, l := [], k := [] }

def execVmode (c : Ctl) (share : VShare) (s : State) : Host.Outcome State Fault Refusal :=
  runWord (.vmode c share) s fun m s =>
    if (s.core m).grants.lregs < shareOf share then .trap .illegalOp (illegalInfo ⟨0x05, 1⟩)
    else .done (s.modCore m fun q => q.setShare (shareOf share))

/-! ## Integer and bitwise operations (R135) -/

def execVadd (c : Ctl) (d a : VReg) (b : VSrc) (k : KOpt) (t : VType) (s : State) :
    Host.Outcome State Fault Refusal :=
  runVec2 (.vadd c d a b k t) s d a b k t fun x y => x + y

def execVsub (c : Ctl) (d a : VReg) (b : VSrc) (k : KOpt) (t : VType) (s : State) :
    Host.Outcome State Fault Refusal :=
  runVec2 (.vsub c d a b k t) s d a b k t fun x y => t.ofInt (t.int x - t.int y)

def execVadds (c : Ctl) (d a : VReg) (b : VSrc) (k : KOpt) (t : VType) (s : State) :
    Host.Outcome State Fault Refusal :=
  runVec2 (.vadds c d a b k t) s d a b k t fun x y => t.sat (t.int x + t.int y)

def execVsubs (c : Ctl) (d a : VReg) (b : VSrc) (k : KOpt) (t : VType) (s : State) :
    Host.Outcome State Fault Refusal :=
  runVec2 (.vsubs c d a b k t) s d a b k t fun x y => t.sat (t.int x - t.int y)

def execVmul (c : Ctl) (d a : VReg) (b : VSrc) (k : KOpt) (t : VType) (s : State) :
    Host.Outcome State Fault Refusal :=
  runVec2 (.vmul c d a b k t) s d a b k t fun x y => x * y

def execVmulh (c : Ctl) (d a : VReg) (b : VSrc) (k : KOpt) (t : VType) (s : State) :
    Host.Outcome State Fault Refusal :=
  runVec2 (.vmulh c d a b k t) s d a b k t fun x y => t.ofInt (t.int x * t.int y / 2 ^ t.width)

def execVmin (c : Ctl) (d a : VReg) (b : VSrc) (k : KOpt) (t : VType) (s : State) :
    Host.Outcome State Fault Refusal :=
  runVec2 (.vmin c d a b k t) s d a b k t fun x y => vminI t x y

def execVmax (c : Ctl) (d a : VReg) (b : VSrc) (k : KOpt) (t : VType) (s : State) :
    Host.Outcome State Fault Refusal :=
  runVec2 (.vmax c d a b k t) s d a b k t fun x y => vmaxI t x y

def execVand (c : Ctl) (d a : VReg) (b : VSrc) (k : KOpt) (t : VType) (s : State) :
    Host.Outcome State Fault Refusal :=
  runVec2 (.vand c d a b k t) s d a b k t fun x y => x &&& y

def execVor (c : Ctl) (d a : VReg) (b : VSrc) (k : KOpt) (t : VType) (s : State) :
    Host.Outcome State Fault Refusal :=
  runVec2 (.vor c d a b k t) s d a b k t fun x y => x ||| y

def execVxor (c : Ctl) (d a : VReg) (b : VSrc) (k : KOpt) (t : VType) (s : State) :
    Host.Outcome State Fault Refusal :=
  runVec2 (.vxor c d a b k t) s d a b k t fun x y => x ^^^ y

def execVshl (c : Ctl) (d a : VReg) (b : VSrc) (k : KOpt) (t : VType) (s : State) :
    Host.Outcome State Fault Refusal :=
  runVec2 (.vshl c d a b k t) s d a b k t fun x y => x * 2 ^ (y % t.width)

def execVshr (c : Ctl) (d a : VReg) (b : VSrc) (k : KOpt) (t : VType) (s : State) :
    Host.Outcome State Fault Refusal :=
  runVec2 (.vshr c d a b k t) s d a b k t fun x y => x / 2 ^ (y % t.width)

def execVsar (c : Ctl) (d a : VReg) (b : VSrc) (k : KOpt) (t : VType) (s : State) :
    Host.Outcome State Fault Refusal :=
  runVec2 (.vsar c d a b k t) s d a b k t fun x y => t.ofInt ((BitVec.ofNat t.width x).toInt / 2 ^ (y % t.width))

def execVabs (c : Ctl) (d a : VReg) (k : KOpt) (t : VType) (s : State) : Host.Outcome State Fault Refusal :=
  runVec1 (.vabs c d a k t) s d a k t fun x => t.ofInt (t.int x).natAbs

def execVmov (c : Ctl) (d : VReg) (b : VSrc) (k : KOpt) (t : VType) (s : State) : Host.Outcome State Fault Refusal :=
  runCore (.vmov c d b k t) s fun q => q.merge d k t.width fun e => b.elemAt q t.width e

/-! ## Comparison, selection and element moves (R136, R137) -/

/-- LG6 is compared as N8. -/
def execVcmp (c : Ctl) (d : KReg) (a : VReg) (b : VSrc) (k : KOpt) (cond : VCond) (t : VType) (s : State) :
    Host.Outcome State Fault Refusal :=
  runCore (.vcmp c d a b k cond t) s fun q => q.mergeMask d k t.width fun e =>
    cond.holds (t.int (elem t.width (q.rv a) e)) (t.int (b.elemAt q t.width e))

def execVsel (c : Ctl) (d a : VReg) (b : VSrc) (k : KReg) (t : VType) (s : State) :
    Host.Outcome State Fault Refusal :=
  runVecAll (.vsel c d a b k t) s d t fun q e =>
    if q.maskBit k (e * t.width / 8) then elem t.width (q.rv a) e else b.elemAt q t.width e

/-- An index modulo Count(t). -/
def Core.vindex (q : Core) (idx : SImm) (t : VType) : Nat := (idx.val q).toNat % q.count t.width

def execVbc (c : Ctl) (d a : VReg) (idx : SImm) (k : KOpt) (t : VType) (s : State) :
    Host.Outcome State Fault Refusal :=
  runCore (.vbc c d a idx k t) s fun q =>
    q.merge d k t.width fun _ => elem t.width (q.rv a) (q.vindex idx t)

def execVext (c : Ctl) (d : SReg) (a : VReg) (idx : SImm) (t : VType) (s : State) :
    Host.Outcome State Fault Refusal :=
  runCore (.vext c d a idx t) s fun q => q.ws d (t.extend (elem t.width (q.rv a) (q.vindex idx t)))

def execVins (c : Ctl) (d : VReg) (a idx : SImm) (t : VType) (s : State) : Host.Outcome State Fault Refusal :=
  runCore (.vins c d a idx t) s fun q =>
    q.place1 d t.width (q.vindex idx t) [(a.val q).toNat % 2 ^ t.width]

/-! ## Floats and special functions (R138, R139) -/

def execVfadd (c : Ctl) (d a : VReg) (b : VSrc) (k : KOpt) (t : VType) (s : State) :
    Host.Outcome State Fault Refusal :=
  runVec2 (.vfadd c d a b k t) s d a b k t fun x y => vresF t ((velemF t x).add (velemF t y))

def execVfsub (c : Ctl) (d a : VReg) (b : VSrc) (k : KOpt) (t : VType) (s : State) :
    Host.Outcome State Fault Refusal :=
  runVec2 (.vfsub c d a b k t) s d a b k t fun x y => vresF t ((velemF t x).sub (velemF t y))

def execVfmul (c : Ctl) (d a : VReg) (b : VSrc) (k : KOpt) (t : VType) (s : State) :
    Host.Outcome State Fault Refusal :=
  runVec2 (.vfmul c d a b k t) s d a b k t fun x y => vresF t ((velemF t x).mul (velemF t y))

def execVfmin (c : Ctl) (d a : VReg) (b : VSrc) (k : KOpt) (t : VType) (s : State) :
    Host.Outcome State Fault Refusal :=
  runVec2 (.vfmin c d a b k t) s d a b k t fun x y => vminMaxF t false x y

def execVfmax (c : Ctl) (d a : VReg) (b : VSrc) (k : KOpt) (t : VType) (s : State) :
    Host.Outcome State Fault Refusal :=
  runVec2 (.vfmax c d a b k t) s d a b k t fun x y => vminMaxF t true x y

def execVffma (c : Ctl) (d a : VReg) (b : VSrc) (k : KOpt) (t : VType) (s : State) :
    Host.Outcome State Fault Refusal :=
  runCore (.vffma c d a b k t) s fun q => q.merge d k t.width fun e =>
    vresF t ((velemF t (elem t.width (q.rv a) e)).fma (velemF t (b.elemAt q t.width e))
      (velemF t (elem t.width (q.rv d) e)))

def execVfcmp (c : Ctl) (d : KReg) (a : VReg) (b : VSrc) (k : KOpt) (cond : FCond) (t : VType) (s : State) :
    Host.Outcome State Fault Refusal :=
  runCore (.vfcmp c d a b k cond t) s fun q => q.mergeMask d k t.width fun e =>
    cond.holds ((velemF t (elem t.width (q.rv a) e)).cmp (velemF t (b.elemAt q t.width e)))

def execVexp2 (c : Ctl) (d a : VReg) (k : KOpt) (t : VType) (s : State) : Host.Outcome State Fault Refusal :=
  runVec1 (.vexp2 c d a k t) s d a k t (specialElem exp2F t)

def execVlog2 (c : Ctl) (d a : VReg) (k : KOpt) (t : VType) (s : State) : Host.Outcome State Fault Refusal :=
  runVec1 (.vlog2 c d a k t) s d a k t (specialElem log2F t)

def execVrcp (c : Ctl) (d a : VReg) (k : KOpt) (t : VType) (s : State) : Host.Outcome State Fault Refusal :=
  runVec1 (.vrcp c d a k t) s d a k t (specialElem recip t)

def execVrsq (c : Ctl) (d a : VReg) (k : KOpt) (t : VType) (s : State) : Host.Outcome State Fault Refusal :=
  runVec1 (.vrsq c d a k t) s d a k t (specialElem recipSqrt t)

def execVtanh (c : Ctl) (d a : VReg) (k : KOpt) (t : VType) (s : State) : Host.Outcome State Fault Refusal :=
  runVec1 (.vtanh c d a k t) s d a k t (specialElem tanhF t)

def execVlut (c : Ctl) (d a tab : VReg) (k : KOpt) (t : VType) (s : State) : Host.Outcome State Fault Refusal :=
  runCore (.vlut c d a tab k t) s fun q => q.merge d k t.width fun e =>
    elem t.width (q.rv tab) (elem t.width (q.rv a) e % q.count t.width)

/-! ## Reductions (R141) -/

/-- The elements of a register; a disabled one reads as `off`. -/
def Core.elemsOr (q : Core) (a : VReg) (k : KOpt) (w off : Nat) : List Nat :=
  (List.range (q.count w)).map fun e => if q.enabled k w e then elem w (q.rv a) e else off

/-- The fixed pairwise tree over a register's elements (R37). -/
def treeOf (f : Nat → Nat → Nat) (l : List Nat) : Nat := (treeFold f 10 l).headD 0

def execVrsum (c : Ctl) (d : SReg) (a : VReg) (k : KOpt) (t : VType) (s : State) :
    Host.Outcome State Fault Refusal :=
  runCore (.vrsum c d a k t) s fun q =>
    if t.isFloat then
      let widen := fun (x : Nat) => if t == .bf16 then bf16.flush x * 65536 else fp32.flush x
      let minusZero := if t == .bf16 then bf16.signBit else fp32.signBit
      q.ws d (BitVec.ofNat 64 (treeOf addF ((q.elemsOr a k t.width minusZero).map widen)))
    else q.ws d (BitVec.ofInt 64 (((q.elemsOr a k t.width 0).map t.int).sum))

/-- VRMAX and VRMIN: an integer or a float order, with the identity of disabled elements. -/
def Core.reduceMax (q : Core) (isMax : Bool) (a : VReg) (k : KOpt) (t : VType) : Word :=
  if t.isFloat then
    let off := (vfmt t).infBits + if isMax then (vfmt t).signBit else 0
    BitVec.ofNat 64 (treeOf (vminMaxF t isMax) (q.elemsOr a k t.width off))
  else
    let off := t.ofInt (if isMax then t.minInt else t.maxInt)
    t.extend (treeOf (if isMax then vmaxI t else vminI t) (q.elemsOr a k t.width off))

def execVrmax (c : Ctl) (d : SReg) (a : VReg) (k : KOpt) (t : VType) (s : State) :
    Host.Outcome State Fault Refusal :=
  runCore (.vrmax c d a k t) s fun q => q.ws d (q.reduceMax true a k t)

def execVrmin (c : Ctl) (d : SReg) (a : VReg) (k : KOpt) (t : VType) (s : State) :
    Host.Outcome State Fault Refusal :=
  runCore (.vrmin c d a k t) s fun q => q.ws d (q.reduceMax false a k t)

/-! ## Permutations (R142) -/

/-- Element i of VA followed by VB. -/
def Core.pairElem (q : Core) (a b : VReg) (w i : Nat) : Nat :=
  if i < q.count w then elem w (q.rv a) i else elem w (q.rv b) (i - q.count w)

def execVperm (c : Ctl) (d a idx : VReg) (k : KOpt) (t : VType) (s : State) : Host.Outcome State Fault Refusal :=
  runCore (.vperm c d a idx k t) s fun q => q.merge d k t.width fun e =>
    elem t.width (q.rv a) (elem t.width (q.rv idx) e % q.count t.width)

def execVshuf (c : Ctl) (d a b idx : VReg) (t : VType) (s : State) : Host.Outcome State Fault Refusal :=
  runVecAll (.vshuf c d a b idx t) s d t fun q e =>
    q.pairElem a b t.width (elem t.width (q.rv idx) e % (2 * q.count t.width))

def execVslide (c : Ctl) (d a b : VReg) (n : SImm) (t : VType) (s : State) : Host.Outcome State Fault Refusal :=
  runVecAll (.vslide c d a b n t) s d t fun q e =>
    let n := (n.val q).toNat
    if e + n < 2 * q.count t.width then q.pairElem a b t.width (e + n) else 0

def execVzip (c : Ctl) (d a b : VReg) (half : Half) (t : VType) (s : State) : Host.Outcome State Fault Refusal :=
  runVecAll (.vzip c d a b half t) s d t fun q e =>
    let h := if half == .hi then q.count t.width / 2 else 0
    elem t.width (q.rv (if e % 2 = 0 then a else b)) (h + e / 2)

def execVuzp (c : Ctl) (d a b : VReg) (half : Half) (t : VType) (s : State) : Host.Outcome State Fault Refusal :=
  runVecAll (.vuzp c d a b half t) s d t fun q e =>
    q.pairElem a b t.width (2 * e + if half == .hi then 1 else 0)

/-! ## Conversions (R143 to R147) -/

def execVcvt (c : Ctl) (d a : VReg) (k : KOpt) (part : BitVec 3) (dst src : VType) (s : State) :
    Host.Outcome State Fault Refusal :=
  runCore (.vcvt c d a k part dst src) s fun q =>
    q.merge d k dst.width fun e =>
      if src.width < dst.width then
        vconv dst src (elem src.width (q.rv a) (part.toNat * q.count dst.width + e))
      else
        let first := part.toNat * q.count src.width
        if first ≤ e && e < first + q.count src.width then vconv dst src (elem src.width (q.rv a) (e - first))
        else elem dst.width (q.rv d) e

/-- Blocks of a given length, in order. -/
def chunks {α : Type} (n : Nat) : Nat → List α → List (List α)
  | 0, _ => []
  | fuel + 1, l => if l.isEmpty then [] else l.take n :: chunks n fuel (l.drop n)

/-- Quantisation in blocks (R144): `scale` derives a block's scale, `quant` one element. Writes vD, and sE unless the
scale is given. -/
def Core.quantise (q : Core) (d a : VReg) (e : SReg) (part : Nat) (mode : QMode) (src : VType) (db : Nat)
    (scale : List FVal → Nat) (quant : Nat → FVal → Nat) : Core :=
  let n := q.count src.width
  let vals := (List.range n).map fun i => velemF src (elem src.width (q.rv a) i)
  let blocks := chunks (if mode == .b32 then 32 else n) n vals
  let given := (q.rs e).toNat % 256
  let scaled := blocks.map fun b => ((if mode == .given then given else scale b), b)
  let out := scaled.flatMap fun (x, b) => if x = 255 || blockBad b then b.map fun _ => 0 else b.map (quant x)
  let q := q.place1 d db (part * n) out
  if mode == .given then q else q.ws e (BitVec.ofNat 64 (ofElems 8 (scaled.map (·.1))))

def execVqmx (c : Ctl) (d a : VReg) (e : SReg) (part : BitVec 4) (mode : QMode) (fmt : QFmt) (src : VType) (s : State) :
    Host.Outcome State Fault Refusal :=
  runCore (.vqmx c d a e part mode fmt src) s fun q =>
    q.quantise d a e part.toNat mode src fmt.bits (blockScale 127) fun x v =>
      (BitVec.ofInt fmt.bits (match fmt with
        | .m8 => mxQuant 6 127 x v
        | .m4 => mxQuant 2 7 x v)).toNat

def execVtolg (c : Ctl) (d a : VReg) (e : SReg) (part : BitVec 4) (mode : QMode) (src : VType) (s : State) :
    Host.Outcome State Fault Refusal :=
  runCore (.vtolg c d a e part mode src) s fun q =>
    q.quantise d a e part.toNat mode src 8 (blockScale 125) lgQuant

def execVfrlg (c : Ctl) (d a : VReg) (e : SReg) (part : BitVec 2) (t : VType) (s : State) :
    Host.Outcome State Fault Refusal :=
  runVecAll (.vfrlg c d a e part t) s d t fun q k =>
    vresF t (lgValue ((q.rs e).toNat % 256) (elem 8 (q.rv a) (part.toNat * q.count t.width + k)))

/-- The trit of an element against a threshold (R146). -/
def ternOf (t : VType) (thr : Word) (x : Nat) : Int :=
  if t.isFloat then
    let d := fp32.decodeV (thr.toNat % 2 ^ 32)
    let v := velemF t x
    if v.cmp d == some .gt then 1 else if v.cmp d.neg == some .lt then -1 else 0
  else if thr.toInt < t.int x then 1 else if t.int x < -thr.toInt then -1 else 0

/-- A trit as an I8 lane. -/
def tritByte (x : Int) : Nat := (BitVec.ofInt 8 x).toNat

def execVtern (c : Ctl) (d a : VReg) (thr : SImm) (part : BitVec 3) (t : VType) (s : State) :
    Host.Outcome State Fault Refusal :=
  runCore (.vtern c d a thr part t) s fun q =>
    let n := q.count t.width
    q.place1 d 8 (part.toNat * n) ((List.range n).map fun e => tritByte (ternOf t (thr.val q) (elem t.width (q.rv a) e)))

/-- Trits of a register under VPK5, and packed bytes that VPK5 writes and VUPK5 reads (R147). -/
def packTrits (fmt : PkFmt) (long : Bool) : Nat := match fmt with
  | .t5 => if long then 255 else 30
  | .t2 => if long then 256 else 32

/-- T2 codes, four to a byte. -/
def t2Pack (ts : List Int) : List Byte := (chunks 4 64 ts).map fun g => BitVec.ofNat 8 (ofElems 2 (g.map t2Encode))

def execVpk5 (c : Ctl) (d a : VReg) (o : SImm) (fmt : PkFmt) (s : State) : Host.Outcome State Fault Refusal :=
  runCore (.vpk5 c d a o fmt) s fun q =>
    let trits := (List.range (packTrits fmt q.long)).map fun i => (BitVec.ofNat 8 (elem 8 (q.rv a) i)).toInt.sign
    let bytes := match fmt with
      | .t5 => t5Pack ((trits.length + 4) / 5) trits
      | .t2 => t2Pack trits
    q.place1 d 8 (o.val q).toNat (bytes.map (·.toNat))

def execVupk5 (c : Ctl) (d a : VReg) (o : SImm) (fmt : PkFmt) (s : State) : Host.Outcome State Fault Refusal :=
  runCore (.vupk5 c d a o fmt) s fun q =>
    let n := q.vbits / 8
    let o := (o.val q).toNat
    let byte := fun (j : Nat) => if o + j < n then BitVec.ofNat 8 (elem 8 (q.rv a) (o + j)) else 0
    let (trits, bad) := match fmt with
      | .t5 => t5Run n ((List.range ((n + 4) / 5)).map byte)
      | .t2 => t2Run n ((List.range (n / 4)).map byte)
    (q.place1 d 8 0 (trits.map tritByte)).countEvent 0x0020 bad

/-! ## Structured sparsity (R148, R149) -/

def groupOf : Pattern → Group
  | .p24 => group24
  | .p48 => group48

/-- Magnitude of an element: |x| for I8, the L field for LG6. -/
def compMag (t : VType) (x : Nat) : Nat := if t == .lg6 then lgL x else (BitVec.ofNat 8 x).toInt.natAbs

/-- Ascending positions of the K largest magnitudes of a group, the lower index first among equals. -/
def keepPos (keep : Nat) (ms : List Nat) : List Nat :=
  (List.range ms.length).filter fun i =>
    decide (((List.range ms.length).filter fun j =>
      decide (ms.getD i 0 < ms.getD j 0) || (ms.getD j 0 == ms.getD i 0 && decide (j < i))).length < keep)

/-- The elements of group `g` of a register. -/
def groupElems (gr : Group) (x g : Nat) : List Nat := (List.range gr.width).map fun i => elem 8 x (gr.width * g + i)

/-- VCOMP (R149). Where R18 and R25 say otherwise, its own rule is followed (DESIGN CHOICE, log 51): the metadata of a group
of zeros names its first positions, distinct, and an LG6 byte is copied with its bits [7:6]. -/
def execVcomp (c : Ctl) (d m a : VReg) (part : BitVec 1) (pat : Pattern) (t : VType) (s : State) :
    Host.Outcome State Fault Refusal :=
  runCore (.vcomp c d m a part pat t) s fun q =>
    let gr := groupOf pat
    let n := q.vbits / 8
    let groups := (List.range (n / gr.width)).map fun g =>
      let xs := groupElems gr (q.rv a) g
      (keepPos gr.keep (xs.map (compMag t)), xs)
    let vals := groups.flatMap fun (ps, xs) => ps.map fun p => xs.getD p 0
    let metas := groups.map fun (ps, _) => ofElems gr.bits ps
    let first := part.toNat * (n / 2)
    let firstM := part.toNat * (n / gr.width)
    let q1 := q.place1 d 8 first vals
    q1.wv m (((q1.rv m) - (q1.rv m) / 2 ^ (gr.metaBits * firstM) % 2 ^ (gr.metaBits * metas.length) * 2 ^ (gr.metaBits * firstM))
      + ofElems gr.metaBits metas * 2 ^ (gr.metaBits * firstM))

/-- VEXPD (R149); an LG6 byte is copied with its bits [7:6] (DESIGN CHOICE, log 51). -/
def execVexpd (c : Ctl) (d m a : VReg) (part : BitVec 1) (pat : Pattern) (t : VType) (s : State) :
    Host.Outcome State Fault Refusal :=
  runCore (.vexpd c d m a part pat t) s fun q =>
    let gr := groupOf pat
    let n := q.vbits / 8
    let first := part.toNat * (n / 2)
    let firstM := part.toNat * (n / gr.width)
    let groups := (List.range (n / gr.width)).map fun g =>
      let (ps, bad) := sparseIndex gr (elem gr.metaBits (q.rv m) (firstM + g))
      (ps.map fun p => match p with
        | some k => elem 8 (q.rv a) (first + gr.keep * g + k)
        | none => 0, bad)
    (q.place1 d 8 0 (groups.flatMap (·.1))).countEvent 0x0020 (groups.filter (·.2)).length

/-! ## Mask instructions (R152) -/

def execKand (c : Ctl) (d a b : KReg) (s : State) : Host.Outcome State Fault Refusal :=
  runCore (.kand c d a b) s fun q => q.wk d (q.rk a &&& q.rk b)

def execKor (c : Ctl) (d a b : KReg) (s : State) : Host.Outcome State Fault Refusal :=
  runCore (.kor c d a b) s fun q => q.wk d (q.rk a ||| q.rk b)

def execKnot (c : Ctl) (d a : KReg) (s : State) : Host.Outcome State Fault Refusal :=
  runCore (.knot c d a) s fun q => q.wk d (~~~ q.rk a)

/-- Bits of a mask that count: L (R152). -/
def Core.maskLen (q : Core) : Nat := if q.long then 256 else 32

def execKpop (c : Ctl) (d : SReg) (a : KReg) (s : State) : Host.Outcome State Fault Refusal :=
  runCore (.kpop c d a) s fun q =>
    q.ws d (BitVec.ofNat 64 ((List.range q.maskLen).countP fun i => (q.rk a).getLsbD i))

def execKfirst (c : Ctl) (d : SReg) (a : KReg) (s : State) : Host.Outcome State Fault Refusal :=
  runCore (.kfirst c d a) s fun q =>
    q.ws d (BitVec.ofNat 64 (((List.range q.maskLen).find? fun i => (q.rk a).getLsbD i).getD q.maskLen))

end Sys2Proof.Machine
end

