-- ==== Sys2Proof/Machine/Matrix.lean ====
section
/-! DEFINITION. Matrix instructions and the engine order of a cluster (06_matrix_stream R158 to R169, 16_matrix_engine
R328 to R344). -/
namespace Sys2Proof.Machine
open Sys2Proof

/-! ## Issue -/

/-- Issues an engine operation behind the fences that order it: numbered, with its tag in sT (R154, R110). -/
def State.issueOp (s : State) (c : CoreId) (t : Timeline) (d : SReg) (kind : OpKind) (after : State → Nat → State) : Res :=
  match s.fenceGate c clsEi with
  | none => .wait
  | some s =>
    let (s, n) := s.engIssue c t kind
    .done ((after s n).modCore c fun q => q.ws d (tagOf t n))

def execMcfg (c : Ctl) (dr : BitVec 2) (b : SReg) (disp : BitVec 16) (s : State) : Host.Outcome State Fault Refusal :=
  runWord (.mcfg c dr b disp) s fun m s =>
    s.loadData m (effAddr (s.core m) b disp) 64 64 fun s bytes =>
      match mcfgFail bytes with
      | some (off, sub) => badDesc off sub
      | none => .done (s.modCore m fun q => { q with dr := q.dr.set dr.toNat bytes })

/-- Part j of a cluster's permutation table; an unlisted entry names itself (log 21). -/
def Cluster.permPart (x : Cluster) (j : Nat) : List Nat :=
  (List.range 512).map fun k => (x.perm.get (512 * j + k) (BitVec.ofNat 9 k)).toNat

/-- Registers a sparse A's metadata may be taken from: the last of the mode, exclusive. -/
def Core.metaEnd (q : Core) : Nat := if q.long then q.share else 32

/-- The checks of R162 on the copy of a descriptor. Subcodes 9 and 11 are of a taking-part core, 10 of every core, and
subcode 13 names the byte of CHN (DESIGN CHOICE, log 83). -/
def State.matrixFail (s : State) (c : CoreId) (gang : Bool) (d : List Byte) : Option Res :=
  let q := s.core c
  let j := inCluster c
  let takes := takesPart gang d j j
  let x := q.handle (mdHandle d)
  let span := mdSteps d * mdN d
  match mcfgFail d with
  | some (off, sub) => some (badDesc off sub)
  | none =>
    if takes && x.st == .unbound then some (.trap .handleUnbound ((mdHandle d).setWidth 64))
    else if takes && x.st == .update then some (.trap .handleState 3)
    else if takes && x.bytes < slotNeed d then some (badDesc 9 9)
    else if sparseA (mdA d) != 0 && (mdMcnt d * q.vbits < mdSteps d * mdM d * metaRow (mdA d) (mdKS d)
        || q.metaEnd < mdMreg d + mdMcnt d) then some (badDesc 10 10)
    else if takes && mdPerm d && (((s.cluster (clusterOf c)).permPart j).take (mdKS d)).any (mdKS d ≤ ·) then
      some (badDesc 7 11)
    else if 2 ^ 26 < mdW d + (mdSteps d - 1) * mdWStep d + mdN d * colBytes (mdB d) (mdKS d) then some (badDesc 12 12)
    else if mdGsOn d && 2 ^ 26 < mdGs d + span then some (badDesc 20 12)
    else if fmtScaled (mdB d) && 2 ^ 26 < mdBs d + span then some (badDesc 24 12)
    else if gang && mdMask d = 0 then some (badDesc 8 13)
    else if gang && mdChn d != 0 && !(mdList d).contains (clusterOf c) then some (badDesc 32 13)
    else if !gang && mdChn d != 0 then some (badDesc 32 13)
    else none

/-- The metadata registers of a sparse A, as bytes (R160). -/
def Core.metaBytes (q : Core) (d : List Byte) : List Byte :=
  if sparseA (mdA d) = 0 then []
  else (List.range (mdMcnt d)).flatMap fun i => leBytes (q.vbits / 8) (q.rv (BitVec.ofNat 5 (mdMreg d + i)))

/-- Claims the consumer slots of an operation at issue: the first position (R163). -/
def Core.claimSlots (q : Core) (h : HReg) (n : Nat) : Core × Nat :=
  let x := q.handle h
  (q.setHandle h { x with d := x.d + n }, x.d)

/-- An operation enters the engine order of its cluster (R329). -/
def State.arriveMx (s : State) (cl : Nat) (op : MxOp) : State :=
  s.modCluster cl fun x =>
    let x := { x with order := x.order ++ [op] }
    let last := fun (t id : Nat) => { x with acc := x.acc.set t { x.acc.get t {} with last := id, steps := 0 } }
    match op.kind with
    | .matrix _ d => last (mdAcc d) op.id
    | .zero t => last t 0
    | _ => x

/-- A number for an operation of the engine order. -/
def State.newMx (s : State) (parts : List JobRef) (kind : OpKind) (metas : SMap (List Byte)) (claims : SMap (JobRef × Nat)) :
    State × MxOp :=
  ({ s with nextOp := s.nextOp + 1 }, { id := s.nextOp, parts := parts, kind := kind, metas := metas, claims := claims })

/-- The operation of a part, if it is still outstanding. -/
def State.jobOp (s : State) (j : JobRef) : Option EngOp :=
  s.ops.find? fun o => o.core == j.core && o.inst == j.inst && o.tl == j.tl && o.n == j.n

/-- A part completes. -/
def State.jobDone (s : State) (j : JobRef) (status : Byte) (slice : Nat) (info : Word) : State :=
  match s.jobOp j with
  | none => s
  | some o => s.opComplete o status slice info

/-! ## MGANG and MJOB (R162, R164) -/

/-- The oldest unjoined MGANG of each core of a cluster, when every core has one. -/
def Cluster.heads (x : Cluster) : Option (List GangIssue) :=
  let l := (List.range 8).filterMap fun j => (x.gangs.get j []).head?
  if l.length = 8 then some l else none

/-- Joins the oldest MGANGs of a cluster's eight cores (R164). -/
def State.joinGangs (s : State) (cl : Nat) : State :=
  let x := s.cluster cl
  match x.heads with
  | none => s
  | some gs =>
    let s := s.setCluster cl { x with gangs := (List.range 8).foldl (fun m j => SMap.set m j ((m.get j []).drop 1)) x.gangs }
    let first := (gs.map (·.desc)).headD []
    let mask := (gs.zipIdx.map fun (g, j) => if g.desc = first then 0 else 2 ^ j).sum
    let part := fun (g : GangIssue) (j : Nat) => (⟨8 * cl + j, g.inst, .mx, g.n⟩ : JobRef)
    if mask = 0 then
      let takes := gs.zipIdx.filter fun (_, j) => takesPart true first 0 j
      let (s, op) := s.newMx (gs.zipIdx.map fun (g, j) => part g j) (.matrix true first)
        (takes.map fun (g, j) => (j, g.metaBits)) (takes.map fun (g, j) => (j, part g j, g.claim))
      s.arriveMx cl op
    else
      (gs.zipIdx.foldl (fun s (g, j) =>
        let s := if takesPart true g.desc j j then
            s.dropSlots (8 * cl + j) g.inst (mdHandle g.desc) g.claim (mdSteps g.desc) else s
        s.jobDone (part g j) 3 0xFF (BitVec.ofNat 64 mask)) s).dropOrphans

def execMgang (c : Ctl) (d : SReg) (dr : BitVec 2) (s : State) : Host.Outcome State Fault Refusal :=
  runWord (.mgang c d dr) s fun m s =>
    let desc := (s.core m).desc dr
    match s.matrixFail m true desc with
    | some r => r
    | none =>
      s.issueOp m .mx d (.matrix true desc) fun s n =>
        let q := s.core m
        let (q', first) := if takesPart true desc (inCluster m) (inCluster m) then
            q.claimSlots (mdHandle desc) (mdSteps desc) else (q, 0)
        let g : GangIssue := ⟨q.inst, n, desc, q.metaBytes desc, first⟩
        ((s.setCore m q').modCluster (clusterOf m) fun x =>
          { x with gangs := x.gangs.set (inCluster m) (x.gangs.get (inCluster m) [] ++ [g]) }).joinGangs (clusterOf m)

/-- Entries of a cluster's job queue, the offered ones included (R158). -/
def Cluster.queued (x : Cluster) : Nat := x.jobs.length + x.offers.length

/-- Offers an operation to the job queue; where the core's word or the one before it carries SC.YLD, behind all others
(R330). -/
def State.offerJob (s : State) (c : CoreId) (yld : Bool) (j : JobRef) : State :=
  s.modCluster (clusterOf c) fun x =>
    { x with offers := x.offers ++ [j], late := if yld || (s.core c).yld then x.late ++ [j] else x.late }

def execMjob (c : Ctl) (d : SReg) (dr : BitVec 2) (s : State) : Host.Outcome State Fault Refusal :=
  runWord (.mjob c d dr) s fun m s =>
    let desc := (s.core m).desc dr
    match s.matrixFail m false desc with
    | some r => r
    | none =>
      if 16 ≤ (s.cluster (clusterOf m)).queued then .wait
      else
        s.issueOp m .mx d (.matrix false desc) fun s n =>
          let q := s.core m
          let j : JobRef := ⟨m, q.inst, .mx, n⟩
          let (q', first) := q.claimSlots (mdHandle desc) (mdSteps desc)
          let (s, op) := (s.setCore m q').newMx [j] (.matrix false desc) [(inCluster m, q.metaBytes desc)]
            [(inCluster m, j, first)]
          (s.modCluster (clusterOf m) fun x => { x with pending := x.pending ++ [op] }).offerJob m c.yld j

/-! ## W-stack loads and tables (R167) -/

/-- An operation of one core that enters the engine order at issue. -/
def State.issueMx (s : State) (c : CoreId) (d : SReg) (kind : OpKind) : Res :=
  s.issueOp c .mx d kind fun s n =>
    let (s, op) := s.newMx [⟨c, (s.core c).inst, .mx, n⟩] kind [] []
    s.arriveMx (clusterOf c) op

/-- A W range that names no slice's bytes (R167). -/
def badW (w : Word) (n : Nat) : Bool := w.toNat / 2 ^ 29 != 0 || decide (2 ^ 26 < w.toNat % 2 ^ 26 + n)

/-- Checks 2 to 7 of R101 on the first and last byte of a range, in its order; the first range first when alike. -/
def State.rangesFail (s : State) (c : CoreId) (rs : List (AccKind × Word × Nat)) : Option Res :=
  let q := s.core c
  let es := rs.flatMap fun (k, a, n) => if n = 0 then [] else [(k, a), (k, a + BitVec.ofNat 64 (n - 1))]
  if (headerOf q.hdr).noSpill && es.any fun (_, a) => inStack a then some (.trap .illegalOp (illegalInfo ⟨0x07, 0xFF⟩))
  else
    let f : Option (Nat × MemFail) := es.foldl (fun f (k, a) => firstFail f (s.elemFail c k ⟨a, 1, 1⟩)) none
    match (f.map Prod.snd : Option MemFail) with
    | some (.trap cause info) => some (.trap cause info)
    | some (.page va bad code) => some (.page va bad code)
    | none => none

/-- MBLD; a W range past its partition is an address fault, of an idempotent task too (DESIGN CHOICE, log 83). -/
def execMbld (c : Ctl) (d w b len : SReg) (s : State) : Host.Outcome State Fault Refusal :=
  runWord (.mbld c d w b len) s fun m s =>
    let q := s.core m
    let wa := q.rs w
    let a := q.rs b
    let n := (q.rs len).toNat
    if q.idem && n != 0 && !(badW wa n) && !q.declaredW wa.toNat n then .trap .nonidemOp 0
    else if wa.toNat % 32 != 0 then .trap .misaligned wa
    else if a.toNat % 32 != 0 then .trap .misaligned a
    else if n = 0 then
      s.issueOp m .mx d (.load wa a 0) fun s k => s.jobDone ⟨m, (s.core m).inst, .mx, k⟩ 0 0xFF 0
    else if badW wa n then .trap .addrFault wa
    else
      match s.rangesFail m [(accRead, a, n)] with
      | some r => r
      | none => s.issueMx m d (.load wa a n)

/-- MSCL; a W range past its partition is an address fault, of an idempotent task too (DESIGN CHOICE, log 83). -/
def execMscl (c : Ctl) (d w : SReg) (v : VReg) (s : State) : Host.Outcome State Fault Refusal :=
  runWord (.mscl c d w v) s fun m s =>
    let q := s.core m
    let wa := q.rs w
    let n := q.vbits / 8
    if q.idem && !(badW wa n) && !q.declaredW wa.toNat n then .trap .nonidemOp 0
    else if wa.toNat % 32 != 0 then .trap .misaligned wa
    else if badW wa n then .trap .addrFault wa
    else s.issueMx m d (.scale wa (leBytes n (q.rv v)))

def execMperm (c : Ctl) (d b : SReg) (s : State) : Host.Outcome State Fault Refusal :=
  runWord (.mperm c d b) s fun m s =>
    let q := s.core m
    let a := q.rs b
    if q.idem then .trap .nonidemOp 0
    else if a.toNat % 128 != 0 then .trap .misaligned a
    else
      match s.rangesFail m [(accRead, a, 8192)] with
      | some r => r
      | none => s.issueMx m d (.perm a)

/-! ## Accumulator access (R168, R169) -/

/-- Elements of a register for an accumulator type, and their width in it. -/
def accWidth : AccType → Nat
  | .fp32 => 32
  | .bf16 => 16
  | .raw => 64
  | .stat => 64

/-- Row and column outside the tile. -/
def badElems (row col : Word) (n : Nat) : Bool := decide (127 < row.toNat) || decide (128 < col.toNat + n)

def execMacz (c : Ctl) (d : SReg) (tile : BitVec 2) (s : State) : Host.Outcome State Fault Refusal :=
  runWord (.macz c d tile) s fun m s => s.issueMx m d (.zero tile.toNat)

def execMacw (c : Ctl) (d : SReg) (v : VReg) (t : AccType) (tile : BitVec 2) (row col : SImm) (s : State) :
    Host.Outcome State Fault Refusal :=
  runWord (.macw c d v t tile row col) s fun m s =>
    let q := s.core m
    if badElems (row.val q) (col.val q) (q.count (accWidth t)) then .trap .illegalOp (illegalInfo ⟨0x05, 3⟩)
    else s.issueMx m d (.accWrite t tile.toNat (row.val q).toNat (col.val q).toNat (leBytes (q.vbits / 8) (q.rv v)))

/-- An accumulator element as MACR returns it. -/
def accOut (t : AccType) (x : BitVec 48) : Nat :=
  match t with
  | .fp32 => fp32.encodeV (acxDecode x)
  | .bf16 => bf16.encodeV (acxDecode x)
  | .raw | .stat => x.toNat

/-- MACR; type STAT takes no range check of row and column (DESIGN CHOICE, log 83). -/
def execMacr (c : Ctl) (d : VReg) (n : SReg) (t : AccType) (tile : BitVec 2) (row col : SImm) (s : State) :
    Host.Outcome State Fault Refusal :=
  runWord (.macr c d n t tile row col) s fun m s =>
    let q := s.core m
    let x := (s.cluster (clusterOf m)).acc.get tile.toNat {}
    if t == .stat then .done (s.setCore m (q.ws n (x.ovf.setWidth 64)))
    else
      let w := accWidth t
      let r := row.val q
      let k := col.val q
      if badElems r k (q.count w) then .trap .illegalOp (illegalInfo ⟨0x05, 3⟩)
      else .done (s.setCore m ((q.wv d (ofElems w ((List.range (q.count w)).map fun e =>
        accOut t (x.e.get (128 * r.toNat + k.toNat + e) 0)))).ws n (BitVec.ofNat 64 x.steps)))

/-- The elements that MACW writes, and how many of them overflow. RAW writes the bits it is given, also those of a NaN that
is not the canonical one: R169 is followed rather than R32 (DESIGN CHOICE, log 52). -/
def accElems (t : AccType) (data : List Byte) : List (BitVec 48) × Nat :=
  let w := accWidth t
  let l := (List.range (data.length * 8 / w)).map fun e =>
    let x := leAt data (w / 8 * e) (w / 8)
    match t with
    | .fp32 => acxRound (fp32.decodeV x)
    | .bf16 => acxRound (bf16.decodeV x)
    | .raw | .stat => if x / 2 ^ 37 % 1024 = 0 then (0, false) else (BitVec.ofNat 48 x, false)
  (l.map (·.1), (l.filter (·.2)).length)

/-- Counts overflows on ACC_OVF, which saturates. -/
def satOvf (x : BitVec 16) (n : Nat) : BitVec 16 := BitVec.ofNat 16 (min 65535 (x.toNat + n))

/-! ## The job queue (R330) -/

/-- Of the offers that a test picks, the oldest of the next core-in-cluster number after the one accepted last. -/
def Cluster.nextOffer (x : Cluster) (pick : JobRef → Bool) : Option JobRef :=
  (rangeFrom 0 8).findSome? fun k => x.offers.find? fun j => pick j && (inCluster j.core + 7 - x.rr) % 8 == k

/-- JOB_QUEUE_ACCEPT: an offer is accepted, one of a core that yields only where there is no other; the probes of cluster
level upward count it as received (R228). -/
def execJobQueueAccept (cl : Nat) (s : State) : Host.Outcome State Fault Refusal :=
  let x := s.cluster cl
  match (x.nextOffer (!x.late.contains ·)).or (x.nextOffer fun _ => true) with
  | none => .next s
  | some j => .next ((s.setCluster cl { x with
      offers := x.offers.filter (· != j), late := x.late.filter (· != j), jobs := x.jobs ++ [j]
      rr := inCluster j.core }).receipt j.core 2)

/-- JOB_QUEUE_DEPART: the oldest entry of one engine leaves, which the engine receives (R228); an MJOB then arrives. -/
def execJobQueueDepart (cl : Nat) (mx : Bool) (s : State) : Host.Outcome State Fault Refusal :=
  let x := s.cluster cl
  match x.jobs.find? fun j => (j.tl == .mx) == mx with
  | none => .next s
  | some j =>
    let s := (s.setCluster cl { x with jobs := x.jobs.filter (· != j) }).receipt j.core 2
    if mx then
      match x.pending.find? fun op => op.parts == [j] with
      | none => .next s
      | some op =>
        .next ((s.modCluster cl fun x => { x with pending := x.pending.filter (·.id != op.id) }).arriveMx cl op)
    else
      match s.jobOp j with
      | none => .next s
      | some o => .next (s.setOp { o with queued := false })

/-! ## Starting (R165, R329, R335) -/

/-- Slices of a matrix operation. -/
def MxOp.slices (op : MxOp) : List Nat := op.claims.map (·.1)

/-- Slices that an operation holds from its start. -/
def MxOp.holdsSlices (op : MxOp) : List Nat :=
  match op.kind with
  | .matrix .. => if op.running then op.slices else []
  | .load w _ _ | .scale w _ => [w.toNat / 2 ^ 26 % 8]
  | .perm _ => List.range 8
  | _ => []

/-- The tile that an operation holds. -/
def MxOp.holdsTile (op : MxOp) : Option Nat :=
  match op.kind with
  | .matrix _ d => some (mdAcc d)
  | .zero t | .accWrite _ t _ _ _ => some t
  | _ => none

/-- The operation that starts next: the first not started, when nothing before it holds its slices or its tile. -/
def nextStart (order : List MxOp) : Option MxOp :=
  match order.find? (!·.started) with
  | none => none
  | some op =>
    let busy := order.any fun x => x.started &&
      ((x.holdsSlices.any op.holdsSlices.contains) || (x.holdsTile.isSome && x.holdsTile == op.holdsTile))
    if busy then none else some op

def Cluster.setMx (x : Cluster) (op : MxOp) : Cluster :=
  { x with order := x.order.map fun y => if y.id = op.id then op else y }

/-- A reserved GS8 of a column of a step: its partition offset (R30). -/
def State.gsBad (s : State) (cl j : Nat) (d : List Byte) (step c : Nat) : Option Nat :=
  let off := mdGs d + step * mdN d + c
  if mdGsOn d && decide (31 ≤ (s.wstack.get (wByte cl j off)).toNat / 8) then some off else none

/-- Column c of step s in a slice. -/
def State.wColumn (s : State) (cl j : Nat) (d : List Byte) (step c : Nat) : Nat × Column :=
  let cb := colBytes (mdB d) (mdKS d)
  let off := mdW d + step * mdWStep d + c * cb
  (off, column (mdB d) (mdKS d) (s.wstack.read (wByte cl j off) cb))

/-- The first failure of a column of a step: its status and its partition offset, which a record of MJOB and of MGANG
carries alike (DESIGN CHOICE, log 32). Of a reserved GS8 and, under STRICT, an illegal code, the lower byte counts. -/
def State.columnBad (s : State) (cl j : Nat) (d : List Byte) (step c : Nat) : Option (Byte × Nat) :=
  let code := if mdStrict d then let (off, x) := s.wColumn cl j d step c; x.first.map (off + ·) else none
  match s.gsBad cl j d step c, code with
  | some g, some off => if off < g then some (1, off) else some (2, g)
  | some g, none => some (2, g)
  | none, some off => some (1, off)
  | none, none => none

/-- The first failure of a step in a slice: in its columns, then under STRICT in its rows' metadata, whose offset counts
within the metadata (R325, log 32). -/
def State.stepBad (s : State) (cl j : Nat) (d metas : List Byte) (step : Nat) : Option (Byte × Nat) :=
  match (List.range (mdN d)).findSome? fun c => s.columnBad cl j d step c with
  | some f => some f
  | none =>
    if !mdStrict d || sparseA (mdA d) = 0 then none
    else ((List.range (mdM d)).findSome? fun r => metaBad d metas (step * mdM d + r)).map fun off => (1, off)

/-- The check of some steps before they write: the status, slice and offset of the first failure, in ascending order of
slice, step, column and byte (R163, R325, R335). -/
def State.scan (s : State) (cl : Nat) (op : MxOp) (d : List Byte) (steps : List Nat) : Option (Byte × Nat × Word) :=
  op.slices.findSome? fun j => steps.findSome? fun k =>
    (s.stepBad cl j d (op.metas.get j []) k).map fun (st, off) => (st, j, BitVec.ofNat 64 off)

/-- MATRIX_OPERATION_START (R329, R335, R340). -/
def execMatrixOperationStart (cl : Nat) (s : State) : Host.Outcome State Fault Refusal :=
  let x := s.cluster cl
  match nextStart x.order with
  | none => .next s
  | some op =>
    let op := match op.kind with
      | .matrix _ d => { op with started := true, base := some (x.acc.get (mdAcc d) {}), fail := s.scan cl op d (List.range (mdSteps d)) }
      | _ => { op with started := true }
    .next (s.setCluster cl (x.setMx op))

/-! ## A step (R163, R340) -/

/-- The A slot of a step: its offset in local memory, when it is filled; a failed stream's status, and what its record carries. -/
inductive SlotState where
  | ready (off : Nat)
  | notYet
  | failed (status : Byte) (info : Word)

def State.slotState (s : State) (h : HReg) (j : JobRef) (pos : Nat) : SlotState :=
  let x := s.opHandle j.core j.inst h
  if pos < x.p then .ready ((x.slotAt pos).toNat - scratchBase)
  else if x.st == .stream && x.fault then .failed x.status x.info
  else .notYet

/-- The bytes of a slot, in local memory or in the image of it that is saved (R244); or the address of poisoned ones. -/
def State.slotBytes (s : State) (j : JobRef) (off n : Nat) : Except Word (List Byte) :=
  let lines := rangeFrom (off / 128) ((off + n + 127) / 128 - off / 128)
  let ue := fun (bad : Nat → Bool) => (lines.find? bad).map fun l => BitVec.ofNat 64 (scratchBase + 128 * l)
  match (s.jobOp j).bind fun o => s.imageAt o off with
  | some pa =>
    match ue fun l => s.poisoned ((pa + 128 * l - off) / 128) with
    | some a => .error a
    | none => .ok ((rangeFrom pa n).map s.paByte)
  | none =>
    match ue (s.tile (tileOf j.core)).poison.contains with
    | some a => .error a
    | none => .ok ((s.tile (tileOf j.core)).lm.read off n)

/-- V of each element of one slice for one step, by row and column, with the overflows and illegal codes. -/
def State.sliceV (s : State) (cl j : Nat) (d slot metas : List Byte) (step : Nat) : List (List (BitVec 48)) × Nat × Nat :=
  let a := mdA d
  let b := mdB d
  let ks := mdKS d
  let n := mdN d
  let perm := if mdPerm d then some ((s.cluster cl).permPart j) else none
  let cols := (List.range n).map fun c => (s.wColumn cl j d step c).2
  let w := fun (off i : Nat) => (s.wstack.get (wByte cl j (off + step * n + i))).toNat
  let rows := (List.range (mdM d)).map fun r => aRow d slot metas (step * mdM d) r
  let vs := rows.zipIdx.map fun ((row, _), r) =>
    let ea := if fmtScaled a then (slot.getD (mdM d * rowBytes a ks + r) 0).toNat else 127
    cols.zipIdx.map fun ((col : Column), c) =>
      scaleSum (sliceSum (fmtLog b) perm ks row col.w) (if mdGsOn d then w (mdGs d) c else 0x78) ea
        (if fmtScaled b then w (mdBs d) c else 127) (elemExp a b)
  (vs.map (·.map (·.1)), ((vs.map fun r => (r.filter (·.2)).length).sum),
    (cols.map (·.bad)).sum + (rows.map (·.2)).sum)

/-- Adds one slice's V into the elements of a tile: the new elements and the overflows. -/
def addV (e : SMap (BitVec 48)) (vs : List (List (BitVec 48))) : SMap (BitVec 48) × Nat :=
  vs.zipIdx.foldl (fun st (row, r) => row.zipIdx.foldl (fun (e, k) (v, c) =>
    let (x, o) := acxAdd (e.get (128 * r + c) 0) (acxDecode v)
    (SMap.set e (128 * r + c) x, if o then k + 1 else k)) st) (e, 0)

/-- Whether a core's counters count a source. -/
def Core.counts (q : Core) (src : Nat) : Bool :=
  (List.range 8).any fun i => (q.ecsel.get i 0).getLsbD 16 && (q.ecsel.get i 0).toNat % 65536 == src

/-- What a slice's row passes count: illegal codes (R324) and extra compaction cycles, which only T5 and T2 against a dense
A can have (R332, R333). -/
def State.countSlice (s : State) (cl j bad : Nat) (d : List Byte) (step : Nat) : State :=
  let c := 8 * cl + j
  let s := s.modCore c fun q => q.countEvent 0x0020 bad
  if !(s.core c).counts 0x0021 || fmtLog (mdB d) || mdB d == 11 || sparseB (mdB d) != 0 || sparseA (mdA d) != 0 then s
  else
    let ks := mdKS d
    let perm := if mdPerm d then some ((s.cluster cl).permPart j) else none
    let cols := (List.range (mdN d)).map fun i => ((s.wColumn cl j d step i).2).w
    let e := extraCycles ((ks + 63) / 64) fun i k => occupied perm ks (cols.getD i []) k
    s.modCore c fun q => q.countEvent 0x0021 (e * mdM d * (if mdA d == 15 then 2 else 1))

/-- Whether an operation is a chain's, and whether its cluster is the chain's last (R166). -/
def chained (d : List Byte) : Bool := mdChn d != 0
def lastOfChain (cl : Nat) (d : List Byte) : Bool := chained d && (mdList d).getLast? == some cl

/-- The elements into which an operation adds at its next step. -/
def MxOp.elements (op : MxOp) (cl : Nat) (d : List Byte) (tile : AccTile) : SMap (BitVec 48) :=
  if lastOfChain cl d then op.partialTile
  else if chained d && op.steps = 0 then
    (List.range (mdM d)).foldl (fun e r => (List.range (mdN d)).foldl (fun e c => SMap.erase e (128 * r + c)) e) tile.e
  else tile.e

/-- The slots of the next step, with their slices; or what stops the step. -/
def State.stepSlots (s : State) (op : MxOp) (d : List Byte) : Except (Option (Byte × Nat × Word)) (List (Nat × List Byte)) :=
  op.claims.foldr (fun (j, ref, first) r =>
    match r, s.slotState (mdHandle d) ref (first + op.steps) with
    | .error (some f), _ => .error (some f)
    | _, .failed st info => .error (some (st, 0xFF, info))
    | .error none, _ => .error none
    | _, .notYet => .error none
    | .ok l, .ready off =>
      match s.slotBytes ref off (slotNeed d) with
      | .error a => .error (some (0x13, 0xFF, a))
      | .ok bs => .ok ((j, bs) :: l)) (.ok [])

/-- The first poisoned beat that a step reads in a slice, as a W address. -/
def State.stepUe (s : State) (cl j : Nat) (d : List Byte) (step : Nat) : Option Word :=
  let n := mdN d
  let at' := fun (off len : Nat) => s.wBad (wByte cl j off) len
  let bad := match at' (mdW d + step * mdWStep d) (n * colBytes (mdB d) (mdKS d)) with
    | some a => some a
    | none =>
      match (if mdGsOn d then at' (mdGs d + step * n) n else none) with
      | some a => some a
      | none => if fmtScaled (mdB d) then at' (mdBs d + step * n) n else none
  bad.map fun a => BitVec.ofNat 64 (a % 2 ^ 29)

/-- The stores that the issuers of an operation's parts made before it have drained (R155): none while one of them cannot. -/
def State.ownParts (s : State) (l : List JobRef) : Option State :=
  l.foldl (fun r j => r.bind fun s => ((s.jobOp j).map s.ownStores).getD (some s)) (some s)

/-- One step of an operation: committed whole, or the operation fails, or the step waits for its slots. -/
def State.mxStep (s0 : State) (cl : Nat) (op : MxOp) (d : List Byte) : State :=
  match s0.ownParts op.parts with
  | none => s0
  | some s =>
  let failed := fun (f : Byte × Nat × Word) => s.modCluster cl fun x => x.setMx { op with fail := some f }
  match s.stepSlots op d with
  | .error none => s
  | .error (some f) => failed f
  | .ok slots =>
    match op.slices.findSome? fun j => s.stepUe cl j d op.steps with
    | some a => failed (0x13, 0xFF, a)
    | none =>
      match s.scan cl op d [op.steps] with
      | some f => failed f
      | none =>
        let t := mdAcc d
        let tile := (s.cluster cl).acc.get t {}
        let (e, ovf, s) := slots.foldl (fun (e, k, s) (j, slot) =>
          let (vs, over', bad) := s.sliceV cl j d slot (op.metas.get j []) op.steps
          let (e, n) := addV e vs
          (e, k + over' + n, s.countSlice cl j bad d op.steps)) (op.elements cl d tile, 0, s)
        let s := op.claims.foldl (fun s (_, ref, first) =>
          s.modOpHandle ref.core ref.inst (mdHandle d) fun x => x.commitC (first + op.steps)) s
        let last := lastOfChain cl d
        let op := { op with steps := op.steps + 1, partialTile := if last then e else [] }
        let tile := { tile with e := if last then tile.e else e, ovf := satOvf tile.ovf ovf
                                steps := if tile.last = op.id then op.steps else tile.steps }
        s.modCluster cl fun x => { x.setMx op with acc := x.acc.set t tile }

/-- MATRIX_STEP_COMMIT (R163, R340). -/
def execMatrixStepCommit (cl op : Nat) (s : State) : Host.Outcome State Fault Refusal :=
  match (s.cluster cl).order.find? (·.id == op) with
  | none => .next s
  | some o =>
    match o.kind with
    | .matrix _ d => if o.started && o.running then .next (s.mxStep cl o d) else .next s
    | _ => .next s

/-! ## The end of a matrix operation (R164, R325, R340, R344) -/

/-- A matrix operation ends, with what it has come to. -/
def State.mxEnd (s : State) (cl : Nat) (op : MxOp) (d : List Byte) : State :=
  let (status, slice, info) := op.fail.getD (0, 0xFF, 0)
  let t := mdAcc d
  let s := s.modCluster cl fun x =>
    let tile := x.acc.get t {}
    let base := op.base.getD tile
    { x with order := x.order.filter (·.id != op.id)
             acc := if status = 0 || op.base.isNone then x.acc
               else x.acc.set t { tile with e := base.e, ovf := base.ovf, steps := if tile.last = op.id then 0 else tile.steps } }
  let s := if status = 0 then s
    else op.claims.foldl (fun s (_, ref, first) =>
      s.dropSlots ref.core ref.inst (mdHandle d) (first + op.steps) (mdSteps d - op.steps)) s
  (op.parts.foldl (fun s j => s.jobDone j status slice info) s).dropOrphans

/-- The oldest operation of a cluster's order with the same bytes of CHN and CLIST (R166). -/
def Cluster.chainOp (x : Cluster) (d : List Byte) : Option MxOp :=
  x.order.find? fun op => match op.kind with
    | .matrix _ e => chained e && (e.drop 32).take 9 == (d.drop 32).take 9
    | _ => false

/-- The operations of a chain, in listed order, once each of them has run or failed. -/
def State.chainReady (s : State) (d : List Byte) : Option (List (Nat × MxOp)) :=
  let l := (mdList d).filterMap fun cl => ((s.cluster cl).chainOp d).map (cl, ·)
  if l.length = mdChn d && l.all fun (_, op) => op.started && !op.running && !op.finished then some l else none

/-- Adds a partial tile of `m` rows and `n` columns, element by element (R166). -/
def addTile (m n : Nat) (st : SMap (BitVec 48) × Nat) (p : SMap (BitVec 48)) : SMap (BitVec 48) × Nat :=
  addV st.1 ((List.range m).map fun r => (List.range n).map fun c => p.get (128 * r + c) 0) |> fun (e, k) => (e, st.2 + k)

/-- CHAIN_ADD (R166, R343): the last cluster adds the partial tiles in listed order, or the failure of one fails all. -/
def execChainAdd (cl op : Nat) (s : State) : Host.Outcome State Fault Refusal :=
  match (s.cluster cl).order.find? (·.id == op) with
  | none => .next s
  | some o =>
    match o.kind with
    | .matrix _ d =>
      match (if lastOfChain cl d then s.chainReady d else none) with
      | none => .next s
      | some l =>
        match l.find? fun (_, x) => x.fail.isSome with
        | some (bad, _) =>
          .next (l.foldl (fun s (k, x) => s.modCluster k fun y =>
            y.setMx { x with finished := true, fail := some (x.fail.getD (6, 0xFF, BitVec.ofNat 64 bad)) }) s)
        | none =>
          let t := mdAcc d
          let tile := (s.cluster cl).acc.get t {}
          let (e, n) := l.foldl (fun st (k, x) => match x.kind with
            | .matrix _ e => addTile (mdM e) (mdN e) st
                (if k = cl then x.partialTile else ((s.cluster k).acc.get (mdAcc e) {}).e)
            | _ => st) (tile.e, 0)
          let s := l.foldl (fun s (k, x) => s.modCluster k fun y => y.setMx { x with finished := true }) s
          .next (s.modCluster cl fun x => { x with acc := x.acc.set t { tile with e := e, ovf := satOvf tile.ovf n } })
    | _ => .next s

/-- A chain operation of work that ends while its chain waits fails, and the chain's operations that have joined it with it,
CHAIN_FAULT in all of them (DESIGN CHOICE, log 52: R166 and R248 end the wait and name no status). -/
def State.endChain (s : State) (cl : Nat) (op : MxOp) (d : List Byte) : State :=
  let here := (s.cluster cl).chainOp d
  let mates := if here.any (·.id == op.id) then (mdList d).filterMap fun k => ((s.cluster k).chainOp d).map (k, ·) else [(cl, op)]
  mates.foldl (fun s (k, x) => s.modCluster k fun y =>
    y.setMx { x with started := true, finished := true, fail := some (x.fail.getD (6, 0xFF, BitVec.ofNat 64 cl)) }) s

/-- A chain operation waits: it is not the next of its chain in its cluster, or some listed cluster has not started its
own (R166, R343). -/
def State.chainWaits (s : State) (cl : Nat) (op : MxOp) (d : List Byte) : Bool :=
  !(((s.cluster cl).chainOp d).any (·.id == op.id) && (mdList d).all fun k => ((s.cluster k).chainOp d).any (·.started))

/-- Every waiting chain operation of an instance of work; a chain that all its clusters have joined completes (R164). -/
def State.endChains (s : State) (inst : Nat) : State :=
  (List.range 64).foldl (fun s cl => (s.cluster cl).order.foldl (fun s op =>
    match op.kind with
    | .matrix _ d =>
      if chained d && !op.finished && op.parts.any (·.inst == inst) && s.chainWaits cl op d then s.endChain cl op d else s
    | _ => s) s) s

/-- A matrix operation is over: it has failed or run its steps, and its chain has been added. -/
def MxOp.over (op : MxOp) (d : List Byte) : Bool := op.started && !op.running && (!chained d || op.finished)

/-! ## The other operations of the engine order, unit by unit -/

/-- The memory that an address leads an operation to, and whether it is its tile's scratchpad (R231, R250). -/
def EngOp.sourceAt (o : EngOp) (ea : Nat) : Word × Bool :=
  match o.view.place ea with
  | some (.lm off) => (BitVec.ofNat 64 (scratchBase + off), true)
  | some (.glob va _) => (BitVec.ofNat 64 va, false)
  | none => (BitVec.ofNat 64 ea, false)

/-- Loads at most a beat of MBLD. -/
def State.mbldBeat (s : State) (o : EngOp) (w src : Word) (len : Nat) : Beat :=
  if len ≤ o.prog then .over s 0 0xFF 0
  else
    let n := min 32 (len - o.prog)
    match s.engBytes o (rangeFrom (src.toNat + o.prog) n) with
    | .wait s => .wait s
    | .fail s st i => .over s st 0xFF i
    | .ok s bytes =>
      let a := wAddr (clusterOf o.core) w.toNat + o.prog
      let (at_, lm) := o.sourceAt (src.toNat + o.prog)
      .more (((s.back a n at_ (tileOf o.core) lm).wWrite a bytes).setOp { o with prog := o.prog + n })

/-- The first entry of a table that is no permutation of its part (R167). -/
def badEntry (l : List Nat) : Option Nat :=
  (List.range 4096).find? fun x =>
    let v := l.getD x 0
    decide (512 ≤ v) || (rangeFrom (x / 512 * 512) (x % 512)).any fun y => l.getD y 0 == v

/-- One unit of an operation in the engine order. -/
def State.mxBeat (s : State) (o : EngOp) : Beat :=
  let cl := clusterOf o.core
  match o.kind with
  | .load w src len => s.mbldBeat o w src len
  | .scale w data =>
    let a := wAddr cl w.toNat
    .over ((s.unback a data.length).wWrite a data) 0 0xFF 0
  | .perm src =>
    match s.engBytes o (rangeFrom src.toNat 8192) with
    | .wait s => .wait s
    | .fail s st i => .over s st 0xFF i
    | .ok s bytes =>
      let l := lineElems 2 bytes
      match badEntry l with
      | some x => .over s 5 0xFF (BitVec.ofNat 64 x)
      | none => .over (s.modCluster cl fun x => { x with perm := l.zipIdx.map fun (v, i) => (i, BitVec.ofNat 9 v) }) 0 0xFF 0
  | .zero t => .over (s.modCluster cl fun x => { x with acc := x.acc.set t { x.acc.get t {} with e := [], ovf := 0 } }) 0 0xFF 0
  | .accWrite t tile row col data =>
    let (es, n) := accElems t data
    .over (s.modCluster cl fun x =>
      let y := x.acc.get tile {}
      { x with acc := x.acc.set tile { y with
          e := es.zipIdx.foldl (fun m (v, i) => SMap.set m (128 * row + col + i) v) y.e, ovf := satOvf y.ovf n } }) 0 0xFF 0
  | _ => .wait s

/-- The operation of the engine order that a part belongs to. -/
def State.mxOf (s : State) (o : EngOp) : Option MxOp :=
  (s.cluster (clusterOf o.core)).order.find? fun op => op.parts.contains ⟨o.core, o.inst, o.tl, o.n⟩

/-- An operation leaves the engine order. -/
def State.mxLeave (s : State) (cl id : Nat) : State :=
  s.modCluster cl fun x => { x with order := x.order.filter (·.id != id) }

/-- One unit of an operation of the mx context. -/
def State.mxUnit (s : State) (o : EngOp) : Beat :=
  match s.mxOf o with
  | none => .wait s
  | some op =>
    if !op.started then .wait s
    else
      match s.ownStores o with
      | none => .wait s
      | some s =>
        match s.mxBeat o with
        | .over s st sl i => .over (s.mxLeave (clusterOf o.core) op.id) st sl i
        | b => b

end Sys2Proof.Machine
end

