-- ==== Sys2Proof/Machine/Streams.lean ====
section
/-! DEFINITION. Patterns, the stages of a stream, HBIND, and the filling of a stream's slots (06_matrix_stream R174, R176,
R177, 10_traps R246). -/
namespace Sys2Proof.Machine
open Sys2Proof

/-! ## Patterns (R176) -/

/-- The first bad field of a pattern, by byte offset. -/
def patBad (p : List Byte) : Option Nat :=
  if leAt p 7 1 != 0 then some 0 else if leAt p 28 4 != 0 then some 28 else none

/-! ## Ternarisation of a group (R177) -/

/-- A sum of magnitudes, exact, as a numerator at a common exponent. -/
def sumMag (vs : List FVal) : Nat × Int :=
  let base := (vs.map fun v => match v with
    | .fin _ _ e => e
    | .nan | .inf _ => 0).foldl min 0
  ((vs.map fun v => match v with
    | .fin _ m e => m * 2 ^ (e - base).toNat
    | .nan | .inf _ => 0).sum, base)

def fvalAbs : FVal → FVal
  | .fin _ m e => .fin false m e
  | .inf _ => .inf false
  | .nan => .nan

/-- A group's trits and its GS8 scale, and whether it counts on BADTRIT. -/
def ternGroup (tau : Nat) (vs : List FVal) : List Int × Nat × Bool :=
  let zero := vs.map fun _ => (0 : Int)
  if blockBad vs then (zero, 0, true)
  else
    match gs8Value tau with
    | none => (zero, 0, false)
    | some tv =>
      let (n, e) := sumMag vs
      let mean := fp32.decode (fp32.encode (FVal.ofRat false n vs.length e))
      let delta := fp32.decode (fp32.encode (tv.mul mean))
      let ts := vs.map fun v => if v.cmp delta == some .gt then (1 : Int) else if v.cmp delta.neg == some .lt then -1 else 0
      let kept := (vs.zip ts).filter fun (_, t) => t != 0
      let (k, e') := sumMag (kept.map fun (v, _) => fvalAbs v)
      (ts, (if kept.isEmpty then 0 else gs8Round (FVal.ofRat false k kept.length e')), false)

/-! ## Stages (R174) -/

/-- A stage: units of input and output bytes, what a unit becomes, with its illegal codes, and the table entry that makes
it fail. A last unit cut short is padded with zero bytes (log 33). -/
structure Stage where
  inB : Nat
  outB : Nat
  run : List Byte → List Byte × Nat
  bad : Option Nat := none

/-- Elements of `w` bytes, from their numbers. -/
def packLe (w : Nat) (l : List Nat) : List Byte := l.flatMap (leBytes w)

def packFields (w n : Nat) (l : List Nat) : List Byte := leBytes n (ofElems w l)

/-- The repack operators: from, to. -/
def repack (from' to' : Nat) : Option Stage :=
  let trits := fun (r : List Int × Nat) (out : List Int → List Byte) => (out r.1, r.2)
  let i8 := fun (ts : List Int) => ts.map fun t => (BitVec.ofInt 8 t)
  let t2 := fun (ts : List Int) => packFields 2 (ts.length / 4) (ts.map t2Encode)
  match from', to' with
  | 0, 2 => some ⟨2, 1, fun b => (packFields 4 1 ((signedFields 8 2 b).map fun x =>
      (BitVec.ofInt 4 (max (-8) (min 7 x))).toNat), 0), none⟩
  | 2, 0 => some ⟨1, 2, fun b => ((signedFields 4 2 b).map (BitVec.ofInt 8), 0), none⟩
  | 5, 6 => some ⟨4, 3, fun b => (packFields 6 3 ((fieldsOf 8 4 b).map (· % 64)), 0), none⟩
  | 6, 5 => some ⟨3, 4, fun b => (packLe 1 (fieldsOf 6 4 b), 0), none⟩
  | 7, 8 => some ⟨4, 5, fun b => trits (t5Run 20 b) t2, none⟩
  | 8, 7 => some ⟨5, 4, fun b => trits (t2Run 20 b) (t5Pack 4), none⟩
  | 7, 0 => some ⟨1, 5, fun b => trits (t5Run 5 b) i8, none⟩
  | 8, 0 => some ⟨1, 4, fun b => trits (t2Run 4 b) i8, none⟩
  | _, _ => none

/-- Bytes of `n` elements of a block-scaled format. -/
def blockBytes (f n : Nat) : Nat := 1 + (if f == 4 then n / 2 else if f == 6 then 3 * n / 4 else n)

/-- The values of a block: its scale byte and its elements. -/
def blockValues (f n : Nat) (bs : List Byte) : List FVal :=
  let sc := leAt bs 0 1
  let body := bs.drop 1
  let mx := fun (w : Nat) (ex : Int) => (signedFields w n body).map fun x =>
    if sc = 255 then FVal.nan else FVal.ofInt x ((sc : Int) - 127 + ex)
  match f with
  | 3 => mx 8 (-6)
  | 4 => mx 4 (-2)
  | 5 => (fieldsOf 8 n body).map (lgValue sc)
  | _ => (fieldsOf 6 n body).map (lgValue sc)

/-- A block quantised anew (R24): its scale byte and its elements. The values between the two blocks are FP32 (DESIGN CHOICE,
log 33). -/
def quantBlock (f : Nat) (vs : List FVal) : List Byte :=
  let vs := vs.map fun v => fp32.decodeV (fp32.encodeV v)
  let sc := blockScale 127 vs
  let q := fun (v : FVal) => if sc = 255 || blockBad vs then (0 : Int)
    else if f == 3 then mxQuant 6 127 sc v else mxQuant 2 7 sc v
  leBytes 1 sc ++ (if f == 3 then (vs.map q).map (BitVec.ofInt 8)
    else packFields 4 (vs.length / 2) (vs.map fun v => (BitVec.ofInt 4 (q v)).toNat))

/-- A stage of a descriptor, with a permutation table; or the offset of the parameter that is bad. -/
def stageOf (perm : Nat → Nat) (p : List Byte) : Except Nat Stage :=
  let b := fun (i : Nat) => leAt p i 1
  let float? := fun (i : Nat) => if b i = 8 then some VType.bf16 else if b i = 9 then some VType.fp32 else none
  match b 0 with
  | 0 => .ok ⟨1, 1, fun x => (x, 0), none⟩
  | 1 =>
    match VType.ofCode (b 1), VType.ofCode (b 2) with
    | some src, some dst =>
      if src == .lg6 then .error 1
      else if dst == .lg6 || src == dst then .error 2
      else .ok ⟨src.width / 8, dst.width / 8, fun x => (leBytes (dst.width / 8) (vconv dst src (ofLe x)), 0), none⟩
    | none, _ => .error 1
    | some _, none => .error 2
  | 2 =>
    match float? 1 with
    | none => .error 1
    | some t =>
      let f := fp32.decodeV (leAt p 4 4)
      .ok ⟨t.width / 8, t.width / 8, fun x => (leBytes (t.width / 8) (vresF t ((velemF t (ofLe x)).mul f)), 0), none⟩
  | 3 =>
    let eb := b 1
    let n := leAt p 3 2
    if !(eb == 1 || eb == 2 || eb == 4) then .error 1
    else if 8 ≤ b 2 then .error 2
    else if n = 0 || 512 < n then .error 3
    else .ok
      { inB := eb * n, outB := eb * n
        run := fun x => ((List.range n).flatMap fun k => (x.drop (eb * perm (512 * b 2 + k))).take eb, 0)
        bad := ((List.range n).find? fun k => n ≤ perm (512 * b 2 + k)).map (512 * b 2 + ·) }
  | 4 =>
    let eb := b 1
    if !(eb == 1 || eb == 2 || eb == 4) then .error 1
    else .ok ⟨1024 * eb, 1024 * eb, fun x => ((List.range 1024).flatMap fun o =>
      (x.drop (eb * (32 * (o % 32) + o / 32))).take eb, 0), none⟩
  | 5 =>
    match repack (b 1) (b 2) with
    | some st => .ok st
    | none => if b 1 == 0 || b 1 == 2 || (decide (5 ≤ b 1) && decide (b 1 ≤ 8)) then .error 2 else .error 1
  | 6 =>
    let f := b 1
    let n := 32 * 2 ^ b 2
    let g := b 3
    let k := 32 * 2 ^ b 4
    if !(decide (3 ≤ f) && decide (f ≤ 6)) then .error 1
    else if 5 < b 2 then .error 2
    else
      match float? 3 with
      | some t => .ok ⟨blockBytes f n, n * t.width / 8, fun x =>
          (packLe (t.width / 8) ((blockValues f n x).map (vresF t)), 0), none⟩
      | none =>
        if !(g == 3 || g == 4) then .error 3
        else if 5 < b 4 then .error 4
        else
          let total := max n k
          .ok ⟨total / n * blockBytes f n, total / k * blockBytes g k, fun x =>
            let vs := (chunks (blockBytes f n) (total / n) x).flatMap (blockValues f n)
            ((chunks k (total / k) vs).flatMap (quantBlock g), 0), none⟩
  | 7 =>
    match float? 1 with
    | none => .error 1
    | some t =>
      let n := leAt p 2 2
      if n = 0 || 1024 < n then .error 2
      else .ok ⟨n * t.width / 8, (n + 4) / 5 + 1, fun x =>
        let (ts, sc, bad) := ternGroup (b 4) ((lineElems (t.width / 8) x).map (velemF t))
        (t5Pack ((n + 4) / 5) ts ++ leBytes 1 sc, if bad then 1 else 0), none⟩
  | _ => .error 0

/-- The stages of a descriptor, the last first; or the byte offset of the first bad field. -/
def stagesOf (perm : Nat → Nat) (d : List Byte) : Except Nat (List Stage) :=
  match patBad d with
  | some off => .error off
  | none =>
    let st := fun (k : Nat) => stageOf perm ((d.drop (32 + 8 * k)).take 8)
    match st 0, st 1, st 2 with
    | .error e, _, _ => .error (32 + e)
    | .ok _, .error e, _ => .error (40 + e)
    | .ok _, .ok _, .error e => .error (48 + e)
    | .ok a, .ok b, .ok c => if leAt d 56 8 != 0 then .error 56 else .ok [c, b, a]

/-- Bytes that come out of stages, the last stage first, for `n` bytes in. -/
def stagesTotal (n : Nat) : List Stage → Nat
  | [] => n
  | st :: r => (stagesTotal n r + st.inB - 1) / st.inB * st.outB

/-- The table entry a permutation stage fails on. -/
def stagesBad : List Stage → Option Nat
  | [] => none
  | st :: r => match stagesBad r with
    | some x => some x
    | none => st.bad

/-- Bytes [lo, lo + n) of a stream, and the illegal codes in units first needed for bytes from `fresh` on. -/
def State.streamBytes (s : State) (o : EngOp) (pat : List Byte) : List Stage → Nat → Nat → Nat → EngRes (List Byte × Nat)
  | [], lo, n, _ =>
    let k := min n (patTotal pat - lo)
    match s.engBytes o ((rangeFrom lo k).map (patAddr pat)) with
    | .ok s bs => .ok s (padTo n bs, 0)
    | .wait s => .wait s
    | .fail s st i => .fail s st i
  | st :: r, lo, n, fresh =>
    let u0 := lo / st.outB
    let u1 := (lo + n + st.outB - 1) / st.outB
    let new := (fresh + st.outB - 1) / st.outB
    match s.streamBytes o pat r (u0 * st.inB) ((u1 - u0) * st.inB) (new * st.inB) with
    | .wait s => .wait s
    | .fail s st i => .fail s st i
    | .ok s (bs, k) =>
      let us := (chunks st.inB (u1 - u0) bs).map fun u => st.run (padTo st.inB u)
      let codes := ((us.zipIdx.filter fun (_, i) => decide (new ≤ u0 + i)).map fun (u, _) => u.2).sum
      .ok s (((us.flatMap (·.1)).drop (lo - u0 * st.outB)).take n, k + codes)

/-! ## Writes of one context in number order (R155) -/

/-- The ranges of generic addresses into which an operation may write: of a stream and of a gather, slots of its handle. -/
def State.writeRuns (s : State) (o : EngOp) : List (Nat × Nat) :=
  match o.kind with
  | .copy dst _ len => [(dst.toNat, len)]
  | .pattern d =>
    let p := d.drop 32
    (List.range (patCount p 1 * patCount p 2 * patCount p 3)).map fun r => (patAddr p (r * patRun p), patRun p)
  | .stream h =>
    let x := s.opHandle o.core o.inst h
    [(x.base.toNat, x.bytes * x.slots)]
  | .gather h pos .. =>
    let x := s.opHandle o.core o.inst h
    [((x.slotAt pos).toNat, x.bytes)]
  | .ternarise .. | .flush .. | .load .. | .scale .. | .perm .. | .zero .. | .accWrite .. | .matrix .. | .put .. | .flag ..
  | .send .. | .recv .. => []

/-- Where ranges of generic addresses lie, as `engKey` numbers places: each from, and up to. -/
def State.keyRuns (s : State) (o : EngOp) (runs : List (Nat × Nat)) : List (Nat × Nat) :=
  runs.flatMap fun (a, n) =>
    match o.view.place a with
    | some (.lm off) => [(2 ^ 60 + off, 2 ^ 60 + off + n)]
    | some (.glob ..) => s.rangeLines o.ctx a n
    | none => []

/-- Bytes [a, a + n) may be written by an operation now: no earlier operation of its context has still to write some of
them. -/
def State.writeTurn (s : State) (o : EngOp) (a n : Nat) : Bool :=
  let before := (s.opsOf o.inst).filter fun x => x.core == o.core && x.tl == o.tl && decide (x.n < o.n)
  before.isEmpty || (s.keyRuns o [(a, n)]).all fun (lo, hi) =>
    before.all fun x => (s.keyRuns x (s.writeRuns x)).all fun (lo', hi') => decide (hi ≤ lo') || decide (hi' ≤ lo)

/-! ## HBIND (R174) -/

/-- A handle that HBIND accepts. -/
def Handle.bindable (x : Handle) : Bool :=
  (x.st == .ring && x.q == x.p && x.c == x.p && x.d == x.p) || (x.st == .stream && x.exhausted && x.c == x.p && x.d == x.c)

def execHbind (c : Ctl) (d : SReg) (h : HReg) (b : SReg) (s : State) : Host.Outcome State Fault Refusal :=
  runWord (.hbind c d h b) s fun m s =>
    let x := (s.core m).handle h
    if (s.core m).grants.handles ≤ h.toNat then .trap .handleState 0x10
    else if !x.bindable then .trap .handleState (BitVec.ofNat 64 x.st.code)
    else
      s.loadData m ((s.core m).rs b) 64 64 fun s bytes =>
        match stagesOf id bytes with
        | .error off => badDesc off 7
        | .ok _ =>
          s.issueOp m .cp d (.stream h) fun s n => s.modCore m fun q => q.setHandle h
            { st := .stream, base := x.base, bytes := x.bytes, slots := x.slots, desc := bytes, opNum := n }

/-- A cluster's permutation table as a function of the entry. -/
def Cluster.permEntry (x : Cluster) (i : Nat) : Nat := (x.perm.get i (BitVec.ofNat 9 (i % 512))).toNat

/-- A stream goes on: its work runs, or is over and operations of it still take its slots (R239, R244). -/
def State.streamGoes (s : State) (o : EngOp) : Bool :=
  if (s.core o.core).inst = o.inst then (s.core o.core).pre == .run else !s.isSaved o.core o.inst

/-- Fills the next free slot of a stream: committed, or the stream fails, or it waits (R174). -/
def State.fillSlot (s : State) (o : EngOp) (h : HReg) : State :=
  let x := s.opHandle o.core o.inst h
  let slot := (x.slotAt x.q).toNat
  if x.st != .stream || x.free = 0 || !s.streamGoes o || !s.writeTurn o slot x.bytes then s
  else
    let failed := fun (s : State) (st : Byte) (i : Word) =>
      (s.modOpHandle o.core o.inst h fun x => { x with fault := true, status := st, info := i }).opComplete (s.current o) st 0xFF i
    match stagesOf (s.cluster (clusterOf o.core)).permEntry x.desc, s.ownStores o with
    | .error _, _ | .ok _, none => s
    | .ok sts, some s =>
      match stagesBad sts with
      | some e => failed s 5 (BitVec.ofNat 64 e)
      | none =>
        let total := stagesTotal (patTotal x.desc) sts
        let n := min x.bytes (total - x.committed)
        match s.streamBytes o x.desc sts x.committed n x.committed with
        | .wait s => s
        | .fail s st i => failed s st i
        | .ok s (bs, bad) =>
          match s.engWrite o (x.bytes / 32 + 2) slot (padTo x.bytes bs) with
          | .wait s => s
          | .fail s st i => failed s st i
          | .ok s _ =>
            let fin := decide (total ≤ x.committed + n)
            let s := s.modOpHandle o.core o.inst h fun x =>
              { x.produce 1 with committed := x.committed + n, exhausted := fin }
            let s := if (s.core o.core).inst = o.inst then s.modCore o.core fun q => q.countEvent 0x0020 bad else s
            if fin then s.opComplete (s.current o) 0 0xFF 0 else s

/-- STREAM_SLOT_FILL (R174): of the stream that a core's handle is bound to; one of work that is over goes on for the
operations that still take its slots. -/
def execStreamSlotFill (c : CoreId) (h : HReg) (s : State) : Host.Outcome State Fault Refusal :=
  .next ((s.ops.filter fun o => o.core == c && o.kind == .stream h).foldl (fun s o => s.fillSlot (s.current o) h) s)

end Sys2Proof.Machine
end

