-- ==== Sys2Proof/Machine/Copies.lean ====
section
/-! DEFINITION. Copies, ternarising copies and gathers (06_matrix_stream R158, R175 to R179). -/
namespace Sys2Proof.Machine
open Sys2Proof

/-! ## Issue -/

/-- Issues a copy-unit operation through the job queue (R158). -/
def State.issueCopy (s : State) (c : CoreId) (yld : Bool) (d : SReg) (kind : OpKind) : Res :=
  if 16 ≤ (s.cluster (clusterOf c)).queued then .wait
  else
    s.issueOp c .cp d kind fun s n =>
      let j : JobRef := ⟨c, (s.core c).inst, .cp, n⟩
      match s.jobOp j with
      | none => s
      | some o => (s.setOp { o with queued := true }).offerJob c yld j

/-- The part of [a, a + n) that reaches global memory through the stack overflow area, where it leads (R231). -/
def Core.overflowPart (q : Core) (a n : Nat) : Nat × Nat :=
  let lo := stackBase + q.grants.stack
  let start := max a lo
  (q.ovfBase.toNat + (start - lo), min (a + n) (lo + q.grants.ovf) - start)

/-- An idempotent task's write of `n` bytes at `a` reaches global memory, through the global window or the stack overflow area,
outside its declared outputs (R157, R231). -/
def Core.undeclared (q : Core) (a n : Nat) : Bool :=
  let (t, k) := q.overflowPart a n
  q.idem && n != 0 && ((isGlobal a && !q.declared a n) || !q.declared t k)

def execCpy (c : Ctl) (d dst src len : SReg) (s : State) : Host.Outcome State Fault Refusal :=
  runWord (.cpy c d dst src len) s fun m s =>
    let q := s.core m
    let n := (q.rs len).toNat
    let b := q.rs src
    let a := q.rs dst
    if 2 ^ 32 < n then .trap .illegalOp (illegalInfo ⟨0x05, 3⟩)
    else if n = 0 then
      s.issueOp m .cp d (.copy a b 0) fun s k => s.jobDone ⟨m, (s.core m).inst, .cp, k⟩ 0 0xFF 0
    else if q.undeclared a.toNat n then .trap .nonidemOp 0
    else
      match s.rangesFail m [(accRead, b, n), (accWrite, a, n)] with
      | some r => r
      | none => s.issueCopy m c.yld d (.copy a b n)

/-- A pattern writes global memory outside the declared outputs of an idempotent task. -/
def Core.undeclaredPat (q : Core) (p : List Byte) : Bool :=
  q.idem && (List.range (patCount p 1 * patCount p 2 * patCount p 3)).any fun r =>
    q.undeclared (patAddr p (r * patRun p)) (patRun p)

/-- The byte offset of BAD_DESC where no field is named (log 34). -/
def openDesc (n sub : Nat) : Res := badDesc (Config.descOffset n).toNat sub

/-- CPYT (R176). Its addresses, and those of a stream and of CTHR, are checked when they are reached, R57's no-spill block
among these checks: the engine fails the operation there and the instruction does not trap (DESIGN CHOICE, log 29). -/
def execCpyt (c : Ctl) (d b : SReg) (s : State) : Host.Outcome State Fault Refusal :=
  runWord (.cpyt c d b) s fun m s =>
    s.loadData m ((s.core m).rs b) 64 64 fun s bytes =>
      match patBad (bytes.take 32), patBad (bytes.drop 32) with
      | some off, _ => badDesc off 7
      | none, some off => badDesc (32 + off) 7
      | none, none =>
        if patTotal (bytes.take 32) != patTotal (bytes.drop 32) then openDesc 0 7
        else if (s.core m).undeclaredPat (bytes.drop 32) then .trap .nonidemOp 0
        else s.issueCopy m c.yld d (.pattern bytes)

/-! ## CTHR (R177) -/

/-- The first field of the descriptor outside its range (log 35). -/
def thBad (d : List Byte) : Option Nat :=
  if leAt d 0 8 % 2 != 0 then some 0
  else if thGroups d = 0 || 2 ^ 24 < thGroups d then some 8
  else if thG d = 0 || 1024 < thG d then some 12
  else if leAt d 15 1 != 0 then some 15
  else if thStep d < thBytes d then some 24
  else if leAt d 28 4 != 0 then some 28
  else none

/-- A W address whose range of `n` bytes leaves its partition. -/
def pastPart (w n : Nat) : Bool := w / 2 ^ 29 != 0 || decide (2 ^ 26 < w % 2 ^ 26 + n)

/-- CTHR; an idempotent task's undeclared target traps before a range past its partition fails (DESIGN CHOICE, log 83). -/
def execCthr (c : Ctl) (d b : SReg) (s : State) : Host.Outcome State Fault Refusal :=
  runWord (.cthr c d b) s fun m s =>
    s.loadData m ((s.core m).rs b) 32 32 fun s bytes =>
      let q := s.core m
      match thBad bytes with
      | some off => badDesc off 7
      | none =>
        let ng := thGroups bytes
        if q.idem && !((List.range ng).all fun g => q.declaredW (thT bytes + g * thStep bytes) (thBytes bytes)
            && q.declaredW (thS bytes + g) 1) then .trap .nonidemOp 0
        else if pastPart (thT bytes) ((ng - 1) * thStep bytes + thBytes bytes) then
          .trap .addrFault (BitVec.ofNat 64 (thT bytes))
        else if pastPart (thS bytes) ng then .trap .addrFault (BitVec.ofNat 64 (thS bytes))
        else s.issueCopy m c.yld d (.ternarise bytes)

/-! ## Units of copies (R155, R175 to R177)

The bytes that an operation makes become visible in whole beats of 32 bytes (R100, R165, R277): a beat lands when no byte
of it has still to be made. -/

/-- A copy-unit operation has left the job queue. -/
def EngOp.departed (o : EngOp) : Bool := !o.queued

/-- The operation is to fail, once the bytes it has made have landed (R156). -/
def State.failOp (s : State) (o : EngOp) (st : Byte) (i : Word) : State := s.setOp { o with fail := some (st, i) }

/-- An operation that has nothing left to make or to land is over when its writes are home (R277). -/
def State.landBeat (s : State) (o : EngOp) : Beat :=
  if !s.landed o then .wait s
  else
    let (st, i) := o.fail.getD (0, 0)
    .over s st 0xFF i

/-- One source byte: what the operation has itself made for its place, or what stands there (R175). -/
def State.srcByte (s : State) (o : EngOp) (own : Nat → Option Byte) (ea : Nat) : EngRes Byte :=
  match (s.engKey o ea).bind own with
  | some b => .ok s b
  | none => s.engByte o ea

/-- Source bytes of a piece of a copy, in order, each after the piece's own earlier bytes; `dk`: where the piece goes. -/
def State.pieceBytes (s : State) (o : EngOp) (dk : Option Nat) (made : List Byte) : List Nat → EngRes (List Byte)
  | [] => .ok s made
  | a :: r =>
    match s.srcByte o (fun k => dk.bind fun d => if d ≤ k then made[k - d]? else none) a with
    | .wait s => .wait s
    | .fail s st i => .fail s st i
    | .ok s b => s.pieceBytes o dk (made ++ [b]) r

/-- Where the pieces of a copy's destination start, cut at its beats, from the byte `prog` on: the first `n`. -/
def pieceStarts (dst prog n : Nat) : List Nat :=
  (List.range n).map fun k => if k = 0 then prog else alignDown (dst + prog) 32 + 32 * k - dst

/-- The ranges of a copy share no place, so that its pieces may be made in any order. -/
def State.apart (s : State) (o : EngOp) (dst src : Word) (len : Nat) : Bool :=
  (s.keyRuns o [(dst.toNat, len)]).all fun (a, b) =>
    (s.keyRuns o [(src.toNat, len)]).all fun (c, d) => decide (b ≤ c) || decide (d ≤ a)

/-- The piece that is made next, from its start: a line, or one of the beats that are left (R175). -/
def State.nextPiece (s : State) (o : EngOp) (dst src : Word) (len pick : Nat) : Nat × Nat :=
  let beat := fun (x : Nat) => (x, min (len - x) (32 - (dst.toNat + x) % 32))
  if o.ahead.isEmpty && (pick == 0 || !s.apart o dst src len) then (o.prog, lineRoom (dst.toNat + o.prog) (len - o.prog))
  else
    let left := (pieceStarts dst.toNat o.prog (o.ahead.length + pick + 1)).filter fun x => decide (x < len) && !o.ahead.contains x
    beat ((left[pick]?).getD (left.headD o.prog))

/-- A piece is done: the bytes before `prog` are, and pieces beyond it. -/
def EngOp.piece (o : EngOp) (dst : Word) (x n : Nat) : EngOp :=
  if x = o.prog then
    let next := (pieceStarts dst.toNat (x + n) (o.ahead.length + 1)).find? (!o.ahead.contains ·)
    let prog := next.getD (x + n)
    { o with prog := prog, ahead := o.ahead.filter (prog < ·) }
  else { o with ahead := addNew o.ahead x }

/-- Copies the next piece. -/
def State.copyBeat (s : State) (o : EngOp) (dst src : Word) (len pick : Nat) : Beat :=
  if len ≤ o.prog || o.fail.isSome then s.landBeat o
  else
    let (x, n) := s.nextPiece o dst src len pick
    let a := dst.toNat + x
    if !s.writeTurn o a n then .wait s
    else
      match s.pieceBytes o (s.engKey o a) [] (rangeFrom (src.toNat + x) n) with
      | .wait s => .wait s
      | .fail s st i => .more (s.failOp o st i)
      | .ok s bytes =>
        match s.engWriteLine o a bytes with
        | .wait s => .wait s
        | .fail s st i => .more (s.failOp o st i)
        | .ok s _ => .more (s.setOp ((s.current o).piece dst x n))

/-- Where a byte that an operation is to write lies, once the access is checked (R176). -/
def State.engDst (s : State) (o : EngOp) (ea : Nat) : EngRes Nat :=
  match o.view.place ea with
  | none => .fail s 0x12 (BitVec.ofNat 64 ea)
  | some (.lm off) => .ok s (2 ^ 60 + off)
  | some (.glob va _) =>
    match s.engXlat o true ea va with
    | .wait s => .wait s
    | .fail s st i => .fail s st i
    | .ok s x => .ok s (x.key va)

/-- Makes the next byte of a pattern copy. -/
def State.stageByte (s : State) (o : EngOp) (d : List Byte) : EngRes Unit :=
  match s.srcByte o (fun k => (o.stage.find k).map (·.2)) (patAddr (d.take 32) o.prog) with
  | .wait s => .wait s
  | .fail s st i => .fail s st i
  | .ok s b =>
    let ea := patAddr (d.drop 32) o.prog
    match s.engDst o ea with
    | .wait s => .wait s
    | .fail s st i => .fail s st i
    | .ok s k => .ok (s.setOp { o with prog := o.prog + 1, stage := o.stage.set k (ea, b) }) ()

/-- Makes at most `fuel` bytes of a pattern copy. -/
def State.stageBytes (d : List Byte) : Nat → State → EngOp → Beat
  | 0, s, _ => .more s
  | n + 1, s, o =>
    if patTotal (d.take 32) ≤ o.prog then .more s
    else
      match s.stageByte o d with
      | .wait s => .wait s
      | .fail s st i => .more (s.failOp o st i)
      | .ok s _ => State.stageBytes d n s (s.current o)

/-- The staged bytes of a beat are all that the pattern writes to it. -/
def State.beatMade (s : State) (o : EngOp) (d : List Byte) (beat : Nat) : Bool :=
  let p := d.drop 32
  o.fail.isSome || (rangeFrom o.prog (patTotal p - o.prog)).all fun k =>
    (s.engKey o (patAddr p k)).all fun key => key / 32 != beat

/-- Lands the staged bytes of a beat, or of its whole line where they are all there. -/
def State.landStaged (s : State) (o : EngOp) (d : List Byte) (beat : Nat) : Beat :=
  let line := o.stage.filter fun (k, _) => k / 128 == beat / 4
  let whole := line.length == 128 && (rangeFrom (beat / 4 * 4) 4).all (s.beatMade o d ·)
  let mine := if whole then line else o.stage.filter fun (k, _) => k / 32 == beat
  match mine with
  | [] => .wait s
  | (_, ea, _) :: _ =>
    if !(mine.all fun (_, e, _) => s.writeTurn o e 1) then .wait s
    else
      let left := o.stage.filter fun (k, _) => !(mine.any (·.1 == k))
      match s.engWriteCells o ea (mine.map fun (k, _, b) => (k % 128, b)) with
      | .wait s => .wait s
      | .fail s st i => .more (s.setOp { s.current o with stage := left, fail := some (o.fail.getD (st, i)) })
      | .ok s _ => .more (s.setOp { s.current o with stage := left })

/-- One unit of a pattern copy: the next bytes made, or a beat landed, at once where `pick` says so. -/
def State.patternBeat (s : State) (o : EngOp) (d : List Byte) (pick : Nat) : Beat :=
  let made := decide (patTotal (d.take 32) ≤ o.prog) || o.fail.isSome
  if made && o.stage.isEmpty then s.landBeat o
  else
    let ready := (distinct (o.stage.map (·.1 / 32))).filter (s.beatMade o d ·)
    match made, pick, ready[pick - 1]? with
    | true, _, some beat => s.landStaged o d beat
    | true, _, none => s.landStaged o d (((o.stage.map (·.1 / 32)).head?).getD 0)
    | false, 0, _ | false, _, none => State.stageBytes d 32 s o
    | false, _ + 1, some beat => s.landStaged o d beat

/-- No group that CTHR has still to make touches a beat of the W-stack. -/
def EngOp.groupsMade (o : EngOp) (d : List Byte) (beat : Nat) : Bool :=
  let cl := clusterOf o.core
  o.fail.isSome || (rangeFrom o.prog (thGroups d - o.prog)).all fun g =>
    let t := wAddr cl (thT d + g * thStep d)
    (decide (t + thBytes d ≤ 32 * beat) || decide (32 * beat + 32 ≤ t)) && wAddr cl (thS d + g) / 32 != beat

/-- An operation may still write a beat of the W-stack: a CTHR with groups to make, or to land, that touch it. -/
def EngOp.writesBeat (o : EngOp) (beat : Nat) : Bool :=
  match o.kind with
  | .ternarise d => !o.groupsMade d beat || o.out.any fun (a, _) => a / 32 == beat
  | _ => false

/-- Lands a beat of the W-stack that CTHR has made (R165, R250), behind the earlier operations of its context that still
write it (R155). -/
def State.landTrits (s : State) (o : EngOp) (beat : Nat) : State :=
  let mine := o.out.filter fun (a, _) => a / 32 == beat
  let s := s.unback (32 * beat) 32
  let s := { s with wstack := s.wstack.writeCells mine
                    wpoison := if mine.length == 32 then s.wpoison.filter (· != beat) else s.wpoison }
  s.setOp { o with out := o.out.filter fun (a, _) => a / 32 != beat }

/-- No earlier operation of a CTHR's context still writes a beat of the W-stack (R155). -/
def State.tritTurn (s : State) (o : EngOp) (beat : Nat) : Bool :=
  (s.opsOf o.inst).all fun x => !(x.core == o.core && x.tl == o.tl && decide (x.n < o.n) && x.writesBeat beat)

/-- One unit of CTHR: the next group ternarised, or a beat landed, at once where `pick` says so. -/
def State.thBeat (s : State) (o : EngOp) (d : List Byte) (pick : Nat) : Beat :=
  let made := decide (thGroups d ≤ o.prog) || o.fail.isSome
  let ready := (distinct (o.out.map (·.1 / 32))).filter (o.groupsMade d ·)
  let land := fun (beat : Nat) => if s.tritTurn o beat then Beat.more (s.landTrits o beat) else .wait s
  match made, pick, ready[pick - 1]? with
  | true, _, some beat | false, _ + 1, some beat => land beat
  | true, _, none =>
    match o.out with
    | [] => s.landBeat o
    | (a, _) :: _ => land (a / 32)
  | false, _, _ =>
    let n := 2 * thG d
    match s.engBytes o (rangeFrom (leAt d 0 8 + n * o.prog) n) with
    | .wait s => .wait s
    | .fail s st i => .more (s.failOp o st i)
    | .ok s bytes =>
      let (ts, sc, bad) := ternGroup (leAt d 14 1) ((lineElems 2 bytes).map bf16.decodeV)
      let cl := clusterOf o.core
      let trits := t5Pack (thBytes d) ts
      let s := if bad && (s.core o.core).inst = o.inst then s.modCore o.core fun q => q.countEvent 0x0020 1 else s
      .more (s.setOp { s.current o with
        prog := o.prog + 1
        out := (o.out.write (wAddr cl (thT d + o.prog * thStep d)) trits).write (wAddr cl (thS d + o.prog)) (leBytes 1 sc) })

/-! ## Gathers (R178, R179) -/

/-- Indices of a gather: 32-bit lanes. -/
def Core.gatherIdx (q : Core) (v : VReg) : List Nat := (List.range (q.vbits / 32)).map fun e => elem 32 (q.rv v) e

/-- Checks of GTH and GTHM after the handle's state, in this order (R178; the order is a DESIGN CHOICE, log 83). -/
def gatherStop (x : Handle) (n : Nat) (b r : Word) : Option Res :=
  if b.toNat % 32 != 0 then some (.trap .misaligned b)
  else if r.toNat % 32 != 0 || decide (r.toNat < 32) || decide (65536 < r.toNat) then some (.trap .misaligned r)
  else if x.bytes < n * r.toNat then some (openDesc 1 9)
  else none

/-- Elements finished, by the bits of GCM. -/
def gcmDone (g : Vec) (e : Nat) : Bool := g.getLsbD (4 * e)

def execGth (c : Ctl) (d : SReg) (h : HReg) (b : SReg) (idx : VReg) (r : SReg) (s : State) :
    Host.Outcome State Fault Refusal :=
  runWord (.gth c d h b idx r) s fun m s =>
    let q := s.core m
    let x := q.handle h
    let is := q.gatherIdx idx
    if x.st != .ring then .trap .handleState (BitVec.ofNat 64 x.st.code)
    else
      match gatherStop x is.length (q.rs b) (q.rs r) with
      | some r => r
      | none =>
        if x.free < Ctl.slots c then .wait
        else
          s.issueOp m .gt d (.gather h x.q (q.rs b) is (q.rs r).toNat (List.range is.length) []) fun s _ =>
            s.modCore m fun q => q.setHandle h { q.handle h with q := x.q + 1 }

def execGthm (c : Ctl) (d : SReg) (h : HReg) (b : SReg) (idx : VReg) (r : SReg) (s : State) :
    Host.Outcome State Fault Refusal :=
  runWord (.gthm c d h b idx r) s fun m s =>
    let q := s.core m
    let x := q.handle h
    let is := q.gatherIdx idx
    match x.st == .ring, x.failed with
    | false, _ | true, [] => .trap .handleState (BitVec.ofNat 64 x.st.code)
    | true, pos :: rest =>
      match gatherStop x is.length (q.rs b) (q.rs r) with
      | some r => r
      | none =>
        let todo := (List.range is.length).filter fun e => !gcmDone q.gcm e
        s.issueOp m .gt d (.gather h pos (q.rs b) is (q.rs r).toNat todo []) fun s _ =>
          s.modCore m fun q => q.setHandle h { q.handle h with failed := rest }

def execGmsk (c : Ctl) (k : KReg) (op : GmskOp) (s : State) : Host.Outcome State Fault Refusal :=
  runCore (.gmsk c k op) s fun q =>
    match op with
    | .read => q.wk k q.gcm
    | .write => { q with gcm := q.rk k }

/-- Tries one element of a gather; elements with the same index take its row with it. -/
def State.gatherElem (s : State) (o : EngOp) (e : Nat) : State :=
  match o.kind with
  | .gather h pos base idx row todo bad =>
    if !todo.contains e then s
    else
      let a := (base + BitVec.ofNat 64 (idx.getD e 0) * BitVec.ofNat 64 row).toNat
      let keep := fun (s : State) (todo : List Nat) (bad : List (Nat × Nat × Nat)) =>
        s.setOp { o with kind := .gather h pos base idx row todo bad }
      let lost := fun (s : State) (st addr : Nat) => keep s (todo.filter (· != e)) (bad ++ [(e, addr, st)])
      match (rangeFrom a row).find? (!isGlobal ·) with
      | some x => lost s 0x12 x
      | none =>
        match s.engBytes o (rangeFrom a row) with
        | .wait s => s
        | .fail s st i => lost s st.toNat i.toNat
        | .ok s bytes =>
          let same := todo.filter fun f => idx.getD f 0 == idx.getD e 0
          let slot := (s.opHandle o.core o.inst h).slotAt pos
          let s := same.foldl (fun s f =>
            match s.engWrite o (row / 32 + 2) (slot.toNat + f * row) bytes with
            | .ok s _ | .wait s | .fail s _ _ => s) s
          keep s (todo.filter (!same.contains ·)) bad
  | _ => s

/-- Adds a position to those in ascending order. -/
def addPos (l : List Nat) (pos : Nat) : List Nat := l.takeWhile (· < pos) ++ pos :: l.dropWhile (· < pos)

/-- The core's completion mask; one of saved work also in its record (R179, R246). -/
def State.setGcm (s : State) (o : EngOp) (mask : Vec) : State :=
  if (s.core o.core).inst = o.inst then s.modCore o.core fun q => { q with gcm := mask }
  else
    match s.savedOf o with
    | none => s
    | some r =>
      { s with saved := s.saved.map fun (y : SavedRec) =>
          if y.core = o.core && y.inst = o.inst then { y with snap := { y.snap with gcm := mask } } else y }.paWrite
        (s.coreRecord r.ctx o.core + 0xFC0) (leBytes 32 mask.toNat)

/-- One unit of a gather, whose engine has received it by then (R228): every element is tried once; when none is left, the slot is committed or the gather fails. A
failed slot takes its place among the handle's others in the order of their claims. -/
def State.gatherBeat (s : State) (o : EngOp) : Beat :=
  match o.kind with
  | .gather h pos _ _ _ todo _ =>
    let x := s.opHandle o.core o.inst h
    if !s.writeTurn o (x.slotAt pos).toNat x.bytes then .wait s
    else
    let s := if o.prog = 0 then (s.setOp { o with prog := 1 }).receipt o.core 3 else s
    let s := todo.foldl (fun s e => s.gatherElem (s.current o) e) s
    match (s.current o).kind with
    | .gather h pos _ idx _ [] [] =>
      .over (s.modOpHandle o.core o.inst h fun x => x.commitP pos) 0 0xFF (BitVec.ofNat 64 idx.length)
    | .gather h pos _ idx _ [] (b :: bs) =>
      let lost := (b :: bs).map (·.1)
      let first := (b :: bs).foldl (fun x y => if y.1 < x.1 then y else x) b
      let mask := (List.range idx.length).foldl (fun (g : Vec) e => if lost.contains e then g else g ||| (1#256 <<< (4 * e))) 0
      let s := s.modOpHandle o.core o.inst h fun x => { x with failed := addPos x.failed pos }
      .over (s.setGcm o mask) 0x20 0xFF (Config.gatherInfo first.1 first.2.1 first.2.2)
    | _ => .wait s
  | _ => .wait s

/-! ## Lines that an engine refers to (R312) -/

/-- Whether a line meets a range of a context. -/
def State.lineOf (s : State) (ctx : Nat) (a : Word) (n line : Nat) : Bool := lineIn (s.rangeLines ctx a.toNat n) line

/-- Whether a line meets a run of a pattern, from its byte `k` on. -/
def State.lineOfPat (s : State) (ctx : Nat) (p : List Byte) (k line : Nat) : Bool :=
  let n := patRun p
  (List.range (patCount p 1 * patCount p 2 * patCount p 3)).any fun r =>
    let a := max (r * n) k
    decide (a < (r + 1) * n) && s.lineOf ctx (BitVec.ofNat 64 (patAddr p a)) ((r + 1) * n - a) line

/-- The parts of a copy that are still to be done, each from, and how long. -/
def EngOp.undone (o : EngOp) (dst : Word) (len : Nat) : List (Nat × Nat) :=
  if o.ahead.isEmpty then [(o.prog, len - o.prog)]
  else ((pieceStarts dst.toNat o.prog ((len - o.prog) / 32 + 2)).filter fun x => decide (x < len) && !o.ahead.contains x).map
    fun x => (x, min (len - x) (32 - (dst.toNat + x) % 32))

/-- ER (R312, R314): the line is the source or target of what is still to be done of a copy, a gather or a put. Slots of a ring
lie in local memory. -/
def State.engineLine (s : State) (line : Nat) : Bool :=
  s.ops.any fun o =>
    match o.kind with
    | .copy dst src len => (o.undone dst len).any fun (x, n) =>
        s.lineOf o.ctx (src + BitVec.ofNat 64 x) n line || s.lineOf o.ctx (dst + BitVec.ofNat 64 x) n line
    | .pattern d => s.lineOfPat o.ctx (d.take 32) o.prog line || s.lineOfPat o.ctx (d.drop 32) o.prog line
        || o.stage.any fun (k, _) => k / 128 == line
    | .ternarise d => s.lineOf o.ctx (BitVec.ofNat 64 (leAt d 0 8 + 2 * thG d * o.prog)) (2 * thG d * (thGroups d - o.prog)) line
    | .put _ _ src len => (rangeFrom (8 * o.sent.length) (len / 32 - 8 * o.sent.length)).any fun b =>
        (o.stage.find (32 * b)).isNone && s.lineOf o.ctx (src + BitVec.ofNat 64 (32 * b)) 32 line
    | .gather _ _ base idx row todo _ => todo.any fun e =>
        s.lineOf o.ctx (base + BitVec.ofNat 64 (idx.getD e 0) * BitVec.ofNat 64 row) row line
    | .stream .. | .flush .. | .load .. | .scale .. | .perm .. | .zero .. | .accWrite .. | .matrix .. | .flag ..
    | .send .. | .recv .. => false

end Sys2Proof.Machine
end

