-- ==== Sys2Proof/Machine/UpdateWords.lean ====
section
/-! DEFINITION. Update regions and emissions, and the events of the sorters (06_matrix_stream R180 to R183,
20_update_streams R366 to R376). -/
namespace Sys2Proof.Machine
open Sys2Proof

/-! ## UREG (R181) -/

/-- Where the windows, the stack, the share and the view of a page end or begin inside a range (R85 to R88, R316). -/
def State.rangeEdges (s : State) (c : CoreId) (base n : Nat) : List Nat :=
  let q := s.core c
  let pages := base :: (rangeFrom (base / 4096 + 1) ((base + n - 1) / 4096 - base / 4096)).map (4096 * ·)
  let views := pages.filterMap fun a =>
    match q.place a with
    | some (.glob va _) =>
      match s.look c q.ctxNum va with
      | .ok x => (s.viewGeom (viewRegion (x.key va))).map fun g => a + (g.bytes - viewOffset (x.key va))
      | .error _ => none
    | some (.lm _) | none => none
  let fixed := [stackBase, stackBase + q.grants.stack, stackBase + q.grants.stack + q.grants.ovf, stackBase + 2 ^ 33
    , scratchBase, scratchBase + q.grants.shareBase, scratchBase + q.grants.shareBase + q.grants.shareSize
    , scratchBase + 2 ^ 22]
  (fixed ++ views).filter fun a => decide (base < a) && decide (a < base + n)

/-- A store over a whole range of the global window, at every byte where a check may change its answer, ascending. -/
def State.rangeProbes (s : State) (c : CoreId) (base n : Nat) : List Nat :=
  let pages := base :: (rangeFrom (base / 4096 + 1) ((base + n - 1) / 4096 - base / 4096)).map (4096 * ·) ++ [base + n - 1]
  (s.rangeEdges c base n).foldl (fun l a => l.takeWhile (· < a) ++ a :: l.dropWhile (· < a)) pages

/-- Checks of R101 over a range, as a store that must lie in the global window. -/
def State.regionFail (s : State) (c : CoreId) (base n : Nat) : Option Res :=
  let f : Option (Nat × MemFail) := (s.rangeProbes c base n).foldl (fun f a =>
    firstFail f (s.byteFail c ⟨true, 1, true, false⟩ (BitVec.ofNat 64 a) a)) none
  match (f.map Prod.snd : Option MemFail) with
  | some (.trap cause info) => some (.trap cause info)
  | some (.page va bad code) => some (.page va bad code)
  | none => none

/-- Regions of a context that meet a range. -/
def State.regionsMeeting (s : State) (ctx base n : Nat) : List (Nat × Region) :=
  s.regions.filter fun (_, g) => g.ctx == ctx && decide (g.base < base + n) && decide (base < g.base + g.len)

/-- The lines of a new region leave every cache, and what cores have buffered, read ahead or outstanding on them goes home
past L1 (R181, R263, R374). -/
def State.uncacheRegion (s : State) (g : Region) : State :=
  let runs := s.rangeLines g.ctx g.base g.len
  let s := (s.l1SweepAll true fun line _ => lineIn runs line).l2EvictAll fun line _ => lineIn runs line
  { s with cores := s.cores.mapVals fun _ q =>
      { q with
        stores := q.stores.map fun p =>
          if !p.loc && p.cells.any (fun (a, _) => lineIn runs (a / 128)) then { p with bypass := true } else p
        loads := q.loads.map fun l =>
          { l with lanes := l.lanes.map fun a => if lineIn runs (a.pa / 128) then { a with bypass := true } else a }
        early := q.early.filter fun (a, _) => !lineIn runs (a / 128) } }

/-- The translations of a range's pages, as its registration pins them (R181). -/
def State.pinPages (s : State) (c : CoreId) (ctx base n : Nat) : State × List TlbEntry :=
  (base :: (rangeFrom (base / 4096 + 1) ((base + n - 1) / 4096 - base / 4096)).map (4096 * ·)).foldl (fun (s, l) a =>
    if (tlbFind l ctx a).isSome then (s, l)
    else
      match s.xlat c ctx a true with
      | (s, .ok x) => (s, ⟨ctx, x.base, x.size, BitVec.ofNat 64 x.leaf, x.pte⟩ :: l)
      | (s, .error _) => (s, l)) (s, [])

/-- What registers a region: its pages pinned, its lines in no cache. -/
def State.newRegion (s : State) (c : CoreId) (g : Region) : State × Region :=
  let (s, pins) := s.pinPages c g.ctx g.base g.len
  (s.uncacheRegion g, { g with pins := pins })

/-- Puts a handle into UPDATE on a region; the core's count of pairs starts with its first handle (R368). -/
def State.joinRegion (s : State) (c : CoreId) (h : HReg) (r : Nat) (g : Region) : State :=
  let launch := ((s.core c).work.map (·.launch)).getD 0
  let seqs := if g.handles.any (·.1 == c) then g.seqs else g.seqs.set c 0
  let g := { g with handles := g.handles ++ [(c, h)], launches := addNew g.launches launch, seqs := seqs }
  ({ s with regions := s.regions.set r g }).modCore c fun q =>
    q.setHandle h { q.handle h with st := .update, region := some r }

def execUreg (c : Ctl) (h : HReg) (base len : SReg) (op : Byte) (s : State) : Host.Outcome State Fault Refusal :=
  runWord (.ureg c h base len op) s fun m s =>
    let s := s.retireRegions
    let q := s.core m
    let x := q.handle h
    let a := q.rs base
    let n := (q.rs len).toNat
    if q.grants.handles ≤ h.toNat then .trap .handleState 0x10
    else if x.st == .ring || x.st == .stream then .trap .handleState (BitVec.ofNat 64 x.st.code)
    else
    match UpdOp.ofCode op.toNat with
    | none => .trap .illegalOp (illegalInfo ⟨0x05, 3⟩)
    | some op =>
    if n % 128 != 0 || n < 128 || 2 ^ 32 < n then .trap .illegalOp (illegalInfo ⟨0x05, 2⟩)
    else if a.toNat % 128 != 0 then .trap .misaligned a
    else
      match s.regionFail m a.toNat n with
      | some r => r
      | none =>
        let met := s.regionsMeeting q.ctxNum a.toNat n
        let others := fun (g : Region) => g.handles.filter (· != (m, h))
        let same := fun (g : Region) => g.base == a.toNat && g.len == n && g.op == op
        match met.find? fun (_, g) => !(others g).isEmpty && !same g with
        | some (_, g) => .trap .updOverlap (BitVec.ofNat 64 g.base)
        | none =>
          if x.st == .update then .arrived (s.unbindRegion m h)
          else if met.any fun (_, g) => g.handles.isEmpty then .wait
          else
            match met with
            | (r, g) :: _ => .done (s.joinRegion m h r g)
            | [] =>
              let (s, g) := ({ s with nextOp := s.nextOp + 1 } : State).newRegion m
                { ctx := q.ctxNum, base := a.toNat, len := n, op := op }
              .done (s.joinRegion m h (s.nextOp - 1) g)

/-! ## Emissions (R182, R367, R368) -/

/-- Sends numbered pairs: each takes a credit. -/
def State.sendPairs (s : State) (c : CoreId) (ps : List Pair) : State :=
  ps.foldl (fun s p =>
    match s.region p.region with
    | none => s
    | some g =>
      let n := g.seqs.get c 0
      let s := { s with regions := s.regions.set p.region { g with seqs := g.seqs.set c (n + 1) }
                        flight := s.flight ++ [{ p with src := c, seq := n % 2 ^ 48, num := s.pairsOut }]
                        pairsOut := s.pairsOut + 1 }
      s.modCore c fun q => { q with credits := q.credits - 1 }) s

/-- The core's own earlier stores to the lines of pairs drain before the pairs leave (R278): none while some cannot. -/
def State.pairsBehind (s : State) (c : CoreId) (ps : List Pair) : Option State :=
  let lines := ps.filterMap fun p => (s.pairLoc p).map fun (pk, _) => pk / 128
  let mine := fun (p : PendStore) => !p.loc && p.cells.any fun (a, _) => lines.contains (a / 128)
  let s := s.drainWhere c mine
  if (s.core c).stores.any mine then none else some s

/-- Emits the pairs of one instruction: (offset, value); an offset past the region traps with `info` of its element. -/
def State.emission (s : State) (c : CoreId) (h : HReg) (ps : List (Nat × Nat × Nat)) (info : Nat → Nat → Word) : Res :=
  let q := s.core c
  let x := q.handle h
  match x.st, x.region.bind s.region with
  | .unbound, _ => .trap .handleUnbound (h.setWidth 64)
  | .ring, _ | .stream, _ | .update, none => .trap .handleState (BitVec.ofNat 64 x.st.code)
  | .update, some g =>
    let w := g.op.width / 8
    match ps.find? fun (_, off, _) => decide (g.len / w ≤ off) with
    | some (e, off, _) => .trap .updRange (info e off)
    | none =>
      let pairs := ps.map fun (_, off, v) =>
        (⟨g.ctx, x.region.getD 0, g.base + off * w, c, 0, BitVec.ofNat 64 (v % 2 ^ (8 * w)), 0⟩ : Pair)
      let count := fun (s : State) => s.modCore c fun q => q.countEvent 0x0041 pairs.length
      if q.idem then
        if 4096 < q.upd.length + pairs.length then .trap .updFull 4096
        else .done (count (s.modCore c fun q => { q with upd := q.upd ++ pairs }))
      else
        match (s.fenceGate c clsUe).bind fun s => s.pairsBehind c pairs with
        | none => .wait
        | some s => if (s.core c).credits < pairs.length then .wait else .done (count (s.sendPairs c pairs))

def execUpd (c : Ctl) (h : HReg) (off : SReg) (v : SImm) (s : State) : Host.Outcome State Fault Refusal :=
  runWord (.upd c h off v) s fun m s =>
    let q := s.core m
    s.emission m h [(0, (q.rs off).toNat, (v.val q).toNat)] fun _ o => BitVec.ofNat 64 o

def execUpdv (c : Ctl) (h : HReg) (off v : VReg) (k : KOpt) (s : State) : Host.Outcome State Fault Refusal :=
  runWord (.updv c h off v k) s fun m s =>
    let q := s.core m
    let w := (((q.handle h).region.bind s.region).map (·.op.width)).getD 32
    let n := if w = 64 then q.vbits / 64 else q.vbits / 32
    let es := (List.range n).filter fun e => q.enabled k 32 e
    s.emission m h (es.map fun e => (e, elem 32 (q.rv off) e, elem w (q.rv v) e))
      fun e o => BitVec.ofNat 64 (e * 2 ^ 32 + o)

/-! ## UFLSH and UQRY (R183) -/

/-- The region of a handle that must be in UPDATE. -/
def State.withRegion (s : State) (c : CoreId) (h : HReg) (go : Nat → Region → Res) : Res :=
  let x := (s.core c).handle h
  match x.st, x.region with
  | .update, some r =>
    match s.region r with
    | some g => go r g
    | none => .trap .handleState 3
  | .unbound, _ => .trap .handleUnbound (h.setWidth 64)
  | .ring, _ | .stream, _ | .update, none => .trap .handleState (BitVec.ofNat 64 x.st.code)

def execUflsh (c : Ctl) (d : SReg) (h : HReg) (s : State) : Host.Outcome State Fault Refusal :=
  runWord (.uflsh c d h) s fun m s =>
    s.withRegion m h fun r _ =>
      let (s, n) := s.engIssue m .up (.flush r s.pairsOut)
      .done (s.modCore m fun q => q.ws d (tagOf .up n))

/-- A pair of a region that was among the first `upto` to leave their cores. -/
def inFlush (r upto : Nat) (p : Pair) : Bool := p.region == r && decide (p.num < upto)

/-- A flush of a region is under way: an UFLSH, or what HUNB has started and no step has ended (log 20). -/
def State.flushing (s : State) (r : Nat) (g : Region) : Bool :=
  (s.ops.any fun o => match o.kind with
    | .flush x _ => x == r
    | _ => false) || decide (0 < g.flush)

/-- Pending pairs of a region may be applied though no access asks for it: a flush is under way, or no handle is left and
the region is to end (R376, log 20). -/
def State.applies (s : State) (r : Nat) : Bool := (s.region r).any fun g => s.flushing r g || g.handles.isEmpty

/-- The status word of a region. -/
def State.regionWord (s : State) (r : Nat) (g : Region) : Word :=
  BitVec.ofNat 64 (min (2 ^ 32 - 1) (s.pendingOf r) * 2 ^ 16
    + (if s.sorters.any fun (_, x) => x.spilled.any (·.region == r) then 4 else 0)
    + (if s.flushing r g then 2 else 0) + (if g.poisoned then 1 else 0))

def execUqry (c : Ctl) (d : SReg) (h : HReg) (s : State) : Host.Outcome State Fault Refusal :=
  runWord (.uqry c d h) s fun m s =>
    s.withRegion m h fun r g => .done (s.modCore m fun q => q.ws d (s.regionWord r g))

/-- One unit of UFLSH: its pairs arrive, and the region's pairs at the sorters are applied (R374). -/
def State.flushBeat (s : State) (r upto : Nat) : Beat :=
  let s := s.flight.foldl (fun s p => if inFlush r upto p then
      match s.flight.findIdx? (· == p) with
      | some i => s.arrivePair i
      | none => s
    else s) s
  match s.applyWhere (·.region == r) with
  | none => .wait s
  | some s => if (s.flight ++ s.sorterPairs).any (inFlush r upto) then .wait s else .over s 0 0xFF 0

/-! ## Events of the sorters -/

/-- Regions that are over become plain memory, and launches that waited for them are reported (R376). -/
def State.settleRegions (s : State) : State := s.retireRegions.reportLaunches

/-- UPDATE_PAIR_ARRIVAL (R367, R369). -/
def execUpdatePairArrival (i : Nat) (s : State) : Host.Outcome State Fault Refusal := .next (s.arrivePair i).settleRegions

/-- SORTER_BATCH_CLOSE (R369, R371, R372). -/
def execSorterBatchClose (sorter : Nat) (s : State) : Host.Outcome State Fault Refusal := .next (s.closeBatch sorter)

/-- The flushes that HUNB has started of a context's regions that hold a line end, none of their pairs being left. -/
def State.endFlushes (s : State) (ctx line : Nat) : State :=
  { s with regions := s.regions.map fun (r, g) =>
      if g.ctx == ctx && decide (g.base / 128 ≤ line) && decide (line ≤ (g.base + g.len - 1) / 128)
        && !(s.flight ++ s.sorterPairs).any (inFlush r g.flush) then (r, { g with flush := 0 }) else (r, g) }

/-- The pending pairs that a step of an apply folds: of one line of regions that are flushed or are to end, the first in key
order, as many as the sorters come to (R364, log 20). -/
def State.applyStep (s : State) (ctx line : Nat) : List Pair :=
  let mine := sortPairs (s.sorterPairs.filter fun p => p.ctx == ctx && p.addr / 128 == line && s.applies p.region)
  mine.take (1 + Config.applyCut s.tick % mine.length)

/-- UPDATE_APPLY (R370, R373, R374): pending pairs of one line of a region that is flushed or is to end; a flush that has
none left ends. The apply that an access to the block asks for is part of that access. -/
def execUpdateApply (ctx line : Nat) (s : State) : Host.Outcome State Fault Refusal :=
  match (s.endFlushes ctx line).applyWhere (s.applyStep ctx line).contains with
  | none => .next s
  | some s => .next s.settleRegions

/-- BACKGROUND_FLUSH (R374): the block of a bin that stands full. -/
def execBackgroundFlush (sorter line : Nat) (s : State) : Host.Outcome State Fault Refusal :=
  if (s.sorter sorter).bins.any fun (l, ps) => l == line && decide (binCap ≤ ps.length) then
    match s.applyBlock line with
    | none => .next s
    | some s => .next s.settleRegions
  else .next s

/-! ## ENGINE_OPERATION_COMPLETE (R156) -/

/-- One unit of an operation; `pick`: which, where the operation's units have no fixed order. -/
def State.opUnit (s : State) (o : EngOp) (pick : Nat) : Beat :=
  match o.kind with
  | .load .. | .scale .. | .perm .. | .zero .. | .accWrite .. => s.mxUnit o
  | .flush r upto => s.flushBeat r upto
  | .gather .. => (s.ownStores o).elim (.wait s) fun s => s.gatherBeat o
  | .copy dst src len => if o.departed then (s.ownStores o).elim (.wait s) fun s => s.copyBeat o dst src len pick else .wait s
  | .pattern d => if o.departed then (s.ownStores o).elim (.wait s) fun s => s.patternBeat o d pick else .wait s
  | .ternarise d => if o.departed then (s.ownStores o).elim (.wait s) fun s => s.thBeat o d pick else .wait s
  | .matrix .. | .stream .. | .put .. | .flag .. | .send .. | .recv .. => .wait s

/-- One unit of an operation, and its completion after the last (R156). -/
def State.opBeat (s : State) (o : EngOp) (pick : Nat) : State × Bool :=
  match s.opUnit o pick with
  | .more s => (s, true)
  | .wait s => (s, false)
  | .over s st sl i => ((s.opComplete (s.current o) st sl i).dropOrphans.settleRegions, false)

/-- Units of an operation one after the other, at most `fuel`. -/
def State.opRun : Nat → State → EngOp → State
  | 0, s, _ => s
  | n + 1, s, o =>
    match s.opBeat o 0 with
    | (s, true) => State.opRun n s (s.current o)
    | (s, false) => s

/-- The oldest outstanding operation of a core with a number on a timeline. -/
def State.opNamed (s : State) (c : CoreId) (tl : Timeline) (n : Nat) : Option EngOp :=
  s.ops.find? fun o => o.core == c && o.tl == tl && o.n == n

/-- ENGINE_OPERATION_COMPLETE (R156): the operation does what is left of it and completes; a matrix operation ends. -/
def execEngineOperationComplete (c : CoreId) (tl : Timeline) (n : Nat) (s : State) : Host.Outcome State Fault Refusal :=
  match s.opNamed c tl n with
  | none => .next s
  | some o =>
    match o.kind with
    | .matrix .. =>
      match s.mxOf o with
      | none => .next s
      | some op =>
        match op.kind with
        | .matrix _ d => if op.over d then .next (s.mxEnd (clusterOf c) op d) else .next s
        | _ => .next s
    | _ => .next (State.opRun (2 ^ 40) s o)

end Sys2Proof.Machine
end

