-- ==== Sys2Proof/Machine/SystemWords.lean ====
section
/-! DEFINITION. System, time and counter instructions, the task queue, the end of a task, convoys and TLBI
(03_control_scalar R81, R82, 07_system_instructions R185 to R199, 09_execution R196, R197, R225 to R227). -/
namespace Sys2Proof
open Machine

/-- Registers that only a supervisor writes (R190). -/
def CReg.supervisor : CReg → Bool
  | .spillBase | .spillOvf | .trapCause | .trapPc | .trapInfo | .trapBlk | .trapStatus | .fduty | .droopThr | .droopCfg
  | .tbCfg => true
  | .coreId | .tileId | .clusterId | .dieId | .pkgId | .ctxGen | .status | .uivec | .uiPc | .uiBlk | .uiEn | .uiCause
  | .tbBal | .ec _ | .ecsel _ | .tl _ | .rgPath _ | .lastHostSeq | .lastDevSeq | .member _ => false

end Sys2Proof

namespace Sys2Proof.Machine
open Sys2Proof

/-! ## Traps and returns (R186 to R188) -/

def execTrap (c : Ctl) (imm : BitVec 16) (s : State) : Host.Outcome State Fault Refusal :=
  runWord (.trap c imm) s fun _ _ => .trap .swTrap (imm.setWidth 64)

def execEret (c : Ctl) (mode : EretMode) (s : State) : Host.Outcome State Fault Refusal :=
  runPriv (.eret c mode) s fun m s => s.eretFrom m mode

def execUiret (c : Ctl) (s : State) : Host.Outcome State Fault Refusal :=
  runWord (.uiret c) s fun m s => s.uiretFrom m

/-! ## Control registers (R189, R190, R380, R382, R386) -/

/-- DROOP_CFG of a tile. -/
def Tile.droopCfg (t : Tile) : Nat := (if t.droopEn then 1 else 0) + t.maxd.toNat * 2 ^ 24 + t.alarms.toNat * 2 ^ 32

/-- What a control register of a core reads as. -/
def State.readCr (s : State) (c : CoreId) (r : CReg) : Word :=
  let q := s.core c
  let t := s.tile (tileOf c)
  let n := fun (x : Nat) => BitVec.ofNat 64 x
  match r with
  | .coreId => n c
  | .tileId => n (tileOf c)
  | .clusterId => n (clusterOf c)
  | .dieId => n (dieOf c)
  | .pkgId => n s.ring.pkgId
  | .ctxGen => s.ctxGen q
  | .status => q.status
  | .spillBase => q.spillBase
  | .spillOvf => q.ovfMark
  | .uivec => q.ui.vec
  | .uiPc => q.ui.pc
  | .uiBlk => q.ui.blk
  | .uiEn => q.ui.en.setWidth 64
  | .uiCause => q.ui.cause.setWidth 64
  | .trapCause => q.trap.cause
  | .trapPc => q.trap.pc
  | .trapInfo => q.trap.info
  | .trapBlk => q.trap.blk
  | .trapStatus => q.trap.status
  | .fduty => n (q.duty.toNat + q.opreq.toNat * 256)
  | .droopThr => t.thr.setWidth 64
  | .droopCfg => n t.droopCfg
  | .tbCfg => n (t.fill.toNat + t.cap.toNat * 65536)
  | .tbBal => t.bal.setWidth 64
  | .ec k => (q.ec.get k.toNat 0).setWidth 64
  | .ecsel k => (q.ecsel.get k.toNat 0).setWidth 64
  | .tl t => n (q.tl t).issued
  | .rgPath p => q.rgPath.get p.toNat 0
  | .lastHostSeq => n s.bar0.lastHost
  | .lastDevSeq => n s.lastDev
  | .member b => ((q.bar b.toNat).mem).setWidth 64

/-- DUTY as stored: 1 to 16 (R386). -/
def dutyOf (x : Nat) : BitVec 5 := BitVec.ofNat 5 (max 1 (min 16 (x % 32)))

/-- What a write of `v` to a control register does. Bits without a field, and read-only bits, ignore it; RO registers are
no operand of a write (R189). -/
def State.writeCr (s : State) (c : CoreId) (r : CReg) (v : Word) : State :=
  let core := fun (f : Core → Core) => s.modCore c f
  let tile := fun (f : Tile → Tile) => s.modTile (tileOf c) f
  match r with
  | .spillBase => core fun q => { q with spillBase := v }
  | .spillOvf => core fun q =>
      let a := BitVec.ofNat 64 (alignDown v.toNat 128)
      { q with ovfBase := a, ovfMark := a }
  | .uivec => core fun q => { q with ui := { q.ui with vec := v } }
  | .uiPc => core fun q => { q with ui := { q.ui with pc := v } }
  | .uiBlk => core fun q => { q with ui := { q.ui with blk := v } }
  | .uiEn => core fun q =>
      let q := { q with ui := { q.ui with en := v.setWidth 5 } }
      if q.uiPending then q.wakeFor 1 else q
  | .uiCause => core fun q => { q with ui := { q.ui with cause := q.ui.cause &&& ~~~(v.setWidth 5) } }
  | .trapCause => core fun q => { q with trap := { q.trap with cause := v } }
  | .trapPc => core fun q => { q with trap := { q.trap with pc := v } }
  | .trapInfo => core fun q => { q with trap := { q.trap with info := v } }
  | .trapBlk => core fun q => { q with trap := { q.trap with blk := v } }
  | .trapStatus => core fun q => { q with trap := { q.trap with status := v &&& 0xFF07 } }
  | .fduty => core fun q => { q with duty := dutyOf v.toNat, opreq := v.extractLsb' 8 3 }
  | .droopThr => tile fun t => { t with thr := v.setWidth 8 }
  | .droopCfg => tile fun t => { t with droopEn := v.getLsbD 0, alarms := 0, maxd := 0 }
  | .tbCfg => tile fun t =>
      let cap := v.extractLsb' 16 16
      { t with cap := cap, bal := cap, fill := if v.setWidth 8 = (0 : BitVec 8) then 1 else v.setWidth 8 }
  | .ec k => core fun q => { q with ec := q.ec.set k.toNat (v.setWidth 48) }
  | .ecsel k => core fun q => { q with ecsel := q.ecsel.set k.toNat (v.setWidth 17) }
  | .rgPath p => core fun q => { q with rgPath := q.rgPath.set p.toNat v }
  | .member b => core fun q => q.setMember b.toNat v
  | .coreId | .tileId | .clusterId | .dieId | .pkgId | .ctxGen | .status | .tbBal | .tl _ | .lastHostSeq
  | .lastDevSeq => s

/-- A write on one core: the membership registers have the checks of BARM (R121), then the write, then `after`. -/
def State.crWrite (s : State) (c : CoreId) (r : CReg) (v : Word) (after : State → State) : Res :=
  let fault := match r with
    | .member b => (s.core c).memberFault b.toNat v
    | _ => none
  match fault with
  | some n => .trap .barrierFault (BitVec.ofNat 64 n)
  | none => .done (after (s.writeCr c r v))

/-- A word that writes a control register: privileged when the register is the supervisor's (R189). -/
def runCr (i : Instr) (r : CReg) (s : State) (body : CoreId → State → Res) : Host.Outcome State Fault Refusal :=
  if r.supervisor then runPriv i s body else runWord i s body

def execCrr (c : Ctl) (d : SReg) (cr : CReg) (s : State) : Host.Outcome State Fault Refusal :=
  runWord (.crr c d cr) s fun m s => .done (s.modCore m fun q => q.ws d (s.readCr m cr))

def execCrw (c : Ctl) (a : SImm) (cr : CReg) (s : State) : Host.Outcome State Fault Refusal :=
  runCr (.crw c a cr) cr s fun m s => s.crWrite m cr (a.val (s.core m)) id

/-- ALARMS and MAXD are cleared by CRW only; CRSET and CRCLR leave them, as bits that software does not write. -/
def Tile.keepSensed (old t : Tile) : Tile := { t with alarms := old.alarms, maxd := old.maxd }

/-- CRSET and CRCLR on one core: the old value goes to `d`. -/
def State.crModify (s : State) (c : CoreId) (d : SReg) (r : CReg) (f : Word → Word) : Res :=
  let old := s.readCr c r
  let t := s.tile (tileOf c)
  s.crWrite c r (f old) fun s =>
    (if r == .droopCfg then s.modTile (tileOf c) fun x => t.keepSensed x else s).modCore c fun q => q.ws d old

def execCrset (c : Ctl) (d : SReg) (a : SImm) (cr : CReg) (s : State) : Host.Outcome State Fault Refusal :=
  runCr (.crset c d a cr) cr s fun m s => s.crModify m d cr fun old => old ||| a.val (s.core m)

def execCrclr (c : Ctl) (d : SReg) (a : SImm) (cr : CReg) (s : State) : Host.Outcome State Fault Refusal :=
  runCr (.crclr c d a cr) cr s fun m s => s.crModify m d cr fun old => old &&& ~~~(a.val (s.core m))

/-! ## Time, counters, random numbers (R191 to R195) -/

def execTstamp (c : Ctl) (d : SReg) (s : State) : Host.Outcome State Fault Refusal :=
  runCore (.tstamp c d) s fun q => q.ws d (BitVec.ofNat 64 s.now)

def execCyc (c : Ctl) (d : SReg) (s : State) : Host.Outcome State Fault Refusal :=
  runCore (.cyc c d) s fun q => q.ws d (BitVec.ofNat 64 q.cyc)

def execEcrd (c : Ctl) (d : SReg) (n : BitVec 3) (s : State) : Host.Outcome State Fault Refusal :=
  runCore (.ecrd c d n) s fun q => q.ws d ((q.ec.get n.toNat 0).setWidth 64)

def execEccfg (c : Ctl) (n : BitVec 3) (src : SImm) (s : State) : Host.Outcome State Fault Refusal :=
  runWord (.eccfg c n src) s fun m s =>
    let v := src.val (s.core m)
    if v.toNat / 2 ^ 17 != 0 then .trap .illegalOp (illegalInfo ⟨0x05, 1⟩)
    else .done (s.modCore m fun q =>
      { q with ecsel := q.ecsel.set n.toNat (v.setWidth 17), ec := q.ec.set n.toNat 0 })

/-- FCM (R195). -/
def fcm (k c : BitVec 32) : BitVec 32 :=
  let x := c + k
  let x := x ^^^ (x <<< 7)
  let x := x + 0x6A09E667
  let x := x ^^^ (x >>> 11)
  let x := x + (x <<< 3)
  x ^^^ (x >>> 16)

/-- RNG's result: both halves drawn apart. -/
def rngWord (k x : Word) : Word :=
  fcm (k.extractLsb' 32 32) (x.setWidth 32) ++ fcm (k.setWidth 32) (x.setWidth 32)

def execRng (c : Ctl) (d : SReg) (k x : SImm) (s : State) : Host.Outcome State Fault Refusal :=
  runCore (.rng c d k x) s fun q => q.ws d (rngWord (k.val q) (x.val q))

/-! ## SLEEP and YIELD (R81, R82) -/

def execSleep (c : Ctl) (d : SReg) (t : SImm) (s : State) : Host.Outcome State Fault Refusal :=
  runLeaderWord (.sleep c d t) s fun ms s =>
    let x : Sleep := ⟨d, s.now, t.val (s.core (ms.headD 0))⟩
    .done (ms.foldl (fun s m => s.modCore m fun q => { q with sleep := some x }) s)

/-- The home slice and cluster of a node (R220). -/
def State.nodeSlice (s : State) (ctx : Nat) (x : Node) : Nat :=
  let va := (x.outs.headD (0, 0)).1
  match s.walk ctx va with
  | .error _ => placeSlice va allSlices
  | .ok t => if pteLpm t.leaf = 3 then placeSlice va allSlices else s.homeOf ctx va t.leaf

def State.nodeCluster (s : State) (ctx : Nat) (x : Node) : Nat := s.nodeSlice ctx x / 2

/-- A READY node that the dispatcher may place now: no abort or reattach holds it (R240, R411). -/
def State.nodeOpen (s : State) (ctx : Nat) (x : Node) : Bool :=
  x.st == .ready && x.held.isNone && x.page.isNone && ((s.ctxs.find ctx).any fun k => !k.held)

/-- A cluster's gang reservation still stands. -/
def State.reservation (s : State) (cl : Nat) : Option (Nat × Word × Nat) :=
  match (s.cluster cl).reserved with
  | none => none
  | some (ctx, id, n) =>
    match s.node? ctx id n with
    | none => none
    | some x => if s.nodeOpen ctx x then some (ctx, id, n) else none

/-- A persistent launch of which some core has not ended holds the cluster (R224). -/
def State.persistHolds (s : State) (cl : Nat) : Bool :=
  (s.cluster cl).persist.any fun (ctx, id) =>
    (s.launch? ctx id).any fun l => (clusterCores cl).any fun c => !l.ended.contains c

/-- A cluster is held for a gang node or a persistent program (R223, R224). -/
def State.reservedFor (s : State) (cl : Nat) : Bool := (s.reservation cl).isSome || s.persistHolds cl

/-! ## Ready pools (R221) -/

/-- A node that waits in a pool, with its launch. -/
structure Pooled where
  ctx : Nat
  id : Word
  near : Nat
  n : Nat
  x : Node
  cl : Nat
  deriving DecidableEq, Repr

/-- Priority, highest first, then readiness order. -/
def Pooled.before (a b : Pooled) : Bool :=
  decide (b.x.prio < a.x.prio) || (a.x.prio == b.x.prio && decide (a.x.order < b.x.order))

/-- Every READY node that may be placed, with its home cluster. -/
def State.readyAll (s : State) : List Pooled :=
  s.launches.flatMap fun l =>
    if l.reported then []
    else l.nodes.zipIdx.filterMap fun (x, n) =>
      if s.nodeOpen l.ctx x then some ⟨l.ctx, l.id, l.near, n, x, s.nodeCluster l.ctx x⟩ else none

/-- Nodes that a ready pool holds. -/
def poolCap : Nat := 16384

/-- The pool of a die: the first nodes in readiness order, as many as it holds. -/
def State.pool (s : State) (d : Nat) : List Pooled :=
  let l := s.readyAll.filter fun p => p.cl / 16 == d
  l.filter fun p => decide ((l.filter fun q => decide (q.x.order < p.x.order)).length < poolCap)

/-! ## Idle cores (R222) -/

/-- A core that may take node `n` of a launch: it holds no work, not even in a SLEEP or a wait (R232), no membership held for another node's replay, and a tile that has
the context's split or no work (R302). -/
def State.idleFor (s : State) (ctx : Nat) (id : Word) (n : Nat) (c : CoreId) : Bool :=
  let q := s.core c
  q.work.isNone && s.splitFits c (((s.ctxs.find ctx).map (·.split)).getD 0) && (match q.heldFor with
    | none => true
    | some w => w.ctx == ctx && w.launch == id && w.node == some n)

/-- The first idle core of a cluster at or after its pointer, wrapping; the cores
`free` count as idle. -/
def State.idleCore (s : State) (free : List CoreId) (ctx : Nat) (id : Word) (n cl : Nat) : Option CoreId :=
  (rangeFrom 0 8).findSome? fun i =>
    let c := 8 * cl + ((s.cluster cl).ptr + i) % 8
    if free.contains c || s.idleFor ctx id n c then some c else none

/-- The core on which an aborted instance held memberships for its replay (R222). -/
def State.heldCore (s : State) (p : Pooled) : Option CoreId :=
  (s.cores.find? fun (_, q) => q.heldFor.any fun w => w.ctx == p.ctx && w.launch == p.id && w.node == some p.n).map (·.1)

/-- The clusters of a spill-over, in order (R222). -/
def spillOrder (home : Nat) : List Nat :=
  let d := home / 16
  let k := home % 16
  let quad := (rangeFrom 0 16).map fun i => (k + i) % 16
  ((quad.filter fun i => i / 4 == k / 4).map (16 * d + ·))
    ++ ((quad.filter fun i => i / 4 != k / 4).map (16 * d + ·))
    ++ (rangeFrom 1 3).flatMap fun e => quad.map fun i => 16 * ((d + e) % 4) + i

/-- A node has headed its pool for `near` ns. -/
def State.waitedNear (s : State) (p : Pooled) : Bool := p.x.head.any fun t => decide (p.near ≤ s.now - t)

/-- The core that a node takes by spill-over. -/
def State.spillCore (s : State) (free : List CoreId) (p : Pooled) : Option CoreId :=
  (spillOrder p.cl).findSome? fun cl => if s.reservedFor cl then none else s.idleCore free p.ctx p.id p.n cl

/-- The core that a node of class core would be placed on, were the cores `free` idle (R222). -/
def State.placeCore (s : State) (free : List CoreId) (p : Pooled) : Option CoreId :=
  match s.heldCore p with
  | some c => some c
  | none =>
    match if s.reservedFor p.cl then none else s.idleCore free p.ctx p.id p.n p.cl with
    | some c => some c
    | none => if s.waitedNear p then s.spillCore free p else none

/-- The cores that a yield of their work frees: an aborted task's stay held for its replay where they hold barrier memberships
(R222, R239). -/
def State.yieldFrees (s : State) (c : CoreId) : List CoreId :=
  (s.membersOf c).filter fun m => !(s.core m).idem || ((s.core m).withdraw true).isEmpty

/-- A READY node of the work's context in the die's pool, of a higher priority, that could be placed on this core, or on this cluster for
yielding gang work (R82). -/
def State.yieldsTo (s : State) (c : CoreId) : Bool :=
  match (s.core c).work with
  | none => false
  | some w =>
    match w.node with
    | none => false
    | some n =>
      let prio := ((s.node? w.ctx w.launch n).map (·.prio)).getD 0
      let free := s.yieldFrees c
      (s.pool (dieOf c)).any fun p => p.ctx == w.ctx && decide (prio < p.x.prio) &&
        if p.x.gang then w.gang && p.cl == clusterOf c && free == s.membersOf c && (s.reservation p.cl).all (· == (p.ctx, p.id, p.n))
        else (s.placeCore free p).any free.contains

def execYield (c : Ctl) (s : State) : Host.Outcome State Fault Refusal :=
  runLeaderWord (.yield c) s fun ms s =>
    let l := ms.headD 0
    if s.yieldsTo l then
      .done ((s.membersOf l).foldl (fun s m => s.modCore m fun q => q.request (.preempt 6)) s)
    else .done s

/-! ## The priority queue (R196, R225) -/

def insertByKey (x : PqEntry) : List PqEntry → List PqEntry
  | [] => [x]
  | y :: r =>
    if decide (x.key.toNat < y.key.toNat) || (x.key == y.key && decide (x.push < y.push)) then x :: y :: r
    else y :: insertByKey x r

def insertBySkip (x : PqEntry) : List PqEntry → List PqEntry
  | [] => [x]
  | y :: r =>
    if decide (y.skip < x.skip) || (x.skip == y.skip && decide (x.push < y.push)) then x :: y :: r
    else y :: insertBySkip x r

/-- The 32 entries of a context with the smallest keys, ties by push order, ascending. -/
def pqFront (l : List PqEntry) (ctx : Nat) : List PqEntry :=
  ((l.filter (·.ctx == ctx)).foldl (fun acc x => insertByKey x acc) []).take 32

/-- Whether an entry is due: some fk of the list by skip count stands at 32 − k. -/
def pqDue (bySkip : List PqEntry) : Bool := bySkip.zipIdx.any fun (x, i) => x.skip + (i + 1) == 32

/-- Pop (R225, R232): the entry, and the queue without it; a key that stays among the 32 smallest comes within 32 pops. -/
def pqPop (l : List PqEntry) (ctx : Nat) : Option (PqEntry × List PqEntry) :=
  let front := pqFront l ctx
  let bySkip := front.foldl (fun acc x => insertBySkip x acc) []
  let pick := if pqDue bySkip then bySkip.head? else front.head?
  pick.map fun e =>
    (e, (l.filter fun x => x.push != e.push).map fun x =>
      if x.ctx != ctx then x
      else if front.any (·.push == x.push) then { x with skip := x.skip + 1 } else { x with skip := 0 })

def execTaskget (c : Ctl) (a k l : SReg) (how : How) (s : State) : Host.Outcome State Fault Refusal :=
  runLeaderWord (.taskget c a k l how) s fun ms s =>
    let m := ms.headD 0
    let q := s.core m
    let d := dieOf m
    if q.idem then .trap .nonidemOp 0
    else
      match pqPop (s.die d).pq q.ctxNum with
      | none => if how == .wait then .wait else .done (writeAll ms k (BitVec.allOnes 64) s)
      | some (e, pq) =>
        let s := s.modDie d fun x => { x with pq := pq }
        match s.checkTarget m e.entry kindTask fun s =>
            .jumped ((writeAll ms l q.fallthrough (writeAll ms k (e.key.setWidth 64) (writeAll ms a e.arg s))).goTo ms e.entry)
        with
        | .trap _ _ =>
          -- The trap is taken, and the entry lost, only once earlier words have completed (R98).
          let s' := ms.foldl (fun s m => s.performLoads m) s
          if s'.unsettled ms || (s'.finishFences ms).isNone then .wait
          else if (s.busyVector ms).isSome then .busy m (s.vector q)
          else .jumped (s.preciseTrap ms m .badTarget e.entry q.pc q.blk)
        | r => r

def execTaskput (c : Ctl) (d : PReg) (key : SImm) (e : SReg) (arg : SImm) (s : State) :
    Host.Outcome State Fault Refusal :=
  runWord (.taskput c d key e arg) s fun m s =>
    let q := s.core m
    let die := s.die (dieOf m)
    if q.idem then .trap .nonidemOp 0
    else if (q.rs e).toNat % 8 != 0 then .trap .misaligned (q.rs e)
    else if 65536 ≤ die.pq.length then .done (s.modCore m fun q => q.wp d false)
    else
      let x : PqEntry := ⟨q.ctxNum, (key.val q).setWidth 32, q.rs e, arg.val q, 0, die.pushes⟩
      let s := s.modDie (dieOf m) fun y => { y with pq := y.pq ++ [x], pushes := y.pushes + 1 }
      .done (s.modCore m fun q => q.wp d true)

/-! ## The end of work (R197) -/

/-- The pairs of a core go to the sorters: those that travel, then those of an idempotent task's update buffer, each taking a
credit and giving it back (R182, R218, R278, R367). None: a pair finds no place or no credit. -/
def State.releaseUpd (s : State) (c : CoreId) : Option State :=
  (s.arriveFully c).bind fun s => (s.core c).upd.foldl (fun (r : Option State) p => r.bind fun s =>
    if (s.core c).credits = 0 then none else (s.sendPairs c [p]).arriveFully c)
    (some (s.modCore c fun q => { q with upd := [] }))

/-- The steps of TASKEND on one core: its stores are performed at package scope, its pairs arrive at their sorters behind them
(R278), and its UPDATE handles are released. None: a pair or a store still has to wait. -/
def State.finishCore (s : State) (c : CoreId) : Option State :=
  (s.releaseAll c .package).bind fun s =>
  (s.releaseUpd c).map fun s =>
  (List.range 16).foldl (fun s h =>
    if ((s.core c).handle (BitVec.ofNat 4 h)).st == .update then s.unbindRegion c (BitVec.ofNat 4 h) else s) s

/-- The TASKAB that counts among members that have ended: the first issued, of one word the lowest member's (R197). -/
def State.abortOf (s : State) (ms : List CoreId) : Option (CoreId × Word) :=
  let found := ms.filterMap fun m => match (s.core m).ended with
    | some (.taskAb code order) => some (m, code, order)
    | some .taskEnd | none => none
  (found.foldl (fun (best : Option (CoreId × Word × Nat)) x =>
    match best with
    | none => some x
    | some b => if x.2.2 < b.2.2 then some x else some b) none).map fun x => (x.1, x.2.1)

/-- The completion steps of the members that issued TASKEND. None: one of them has to wait. -/
def State.finishMembers (s : State) : List CoreId → Option State
  | [] => some s
  | m :: ms =>
    if (s.core m).ended == some .taskEnd then
      match s.finishCore m with
      | none => none
      | some s => s.finishMembers ms
    else s.finishMembers ms

/-- The cores of work that has come to its end are free; MGANGs that have not joined are cancelled. -/
def State.leaveCores (s : State) (ms : List CoreId) : State :=
  ms.foldl (fun s m => (s.cancelGangs m).freeWith m Core.finished) s

/-- The node has ended on its last member (R197, R216): ENDING, or, with a TASKAB, FAILED at once. None: the steps of a
member that issued TASKEND have to wait. -/
def State.lastMember (s : State) (c : CoreId) (w : WorkRef) (n : Nat) : Option State :=
  let ms := s.membersOf c
  if ms.any fun m => (s.core m).ended.isNone then some s
  else
    match s.abortOf ms with
    | none => some (s.modNode w.ctx w.launch n fun x => { x with st := .ending })
    | some (m, code) =>
      (s.finishMembers ms).map fun s =>
        let s := s.workEvent 2 m w 0 code 0 0 0
        ((s.leaveCores ms).releaseHeld w.ctx w.launch n).endNode w.ctx w.launch n 0x40 code

/-- The members end their parts of the work, as `how` says of each (R197, R226). -/
def State.endMembers (s : State) (ms : List CoreId) (how : Ended) : Res :=
  let l := ms.headD 0
  let s := (ms.foldl (fun s m => s.modCore m fun q => { q with ended := some how }) s).rejoinConvoy (clusterOf l)
  match (s.core l).work with
  | none => .jumped s
  | some w =>
    match w.node, how with
    | some n, _ =>
      match s.lastMember l w n with
      | none => .wait
      | some s => .jumped s
    | none, .taskEnd => .jumped s
    | none, .taskAb code _ =>
      let s := ms.foldl (fun s m => s.workEvent 2 m w 0 code 0 0 0) s
      .jumped (ms.foldl (fun s m => s.endPersistent m w) (s.leaveCores ms))

/-- C = I on all five timelines. -/
def Core.quiet (q : Core) : Bool := [Timeline.mx, .cp, .gt, .up, .rg].all fun t => (q.tl t).done == (q.tl t).issued

def execTaskend (c : Ctl) (s : State) : Host.Outcome State Fault Refusal :=
  runLeaderWord (.taskend c) s fun ms s =>
    if ms.all fun m => (s.core m).quiet then s.endMembers ms .taskEnd else .wait

def execTaskab (c : Ctl) (code : SImm) (s : State) : Host.Outcome State Fault Refusal :=
  runLeaderWord (.taskab c code) s fun ms s =>
    let v : Word := (((code.val (s.core (ms.headD 0))).setWidth 32 : BitVec 32)).setWidth 64
    ({ s with orders := s.orders + 1 } : State).endMembers ms (.taskAb v s.orders)

/-- The status of work that ended by TASKEND: PAGE_DENIED before DATA_UE, else OK (R197, R217). -/
def State.endStatus (s : State) (ms : List CoreId) : Byte :=
  let fails := ms.filterMap fun m => (s.core m).engFail
  if fails.contains 0x10 then 0x10 else if fails.contains 0x13 then 0x13 else 0

/-- TASK_COMPLETION_REPORT (R197, R224): a node in ENDING, or, with node 0xFFFFFFFF, the ended cores of a persistent
launch. A request that has found the node in ENDING is dropped and reported first (R207). -/
def execTaskCompletionReport (ctx launch node : Nat) (s : State) : Host.Outcome State Fault Refusal :=
  let id := BitVec.ofNat 64 launch
  let mine := fun (w : WorkRef) => w.ctx == ctx && w.launch == id && w.node == (if node = 0xFFFFFFFF then none else some node)
  let cores := (s.cores.filter fun (_, q) => q.work.any mine && q.ended == some .taskEnd).map (·.1)
  if node = 0xFFFFFFFF then
    .next (cores.foldl (fun s c =>
      match (s.core c).work, s.finishCore c with
      | some w, some s => (s.leaveCores [c]).endPersistent c w
      | none, _ | _, none => s) s)
  else
    match s.node? ctx id node with
    | none => .next s
    | some x =>
      if x.st != .ending || cores.any fun c => (s.core c).req.isSome then .next s
      else
        match s.finishMembers cores with
        | none => .next s
        | some s =>
          let status := s.endStatus cores
          .next (((s.leaveCores cores).releaseHeld ctx id node).endNode ctx id node status 0)

/-! ## Convoys (R198, R226, R227) -/

def execConvoy (c : Ctl) (op : ConvoyOp) (s : State) : Host.Outcome State Fault Refusal :=
  runLeaderWord (.convoy c op) s fun ms s =>
    let l := ms.headD 0
    let q := s.core l
    match op with
    | .off => .done (if q.convoy then s.dissolve ms none else s)
    | .on b =>
      let x := q.bar b.toNat
      if q.convoy then
        if x.st == .done && x.mark == some q.pc && x.arr == some .convoy then
          .done (ms.foldl (fun s m => s.leaveBarrier m b.toNat) s)
        else .trap .barrierFault (if memOn x.mem then 3 else 5)
      else s.arrive l b.toNat (fun _ => .convoy) true (fun _ => true) (fun _ => none) fun _ => none

/-! ## TLBI (R199, R308, R309) -/

/-- A translation that a TLBI drops. -/
def TlbEntry.dropped (t : TlbEntry) (mode : TlbiMode) (ctx va : Nat) : Bool :=
  t.ctx == ctx && match mode with
    | .page => t.va ≤ va && va < t.va + t.size
    | .context => true
    | .stable => pteStb t.leaf.toNat

/-- The cores within a scope of a core. -/
def tlbiReach (scope : TlbiScope) (a b : CoreId) : Bool :=
  match scope with
  | .cluster => clusterOf a == clusterOf b
  | .die => dieOf a == dieOf b
  | .package => true

def tlbiFence : TlbiScope → Scope
  | .cluster => .cluster
  | .die => .die
  | .package => .package

def execTlbi (c : Ctl) (mode : TlbiMode) (a : SReg) (reach : TlbiScope) (s : State) :
    Host.Outcome State Fault Refusal :=
  runPriv (.tlbi c mode a reach) s fun m s =>
    let q := s.core m
    match s.fenceSteps m { pred := clsGs, succ := clsGl ||| clsGs, scope := tlbiFence reach, upto := q.issue } with
    | none => .wait
    | some s =>
      let s := s.tlbDropAll (fun k => mode == .stable || tlbiReach reach m k)
        (fun t => t.dropped mode q.ctxNum (q.rs a).toNat || (mode == .stable && t.ctx == q.ctxNum && s.pageStb t.ctx t.va)) fun w => w.ctx == q.ctxNum
      .done (if mode == .stable then s.l1SweepAll true (fun line l => l.stb || s.lineStb line) else s)

/-! ## A word without an instruction (R63) -/

def execUnassignedOpcode (w : Word) (s : State) : Host.Outcome State Fault Refusal :=
  let ms := s.convoyOf s.cur
  let l := ms.headD s.cur
  if (ms.all fun m => (s.core m).issuing) && opcodeUnassigned w then
    .next (s.preciseTrap ms l .illegalOp (illegalInfo ⟨0x01, 0xFF⟩) (s.core l).pc (s.core l).blk)
  else .next s

end Sys2Proof.Machine
end

