-- ==== Sys2Proof/Machine/RingWords.lean ====
section
/-! DEFINITION. The ring: puts, flags, sends and receives, packets performed here, and the links (07 R199 to R202,
11_program_ring R255 to R258, 23 R412, R413). A ring context is numbered 512 × context + package core number, of the core on
which its work was dispatched (log 38). -/
namespace Sys2Proof.Machine
open Sys2Proof

/-! ## Links and paths (R199, R413) -/

def State.link (s : State) (p : Nat) : Link := s.ring.links.get p {}
def State.setLink (s : State) (p : Nat) (l : Link) : State := { s with ring := { s.ring with links := s.ring.links.set p l } }
/-- Some path of a list is up. -/
def State.pathUp (s : State) (ps : List Nat) : Bool := ps.any fun p => (s.link p).up
/-- No path of a list is up, and none is training. -/
def State.pathDown (s : State) (ps : List Nat) : Bool := ps.all fun p => !(s.link p).up && !(s.link p).training
/-- The four paths, and those of a port: 0 previous, 1 next. -/
def allPaths : List Nat := [0, 1, 2, 3]
def portPaths (port : Nat) : List Nat := if port = 1 then [0, 1] else [2, 3]

/-- A RING_EVENT record (R409). -/
def State.ringEvent (s : State) (kind p lanes : Nat) : State := s.emit 0x28 [(12, 1, kind), (13, 1, p), (14, 1, lanes)]

/-! ## Ends of operations -/

/-- Puts and flags, which RFENCE waits for and counts. -/
def OpKind.isPut : OpKind → Bool
  | .put .. | .flag .. => true
  | .copy .. | .pattern .. | .ternarise .. | .stream .. | .gather .. | .flush .. | .load .. | .scale .. | .perm ..
  | .zero .. | .accWrite .. | .matrix .. | .send .. | .recv .. => false

/-- Changes what the work of an operation keeps: its core, or its saved record. -/
def State.modIssuer (s : State) (o : EngOp) (f : Core → Core) (g : SavedRec → SavedRec) : State :=
  if (s.core o.core).inst = o.inst then s.modCore o.core f
  else { s with saved := s.saved.map fun r => if r.inst = o.inst && r.core = o.core then g r else r }

/-- A ring operation completes, received by the probes of ring level (R228); a put or flag that failed counts for RFENCE
(R201). -/
def State.ringEnd (s : State) (o : EngOp) (status : Byte) (info : Word) : State :=
  let s := if status != 0 && o.kind.isPut then
      s.modIssuer o (fun q => { q with ringFails := min (2 ^ 64 - 1) (q.ringFails + 1) })
        fun r => { r with ringFails := r.ringFails + 1 }
    else s
  let s := if (s.core o.core).inst = o.inst then s.receipt o.core 5 else s
  (s.opComplete o status 0xFF info).dropOrphans

/-- Information of a ring failure, which the manual does not give (log 36). -/
def ringFailInfo (o : EngOp) : Word := Config.ringInfo o.core o.n

/-- A slot of a receive: its bytes are written, in the saved image where its work is saved, and the slot is committed
(R202, R244). -/
def State.fillRecv (s : State) (o : EngOp) (h : HReg) (pos : Nat) (data : List Byte) : State :=
  let x := s.opHandle o.core o.inst h
  let off := (x.slotAt pos).toNat - scratchBase
  let s := match s.imageAt o off with
    | some pa => s.paWrite pa data
    | none => s.modTile (tileOf o.core) fun t =>
      { t with lm := t.lm.write off data
               poison := t.poison.filter fun l => !(off ≤ 128 * l && 128 * l + 128 ≤ off + data.length) }
  s.modOpHandle o.core o.inst h fun x => x.commitP pos

/-- Ends a send or receive that has failed: the slots it still claims are given back, those of a receive zero-filled
(R202), those of a send as consumed (DESIGN CHOICE, log 85). -/
def State.endSlots (s : State) (o : EngOp) (status : Byte) (info : Word) : State :=
  match o.kind with
  | .send h _ _ first n =>
    let s := (rangeFrom (first + o.acked) (n - o.acked)).foldl
      (fun s p => s.modOpHandle o.core o.inst h fun x => x.commitC p) s
    s.ringEnd o status info
  | .recv h _ _ first n =>
    let b := (s.opHandle o.core o.inst h).bytes
    let s := (rangeFrom (first + o.acked) (n - o.acked)).foldl
      (fun s p => s.fillRecv o h p (List.replicate b 0)) s
    s.ringEnd o status info
  | .copy .. | .pattern .. | .ternarise .. | .stream .. | .gather .. | .flush .. | .load .. | .scale .. | .perm ..
  | .zero .. | .accWrite .. | .matrix .. | .put .. | .flag .. => s.ringEnd o status info

/-! ## Issue (R200 to R202) -/

/-- Uncompleted puts and flags of the work on a core: what counts toward a ring context's operations (R200; that sends and
receives do not is a DESIGN CHOICE, log 85). -/
def State.putsOf (s : State) (c : CoreId) : List EngOp :=
  (s.opsOf (s.core c).inst).filter fun o => o.core == c && o.kind.isPut

/-- Numbers a ring operation; `status` nonzero: it fails at once. -/
def State.ringIssue (s : State) (c : CoreId) (d : SReg) (kind : OpKind) (status : Byte) : Res :=
  let (s, n) := s.engIssue c .rg kind
  let s := match s.op c .rg n with
    | none => s
    | some o => if status = 0 then s else s.endSlots o status (ringFailInfo o)
  .done (s.modCore c fun q => q.ws d (tagOf .rg n))

/-- RING_PKG, or no failure (R199). -/
def State.pkgStatus (s : State) (pkg : Nat) : Byte := if pkg = s.ring.pkgId || s.ring.n ≤ pkg then 0x33 else 0

/-- The fences and the limit of a ring context, then the issue (R110, R200). -/
def State.putIssue (s : State) (c : CoreId) (d : SReg) (pkg : Nat) (kind : OpKind) : Res :=
  match s.fenceGate c clsRp with
  | none => .wait
  | some s => if 256 ≤ (s.putsOf c).length then .wait else s.ringIssue c d kind (s.pkgStatus pkg)

def execRput (c : Ctl) (d : SReg) (pkg : SImm) (dst src : SReg) (len : SImm) (s : State) :
    Host.Outcome State Fault Refusal :=
  runWord (.rput c d pkg dst src len) s fun m s =>
    let q := s.core m
    let n := len.val q
    let p := (pkg.val q).toNat % 16
    if q.idem then .trap .nonidemOp 0
    else if n.toNat % 32 != 0 || n.toNat < 32 || 4096 < n.toNat then .trap .misaligned n
    else if (q.rs dst).toNat % 32 != 0 then .trap .misaligned (q.rs dst)
    else if (q.rs src).toNat % 32 != 0 then .trap .misaligned (q.rs src)
    else
      match s.checkAccess m accRead [⟨q.rs src, n.toNat, 1⟩] with
      | some r => r
      | none => s.putIssue m d p (.put p (q.rs dst) (q.rs src) n.toNat)

def execRflag (c : Ctl) (d : SReg) (pkg : SImm) (dst : SReg) (v : SImm) (s : State) : Host.Outcome State Fault Refusal :=
  runWord (.rflag c d pkg dst v) s fun m s =>
    let q := s.core m
    let p := (pkg.val q).toNat % 16
    if q.idem then .trap .nonidemOp 0
    else if (q.rs dst).toNat % 8 != 0 then .trap .misaligned (q.rs dst)
    else s.putIssue m d p (.flag p (q.rs dst) (v.val q))

/-- RFENCE, which R200's list leaves free to idempotent tasks, though R252 speaks of R200 as forbidding it there (DESIGN
CHOICE, log 79). -/
def execRfence (c : Ctl) (d : SReg) (s : State) : Host.Outcome State Fault Refusal :=
  runWord (.rfence c d) s fun m s =>
    if (s.putsOf m).isEmpty then
      .done (s.modCore m fun q => { q with ringFails := 0 }.ws d (BitVec.ofNat 64 q.ringFails))
    else .wait

/-- The channel of a port that a core may use in a direction: RING_CHAN without one, and RING_DOWN where no path of the
port serves it (R202). -/
def State.chanStatus (s : State) (c : CoreId) (port ch : Nat) (sends : Bool) : Byte :=
  match s.ring.chans.find (16 * port + ch) with
  | some x =>
    if !(x.valid && x.core == c && x.ctx == (s.core c).ctxNum && x.sends == sends) then 0x32
    else if s.pathDown (portPaths port) then 0x30 else 0
  | none => 0x32

def execRsend (c : Ctl) (d : SReg) (h : HReg) (ch : BitVec 5) (s : State) : Host.Outcome State Fault Refusal :=
  runWord (.rsend c d h ch) s fun m s =>
    let q := s.core m
    let x := q.handle h
    let n := Ctl.slots c
    let port := ch.toNat / 16
    if q.idem then .trap .nonidemOp 0
    else
      match x.sourceStop h n with
      | some r => r
      | none =>
        match s.fenceGate m clsRp with
        | none => .wait
        | some s =>
          let status := s.chanStatus m port (ch.toNat % 16) true
          (s.modCore m fun q => q.setHandle h { x with d := x.d + n }).ringIssue m d
            (.send h port (ch.toNat % 16) x.d n) status

def execRrecv (c : Ctl) (d : SReg) (h : HReg) (ch : BitVec 5) (s : State) : Host.Outcome State Fault Refusal :=
  runWord (.rrecv c d h ch) s fun m s =>
    let q := s.core m
    let x := q.handle h
    let n := Ctl.slots c
    let port := ch.toNat / 16
    if q.idem then .trap .nonidemOp 0
    else
      match x.destStop n with
      | some r => r
      | none =>
        match s.fenceGate m clsRp with
        | none => .wait
        | some s =>
          let status := s.chanStatus m port (ch.toNat % 16) false
          (s.modCore m fun q => q.setHandle h { x with q := x.q + n }).ringIssue m d
            (.recv h port (ch.toNat % 16) x.q n) status

/-! ## Packets that leave (R200, R257) -/

/-- Packets of a put or flag. -/
def OpKind.packets : OpKind → Nat
  | .put _ _ _ len => (len + 255) / 256
  | .flag .. => 1
  | .send _ _ _ _ n => n
  | .recv .. | .copy .. | .pattern .. | .ternarise .. | .stream .. | .gather .. | .flush .. | .load .. | .scale ..
  | .perm .. | .zero .. | .accWrite .. | .matrix .. => 0

/-- Key of the count of put packets that an operation's ring context has sent to a package on a path. -/
def EngOp.sentKey (o : EngOp) (pkg path : Nat) : Nat := ((512 * o.ctx + o.rc) * 16 + pkg) * 4 + path

/-- Reads the next beat of a put's source, or one ahead of its packet: bytes read stand by their place in the source (R200,
R258). -/
def State.readBeat (s : State) (o : EngOp) (beat : Nat) : EngRes EngOp :=
  match o.kind with
  | .put _ _ src len =>
    if len ≤ 32 * beat || (o.stage.find (32 * beat)).isSome then .ok s o
    else
      match s.engBytes o ((rangeFrom (32 * beat) 32).map fun i => (src + BitVec.ofNat 64 i).toNat) with
      | .ok s bs =>
        let o := { o with stage := bs.zipIdx.foldl (fun m (b, i) => SMap.set m (32 * beat + i) (0, b)) o.stage, page := none }
        .ok (s.setOp o) o
      | .wait s => .wait s
      | .fail s st i => .fail s st i
  | _ => .ok s o

/-- Reads a beat of a put that is not yet sent, ahead of its packet (R258). -/
def State.ringRead (s : State) (o : EngOp) (beat : Nat) : State :=
  if 32 * beat < 256 * o.sent.length then s
  else
    match s.readBeat o beat with
    | .ok s _ | .wait s => s
    | .fail s st i => s.ringEnd o st i

/-- Reads beats in order. -/
def State.readBeats (s : State) (o : EngOp) : List Nat → EngRes EngOp
  | [] => .ok s o
  | b :: r =>
    match s.readBeat o b with
    | .ok s o => s.readBeats o r
    | .wait s => .wait s
    | .fail s st i => .fail s st i

/-- Key of the count of flags that an operation's ring context has sent to a package. -/
def EngOp.flagKey (o : EngOp) (pkg : Nat) : Nat := (512 * o.ctx + o.rc) * 16 + pkg

/-- Every earlier put of an operation's ring context to a package has sent its packets, and every earlier flag has left
(R200, R256). -/
def State.putsSent (s : State) (o : EngOp) (pkg : Nat) : Bool :=
  (s.ops.takeWhile fun x => !x.same o).all fun x => match x.kind with
    | .put p .. | .flag p .. =>
      p != pkg || x.rc != o.rc || x.ctx != o.ctx || decide (x.kind.packets ≤ x.sent.length)
    | _ => true

def EngOp.isSend (o : EngOp) : Bool :=
  match o.kind with
  | .send .. => true
  | _ => false

/-- The next slot of a send is read and leaves over a path of its port that is up (R202, R413). -/
def State.sendSlot (s : State) (o : EngOp) (path : Nat) : State :=
  match o.kind with
  | .send h port _ first _ =>
    if !((portPaths port).contains path && (s.link path).up) then s
    else
      let x := s.opHandle o.core o.inst h
      match s.engBytes o ((rangeFrom 0 x.bytes).map fun i => (x.slotAt (first + o.sent.length) + BitVec.ofNat 64 i).toNat) with
      | .wait s => s
      | .fail s st i => s.endSlots o st i
      | .ok s bs => s.setOp { o with sent := o.sent ++ [⟨path, o.sent.length, bs, []⟩] }
  | _ => s

/-- The next packet of a put or flag leaves on a path that is up (R413): what its source holds is read now where no beat was read before; a
flag leaves behind the earlier puts of its ring context, with their counts (R256). -/
def State.ringSend (s : State) (o : EngOp) (path : Nat) : State :=
  let k := o.sent.length
  if o.kind.packets ≤ k then s
  else if o.isSend then s.sendSlot o path
  else if s.pathDown allPaths then s.ringEnd o 0x30 (ringFailInfo o)
  else if !(s.link path).up then s
  else
    match o.kind with
    | .put pkg _ _ len =>
      match s.readBeats o (rangeFrom (8 * k) (min 8 ((len - 256 * k) / 32))) with
      | .ok s o =>
        let key := o.sentKey pkg path
        let n := s.ring.sent.get key 0
        let data := (rangeFrom (256 * k) (min 256 (len - 256 * k))).map fun i => (o.stage.get i (0, 0)).2
        let s := s.setOp { o with sent := o.sent ++ [⟨path, n, data, []⟩] }
        { s with ring := { s.ring with sent := s.ring.sent.set key (n + 1) } }
      | .wait s => s
      | .fail s st i => s.ringEnd o st i
    | .flag pkg _ v =>
      if !s.putsSent o pkg then s
      else
        let counts := allPaths.map fun i => s.ring.sent.get (o.sentKey pkg i) 0
        let n := s.ring.flagsSent.get (o.flagKey pkg) 0
        let s := s.setOp { o with sent := [⟨path, n, leBytes 8 v.toNat, counts⟩] }
        { s with ring := { s.ring with flagsSent := s.ring.flagsSent.set (o.flagKey pkg) (n + 1) } }
    | .send .. | .recv .. | .copy .. | .pattern .. | .ternarise .. | .stream .. | .gather .. | .flush .. | .load ..
    | .scale .. | .perm .. | .zero .. | .accWrite .. | .matrix .. => s

/-- A packet of a ring context is acknowledged on a path (R199). -/
def State.pathCount (s : State) (o : EngOp) (path : Nat) : State :=
  s.modIssuer o (fun q => { q with rgPath := q.rgPath.set path (q.rgPath.get path 0 + 1) })
    fun r => { r with latePaths := r.latePaths ++ [path] }

/-- A packet of a put or flag is acknowledged with the target's status. -/
def State.putAck (s : State) (o : EngOp) (path : Nat) (status : Byte) : State :=
  if o.sent.length ≤ o.acked then s
  else
    let s := s.pathCount o path
    let o := { o with acked := o.acked + 1
                      fail := if status != 0 && o.fail.isNone then some (status, ringFailInfo o) else o.fail }
    if o.acked = o.kind.packets then s.ringEnd o ((o.fail.map (·.1)).getD 0) ((o.fail.map (·.2)).getD 0)
    else s.setOp o

/-- A slot of a send that has left is acknowledged: the consumer count advances (R202). -/
def State.slotAck (s : State) (o : EngOp) (h : HReg) (first n : Nat) (status : Byte) : State :=
  if status != 0 then s.endSlots o status (ringFailInfo o)
  else if o.sent.length ≤ o.acked then s
  else
      let s := s.modOpHandle o.core o.inst h fun x => x.commitC (first + o.acked)
      let o := { o with acked := o.acked + 1 }
      if o.acked = n then s.ringEnd o 0 0 else s.setOp o

/-- RING_ACK (R257), over a path that is up (R413): a packet that has not left yet leaves first. -/
def execRingAck (c : CoreId) (n path : Nat) (status : Byte) (s : State) : Host.Outcome State Fault Refusal :=
  match s.opNamed c .rg n with
  | none => .next s
  | some o =>
    match o.kind with
    | .put .. | .flag .. =>
      if 4 ≤ path || !(s.link path).up then .next s
      else
        let s := if o.sent.length = o.acked then s.ringSend o path else s
        match s.ops.find? fun x => x.same o with
        | none => .next s
        | some o => .next (s.putAck o path status)
    | .send h port _ first k =>
      match (portPaths port).find? fun p => (s.link p).up with
      | none => .next s
      | some p =>
        let via := if (portPaths port).contains path && (s.link path).up then path else p
        let s := if status = 0 && o.sent.length = o.acked then s.ringSend o via else s
        match s.ops.find? fun x => x.same o with
        | none => .next s
        | some o => .next (s.slotAck o h first k status)
    | .recv .. | .copy .. | .pattern .. | .ternarise .. | .stream .. | .gather .. | .flush .. | .load .. | .scale .. | .perm ..
    | .zero .. | .accWrite .. | .matrix .. => .next s

/-- What arrives for a context from another package: the port's received flag, for the probes of ring level (R229). -/
def State.portReceipt (s : State) (ctx : Nat) : State := s.receipt (portSource ctx) 5

/-- RING_SLOT_ARRIVE (R202): the oldest receive on the channel takes the slot. -/
def execRingSlotArrive (port ch : Nat) (data : List Byte) (s : State) : Host.Outcome State Fault Refusal :=
  match s.ops.find? fun o => match o.kind with
      | .recv _ p k _ _ => p == port && k == ch
      | _ => false with
  | none => .next s
  | some o =>
    match o.kind with
    | .recv h _ _ first n =>
      if (s.opHandle o.core o.inst h).bytes != data.length then .next (s.endSlots o 0x32 (ringFailInfo o))
      else
        let s := (s.portReceipt o.ctx).fillRecv o h (first + o.acked) data
        let o := { o with acked := o.acked + 1 }
        .next (if o.acked = n then s.ringEnd o 0 0 else s.setOp o)
    | _ => .next s

/-! ## Packets that arrive (R200, R255, R256) -/

/-- The local context whose peer in package `pkg` is the source's context (R412, log 38). -/
def State.peerCtx (s : State) (pkg rctx : Nat) : Option Nat :=
  (List.range 16).find? fun c => s.ring.peers.get (16 * c + pkg) 0xFF == rctx / 512 && rctx / 512 < 16

/-- What the target's checks say of a packet's bytes. -/
inductive Landing where
  | denied
  | absent (ctx va : Nat) (m : Miss)
  | lands (ctx : Nat) (cells : List (Nat × Mem))
  deriving DecidableEq, Repr

/-- The core for which the ring port walks a page (log 38). -/
def portCoreOf (va : Nat) : CoreId := Config.portCore (va / 4096) % 512

/-- Translates the bytes of a packet under the peer context: cells with their home slices (R200). -/
def State.landUnits (s : State) (ctx : Nat) : Nat → List Byte → List (Nat × Mem) → Landing
  | _, [], acc => .lands ctx acc
  | va, b :: bs, acc =>
    if stackBase ≤ va then .denied
    else
      match s.walkIn (dieOf (portCoreOf va)) ctx va with
      | .error m => if m == .unbacked then .denied else .absent ctx va m
      | .ok x =>
        if s.viewBad (x.key va) || !pteW x.leaf || pteStb x.leaf || !pteU x.leaf then .denied
        else
          let h := s.homeOf ctx va (assignLeaf (portCoreOf va) x.leaf)
          let pk := x.key va
          let acc := match acc with
            | (h', m) :: r => if h' = h && (m.any fun (a, _) => a / 128 == pk / 128) then (h', m ++ [(pk, b)]) :: r
              else (h, [(pk, b)]) :: acc
            | [] => [(h, [(pk, b)])]
          s.landUnits ctx (va + 1) bs acc

def State.land (s : State) (p : RingPkt) : Landing :=
  match s.peerCtx p.pkg p.rctx with
  | none => .denied
  | some ctx => if (s.ctxs.find ctx).isNone then .denied else s.landUnits ctx p.dst.toNat p.data []

/-- The leaves that a packet writes through are marked. -/
def State.landTouch (s : State) (ctx : Nat) (va len : Nat) : State :=
  (distinct ((rangeFrom va len).map (alignDown · 4096))).foldl (fun s a => (s.xlatEngine (portCoreOf a) ctx a true).1) s

/-- Writes a packet's lines at home, every L1 copy in the package having left (R255). None: a write has to wait. What a core has
read ahead of its loads outlives it: R255 gives a load issued later the packet's bytes, and R259's third row any mix to loads
behind the branch on its flag (DESIGN CHOICE, log 11). -/
def State.landCells (s : State) : List (Nat × Mem) → Option State
  | [] => some s
  | (h, m) :: r =>
    match m with
    | [] => s.landCells r
    | (pk, _) :: _ =>
      let line := pk / 128
      match s.applyBlock line with
      | none => none
      | some s =>
        let s := s.tiles.foldl (fun s (t, _) => s.l1Expel t line) s
        if s.lineQueued line then none
        else
          match s.homeWriteNow none h m .engine with
          | none => none
          | some s => s.landCells r

/-- Key of the performed count of a source ring context on a path. -/
def perfKey (p : RingPkt) (path : Nat) : Nat := (p.pkg * 8192 + p.rctx) * 4 + path

/-- Takes performed numbers into a count while they follow it. -/
def catchSeq : Nat → Nat × List Nat → Nat × List Nat
  | 0, x => x
  | k + 1, (n, l) => if l.contains n then catchSeq k (n + 1, l.filter (· != n)) else (n, l)

/-- A put packet has been performed, or is done with: link layers may deliver it twice. -/
def State.packetDone (s : State) (p : RingPkt) : Bool :=
  let x := s.ring.performed.get (perfKey p p.path) (0, [])
  p.counts.isNone && (decide (p.seq < x.1) || x.2.contains p.seq)

/-- A packet is done with: a put counts on its path, behind the puts sent before it there (R200, R256). -/
def State.countPacket (s : State) (p : RingPkt) : State :=
  if p.counts.isSome then s
  else
    let key := perfKey p p.path
    let (n, l) := s.ring.performed.get key (0, [])
    { s with ring := { s.ring with performed := s.ring.performed.set key (catchSeq (l.length + 1) (n, addNew l p.seq)) } }

/-- A packet has bytes in a page. -/
def RingPkt.touches (p : RingPkt) (page : Nat) : Bool :=
  decide (p.dst.toNat < page + 4096) && decide (page < p.dst.toNat + p.data.length)

/-! ### Packets held for a page (R200) -/

/-- A packet held for a page is ahead of one of the same ring context: it waits for a page of that one or, its page having
come, for home. -/
def RingPkt.blocks (w p : RingPkt) : Bool :=
  w.pkg == p.pkg && w.rctx == p.rctx && w.held != 0 && (p.held == 0 || decide (w.held < p.held)) && match w.page with
    | some page => p.touches page
    | none => p.touches (alignDown w.dst.toNat 4096) || p.touches (alignDown (w.dst.toNat + w.data.length - 1) 4096)

def insertHeld (p : RingPkt) : List RingPkt → List RingPkt
  | [] => [p]
  | q :: r => if p.held < q.held then p :: q :: r else q :: insertHeld p r

/-- The packets and flags held for pages, in the order in which they were held. -/
def Ring.heldOrder (r : Ring) : List RingPkt :=
  (r.waiting ++ r.flags.filter (·.held != 0)).foldl (fun l p => insertHeld p l) []

/-- The held packet that one has to stay behind. -/
def State.aheadOf (s : State) (p : RingPkt) : Option RingPkt := s.ring.heldOrder.find? (·.blocks p)

/-- A packet is held for a page, or at home for none: in the place that it has, or behind all that are held; a flag keeps
its place among the flags too. -/
def State.holdPacket (s : State) (p : RingPkt) (page : Option Nat) : State :=
  let k := if p.held = 0 then s.ring.holds + 1 else p.held
  let p' := { p with page := page, held := k }
  let put := fun (l : List RingPkt) => if l.contains p then l.map fun q => if q == p then p' else q else l ++ [p']
  let r := { s.ring with holds := max s.ring.holds k }
  { s with ring := if p.counts.isSome then { r with flags := put r.flags } else { r with waiting := put r.waiting } }

/-- A packet is held no longer. -/
def State.unhold (s : State) (p : RingPkt) : State :=
  { s with ring := { s.ring with waiting := s.ring.waiting.erase p, flags := s.ring.flags.erase p } }

/-- A packet arrives, or is looked at again: performed and received, refused, or held for its page. None: it has to wait at
home. -/
def State.perform (s : State) (p : RingPkt) : Option State :=
  match s.land p with
  | .denied => some ((s.unhold p).countPacket p)
  | .absent ctx va m => some ((s.pageRequest ctx va 1 5 0xFFFF m.bad).holdPacket p (some (alignDown va 4096)))
  | .lands ctx cells =>
    ((((s.unhold p).portReceipt ctx).landTouch ctx p.dst.toNat p.data.length).landCells cells).map fun s => s.countPacket p

/-- Whether the puts that a flag's counts name have been performed (R256). -/
def State.flagFree (s : State) (p : RingPkt) : Bool :=
  allPaths.all fun i => (p.counts.getD []).getD i 0 ≤ (s.ring.performed.get (perfKey p i) (0, [])).1

/-- A held flag is the first of its ring context, its puts are performed, and it awaits no page. -/
def State.flagNext (s : State) (p : RingPkt) : Bool :=
  s.flagFree p && !((s.ring.flags.takeWhile (· != p)).any fun f => f.pkg == p.pkg && f.rctx == p.rctx)
    && p.page.isNone && (s.aheadOf p).isNone

/-- A held flag is performed or refused, or keeps its place while it waits for its page or at home. -/
def State.performFlag (s : State) (p : RingPkt) : State := (s.perform p).getD s

/-- A packet or flag whose page has been answered is looked at again, behind what is still held ahead of it. -/
def State.retryHeld (s : State) (p : RingPkt) : State :=
  if p.page.isSome then s
  else
    match s.aheadOf p with
    | some w => s.holdPacket p w.page
    | none => if p.counts.isSome && !s.flagNext p then s else (s.perform p).getD s

/-- The packets and flags held for pages, in order, as far as they have been answered. -/
def State.ringRetry (s : State) : State := s.ring.heldOrder.foldl (fun s p => s.retryHeld p) s

/-- RING_PACKET_PERFORM (R255): also of a packet that has been held and answered. -/
def execRingPacketPerform (pkg rctx : Nat) (path : PathSeq) (dst : Word) (data : List Byte) (s : State) :
    Host.Outcome State Fault Refusal :=
  let p : RingPkt := { pkg, rctx, path := path.path, seq := path.seq, dst, data }
  let s := s.ringRetry
  if s.packetDone p || (s.ring.waiting.any fun w => { w with page := none, held := 0 } == p) then .next s
  else
    match s.aheadOf p with
    | some w => .next (s.holdPacket p w.page)
    | none => .next ((s.perform p).getD s)

/-- Key of the count of a source ring context's flags. -/
def flagsKey (p : RingPkt) : Nat := p.pkg * 8192 + p.rctx

/-- The held flag that a flag packet is, by its number. -/
def State.heldFlag (s : State) (p : RingPkt) : Option RingPkt :=
  s.ring.flags.find? fun f => f.pkg == p.pkg && f.rctx == p.rctx && f.seq == p.seq

/-- ORDERED_FLAG_PERFORM (R256): a flag takes one of 64 places behind the earlier flags of its ring context, and is performed
when its counts have been reached and none of those is held; with no place, or one of those still to come, it is refused, to
come again. -/
def execOrderedFlagPerform (pkg rctx : Nat) (path : PathSeq) (dst v : Word) (counts : List Nat) (s : State) :
    Host.Outcome State Fault Refusal :=
  let p : RingPkt :=
    { pkg, rctx, path := path.path, seq := path.seq, dst, data := leBytes 8 v.toNat, counts := some counts }
  match s.heldFlag p with
  | some f => .next (if s.flagNext f then s.performFlag f else s)
  | none =>
    let n := s.ring.flagsTaken.get (flagsKey p) 0
    if p.seq != n || decide (64 ≤ s.ring.flags.length) then .next s
    else
      let s := { s with ring := { s.ring with
        flags := s.ring.flags ++ [p], flagsTaken := s.ring.flagsTaken.set (flagsKey p) (n + 1) } }
      .next (if s.flagNext p then s.performFlag p else s)

/-- The packets and flags held for a page, after its answer: performed in order, or refused (R200). -/
def State.ringAnswer (s : State) (ctx page : Nat) (refused : Bool) : State :=
  let mine := fun (p : RingPkt) => s.peerCtx p.pkg p.rctx == some ctx && p.page == some (alignDown page 4096)
  let clear := fun (l : List RingPkt) => if refused then l.filter (!mine ·)
    else l.map fun (p : RingPkt) => if mine p then { p with page := none } else p
  let s1 := { s with ring := { s.ring with waiting := clear s.ring.waiting, flags := clear s.ring.flags } }
  (if refused then (s.ring.waiting.filter mine).foldl (fun s p => s.countPacket p) s1 else s1).ringRetry

/-! ## Links (R412, R413) -/

/-- Operations that no path can serve any more fail with RING_DOWN. -/
def State.ringDown (s : State) : State :=
  s.ops.foldl (fun s o =>
    match o.kind with
    | .put .. | .flag .. => if s.pathDown allPaths then s.ringEnd o 0x30 (ringFailInfo o) else s
    | .send _ port _ _ _ | .recv _ port _ _ _ =>
      if s.pathDown (portPaths port) then s.endSlots o 0x30 (ringFailInfo o) else s
    | .copy .. | .pattern .. | .ternarise .. | .stream .. | .gather .. | .flush .. | .load .. | .scale .. | .perm ..
    | .zero .. | .accWrite .. | .matrix .. => s) s

/-- A link goes down. -/
def State.dropLink (s : State) (link lanes : Nat) : State :=
  ((s.setLink link { up := false, lanes := lanes }).ringEvent 3 link lanes).ringDown

/-- FLIT_RETRANSMIT (R413): the flit is in the retry buffer until it is acknowledged; nothing else can tell. -/
def execFlitRetransmit (_link : Nat) (s : State) : Host.Outcome State Fault Refusal := .next s

/-- LANE_RETIRE (R413): the link retrains to 8 lanes, or goes down with fewer. -/
def execLaneRetire (link : Nat) (s : State) : Host.Outcome State Fault Refusal :=
  let l := s.link link
  if 4 ≤ link || !l.up then .next s
  else if 8 < l.lanes then .next ((s.setLink link { l with lanes := 8 }).ringEvent 2 link 8)
  else .next (s.dropLink link (l.lanes - 1))

/-- LINK_DOWN (R413). -/
def execLinkDown (link : Nat) (s : State) : Host.Outcome State Fault Refusal :=
  let l := s.link link
  if 4 ≤ link || !(l.up || l.training) then .next s else .next (s.dropLink link (min 7 l.lanes))

/-- LINK_TRAINED (R412): with 8 lanes or more the link is up. -/
def execLinkTrained (link lanes : Nat) (s : State) : Host.Outcome State Fault Refusal :=
  if 4 ≤ link || !(s.link link).training then .next s
  else if lanes < 8 then .next (s.dropLink link lanes)
  else .next ((s.setLink link { up := true, lanes := lanes }).ringEvent 1 link lanes)

end Sys2Proof.Machine
end

