-- ==== Sys2Proof/Machine/MemEvents.lean ====
section
/-! DEFINITION. Events of loads, stores, the L2 slices, the capacity tier and view lines, of user-level interrupts and
SLEEP, and the host's window (03 R81, 07 R188, 10 R234, 12 R262, 13 R294 to R298, 14 R312 to R320, 23 R397). -/
namespace Sys2Proof.Machine
open Sys2Proof

/-! ## Loads and stores (R262) -/

def execLoadReturn (c : CoreId) (n : Nat) (s : State) : Host.Outcome State Fault Refusal := .next (s.performLoad c n)

/-- LOAD_DATA_UE (R234): the outstanding load would read poisoned data. -/
def execLoadDataUe (c : CoreId) (n : Nat) (s : State) : Host.Outcome State Fault Refusal :=
  let t := s.performLoad c n
  .next (if (s.core c).due.length < (t.core c).due.length then t else s)

def execStoreDrain (c : CoreId) (n : Nat) (s : State) : Host.Outcome State Fault Refusal := .next (s.drainStore c n)

/-! ## L2 slices (R312 to R314) -/

/-- The victim of a full set: of the tags without ER, the oldest; of those, the lowest line. None: the set is not full, or
every way has ER set (then `full` holds). -/
def State.setVictim (s : State) (h line : Nat) : Option Nat × Bool :=
  let ways := (s.slice h).tags.filter fun (l, _) => setOf l == setOf line
  if ways.length < 16 then (none, false)
  else
    let free := ways.filter fun (l, _) => !s.engineLine l
    ((free.foldl (fun (b : Option (Nat × L2Tag)) w =>
      match b with
      | none => some w
      | some v => if v.2.age < w.2.age then some w else some v) none).map (·.1), free.isEmpty)

/-- Fresh with no free entry: by the slice's clock, every tag of the first entry that no ER tag points to leaves, dirty ones
written back. None: every entry has an ER tag. -/
def State.freeData (s : State) (h : Nat) : Option State :=
  let x := s.slice h
  match x.freeEntry with
  | some _ => some s
  | none =>
    let busy := (x.tags.filter fun (l, _) => s.engineLine l).map fun (_, t) => t.dptr
    let round := x.data.filter (x.hand ≤ ·.1) ++ x.data.filter (·.1 < x.hand)
    match round.find? fun (i, _) => !busy.contains i with
    | none => none
    | some (i, _) =>
      let s := s.setSlice h { x with hand := (i + 1) % 32768 }
      some ((x.tags.filter fun (_, t) => t.dptr == i).foldl (fun s (line, _) => s.l2Evict h line) s)

/-- Room for a line in a slice: a tag of its set, and a data entry. None: engines refer to all that could leave. -/
def State.makeRoom (s : State) (h line : Nat) : Option State :=
  if ((s.slice h).tags.find line).isSome then s.freeData h
  else
    match s.setVictim h line with
    | (none, true) => none
    | (some l, _) => (s.l2Evict h l).freeData h
    | (none, false) => s.freeData h

/-- L2_INSTALL (R311, R313): a line is filled from memory into a home slice of its, a victim leaving first. -/
def execL2Install (slice line : Nat) (s : State) : Host.Outcome State Fault Refusal :=
  if (s.l2At slice line).isSome || !s.homesAt slice line then .next s
  else .next (((s.makeRoom slice line).bind fun s => s.l2Bring slice line).getD s)

/-- L2_WRITE (R313): the first write that waits at home for a line, with room made where it needs some. -/
def execL2Write (slice line : Nat) (s : State) : Host.Outcome State Fault Refusal :=
  if s.homeQ.any fun w => w.home == slice && w.cells.any (·.1 / 128 == line) then
    let t := s.retryWrite line
    .next (if t.homeQ.length < s.homeQ.length then t else ((s.makeRoom slice line).getD s).retryWrite line)
  else .next s

/-- IDLE_SWEEP (R313): a tag written in place is hashed again. -/
def execIdleSweep (slice line : Nat) (s : State) : Host.Outcome State Fault Refusal :=
  .next (s.rehash slice line)

/-! ## The capacity tier (R294, R297, R298) -/

/-- TIER_WRITE (R294, R320): the first waiting write of a tier line, once a slot is free and its page has settled. -/
def execTierWrite (line : Nat) (s : State) : Host.Outcome State Fault Refusal :=
  .next (if s.tiered (128 * line) then s.retryWrite line else s)

/-- TIER_READ (R297): a line that is malformed as it is stored, or that no refetch delivers well (`good` false), is
uncorrectable; one with POISON is delivered poisoned. -/
def execTierRead (line : Nat) (good : Bool) (s : State) : Host.Outcome State Fault Refusal :=
  if s.tiered (128 * line) && !(s.tierTag line).poison && (!good || s.tierMalformed line) then .next (s.setPoison line true)
  else .next s

/-- VIEW_SETTLE (R318). -/
def execViewSettle (s : State) : Host.Outcome State Fault Refusal := .next s.settleView

/-! ## Boundaries: user-level interrupts and SLEEP (R81, R188, R238) -/

/-- A core stands at an instruction boundary: before a word, or before a header whose page its convoy waits for. -/
def State.stands (s : State) (c : CoreId) : Bool :=
  (s.core c).pos == .word || (s.convoyOf c).any fun m => (s.core m).waitPage.isSome

/-- A core runs: it holds work that neither is over nor is held. -/
def Core.running (q : Core) : Bool :=
  q.work.isSome && q.pre == .run && !q.debug && !q.parked && q.ended.isNone && q.sleep.isNone

/-- USER_INTERRUPT_ENTRY (R188, R238): rank 3, behind requests and deferred traps. -/
def execUserInterruptEntry (c : CoreId) (s : State) : Host.Outcome State Fault Refusal :=
  let ms := s.convoyOf c
  let l := ms.headD c
  if (s.core l).uiReady && s.stands l && (ms.all fun m => (s.core m).running && (s.core m).due.isEmpty && (s.core m).req.isNone
      && (s.core m).sc.isNone) then
    .next (s.uiEnter l)
  else .next s

/-- The reasons that hold for a SLEEP of a core (R81). -/
def State.wakeReasons (s : State) (q : Core) (x : Sleep) : BitVec 6 :=
  q.wakes ||| (if x.timeout != 0 && x.timeout.toNat ≤ s.now - x.since then 1 else 0)
    ||| (if q.uiPending then 2 else 0)
    ||| (match q.req with
      | some (.preempt _) | some .watchdog => 16
      | some .kill | none => 0)

/-- Ends the SLEEP of a core and its convoy with a reason. -/
def State.wakeUp (s : State) (c : CoreId) (reason : BitVec 6) : State :=
  (s.convoyOf c).foldl (fun s m => s.modCore m fun q =>
    match q.sleep with
    | none => q
    | some x => { q with sleep := none, wakes := 0 }.ws x.d (reason.setWidth 64)) s

/-- SLEEP_WAKE (R81): the leader's reasons count. -/
def execSleepWake (c : CoreId) (spurious : Bool) (s : State) : Host.Outcome State Fault Refusal :=
  let l := (s.convoyOf c).headD c
  let q := s.core l
  match q.sleep with
  | none => .next s
  | some x =>
    let why := s.wakeReasons q x
    if q.pre != .run || (why == 0 && !spurious) then .next s else .next (s.wakeUp l why)

/-! ## BAR2 (R281, R397) -/

/-- Bytes of the BAR2 window. -/
def windowSize : Nat := 2 ^ 39

/-- Applies the update pairs of the blocks of a physical range first (R373). None: an apply has to wait. -/
def State.applyRange (s : State) (pa n : Nat) : Option State :=
  (rangeFrom (pa / 128) ((pa + n + 127) / 128 - pa / 128)).foldl (fun (r : Option State) l => r.bind fun s => s.applyBlock l)
    (some s)

/-- The host's bytes go home; its writes that wait there are numbered (R402). -/
def State.hostStore (s : State) (pa : Nat) (d : List Byte) : State :=
  let t := s.paWrite pa d
  let k := s.bar0.writes + 1
  { t with bar0 := { t.bar0 with writes := k }
           homeQ := t.homeQ.take s.homeQ.length ++ (t.homeQ.drop s.homeQ.length).map fun w => { w with host := k } }

/-- HOST_WINDOW_ACCESS (R397): a read gives the host the bytes and changes nothing but what it must apply first; a write
waits while a checkpoint runs (R414). -/
def execHostWindowAccess (off len : Nat) (data : Option (List Byte)) (s : State) : Host.Outcome State Fault Refusal :=
  let pa := s.bar0.winBase.toNat + off
  let n := match data with
    | some d => d.length
    | none => len
  if windowSize < off + n || s.recovery then .next s
  else
    match s.applyRange pa n with
    | none => .next s
    | some s =>
      match data with
      | none => .next s
      | some d => if s.ckpt.isSome then .next s else .next (s.hostStore pa d)

end Sys2Proof.Machine
end

