-- ==== Sys2Proof/Machine/Graph.lean ====
section
/-! DEFINITION. The dispatcher: ready pools, placement, gangs, persistent launches and the release of replays
(09_execution R220 to R224, 10_traps R240). -/
namespace Sys2Proof.Machine
open Sys2Proof

/-! ## Heads of the pools (R221) -/

/-- The node that heads the pool for a cluster. -/
def State.headOf (s : State) (cl : Nat) : Option Pooled :=
  ((s.pool (cl / 16)).filter (·.cl == cl)).foldl (fun best p =>
    match best with
    | none => some p
    | some b => if p.before b then some p else best) none

/-- Notes, at a cluster, the node that has come to head its pool: since when, and a gang's reservation (R222, R223). The `near`
wait counts from the first time, also where a node of higher priority comes before it meanwhile (DESIGN CHOICE, log 80). -/
def State.markCluster (s : State) (cl : Nat) : State :=
  let held := s.reservation cl
  match s.headOf cl with
  | none => s.modCluster cl fun k => { k with reserved := held }
  | some p =>
    let s := if p.x.head.isNone then s.modNode p.ctx p.id p.n fun x => { x with head := some s.now } else s
    s.modCluster cl fun k =>
      { k with reserved := if held.isSome then held else if p.x.gang then some (p.ctx, p.id, p.n) else none }

/-- Notes the heads of every cluster that has a READY node or a reservation. -/
def State.markHeads (s : State) : State :=
  let cls := distinct (s.readyAll.map (·.cl) ++ (s.clusters.filter fun (_, k) => k.reserved.isSome).map (·.1))
  cls.foldl (fun s cl => s.markCluster cl) s

/-! ## Placement (R222, R392) -/

/-- The calibration window of a tile closes: a dwell in progress ends, with the offset back at the last known good one
(R392). -/
def Tile.closeWindow (t : Tile) : Tile :=
  if t.dwell then
    let k := t.calib.get t.point {}
    { t with dwell := false, calib := t.calib.set t.point { k with offset := k.good } }
  else t

/-- Takes a core for a node: the cluster's pointer moves past it. -/
def State.takeCore (s : State) (l : Launch) (n : Nat) (c : CoreId) : State :=
  let s := s.modCluster (clusterOf c) fun k => { k with ptr := (inCluster c + 1) % 8 }
  let s := if (l.node n).idem then s else s.modTile (tileOf c) Tile.closeWindow
  s.startNode l n c

/-- The node of a launch, when it heads its pool. -/
def State.heading (s : State) (ctx launch n : Nat) : Option (Launch × Pooled) :=
  match s.launch? ctx (BitVec.ofNat 64 launch) with
  | none => none
  | some l =>
    match l.nodes[n]? with
    | none => none
    | some x =>
      match s.headOf (s.nodeCluster ctx x) with
      | none => none
      | some p => if p.ctx == l.ctx && p.id == l.id && p.n == n then some (l, p) else none

/-- NODE_PLACEMENT (R222): on the home cluster, or, with memberships held, on their core. -/
def execNodePlacement (ctx launch node : Nat) (s : State) : Host.Outcome State Fault Refusal :=
  let s := s.markHeads
  match s.heading ctx launch node with
  | none => .next s
  | some (l, p) =>
    if p.x.gang then .next s
    else
      match s.heldCore p with
      | some c => .next (if s.idleFor ctx p.id node c then s.takeCore l node c else s)
      | none =>
        if s.reservedFor p.cl then .next s
        else
          match s.idleCore [] ctx p.id node p.cl with
          | none => .next s
          | some c => .next (s.takeCore l node c)

/-- NEAR_SPILL_OVER (R222): a node that has headed its pool for `near` ns takes the first idle core elsewhere. -/
def execNearSpillOver (ctx launch node : Nat) (s : State) : Host.Outcome State Fault Refusal :=
  let s := s.markHeads
  match s.heading ctx launch node with
  | none => .next s
  | some (l, p) =>
    if p.x.gang || !s.waitedNear p || (s.heldCore p).isSome then .next s
    else
      match s.spillCore [] p with
      | none => .next s
      | some c => .next (s.takeCore l node c)

/-- GANG_PLACEMENT (R223): the reserved cluster, once its last task has ended. -/
def execGangPlacement (ctx launch node : Nat) (s : State) : Host.Outcome State Fault Refusal :=
  let s := s.markHeads
  let id := BitVec.ofNat 64 launch
  match s.launch? ctx id, s.node? ctx id node with
  | some l, some x =>
    let cl := s.nodeCluster ctx x
    if x.gang && s.reservation cl == some (ctx, id, node) && !s.persistHolds cl
        && (clusterCores cl).all fun c => s.idleFor ctx id node c then
      let s := s.modCluster cl fun k => { k with reserved := none }
      let s := if x.idem then s
        else [2 * cl, 2 * cl + 1].foldl (fun s t => s.modTile t Tile.closeWindow) s
      .next (s.startNode l node (8 * cl))
    else .next s
  | none, _ | _, none => .next s

/-! ## Persistent launches (R224) -/

/-- PERSISTENT_START (R224): every core of its clusters starts at once, with one instance. -/
def execPersistentStart (ctx launch : Nat) (s : State) : Host.Outcome State Fault Refusal :=
  let id := BitVec.ofNat 64 launch
  match s.launch? ctx id, s.ctxs.find ctx with
  | some l, some x =>
    match l.persist with
    | none => .next s
    | some (entry, first, count, arg) =>
      let ms := rangeFrom (8 * first) (8 * count)
      if l.started || x.held || !(ms.all fun c => (s.core c).work.isNone && (s.core c).heldFor.isNone && s.splitFits c x.split)
      then .next s
      else
        let inst := s.nextInst
        let s := { s with nextInst := inst + 1 }
        let s := ms.foldl (fun s c => s.applySplit c x.split) s
        let s := s.startLaunch l
        .next (ms.foldl (fun s c =>
          let s := (s.modTile (tileOf c) Tile.closeWindow).modCluster (clusterOf c) fun k => { k with persist := some (ctx, id) }
          s.startCore c ⟨ctx, id, none, false, false⟩ inst (coreGrants l.grants x.split c true [] []) entry arg 0
            (BitVec.ofNat 64 (inCluster c))) s)
  | none, _ | _, none => .next s

/-! ## Replays (R240) -/

/-- REPLAY_RELEASE (R240): every operation of the aborted instance is over, and its page request is answered. -/
def execReplayRelease (ctx launch node : Nat) (s : State) : Host.Outcome State Fault Refusal :=
  let id := BitVec.ofNat 64 launch
  match s.node? ctx id node with
  | none => .next s
  | some x =>
    match x.held with
    | none => .next s
    | some inst =>
      if x.st == .ready && x.page.isNone && (s.opsOf inst).isEmpty then
        .next { s.modNode ctx id node (fun x => { x with held := none, order := s.orders }) with orders := s.orders + 1 }
      else .next s

end Sys2Proof.Machine
end

