-- ==== Sys2Proof/Machine/Preempt.lean ====
section
/-! DEFINITION. Pre-emption, kill and the watchdog; the saved context and its restore (10_traps R238, R243 to R248). -/
namespace Sys2Proof.Machine
open Sys2Proof

/-! ## Requests (R243, R238) -/

/-- The cores that one request halts together: a gang's cluster, the cores of a persistent program in one cluster, or one
core (R227, R244). -/
def State.groupOf (s : State) (c : CoreId) : List CoreId :=
  match (s.core c).work with
  | none => []
  | some w =>
    if w.gang then clusterCores (clusterOf c)
    else if w.node.isSome then [c]
    else (clusterCores (clusterOf c)).filter fun m => (s.core m).work == some w && (s.core m).ended.isNone

def State.requestAll (s : State) (ms : List CoreId) (r : Req) : State :=
  ms.foldl (fun s m => s.modCore m fun q => q.request r) s

/-- The strongest request before some cores. -/
def State.groupReq (s : State) (ms : List CoreId) : Option Req :=
  ms.foldl (fun best m =>
    match best, (s.core m).req with
    | none, r => r
    | b, none => b
    | some b, some r => if b.rank < r.rank then some r else some b) none

/-- The core can take a request: it stands at a boundary, or its SLEEP ends for it, and no sequentially consistent
operation is outstanding (R81, R118, R238). -/
def State.haltable (s : State) (c : CoreId) : Bool :=
  let q := s.core c
  q.sc.isNone && (q.ended.isSome || q.parked || q.debug || q.sleep.isSome || s.stands c)

/-- The node that a core's work runs is in ENDING. -/
def State.isEnding (s : State) (c : CoreId) : Bool :=
  match (s.core c).work with
  | none => false
  | some w =>
    match w.node with
    | none => (s.core c).ended.isSome
    | some n => (s.node? w.ctx w.launch n).any fun x => x.st == .ending

/-- PREEMPT_LATE (R207). -/
def State.preemptLate (s : State) (c : CoreId) : State :=
  match (s.core c).work with
  | none => s
  | some w => s.workEvent 5 c w 0 0 0 0 0

/-- A SLEEP that a pre-emption ends has bit 4 set; a convoy's members write its leader's reasons (R81). -/
def State.wakeForHalt (s : State) (c : CoreId) : State :=
  let lead := s.core ((s.convoyOf c).headD c)
  let why := (lead.sleep.map fun x => s.wakeReasons lead x).getD 0 ||| 16
  s.modCore c fun q =>
    match q.sleep with
    | none => q
    | some x => { q with sleep := none, wakes := 0 }.ws x.d (why.setWidth 64)

/-- Ends killed or expired work, and the waits of its chains: a node once, a persistent program on each core (R166, R216,
R243). -/
def State.endKilled (s : State) (ms : List CoreId) (status : Byte) : State :=
  let s := s.endChains (s.core (ms.headD 0)).inst
  match (s.core (ms.headD 0)).work.bind (·.node) with
  | some _ => s.endWork (ms.headD 0) status
  | none => ms.foldl (fun s m => s.endWork m status) s

/-- Work that is not idempotent leaves its boundary for DRAINING; `req` stays for an expiry. -/
def State.halt (s : State) (ms : List CoreId) (req : Option Req) : State :=
  ms.foldl (fun s m => s.modCore m fun q => { q with pre := .draining, req := req, waitPage := none })
    (ms.reverse.foldl State.wakeForHalt s)

/-- PREEMPT_HALT (R243), which no dispatcher asks for (R232): the pending request of a core's work is taken at a boundary. -/
def execPreemptHalt (c : CoreId) (s : State) : Host.Outcome State Fault Refusal :=
  let ms := s.groupOf c
  let first := ms.headD c
  match s.groupReq ms with
  | none => .next s
  | some r =>
    let drop := ms.foldl (fun s m => s.modCore m fun q => { q with req := none }) s
    if s.isEnding first then .next (drop.preemptLate first)
    else if ms.any fun m => (s.core m).pre != .run then
      .next (if r == .kill then s.endKilled ms 0x41 else s)
    else if !(ms.all s.haltable) then .next s
    else
      match r with
      | .kill => .next (s.endKilled ms 0x41)
      | .watchdog =>
        let s := s.endChains (s.core first).inst
        if (s.core first).work.any fun w => w.node.isSome then .next (s.endKilled ms 0x43)
        else .next (s.halt ms (some .watchdog))
      | .preempt why =>
        if (s.core first).idem then .next (drop.abortTask first why 0 none) else .next (s.halt ms none)

/-- DRAIN_DONE (R103, R110, R243): loads have returned, stores have drained and fences are complete; the lines that the work
has written or read leave its tile's L1, for it may go on elsewhere. -/
def execDrainDone (c : CoreId) (s : State) : Host.Outcome State Fault Refusal :=
  let ms := s.groupOf c
  if ms.isEmpty || ms.any fun m => (s.core m).pre != .draining then .next s
  else
    let s := ms.foldl (fun s m => ((s.performLoads m).drainAll m).publishLines m true true) s
    let s := (s.finishFences ms).getD s
    if ms.any fun m => !(s.core m).loads.isEmpty || !(s.core m).stores.isEmpty || !(s.core m).fences.isEmpty ||
        s.tileWaits (tileOf m) then .next s
    else .next (ms.foldl (fun s m => s.modCore m fun q => { q with pre := .saving }) s)

/-! ## Records of the save area (R246) -/

def words (l : List Word) : List Byte := l.flatMap fun w => leBytes 8 w.toNat
def regWords (m : SMap Word) (n : Nat) : List Byte := words ((List.range n).map fun i => m.get i 0)

/-- The five timeline contexts in code order. -/
def allTimelines : List Timeline := [.mx, .cp, .gt, .up, .rg]

/-- An address as the header holds it: bits [55:0]. -/
def headerAddr (w : Word) : List Byte := leBytes 8 (w.toNat % 2 ^ 56)

/-- Flags of the header. -/
def Core.saveFlags (q : Core) (c : CoreId) (gangs : Nat) : Nat :=
  let bit := fun (b : Bool) (i : Nat) => if b then 2 ^ i else 0
  bit q.priv 0 + bit q.idem 1 + bit q.convoy 2 + bit q.long 3 + bit q.uih 4 + bit q.inHandler 5 + bit q.debug 6
    + bit ((q.bars.any fun (_, b) => b.mark == some q.pc && b.st != .idle) || q.pos == .word && q.stood == some q.pc) 7
    + (if q.convoy then inCluster c else 0) * 2 ^ 8 + q.share * 2 ^ 16 + gangs % 256 * 2 ^ 24

/-- The resume PC's block: its header, or the header that stands there itself. -/
def Core.saveBlk (q : Core) : Word := if q.pos == .word then q.blk else q.pc

/-- The header of a core record. -/
def State.saveHeader (s : State) (c : CoreId) (q : Core) (gangs : Nat) : List Byte :=
  padTo 256 (leBytes 8 (s.ctxGen q).toNat ++ headerAddr q.pc ++ leBytes 8 (q.saveFlags c gangs)
    ++ leBytes 8 (q.p.toNat / 2 * 2)
    ++ words [q.trap.cause, q.trap.pc, q.trap.info, q.trap.blk, q.trap.status]
    ++ words [q.ui.vec, q.ui.pc, q.ui.blk, q.ui.en.setWidth 64, q.ui.cause.setWidth 64]
    ++ words [q.spillBase, q.ovfMark] ++ regWords q.rgPath 4 ++ leBytes 8 q.cyc ++ leBytes 8 q.wd
    ++ leBytes 8 ((allTimelines.map fun t => if (q.tl t).done < (q.tl t).issued then 2 ^ t.code else 0).sum)
    ++ headerAddr q.saveBlk)

/-- The core record, 0x2100 bytes. -/
def State.coreImage (s : State) (c : CoreId) (gangs : Nat) : List Byte :=
  let q := s.core c
  let hs := (List.range 16).map fun i => q.h.get i {}
  padTo 0x2100 (s.saveHeader c q gangs ++ regWords q.s 64 ++ regWords q.shadow 8
    ++ (List.range 4).flatMap (fun i => padTo 64 (q.dr.get i []))
    ++ padTo 0x80 (allTimelines.flatMap fun t => leBytes 8 (q.tl t).issued ++ leBytes 8 (q.tl t).done)
    ++ (List.range 128).flatMap (fun b => leBytes 4 (barEntry (q.bar b)))
    ++ hs.flatMap Handle.image
    ++ (List.range 32).flatMap (fun i => leBytes 32 (q.v.get i 0).toNat)
    ++ (List.range 8).flatMap (fun i => leBytes 32 (q.k.get i 0).toNat)
    ++ leBytes 32 q.gcm.toNat
    ++ (List.range 8).flatMap (fun i => leBytes 8 (q.ec.get i 0).toNat)
    ++ (List.range 8).flatMap (fun i => leBytes 8 (q.ecsel.get i 0).toNat)
    ++ List.replicate 32 0
    ++ (List.range q.share).flatMap (fun i => leBytes 256 (q.l.get i 0).toNat))

/-- The core extension record, 0x1000 bytes. -/
def State.extImage (s : State) (c : CoreId) : List Byte :=
  let q := s.core c
  let hs := (List.range 16).map fun i => q.h.get i {}
  let extra := fun (x : Handle) =>
    match x.st with
    | .stream => padTo 32 (leBytes 8 x.committed)
    | .update =>
      match x.region.bind s.region with
      | some g => padTo 32 (leBytes 8 g.base ++ leBytes 8 g.len ++ leBytes 8 g.op.code ++ leBytes 8 (g.seqs.get c 0))
      | none => List.replicate 32 0
    | .unbound | .ring => List.replicate 32 0
  padTo 0x1000 (hs.flatMap (fun x => if x.st == .stream then padTo 64 x.desc else List.replicate 64 0)
    ++ hs.flatMap extra
    ++ allTimelines.flatMap (fun t => (List.range 256).map fun n => (q.tl t).status.get n 0)
    ++ leBytes 4 (match q.view with
      | some (r, v) => r + v * 2 ^ 12 + 2 ^ 15
      | none => 0))

def State.extRecord (s : State) (ctx : Nat) (c : CoreId) : Nat := s.saveArea ctx + 0x2520000 + 0x1000 * c
def State.clusterRecord (s : State) (ctx cl : Nat) : Nat := s.saveArea ctx + 0x420000 + 0x84000 * cl

/-- The cluster record, 0x84000 bytes (log 37). -/
def Cluster.image (k : Cluster) : List Byte :=
  let tiles := (List.range 4).map fun t => k.acc.get t {}
  tiles.flatMap (fun t => (List.range 16384).flatMap fun i => leBytes 8 (t.e.get i 0).toNat)
    ++ padTo 0x4000 (Config.clusterTail (tiles.map (·.ovf.toNat) ++
      ((List.range 4096).map fun i => (k.perm.get i (BitVec.ofNat 9 (i % 512))).toNat) ++ [k.rr, k.jobs.length]))

/-- Where the next scratchpad image of a context goes: behind those of the work that is saved (R246). -/
def State.nextImage (s : State) (ctx : Nat) : Nat :=
  (s.saved.filter (·.ctx == ctx)).foldl (fun a r => max a (r.image + r.imageLen)) (s.saveArea ctx + 0x2720000)

/-- The scratchpad that is saved with a core of a group: its share, or, with the first core of a persistent program on a
tile, the whole tile. -/
def Core.imageRange (q : Core) (ms : List CoreId) (c : CoreId) : Nat × Nat :=
  match q.work.bind (·.node) with
  | some _ => (q.grants.shareBase, q.grants.shareSize)
  | none => if (ms.find? fun m => tileOf m == tileOf c) == some c then (0, 4194304) else (0, 0)

/-- Cells of a memory within a range, moved to another base: what a copy of the range writes, its zeros included. -/
def Mem.window (m : Mem) (lo n dst : Nat) : Mem := (m.filter fun (a, _) => lo ≤ a && a < lo + n).map fun (a, b) => (a - lo + dst, b)

/-- Clears a range of device memory, and lists cells there: memory below L2, whose lines leave L2 first. -/
def State.putImage (s : State) (dst n : Nat) (cells : Mem) : State :=
  let s := s.l2EvictAll fun line _ => dst / 128 ≤ line && line < (dst + n + 127) / 128
  { s with mem := Mem.writeCells (s.mem.filter fun (a, _) => !(dst ≤ a && a < dst + n)) cells }

/-- The image of a range of a core's scratchpad goes to memory, with its poison. -/
def State.saveImage (s : State) (c : CoreId) (lo n dst : Nat) : State :=
  let t := s.tile (tileOf c)
  let bad := (t.poison.filter fun l => lo ≤ 128 * l && 128 * l < lo + n).map fun l => (128 * l - lo + dst) / 128
  let s := s.putImage dst n (Mem.window t.lm lo n dst)
  { s with poison := bad.foldl addNew (s.poison.filter fun l => !(dst ≤ 128 * l && 128 * l < dst + n)) }

/-- The image comes back into a core's scratchpad. -/
def State.loadImage (s : State) (c : CoreId) (lo n src : Nat) : State :=
  let cells := ((rangeFrom (src / 128) ((n + 127) / 128)).flatMap fun line =>
    ((List.range 128).map fun i => (128 * line + i - src + lo, s.paByte (128 * line + i))).filter fun (_, b) => b != 0)
  let bad := (s.poison.filter fun l => src ≤ 128 * l && 128 * l < src + n).map fun l => (128 * l - src + lo) / 128
  s.modTile (tileOf c) fun t =>
    { t with lm := Mem.writeCells (t.lm.filter fun (a, _) => !(lo ≤ a && a < lo + n)) cells
             poison := bad.foldl addNew (t.poison.filter fun l => !(lo ≤ 128 * l && 128 * l < lo + n)) }

/-! ## Names of work that is off its core -/

/-- Renames a core in the operations of an instance, in the job queues and engine orders, and in the regions that its
handles hold. -/
def State.retarget (s : State) (old new : CoreId) (inst : Nat) (regs : List Nat) (oldH newH : CoreId) : State :=
  let job := fun (j : JobRef) => if j.core = old && j.inst = inst then { j with core := new } else j
  let op := fun (x : MxOp) => { x with parts := x.parts.map job, claims := x.claims.mapVals fun _ (j, n) => (job j, n) }
  let reg := fun (r : Nat) (g : Region) =>
    if regs.contains r then
      { g with handles := g.handles.map fun (c, h) => if c = oldH then (newH, h) else (c, h)
               seqs := match g.seqs.find oldH with
                 | some n => (g.seqs.erase oldH).set newH n
                 | none => g.seqs }
    else g
  { s with
    ops := s.ops.map fun o => if o.core = old && o.inst = inst then { o with core := new } else o
    clusters := s.clusters.mapVals fun _ k =>
      { k with jobs := k.jobs.map job, offers := k.offers.map job, late := k.late.map job, order := k.order.map op, pending := k.pending.map op
               merges := k.merges.map fun x => { x with seats := x.seats.map fun (c, i) => if c = old && i = inst then (new, i) else (c, i) } }
    regions := s.regions.mapVals reg
    homeQ := s.homeQ.map fun w => { w with job := w.job.map job } }

/-- The number under which a region knows saved work. -/
def offCore (inst : Nat) (c : CoreId) : CoreId := 512 * (inst + 1) + c

/-- The regions that a core's handles hold. -/
def Core.heldRegions (q : Core) : List Nat := q.h.filterMap fun (_, x) => if x.st == .update then x.region else none

/-! ## Saved work that ends (R216, R248) -/

/-- Saved work is dropped: its streams and unjoined MGANGs end, its handles stay with what still uses them, and a persistent
program's core ends (R216, R239, R344). -/
def State.dropSaved (s : State) (p : SavedRec → Bool) : State :=
  (s.saved.filter p).foldl (fun s r =>
    let s := r.gangs.foldl (fun s g => s.cancelGang r.core g) s
    let streams := s.ops.filter fun o => o.core == r.core && o.inst == r.inst && o.isStream
    let s := streams.foldl (fun s o => s.opComplete o 0 0xFF 0) s
    let h := ((s.saved.find? fun x => x.inst == r.inst && x.core == r.core).map (·.snap.h)).getD r.snap.h
    let s := if s.ops.any fun o => o.core == r.core && o.inst == r.inst && o.usesHandle
      then { s with orphans := s.orphans ++ [⟨r.core, r.inst, h⟩] } else s
    let s := { s with
      saved := s.saved.filter fun x => !(x.inst == r.inst && x.core == r.core)
      regions := s.regions.mapVals fun _ g => { g with handles := g.handles.filter (·.1 != offCore r.inst r.core) } }
    let s := s.retireRegions
    if r.work.node.isNone then s.endPersistent r.core r.work else s) s

/-! ## SAVE_DONE (R245, R246) -/

/-- A cluster record is saved with the work: a persistent program, a gang, or a task that has issued on mx. -/
def Core.savesCluster (q : Core) : Bool :=
  q.work.any (fun w => w.gang || w.node.isNone) || (q.tl .mx).issued != 0

/-- Saves one core of a group, its scratchpad at `image`, and frees it. `keep`: it is to be restored; work that has expired
leaves its regions and cancels its pending MGANGs (R248, R376). -/
def State.saveCore (s : State) (ms : List CoreId) (c : CoreId) (image : Nat) (keep : Bool) : State :=
  let q := s.core c
  let first := ms.headD c
  let (lo, n) := q.imageRange ms c
  match q.work with
  | none => s
  | some w =>
    let cl := s.cluster (clusterOf c)
    let gangs := cl.gangs.get (inCluster c) []
    let regs := q.heldRegions
    let clus := q.savesCluster
    let s := s.paWrite (s.coreRecord w.ctx c) (s.coreImage c gangs.length)
    let s := s.paWrite (s.extRecord w.ctx c) (s.extImage c)
    let s := if clus && c == first then
        let a := s.clusterRecord w.ctx (clusterOf c)
        let bytes := cl.image
        s.putImage a bytes.length (((rangeFrom a bytes.length).zip bytes).filter fun (_, b) => b != 0)
      else s
    let s := s.saveImage c lo n image
    let r : SavedRec :=
      { ctx := w.ctx, core := c, work := w, inst := q.inst, snap := q, image := image, imageLen := n, imageLo := lo
        clus := if clus then some cl else none, arrivals := q.bars, gangs := gangs, engWrote := q.engWrote, group := first }
    let s := s.modCluster (clusterOf c) fun k => { k with persist := if w.node.isNone then none else k.persist }
    if keep then
      let s := s.modCluster (clusterOf c) fun k => { k with gangs := k.gangs.erase (inCluster c) }
      let s := ({ s with saved := s.saved ++ [r] } : State).retarget c c q.inst regs c (offCore q.inst c)
      s.modCore c fun q => { duty := q.duty, utlb := q.utlb, cyc := q.cyc, credits := q.credits }
    else (s.cancelGangs c).freeCore c false

/-- Saves the cores of a group, their scratchpad images one behind the other (R246). -/
def State.saveGroup (s : State) (ms : List CoreId) (ctx : Nat) (keep : Bool) : State :=
  (ms.foldl (fun (s, a) m =>
    let n := ((s.core m).imageRange ms m).2
    (s.saveCore ms m a keep, a + n)) (s, s.nextImage ctx)).1

/-- SAVE_DONE (R243 to R246): the records are written and the cores are free. After an expiry the launch ends, on its other
cores and on those from which it has been saved (R248). -/
def execSaveDone (c : CoreId) (s : State) : Host.Outcome State Fault Refusal :=
  let ms := s.groupOf c
  let first := ms.headD c
  let q := s.core first
  let busy := (ms.any fun m => (s.core m).savesCluster) && !(s.cluster (clusterOf c)).order.isEmpty
  if ms.isEmpty || busy || ms.any fun m => (s.core m).pre != .saving then .next s
  else
    match q.work with
    | none => .next s
    | some w =>
      let expired := q.req == some .watchdog
      let s := s.saveGroup ms w.ctx (!expired)
      match w.node with
      | some n => .next (s.modNode w.ctx w.launch n fun x => { x with saved := true, core := none })
      | none =>
        if expired then
          let s := s.workEvent 3 first w 0 0 0 0 0
          let rest := (s.cores.filter fun (_, q) => q.work == some w && q.ended.isNone).map (·.1)
          let s := rest.foldl (fun s m => s.endWork m 0x43) s
          let s := s.dropSaved fun r => r.work == w
          .next (ms.foldl (fun s m => s.endPersistent m w) s)
        else .next s

/-! ## CONTEXT_RESTORE_DONE (R244, R245) -/

/-- The scalar registers and control state of a core record, read back (R246). -/
def State.loadCore (s : State) (r : SavedRec) : Core :=
  let a := s.coreRecord r.ctx r.core
  let e := s.extRecord r.ctx r.core
  let w := fun (o : Nat) => BitVec.ofNat 64 (s.paNum (a + o) 8)
  let many := fun {α : Type} (n : Nat) (f : Nat → α) => ((List.range n).map fun i => (i, f i) : SMap α)
  let flags := s.paNum (a + 0x10) 8
  let share := bitsOf flags 16 8
  let old := r.snap
  { old with
    s := many 64 fun i => w (0x100 + 8 * i)
    shadow := many 8 fun i => w (0x300 + 8 * i)
    dr := many 4 fun i => s.paRead (a + 0x340 + 64 * i) 64
    tls := allTimelines.map fun t =>
      (t.code, { old.tl t with issued := s.paNum (a + 0x440 + 16 * t.code) 8, done := s.paNum (a + 0x448 + 16 * t.code) 8
                               status := many 256 fun n => BitVec.ofNat 8 (s.paNum (e + 0x600 + 256 * t.code + n) 1) })
    bars := r.arrivals
    h := old.h.mapVals fun i x => if x.st == .stream then
      { x with desc := s.paRead (e + 64 * i) 64, committed := s.paNum (e + 0x400 + 32 * i) 8 } else x
    v := many 32 fun i => BitVec.ofNat 256 (s.paNum (a + 0xAC0 + 32 * i) 32)
    k := many 8 fun i => BitVec.ofNat 256 (s.paNum (a + 0xEC0 + 32 * i) 32)
    gcm := BitVec.ofNat 256 (s.paNum (a + 0xFC0) 32)
    ec := many 8 fun i => BitVec.ofNat 48 (s.paNum (a + 0xFE0 + 8 * i) 8)
    ecsel := many 8 fun i => BitVec.ofNat 17 (s.paNum (a + 0x1020 + 8 * i) 8)
    share := share
    l := many share fun i => BitVec.ofNat 2048 (s.paNum (a + 0x1080 + 256 * i) 256)
    pc := BitVec.ofNat 64 (s.paNum (a + 0x08) 8 % 2 ^ 56)
    blk := if old.pos == .word then BitVec.ofNat 64 (s.paNum (a + 0xB8) 8 % 2 ^ 56) else old.blk
    priv := flags.testBit 0, convoy := flags.testBit 2, uih := flags.testBit 4, inHandler := flags.testBit 5
    debug := flags.testBit 6
    p := BitVec.ofNat 8 (s.paNum (a + 0x18) 8 / 2 * 2)
    trap := ⟨w 0x20, w 0x28, w 0x30, w 0x38, w 0x40⟩
    ui := ⟨w 0x48, w 0x50, w 0x58, (w 0x60).setWidth 5, (w 0x68).setWidth 5⟩
    spillBase := w 0x70, ovfMark := w 0x78
    rgPath := many 4 fun i => w (0x80 + 8 * i)
    cyc := s.paNum (a + 0xA0) 8, wd := s.paNum (a + 0xA8) 8
    view := let v := s.paNum (e + 0xB00) 4
      if v.testBit 15 then some (v % 2 ^ 12, bitsOf v 12 2) else none
    engWrote := r.engWrote
    ringFails := old.ringFails + r.ringFails }

/-- What has happened since the save: operations that completed, packets that were acknowledged (R244). -/
def Core.catchUpSaved (q : Core) (r : SavedRec) : Core :=
  let q := r.late.foldl (fun (q : Core) (t, n, st) =>
    match Timeline.ofCode t with
    | some t => q.opDone t n st
    | none => q) q
  r.latePaths.foldl (fun q p => { q with rgPath := q.rgPath.set p (q.rgPath.get p 0 + 1) }) q

/-- The accumulator tiles of a cluster record, read back; what its stated part does not hold, the job queue's turn
among it, comes as it was saved. -/
def State.loadCluster (s : State) (ctx cl : Nat) (old now : Cluster) : Cluster :=
  let a := s.clusterRecord ctx cl
  let acc : SMap AccTile := (List.range 4).map fun t =>
    let e : SMap (BitVec 48) := (List.range 16384).filterMap fun i =>
      let x := s.paNum (a + 131072 * t + 8 * i) 8
      if x = 0 then none else some (i, BitVec.ofNat 48 x)
    (t, { old.acc.get t {} with e := e })
  { now with acc := acc, perm := old.perm, rr := old.rr }

/-- Restores one saved core onto a core. -/
def State.restoreCore (s : State) (r : SavedRec) (onto : CoreId) : State :=
  let q := (s.loadCore r).catchUpSaved r
  let now := s.core onto
  let s := s.freshLines onto
  let s := if r.imageLen = 0 then s else s.loadImage onto r.imageLo r.imageLen r.image
  let s := match r.clus with
    | some k => if r.core == r.group then
        s.setCluster (clusterOf onto) (s.loadCluster r.ctx (clusterOf r.core) k (s.cluster (clusterOf onto))) else s
    | none => s
  let s := s.retarget r.core onto r.inst q.heldRegions (offCore r.inst r.core) onto
  let s := s.modCluster (clusterOf onto) fun k =>
    { k with gangs := if r.gangs.isEmpty then k.gangs else k.gangs.set (inCluster onto) r.gangs
             persist := if r.work.node.isNone then some (r.ctx, r.work.launch) else k.persist }
  let s := s.modCore onto fun _ =>
    { q with ringCore := if q.ringCore.getD r.core = onto then none else some (q.ringCore.getD r.core)
             duty := now.duty, utlb := now.utlb, credits := now.credits, pre := .run, req := none, seen := [], wrote := [], early := []
             work := some r.work, inst := r.inst, heldFor := none }
  { s with saved := s.saved.filter fun x => !(x.inst == r.inst && x.core == r.core) }

/-- CONTEXT_RESTORE_DONE (R244, R245): the saved group of core record `c` comes back; a core task onto `onto`, other work
onto the cores it was saved from. -/
def execContextRestoreDone (ctx : Nat) (c onto : CoreId) (s : State) : Host.Outcome State Fault Refusal :=
  match s.saved.find? fun r => r.ctx == ctx && r.core == c && r.resumed with
  | none => .next s
  | some r =>
    let group := s.saved.filter fun x => x.ctx == ctx && x.inst == r.inst && x.group == r.group
    let alone := r.work.node.isSome && !r.work.gang
    let place := fun (x : SavedRec) => if alone then onto else x.core
    let fits := !alone || (inCluster onto == inCluster c && (onto == c || r.clus.isNone))
    let split := ((s.ctxs.find ctx).map (·.split)).getD 0
    let free := group.all fun x =>
      (s.core (place x)).work.isNone && (s.core (place x)).heldFor.isNone && s.splitFits (place x) split
    let reserved := alone && s.reservedFor (clusterOf onto)
    let busy := r.clus.isSome && !(s.cluster (clusterOf (place r))).order.isEmpty
    let held := (s.ctxs.find ctx).any (·.held)
    if !fits || !free || reserved || busy || held || !(s.ctxs.find ctx).isSome || 512 ≤ onto then .next s
    else
      let s := group.foldl (fun s x => (s.applySplit (place x) split).modTile (tileOf (place x)) Tile.closeWindow) s
      let s := group.foldl (fun s x => s.restoreCore x (place x)) s
      match r.work.node with
      | some n => .next (s.modNode ctx r.work.launch n fun x => { x with saved := false, core := some (place r) })
      | none => .next s

/-! ## WATCHDOG_EXPIRY (R248) -/

/-- The watchdog count of a core's work, a node's earlier runs included. -/
def State.wdCount (s : State) (c : CoreId) : Nat :=
  let q := s.core c
  match q.work with
  | none => 0
  | some w =>
    let mine := ((s.membersOf c).map fun m => (s.core m).wd).foldl max 0
    match w.node with
    | none => q.wd
    | some n => mine + ((s.node? w.ctx w.launch n).map (·.wd)).getD 0

def execWatchdogExpiry (c : CoreId) (s : State) : Host.Outcome State Fault Refusal :=
  let q := s.core c
  let limit := ((q.work.bind fun w => s.ctxs.find w.ctx).map (·.wdLimit)).getD 0
  if q.pre != .run || limit = 0 || s.wdCount c ≤ 1000 * limit || s.isEnding c then .next s
  else .next (s.requestAll (s.groupOf c) .watchdog)

end Sys2Proof.Machine
end

