-- ==== Sys2Proof/Machine/Launch.lean ====
section
/-! DEFINITION. Launch cards and their admission: format, resources, graph, entries and the verifier (09_execution R210 to
R216, log 16). -/
namespace Sys2Proof.Machine
open Sys2Proof

/-! ## The keys of a card (R210) -/

/-- Keys that take one value: equal numbers name the same key. -/
def CardKey.slot : CardKey → Option Nat
  | .stack _ => some 0
  | .ovf _ => some 1
  | .scratch _ => some 2
  | .handles _ => some 3
  | .barriers _ => some 4
  | .lregs _ => some 5
  | .near _ => some 6
  | .persist _ => some 7
  | .pclusters _ _ => some 8
  | .arg _ => some 9
  | .entry _ => some 10
  | .cls _ => some 11
  | .idem _ => some 12
  | .nodeArg _ => some 13
  | .prio _ => some 14
  | .tensor name _ _ _ _ => some (16 + name)
  | .node _ | .out _ _ _ | .wout _ _ _ | .inTile _ _ | .after _ | .unknown => none

/-- Keys that apply to a node. -/
def CardKey.ofNode : CardKey → Bool
  | .entry _ | .cls _ | .idem _ | .nodeArg _ | .prio _ | .out _ _ _ | .wout _ _ _ | .inTile _ _ | .after _ => true
  | .stack _ | .ovf _ | .scratch _ | .handles _ | .barriers _ | .lregs _ | .near _ | .persist _ | .pclusters _ _
  | .arg _ | .tensor _ _ _ _ _ | .node _ | .unknown => false

/-- The value keeps the limits of form (R210). What exceeds a resource of R213 is no matter of form. -/
def CardKey.formOk : CardKey → Bool
  | .stack n | .ovf n | .scratch n => n % 128 == 0
  | .lregs n => decide (16 < n) || n % 4 == 0
  | .tensor _ _ _ tile cols =>
    tile % 128 == 0 && decide (0 < tile) && decide (tile ≤ 2 ^ 24) &&
      (match cols with
        | some k => decide (1 ≤ k) && decide (k ≤ 2 ^ 20)
        | none => true)
  | .near n => decide (n ≤ 65535)
  | .pclusters first count => decide (first + count ≤ 64)
  | .prio n => decide (n ≤ 7)
  | .wout slice off bytes => decide (slice < 8) && decide (off + bytes ≤ 2 ^ 26)
  | .unknown => false
  | .handles _ | .barriers _ | .persist _ | .arg _ | .node _ | .entry _ | .cls _ | .idem _ | .nodeArg _ | .out _ _ _
  | .inTile _ _ | .after _ => true

/-- A field with the node that it continues. -/
structure Scoped where
  scope : Option Nat
  off : Nat
  key : CardKey
  deriving DecidableEq, Repr

/-- The fields of a card, each under the node named last before it; keys of the card stand under none. -/
def inScope : Option Nat → List CardField → List Scoped
  | _, [] => []
  | cur, f :: r =>
    let cur := match f.key with
      | .node n => some n
      | _ => cur
    ⟨if f.key.ofNode then cur else none, f.off, f.key⟩ :: inScope cur r

/-- A tensor: base, bytes, tile bytes, columns. -/
structure Tensor where
  base : Nat
  bytes : Nat
  tile : Nat
  cols : Nat
  deriving DecidableEq, Repr

/-- The tensor of a name. -/
def tensorOf (fs : List Scoped) (name : Nat) : Option Tensor :=
  fs.findSome? fun f => match f.key with
    | .tensor n base bytes tile cols => if n = name then some ⟨base, bytes, tile, cols.getD (bytes / tile)⟩ else none
    | _ => none

/-- The bytes of a tile: none outside its region (R211). -/
def Tensor.range (t : Tensor) (row col : Nat) : Option (Nat × Nat) :=
  let o := (row * t.cols + col) * t.tile
  if o + t.tile ≤ t.bytes then some (t.base + o, t.tile) else none

def tileRange (fs : List Scoped) (name row col : Nat) : Option (Nat × Nat) :=
  (tensorOf fs name).bind fun t => t.range row col

/-- The names of a card's nodes, in the order of their first field. -/
def nodeNames (fs : List Scoped) : List Nat :=
  distinct (fs.filterMap fun f => match f.key with
    | .node n => some n
    | _ => none)

/-- The fields of one node. -/
def fieldsFor (fs : List Scoped) (name : Nat) : List Scoped := fs.filter fun f => f.scope == some name

def outsOf (fs : List Scoped) (name : Nat) : List Scoped := (fieldsFor fs name).filter fun f => match f.key with
  | .out _ _ _ => true
  | _ => false
def woutsOf (fs : List Scoped) (name : Nat) : List Scoped := (fieldsFor fs name).filter fun f => match f.key with
  | .wout _ _ _ => true
  | _ => false
def insOf (fs : List Scoped) (name : Nat) : List Scoped := (fieldsFor fs name).filter fun f => match f.key with
  | .inTile _ _ => true
  | _ => false

/-- The first value of a single-valued key in a scope. -/
def valueOf {α : Type} (fs : List Scoped) (scope : Option Nat) (pick : CardKey → Option α) : Option α :=
  fs.findSome? fun f => if f.scope == scope then pick f.key else none

/-! ## Order 1: LAUNCH_FORMAT (R214) -/

/-- The offset of the first field that a test picks. -/
def firstOff (fs : List Scoped) (p : CardKey → Bool) : Option Nat := (fs.find? fun f => p f.key).map (·.off)

/-- A field breaks the form of the card. `earlier`: the fields before it. -/
def badForm (fs earlier : List Scoped) (f : Scoped) : Bool :=
  !f.key.formOk || (f.key.ofNode && f.scope.isNone)
    || (earlier.any fun e => e.scope == f.scope && e.key.slot.isSome && e.key.slot == f.key.slot && e.key != f.key)
    || (match f.key with
      | .out n r c => (tileRange fs n r c).isNone
      | .inTile n (some (r, c)) => (tileRange fs n r c).isNone
      | .inTile n none => (tensorOf fs n).isNone
      | _ => false)

/-- Offsets of every field that is out of form, and of what is missing; `persist` and nodes together are at fault at the later
of their first fields (DESIGN CHOICE, log 16). -/
def formFaults (fs : List Scoped) : List Nat :=
  let names := nodeNames fs
  let nodeOff := fun (n : Nat) => ((firstOff fs fun k => k == .node n).toList)
  let persist := firstOff fs fun k => match k with
    | .persist _ => true
    | _ => false
  let pclusters := firstOff fs fun k => match k with
    | .pclusters _ _ => true
    | _ => false
  let node := firstOff fs fun k => match k with
    | .node _ => true
    | _ => false
  (fs.zipIdx.filterMap fun (f, i) => if badForm fs (fs.take i) f then some f.off else none)
    ++ names.flatMap (fun n =>
      let outs := outsOf fs n
      let wouts := woutsOf fs n
      (if outs.length + wouts.length ≤ 12 then ((outs.drop 8) ++ (wouts.drop 4)).map (·.off) else [])
        ++ ((insOf fs n).drop 16).map (·.off)
        ++ (if outs.isEmpty || (fieldsFor fs n).all fun f => f.key.slot != some 10 then nodeOff n else []))
    ++ (match persist, node with
      | some a, some b => [max a b]
      | _, _ => [])
    ++ (match persist, pclusters with
      | some a, none => [a]
      | _, _ => [])

def least : List Nat → Option Nat
  | [] => none
  | a :: r => some (r.foldl min a)

/-! ## Order 2: LAUNCH_RESOURCE (R213) -/

/-- A request above what there is: where it stands in the card, and what the record carries. -/
structure Excess where
  off : Nat
  code : Nat
  asked : Nat
  avail : Nat
  node : Nat
  deriving DecidableEq, Repr

def numKey (code : Nat) : CardKey → Option Nat
  | .ovf n => if code = 2 then some n else none
  | .handles n => if code = 3 then some n else none
  | .barriers n => if code = 4 then some n else none
  | .lregs n => if code = 5 then some n else none
  | .stack n => if code = 10 then some n else none
  | .scratch n => if code = 11 then some n else none
  | .near n => if code = 12 then some n else none
  | .prio n => if code = 13 then some n else none
  | .tensor _ _ _ _ _ | .persist _ | .pclusters _ _ | .arg _ | .node _ | .entry _ | .cls _ | .idem _ | .nodeArg _
  | .out _ _ _ | .wout _ _ _ | .inTile _ _ | .after _ | .unknown => none

/-- The value of a numeric key of the card, or its default. -/
def cardNum (fs : List Scoped) (code dflt : Nat) : Nat := (valueOf fs none (numKey code)).getD dflt

def isPersistent (fs : List Scoped) : Bool := fs.any fun f => f.key.slot == some 7

/-- The predecessor names of a node, its lines together. -/
def afterNames (fs : List Scoped) (name : Nat) : List Nat :=
  (fieldsFor fs name).flatMap fun f => match f.key with
    | .after l => l
    | _ => []

def lastOff (fs : List Scoped) (p : CardKey → Bool) : Nat := ((fs.filter fun f => p f.key).getLast?.map (·.off)).getD 0

/-- Every request of a card that exceeds R213. In card order a node's outputs stand at its last `out` or `wout` line, its
predecessors at its last `after` line, and the nodes at the first field of the last (DESIGN CHOICE, log 75: R214 says it of
SCRATCH). -/
def excesses (fs : List Scoped) (split : Nat) : List Excess :=
  let share := scratchBytes split / (if isPersistent fs then 1 else 4)
  let asked := cardNum fs 10 0 + cardNum fs 11 0
  let scratchOff := lastOff fs fun k => (numKey 10 k).isSome || (numKey 11 k).isSome
  let one := fun (code avail : Nat) =>
    let n := cardNum fs code 0
    if avail < n then [(⟨(firstOff fs fun k => (numKey code k).isSome).getD 0, code, n, avail, 0xFFFFFFFF⟩ : Excess)] else []
  let names := nodeNames fs
  (if share < asked then [⟨scratchOff, 1, asked, share, 0xFFFFFFFF⟩] else [])
    ++ one 2 (2 ^ 32) ++ one 3 16 ++ one 4 128 ++ one 5 16
    ++ names.zipIdx.flatMap (fun (n, i) =>
      let outs := (outsOf fs n).length + (woutsOf fs n).length
      let preds := (afterNames fs n).length
      let off := fun (p : CardKey → Bool) => lastOff (fieldsFor fs n) p
      (if 12 < outs then [⟨off (fun k => match k with
          | .out _ _ _ | .wout _ _ _ => true
          | _ => false), 6, outs, 12, i⟩] else [])
        ++ (if 32 < preds then [⟨off (fun k => match k with
          | .after _ => true
          | _ => false), 7, preds, 32, i⟩] else []))
    ++ (if 1048576 < names.length then
        [⟨((names.getLast?.bind fun n => firstOff fs fun k => k == .node n)).getD 0, 8, names.length, 1048576, 0xFFFFFFFF⟩]
      else [])

/-- The first failing request in card order. -/
def firstExcess : List Excess → Option Excess
  | [] => none
  | a :: r => some (r.foldl (fun b x => if x.off < b.off then x else b) a)

/-! ## Order 3: LAUNCH_GRAPH -/

/-- Predecessor indices of every node; an unknown name is past the end. -/
def graphOf (fs : List Scoped) : List (List Nat) :=
  let names := nodeNames fs
  names.map fun n => (afterNames fs n).map fun a => names.idxOf a

/-- The nodes that lead to a set, one step further. -/
def reachStep (g : List (List Nat)) (l : List Nat) : List Nat := distinct (l ++ l.flatMap fun i => g.getD i [])

def reachAll (g : List (List Nat)) : Nat → List Nat → List Nat
  | 0, l => l
  | n + 1, l => reachAll g n (reachStep g l)

/-- A node lies on a cycle. -/
def onCycle (g : List (List Nat)) (i : Nat) : Bool := (reachAll g g.length (g.getD i [])).contains i

def graphFault (g : List (List Nat)) : Option Nat :=
  match g.findIdx? fun l => l.any (g.length ≤ ·) with
  | some i => some i
  | none => (List.range g.length).find? (onCycle g)

/-! ## Orders 4 and 5: entries and the verifier (R215) -/

/-- The word of code at a generic address of a context, at the home that the check's walk assigns (R311), the pairs pending on its
apply block folded first (R373). -/
def State.codeAt (s : State) (ctx va : Nat) : Option Word :=
  if va % 8 != 0 || !isGlobal va then none
  else
    match s.walk ctx va with
    | .error _ => none
    | .ok x => if s.viewBad (x.key va) then none else
      let s := (s.applyBlock (x.key va / 128)).getD s
      some (s.homeWord (s.homeOf ctx va (assignLeaf (portCoreOf va) x.leaf)) (x.key va))

/-- The header at an address; none where its page is absent, which rejects an entry with LAUNCH_ENTRY and ends a walk of the
verifier there without one (DESIGN CHOICE, log 55). -/
def State.headerAt (s : State) (ctx va : Nat) : Option Header :=
  match s.codeAt ctx va with
  | none => none
  | some w => if isHeader w then some (headerOf w) else none

/-- The opcode of a word that decodes in some vector mode. -/
def wordOp (w : Word) : Option Nat :=
  match decodeIn 0 w, decodeIn 16 w with
  | .ok _, _ | _, .ok _ => some (unpack w).op.toNat
  | .error _, .error _ => none

/-- Instructions that raise NONIDEM_OP in an idempotent task, RFENCE not among them (log 79) (R102, R157, R194, R196, R200): REL, the atomics, SCST,
SCXCH, MPERM, ECSUM, TASKGET, TASKPUT, RPUT, RFLAG, RSEND, RRECV. -/
def nonIdemOps : List Nat :=
  [0x112, 0x118, 0x119, 0x11A, 0x11B, 0x11C, 0x11D, 0x11E, 0x11F, 0x120, 0x129, 0x12A, 0x1B1, 0x1EC, 0x1F0, 0x1F1, 0x1F8,
   0x1F9, 0x1FB, 0x1FC]

/-- MSCL, MBLD and CTHR, which need a `wout`. -/
def woutOps : List Nat := [0x1B2, 0x1B8, 0x1CA]

/-- Both guards are p0. -/
def Ctl.unguarded (c : Ctl) : Bool := !c.g1.neg && c.g1.idx == 0 && !c.g2.neg && c.g2.idx == 0

/-- What a walked word does to the walk of its block. -/
inductive WalkStep where
  | reject
  | next (target : Option Nat)
  | stop (target : Option Nat)
  | call (target : Option Nat)
  deriving DecidableEq, Repr

/-- One word of a walk. -/
def walkWord (wout : Bool) (a : Nat) (w : Word) : WalkStep :=
  let f := unpack w
  let target := (BitVec.ofNat 64 a + 8 * f.imm24.signExtend 64).toNat
  match wordOp w with
  | none => .next none
  | some op =>
    let free := Ctl.unguarded f.ctl
    if nonIdemOps.contains op || (!wout && woutOps.contains op) then .reject
    else if op == 0x002 then (if free then .stop (some target) else .next (some target))
    else if op == 0x003 || op == 0x008 then .next (some target)
    else if op == 0x005 then (if free then .call (some target) else .next (some target))
    else if op == 0x006 then (if free then .call none else .next none)
    else if op == 0x004 || op == 0x007 || op == 0x1F2 || op == 0x1F3 then (if free then .stop none else .next none)
    else .next none

/-- The walk of a block's words from `a` on, `n` of them left: where it leads, or the word that rejects. `after`: the
fall-through block. -/
def State.walkBlock (s : State) (ctx : Nat) (wout : Bool) (after : Nat) : Nat → Nat → List Nat → Except (Nat × Nat) (List Nat)
  | 0, _, acc => .ok (acc ++ [after])
  | n + 1, a, acc =>
    match s.codeAt ctx a with
    | none => s.walkBlock ctx wout after n (a + 8) acc
    | some w =>
      if isHeader w then s.walkBlock ctx wout after n (a + 8) acc
      else
        match walkWord wout a w with
        | .reject => .error (a, (unpack w).op.toNat)
        | .next t => s.walkBlock ctx wout after n (a + 8) (acc ++ t.toList)
        | .stop t => .ok (acc ++ t.toList)
        | .call t => .ok (acc ++ t.toList ++ [after])

/-- Walks every block reached, those met first first: the first word met that rejects, which the record names (R215; of
several DESIGN CHOICE, log 55), and the headers that were read. -/
def State.verifyFrom (s : State) (ctx : Nat) (wout : Bool) : Nat → List Nat → List Nat → Option (Nat × Nat) × List Nat
  | 0, _, seen => (none, seen)
  | _, [], seen => (none, seen)
  | fuel + 1, h :: todo, seen =>
    if seen.contains h then s.verifyFrom ctx wout fuel todo seen
    else
      match s.headerAt ctx h with
      | none => s.verifyFrom ctx wout fuel todo (h :: seen)
      | some x =>
        match s.walkBlock ctx wout (h + 8 * (x.len + 1)) x.len (h + 8) [] with
        | .error e => (some e, h :: seen)
        | .ok ts => s.verifyFrom ctx wout fuel (todo ++ ts) (h :: seen)

/-- The verifier's answer for a node, in more steps than there are words of code, and the headers it read. -/
def State.verify (s : State) (ctx : Nat) (wout : Bool) (entry : Nat) : Option (Nat × Nat) × List Nat :=
  s.verifyFrom ctx wout (2 ^ 60) [entry] []

/-- The pages of blocks that the checks of a card have read: their leaves are marked and assigned (R307, R311), and the pairs
pending on the apply blocks of their lines are applied (R373). -/
def State.walkCode (s : State) (ctx : Nat) (headers : List Nat) : State :=
  let ends := headers.map fun h => (h, h + 8 * ((s.headerAt ctx h).map (·.len)).getD 0)
  let pages := ends.flatMap fun (h, e) => [alignDown h 4096, alignDown e 4096]
  let s := (distinct (pages.filter isGlobal)).foldl (fun s a => (s.xlatEngine (portCoreOf a) ctx a false).1) s
  let lines := ends.flatMap fun (h, e) => (rangeFrom (h / 128) (e / 128 + 1 - h / 128)).map (128 * ·)
  (distinct (lines.filter isGlobal)).foldl (fun s a =>
    match s.walk ctx a with
    | .error _ => s
    | .ok x => (s.applyBlock (x.key a / 128)).getD s) s

/-! ## Admission (R214) -/

/-- A node of a card, as admitted. -/
def cardNode (fs : List Scoped) (names : List Nat) (name : Nat) : Node :=
  let v := fun {α : Type} (pick : CardKey → Option α) => valueOf fs (some name) pick
  { entry := (v fun k => match k with
      | .entry e => some e
      | _ => none).getD 0
    gang := (v fun k => match k with
      | .cls g => some g
      | _ => none).getD false
    idem := (v fun k => match k with
      | .idem b => some b
      | _ => none).getD true
    arg := (v fun k => match k with
      | .nodeArg a => some a
      | _ => none).getD 0
    outs := (outsOf fs name).filterMap fun f => match f.key with
      | .out n r c => tileRange fs n r c
      | _ => none
    wouts := (woutsOf fs name).filterMap fun f => match f.key with
      | .wout slice off bytes => some (slice * 2 ^ 26 + off, bytes)
      | _ => none
    after := (afterNames fs name).map fun a => names.idxOf a
    prio := (v (numKey 13)).getD 0
    st := .waiting }

/-- The entries of a card with the node index that a record carries: a node's, or the persistent program's. -/
def cardEntries (fs : List Scoped) (nodes : List Node) : List (Nat × Word) :=
  (match valueOf fs none (fun k => match k with
    | .persist e => some e
    | _ => none) with
  | some e => [(0xFFFFFFFF, e)]
  | none => []) ++ nodes.zipIdx.map fun (x, i) => (i, x.entry)

/-- The launch that a card makes. -/
def cardLaunch (fs : List Scoped) (ctx : Nat) (id : Word) (nodes : List Node) : Launch :=
  let pcl := (valueOf fs none fun k => match k with
    | .pclusters f c => some (f, c)
    | _ => none).getD (0, 0)
  let arg := (valueOf fs none fun k => match k with
    | .arg a => some a
    | _ => none).getD 0
  { ctx := ctx, id := id, near := cardNum fs 12 2000, scratch := cardNum fs 11 0, nodes := nodes
    grants := { handles := cardNum fs 3 0, barriers := cardNum fs 4 0, lregs := cardNum fs 5 0, stack := cardNum fs 10 0,
                ovf := cardNum fs 2 0 }
    persist := (valueOf fs none fun k => match k with
      | .persist e => some e
      | _ => none).map fun e => (e, pcl.1, pcl.2, arg) }

/-- Admits a card, or rejects it at the first failing order (R210, R214). A card with neither `persist` nor a node is admitted
and complete at once (DESIGN CHOICE, log 16). -/
def State.enrol (s : State) (seq ctx : Nat) (id : Word) (split : Nat) (card : List CardField) : State :=
  let fs := inScope none card
  let names := nodeNames fs
  let nodes := names.map (cardNode fs names)
  match least (formFaults fs), firstExcess (excesses fs split), graphFault (graphOf fs) with
  | some off, _, _ => s.reject ctx 1 seq [(24, 4, off)]
  | none, some x, _ =>
    s.reject ctx 2 seq [(28, 4, x.code), (32, 8, x.asked), (40, 8, x.avail), (48, 4, x.node)]
  | none, none, some i => s.reject ctx 3 seq [(48, 4, i)]
  | none, none, none =>
    let entries := cardEntries fs nodes
    let checks := nodes.map fun x => if x.idem then s.verify ctx (!x.wouts.isEmpty) x.entry.toNat else (none, [])
    let bad := entries.find? fun (_, e) => !((s.headerAt ctx e.toNat).any fun h => h.kind == 3)
    let s := s.walkCode ctx (if bad.isSome then entries.map (·.2.toNat) else entries.map (·.2.toNat) ++ checks.flatMap (·.2))
    match bad with
    | some (i, e) => s.reject ctx 4 seq [(48, 4, i), (52, 8, e.toNat)]
    | none =>
      match checks.zipIdx.findSome? fun (x, i) => x.1.map (i, ·) with
      | some (i, a, op) => s.reject ctx 5 seq [(48, 4, i), (52, 8, a), (60, 2, op)]
      | none =>
        let s := { s with launches := s.launches ++ [cardLaunch fs ctx id nodes] }
        (s.settleGraph ctx id).reportLaunches

end Sys2Proof.Machine
end

