-- ==== Sys2Proof/Machine/HostRecords.lean ====
section
/-! DEFINITION. The host's records: what each does when it is consumed (23 R402 to R418, 09 R216, 10 R241 to R243,
14 R319). -/
namespace Sys2Proof
open Machine

/-- A scope of PREEMPT and RESUME names a node of a launch, or a persistent launch (R243, R405). -/
def ReqScope.names (sc : ReqScope) (id : Word) (node : Option Nat) : Bool :=
  match sc with
  | .node l n => id == l && node == some n
  | .launch l => id == l
  | .context => true

def ReqScope.has (sc : ReqScope) (w : WorkRef) : Bool := sc.names w.launch w.node

end Sys2Proof

namespace Sys2Proof.Machine
open Sys2Proof

/-- A field of a record outside its limits, by byte offset (R401). -/
def State.badField (s : State) (ctx seq off : Nat) : State := s.reject ctx 0x11 seq [(24, 4, off)]

/-- A context that is resident and not killed. -/
def State.resident (s : State) (ctx : Nat) : Bool := (s.ctxs.find ctx).any fun x => !x.dying

/-- A request before every core whose work a scope names. -/
def State.requestScope (s : State) (ctx : Nat) (sc : ReqScope) (r : Req) : State :=
  s.requestAll ((s.cores.filter fun (_, q) => q.work.any fun w => w.ctx == ctx && sc.has w).map (·.1)) r

/-! ## Kill (R216) -/

/-- Cancels a scope's nodes that run on no core: waiting, ready, held or saved ones. -/
def State.cancelNodes (s : State) (ctx : Nat) (sc : ReqScope) : State :=
  s.launches.foldl (fun s l =>
    if l.ctx != ctx || l.reported then s
    else
      l.nodes.zipIdx.foldl (fun s (x, n) =>
        if sc.names l.id (some n) && (x.st == .waiting || x.st == .ready || (x.st == .running && x.saved)) then
          ((s.dropSaved fun r => r.ctx == ctx && r.work.launch == l.id && r.work.node == some n).releaseHeld ctx l.id n).endNode
            ctx l.id n 0x41 0
        else s) s) s

/-- Persistent launches of a scope: saved cores end, and a launch that has not started ends whole. -/
def State.cancelPersistent (s : State) (ctx : Nat) (sc : ReqScope) : State :=
  let s := s.dropSaved fun r => r.ctx == ctx && r.work.node.isNone && sc.names r.work.launch none
  (s.launches.foldl (fun s l =>
    match l.persist with
    | none => s
    | some (_, first, count, _) =>
      if l.ctx == ctx && !l.reported && !l.started && sc.names l.id none then
        s.setLaunch { l with started := true, ended := rangeFrom (8 * first) (8 * count) }
      else s) s).reportLaunches

/-- A host kill of a scope (R216): what runs is requested to end, everything else ends at once. -/
def State.killScope (s : State) (ctx : Nat) (sc : ReqScope) : State :=
  ((s.cancelNodes ctx sc).cancelPersistent ctx sc).requestScope ctx sc .kill

/-- Discards every pair of a context; credits of those that travel go back (R376). -/
def State.discardPairs (s : State) (ctx : Nat) : State :=
  let fly := s.flight.filter (·.ctx == ctx)
  let s := { s with
    flight := s.flight.filter (·.ctx != ctx)
    sorters := s.sorters.mapVals fun _ x => x.without (·.ctx == ctx) }
  fly.foldl (fun s p => s.modCore p.src fun q => { q with credits := min 256 (q.credits + 1) }) s

/-! ## Retirement of a killed context (R216, R314, R376, R378) -/

/-- An operation that has still to run to its end: none that waits for a page or for another package. -/
def EngOp.pressing (o : EngOp) : Bool := o.page.isNone && o.tl != .rg

/-- Nothing of a killed context is left on a core, in an engine or under way. -/
def State.retirable (s : State) (ctx : Nat) : Bool :=
  (s.cores.all fun (_, q) => q.work.all (·.ctx != ctx)) && (s.saved.all (·.ctx != ctx))
    && (s.ops.all fun o => o.ctx != ctx || !o.pressing) && s.migrations.all (·.ctx != ctx)

/-- The lines of frames that a context was the last to use. -/
def State.usedBy (s : State) (ctx line : Nat) : Bool := (s.frames.find (line / 32)).any (·.ctx == ctx)

/-- Operations leave the job queues and engine orders, where a started one would hold its slices for ever (R216, R329). -/
def State.dropJobs (s : State) (p : EngOp → Bool) : State :=
  let gone := (s.ops.filter p).map (·.ref)
  let op := fun (x : MxOp) => !x.parts.any gone.contains
  let job := fun (j : JobRef) => !gone.contains j
  { s with clusters := s.clusters.mapVals fun _ k =>
      { k with jobs := k.jobs.filter job, offers := k.offers.filter job, late := k.late.filter job, order := k.order.filter op
               pending := k.pending.filter op } }

/-- The context goes: its pairs, regions, objects, queue entries and translations with it; its lines leave the L1s and the
L2 slices, written back (R263, R314). -/
def State.retire (s : State) (ctx : Nat) : State :=
  let s := (s.discardPairs ctx).dropJobs fun o => o.ctx == ctx
  let s := { s with
    ops := s.ops.filter (·.ctx != ctx)
    regions := s.regions.filter fun (_, g) => g.ctx != ctx
    objs := s.objs.filter fun (k, _) => k / 65536 != ctx
    pageReqs := s.pageReqs.filter (·.ctx != ctx)
    dies := s.dies.mapVals fun _ d => { d with pq := d.pq.filter (·.ctx != ctx), held := [] }
  }.tlbDropAll (fun _ => true) (·.ctx == ctx) (·.ctx == ctx)
  let s := (s.dropOrphans.reportLaunches).l1SweepAll true fun line _ => s.usedBy ctx line
  let s := s.l2EvictAll fun _ t => t.dom == ctx
  { s with ctxs := s.ctxs.erase ctx, frames := s.frames.filter fun (_, f) => f.ctx != ctx }

/-- Retires every killed context of which nothing is left. -/
def State.retireAll (s : State) : State :=
  s.ctxs.foldl (fun s (ctx, x) => if x.dying && s.retirable ctx then s.retire ctx else s) s

/-! ## DEV_CONFIG (R404, R406, R418) -/

/-- Bytes of HBM (R304). -/
def hbmBytes : Nat := 0x4800000000

/-- The allocations of a configuration block. -/
def State.cfgOf (s : State) (b : Nat) : DevCfg :=
  let w := fun (o : Nat) => s.paNum (b + o) 8
  { placed := true
    streams := (List.range 17).map fun n => (n, (w (16 * n), s.paNum (b + 16 * n + 8) 1))
    evBase := w 0x110, evLog := w 0x118, backlogBase := w 0x120, keptBase := w 0x128, telBase := w 0x130
    telSize := w 0x138
    spill := (List.range 16).map fun k => (k, (w (0x140 + 16 * k), w (0x148 + 16 * k)))
    syncOvf := (List.range 4).map fun d => (d, (w (0x240 + 16 * d), w (0x248 + 16 * d)))
    viewTable := w 0x280
    alloc := (List.range 16).map fun c => (c, s.paNum (b + 0x288 + c) 1)
    pools := (List.range 16).map fun c => (c, (w (0x300 + 16 * c), w (0x308 + 16 * c))) }

/-- The block keeps the limits of R406; what the bases of the overflow pools and areas hold is not given, so that beyond their
sizes nothing reads them (log 77). -/
def State.cfgGood (s : State) (b : Nat) : Bool :=
  let k := s.cfgOf b
  let log := fun (n : Nat) => decide (6 ≤ n) && decide (n ≤ 20)
  (k.streams.all fun (_, base, n) => base % 64 == 0 && log n) && k.evBase % 4096 == 0 && log k.evLog
    && decide (k.backlogBase + 64 * backlogCap ≤ hbmBytes) && decide (k.keptBase + 64 * keptCap ≤ hbmBytes)
    && (k.spill.all fun (_, base, n) => base % 4096 == 0 && n % 4096 == 0 && decide (base + n ≤ hbmBytes)) && k.viewTable % 65536 == 0
    && (k.alloc.all fun (_, n) => decide (n ≤ 4)) && (k.pools.all fun (c, base, n) => base % 128 == 0 && (n == 0 || decide (base < 2 ^ 52) && onTier base && tierChannel base == c && !s.meetsPersist base (128 * n)))
    && (s.paRead (b + 0x298) 0x68).all (· == 0) && (s.paRead (b + 0x400) 0xC00).all (· == 0)

/-- Every line of the capacity tier becomes a ZERO line (R418); a persistent region holds none (R399). -/
def State.resetTier (s : State) : State :=
  let s := s.l2DropAll fun line _ => s.tiered (128 * line)
  { s with
    tier := [], tierTags := [], pools := []
    cores := s.cores.mapVals fun _ q => { q with early := q.early.filter fun (a, _) => !s.tiered a }
    tiles := s.tiles.mapVals fun _ t => { t with
      l1 := t.l1.filter fun (line, _) => !s.tiered (128 * line)
      l1Order := t.l1Order.filter fun line => !s.tiered (128 * line)
      l1Poison := t.l1Poison.filter fun line => !s.tiered (128 * line) } }

/-- The bytes of a record that names one word at byte 16. -/
def recordImage (seq type b12 b13 : Nat) (w : Word) : List Byte :=
  recordBytes [(0, 8, seq), (8, 4, type), (12, 1, b12), (13, 1, b13), (16, 8, w.toNat)]

def State.recDevConfig (s : State) (seq : Nat) (block : Word) : State :=
  let b := block.toNat
  if !s.ctxs.isEmpty then s.reject 0xFF 0x12 seq []
  else if b % 4096 != 0 || !s.cfgGood b then s.badField 0xFF seq 16
  else
    let s := { s with cfg := s.cfgOf b, devRec := recordImage seq 0x01 0 0 block ++ s.paRead b 4096 }
    let s := s.resetTier
    State.drainBacklog s.backlog.length s

/-! ## CTX_CREATE and CTX_KILL (R404, R407) -/

def State.recCtxCreate (s : State) (seq ctx split : Nat) (gen root vec : Word) (wdLimit : Nat) (block : Word) : State :=
  let b := block.toNat
  let w := fun (o : Nat) => s.paNum (b + o) 8
  if 16 ≤ ctx then s.badField 0xFF seq 12
  else if 8 < split then s.badField ctx seq 13
  else if root.toNat % 4096 != 0 then s.badField ctx seq 24
  else if 2 ^ 56 ≤ vec.toNat then s.badField ctx seq 32
  else if b % 4096 != 0 || w 0 % 4096 != 0 || w 0x18 != 0 || (s.paRead (b + 0x160) 0xEA0).any (· != 0) then
    s.badField ctx seq 48
  else if (s.ctxs.find ctx).isSome then s.reject ctx 0x12 seq []
  else
    let x : Ctx :=
      { gen := gen, root := root.toNat, vec := vec, wdLimit := wdLimit, split := split, save := w 0, faultLog := w 8
        objTable := w 0x10, wparts := BitVec.ofNat 512 (s.paNum (b + 0x20) 64)
        subsets := (List.range 16).map fun k => (k, BitVec.ofNat 128 (s.paNum (b + 0x60 + 16 * k) 16)) }
    { s with ctxs := s.ctxs.set ctx x }

def State.recCtxKill (s : State) (seq ctx : Nat) (gen : Word) : State :=
  match s.ctxs.find ctx with
  | none => s.reject ctx 0x13 seq []
  | some x =>
    if x.dying then s.reject ctx 0x13 seq []
    else if x.gen != gen then s.reject ctx 0x15 seq []
    else
      let s := { s with ctxs := s.ctxs.set ctx { x with dying := true }, pageReqs := s.pageReqs.filter (·.ctx != ctx) }
      ((s.killScope ctx .context).discardPairs ctx).retireAll

/-! ## LAUNCH, PREEMPT, RESUME (R214, R243, R404) -/

/-- LAUNCH: the fields of the card that its size holds. -/
def State.recLaunch (s : State) (seq ctx : Nat) (id card : Word) (size : Nat) : State :=
  match s.ctxs.find ctx with
  | none => s.reject ctx 0x13 seq []
  | some x =>
    if x.dying then s.reject ctx 0x13 seq []
    else if (s.launch? ctx id).isSome then s.badField ctx seq 16
    else
      match s.cards.find card.toNat with
      | none => s.reject ctx 1 seq []
      | some fields => s.enrol seq ctx id x.split (fields.filter fun f => decide (f.off < size))

def State.recPreempt (s : State) (seq ctx : Nat) (sc : ReqScope) : State :=
  if s.resident ctx then s.requestScope ctx sc (.preempt 1) else s.reject ctx 0x13 seq []

def State.recKill (s : State) (seq ctx : Nat) (sc : ReqScope) : State :=
  if s.resident ctx then s.killScope ctx sc else s.reject ctx 0x13 seq []

/-- RESUME: saved work of the scope may come back; a context is held no longer. -/
def State.recResume (s : State) (seq ctx : Nat) (sc : ReqScope) : State :=
  match s.ctxs.find ctx with
  | none => s.reject ctx 0x13 seq []
  | some x =>
    if x.dying then s.reject ctx 0x13 seq []
    else
      let s := { s with saved := s.saved.map fun r =>
        if r.ctx == ctx && sc.has r.work then { r with resumed := true } else r }
      match sc with
      | .context => { s with ctxs := s.ctxs.set ctx { x with held := false, recsHeld := false } }
      | .node _ _ | .launch _ => s

/-! ## PAGE_ANSWER (R241, R242) -/

/-- An operation that waits for a page: as it says, or a gather of which some row lies there. -/
def EngOp.awaits (o : EngOp) (page : Nat) : Bool :=
  o.page == some page || match o.kind with
    | .gather _ _ base idx row todo _ => todo.any fun e =>
      let a := (base + BitVec.ofNat 64 (idx.getD e 0) * BitVec.ofNat 64 row).toNat
      decide (a < page + 4096) && decide (page < a + row)
    | _ => false

/-- A refused page ends the work that waits for it (R241). -/
def State.denyCore (s : State) (c : CoreId) : State :=
  match (s.core c).work with
  | none => s
  | some w =>
    let s := if w.node.isNone then s.workEvent Config.pageDeniedSubtype c w 0 0 0 0 0 else s
    s.endWork c 0x10

/-- A page request of a context is answered. -/
def State.answerPage (s : State) (ctx page : Nat) (refused : Bool) : State :=
  let waiting := (s.cores.filter fun (_, q) => q.work.any (·.ctx == ctx) && q.waitPage == some page).map (·.1)
  let s := waiting.foldl (fun s c =>
    if !refused then s.modCore c fun q => { q with waitPage := none }
    else if (s.core c).waitPage == some page then s.denyCore c else s) s
  let s := s.launches.foldl (fun s l =>
    if l.ctx != ctx || l.reported then s
    else l.nodes.zipIdx.foldl (fun s (x, n) =>
      if x.page != some page then s
      else if refused then (s.releaseHeld ctx l.id n).endNode ctx l.id n 0x10 0
      else s.modNode ctx l.id n fun x => { x with page := none }) s) s
  let s := { s with ops := s.ops.map fun (o : EngOp) =>
    if o.ctx != ctx || !o.awaits page then o
    else { o with page := none, denied := if refused then addNew o.denied page else o.denied } }
  s.ringAnswer ctx page refused

def State.recPageAnswer (s : State) (seq ctx : Nat) (refused : Bool) (gen va : Word) : State :=
  let page := va.toNat
  if page % 4096 != 0 then s.badField ctx seq 24
  else if (s.ctxs.find ctx).any (fun x => x.gen == gen && !x.dying)
      && s.pageReqs.any (fun r => r.ctx == ctx && r.gen == gen && r.page == page) then
    ({ s with pageReqs := s.pageReqs.filter fun r => !(r.ctx == ctx && r.gen == gen && r.page == page) }).answerPage
      ctx page refused
  else { s with bar0 := { s.bar0 with stale := min (2 ^ 32 - 1) (s.bar0.stale + 1) } }

/-! ## MIGRATE (R319) -/

def migrateBytes (size : Nat) : Nat := [4096, 65536, 2097152].getD size 1073741824

/-- Memory that a migration may place a page in: HBM, or the capacity tier, which holds no persistent region (R319, R399). -/
def State.isFrame (s : State) (a n : Nat) : Bool :=
  let ok := fun (x : Nat) => storeOf x == .hbm || onTier x
  decide (a + n ≤ 2 ^ 52) && ok a && ok (a + n - 1) && !s.meetsPersist a n

def State.recMigrate (s : State) (seq ctx size alloc : Nat) (va target replica : Word) : State :=
  let n := migrateBytes size
  if !s.resident ctx then s.reject ctx 0x13 seq []
  else if 3 < size then s.badField ctx seq 13
  else if 4 < alloc || (!s.tiered target.toNat && alloc != 0) then s.badField ctx seq 14
  else if target.toNat % n != 0 || !s.isFrame target.toNat n then s.badField ctx seq 24
  else
    match s.walk ctx va.toNat with
    | .error _ => s.badField ctx seq 16
    | .ok x =>
      let src := alignDown (pteFrame x.leaf) n
      let m : Migration := { ctx := ctx, va := va.toNat, size := n, src := src, dst := target.toNat, alloc := alloc,
                             replica := if replica = 0 then none else some replica.toNat }
      if va.toNat % n != 0 || x.size != n || pteView x.leaf != 0 || !s.isFrame src n || s.migrating (src / 128) then
        s.badField ctx seq 16
      else { s with migrations := s.migrations ++ [m] }

def inFrame (base n a : Nat) : Bool := decide (base ≤ a) && decide (a < base + n)

/-- The overflow slots of a frame on the tier are given up; a line that lay in one is a ZERO line then, and keeps its ALLOC
(R320, R418, log 57). -/
def State.freeSlots (s : State) (base n : Nat) : State :=
  s.tierTags.foldl (fun s (line, t) =>
    let ch := tierChannel (128 * line)
    if t.ovf && inFrame base n (128 * line) then
      { s with
        tier := s.tier.erase line
        tierTags := s.tierTags.set line { check := crc32c (List.replicate 128 0), alloc := t.alloc }
        pools := s.pools.set ch ((s.slotsUsed ch).erase t.optr) }
    else s) s

/-- A line of F1 as the migration engine reads it, and whether it moves poisoned: one that is malformed is refetched from
the replica, where the record names one (R297, R319). -/
def State.frameLine (s : State) (m : Migration) (line : Nat) : List Byte × Bool :=
  match s.tiered (128 * line) && !(s.tierTag line).poison && s.tierMalformed line, m.replica with
  | true, some r => let l := (128 * line - m.src + r) / 128; (s.belowLine l, s.poisoned l)
  | true, none | false, _ => (s.belowLine line, s.poisoned line)

/-- Writes lines to F2, on the tier with fresh tags (R319). An error names the tier channel that has no slot for one. -/
def State.putLines (s : State) (alloc : Nat) : List (Nat × List Byte × Bool) → Except Nat State
  | [] => .ok s
  | (line, bytes, bad) :: r =>
    if s.tiered (128 * line) then
      let t : TierTag := { alloc := BitVec.ofNat 3 alloc }
      match ({ s with tierTags := s.tierTags.set line t } : State).tierAccept line bytes with
      | none => .error (tierChannel (128 * line))
      | some s => (s.setPoison line bad).putLines alloc r
    else if s.excluded (128 * line) then
      (({ s with safeCxl := s.safeCxl.write (128 * line) bytes } : State).setPoison line bad).putLines alloc r
    else (({ s with mem := s.mem.write (128 * line) bytes } : State).setPoison line bad).putLines alloc r

/-- Step 2: the bytes of F1, its dirty L2 tags written back, go to F2; and whether a line has moved poisoned. -/
def State.moveFrame (s : State) (m : Migration) : Except Nat (State × Bool) :=
  let s := s.l2EvictAll fun line _ => inFrame m.dst m.size (128 * line)
  let s := s.slices.foldl (fun s (h, x) => x.tags.foldl (fun s (line, _) =>
    if inFrame m.src m.size (128 * line) then s.l2WriteBack h line else s) s) s
  let lines := (List.range (m.size / 128)).map fun i => (m.dst / 128 + i, s.frameLine m (m.src / 128 + i))
  match (s.freeSlots m.dst m.size).putLines m.alloc lines with
  | .error ch => .error ch
  | .ok s =>
    .ok (if m.src = m.dst then s else s.freeSlots m.src m.size, lines.any fun (_, _, bad) => bad)

/-- Step 3: the leaf, or the 16 entries of a 64 KiB page, names F2, and no translation of the page is left. -/
def State.remap (s : State) (m : Migration) : State :=
  match s.walk m.ctx m.va with
  | .error _ => s
  | .ok x =>
    let one := fun (s : State) (a frame : Nat) =>
      let e := s.paNum a 8
      s.paWrite a (leBytes 8 (e - pteFrame e + frame))
    let s := if pteC64 x.leaf then
        (rangeFrom 0 16).foldl (fun s i => one s (x.pte / 128 * 128 + 8 * i) (m.dst + 4096 * i)) s
      else one s x.pte m.dst
    s.tlbDropAll (fun _ => true)
      (fun t => t.ctx == m.ctx && decide (t.va < m.va + m.size) && decide (m.va < t.va + t.size)) fun _ => false

/-- Where a physical address of the page lies after the move. -/
def Migration.move (m : Migration) (a : Nat) : Nat := if inFrame m.src m.size a then a - m.src + m.dst else a

/-- A leaf of the page after the move. -/
def Migration.moveLeaf (m : Migration) (leaf : Word) : Word :=
  let e := leaf.toNat
  BitVec.ofNat 64 (e - pteFrame e + m.move (pteFrame e))

/-- What fetches of a live launch may still yield of the page goes with it (02 R61). -/
def State.moveImage (s : State) (m : Migration) (l : Launch) : Launch :=
  if l.reported || !l.started then l
  else
    let img := s.imageOf l
    (List.range (m.size / 128)).foldl (fun l i =>
      let line := m.dst / 128 + i
      let bytes := img.paRead (m.src + 128 * i) 128
      let l := { l with imgL2 := l.imgL2.mapVals fun _ x => x.drop line }
      if s.tiered m.dst then
        { l with imgTier := l.imgTier.set line (encPayload 7 bytes), imgTags := l.imgTags.set line { enc := 7 } }
      else { l with img := l.img.write (m.dst + 128 * i) bytes }) l

/-- Accesses under way with the old frame go on at the new one: they wait at home and are performed at F2. -/
def Core.rebase (q : Core) (m : Migration) : Core :=
  { q with
    stores := q.stores.map fun p => if p.loc then p else { p with cells := p.cells.map fun (a, b) => (m.move a, b) }
    loads := q.loads.map fun l => { l with lanes := l.lanes.map fun x => { x with pa := m.move x.pa } }
    early := q.early.filter fun (a, _) => !inFrame m.src m.size a
    sc := q.sc.map fun o => { o with pa := m.move o.pa }
    bars := q.bars.mapVals fun _ b =>
      match b.arr with
      | some (.counters pa (some h) clear) => { b with arr := some (.counters (m.move pa) (some h) clear) }
      | _ => b }

/-- The frames, pinned translations and kept images of the page, and the pattern bytes on their way to it, are those of F2. -/
def State.rebase (s : State) (m : Migration) : State := { s with
  cores := s.cores.mapVals fun _ q => q.rebase m
  frames := s.frames.foldl (fun fs (k, f) =>
    if inFrame m.src m.size (4096 * k) then fs.set (m.move (4096 * k) / 4096) { f with leaf := m.moveLeaf f.leaf } else fs)
    s.frames
  regions := s.regions.mapVals fun _ g => if g.ctx != m.ctx then g
    else { g with pins := g.pins.map fun t => { t with leaf := m.moveLeaf t.leaf } }
  ops := s.ops.map fun (o : EngOp) => { o with
    stage := o.stage.foldl (fun st (k, b) => if inFrame m.src m.size k then (st.erase k).set (m.move k) b else st) o.stage }
  launches := s.launches.map (s.moveImage m)
  past := (s.past.filter fun (line, _) => m.src = m.dst || !inFrame m.dst m.size (128 * line)).map
    fun (line, bs) => (m.move (128 * line) / 128, bs) }

/-- Steps 2 to 5 of a migration. An error names the tier channel that has no slot for a line. -/
def State.finishMigration (s : State) (m : Migration) : Except Nat State :=
  let inSrc := fun (line : Nat) => inFrame m.src m.size (128 * line)
  match s.moveFrame m with
  | .error ch => .error ch
  | .ok (s, bad) =>
    let s := ((s.remap m).rebase m).l1SweepAll true fun line _ => inSrc line
    let s := s.l2EvictAll fun line _ => inSrc line
    let waits := s.homeQ.filter fun w => w.cells.any fun (a, _) => inFrame m.src m.size a
    let s := { s with
      migrations := s.migrations.filter (· != m)
      dies := s.dies.mapVals fun _ d => { d with held := d.held.filter (!inSrc ·) }
      homeQ := s.homeQ.map fun (w : HomeWrite) => { w with cells := w.cells.map fun (a, b) => (m.move a, b) } }
    let s := waits.foldl (fun s w => match w.cells with
      | [] => s
      | (a, _) :: _ => s.retryWrite (m.move a / 128)) s
    .ok (s.emit 0x20 [(12, 1, m.ctx), (13, 1, 3), (16, 8, m.va), (24, 1, if bad then 0x13 else 0), (56, 8, s.now)])

/-- A migration waits for an overflow slot; the host is told once (R320). -/
def State.migrationWaits (s : State) (m : Migration) (ch : Nat) : State :=
  if m.told then s
  else { s with migrations := s.migrations.map fun x => if x == m then { x with told := true } else x }.resourceEvent 4 0xFF ch

/-- MIGRATION_COMPLETE (R319): steps 2 to 5. -/
def execMigrationComplete (ctx page : Nat) (s : State) : Host.Outcome State Fault Refusal :=
  match s.migrations.find? fun m => m.ctx == ctx && m.va == page with
  | none => .next s
  | some m =>
    match s.finishMigration m with
    | .error ch => .next (s.migrationWaits m ch)
    | .ok s => .next s.retireAll

/-! ## SET_LIMIT, RING_CFG (R404, R412) -/

def State.recSetLimit (s : State) (seq w : Nat) : State :=
  if w < 100 || 1400 < w then s.badField 0xFF seq 16 else { s with limit := w }

/-- The channel entry at byte `o` of a ring block (R408). -/
def State.chanOf (s : State) (b o : Nat) : Chan :=
  let n := fun (i k : Nat) => s.paNum (b + o + i) k
  { core := n 0 2, ctx := n 2 1, rctx := n 3 1, rcore := n 4 2, valid := n 6 1 % 2 == 1, sends := n 6 1 / 2 % 2 == 1 }

def State.recRingCfg (s : State) (seq n pkg : Nat) (block : Word) : State :=
  let b := block.toNat
  if n < 2 || 16 < n then s.badField 0xFF seq 12
  else if n ≤ pkg then s.badField 0xFF seq 13
  else if b % 4096 != 0 || (s.paRead (b + 0x200) 0xE00).any (· != 0) then s.badField 0xFF seq 16
  else { s with
    ringRec := recordImage seq 0x0A n pkg block ++ s.paRead b 4096
    ring := { s.ring with
      n := n, pkgId := pkg
      peers := (List.range 256).map fun i => (i, s.paNum (b + i) 1)
      chans := (List.range 32).map fun i => (i, s.chanOf b (0x100 + 8 * i))
      links := allPaths.map fun p => (p, { s.link p with training := true }) } }

/-! ## Checkpoint and restore (R414, R415) -/

/-- The parts of a stream behind its header: HBM, the W-stack, the local memories, the LPDDR tier. -/
def wstackBytes : Nat := 512 * 2 ^ 26
def localBytes : Nat := 128 * 2 ^ 22
def lpddrBase : Nat := 0x10000000000
def headerBytes : Nat := 65536
def wOffset : Nat := headerBytes + hbmBytes
def lmOffset : Nat := wOffset + wstackBytes
def lpddrOffset : Nat := lmOffset + localBytes
def ckptBytes : Nat := lpddrOffset + 2 ^ 40

/-- The extents of a list in device memory. -/
def State.extentsOf (s : State) (list : Word) (count : Nat) : List (Nat × Nat) :=
  (List.range count).map fun i => (s.paNum (list.toNat + 16 * i) 8, s.paNum (list.toNat + 16 * i + 8) 8)

def extentsTotal (es : List (Nat × Nat)) : Nat := (es.map (·.2)).sum

/-- The address of a stream offset. -/
def extentAt : List (Nat × Nat) → Nat → Option Nat
  | [], _ => none
  | (a, n) :: r, o => if o < n then some (a + o) else extentAt r (o - n)

/-- The stream offset of an address. -/
def extentOffset : List (Nat × Nat) → Nat → Nat → Option Nat
  | [], _, _ => none
  | (b, n) :: r, o, a => if b ≤ a && a < b + n then some (o + (a - b)) else extentOffset r (o + n) a

/-- A context in the header of a stream: its number, the fields of its CTX_CREATE and of its context block. -/
def ctxNums (i : Nat) (x : Ctx) : List Nat :=
  [i, x.gen.toNat, x.root, x.vec.toNat, x.wdLimit, x.split, x.save, x.faultLog, x.objTable, x.wparts.toNat]
    ++ (List.range 16).map fun k => (x.subsets.get k 0).toNat

def ctxOfNums (l : List Nat) : Ctx :=
  let n := fun (i : Nat) => l.getD i 0
  { gen := BitVec.ofNat 64 (n 1), root := n 2, vec := BitVec.ofNat 64 (n 3), wdLimit := n 4, split := n 5, save := n 6
    faultLog := n 7, objTable := n 8, wparts := BitVec.ofNat 512 (n 9)
    subsets := (List.range 16).map fun k => (k, BitVec.ofNat 128 (n (10 + k))) }

/-- The contexts in a list of such numbers, `n` of them. -/
def ctxsOfNums : Nat → List Nat → SMap Ctx
  | 0, _ => []
  | n + 1, l => (ctxsOfNums n (l.drop 26)).set (l.getD 0 0 % 16) (ctxOfNums l)

def nodeCode : NodeSt → Nat
  | .waiting => 0
  | .ready => 1
  | .running => 2
  | .ending => 3
  | .done => 4
  | .failed => 5
  | .cancelled => 6

def nodeOfCode (n : Nat) : NodeSt := [NodeSt.waiting, .ready, .running, .ending, .done, .failed].getD n .cancelled

def bit (b : Bool) : Nat := if b then 1 else 0

/-- Lists in a row of numbers: their length, then their entries; pairs of numbers take two. -/
def listNums (l : List Nat) : List Nat := l.length :: l
def pairNums (l : List (Nat × Nat)) : List Nat := l.length :: l.flatMap fun (a, b) => [a, b]
def takeList (l : List Nat) : List Nat × List Nat := (l.tail.take (l.getD 0 0), l.tail.drop (l.getD 0 0))
def pairUp : List Nat → List (Nat × Nat)
  | a :: b :: r => (a, b) :: pairUp r
  | _ => []
def takePairs (l : List Nat) : List (Nat × Nat) × List Nat :=
  (pairUp (l.tail.take (2 * l.getD 0 0)), l.tail.drop (2 * l.getD 0 0))

/-- A node in the header: its lists, then its state and counts, and what its card says of it (R415, log 17). -/
def nodeNums (x : Node) : List Nat :=
  [nodeCode x.st, x.status.toNat, x.code.toNat, x.replays, x.wd, x.order, bit x.saved, x.entry.toNat, bit x.gang, bit x.idem,
    x.arg.toNat, x.prio] ++ pairNums x.outs ++ pairNums x.wouts ++ listNums x.after

def takeNode (l : List Nat) : Node × List Nat :=
  let n := fun (i : Nat) => l.getD i 0
  let (outs, r) := takePairs (l.drop 12)
  let (wouts, r) := takePairs r
  let (after, r) := takeList r
  ({ st := nodeOfCode (n 0), status := BitVec.ofNat 8 (n 1), code := BitVec.ofNat 64 (n 2), replays := n 3, wd := n 4
     order := n 5, saved := n 6 == 1, entry := BitVec.ofNat 64 (n 7), gang := n 8 == 1, idem := n 9 == 1
     arg := BitVec.ofNat 64 (n 10), prio := n 11, outs := outs, wouts := wouts, after := after }, r)

def takeNodes : Nat → List Nat → List Node × List Nat
  | 0, l => ([], l)
  | k + 1, l =>
    let (x, r) := takeNode l
    let (xs, r) := takeNodes k r
    (x :: xs, r)

/-- A live launch in the header. -/
def launchNums (l : Launch) : List Nat :=
  let p := l.persist.getD (0, 0, 0, 0)
  [l.ctx, l.id.toNat, l.near, l.scratch, l.grants.handles, l.grants.barriers, l.grants.lregs, l.grants.stack, l.grants.ovf,
    bit l.persist.isSome, p.1.toNat, p.2.1, p.2.2.1, p.2.2.2.toNat, bit l.started] ++ listNums l.ended
    ++ l.nodes.length :: l.nodes.flatMap nodeNums

def takeLaunch (l : List Nat) : Launch × List Nat :=
  let n := fun (i : Nat) => l.getD i 0
  let (ended, r) := takeList (l.drop 15)
  let (nodes, r) := takeNodes (r.getD 0 0) r.tail
  ({ ctx := n 0 % 16, id := BitVec.ofNat 64 (n 1), near := n 2, scratch := n 3, nodes := nodes, ended := ended
     grants := { handles := n 4, barriers := n 5, lregs := n 6, stack := n 7, ovf := n 8 }
     persist := if n 9 = 1 then some (BitVec.ofNat 64 (n 10), n 11, n 12, BitVec.ofNat 64 (n 13)) else none
     started := n 14 == 1 }, r)

def takeLaunches : Nat → List Nat → List Launch × List Nat
  | 0, l => ([], l)
  | k + 1, l =>
    let (x, r) := takeLaunch l
    let (xs, r) := takeLaunches k r
    (x :: xs, r)

/-- A handle of saved work in the header. -/
def handleNums (i : Nat) (x : Handle) : List Nat :=
  [i, x.st.code, bit x.fault, bit x.exhausted, x.base.toNat, x.bytes, x.slots, x.p, x.q, x.c, x.d, x.committed, x.opNum,
    x.status.toNat, x.info.toNat]

def takeHandles : Nat → List Nat → SMap Handle × List Nat
  | 0, l => ([], l)
  | k + 1, l =>
    let n := fun (i : Nat) => l.getD i 0
    let x : Handle :=
      { st := [HState.unbound, .ring, .stream].getD (n 1) .update, fault := n 2 == 1, exhausted := n 3 == 1
        base := BitVec.ofNat 64 (n 4), bytes := n 5, slots := n 6, p := n 7, q := n 8, c := n 9, d := n 10, committed := n 11
        opNum := n 12, status := BitVec.ofNat 8 (n 13), info := BitVec.ofNat 64 (n 14) }
    let (m, r) := takeHandles k (l.drop 15)
    (m.set (n 0) x, r)

def posCode : Pos → Nat
  | .header .fall => 0
  | .header .jump => 1
  | .header .handler => 2
  | .word => 3

/-- A saved record in the header: whose it is, where its image lies, and what the save area does not state of it as far as the
header holds it (R246, log 17). -/
def savedNums (r : SavedRec) : List Nat :=
  [r.ctx, r.core, r.work.launch.toNat, bit r.work.node.isSome, r.work.node.getD 0, bit r.work.idem, bit r.work.gang, r.inst,
    r.image, r.imageLen, r.imageLo, r.group, bit r.clus.isSome, posCode r.snap.pos, r.snap.grants.handles,
    r.snap.grants.barriers, r.snap.grants.lregs, r.snap.grants.stack, r.snap.grants.ovf, r.snap.grants.shareBase,
    r.snap.grants.shareSize, r.snap.ovfBase.toNat, r.snap.hdr.toNat] ++ pairNums r.snap.grants.outs ++ pairNums r.snap.grants.wouts
    ++ r.snap.h.length :: r.snap.h.flatMap fun (i, x) => handleNums i x

def takeSavedRec (l : List Nat) : SavedRec × List Nat :=
  let n := fun (i : Nat) => l.getD i 0
  let (outs, r) := takePairs (l.drop 23)
  let (wouts, r) := takePairs r
  let (h, r) := takeHandles (r.getD 0 0) r.tail
  let w : WorkRef := ⟨n 0 % 16, BitVec.ofNat 64 (n 2), if n 3 = 1 then some (n 4) else none, n 5 == 1, n 6 == 1⟩
  let g : Grants := { handles := n 14, barriers := n 15, lregs := n 16, stack := n 17, ovf := n 18, shareBase := n 19
                      shareSize := n 20, outs := outs, wouts := wouts }
  ({ ctx := n 0 % 16, core := n 1 % 512, work := w, inst := n 7, image := n 8, imageLen := n 9, imageLo := n 10
     group := n 11 % 512, clus := if n 12 = 1 then some {} else none, arrivals := [], gangs := [], engWrote := []
     snap := { work := some w, inst := n 7, grants := g, h := h, ovfBase := BitVec.ofNat 64 (n 21)
               hdr := BitVec.ofNat 64 (n 22), pos := [Pos.header .fall, .header .jump, .header .handler].getD (n 13) .word } }, r)

def takeSaved : Nat → List Nat → List SavedRec
  | 0, _ => []
  | k + 1, l =>
    let (x, r) := takeSavedRec l
    x :: takeSaved k r

/-- Numbers of the device's own state that the header of a stream holds: the record numbers, the contexts, the live launches, and
the saved work (R415, log 17). -/
def State.headerNums (s : State) : List Nat :=
  let live := s.launches.filter (!·.reported)
  [s.bar0.lastHost, s.lastDev, s.ctxs.length] ++ s.ctxs.flatMap (fun (i, x) => ctxNums i x)
    ++ live.length :: live.flatMap launchNums ++ s.saved.length :: s.saved.flatMap savedNums

/-- The nonzero bytes that lines of a store of the capacity tier stand for, by address. -/
def State.tierCells (s : State) (st : Store) : Mem :=
  s.tier.flatMap fun (line, _) => if storeOf (128 * line) == st then
      ((rangeFrom (128 * line) 128).zip (s.tierLine line)).filter fun (_, b) => b != 0
    else []

/-- Writes the bytes of lines of the capacity tier that `put` gives, each a whole line, or a part of one (R294). -/
def State.putTier (s : State) (lines : List Nat) (put : Nat → Mem) : State :=
  lines.foldl (fun s line => s.homeWrite none ((s.slotOfLine line).getD 0) (put line)) s

/-- What a stream holds: its header, then the nonzero bytes of the memories, by offset. -/
def State.streamCells (s : State) : Mem :=
  (rangeFrom 0 headerBytes).zip (padTo headerBytes (Config.ckptHeader s.headerNums))
    ++ (s.mem.filter fun (a, _) => decide (a < hbmBytes)).map (fun (a, b) => (headerBytes + a, b))
    ++ s.wstack.map (fun (a, b) => (wOffset + a, b))
    ++ s.tiles.flatMap (fun (t, x) => x.lm.map fun (a, b) => (lmOffset + t * 2 ^ 22 + a, b))
    ++ (s.tierCells .lpddr).map fun (a, b) => (lpddrOffset + (a - lpddrBase), b)

def digestOf (cells : Mem) : BitVec 256 :=
  Config.streamDigest ((cells.filter fun (_, b) => b != 0).map fun (o, b) => (o, b.toNat))

/-- Puts the first `n` bytes of a stream into its extents: host memory, or a persistent CXL region (R399). -/
def State.putStream (s : State) (es : List (Nat × Nat)) (cells : Mem) (n : Nat) : State :=
  let inside := fun (a : Nat) => (extentOffset es 0 a).any (decide <| · < n)
  let placed := cells.filterMap fun (o, b) => if o < n then (extentAt es o).map (·, b) else none
  let cxl := fun (a : Nat) => s.excluded a
  { s with host := Mem.writeCells (s.host.filter fun (a, _) => cxl a || !inside a) (placed.filter fun (a, _) => !cxl a)
           safeCxl := Mem.writeCells (s.safeCxl.filter fun (a, _) => !inside a) (placed.filter fun (a, _) => cxl a) }

/-- The bytes of a stream in its extents, by offset. -/
def State.getStream (s : State) (es : List (Nat × Nat)) : Mem :=
  Mem.writeCells [] <| ((s.host.filter fun (a, _) => !s.excluded a) ++ s.safeCxl).filterMap fun (a, b) =>
    match extentOffset es 0 a with
    | some o => if o < ckptBytes then some (o, b) else none
    | none => none

/-- Every context is held until a RESUME names it. -/
def State.holdAll (s : State) (recs : Bool) : State :=
  { s with ctxs := s.ctxs.mapVals fun _ x => { x with held := true, recsHeld := x.recsHeld || recs } }

/-- All work of the package is requested to leave its cores (R411, R414). -/
def State.requestEverything (s : State) (why : Nat) : State :=
  s.requestAll ((s.cores.filter fun (_, q) => q.work.isSome).map (·.1)) (.preempt why)

/-- The CXL range of physical addresses (R304). -/
def cxlBase : Nat := 0x20000000000

/-- An extent that a stream may use: a whole number of 4 KiB; where it meets the CXL range, it lies wholly in persistent regions
(R399, R405). -/
def State.goodExtent (s : State) (a n : Nat) : Bool :=
  n % 4096 == 0 && (!(decide (a < 2 * cxlBase) && decide (cxlBase < a + n)) || coverFrom s.persist s.persist.length a (a + n))

/-- The extents of a record, or its REJECT: good ones, together as long as a stream (R414). -/
def State.withExtents (s : State) (seq : Nat) (list : Word) (count : Nat) (go : List (Nat × Nat) → State) : State :=
  let es := s.extentsOf list count
  if es.any fun (a, n) => !s.goodExtent a n then s.badField 0xFF seq 16
  else if extentsTotal es < ckptBytes then s.reject 0xFF 0x14 seq []
  else go es

def State.recCkpt (s : State) (seq : Nat) (list : Word) (count : Nat) : State :=
  s.withExtents seq list count fun es =>
    ({ s with ckpt := some ⟨false, es, 0⟩ }.holdAll false).requestEverything 1

/-- CKPT_DONE (R409). -/
def State.ckptDone (s : State) (flags bytes : Nat) (digest : BitVec 256) : State :=
  { s with ckpt := none }.emit 0x29 [(12, 1, flags), (16, 8, bytes), (24, 32, digest.toNat)]

/-- Every pending pair is applied and every dirty line written back (R414). None: something has to wait. -/
def State.quiesce (s : State) : Option State :=
  let s := (s.flight.foldl (fun s _ => s.arrivePair 0) s).settleViews
  match s.applyWhere fun _ => true with
  | none => none
  | some s =>
    let s := (s.l1SweepAll false fun _ _ => true).settleRegions
    let s := s.slices.foldl (fun s (h, x) => x.tags.foldl (fun s (line, _) => s.l2WriteBack h line) s) s
    if s.homeQ.isEmpty then some s else none

/-- Steps 1 and 2 of a checkpoint are over. None: work has still to leave, or a write has to wait. -/
def State.ckptReady (s : State) : Option State :=
  if (s.cores.any fun (_, q) => q.work.isSome) || !s.migrations.isEmpty then none else s.quiesce

/-- CKPT_ABORT: the stream stops where it stands, before its first byte while steps 1 and 2 are not over (R414).
With nothing under way it has no effect (DESIGN CHOICE, log 88). -/
def State.recCkptAbort (s : State) : State :=
  match s.ckpt with
  | none => s
  | some k =>
    if k.restore then s
    else
      match s.ckptReady with
      | none => s.ckptDone 1 0 (digestOf [])
      | some s =>
        let n := Config.streamed s.tick % (ckptBytes + 1)
        let cells := s.streamCells
        (s.putStream k.extents cells n).ckptDone 1 n (digestOf (cells.filter fun (o, _) => decide (o < n)))

/-- RESTORE, while no context is resident and no stream runs: caches and pairs go without write-back, and with them the writes
that wait at home (R415, log 84). -/
def State.recRestore (s : State) (seq : Nat) (list : Word) (count : Nat) (digest : BitVec 256) : State :=
  if !s.ctxs.isEmpty || s.ckpt.isSome then s.reject 0xFF 0x12 seq []
  else
    s.withExtents seq list count fun es =>
      { s with
        ckpt := some ⟨true, es, digest⟩, slices := [], viewDir := [], viewPend := [], homeQ := [], flight := []
        tiles := s.tiles.mapVals fun _ t => { t with l1 := [], l1Order := [], l1Poison := [] }
        sorters := s.sorters.mapVals fun _ x => x.without fun _ => true
        cores := s.cores.mapVals fun _ q => { q with upd := [] } }

/-- The device's own state, as the header of a stream holds it. -/
def State.snapshot (s : State) : Snapshot :=
  { ctxs := s.ctxs.mapVals fun _ x => { x with recsHeld := false }
    launches := s.launches, saved := s.saved
    ops := s.ops.filter fun o => s.isSaved o.core o.inst
    regions := s.regions, objs := s.objs
    merges := (s.clusters.filter fun (_, k) => !k.merges.isEmpty).map fun (i, k) => (i, k.merges)
    lastHost := s.bar0.lastHost, lastDev := s.lastDev, nextInst := s.nextInst }

/-- The memories take the bytes of a stream; a line of the tier is encoded anew, with the ALLOC that it has here (R294,
R415, R418). -/
def State.loadStream (s : State) (cells : Mem) : State :=
  let part := fun (lo n base : Nat) => (Mem.writeCells [] (Mem.window cells lo n base) : Mem)
  let tier : Mem := part lpddrOffset (2 ^ 40) lpddrBase
  let listed : List Nat := s.tier.map (·.1) ++ s.tierTags.map (·.1) ++ tier.map (·.1 / 128)
  let lines := distinct (listed.filter fun line => storeOf (128 * line) == .lpddr)
  let s := s.putTier lines fun line => (rangeFrom (128 * line) 128).map fun a => (a, tier.get a)
  { s with
    mem := Mem.writeCells (s.mem.filter fun (a, _) => !decide (a < hbmBytes)) (Mem.window cells headerBytes hbmBytes 0)
    wstack := part wOffset wstackBytes 0
    tiles := (List.range 128).foldl (fun ts t =>
      ts.set t { ts.get t {} with lm := part (lmOffset + t * 2 ^ 22) (2 ^ 22) 0, poison := [] }) s.tiles
    poison := s.poison.filter fun l => !decide (128 * l < hbmBytes)
    wpoison := [], backing := [] }

/-- The contexts and launches of a header are there again; their work waits for RESUME. -/
def State.reinstate (s : State) (h : Snapshot) : State :=
  { s with
    ctxs := h.ctxs, saved := h.saved.map fun r => { r with resumed := false }
    ops := s.ops ++ h.ops.map fun o => { o with page := none }
    launches := h.launches.map fun l => { l with nodes := l.nodes.map fun x => { x with page := none } }
    regions := h.regions, objs := h.objs, lastDev := h.lastDev, nextInst := max s.nextInst h.nextInst
    clusters := h.merges.foldl (fun m (i, l) => m.set i { m.get i {} with merges := l })
      (s.clusters.mapVals fun _ k => { k with merges := [] })
    bar0 := { s.bar0 with lastHost := h.lastHost } }

/-- A barrier's entry of a core record, read back: the arrival's own part is not in it (R246, log 17). -/
def barOfEntry (n : Nat) (pc : Word) : Bar :=
  { mem := BitVec.ofNat 16 n, st := [BarSt.idle, .arrived].getD (bitsOf n 16 2) .done, comm := n.testBit 18
    mark := if n.testBit 19 then some pc else none, fault := if n.testBit 20 then some 0 else none }

/-- The barriers of a saved record, from the save area. -/
def State.readBars (s : State) (r : SavedRec) : SavedRec :=
  let a := s.coreRecord r.ctx r.core
  let pc := BitVec.ofNat 64 (s.paNum (a + 0x08) 8 % 2 ^ 56)
  { r with arrivals := (List.range 128).filterMap fun b =>
      let n := s.paNum (a + 0x4C0 + 4 * b) 4
      if n = 0 then none else some (b, barOfEntry n pc) }

/-- The contexts, launches and saved work of a header that another package has written, as far as the header and the save areas
tell (R415, log 17). -/
def State.adopt (s : State) (cells : Mem) : State :=
  let l := Config.ckptNumbers ((cells.filter fun (o, _) => decide (o < headerBytes)).map fun (o, b) => (o, b.toNat))
  let n := min 16 (l.getD 2 0)
  let rest := l.drop (3 + 26 * n)
  let (launches, r) := takeLaunches (rest.getD 0 0) rest.tail
  let saved := takeSaved (r.getD 0 0) r.tail
  let s := { s with ctxs := ctxsOfNums n (l.drop 3), lastDev := l.getD 1 0, launches := launches
                    nextInst := saved.foldl (fun k (r : SavedRec) => max k (r.inst + 1)) s.nextInst
                    bar0 := { s.bar0 with lastHost := l.getD 0 0 } }
  { s with saved := saved.map s.readBars }

/-- The stream of a restore has been read: `digest` is compared with the record's. -/
def State.restoreEnd (s : State) (k : CkptRun) : State :=
  let cells := s.getStream k.extents
  let digest := digestOf cells
  if digest != k.digest then (s.loadStream cells).ckptDone 6 ckptBytes digest
  else
    ((match s.safe.find digest.toNat with
      | some h => (s.loadStream cells).reinstate h
      | none => (s.loadStream cells).adopt cells).holdAll false).ckptDone 2 ckptBytes digest

/-- The stream of a checkpoint has been written. None: work has still to leave, or a write has to wait. -/
def State.ckptEnd (s : State) (k : CkptRun) : Option State :=
  s.ckptReady.map fun s =>
    let cells := s.streamCells
    let digest := digestOf cells
    let s := { s with safe := s.safe.set digest.toNat s.snapshot }
    (s.putStream k.extents cells ckptBytes).ckptDone 0 ckptBytes digest

/-! ## DIAG_READ, EVENT_RESEND, ATTEST (R403, R405, R417) -/

/-- The telemetry record of a tile (R396). -/
def State.telemetry (s : State) (t : Nat) (mw temp : Nat) : List Byte :=
  let x := s.tile t
  let k := x.calib.get x.point {}
  padTo 32 (leBytes 8 s.now ++ leBytes 2 t ++ leBytes 1 x.point ++ leBytes 1 ((256 - k.offset) % 256)
    ++ leBytes 1 x.guardband ++ [x.telMaxd] ++ leBytes 2 (min 65535 x.telAlarms) ++ leBytes 4 mw ++ leBytes 2 temp
    ++ leBytes 2 (min 65535 x.telEcc))

/-- The tag at an index of a slice, set by set, and its data entry. -/
def State.tagAt (s : State) (h i : Nat) : List Byte :=
  match ((s.slice h).tags.filter fun (line, _) => setOf line == i / 16)[i % 16]? with
  | none => Config.diagEntry [0] (List.replicate 128 0)
  | some (line, t) =>
    let e := (s.slice h).data.get t.dptr { bytes := [] }
    let b := fun (x : Bool) => if x then 1 else 0
    Config.diagEntry [1, b t.drt, b (s.engineLine line), b t.unh, t.view, t.dom, b t.dd, line, t.age, t.dptr, e.hash.toNat, e.ref, e.own,
      b e.pin, b e.psn, b e.nsh] e.bytes

/-- The items that a diagnostic read delivers: none where the target is out of range (R405). -/
def State.diagItems (s : State) (kind : Nat) (target : Nat) (count : Nat) : Option (List (List Byte)) :=
  let run := fun (first limit : Nat) (f : Nat → List Byte) =>
    if limit ≤ first then none else some ((rangeFrom first (min count (limit - first))).map f)
  match kind with
  | 0 => run (target / 2 ^ 16 % 2 ^ 16) 65536 (s.tagAt (target % 128))
  | 1 => if s.tiered target then
      some ((List.range count).filterMap fun i =>
        if s.tiered (target + 128 * i) then some (leBytes 8 (s.tierTag (target / 128 + i)).word) else none)
    else none
  | 2 => run target 4096 fun r => s.paRead (s.cfg.viewTable + 16 * r) 16
  | 3 =>
    let l := (s.sorter (target % 16)).spilled
    run (target / 256) l.length fun i => ((l[i]?).map s.spillImage).getD []
  | _ => run target 128 fun t => s.telemetry t (Config.tilePower s.tick t) (Config.tileHeat s.tick t)

def State.recDiagRead (s : State) (seq kind : Nat) (target addr : Word) (count : Nat) : State :=
  if 4 < kind then s.badField 0xFF seq 12
  else
    let (items, bad) := match s.diagItems kind target.toNat count with
      | some l => (l, 0)
      | none => ([], 1)
    let s := { s with host := s.host.write addr.toNat items.flatten }
    s.emit 0x2A [(12, 1, kind), (16, 8, target.toNat), (24, 4, items.length), (28, 1, bad)]

/-- Puts a kept record into the event ring again, or behind the backlog. -/
def State.resend (s : State) (r : DevRec) : State :=
  if s.backlog.isEmpty && s.evRoom then s.ringRecord r else s.queueRecord r

def State.recEventResend (s : State) (n : Nat) : State :=
  (s.kept.filter fun r => decide (n ≤ r.seq)).foldl State.resend s

def State.recAttest (s : State) (nonce : BitVec 256) (addr : Word) : State :=
  let head := leBytes 32 nonce.toNat ++ leBytes 32 (Config.bootDigest s.bootSlot).toNat
    ++ leBytes 4 (Config.securityVersion s.bootSlot).toNat ++ leBytes 4 s.bootSlot
    ++ leBytes 32 (Config.configDigest s.ringRec s.devRec).toNat ++ leBytes 4 s.ring.pkgId ++ leBytes 4 s.ring.n
  let report := padTo 256 (head ++ leBytes 64 (Config.sm2 (Config.sm3 head)).toNat)
  { s with host := s.host.write addr.toNat report }.emit 0x2B [(16, 8, addr.toNat), (24, 1, 0)]

/-! ## DEBUG (R410) -/

/-- The core runs work of a context of this generation. -/
def State.debugOk (s : State) (ctx : Nat) (c : CoreId) (gen : Word) : Bool :=
  (s.core c).work.any (·.ctx == ctx) && (s.ctxs.find ctx).any fun x => x.gen == gen && !x.dying

def State.recDebugResume (s : State) (seq ctx : Nat) (c : CoreId) (gen : Word) : State :=
  if !s.debugOk ctx c gen || !(s.core c).debug then s.reject ctx 0x15 seq []
  else (s.convoyOf c).foldl (fun s m => s.modCore m fun q => { q with debug := false }) s

def State.recDebugHalt (s : State) (seq ctx : Nat) (c : CoreId) (gen : Word) : State :=
  if !s.debugOk ctx c gen then s.reject ctx 0x15 seq []
  else s.modCore c fun q => { q with debugReq := true }

/-! ## Consumption (R402, R411, R414) -/

/-- The context that a record names. -/
def recContext : Instr → Option Nat
  | .ctxCreate _ ctx _ _ _ _ _ _ => some ctx
  | .ctxKill _ ctx _ => some ctx
  | .launch _ ctx _ _ _ => some ctx
  | .preempt _ ctx _ => some ctx
  | .preemptKill _ ctx _ => some ctx
  | .resume _ ctx _ => some ctx
  | .pageAnswer _ ctx _ _ _ _ => some ctx
  | .migrate _ ctx _ _ _ _ _ => some ctx
  | .debugResume _ ctx _ _ => some ctx
  | .debugHaltRequest _ ctx _ _ => some ctx
  | _ => none

def isCreate : Instr → Bool
  | .ctxCreate .. => true
  | _ => false

/-- Records that a reattached context holds back: LAUNCH and PREEMPT (R411). -/
def isHeldKind : Instr → Bool
  | .launch .. | .preempt .. | .preemptKill .. => true
  | _ => false

/-- Records that a checkpoint lets through (R414), and RESTORE, which it rejects (R415, log 65). -/
def passesCkpt : Instr → Bool
  | .ctxKill .. | .ckptAbort .. | .restore .. => true
  | _ => false

/-- The checks of a LAUNCH would read code behind pairs that cannot be applied yet: it waits (R373, log 84). -/
def State.codeBusy (s : State) (i : Instr) : Bool :=
  match i with
  | .launch _ ctx _ _ _ => (s.applyWhere (·.ctx == ctx)).isNone
  | _ => false

/-- A consumed record has to wait: for an apply, for the end of a checkpoint, for a RESUME of its context, or for the retirement of the
context whose number it takes; and behind a CTX_CREATE that waits so, in the list `before`. -/
def State.recWaits (s : State) (before : List Instr) (i : Instr) : Bool :=
  (s.ckpt.isSome && !passesCkpt i) || s.codeBusy i || (recContext i).any fun ctx =>
    let x := s.ctxs.find ctx
    (isHeldKind i && x.any (·.recsHeld)) || (isCreate i && x.any (·.dying))
      || (!passesCkpt i || s.ckpt.isNone) && before.any fun j => isCreate j && recContext j == some ctx

/-- The effect of a record. -/
def State.performRec (s : State) (i : Instr) : State :=
  match i with
  | .devConfig seq block => s.recDevConfig seq block
  | .ctxCreate seq ctx split gen root vec wdLimit block => s.recCtxCreate seq ctx split gen root vec wdLimit block
  | .ctxKill seq ctx gen => s.recCtxKill seq ctx gen
  | .launch seq ctx id card size => s.recLaunch seq ctx id card size
  | .preempt seq ctx sc => s.recPreempt seq ctx sc
  | .preemptKill seq ctx sc => s.recKill seq ctx sc
  | .resume seq ctx sc => s.recResume seq ctx sc
  | .pageAnswer seq ctx refused gen va _ => s.recPageAnswer seq ctx refused gen va
  | .migrate seq ctx size alloc va target replica => s.recMigrate seq ctx size alloc va target replica
  | .setLimit seq w => s.recSetLimit seq w
  | .ringCfg seq n pkg block => s.recRingCfg seq n pkg block
  | .ckpt seq list count => s.recCkpt seq list count
  | .ckptAbort _ => s.recCkptAbort
  | .restore seq list count digest => s.recRestore seq list count digest
  | .diagRead seq kind target addr count => s.recDiagRead seq kind target addr count
  | .eventResend _ n => s.recEventResend n
  | .attest _ nonce addr => s.recAttest nonce addr
  | .debugResume seq ctx c gen => s.recDebugResume seq ctx c gen
  | .debugHaltRequest seq ctx c gen => s.recDebugHalt seq ctx c gen
  | _ => s

/-- Performs the held records that need not wait any longer, in their order. -/
def State.releaseFrom (s : State) (kept : List Instr) : List Instr → State
  | [] => { s with heldRecs := kept }
  | i :: r => if s.recWaits kept i then s.releaseFrom (kept ++ [i]) r else (s.performRec i).releaseFrom kept r

def State.releaseRecs (s : State) : State := if s.heldRecs.isEmpty then s else s.releaseFrom [] s.heldRecs

/-- A record is consumed in the series of the host (R402): a duplicate is counted, one beyond the next waits. -/
def State.consume (s : State) (seq : Nat) (take : State → State) : State :=
  if seq ≤ s.bar0.lastHost then { s with bar0 := { s.bar0 with dups := min (2 ^ 32 - 1) (s.bar0.dups + 1) } }
  else if seq = s.bar0.lastHost + 1 then
    take { s with bar0 := { s.bar0 with lastHost := seq }, gap := none }
  else { s with gap := some (s.gap.getD (s.now, false)) }

/-- Takes a record: performed, or held. -/
def State.takeRec (i : Instr) (s : State) : State :=
  if s.recWaits s.heldRecs i then { s with heldRecs := s.heldRecs ++ [i] } else (s.performRec i).releaseRecs

def State.hostRecord (s : State) (seq : Nat) (i : Instr) : Host.Outcome State Fault Refusal :=
  s.fromHost (s.consume seq (State.takeRec i))

def execDevConfig (seq : Nat) (block : Word) (s : State) : Host.Outcome State Fault Refusal :=
  s.hostRecord seq (.devConfig seq block)
def execCtxCreate (seq ctx split : Nat) (gen root vec : Word) (wdLimit : Nat) (block : Word) (s : State) :
    Host.Outcome State Fault Refusal :=
  s.hostRecord seq (.ctxCreate seq ctx split gen root vec wdLimit block)
def execCtxKill (seq ctx : Nat) (gen : Word) (s : State) : Host.Outcome State Fault Refusal :=
  s.hostRecord seq (.ctxKill seq ctx gen)
def execLaunch (seq ctx : Nat) (id card : Word) (size : Nat) (s : State) : Host.Outcome State Fault Refusal :=
  s.hostRecord seq (.launch seq ctx id card size)
def execPreempt (seq ctx : Nat) (scope : ReqScope) (s : State) : Host.Outcome State Fault Refusal :=
  s.hostRecord seq (.preempt seq ctx scope)
def execPreemptKill (seq ctx : Nat) (scope : ReqScope) (s : State) : Host.Outcome State Fault Refusal :=
  s.hostRecord seq (.preemptKill seq ctx scope)
def execResume (seq ctx : Nat) (scope : ReqScope) (s : State) : Host.Outcome State Fault Refusal :=
  s.hostRecord seq (.resume seq ctx scope)
def execPageAnswer (seq ctx : Nat) (refused : Bool) (gen va reqSeq : Word) (s : State) :
    Host.Outcome State Fault Refusal :=
  s.hostRecord seq (.pageAnswer seq ctx refused gen va reqSeq)
def execMigrate (seq ctx size alloc : Nat) (va target replica : Word) (s : State) : Host.Outcome State Fault Refusal :=
  s.hostRecord seq (.migrate seq ctx size alloc va target replica)
def execSetLimit (seq w : Nat) (s : State) : Host.Outcome State Fault Refusal := s.hostRecord seq (.setLimit seq w)
def execRingCfg (seq n pkg : Nat) (block : Word) (s : State) : Host.Outcome State Fault Refusal :=
  s.hostRecord seq (.ringCfg seq n pkg block)
def execCkpt (seq : Nat) (extents : Word) (count : Nat) (s : State) : Host.Outcome State Fault Refusal :=
  s.hostRecord seq (.ckpt seq extents count)
def execCkptAbort (seq : Nat) (s : State) : Host.Outcome State Fault Refusal := s.hostRecord seq (.ckptAbort seq)
def execRestore (seq : Nat) (extents : Word) (count : Nat) (digest : BitVec 256) (s : State) :
    Host.Outcome State Fault Refusal :=
  s.hostRecord seq (.restore seq extents count digest)
def execDiagRead (seq kind : Nat) (target addr : Word) (count : Nat) (s : State) : Host.Outcome State Fault Refusal :=
  s.hostRecord seq (.diagRead seq kind target addr count)
def execEventResend (seq n : Nat) (s : State) : Host.Outcome State Fault Refusal :=
  s.hostRecord seq (.eventResend seq n)
def execAttest (seq : Nat) (nonce : BitVec 256) (addr : Word) (s : State) : Host.Outcome State Fault Refusal :=
  s.hostRecord seq (.attest seq nonce addr)
def execDebugResume (seq ctx : Nat) (c : CoreId) (gen : Word) (s : State) : Host.Outcome State Fault Refusal :=
  s.hostRecord seq (.debugResume seq ctx c gen)
def execDebugHaltRequest (seq ctx : Nat) (c : CoreId) (gen : Word) (s : State) : Host.Outcome State Fault Refusal :=
  s.hostRecord seq (.debugHaltRequest seq ctx c gen)

/-- CHECKPOINT_STREAM_END (R414, R415): the records held meanwhile take effect. -/
def execCheckpointStreamEnd (s : State) : Host.Outcome State Fault Refusal :=
  match s.ckpt with
  | none => .next s
  | some k =>
    if k.restore then .next (s.restoreEnd k).releaseRecs
    else
      match s.ckptEnd k with
      | none => .next s
      | some s => .next s.releaseRecs

end Sys2Proof.Machine
end

