-- ==== Sys2Proof/Machine/HostEvents.lean ====
section
/-! DEFINITION. The host port: stream buffers, the event ring, BAR0, reattach, WAKE and reset (23 R397 to R403, R410, R411,
R416), and what the device does by itself between two boundaries. -/
namespace Sys2Proof.Machine
open Sys2Proof

/-! ## Records in the stream buffers (R400, R405) -/

/-- The bytes of a host record that its type lists, beside SEQ and TYPE: offset and width. -/
def recLayout : Nat → Option (List (Nat × Nat))
  | 0x01 => some [(16, 8)]
  | 0x02 => some [(12, 1), (13, 1), (16, 8), (24, 8), (32, 8), (40, 4), (48, 8)]
  | 0x03 => some [(12, 1), (16, 8)]
  | 0x04 => some [(12, 1), (16, 8), (24, 8), (32, 4)]
  | 0x05 => some [(12, 1), (13, 1), (14, 1), (16, 8), (24, 4)]
  | 0x06 => some [(12, 1), (13, 1), (16, 8), (24, 4)]
  | 0x07 => some [(12, 1), (13, 1), (16, 8), (24, 8), (32, 8)]
  | 0x08 => some [(12, 1), (13, 1), (14, 1), (16, 8), (24, 8), (32, 8)]
  | 0x09 => some [(16, 4)]
  | 0x0A => some [(12, 1), (13, 1), (16, 8)]
  | 0x0B => some [(16, 8), (24, 4)]
  | 0x0C => some []
  | 0x0D => some [(12, 1), (16, 8), (24, 8), (32, 4)]
  | 0x0E => some [(16, 8)]
  | 0x0F => some [(16, 32), (48, 8)]
  | 0x10 => some [(12, 1), (13, 1), (14, 2), (16, 8)]
  | 0x11 => some [(16, 8), (24, 4), (28, 32)]
  | _ => none

/-- The same for the scope of a PREEMPT or RESUME: its launch and its node are listed for the scopes that have them (R405). -/
def scopedLayout (type scope : Nat) : Option (List (Nat × Nat)) :=
  (recLayout type).map fun l =>
    if type = 0x05 || type = 0x06 then
      l.filter fun (o, _) => decide (o < 16) || (o == 16 && scope != 2) || (o == 24 && scope != 1 && scope != 2)
    else l

/-- The first nonzero byte that a record's type does not list. -/
def unlisted (bs : List Byte) (l : List (Nat × Nat)) : Option Nat :=
  (rangeFrom 9 55).find? fun i => leAt bs i 1 != 0 && !(l.any fun (o, w) => o ≤ i && i < o + w)

def scopeOf (bs : List Byte) : Option ReqScope :=
  let id := BitVec.ofNat 64 (leAt bs 16 8)
  match leAt bs 13 1 with
  | 0 => some (.node id (leAt bs 24 4))
  | 1 => some (.launch id)
  | 2 => some .context
  | _ => none

/-- The record in 64 bytes, or its error with the offset of the bad field (R401, R405). -/
def parseRecord (bs : List Byte) : Except (Nat × Nat) Instr :=
  let seq := leAt bs 0 8
  let n := fun (o w : Nat) => leAt bs o w
  let w := fun (o : Nat) => BitVec.ofNat 64 (leAt bs o 8)
  match scopedLayout (n 8 1) (n 13 1) with
  | none => .error (0x10, 8)
  | some l =>
    match unlisted bs l with
    | some o => .error (0x11, o)
    | none =>
      match n 8 1, scopeOf bs with
      | 0x01, _ => .ok (.devConfig seq (w 16))
      | 0x02, _ => .ok (.ctxCreate seq (n 12 1) (n 13 1) (w 16) (w 24) (w 32) (n 40 4) (w 48))
      | 0x03, _ => .ok (.ctxKill seq (n 12 1) (w 16))
      | 0x04, _ => .ok (.launch seq (n 12 1) (w 16) (w 24) (n 32 4))
      | 0x05, none => .error (0x11, 13)
      | 0x05, some sc =>
        if n 14 1 = 0 then .ok (.preempt seq (n 12 1) sc)
        else if n 14 1 = 1 then .ok (.preemptKill seq (n 12 1) sc) else .error (0x11, 14)
      | 0x06, none => .error (0x11, 13)
      | 0x06, some sc => .ok (.resume seq (n 12 1) sc)
      | 0x07, _ =>
        if 1 < n 13 1 then .error (0x11, 13) else .ok (.pageAnswer seq (n 12 1) (n 13 1 == 1) (w 16) (w 24) (w 32))
      | 0x08, _ => .ok (.migrate seq (n 12 1) (n 13 1) (n 14 1) (w 16) (w 24) (w 32))
      | 0x09, _ => .ok (.setLimit seq (n 16 4))
      | 0x0A, _ => .ok (.ringCfg seq (n 12 1) (n 13 1) (w 16))
      | 0x0B, _ => .ok (.ckpt seq (w 16) (n 24 4))
      | 0x0C, _ => .ok (.ckptAbort seq)
      | 0x0D, _ => .ok (.diagRead seq (n 12 1) (w 16) (w 24) (n 32 4))
      | 0x0E, _ => .ok (.eventResend seq (n 16 8))
      | 0x0F, _ => .ok (.attest seq (BitVec.ofNat 256 (n 16 32)) (w 48))
      | 0x10, _ =>
        if n 13 1 = 1 then .ok (.debugResume seq (n 12 1) (n 14 2) (w 16))
        else if n 13 1 = 2 then .ok (.debugHaltRequest seq (n 12 1) (n 14 2) (w 16)) else .error (0x11, 13)
      | 0x11, _ => .ok (.restore seq (w 16) (n 24 4) (BitVec.ofNat 256 (n 28 32)))
      | _, _ => .error (0x10, 8)

/-- The tail up to which the device may read a stream: as it was before a write whose earlier BAR2 writes are not all at home
(R402). -/
def State.tailOf (s : State) (n : Nat) : Nat :=
  match s.bar0.tailQ.find? fun (m, _, k) => m == n && s.homeQ.any fun w => w.host != 0 && decide (w.host ≤ k) with
  | some (_, old, _) => old
  | none => (s.bar0.tails.get n 0).toNat

/-- The next record of a stream, when its tail has passed it: consumed if it is next in the series or a duplicate, else it
waits in its stream (R402). -/
def State.consumeStream (s : State) (n : Nat) : State :=
  let pos := s.streamPos.get n 0
  let (base, k) := s.cfg.streams.get n (0, 0)
  if !s.cfg.placed || 17 ≤ n || s.tailOf n ≤ pos then s
  else
    let bs := s.paRead (base + 64 * (pos % 2 ^ k)) 64
    let seq := leAt bs 0 8
    let go := fun (s : State) => match parseRecord bs with
      | .ok i => s.takeRec i
      | .error (err, off) => (s.reject 0xFF err seq [(24, 4, off)]).releaseRecs
    let t := s.consume seq go
    if s.bar0.lastHost + 1 < seq then t else { t with streamPos := t.streamPos.set n (pos + 1) }

/-- A tail is written; while host writes that precede it wait at home, it is kept with the number of the last (R402). -/
def State.setTail (s : State) (n : Nat) (v : Word) : State :=
  let late := fun (k : Nat) => s.homeQ.any fun w => w.host != 0 && decide (w.host ≤ k)
  let q := s.bar0.tailQ.filter fun (_, _, k) => late k
  let q := if late s.bar0.writes then q ++ [(n, (s.bar0.tails.get n 0).toNat, s.bar0.writes)] else q
  if n < 17 then { s with bar0 := { s.bar0 with tails := s.bar0.tails.set n v, tailQ := q } } else s

def execStreamTailWrite (n : Nat) (v : Word) (s : State) : Host.Outcome State Fault Refusal := s.fromHost (s.setTail n v)

/-- EVENT_HEAD: the host has consumed records, and the backlog moves up (R403). -/
def State.setHead (s : State) (v : Word) : State :=
  let s := { s with bar0 := { s.bar0 with eventHead := v } }
  State.drainBacklog s.backlog.length s

def execEventHeadWrite (v : Word) (s : State) : Host.Outcome State Fault Refusal := s.fromHost (s.setHead v)

/-- SEQ_GAP (R402): once for a wait of 1 ms. -/
def execSeqGap (s : State) : Host.Outcome State Fault Refusal :=
  match s.gap with
  | some (since, false) =>
    if 1000000 ≤ s.now - since then
      .next ({ s with gap := some (since, true) }.resourceEvent 5 0xFF (s.bar0.lastHost + 1))
    else .next s
  | some (_, true) | none => .next s

/-- MSI_X_INTERRUPT (R400): vector 0 is raised for 16 records, or for fewer 10 µs after the first of them. -/
def execMsiXInterrupt (s : State) : Host.Outcome State Fault Refusal :=
  if 16 ≤ s.msix || (s.msix != 0 && decide (10000 ≤ s.now - s.msixSince)) then
    .next { s with msix := s.msix - 16, msixSince := s.now, msixRaised := s.msixRaised + 1 }
  else .next s

/-! ## Reattach (R411) -/

/-- Work that a request still has to take off its core. -/
def State.unfinished (s : State) (c : CoreId) : Bool := (s.core c).work.isSome && !s.isEnding c

/-- Steps 3 and 4, once steps 1 and 2 are over. -/
def State.tryAttach (s : State) : State :=
  match s.attachPending with
  | none => s
  | some e =>
    if s.cores.any fun (c, _) => s.unfinished c then s
    else
      let old := s.pageReqs
      let s := old.foldl (fun s r =>
        ({ s with pageReqs := s.pageReqs.filter (· != r) }).pageRequest r.ctx r.page r.acc r.agent r.core r.malformed) s
      let oldest := (s.kept.head?.map (·.seq)).getD 0
      { s with attachPending := none }.emit 0x27 [(16, 4, e.toNat), (24, 8, s.bar0.lastHost), (32, 8, oldest)]

/-- A write of ATTACH: a new epoch starts the steps of R411 again. -/
def State.attach (s : State) (e : BitVec 32) : State :=
  if s.bar0.attach = e then s
  else
    (({ s with bar0 := { s.bar0 with attach := e }, attachPending := some e }.holdAll true).requestEverything 5).tryAttach

def execReattach (epoch : BitVec 32) (s : State) : Host.Outcome State Fault Refusal := s.fromHost (s.attach epoch)

/-! ## WAKE and BAR0 (R398, R410) -/

/-- WAKE: wake reason 5 for a core that holds work of the named context. -/
def State.wakeWrite (s : State) (v : Word) : State :=
  let c := v.toNat % 512
  let ctx := v.toNat / 2 ^ 16 % 16
  if (s.core c).work.any (·.ctx == ctx) then s.modCore c fun q => q.wakeFor 5 else s

def execWake (v : Word) (s : State) : Host.Outcome State Fault Refusal := s.fromHost (s.wakeWrite v)

/-- A write through BAR0's flash window, but to what is write-protected (R416). -/
def State.flashWrite (s : State) (off : Nat) (v : Word) : State :=
  let i := off - Config.flashBase
  if off % 8 != 0 || off < 0x148 || off < Config.flashBase || Config.flashBytes ≤ i || Config.flashProtected i then s
  else { s with flashWords := s.flashWords.set i v }

/-- A write of a BAR0 register (R398): a read-only register or an unlisted offset takes nothing. -/
def State.registerWrite (s : State) (off : Nat) (v : Word) : State :=
  if off % 8 != 0 then s
  else if off < 0x88 then s.setTail (off / 8) v
  else if off = 0x100 then s.setHead v
  else if off = 0x118 then s.attach (v.setWidth 32)
  else if off = 0x130 then { s with bar0 := { s.bar0 with winBase := BitVec.ofNat 64 (alignDown v.toNat (2 ^ 30)) } }
  else if off = 0x140 then s.wakeWrite v
  else s.flashWrite off v

/-- HOST_REGISTER_WRITE (R398): in recovery only the flash window takes a write (R416). -/
def execHostRegisterWrite (off : Nat) (v : Word) (s : State) : Host.Outcome State Fault Refusal :=
  .next (if s.recovery then s.flashWrite off v else s.registerWrite off v)

/-! ## Reset (R416) -/

/-- A tile as the booted image leaves it. -/
def bootTile (flash : SMap Nat) (t : Nat) : Tile :=
  { cap := Config.bootTbCap t, fill := Config.bootTbFill t, thr := Config.bootDroopThr t, droopEn := Config.bootDroopEn t
    bal := Config.bootTbCap t, guardband := flash.get t (min 10 (Config.flashGuardband t)) }

/-- The nominal set points of the operating-point table, in mV, from point 0 (R387). -/
def pointTable : List Nat := [560, 580, 600, 630, 660, 690, 720, 750]

/-- DEVICE_RESET (R416): slot A is tried before slot B; the memory of the host and of the CXL port is not the device's. -/
def execDeviceReset (slotA slotB : Bool) (s : State) : Host.Outcome State Fault Refusal :=
  let reason := (Config.bootReason slotA slotB).toNat * 256
  let cxl := fun (line : Nat) => storeOf (128 * line) == .cxl
  let r : State := { host := s.host, tier := s.tier.filter fun (l, _) => cxl l
                     tierTags := s.tierTags.filter fun (l, _) => cxl l
                     pools := s.pools.filter fun (ch, _) => decide (8 ≤ ch), safe := s.safe, flash := s.flash, flashWords := s.flashWords
                     persist := s.persist, safeCxl := s.safeCxl, agenda := s.agenda, tick := s.tick }
  if !slotA && !slotB then .next { r with bar0 := { r.bar0 with bootStatus := BitVec.ofNat 64 (2 + reason) } }
  else
    let slot := if slotA then 0 else 1
    .next { r with
      bar0 := { r.bar0 with bootStatus := BitVec.ofNat 64 (1 + 4 * slot + (if slotA then 0 else reason)) }
      bootSlot := slot
      points := pointTable
      ring := { r.ring with laneMap := Config.bootLaneMap slot }
      tiles := (List.range 128).map fun t => (t, bootTile s.flash t) }

/-! ## Between two boundaries -/

/-- What the device does by itself as soon as it can: regions and launches that are over, heads of the ready pools, killed
contexts, a reattach, records that were held. -/
def State.settle (s : State) : State := (s.settleRegions.markHeads.retireAll.tryAttach).releaseRecs

end Sys2Proof.Machine
end

