-- ==== Sys2Proof/Machine/Power.lean ====
section
/-! DEFINITION. Power, droop, calibration, ageing, errors and telemetry (10_traps R249 to R251, 21_power_program R380 to R383,
22_power R386 to R396). Measurements and readings are operands of the events. -/
namespace Sys2Proof.Machine
open Sys2Proof

def tileCores (t : Nat) : List CoreId := rangeFrom (4 * t) 4

/-! ## The budget tree (R388) -/

/-- What children of demands `d` get of a budget under a level. -/
def grantAt (l : Rat) (d : Rat) : Rat := max (min d l) (d / 16)

/-- The level at which the grants add up to the budget: the grants rise piecewise with the level, and bend at `d / 16` and
at `d`. Zero where even the least grants exceed the budget. -/
def levelFor (ds : List Rat) (b : Rat) : Rat :=
  let total := fun (l : Rat) => (ds.map (grantAt l)).sum
  let bends := (0 :: ds ++ ds.map (· / 16)).filter fun l => total l ≤ b
  let p := bends.foldl max 0
  let rising := (ds.filter fun d => d / 16 ≤ p && p < d).length
  if total p < b && rising != 0 then p + (b - total p) / rising else p

/-- The division of one node's budget among its children. -/
def divide (ds : List Rat) (b : Rat) : List Rat :=
  if ds.sum ≤ b then ds else ds.map (grantAt (levelFor ds b))

/-- Duty of a core from its demand and grant. -/
def dutyFor (d g : Rat) : Nat := if d = 0 then 16 else max 1 (min 16 (16 * g / d).floor.toNat)

/-- Grants of consecutive groups of `k` leaves: the division among the groups' sums. -/
def divideGroups (k n : Nat) (leaf : Nat → Rat) (b : Rat) : List Rat :=
  divide ((List.range n).map fun i => ((rangeFrom (k * i) k).map leaf).sum) b

/-- The grant of every tile: package, dies, clusters, tiles. -/
def tileGrantsMw (leaf : Nat → Rat) (b : Rat) : List Rat :=
  let shift := fun (o i : Nat) => leaf (o + i)
  (divideGroups 128 4 leaf b).zipIdx.flatMap fun (bd, d) =>
    (divideGroups 8 16 (shift (128 * d)) bd).zipIdx.flatMap fun (bc, c) =>
      divideGroups 4 2 (shift (128 * d + 8 * c)) bc

/-- The grant of every core, from its tile's. -/
def coreGrantsMw (leaf : Nat → Rat) (b : Rat) : List Rat :=
  (tileGrantsMw leaf b).zipIdx.flatMap fun (bt, t) => divideGroups 1 4 (fun i => leaf (4 * t + i)) bt

/-- The highest point at which what a tile would draw fits its grant; the lowest where none does (R388, log 58). -/
def pointFor (draw : Nat → Nat) (g : Rat) : Nat := ((List.range 8).filter fun p => decide ((draw p : Rat) ≤ g)).foldl max 0

/-- The package limit in mW. -/
def State.limitMw (s : State) : Nat := 1000 * min 1400 s.limit

def State.setReqCap (s : State) (n : Nat) : State :=
  (List.range 64).foldl (fun s cl => s.modCluster cl fun k => { k with reqCap := n }) s

/-- BUDGET_DIVISION (R388, R389). Cores that run no work have demand 0. -/
def execBudgetDivision (draw : Nat) (demands draws : List (Nat × Nat)) (s : State) : Host.Outcome State Fault Refusal :=
  let leaf := fun (c : Nat) =>
    let q := s.core c
    if q.work.isSome && q.pre == .run then (((demands.find? (·.1 == c)).map (·.2)).getD 0 : Rat) else 0
  let b := (s.limitMw : Rat) - draw
  let s := (coreGrantsMw leaf b).zipIdx.foldl (fun s (g, c) =>
    s.modCore c fun q => { q with duty := BitVec.ofNat 5 (dutyFor (leaf c) g) }) s
  let s := (tileGrantsMw leaf b).zipIdx.foldl (fun s (g, t) => s.modTile t fun x =>
    { x with granted := pointFor (fun p => ((draws.find? (·.1 == 8 * t + p)).map (·.2)).getD 0) g }) s
  .next (if s.capHigh && s.measured < s.limitMw then { s with capHigh := false }.setReqCap 256 else s)

/-- POWER_SAMPLE (R389). -/
def execPowerSample (mw : Nat) (s : State) : Host.Outcome State Fault Refusal :=
  let s := { s with measured := mw }
  .next (if s.limitMw < mw then { s with capHigh := true }.setReqCap 32 else s)

/-- OPERATING_POINT_CHANGE (R387, R392): the highest request of the tile's cores, limited by the grant; a dwell ends. -/
def execOperatingPointChange (tile : Nat) (s : State) : Host.Outcome State Fault Refusal :=
  let asked := ((tileCores tile).map fun c => (s.core c).opreq.toNat).foldl max 0
  let p := min asked (s.tile tile).granted
  if 128 ≤ tile || (s.tile tile).point = p then .next s
  else .next (s.modTile tile fun t => { t.closeWindow with point := p })

/-! ## Droop (R380, R381, R392) -/

/-- DROOP_ALARM (R381): MAXD records; an alarm that acts counts, ends a dwell, and starts the sequence, unless it arises
during the stretch: the cycle of the alarm and the six stretched ones behind it. -/
def execDroopAlarm (tile mv : Nat) (s : State) : Host.Outcome State Fault Refusal :=
  let up := fun (old : Byte) => BitVec.ofNat 8 (min 255 (max old.toNat mv))
  let t := s.tile tile
  let t := { t with maxd := up t.maxd, telMaxd := up t.telMaxd }
  if 128 ≤ tile then .next s
  else if !t.droopEn || t.thr = 0 || mv ≤ t.thr.toNat then .next (s.setTile tile t)
  else
    let t := { t with alarms := BitVec.ofNat 16 (min 65535 (t.alarms.toNat + 1)), telAlarms := t.telAlarms + 1 }
    let t := if t.stretch = 0 then { t with stretch := 7, halve := 64 } else t
    .next ((tileCores tile).foldl (fun s c => s.modCore c fun q => q.countEvent 0x0008 1) (s.setTile tile t.closeWindow))

/-- DROOP_HALVING_END (R381): with the last of the 64 halved cycles. -/
def execDroopHalvingEnd (tile : Nat) (s : State) : Host.Outcome State Fault Refusal :=
  let t := s.tile tile
  if 128 ≤ tile || t.stretch != 0 || 1 < t.halve then .next s else .next (s.setTile tile { t with halve := 0 })

/-! ## Calibration and ageing (R251, R391 to R393) -/

/-- The calibration window of a tile is open. -/
def State.windowOpen (s : State) (tile : Nat) : Bool := (tileCores tile).all fun c => (s.core c).work.all (·.idem)

/-- Starts the next dwell: one step below the last known good offset, never below -100 mV. -/
def Tile.nextDwell (t : Tile) : Tile :=
  let k := t.calib.get t.point {}
  if t.dwell || k.suspended || 20 ≤ k.good then t
  else { t with dwell := true, calib := t.calib.set t.point { k with offset := k.good + 1 } }

/-- The controllers of the listed tiles step while their windows are open. -/
def State.stepTiles (s : State) : State :=
  { s with tiles := s.tiles.mapVals fun t x => if s.windowOpen t then x.nextDwell else x }

/-- CALIBRATION_DWELL_END (R392). -/
def execCalibrationDwellEnd (tile errors : Nat) (early : Bool) (s : State) : Host.Outcome State Fault Refusal :=
  let t := s.tile tile
  let k := t.calib.get t.point {}
  if 128 ≤ tile || !t.dwell then .next s
  else if early then .next (s.setTile tile t.closeWindow)
  else
    let k := if errors ≤ 1 then { k with good := k.offset }
      else { k with offset := k.good - 1, good := k.good - 1, suspended := true }
    .next (s.setTile tile { t with dwell := false, calib := t.calib.set t.point k })

def execCalibrationStepResume (tile point : Nat) (s : State) : Host.Outcome State Fault Refusal :=
  if 128 ≤ tile || 8 ≤ point then .next s
  else .next (s.modTile tile fun t =>
    { t with calib := t.calib.set point { t.calib.get point {} with suspended := false } })

/-- AGEING_MEASURE (R393). -/
def execAgeingMeasure (tile : Nat) (grown : Bool) (s : State) : Host.Outcome State Fault Refusal :=
  let g := (s.tile tile).guardband
  if 128 ≤ tile || !grown || 10 ≤ g then .next s
  else
    let s := { s.modTile tile (fun t => { t with guardband := g + 1 }) with flash := s.flash.set tile (g + 1) }
    .next (if g + 1 = 10 then s.healthEvent 3 0xFF tile [(16, 1, 10)] else s)

/-- A tile's set point in mV (R387, R391). -/
def State.setPoint (s : State) (t : Tile) (steps : Nat) : Nat := s.points.getD t.point 0 + 5 * t.guardband - 5 * steps

/-- Lines of local memory whose bytes an error has destroyed. -/
def State.loseLine (s : State) (tile line : Nat) : State :=
  s.modTile tile fun t =>
    { t with lm := t.lm.write (128 * line) ((List.range 128).map fun i => Config.lostByte s.tick (128 * line + i))
             poison := t.poison.filter (· != line) }

/-- The steps of R251. `store`: 0 register file, 1 local memory, 2 L1, 3 long registers; `lines`: the lines struck. -/
def State.calibError (s : State) (tile store : Nat) (lines : List Nat) : State :=
  let t := s.tile tile
  let k := t.calib.get t.point {}
  let before := s.setPoint t k.offset
  let after := s.setPoint t k.good
  let s := s.setTile tile { t with dwell := false, calib := t.calib.set t.point { k with offset := k.good } }
  let s := ((s.tile tile).poison ++ (if store = 1 then lines else [])).foldl (fun s l => s.loseLine tile l) s
  let s := ((s.tile tile).l1Poison ++ (if store = 2 then lines else [])).foldl (fun s l => s.l1Drop tile l) s
  let s := (tileCores tile).foldl (fun s c =>
    if s.isEnding c then s else s.abortTask c 3 (BitVec.ofNat 64 tile) none) s
  s.healthEvent 1 0xFF tile [(16, 2, before), (18, 2, after), (20, 1, store)]

/-- CALIB_UE (R251): only in an open window. -/
def execCalibUe (tile store : Nat) (lines : List Nat) (s : State) : Host.Outcome State Fault Refusal :=
  if 128 ≤ tile || !s.windowOpen tile then .next s else .next (s.calibError tile store lines)

/-! ## Errors (R249, R250) -/

/-- The tile of a store that counts for its cores' event counters (R395). -/
def siteTile : Site → Option Nat
  | .lm t _ | .l1 t _ => some t
  | .longReg c _ => some (tileOf c)
  | .mem _ | .l2 _ | .wstack _ _ | .pair _ | .head _ _ | .weights _ _ => none

/-- CORRECTED_ERROR (R249): counted, and no value changes. -/
def execCorrectedError (site : Site) (canary : Bool) (s : State) : Host.Outcome State Fault Refusal :=
  match siteTile site with
  | none => .next s
  | some t =>
    let s := s.modTile t fun x => { x with telEcc := x.telEcc + 1 }
    .next ((tileCores t).foldl (fun s c => s.modCore c fun q =>
      let q := q.countEvent 0x0030 1
      if canary then q.countEvent 0x0031 1 else q) s)

/-- A line of L2 with an error: clean tags are refetched, dirty ones keep the poisoned entry (R314). -/
def State.l2Error (s : State) (h line : Nat) : State :=
  match s.l2At h line with
  | none => s
  | some (t, e) =>
    let mine := (s.slice h).tags.filter fun (_, x) => x.dptr == t.dptr
    let dirty := mine.filter fun (_, x) => x.drt
    let s := dirty.foldl (fun (s : State) (w : Nat × L2Tag) => s.setPoison w.1 true) s
    let x := mine.foldl (fun (x : Slice) (w : Nat × L2Tag) => if w.2.drt then x else x.drop w.1) (s.slice h)
    s.setSlice h (if dirty.isEmpty then x
      else { x with data := x.data.set t.dptr { x.data.get t.dptr e with psn := true } })

/-- The context that holds a partition of the W-stack (R315). -/
def State.partCtx (s : State) (part : Nat) : Option Nat := (s.ctxs.find? fun (_, x) => x.wparts.getLsbD part).map (·.1)

/-- A beat of the W-stack with an error: refetched where it is backed, from the scratchpad that it came from or from memory as an
engine's read finds it, pending pairs of its block applied first (R250, R373); else unbacked and poisoned. While the source's page
is absent, or the apply has to wait, the beat keeps its value, which the refetch will find there (R344, log 69). -/
def State.wError (s : State) (part beat : Nat) : State :=
  let b := part * 2 ^ 21 + beat
  let lost := { s with wpoison := addNew s.wpoison b }
  match s.backing.find (b / 128), s.partCtx part with
  | some r, some ctx =>
    let src := r.src.toNat + 32 * (b % 128)
    if !r.mask.getLsbD (b % 128) then lost
    else
      let fill := fun (s : State) (f : Nat → Byte) => s.wWrite (32 * b) ((rangeFrom src 32).map f)
      if r.lm then
        if (s.tile r.tile).poison.contains ((src - scratchBase) / 128) then lost
        else fill s fun a => (s.tile r.tile).lm.get (a - scratchBase)
      else
        match s.walk ctx src with
        | .error m => s.pageRequest ctx src 0 1 0xFFFF m.bad
        | .ok x =>
          let line := x.key src / 128
          match s.applyBlock line with
          | none => s
          | some s =>
            match (s.tile r.tile).l1.find line with
            | some l =>
              if (s.tile r.tile).l1Poison.contains line then { s with wpoison := addNew s.wpoison b }
              else fill s fun a => l.bytes.getD (x.key a % 128) 0
            | none =>
              if s.poisonedFor r.tile line then { s with wpoison := addNew s.wpoison b }
              else fill s fun a => s.homeByteFor r.tile (s.homeOf ctx a x.leaf) (x.key a)
  | none, _ | _, none => lost

/-- A deferred DATA_UE of a register file: TRAP_INFO has bit 63 and the specifier (R233, R249). -/
def State.registerUe (s : State) (c : CoreId) (reg : Byte) : State :=
  s.modCore c fun q => q.loadUe q.pc (if q.pos == .word then q.blk else q.pc) (BitVec.ofNat 64 (2 ^ 63 + reg.toNat))

/-- Pairs of a sorter become unreadable: the next apply drops them (R375). -/
def State.losePairs (s : State) (k : Nat) (ps : List Pair) : State :=
  let x := s.sorter k
  s.setSorter k { x with dead := ps.foldl addNew x.dead }

/-- An error in the weight buffers fails the operation that reads them, in its step (R344); what the fault record names is
free (log 69). -/
def State.weightUe (s : State) (cl op : Nat) : State :=
  match (s.cluster cl).order.find? (·.id == op) with
  | none => s
  | some o =>
    match o.kind with
    | .matrix _ _ => if o.started && o.running then
        s.modCluster cl fun x => x.setMx { o with fail := some (0x13, 0xFF, Config.weightInfo s.tick) } else s
    | _ => s

/-- An uncorrectable error where no window is open (R250, R344, R375). R250 speaks of lines that are read: in a long register
the error is pending at once, whether or not the register is read (DESIGN CHOICE, log 74). -/
def State.siteError (s : State) (site : Site) : State :=
  match site with
  | .mem line => s.setPoison line true
  | .l2 line => match s.slotOfLine line with
    | none => s
    | some h => s.l2Error h line
  | .lm t line => s.modTile t fun x => { x with poison := addNew x.poison line }
  | .l1 t line =>
    match (s.tile t).l1.find line with
    | none => s
    | some l => if l.dirty = 0 then s.l1Drop t line
      else s.modTile t fun x => { x with l1Poison := addNew x.l1Poison line }
  | .longReg c r => if (s.core c).work.isSome then s.registerUe c (BitVec.ofNat 8 (0x40 + r)) else s
  | .wstack part beat => s.wError part beat
  | .pair i =>
    match (s.sorters.flatMap fun (k, x) => x.pairs.map fun p => (k, p))[i]? with
    | none => s
    | some (k, p) => s.losePairs k [p]
  | .head k i =>
    match ((s.sorter k).bins.map (·.2) ++ (s.sorter k).spill.map (·.pairs))[i]? with
    | none => s
    | some ps => s.losePairs k ps
  | .weights cl op => s.weightUe cl op

/-- Stores of a tile, as R409 codes them. -/
def siteStore : Site → Nat
  | .lm _ _ => 1
  | .l1 _ _ => 2
  | .longReg _ _ => 3
  | .mem _ | .l2 _ | .wstack _ _ | .pair _ | .head _ _ | .weights _ _ => 0

def siteLines : Site → List Nat
  | .lm _ line | .l1 _ line => [line]
  | .longReg _ _ | .mem _ | .l2 _ | .wstack _ _ | .pair _ | .head _ _ | .weights _ _ => []

/-- UNCORRECTABLE_ERROR (R250): in a tile whose window is open, it is calibration's (R251). -/
def execUncorrectableError (site : Site) (s : State) : Host.Outcome State Fault Refusal :=
  match siteTile site with
  | some t => if s.windowOpen t then .next (s.calibError t (siteStore site) (siteLines site)) else .next (s.siteError site)
  | none => .next (s.siteError site)

/-- A line that the scrubbers report: no record of R409 holds it, so the model keeps the report (DESIGN CHOICE, log 73). -/
def State.scrubReport (s : State) (site : Site) : State := { s with scrubbed := addNew s.scrubbed site }

/-- PATROL_SCRUB (R394): a corrected line is written back with the bytes it has; one whose error cannot be corrected is
refetched where it is backed, else poisoned and reported. -/
def execPatrolScrub (site : Site) (err : Nat) (s : State) : Host.Outcome State Fault Refusal :=
  match err, site with
  | 2, .mem _ => .next ((s.siteError site).scrubReport site)
  | 2, .wstack part beat =>
    let t := s.siteError site
    .next (if t.wpoison.contains (part * 2 ^ 21 + beat) then t.scrubReport site else t)
  | _, _ => .next s

/-- REGISTER_PARITY_ERROR (R249, R251): in an open window it is calibration's; else an idempotent task is aborted with WHY 4
and other work takes a deferred DATA_UE. -/
def execRegisterParityError (c : CoreId) (reg : Byte) (s : State) : Host.Outcome State Fault Refusal :=
  let q := s.core c
  if q.work.isNone || s.isEnding c then .next s
  else if s.windowOpen (tileOf c) then .next (s.calibError (tileOf c) 0 [])
  else if q.idem then .next (s.abortTask c 4 0 none)
  else .next (s.registerUe c reg)

/-! ## Telemetry (R396) -/

/-- Bytes of a telemetry record. -/
def telBytes : Nat := 32

/-- TELEMETRY_SAMPLE (R396): one record for each of the die's 32 tiles; the interval starts anew. -/
def execTelemetrySample (die : Nat) (readings : List (Nat × Nat)) (s : State) : Host.Outcome State Fault Refusal :=
  if 4 ≤ die || !s.cfg.placed || s.cfg.telSize = 0 then .next s
  else
    .next ((rangeFrom (32 * die) 32).foldl (fun s t =>
      let (mw, temp) := readings.getD (t - 32 * die) (0, 0)
      let s := { s with host := s.host.write (s.cfg.telBase + telBytes * (s.telNext % s.cfg.telSize)) (s.telemetry t mw temp)
                        telNext := s.telNext + 1 }
      s.modTile t fun x => { x with telMaxd := 0, telAlarms := 0, telEcc := 0 }) s)

end Sys2Proof.Machine
end

