-- ==== Sys2Proof/Machine/SyncWords.lean ====
section
/-! DEFINITION. FENCE, synchronisation objects, atomics and sequentially consistent operations (04_memory_sync R109 to
R118, 20_update_streams R377, R378). -/
namespace Sys2Proof.Machine
open Sys2Proof

/-! ## FENCE (R109, R110) -/

/-- FENCE on one core: kept until an access of its successor set issues; in an idempotent task ue counts as absent. `pairs`: the
pairs that have left the cores of the package. -/
def Core.fence (q : Core) (pred succ : Byte) (scope : Scope) (pairs : Nat) : Core :=
  let keep : Byte := if q.idem then ~~~clsUe else 0xFF
  let pred := pred &&& keep
  let succ := succ &&& keep
  if pred = 0 || succ = 0 then q
  else { q with fences := q.fences ++ [{ pred := pred, succ := succ, scope := scope, upto := q.issue, pairs := pairs }]
                early := if meet succ clsGl then []
                  else if meet (pred ||| succ) clsVw then q.early.filter fun (a, _) => viewOf a == 0 else q.early
                issue := q.issue + 1 }

def execFence (c : Ctl) (pred succ : BitVec 8) (scope : Scope) (s : State) : Host.Outcome State Fault Refusal :=
  runCore (.fence c pred succ scope) s fun q => q.fence pred succ scope s.pairsOut

/-! ## Synchronisation objects (R111 to R114, R378) -/

/-- An object of a context, by its number in the model's map. -/
def objKey (ctx : Nat) (obj : Word) : Nat := ctx * 65536 + obj.toNat
def State.obj (s : State) (k : Nat) : SObj := s.objs.get k {}
def State.setObj (s : State) (k : Nat) (x : SObj) : State := { s with objs := s.objs.set k x }

/-- Checks 3 and 4 of R101 on one byte. -/
def rangeByteFail (q : Core) (a : Word) : Option Cause :=
  match q.place a.toNat with
  | none => some .addrFault
  | some (.lm _) => some .atomicLocal
  | some (.glob va ovf) => if ovf then some .atomicLocal else if stackBase ≤ va then some .addrFault else none

/-- Checks 3 and 4 on the first byte of a range, then on the last (R112, R181). -/
def rangeFail (q : Core) (base len : Word) : Option (Cause × Word) :=
  match rangeByteFail q base with
  | some cause => some (cause, base)
  | none =>
    let last := base + len - 1
    (rangeByteFail q last).map fun cause => (cause, last)

def execSobj (c : Ctl) (obj : SImm) (slot : BitVec 3) (base len : SReg) (s : State) :
    Host.Outcome State Fault Refusal :=
  runWord (.sobj c obj slot base len) s fun m s =>
    let q := s.core m
    let o := obj.val q
    let b := q.rs base
    let n := q.rs len
    if 65536 ≤ o.toNat then .trap .badObject 1
    else if b.toNat % 128 != 0 || n.toNat % 128 != 0 then .trap .badObject 2
    else if 2 ^ 36 < n.toNat then .trap .badObject 3
    else
      let k := objKey q.ctxNum o
      let x := s.obj k
      if n = 0 then .done (s.setObj k { x with ranges := x.ranges.erase slot.toNat })
      else
        match rangeFail q b n with
        | some (cause, info) => .trap cause info
        | none => .done (s.setObj k { x with ranges := x.ranges.set slot.toNat (b, n) })

/-- The physical ranges of an object. -/
def State.objLines (s : State) (ctx : Nat) (x : SObj) : List (Nat × Nat) :=
  x.ranges.flatMap fun (_, b, n) => s.rangeLines ctx b.toNat n.toNat

/-- Whether an address lies in one of several ranges. -/
def inRanges (ranges : List (Nat × Nat)) (a : Nat) : Bool := ranges.any fun (b, e) => b ≤ a && a < e

/-- Performs a core's stores to physical ranges at home, the store parts of atomics among them, with the tile's dirty lines
there (R109, R113). None: they wait. -/
def State.publishRanges (s : State) (c : CoreId) (ranges : List (Nat × Nat)) : Option State :=
  let mine := fun (p : PendStore) => !p.loc && p.cells.any fun (a, _) => inRanges ranges a
  let atom := fun (l : PendLoad) => l.rmw.isSome && l.lanes.any fun a => inRanges ranges a.pa
  let s := if (s.core c).loads.any atom then s.performLoads c else s
  let s := s.drainWhere c mine
  let s := (s.l1Sweep (tileOf c) false fun line _ => lineIn ranges line).settleViews
  let stuck := s.homeQ.any fun w => w.core.any (tileOf · == tileOf c) && w.cells.any fun (a, _) => inRanges ranges a
  if (s.core c).stores.any mine || (s.core c).loads.any atom || (s.core c).sc.isSome || stuck then none else some s

def execRel (c : Ctl) (d : SReg) (obj : SImm) (s : State) : Host.Outcome State Fault Refusal :=
  runWord (.rel c d obj) s fun m s =>
    let q := s.core m
    let o := obj.val q
    if q.idem then .trap .nonidemOp 0
    else if 65536 ≤ o.toNat then .trap .badObject 1
    else
      let k := objKey q.ctxNum o
      match s.publishRanges m (s.objLines q.ctxNum (s.obj k)) with
      | none => .wait
      | some s =>
        let n := (s.obj k).count + 1
        .done ((s.setObj k { s.obj k with count := n }).modCore m fun q => q.ws d n)

def execAcq (c : Ctl) (d : SReg) (obj : SImm) (s : State) : Host.Outcome State Fault Refusal :=
  runWord (.acq c d obj) s fun m s =>
    let q := s.core m
    let o := obj.val q
    if 65536 ≤ o.toNat then .trap .badObject 1
    else
      let x := s.obj (objKey q.ctxNum o)
      let ranges := s.objLines q.ctxNum x
      let s := s.l1Sweep (tileOf m) true fun line _ => lineIn ranges line && !s.lineStb line
      .done (s.modCore m fun q => { q with early := q.early.filter fun (a, _) => !inRanges ranges a }.ws d x.count)

/-! ## Atomics (R115, R116) -/

/-- Earlier accesses of the core to the same bytes come first (R264). -/
def State.ownBefore (s : State) (c : CoreId) (lanes : List Lane) : Option State :=
  let mine := fun (p : PendStore) => !p.loc && p.cells.any fun (a, _) => lanes.any (·.pa == a)
  let s := if (s.core c).loads.any fun l => l.lanes.any fun a => lanes.any (·.pa == a.pa) then s.performLoads c else s
  let s := s.drainWhere c mine
  if (s.core c).stores.any mine || (s.core c).loadsMeet { lanes := lanes } then none else some s

/-- An atomic on one core; with `d`, the old value is returned. It is relaxed toward the core's other locations: performed
at issue, or left outstanding when the core's plan says so (R116, R275, log 11). -/
def State.atomic (s : State) (c : CoreId) (d : Option SReg) (b : SReg) (t : AType) (x : Core → Rmw) : Res :=
  let q := s.core c
  let a := q.rs b
  let n := atypeBits t / 8
  if q.idem then .trap .nonidemOp 0
  else
    match s.checkAccess c accAtomic [⟨a, n, n⟩] with
    | some r => r
    | none =>
      let w := (s.resolve c true 3 (runBytes a n)).2
      let cls := (if d.isSome then clsGl ||| clsGs else clsGs) ||| (w.classes q true &&& clsVw)
      match s.fenceGate c cls with
      | none => .wait
      | some s =>
        let (s, w) := s.resolve c true 3 (runBytes a n)
        let s := s.modCore c fun q =>
          let q := { q with defer := q.defer.drop 1 }
          if d.isSome then q.countEvent 0x0040 1 else q
        if q.defer.headD false then
          .done (s.modCore c fun o =>
            o.deferLoad (match d with
              | none => .nothing
              | some r => .scalar r n (atypeSigned t)) w (some (x q)))
        else
          match s.ownBefore c w.lanes, w.lanes with
          | some s, l :: _ =>
            match s.engineRmw l.home l.pa t (x q).new with
            | none => .wait
            | some (s, old, bad) =>
              .done (s.modCore c fun q =>
                let q := { q with early := q.early.filter fun (k, _) => k / 32 != l.pa / 32 }
                match d with
                | none => q
                | some r => if bad then q.loadUe q.pc q.blk a else q.ws r (atypeExtend t old))
          | some _, [] | none, _ => .wait

/-- A returning atomic of the form `MNEM.t sD, (sB), v`. -/
def runAtomic (i : Instr) (s : State) (d b : SReg) (v : SImm) (t : AType) (op : AtomOp) :
    Host.Outcome State Fault Refusal :=
  runWord i s fun m s => s.atomic m (some d) b t fun q => ⟨op, t, (v.val q).toNat % 2 ^ atypeBits t⟩

def execAadd (c : Ctl) (d b : SReg) (v : SImm) (t : AType) (s : State) : Host.Outcome State Fault Refusal :=
  runAtomic (.aadd c d b v t) s d b v t .add

def execAmin (c : Ctl) (d b : SReg) (v : SImm) (t : AType) (s : State) : Host.Outcome State Fault Refusal :=
  runAtomic (.amin c d b v t) s d b v t .min

def execAmax (c : Ctl) (d b : SReg) (v : SImm) (t : AType) (s : State) : Host.Outcome State Fault Refusal :=
  runAtomic (.amax c d b v t) s d b v t .max

def execAand (c : Ctl) (d b : SReg) (v : SImm) (t : AType) (s : State) : Host.Outcome State Fault Refusal :=
  runAtomic (.aand c d b v t) s d b v t .and

def execAor (c : Ctl) (d b : SReg) (v : SImm) (t : AType) (s : State) : Host.Outcome State Fault Refusal :=
  runAtomic (.aor c d b v t) s d b v t .or

def execAxor (c : Ctl) (d b : SReg) (v : SImm) (t : AType) (s : State) : Host.Outcome State Fault Refusal :=
  runAtomic (.axor c d b v t) s d b v t .xor

def execAxchg (c : Ctl) (d b : SReg) (v : SImm) (t : AType) (s : State) : Host.Outcome State Fault Refusal :=
  runAtomic (.axchg c d b v t) s d b v t .xchg

def execAcas (c : Ctl) (d b : SReg) (cv nv : SImm) (t : AType) (s : State) : Host.Outcome State Fault Refusal :=
  runWord (.acas c d b cv nv t) s fun m s => s.atomic m (some d) b t fun q =>
    ⟨.cas ((cv.val q).toNat % 2 ^ atypeBits t), t, (nv.val q).toNat⟩

def execAnadd (c : Ctl) (b : SReg) (v : SImm) (t : AType) (s : State) : Host.Outcome State Fault Refusal :=
  runWord (.anadd c b v t) s fun m s => s.atomic m none b t fun q => ⟨.add, t, (v.val q).toNat⟩

/-! ## Sequentially consistent operations (R117, R118) -/

/-- Issue of a sequentially consistent operation: checks, the implied fence before its window, and the operation. On a
stretched tile it may reach Sirocco some windows later: a free choice (R276). -/
def State.scIssue (s : State) (c : CoreId) (kind : ScKind) (d b : SReg) (v : Word) (t : AType) : Res :=
  let q := s.core c
  let a := q.rs b
  let n := atypeBits t / 8
  if q.idem && kind != .load then .trap .nonidemOp 0
  else
    match s.checkAccess c (if kind == .load then accScRead else accScWrite) [⟨a, n, n⟩] with
    | some r => r
    | none =>
      match s.fenceGate c 0xFF with
      | none => .wait
      | some s =>
        match s.fenceSteps c { pred := 0xFF, succ := 0xFF, scope := .package, upto := q.issue, pairs := s.pairsOut } with
        | none => .wait
        | some s =>
          let (s, w) := s.resolve c (kind != .load) 3 (runBytes a n)
          let late := if (s.tile (tileOf c)).stretch = 0 then 0 else Config.scLate s.tick c
          match w.lanes with
          | [] => .wait
          | l :: _ => .done (s.modCore c fun q =>
              { q with early := [], sc := some { late := late, kind := kind, d := d, t := t, pa := l.pa, home := l.home, va := a, v := v, pc := q.pc, blk := q.blk } })

def execScld (c : Ctl) (d b : SReg) (t : AType) (s : State) : Host.Outcome State Fault Refusal :=
  runWord (.scld c d b t) s fun m s => s.scIssue m .load d b 0 t

def execScst (c : Ctl) (b : SReg) (v : SImm) (t : AType) (s : State) : Host.Outcome State Fault Refusal :=
  runWord (.scst c b v t) s fun m s => s.scIssue m .store 0 b (v.val (s.core m)) t

def execScxch (c : Ctl) (d b : SReg) (v : SImm) (t : AType) (s : State) : Host.Outcome State Fault Refusal :=
  runWord (.scxch c d b v t) s fun m s => s.scIssue m .xchg d b (v.val (s.core m)) t

/-- Performs the operations of a window, in core order; one that has yet to reach Sirocco comes nearer. None: one of them
must wait at home. -/
def State.scPerform (s : State) : List CoreId → Option State
  | [] => some s
  | c :: cs =>
    match (s.core c).sc with
    | none => s.scPerform cs
    | some o =>
      if o.performed.isSome then s.scPerform cs
      else if 0 < o.late then (s.modCore c fun q => { q with sc := some { o with late := o.late - 1 } }).scPerform cs
      else
        match s.engineRmw o.home o.pa o.t fun old => if o.kind == .load then old else o.v.toNat with
        | none => none
        | some (s, old, bad) =>
          let s := s.modCore c fun q =>
            let bad := bad && o.kind != .store
            let q := { q with sc := some { o with performed := some (BitVec.ofNat 64 old), bad := bad } }
            if bad then q.loadUe o.pc o.blk o.va else q
          s.scPerform cs

/-- SIROCCO_WINDOW_CLOSE (R118). -/
def execSiroccoWindowClose (s : State) : Host.Outcome State Fault Refusal :=
  .next ((s.scPerform (List.range 512)).getD s)

/-- SC_OPERATION_COMPLETE (R118): the destination takes the old value, unless it was poisoned; what the core reads from
then on is no older than the operation (R274, R276). -/
def execScOperationComplete (c : CoreId) (s : State) : Host.Outcome State Fault Refusal :=
  match (s.core c).sc with
  | none => .next s
  | some o =>
    match o.performed with
    | none => .next s
    | some old => .next ((s.freshLines c).modCore c fun q =>
        let q := { q with sc := none }
        if o.kind == .store || o.bad then q else q.ws o.d (atypeExtend o.t old.toNat))

/-- SYNC_LINE_RETURN (R377): no access can tell. -/
def execSyncLineReturn (line : Nat) (s : State) : Host.Outcome State Fault Refusal :=
  .next { s with dies := s.dies.mapVals fun _ d => { d with held := d.held.filter (· != line) } }

end Sys2Proof.Machine
end

