-- ==== Sys2Proof/Machine/Timelines.lean ====
section
/-! DEFINITION. Timeline waits and tags (04_memory_sync R126, R127; 06_matrix_stream R170). -/
namespace Sys2Proof.Machine
open Sys2Proof

/-- The timeline of a code, in a tag's bits [63:61]. -/
def timelineOf (code : Nat) : Option Timeline := Timeline.ofCode code

/-- A wait for operations 1 to `n` of a timeline: TIMELINE_AHEAD with `info`, the stall, then the acquire and `after`. -/
def State.tlReach (s : State) (c : CoreId) (t : Timeline) (n : Nat) (info : Word) (after : Core → Core) : Res :=
  let x := (s.core c).tl t
  if x.issued < n then .trap .timelineAhead info
  else if x.done < n then .wait
  else .done ((s.acquire c t n).modCore c after)

/-- A test of the same: the predicate, and the acquire when it holds. -/
def State.tlTest (s : State) (c : CoreId) (t : Timeline) (n : Nat) (info : Word) (d : PReg) : Res :=
  let x := (s.core c).tl t
  if x.issued < n then .trap .timelineAhead info
  else if x.done < n then .done (s.modCore c fun q => q.wp d false)
  else .done ((s.acquire c t n).modCore c fun q => q.wp d true)

def execTlwait (c : Ctl) (tl : Timeline) (n : SImm) (s : State) : Host.Outcome State Fault Refusal :=
  runWord (.tlwait c tl n) s fun m s =>
    let q := s.core m
    s.tlReach m tl (n.val q).toNat (BitVec.ofNat 64 (q.tl tl).issued) id

def execTlrd (c : Ctl) (d : SReg) (tl : Timeline) (which : TlWhich) (s : State) : Host.Outcome State Fault Refusal :=
  runCore (.tlrd c d tl which) s fun q =>
    q.ws d (BitVec.ofNat 64 (match which with
      | .done => (q.tl tl).done
      | .issued => (q.tl tl).issued))

def execTlpoll (c : Ctl) (d : PReg) (tl : Timeline) (n : SImm) (s : State) : Host.Outcome State Fault Refusal :=
  runWord (.tlpoll c d tl n) s fun m s =>
    let q := s.core m
    s.tlTest m tl (n.val q).toNat (BitVec.ofNat 64 (q.tl tl).issued) d

/-- Number of an operation in a tag. -/
def tagNumber (w : Word) : Nat := w.toNat % 2 ^ 61

def execJwait (c : Ctl) (d tag : SReg) (s : State) : Host.Outcome State Fault Refusal :=
  runWord (.jwait c d tag) s fun m s =>
    let q := s.core m
    let w := q.rs tag
    match timelineOf (w.toNat / 2 ^ 61) with
    | none => .trap .timelineAhead w
    | some t =>
      s.tlReach m t (tagNumber w) w fun q =>
        q.ws d (((q.tl t).statusOf (tagNumber w)).setWidth 64)

def execJpoll (c : Ctl) (d : PReg) (tag : SReg) (s : State) : Host.Outcome State Fault Refusal :=
  runWord (.jpoll c d tag) s fun m s =>
    let w := (s.core m).rs tag
    match timelineOf (w.toNat / 2 ^ 61) with
    | none => .trap .timelineAhead w
    | some t => s.tlTest m t (tagNumber w) w d

end Sys2Proof.Machine
end

