-- ==== Sys2Proof/Machine/Dispatch.lean ====
section
/-! DEFINITION. One arm per instruction and event. -/
namespace Sys2Proof.Machine
open Sys2Proof

def exec (i : Instr) (s : State) : Host.Outcome State Fault Refusal :=
  match i with
  | .nop c => Sys2Proof.Machine.execNop c s
  | .br c off => Sys2Proof.Machine.execBr c off s
  | .brc c a cond off => Sys2Proof.Machine.execBrc c a cond off s
  | .brx c a => Sys2Proof.Machine.execBrx c a s
  | .call c d off => Sys2Proof.Machine.execCall c d off s
  | .callx c d a => Sys2Proof.Machine.execCallx c d a s
  | .ret c a => Sys2Proof.Machine.execRet c a s
  | .loop c a off => Sys2Proof.Machine.execLoop c a off s
  | .halt c => Sys2Proof.Machine.execHalt c s
  | .sleep c d t => Sys2Proof.Machine.execSleep c d t s
  | .yield c => Sys2Proof.Machine.execYield c s
  | .add c d a b => Sys2Proof.Machine.execAdd c d a b s
  | .sub c d a b => Sys2Proof.Machine.execSub c d a b s
  | .mul c d a b => Sys2Proof.Machine.execMul c d a b s
  | .mulh c d a b => Sys2Proof.Machine.execMulh c d a b s
  | .mulhn c d a b => Sys2Proof.Machine.execMulhn c d a b s
  | .div c d a b => Sys2Proof.Machine.execDiv c d a b s
  | .divn c d a b => Sys2Proof.Machine.execDivn c d a b s
  | .rem c d a b => Sys2Proof.Machine.execRem c d a b s
  | .remn c d a b => Sys2Proof.Machine.execRemn c d a b s
  | .neg c d a => Sys2Proof.Machine.execNeg c d a s
  | .abs c d a => Sys2Proof.Machine.execAbs c d a s
  | .min c d a b => Sys2Proof.Machine.execMin c d a b s
  | .max c d a b => Sys2Proof.Machine.execMax c d a b s
  | .minn c d a b => Sys2Proof.Machine.execMinn c d a b s
  | .maxn c d a b => Sys2Proof.Machine.execMaxn c d a b s
  | .and c d a b => Sys2Proof.Machine.execAnd c d a b s
  | .or c d a b => Sys2Proof.Machine.execOr c d a b s
  | .xor c d a b => Sys2Proof.Machine.execXor c d a b s
  | .andn c d a b => Sys2Proof.Machine.execAndn c d a b s
  | .orn c d a b => Sys2Proof.Machine.execOrn c d a b s
  | .shl c d a b => Sys2Proof.Machine.execShl c d a b s
  | .shr c d a b => Sys2Proof.Machine.execShr c d a b s
  | .sar c d a b => Sys2Proof.Machine.execSar c d a b s
  | .rol c d a b => Sys2Proof.Machine.execRol c d a b s
  | .ror c d a b => Sys2Proof.Machine.execRor c d a b s
  | .clz c d a => Sys2Proof.Machine.execClz c d a s
  | .ctz c d a => Sys2Proof.Machine.execCtz c d a s
  | .popc c d a => Sys2Proof.Machine.execPopc c d a s
  | .brev c d a => Sys2Proof.Machine.execBrev c d a s
  | .bext c d a pos len => Sys2Proof.Machine.execBext c d a pos len s
  | .bins c d a pos len => Sys2Proof.Machine.execBins c d a pos len s
  | .sext c d a w => Sys2Proof.Machine.execSext c d a w s
  | .zext c d a w => Sys2Proof.Machine.execZext c d a w s
  | .sel c d pc a b => Sys2Proof.Machine.execSel c d pc a b s
  | .mov c d a => Sys2Proof.Machine.execMov c d a s
  | .limm c d part imm => Sys2Proof.Machine.execLimm c d part imm s
  | .addr c d base index sc => Sys2Proof.Machine.execAddr c d base index sc s
  | .cmp c d cond a b => Sys2Proof.Machine.execCmp c d cond a b s
  | .pand c d a b => Sys2Proof.Machine.execPand c d a b s
  | .por c d a b => Sys2Proof.Machine.execPor c d a b s
  | .pxor c d a b => Sys2Proof.Machine.execPxor c d a b s
  | .pnot c d a => Sys2Proof.Machine.execPnot c d a s
  | .pset c a m => Sys2Proof.Machine.execPset c a m s
  | .pget c d => Sys2Proof.Machine.execPget c d s
  | .fadd c d a b t => Sys2Proof.Machine.execFadd c d a b t s
  | .fsub c d a b t => Sys2Proof.Machine.execFsub c d a b t s
  | .fmul c d a b t => Sys2Proof.Machine.execFmul c d a b t s
  | .ffma c d a b e t => Sys2Proof.Machine.execFfma c d a b e t s
  | .fmin c d a b t => Sys2Proof.Machine.execFmin c d a b t s
  | .fmax c d a b t => Sys2Proof.Machine.execFmax c d a b t s
  | .fabs c d a t => Sys2Proof.Machine.execFabs c d a t s
  | .fneg c d a t => Sys2Proof.Machine.execFneg c d a t s
  | .fcmp c d cond a b t => Sys2Proof.Machine.execFcmp c d cond a b t s
  | .fcvt c d a dst src => Sys2Proof.Machine.execFcvt c d a dst src s
  | .frnd c d a mode t => Sys2Proof.Machine.execFrnd c d a mode t s
  | .ld c d b size disp => Sys2Proof.Machine.execLd c d b size disp s
  | .st c b a size disp => Sys2Proof.Machine.execSt c b a size disp s
  | .ldp c d1 d2 b disp => Sys2Proof.Machine.execLdp c d1 d2 b disp s
  | .stp c b a1 a2 disp => Sys2Proof.Machine.execStp c b a1 a2 disp s
  | .ldv c d b k disp => Sys2Proof.Machine.execLdv c d b k disp s
  | .stv c b v k disp => Sys2Proof.Machine.execStv c b v k disp s
  | .ldvs c d b stride size k => Sys2Proof.Machine.execLdvs c d b stride size k s
  | .stvs c b v stride size k => Sys2Proof.Machine.execStvs c b v stride size k s
  | .prf c b level disp => Sys2Proof.Machine.execPrf c b level disp s
  | .fll c b mode disp => Sys2Proof.Machine.execFll c b mode disp s
  | .fence c pred succ scope => Sys2Proof.Machine.execFence c pred succ scope s
  | .acq c d obj => Sys2Proof.Machine.execAcq c d obj s
  | .rel c d obj => Sys2Proof.Machine.execRel c d obj s
  | .sobj c obj slot base len => Sys2Proof.Machine.execSobj c obj slot base len s
  | .aadd c d b v t => Sys2Proof.Machine.execAadd c d b v t s
  | .amin c d b v t => Sys2Proof.Machine.execAmin c d b v t s
  | .amax c d b v t => Sys2Proof.Machine.execAmax c d b v t s
  | .aand c d b v t => Sys2Proof.Machine.execAand c d b v t s
  | .aor c d b v t => Sys2Proof.Machine.execAor c d b v t s
  | .axor c d b v t => Sys2Proof.Machine.execAxor c d b v t s
  | .axchg c d b v t => Sys2Proof.Machine.execAxchg c d b v t s
  | .acas c d b cv nv t => Sys2Proof.Machine.execAcas c d b cv nv t s
  | .anadd c b v t => Sys2Proof.Machine.execAnadd c b v t s
  | .scld c d b t => Sys2Proof.Machine.execScld c d b t s
  | .scst c b v t => Sys2Proof.Machine.execScst c b v t s
  | .scxch c d b v t => Sys2Proof.Machine.execScxch c d b v t s
  | .bara c opts bar => Sys2Proof.Machine.execBara c opts bar s
  | .barw c bar => Sys2Proof.Machine.execBarw c bar s
  | .bart c d bar => Sys2Proof.Machine.execBart c d bar s
  | .barm c d m bar => Sys2Proof.Machine.execBarm c d m bar s
  | .tlwait c tl n => Sys2Proof.Machine.execTlwait c tl n s
  | .tlrd c d tl which => Sys2Proof.Machine.execTlrd c d tl which s
  | .tlpoll c d tl n => Sys2Proof.Machine.execTlpoll c d tl n s
  | .phase c mode bar => Sys2Proof.Machine.execPhase c mode bar s
  | .pdrain c d bar => Sys2Proof.Machine.execPdrain c d bar s
  | .vmode c share => Sys2Proof.Machine.execVmode c share s
  | .vadd c d a b k t => Sys2Proof.Machine.execVadd c d a b k t s
  | .vsub c d a b k t => Sys2Proof.Machine.execVsub c d a b k t s
  | .vadds c d a b k t => Sys2Proof.Machine.execVadds c d a b k t s
  | .vsubs c d a b k t => Sys2Proof.Machine.execVsubs c d a b k t s
  | .vmul c d a b k t => Sys2Proof.Machine.execVmul c d a b k t s
  | .vmulh c d a b k t => Sys2Proof.Machine.execVmulh c d a b k t s
  | .vmin c d a b k t => Sys2Proof.Machine.execVmin c d a b k t s
  | .vmax c d a b k t => Sys2Proof.Machine.execVmax c d a b k t s
  | .vabs c d a k t => Sys2Proof.Machine.execVabs c d a k t s
  | .vand c d a b k t => Sys2Proof.Machine.execVand c d a b k t s
  | .vor c d a b k t => Sys2Proof.Machine.execVor c d a b k t s
  | .vxor c d a b k t => Sys2Proof.Machine.execVxor c d a b k t s
  | .vshl c d a b k t => Sys2Proof.Machine.execVshl c d a b k t s
  | .vshr c d a b k t => Sys2Proof.Machine.execVshr c d a b k t s
  | .vsar c d a b k t => Sys2Proof.Machine.execVsar c d a b k t s
  | .vcmp c d a b k cond t => Sys2Proof.Machine.execVcmp c d a b k cond t s
  | .vsel c d a b k t => Sys2Proof.Machine.execVsel c d a b k t s
  | .vmov c d b k t => Sys2Proof.Machine.execVmov c d b k t s
  | .vbc c d a idx k t => Sys2Proof.Machine.execVbc c d a idx k t s
  | .vext c d a idx t => Sys2Proof.Machine.execVext c d a idx t s
  | .vins c d a idx t => Sys2Proof.Machine.execVins c d a idx t s
  | .vfadd c d a b k t => Sys2Proof.Machine.execVfadd c d a b k t s
  | .vfsub c d a b k t => Sys2Proof.Machine.execVfsub c d a b k t s
  | .vfmul c d a b k t => Sys2Proof.Machine.execVfmul c d a b k t s
  | .vffma c d a b k t => Sys2Proof.Machine.execVffma c d a b k t s
  | .vfmin c d a b k t => Sys2Proof.Machine.execVfmin c d a b k t s
  | .vfmax c d a b k t => Sys2Proof.Machine.execVfmax c d a b k t s
  | .vfcmp c d a b k cond t => Sys2Proof.Machine.execVfcmp c d a b k cond t s
  | .vexp2 c d a k t => Sys2Proof.Machine.execVexp2 c d a k t s
  | .vlog2 c d a k t => Sys2Proof.Machine.execVlog2 c d a k t s
  | .vrcp c d a k t => Sys2Proof.Machine.execVrcp c d a k t s
  | .vrsq c d a k t => Sys2Proof.Machine.execVrsq c d a k t s
  | .vtanh c d a k t => Sys2Proof.Machine.execVtanh c d a k t s
  | .vlut c d a tab k t => Sys2Proof.Machine.execVlut c d a tab k t s
  | .vrsum c d a k t => Sys2Proof.Machine.execVrsum c d a k t s
  | .vrmax c d a k t => Sys2Proof.Machine.execVrmax c d a k t s
  | .vrmin c d a k t => Sys2Proof.Machine.execVrmin c d a k t s
  | .vperm c d a idx k t => Sys2Proof.Machine.execVperm c d a idx k t s
  | .vshuf c d a b idx t => Sys2Proof.Machine.execVshuf c d a b idx t s
  | .vslide c d a b n t => Sys2Proof.Machine.execVslide c d a b n t s
  | .vzip c d a b half t => Sys2Proof.Machine.execVzip c d a b half t s
  | .vuzp c d a b half t => Sys2Proof.Machine.execVuzp c d a b half t s
  | .vcvt c d a k part dst src => Sys2Proof.Machine.execVcvt c d a k part dst src s
  | .vqmx c d a e part mode fmt src => Sys2Proof.Machine.execVqmx c d a e part mode fmt src s
  | .vtern c d a thr part t => Sys2Proof.Machine.execVtern c d a thr part t s
  | .vpk5 c d a o fmt => Sys2Proof.Machine.execVpk5 c d a o fmt s
  | .vupk5 c d a o fmt => Sys2Proof.Machine.execVupk5 c d a o fmt s
  | .vtolg c d a e part mode src => Sys2Proof.Machine.execVtolg c d a e part mode src s
  | .vfrlg c d a e part t => Sys2Proof.Machine.execVfrlg c d a e part t s
  | .vcomp c d m a part pat t => Sys2Proof.Machine.execVcomp c d m a part pat t s
  | .vexpd c d m a part pat t => Sys2Proof.Machine.execVexpd c d m a part pat t s
  | .vpmrg c d a bar => Sys2Proof.Machine.execVpmrg c d a bar s
  | .kand c d a b => Sys2Proof.Machine.execKand c d a b s
  | .kor c d a b => Sys2Proof.Machine.execKor c d a b s
  | .knot c d a => Sys2Proof.Machine.execKnot c d a s
  | .kpop c d a => Sys2Proof.Machine.execKpop c d a s
  | .kfirst c d a => Sys2Proof.Machine.execKfirst c d a s
  | .mcfg c dr b disp => Sys2Proof.Machine.execMcfg c dr b disp s
  | .mperm c d b => Sys2Proof.Machine.execMperm c d b s
  | .mscl c d w v => Sys2Proof.Machine.execMscl c d w v s
  | .mgang c d dr => Sys2Proof.Machine.execMgang c d dr s
  | .mjob c d dr => Sys2Proof.Machine.execMjob c d dr s
  | .macr c d n t tile row col => Sys2Proof.Machine.execMacr c d n t tile row col s
  | .macz c d tile => Sys2Proof.Machine.execMacz c d tile s
  | .macw c d v t tile row col => Sys2Proof.Machine.execMacw c d v t tile row col s
  | .mbld c d w b len => Sys2Proof.Machine.execMbld c d w b len s
  | .jwait c d tag => Sys2Proof.Machine.execJwait c d tag s
  | .jpoll c d tag => Sys2Proof.Machine.execJpoll c d tag s
  | .hcfg c h base bytes slots => Sys2Proof.Machine.execHcfg c h base bytes slots s
  | .hbind c d h b => Sys2Proof.Machine.execHbind c d h b s
  | .hadvp c h => Sys2Proof.Machine.execHadvp c h s
  | .hadvc c h => Sys2Proof.Machine.execHadvc c h s
  | .hstat c d h field => Sys2Proof.Machine.execHstat c d h field s
  | .hunb c h => Sys2Proof.Machine.execHunb c h s
  | .cpy c d dst src len => Sys2Proof.Machine.execCpy c d dst src len s
  | .cpyt c d b => Sys2Proof.Machine.execCpyt c d b s
  | .cthr c d b => Sys2Proof.Machine.execCthr c d b s
  | .gth c d h b idx r => Sys2Proof.Machine.execGth c d h b idx r s
  | .gthm c d h b idx r => Sys2Proof.Machine.execGthm c d h b idx r s
  | .gmsk c k op => Sys2Proof.Machine.execGmsk c k op s
  | .ureg c h base len op => Sys2Proof.Machine.execUreg c h base len op s
  | .upd c h off v => Sys2Proof.Machine.execUpd c h off v s
  | .updv c h off v k => Sys2Proof.Machine.execUpdv c h off v k s
  | .uflsh c d h => Sys2Proof.Machine.execUflsh c d h s
  | .uqry c d h => Sys2Proof.Machine.execUqry c d h s
  | .trap c imm => Sys2Proof.Machine.execTrap c imm s
  | .eret c mode => Sys2Proof.Machine.execEret c mode s
  | .uiret c => Sys2Proof.Machine.execUiret c s
  | .crr c d cr => Sys2Proof.Machine.execCrr c d cr s
  | .crw c a cr => Sys2Proof.Machine.execCrw c a cr s
  | .crset c d a cr => Sys2Proof.Machine.execCrset c d a cr s
  | .crclr c d a cr => Sys2Proof.Machine.execCrclr c d a cr s
  | .tstamp c d => Sys2Proof.Machine.execTstamp c d s
  | .cyc c d => Sys2Proof.Machine.execCyc c d s
  | .ecrd c d n => Sys2Proof.Machine.execEcrd c d n s
  | .eccfg c n src => Sys2Proof.Machine.execEccfg c n src s
  | .ecsum c b opt bar => Sys2Proof.Machine.execEcsum c b opt bar s
  | .rng c d k x => Sys2Proof.Machine.execRng c d k x s
  | .taskget c a k l how => Sys2Proof.Machine.execTaskget c a k l how s
  | .taskput c d key e arg => Sys2Proof.Machine.execTaskput c d key e arg s
  | .taskend c => Sys2Proof.Machine.execTaskend c s
  | .taskab c code => Sys2Proof.Machine.execTaskab c code s
  | .convoy c op => Sys2Proof.Machine.execConvoy c op s
  | .tlbi c mode a scope => Sys2Proof.Machine.execTlbi c mode a scope s
  | .rput c d pkg dst src len => Sys2Proof.Machine.execRput c d pkg dst src len s
  | .rflag c d pkg dst v => Sys2Proof.Machine.execRflag c d pkg dst v s
  | .rfence c d => Sys2Proof.Machine.execRfence c d s
  | .rsend c d h ch => Sys2Proof.Machine.execRsend c d h ch s
  | .rrecv c d h ch => Sys2Proof.Machine.execRrecv c d h ch s
  | .unassignedOpcode w => Sys2Proof.Machine.execUnassignedOpcode w s
  | .devConfig seq block => Sys2Proof.Machine.execDevConfig seq block s
  | .ctxCreate seq ctx split gen root vec wdLimit block => Sys2Proof.Machine.execCtxCreate seq ctx split gen root vec wdLimit block s
  | .ctxKill seq ctx gen => Sys2Proof.Machine.execCtxKill seq ctx gen s
  | .launch seq ctx id card size => Sys2Proof.Machine.execLaunch seq ctx id card size s
  | .preempt seq ctx scope => Sys2Proof.Machine.execPreempt seq ctx scope s
  | .preemptKill seq ctx scope => Sys2Proof.Machine.execPreemptKill seq ctx scope s
  | .resume seq ctx scope => Sys2Proof.Machine.execResume seq ctx scope s
  | .pageAnswer seq ctx refused gen va reqSeq => Sys2Proof.Machine.execPageAnswer seq ctx refused gen va reqSeq s
  | .migrate seq ctx size alloc va target replica => Sys2Proof.Machine.execMigrate seq ctx size alloc va target replica s
  | .setLimit seq w => Sys2Proof.Machine.execSetLimit seq w s
  | .ringCfg seq n pkg block => Sys2Proof.Machine.execRingCfg seq n pkg block s
  | .ckpt seq extents count => Sys2Proof.Machine.execCkpt seq extents count s
  | .ckptAbort seq => Sys2Proof.Machine.execCkptAbort seq s
  | .restore seq extents count digest => Sys2Proof.Machine.execRestore seq extents count digest s
  | .diagRead seq kind target addr count => Sys2Proof.Machine.execDiagRead seq kind target addr count s
  | .eventResend seq n => Sys2Proof.Machine.execEventResend seq n s
  | .attest seq nonce addr => Sys2Proof.Machine.execAttest seq nonce addr s
  | .debugResume seq ctx c gen => Sys2Proof.Machine.execDebugResume seq ctx c gen s
  | .debugHaltRequest seq ctx c gen => Sys2Proof.Machine.execDebugHaltRequest seq ctx c gen s
  | .userInterruptEntry c => Sys2Proof.Machine.execUserInterruptEntry c s
  | .sleepWake c spurious => Sys2Proof.Machine.execSleepWake c spurious s
  | .loadReturn c n => Sys2Proof.Machine.execLoadReturn c n s
  | .loadDataUe c n => Sys2Proof.Machine.execLoadDataUe c n s
  | .storeDrain c n => Sys2Proof.Machine.execStoreDrain c n s
  | .siroccoWindowClose => Sys2Proof.Machine.execSiroccoWindowClose s
  | .scOperationComplete c => Sys2Proof.Machine.execScOperationComplete c s
  | .syncLineReturn line => Sys2Proof.Machine.execSyncLineReturn line s
  | .barrierPhaseComplete c b => Sys2Proof.Machine.execBarrierPhaseComplete c b s
  | .probePass c b => Sys2Proof.Machine.execProbePass c b s
  | .vpmrgMerge c b => Sys2Proof.Machine.execVpmrgMerge c b s
  | .jobQueueAccept cl => Sys2Proof.Machine.execJobQueueAccept cl s
  | .jobQueueDepart cl mx => Sys2Proof.Machine.execJobQueueDepart cl mx s
  | .matrixOperationStart cl => Sys2Proof.Machine.execMatrixOperationStart cl s
  | .matrixStepCommit cl op => Sys2Proof.Machine.execMatrixStepCommit cl op s
  | .chainAdd cl op => Sys2Proof.Machine.execChainAdd cl op s
  | .streamSlotFill c h => Sys2Proof.Machine.execStreamSlotFill c h s
  | .engineOperationComplete c tl n => Sys2Proof.Machine.execEngineOperationComplete c tl n s
  | .sorterBatchClose sorter => Sys2Proof.Machine.execSorterBatchClose sorter s
  | .updateApply ctx line => Sys2Proof.Machine.execUpdateApply ctx line s
  | .backgroundFlush sorter line => Sys2Proof.Machine.execBackgroundFlush sorter line s
  | .l2Install slice line => Sys2Proof.Machine.execL2Install slice line s
  | .l2Write slice line => Sys2Proof.Machine.execL2Write slice line s
  | .idleSweep slice line => Sys2Proof.Machine.execIdleSweep slice line s
  | .tierWrite line => Sys2Proof.Machine.execTierWrite line s
  | .tierRead line good => Sys2Proof.Machine.execTierRead line good s
  | .viewSettle => Sys2Proof.Machine.execViewSettle s
  | .ringPacketPerform pkg rctx path dst data => Sys2Proof.Machine.execRingPacketPerform pkg rctx path dst data s
  | .orderedFlagPerform pkg rctx path dst v counts => Sys2Proof.Machine.execOrderedFlagPerform pkg rctx path dst v counts s
  | .ringAck c n path status => Sys2Proof.Machine.execRingAck c n path status s
  | .ringSlotArrive port ch data => Sys2Proof.Machine.execRingSlotArrive port ch data s
  | .flitRetransmit link => Sys2Proof.Machine.execFlitRetransmit link s
  | .laneRetire link => Sys2Proof.Machine.execLaneRetire link s
  | .linkDown link => Sys2Proof.Machine.execLinkDown link s
  | .nodePlacement ctx launch node => Sys2Proof.Machine.execNodePlacement ctx launch node s
  | .nearSpillOver ctx launch node => Sys2Proof.Machine.execNearSpillOver ctx launch node s
  | .gangPlacement ctx launch node => Sys2Proof.Machine.execGangPlacement ctx launch node s
  | .persistentStart ctx launch => Sys2Proof.Machine.execPersistentStart ctx launch s
  | .taskCompletionReport ctx launch node => Sys2Proof.Machine.execTaskCompletionReport ctx launch node s
  | .preemptHalt c => Sys2Proof.Machine.execPreemptHalt c s
  | .drainDone c => Sys2Proof.Machine.execDrainDone c s
  | .saveDone c => Sys2Proof.Machine.execSaveDone c s
  | .contextRestoreDone ctx c onto => Sys2Proof.Machine.execContextRestoreDone ctx c onto s
  | .replayRelease ctx launch node => Sys2Proof.Machine.execReplayRelease ctx launch node s
  | .watchdogExpiry c => Sys2Proof.Machine.execWatchdogExpiry c s
  | .budgetDivision draw demands draws => Sys2Proof.Machine.execBudgetDivision draw demands draws s
  | .operatingPointChange tile => Sys2Proof.Machine.execOperatingPointChange tile s
  | .powerSample mw => Sys2Proof.Machine.execPowerSample mw s
  | .droopAlarm tile mv => Sys2Proof.Machine.execDroopAlarm tile mv s
  | .droopHalvingEnd tile => Sys2Proof.Machine.execDroopHalvingEnd tile s
  | .calibrationDwellEnd tile errors early => Sys2Proof.Machine.execCalibrationDwellEnd tile errors early s
  | .calibUe tile store lines => Sys2Proof.Machine.execCalibUe tile store lines s
  | .ageingMeasure tile grown => Sys2Proof.Machine.execAgeingMeasure tile grown s
  | .patrolScrub site err => Sys2Proof.Machine.execPatrolScrub site err s
  | .correctedError site canary => Sys2Proof.Machine.execCorrectedError site canary s
  | .uncorrectableError site => Sys2Proof.Machine.execUncorrectableError site s
  | .registerParityError c reg => Sys2Proof.Machine.execRegisterParityError c reg s
  | .telemetrySample die readings => Sys2Proof.Machine.execTelemetrySample die readings s
  | .streamTailWrite n v => Sys2Proof.Machine.execStreamTailWrite n v s
  | .eventHeadWrite v => Sys2Proof.Machine.execEventHeadWrite v s
  | .reattach epoch => Sys2Proof.Machine.execReattach epoch s
  | .wake v => Sys2Proof.Machine.execWake v s
  | .hostRegisterWrite off v => Sys2Proof.Machine.execHostRegisterWrite off v s
  | .hostWindowAccess off len data => Sys2Proof.Machine.execHostWindowAccess off len data s
  | .checkpointStreamEnd => Sys2Proof.Machine.execCheckpointStreamEnd s
  | .seqGap => Sys2Proof.Machine.execSeqGap s
  | .msiXInterrupt => Sys2Proof.Machine.execMsiXInterrupt s
  | .deviceReset slotA slotB => Sys2Proof.Machine.execDeviceReset slotA slotB s
  | .updatePairArrival k => Sys2Proof.Machine.execUpdatePairArrival k s
  | .migrationComplete ctx page => Sys2Proof.Machine.execMigrationComplete ctx page s
  | .calibrationStepResume tile point => Sys2Proof.Machine.execCalibrationStepResume tile point s
  | .linkTrained link lanes => Sys2Proof.Machine.execLinkTrained link lanes s

end Sys2Proof.Machine
end

