-- ==== Sys2Proof/Machine/Run.lean ====
section
/-! DEFINITION. One boundary of a core (10_traps R238), the moves of the agenda, and what happens when it is empty. -/
namespace Sys2Proof.Machine
open Sys2Proof

/-- The word at a core's program counter is fetched, decoded and executed (rank 4 of R238). -/
def State.coreWord (s : State) (c : CoreId) : Host.Outcome State Fault Refusal :=
  let ms := s.convoyOf c
  let q := s.core c
  match s.fetch c q.priv q.pc with
  | .busy => .next (s.codeApply c q.pc)
  | .page bad => .next (s.pageFault c q.pc.toNat bad 2)
  | .trap cause => .next (s.preciseTrap ms c cause q.pc q.pc q.blk)
  | .word w =>
    let s := { s.fetchUse c q.pc with cur := c }
    if isHeader w then .next (s.preciseTrap ms c .illegalOp (illegalInfo ⟨0x02, 0xFF⟩) q.pc q.blk)
    else
      let bad := if (opRow (unpack w).op.toNat).isSome then checkMode q.share (unpack w) else none
      match (match bad with | some e => Except.error e | none => decodeIn q.share w) with
      | .error e => .next (s.preciseTrap ms c .illegalOp (illegalInfo e) q.pc q.blk)
      | .ok i => exec i s

/-- A word that the members still stand before waits: the saved record of one that is pre-empted says so (R246). -/
def State.noteWait (s : State) (ms : List CoreId) (r : Host.Outcome State Fault Refusal) : Host.Outcome State Fault Refusal :=
  match r with
  | .next t => .next (ms.foldl (fun t m =>
      let q := s.core m
      let x := t.core m
      if x.pos == .word && x.pc == q.pc && x.inst == q.inst && x.work == q.work then
        t.modCore m fun x => { x with stood := some x.pc }
      else t) t)
  | .fault f => .fault f
  | .refused x => .refused x

/-! ## The ranks of R238 -/

/-- Rank 2: the oldest pending deferred DATA_UE of the lowest member that has one; the members trap together, so those that
the same word has left pending in others are taken with it (R237). An idempotent task ends with it instead, with no replay
(R250). -/
def State.takeDue (s : State) (ms : List CoreId) : Option State :=
  ms.findSome? fun m => match (s.core m).due with
    | [] => none
    | (pc, blk, info) :: _ =>
      let t := ms.foldl (fun s m => s.modCore m fun q => { q with due := q.due.filter (·.1 != pc) }) s
      some (if (s.core m).idem then t.endWork m 0x13
        else s.orApply ms (t.takeTrap ms m .dataUe info pc blk false true))

/-- A halt that the host's debugger has asked for: the convoy stops as by HALT, and the record names the core (R410). -/
def State.debugHalt (s : State) (ms : List CoreId) : Option State :=
  match ms.find? fun m => (s.core m).debugReq with
  | none => none
  | some m =>
    let q := s.core m
    let s := ms.foldl (fun s m => s.modCore m fun q => { q with debug := true, debugReq := false }) s
    match q.work with
    | none => some s
    | some w => some (s.workEvent 4 m w 0 (s.ctxGen q) q.pc 0 0)

/-- One boundary of a core and its convoy: at most one event, in the order of R238. A header that stands next, and whose
page is not awaited, is entered first. -/
def State.coreStep (s : State) (c : CoreId) : Host.Outcome State Fault Refusal :=
  let ms := s.convoyOf c
  let l := ms.headD c
  let q := s.core l
  let group := s.groupOf l
  let ready := ms.all fun m => (s.core m).running
  match s.groupReq group, ready && !s.stands l, q.pos with
  | _, true, .header how => .next (s.enterHeader l how)
  | some _, _, _ => execPreemptHalt l s
  | none, _, pos =>
    if !ready then .next s
    else
      match s.takeDue ms with
      | some s => .next s
      | none =>
        if q.uiReady && ms.all fun m => (s.core m).sc.isNone then .next (s.uiEnter l)
        else
          match s.debugHalt ms with
          | some s => .next s
          | none =>
            if ms.any fun m => (s.core m).waitPage.isSome then .next s
            else
              match pos with
              | .header how => .next (s.enterHeader l how)
              | .word => if q.issuing then s.noteWait ms (s.coreWord l) else .next s

/-! ## Moves -/

/-- A step that would write a record waits while the backlog is full. -/
def State.unlessFull (s : State) (r : Host.Outcome State Fault Refusal) : Host.Outcome State Fault Refusal :=
  match r with
  | .next t => if backlogCap < t.backlog.length && s.backlog.length < t.backlog.length then .next s else .next t
  | .fault f => .fault f
  | .refused x => .refused x

/-- A line of a tile's L1 may leave: the last in order of replacement of a set that is full (R263, R310). -/
def Tile.l1Victim (x : Tile) (line : Nat) : Bool :=
  let mine := x.l1Order.filter fun l => (x.l1.find l).isSome && l1SetOf x.split l == l1SetOf x.split line
  decide (16 ≤ mine.length) && mine.getLast? == some line

/-- The host marks a region of the CXL device, while no context is resident: the capacity tier loses its lines (R399, log
76). -/
def State.markPersistent (s : State) (base n : Nat) : State :=
  let inside := fun (line : Nat) => decide (base ≤ 128 * line) && decide (128 * line < base + n)
  if !s.ctxs.isEmpty || base % 4096 != 0 || n % 4096 != 0 || n = 0 || storeOf base != .cxl || storeOf (base + n - 1) != .cxl then s
  else { s.l2DropAll (fun line _ => inside line) with
    persist := s.persist ++ [(base, n)], tier := s.tier.filter fun (l, _) => !inside l
    tierTags := s.tierTags.filter fun (l, _) => !inside l }

/-- One move. A move of a unit that the package does not have is a fault. -/
def State.doMove (s : State) (m : Move) : Host.Outcome State Fault Refusal :=
  match m with
  | .core c => if 512 ≤ c then .fault .noSuchUnit else s.unlessFull (s.coreStep c)
  | .ev i => s.unlessFull (exec i s)
  | .consume n => if 17 ≤ n then .fault .noSuchUnit else s.unlessFull (.next (s.consumeStream n))
  | .l1Evict tile line => if 128 ≤ tile then .fault .noSuchUnit else 
    s.unlessFull (.next (if (s.tile tile).l1Victim line then s.l1Expel tile line else s))
  | .ringSend c n path =>
    if 4 ≤ path then .fault .noSuchUnit
    else
      match s.opNamed c .rg n with
      | none => .next s
      | some o => s.unlessFull (.next (s.ringSend o path))
  | .ringRead c n beat =>
    match s.opNamed c .rg n with
    | none => .next s
    | some o => s.unlessFull (.next (s.ringRead o beat))
  | .engineBeat c tl n pick =>
    match s.opNamed c tl n with
    | none => .next s
    | some o => s.unlessFull (.next (s.opBeat o pick).1)
  | .fence c => s.unlessFull (.next (s.fenceMove c))
  | .tlbDrop c va => .next (s.modCore c fun q =>
      { q with utlb := q.utlb.filter fun t => !(decide (t.va ≤ va) && decide (va < t.va + t.size)) })
  | .tlb2Drop cl va => if 64 ≤ cl then .fault .noSuchUnit else .next (s.modCluster cl fun k =>
      { k with tlb := k.tlb.filter fun t => !(decide (t.va ≤ va) && decide (va < t.va + t.size)) })
  | .walkDrop d pa => if 4 ≤ d then .fault .noSuchUnit else .next (s.modDie d fun x =>
      { x with walks := x.walks.filter (·.pa != pa) })
  | .loadBeat c n k => s.unlessFull (.next (s.loadBeat c n k))
  | .early c va => s.unlessFull (.next (s.earlyRead c va))
  | .plan c l => .next (s.modCore c fun q => { q with defer := l })
  | .card pa fields => .next { s with cards := s.cards.set pa fields }
  | .persist base len => .next (s.markPersistent base len)

/-! ## The model's own schedule (log 2) -/

/-- A step that may be taken. -/
abbrev Choice := State → Host.Outcome State Fault Refusal

/-- What may come next when nothing else is asked for: each running core's boundary, and every event of the device whose
turn may have come. -/
def State.choices (s : State) : List Choice :=
  let withWork := s.cores.filter fun (_, q) => q.work.isSome
  let nodes := s.launches.flatMap fun l => if l.reported then [] else l.nodes.zipIdx.map fun (x, n) => (l, x, n)
  withWork.map (fun (c, _) => ((fun s => s.coreStep c) : Choice))
    ++ withWork.flatMap (fun (c, q) =>
      (q.loads.map fun l => (execLoadReturn c l.n : Choice)) ++ (q.stores.map fun p => (execStoreDrain c p.n : Choice))
        ++ (if q.fences.isEmpty then [] else ([fun s => .next (s.fenceMove c)] : List Choice))
        ++ (if q.sleep.isSome then ([execSleepWake c false] : List Choice) else [])
        ++ (if q.sc.isSome then ([execSiroccoWindowClose, execScOperationComplete c] : List Choice) else [])
        ++ (q.bars.flatMap fun (b, x) => if x.st == .arrived && (memLevel x.mem != 5 || s.ring.n ≤ 1) then
            ([execProbePass c b, execBarrierPhaseComplete c b] : List Choice) else [])
        ++ (if q.req.isSome then ([execPreemptHalt c] : List Choice) else [])
        ++ (match q.pre with
          | .draining => ([execDrainDone c] : List Choice)
          | .saving => ([execSaveDone c] : List Choice)
          | .free | .run => ([execWatchdogExpiry c] : List Choice)))
    ++ nodes.flatMap (fun (l, x, n) =>
      match x.st with
      | .ready => ([execReplayRelease l.ctx l.id.toNat n, execNodePlacement l.ctx l.id.toNat n,
                   execNearSpillOver l.ctx l.id.toNat n, execGangPlacement l.ctx l.id.toNat n] : List Choice)
      | .ending => ([execTaskCompletionReport l.ctx l.id.toNat n] : List Choice)
      | .waiting | .running | .done | .failed | .cancelled => [])
    ++ s.launches.flatMap (fun l => if l.persist.isSome && !l.reported then
        ([execPersistentStart l.ctx l.id.toNat, execTaskCompletionReport l.ctx l.id.toNat 0xFFFFFFFF] : List Choice) else [])
    ++ s.saved.map (fun r => (execContextRestoreDone r.ctx r.core r.core : Choice))
    ++ s.clusters.flatMap (fun (cl, k) =>
      (if k.offers.isEmpty && k.late.isEmpty then [] else ([execJobQueueAccept cl] : List Choice))
        ++ (k.merges.take 1).flatMap (fun x => (x.seats.take 1).map fun (c, _) => (execVpmrgMerge c x.b : Choice))
        ++ (if k.jobs.isEmpty then [] else ([execJobQueueDepart cl true, execJobQueueDepart cl false] : List Choice))
        ++ (if k.order.isEmpty then [] else (execMatrixOperationStart cl : Choice) ::
          k.order.flatMap fun op => ([execMatrixStepCommit cl op.id, execChainAdd cl op.id] : List Choice)))
    ++ s.ops.map (fun o => ((match o.kind with
      | .stream h => execStreamSlotFill o.core h
      | _ => execEngineOperationComplete o.core o.tl o.n) : Choice))
    ++ (if s.flight.isEmpty then [] else ([execUpdatePairArrival 0] : List Choice))
    ++ (s.sorters.filter fun (_, x) => !x.batch.isEmpty).map (fun (k, _) => (execSorterBatchClose k : Choice))
    ++ (distinct ((s.sorterPairs.filter fun p => s.applies p.region).map fun p => (p.ctx, p.addr / 128))).map (fun (ctx, line) =>
      (execUpdateApply ctx line : Choice))
    ++ (s.regions.filter fun (_, g) => decide (0 < g.flush)).map (fun (_, g) => (execUpdateApply g.ctx (g.base / 128) : Choice))
    ++ (if s.viewPend.isEmpty then [] else ([execViewSettle] : List Choice))
    ++ s.homeQ.flatMap (fun w => match w.cells with
      | [] => []
      | (a, _) :: _ => ([execL2Write w.home (a / 128), execTierWrite (a / 128)] : List Choice))
    ++ s.migrations.map (fun m => (execMigrationComplete m.ctx m.va : Choice))
    ++ s.ring.flags.map (fun p => (execOrderedFlagPerform p.pkg p.rctx ⟨p.path, p.seq⟩ p.dst (BitVec.ofNat 64 (ofLe p.data))
        (p.counts.getD []) : Choice))
    ++ (if s.ring.waiting.any (·.page.isNone) then ([fun s => .next s.ringRetry] : List Choice) else [])
    ++ (if s.msix != 0 then ([execMsiXInterrupt] : List Choice) else [])
    ++ (if s.ckpt.isSome then ([execCheckpointStreamEnd] : List Choice) else [])
    ++ ((List.range 17).filter fun n => decide (s.streamPos.get n 0 < s.tailOf n)).map
        fun n => ((fun s => .next (s.consumeStream n)) : Choice)

/-- What happens when the agenda is empty: the choices take turns. -/
def State.autoMove (s : State) : Host.Outcome State Fault Refusal :=
  let l := s.choices
  match l[s.tick % l.length]? with
  | none => .next s
  | some f => s.unlessFull (f s)

/-! ## Time (R191, R248, R381, R383, R395, log 3) -/

/-- The slots of a handle that a word takes before it goes on: the handle, whether it produces, and how many (R172, R178,
R202). -/
def slotsTaken (i : Instr) : Option (HReg × Bool × Nat) :=
  match i with
  | .hadvp c h => some (h, true, Ctl.slots c)
  | .hadvc c h => some (h, false, Ctl.slots c)
  | .hstat c _ h .destination => some (h, true, Ctl.slots c)
  | .hstat c _ h .source => some (h, false, Ctl.slots c)
  | .gth c _ h _ _ _ => some (h, true, Ctl.slots c)
  | .rsend c _ h _ => some (h, false, Ctl.slots c)
  | .rrecv c _ h _ => some (h, true, Ctl.slots c)
  | _ => none

/-- A core lacks the slots that a word takes. -/
def Core.lacksSlots (q : Core) (i : Instr) : Bool :=
  match slotsTaken i with
  | some (h, true, n) => (q.handle h).st == .ring && decide ((q.handle h).free < n)
  | some (h, false, n) => ((q.handle h).st == .ring || (q.handle h).st == .stream) && decide ((q.handle h).filled < n)
  | none => false

/-- The word before which a core waits waits for slots of a handle, its own or another member's of its convoy (R226, R395). -/
def State.slotWait (s : State) (c : CoreId) (q : Core) : Bool :=
  q.stood == some q.pc && match s.fetch c q.priv q.pc with
    | .word w => match decodeIn q.share w with
      | .ok i => (s.convoyOf c).any fun m => (s.core m).lacksSlots i
      | .error _ => false
    | .busy | .page _ | .trap _ => false

/-- A core has a request to memory on its way, which the cap may hold (R395). -/
def Core.requests (q : Core) : Bool :=
  (q.loads.any fun l => !l.lanes.isEmpty) || (q.stores.any fun p => !p.loc) || q.sc.isSome

/-- Event sources of a running core in `n` cycles, but for those that words count: of those that timing decides, at most how
many (R395). A convoy's fetch is gated by its leader's duty, in all but Floor(n·D / 16) cycles at most (R386). -/
def State.timedSources (s : State) (c : CoreId) (q : Core) (n : Nat) : List (Nat × Nat) :=
  let x := s.tile (tileOf c)
  let some' := fun (b : Bool) => if b then n else 0
  let duty := (s.core ((s.convoyOf c).headD c)).duty.toNat
  [(0x0004, n - n * duty / 16), (0x0006, min x.halve (n - (x.stretch - 1))),
   (0x0007, some' (x.offer.any fun (m, pc) => m == c && pc == q.pc)),
   (0x0014, some' ((s.cluster (clusterOf c)).reqCap != 256 && q.requests)), (0x0022, some' (s.slotWait c q))]

/-- A running core's cycles, event counters and watchdog count after `dt` ns. -/
def State.passCore (s : State) (dt : Nat) (c : CoreId) (q : Core) : Core :=
  if q.work.isSome && q.pre == .run && !q.debug && q.ended.isNone then
    let n := Config.cycles s.tick (tileOf c)
    let q := { q with cyc := q.cyc + n, wd := q.wd + dt }.countEvent 0x0001 n
    let q := q.countEvent 0x0005 (min n ((s.tile (tileOf c)).stretch - 1))
    (s.timedSources c q n).foldl (fun q (src, most) => q.countEvent src (Config.timed s.tick c src % (most + 1))) q
  else q

/-- A tile's bucket, and its stretched and halved cycles; the last of them ends with DROOP_HALVING_END. -/
def Tile.pass (x : Tile) (tick : Nat) (t : Nat) : Tile :=
  let n := Config.cycles tick t
  { x with bal := BitVec.ofNat 16 (min x.cap.toNat (x.bal.toNat + x.fill.toNat * n))
           stretch := x.stretch - n, halve := max (min 1 x.halve) (x.halve - (n - x.stretch)) }

/-- Time passes, and the device does what it does by itself, unless it would write records past a full backlog (R403). -/
def State.tickOver (s : State) : State :=
  let dt := Config.elapsed s.tick
  let s := { s with
    tick := s.tick + 1, now := s.now + dt
    cores := s.cores.mapVals fun c q => s.passCore dt c q
    tiles := s.tiles.mapVals fun t x => x.pass s.tick t }
  let t := s.settle
  (if backlogCap < t.backlog.length && s.backlog.length < t.backlog.length then s else t).stepTiles

/-- `State.withFetchWord`: context 0 with a page of code mapped at 0, and core 0 at the word behind its header. -/
def State.placeWord (s : State) (w : Word) : State :=
  let table := fun (m : Mem) (i : Nat) => m.write (4096 * i) (leBytes 8 (4096 * (i + 1) + 1))
  let mem := [1, 2, 3, 4].foldl table s.mem
  let mem := mem.write (4096 * 5) (leBytes 8 (2 ^ 63 + 2 ^ 55 + 4096 * 6 + 0x1F))
  let mem := mem.write (4096 * 6) (leBytes 8 0xFF01000000000000)
  let mem := mem.write (4096 * 6 + 8) (bytesOfWord w)
  let s := s.l2DropAll fun line _ => decide (32 ≤ line) && decide (line < 224)
  let old := (s.ctxs.find 0).getD
    { gen := 1, root := 0, vec := 0, wdLimit := 0, split := 4, save := 0, faultLog := 0, objTable := 0, wparts := 0,
      subsets := [] }
  let q := s.core 0
  let gr : Grants := { handles := 16, barriers := 128, lregs := 16, stack := 0, ovf := 0, shareBase := 0,
                       shareSize := 524288, outs := [], wouts := [] }
  { s with
    sorters := s.sorters.mapVals fun _ x => x.without (s.inBlockOf 192)
    mem := mem, ctxs := s.ctxs.set 0 { old with root := 4096, dying := false }, agenda := .core 0 :: s.agenda } |>.setCore 0
    { q with
      pc := 8, blk := 0, hdr := 0xFF01000000000000, pos := .word, share := 0, convoy := false, parked := false
      rejoin := none, debug := false, debugReq := false, sleep := none, req := none, due := [], ended := none
      waitPage := none, loads := [], fences := [], sc := none, paid := none, utlb := [], grants := gr, pre := .run
      work := some ⟨0, 0, none, false, false⟩, ui := { q.ui with en := 0 } }

end Sys2Proof.Machine
end

