-- ==== Sys2Proof/Machine/Step.lean ====
section
/-! DEFINITION. One step of the package: time passes, and the next move is made (log 2, 3). -/
namespace Sys2Proof.Machine
open Sys2Proof

/-- The first move of the agenda, or the model's own choice when it is empty. -/
def step (s : State) : Host.Outcome State Fault Refusal :=
  match s.agenda with
  | [] => s.tickOver.autoMove
  | m :: r => { s.tickOver with agenda := r }.doMove m

/-- The state with an instruction placed where the next step fetches (log 7). -/
def State.withFetchWord (s : State) (nbits w : Nat) : State := s.placeWord (BitVec.ofNat 64 (w % 2 ^ nbits))

end Sys2Proof.Machine
end

