-- ==== Sys2Proof/Safety.lean ====
section
/-! DEFINITION. The words in which claims are stated: when a word may issue, what its completion does to a core, and which
states are well kept. -/
namespace Sys2Proof.Machine
open Sys2Proof

/-! ## Words that may issue -/

/-- A core goes on behind a word that it has executed: the word is counted, and the program counter moves on (R51, R395). -/
def Core.passed (q : Core) (f : Fields) : Core := (q.counted f).advance

/-- A core stands at a word of its block and nothing holds it: no pending load or ordered operation writes a register that
the word names, no deferred trap is due, and the word passes checks 3 and 4 of R58 in the core's vector mode. -/
structure Core.Ready (q : Core) (f : Fields) : Prop where
  issuing : q.issuing = true
  settled : q.awaits f = false
  calm : q.due = []
  legal : checkMode q.share f = none

/-- The cores that run a word together, each ready for it; a long vector word is not paced (R383: a bucket whose CAP is 0,
or short mode). -/
structure State.Ready (s : State) (f : Fields) : Prop where
  each : ∀ m ∈ s.convoyOf s.cur, (s.core m).Ready f
  unpaced : ∀ m ∈ s.convoyOf s.cur, takesLong f.op.toNat = true → (s.core m).long = false ∨ (s.tile (tileOf m)).cap = 0

/-- A core outside a convoy, ready for a word whose guards hold, with its vector unit not paced. -/
structure State.Alone (s : State) (f : Fields) : Prop where
  ready : s.Ready f
  lone : (s.core s.cur).convoy = false
  guards : f.ctl.guards (s.core s.cur) = true

/-- The instruction's answer, for every core of the convoy at once: each core whose guards hold changes as `g` says, every
one of them goes on, and nothing else in the machine changes. -/
def State.EachDoes (s : State) (i : Instr) (f : Fields) (g : Core → Core) : Prop :=
  ∃ t, exec i s = .next t ∧ t = { s with cores := t.cores } ∧
    (∀ m ∈ s.convoyOf s.cur,
      t.core m = (if f.ctl.guards (s.core m) then g (s.core m) else s.core m).passed f) ∧
    ∀ c, c ∉ s.convoyOf s.cur → t.core c = s.core c

/-- The instruction runs so on every convoy that is ready for it. -/
def EachDoes (i : Instr) (g : Core → Core) : Prop :=
  ∀ (s : State) (f : Fields), i.fields = some f → s.Ready f → s.EachDoes i f g

/-- A core goes on behind a word, in a state that the word's effect has given. -/
def State.passed (s : State) (c : CoreId) (f : Fields) : State := s.modCore c fun q => q.passed f

/-- A word that has set where its core goes on is counted. -/
def State.counted (s : State) (c : CoreId) (f : Fields) : State := s.modCore c fun q => q.counted f

/-- A lone core completes the word: its effect gives `t`, and the core goes on behind it. -/
def State.Does (s : State) (i : Instr) (f : Fields) (t : State) : Prop :=
  exec i s = .next (t.passed s.cur f)

/-- A lone core completes a word that sets where it goes on. -/
def State.JumpsAs (s : State) (i : Instr) (f : Fields) (t : State) : Prop :=
  exec i s = .next (t.counted s.cur f)

/-- A core has nothing outstanding: no load, store, fence, sequentially consistent operation or deferred trap. -/
structure Core.Quiet (q : Core) : Prop where
  loads : q.loads = []
  stores : q.stores = []
  fences : q.fences = []
  sc : q.sc = none
  due : q.due = []

/-! ## Words that members take in turn (R226) -/

/-- Members take a word one after the other, from `s` to `t`: `act` relates the state in which a member's turn comes to the
one behind its effect; one whose guards do not hold changes nothing. What goes before leaves each member ready. -/
def State.Turns (f : Fields) (act : CoreId → State → State → Prop) : List CoreId → State → State → Prop
  | [], s, t => t = s
  | m :: ms, s, t => (s.core m).awaits f = false ∧ checkMode (s.core m).share f = none ∧
      ∃ u, (if f.ctl.guards (s.core m) = true then act m s u else u = s) ∧ State.Turns f act ms u t

/-- Every core of a convoy goes on behind a word, in a state that the word's effect has given. -/
def State.goOn (t : State) (ms : List CoreId) (f : Fields) : State :=
  ms.foldl (fun s m => s.modCore m Core.advance) (t.countIssue ms f)

/-- On every ready convoy, a lone core among them, whose members can take the word in turn as `act` says, it completes so,
and every member goes on. -/
def InTurns (i : Instr) (act : CoreId → State → State → Prop) : Prop :=
  ∀ (s t : State) (f : Fields), i.fields = some f → s.Ready f → State.Turns f act (s.convoyOf s.cur) s t →
    exec i s = .next (t.goOn (s.convoyOf s.cur) f)

/-- On every ready convoy whose members can arrive in turn as `act` says, one of them at least, the arrivals are made and every
member stands at the word until the phase completes (R121, R226). -/
def ArriveInTurns (i : Instr) (act : CoreId → State → State → Prop) : Prop :=
  ∀ (s t : State) (f : Fields), i.fields = some f → s.Ready f → State.Turns f act (s.convoyOf s.cur) s t →
    (∃ m ∈ s.convoyOf s.cur, f.ctl.guards (s.core m) = true) → exec i s = .next t

/-- On every ready convoy in which `bad` holds of a member, and the guards of those before it do not, the whole convoy takes
the trap in that member's name, at the word, before any effect but the walk of a faulting page (R234, R237, R306). -/
def FirstTraps (i : Instr) (cause : Cause) (bad : CoreId → State → Word → Prop) : Prop :=
  ∀ (s : State) (f : Fields) (a b : List CoreId) (m : CoreId) (info : Word), i.fields = some f → s.Ready f →
    s.convoyOf s.cur = a ++ m :: b → (∀ k ∈ a, f.ctl.guards (s.core k) = false) → f.ctl.guards (s.core m) = true → bad m s info →
    exec i s = .next ((s.faultWalk m cause info).preciseTrap (s.convoyOf s.cur) m cause info (s.core m).pc (s.core m).blk)

/-- On every ready convoy in which `held` holds of every member with its guards on, and there is one, the word waits: nothing
changes (R238). -/
def Waits (i : Instr) (held : CoreId → State → Prop) : Prop :=
  ∀ (s : State) (f : Fields), i.fields = some f → s.Ready f → (∃ m ∈ s.convoyOf s.cur, f.ctl.guards (s.core m) = true) →
    (∀ m ∈ s.convoyOf s.cur, f.ctl.guards (s.core m) = true → held m s) → exec i s = .next s

/-! ## Accesses to the scratchpad -/

/-- The byte that a load of a core reads at a local-memory offset: its own latest buffered store of it, or else the tile's
memory (R262, R264). -/
def State.localByte (s : State) (c : CoreId) (off : Nat) : Byte :=
  ((s.core c).forward (s.core c).issue true off).getD ((s.tile (tileOf c)).lm.get off)

/-- Every byte (i, a) of an access of core `m` lies at offset `off i` of its local memory, where no poison is; no
fence or sequentially consistent operation of the core is open, no load of it outstanding reads one of the bytes, and its
block may reach the stack if the access does (R57, R101, R110, R264, R303). -/
structure State.Local (s : State) (m : CoreId) (l : List (Nat × Word)) (off : Nat → Nat) : Prop where
  lies : ∀ x ∈ l, (s.core m).place x.2.toNat = some (.lm (off x.1))
  clean : ∀ x ∈ l, (s.tile (tileOf m)).poison.contains (off x.1 / 128) = false
  unfenced : (s.core m).fences = [] ∧ (s.core m).sc = none
  apart : ∀ o ∈ (s.core m).loads, ∀ x ∈ l, o.reads true (off x.1) = false
  spills : (headerOf (s.core m).hdr).noSpill = true → ∀ x ∈ l, inStack x.2 = false

/-- The bytes of a run from an address. -/
def bytesFrom (ea : Word) (n : Nat) : List (Nat × Word) := (List.range n).map fun i => (i, ea + BitVec.ofNat 64 i)

/-- A local store of a core enters its buffer, 32-byte beat by beat: nothing else changes (R100, R262). -/
def State.buffers (s : State) (m : CoreId) (cells : Mem) : State :=
  s.modCore m fun q =>
    (localBeats q.issue cells).foldl Core.addStore q

/-! ## Engine operations -/

/-- Core `m` has issued one more operation on a timeline: numbered I + 1 and outstanding, with what its core's
state at issue decides (R125, R154, R155). -/
def State.issued (s : State) (m : CoreId) (t : Timeline) (kind : OpKind) : State :=
  let q := s.core m
  let n := (q.tl t).issued + 1
  let s := s.setCore m (q.setTl t { q.tl t with issued := n })
  { s with ops := s.ops ++ [{ core := m, ctx := q.ctxNum, inst := q.inst, tl := t, n := n, kind := kind,
                              env := q.engEnv, issued := q.issue, rc := q.ringCore.getD m }] }

/-- No outstanding operation of the work on a core has a number that its timeline has not issued (R125). -/
def State.Numbered (s : State) (c : CoreId) : Prop :=
  ∀ o ∈ s.ops, o.core = c → o.inst = (s.core c).inst → o.n ≤ ((s.core c).tl o.tl).issued

/-- Core `m` has issued an operation: with `after` it has taken its place with its engine, and its tag, timeline code over
number, is in `d` (R154). -/
def State.tagged (s : State) (m : CoreId) (t : Timeline) (kind : OpKind) (d : SReg) (after : State → State) : State :=
  let n := ((s.core m).tl t).issued + 1
  (after (s.issued m t kind)).modCore m fun q => q.ws d (BitVec.ofNat 64 (t.code * 2 ^ 61 + n % 2 ^ 61))

/-- Core `m` has issued an operation of its copy unit: it is outstanding, queued, and stands last in the offers to its cluster's
job queue, with SC.YLD of the word or of the one before it as `yld` tells (R154, R158, R330). -/
def State.offered (s : State) (m : CoreId) (kind : OpKind) (d : SReg) (yld : Bool) : State :=
  let j : JobRef := ⟨m, (s.core m).inst, .cp, ((s.core m).tl .cp).issued + 1⟩
  s.tagged m .cp kind d fun u =>
    ({ u with ops := u.ops.dropLast ++ (u.ops.getLast?.map fun o => { o with queued := true }).toList } : State).offerJob m yld j

/-! ## Words that the leader resolves (R78, R226) -/

/-- The leader of the current convoy, or the lone core. -/
def State.leader (s : State) : CoreId := (s.convoyOf s.cur).headD s.cur

/-- A ready convoy at a word that its leader resolves, the leader's guards holding. -/
structure State.Led (s : State) (f : Fields) : Prop where
  ready : s.Ready f
  guards : f.ctl.guards (s.core s.leader) = true

/-- Every core of the convoy changes as `g` says and goes on; nothing else in the machine changes. -/
def State.AllDo (s : State) (i : Instr) (f : Fields) (g : Core → Core) : Prop :=
  ∃ t, exec i s = .next t ∧ t = { s with cores := t.cores } ∧
    (∀ m ∈ s.convoyOf s.cur, t.core m = (g (s.core m)).passed f) ∧
    ∀ c, c ∉ s.convoyOf s.cur → t.core c = s.core c

/-- A header that a transfer of the leader may enter stands at `t` (R52, R53). -/
def State.Enters (s : State) (t : Word) (kinds : Nat → Bool) : Prop :=
  t.toNat % 8 = 0 ∧ isGlobal t.toNat = true ∧ ∃ w, s.fetch s.leader (s.core s.leader).priv t = .word w ∧
    isHeader w = true ∧ (kinds (headerOf w).kind = true ∨ 5 ≤ (headerOf w).kind)

/-- Every core of the convoy stands before the header at `t`, its registers changed as `link` says; beside them only the
translation of the target has been used, which the leader's micro-TLB and the page's marks may show (R308). -/
def State.JumpsTo (s : State) (i : Instr) (f : Fields) (t : Word) (link : Core → Core) : Prop :=
  let x := s.fetchUse s.leader t
  ∃ u, exec i s = .next u ∧ u = { x with cores := u.cores } ∧
    (∀ m ∈ s.convoyOf s.cur,
      u.core m = ({ link (x.core m) with pc := t, pos := .header .jump } : Core).counted f) ∧
    ∀ c, c ∉ s.convoyOf s.cur → u.core c = x.core c

/-- The word traps precisely, in the leader's name, before any effect but the walk of a faulting page (R234, R306). -/
def State.TrapsAs (s : State) (i : Instr) (cause : Cause) (info : Word) : Prop :=
  exec i s = .next ((s.faultWalk s.leader cause info).preciseTrap (s.convoyOf s.cur) s.leader cause info
    (s.core s.leader).pc (s.core s.leader).blk)

/-! ## Well-kept states -/

/-- Every memory is in its canonical form. -/
def State.memWf (s : State) : Prop :=
  Memory.wf s.mem = true ∧ Memory.wf s.host = true ∧ Memory.wf s.wstack = true ∧ Memory.wf s.safeCxl = true ∧
    ∀ t, Memory.wf (s.tile t).lm = true

end Sys2Proof.Machine
end

