-- ==== Sys2Proof/Certificates/Slice0/Obligations.lean ====
section
/-! DEFINITION. The statements about the model, for the provers; OBLIGATIONS.json lists them. -/
open Sys2Proof Sys2Proof.Machine

/-- Results of the integer arithmetic, logic, shift and rotate words. ADD, SUB, MUL, MULH, MULHN, NEG, ABS, MIN, MAX, MINN
and MAXN complete on every ready convoy, each core whose guards hold writing to sD the value of R83 (s0 discards it),
going on behind the word, and changing no other register; no other core and no byte of memory changes. AND, OR, XOR,
ANDN, ORN, SHL, SHR, SAR, ROL, ROR, MOV, SEXT and ZEXT complete on every ready convoy with the results of R83 and R86
in sD; shift and rotate counts use only b[5:0]. Nothing but sD, the counts of the word and the program counter
changes. -/
def Obligations.IntegerAndLogicResults : Prop :=
  ((∀ c d a b, EachDoes (.add c d a b) fun q => q.ws d (a.val q + b.val q)) ∧
  (∀ c d a b, EachDoes (.sub c d a b) fun q => q.ws d (a.val q - b.val q)) ∧
  (∀ c d a b, EachDoes (.mul c d a b) fun q => q.ws d (a.val q * b.val q)) ∧
  (∀ c d a b, EachDoes (.mulh c d a b) fun q => q.ws d (BitVec.ofInt 64 ((a.val q).toInt * (b.val q).toInt / 2 ^ 64))) ∧
  (∀ c d a b, EachDoes (.mulhn c d a b) fun q => q.ws d (BitVec.ofNat 64 ((a.val q).toNat * (b.val q).toNat / 2 ^ 64))) ∧
  (∀ c d a, EachDoes (.neg c d a) fun q => q.ws d (0 - a.val q)) ∧
  (∀ c d a, EachDoes (.abs c d a) fun q => q.ws d (if (a.val q).toInt < 0 then 0 - a.val q else a.val q)) ∧
  (∀ c d a b, EachDoes (.min c d a b) fun q => q.ws d (if (b.val q).toInt < (a.val q).toInt then b.val q else a.val q)) ∧
  (∀ c d a b, EachDoes (.max c d a b) fun q => q.ws d (if (a.val q).toInt < (b.val q).toInt then b.val q else a.val q)) ∧
  (∀ c d a b, EachDoes (.minn c d a b) fun q => q.ws d (if (b.val q).toNat < (a.val q).toNat then b.val q else a.val q)) ∧
  (∀ c d a b, EachDoes (.maxn c d a b) fun q => q.ws d (if (a.val q).toNat < (b.val q).toNat then b.val q else a.val q))) ∧
  ((∀ c d a b, EachDoes (.and c d a b) fun q => q.ws d (a.val q &&& b.val q)) ∧
  (∀ c d a b, EachDoes (.or c d a b) fun q => q.ws d (a.val q ||| b.val q)) ∧
  (∀ c d a b, EachDoes (.xor c d a b) fun q => q.ws d (a.val q ^^^ b.val q)) ∧
  (∀ c d a b, EachDoes (.andn c d a b) fun q => q.ws d (a.val q &&& ~~~(b.val q))) ∧
  (∀ c d a b, EachDoes (.orn c d a b) fun q => q.ws d (a.val q ||| ~~~(b.val q))) ∧
  (∀ c d a b, EachDoes (.shl c d a b) fun q => q.ws d (a.val q <<< ((b.val q).toNat % 64))) ∧
  (∀ c d a b, EachDoes (.shr c d a b) fun q => q.ws d (a.val q >>> ((b.val q).toNat % 64))) ∧
  (∀ c d a b, EachDoes (.sar c d a b) fun q => q.ws d ((a.val q).sshiftRight ((b.val q).toNat % 64))) ∧
  (∀ c d a b, EachDoes (.rol c d a b) fun q => q.ws d ((a.val q).rotateLeft ((b.val q).toNat % 64))) ∧
  (∀ c d a b, EachDoes (.ror c d a b) fun q => q.ws d ((a.val q).rotateRight ((b.val q).toNat % 64))) ∧
  (∀ c d a, EachDoes (.mov c d a) fun q => q.ws d (a.val q)) ∧
  (∀ c d a, EachDoes (.sext c d a .w8) fun q => q.ws d (((a.val q).setWidth 8).signExtend 64)) ∧
  (∀ c d a, EachDoes (.sext c d a .w16) fun q => q.ws d (((a.val q).setWidth 16).signExtend 64)) ∧
  (∀ c d a, EachDoes (.sext c d a .w32) fun q => q.ws d (((a.val q).setWidth 32).signExtend 64)) ∧
  (∀ c d a, EachDoes (.zext c d a .w8) fun q => q.ws d (((a.val q).setWidth 8).setWidth 64)) ∧
  (∀ c d a, EachDoes (.zext c d a .w16) fun q => q.ws d (((a.val q).setWidth 16).setWidth 64)) ∧
  (∀ c d a, EachDoes (.zext c d a .w32) fun q => q.ws d (((a.val q).setWidth 32).setWidth 64)))

/-- DIV, DIVN, REM and REMN with their edge cases. DIV, DIVN, REM and REMN never trap: they complete on every ready
convoy. The quotient by zero is all ones and the remainder a; otherwise DIV truncates toward zero (the most negative
number by -1 gives itself, remainder 0), DIVN is the floor, and a remainder is a - b times the quotient. -/
def Obligations.DivisionResultsAndEdges : Prop :=
  (∀ c d a b, EachDoes (.div c d a b) fun q => q.ws d (if b.val q = 0 then -1 else if a.val q = BitVec.intMin 64 ∧ b.val q = -1 then BitVec.intMin 64 else
        BitVec.ofInt 64 ((a.val q).toInt.tdiv (b.val q).toInt))) ∧
  (∀ c d a b, EachDoes (.divn c d a b) fun q => q.ws d (if b.val q = 0 then -1 else BitVec.ofNat 64 ((a.val q).toNat / (b.val q).toNat))) ∧
  (∀ c d a b, EachDoes (.rem c d a b) fun q => q.ws d (if b.val q = 0 then a.val q else if a.val q = BitVec.intMin 64 ∧ b.val q = -1 then 0 else
        a.val q - b.val q * BitVec.ofInt 64 ((a.val q).toInt.tdiv (b.val q).toInt))) ∧
  (∀ c d a b, EachDoes (.remn c d a b) fun q => q.ws d (if b.val q = 0 then a.val q else a.val q - b.val q * BitVec.ofNat 64 ((a.val q).toNat / (b.val q).toNat)))

/-- CLZ, CTZ, POPC and BREV by what they count, BEXT, BINS, SEL, LIMM and ADDR. CLZ, CTZ, POPC and BREV complete on every
ready convoy; the word they leave in sD is the number of leading zeros, of trailing zeros, of one bits (each 0 to 64),
and the bit reversal, said of the bits of a: below a counted prefix every bit is 0 and the next one is 1. BEXT and
BINS take the field of n = min(len[6:0], 64) bits at p = pos[5:0], cut at bit 63; SEL chooses by a predicate; LIMM
writes one part of sD and keeps the others; ADDR adds the index shifted by sc. Each completes on every ready convoy
and changes sD alone. -/
def Obligations.BitWordsAndMoves : Prop :=
  ((∀ c d a, ∃ n : Word → Nat, EachDoes (.clz c d a) (fun q => q.ws d (BitVec.ofNat 64 (n (a.val q)))) ∧
      ∀ x : Word, n x ≤ 64 ∧ (∀ k, k < n x → x.getLsbD (63 - k) = false) ∧ (n x < 64 → x.getLsbD (63 - n x) = true)) ∧
  (∀ c d a, ∃ n : Word → Nat, EachDoes (.ctz c d a) (fun q => q.ws d (BitVec.ofNat 64 (n (a.val q)))) ∧
      ∀ x : Word, n x ≤ 64 ∧ (∀ k, k < n x → x.getLsbD k = false) ∧ (n x < 64 → x.getLsbD (n x) = true)) ∧
  (∀ c d a, EachDoes (.popc c d a) fun q =>
      q.ws d (BitVec.ofNat 64 ((List.range 64).countP fun k => (a.val q).getLsbD k))) ∧
  (∀ c d a, ∃ r : Word → Word, EachDoes (.brev c d a) (fun q => q.ws d (r (a.val q))) ∧
      ∀ (x : Word) k, k < 64 → (r x).getLsbD k = x.getLsbD (63 - k))) ∧
  ((∀ c d a pos len, EachDoes (.bext c d a pos len) fun q =>
      let p := (pos.val q).toNat % 64
      let n := min (min ((len.val q).toNat % 128) 64) (64 - p)
      q.ws d ((a.val q >>> p) &&& BitVec.ofNat 64 (2 ^ n - 1))) ∧
  (∀ c d a pos len, EachDoes (.bins c d a pos len) fun q =>
      let p := (pos.val q).toNat % 64
      let n := min (min ((len.val q).toNat % 128) 64) (64 - p)
      let m := BitVec.ofNat 64 (2 ^ n - 1)
      q.ws d ((q.rs d &&& ~~~(m <<< p)) ||| ((a.val q &&& m) <<< p))) ∧
  (∀ c d p a b, EachDoes (.sel c d p a b) fun q => q.ws d (if q.rp p then a.val q else b.val q)) ∧
  (∀ c d imm, EachDoes (.limm c d .lo imm) fun q => q.ws d (imm.signExtend 64)) ∧
  (∀ c d imm, EachDoes (.limm c d .mid imm) fun q =>
      q.ws d ((q.rs d).extractLsb' 48 16 ++ imm ++ (q.rs d).extractLsb' 0 24)) ∧
  (∀ c d imm, EachDoes (.limm c d .top imm) fun q => q.ws d (imm.setWidth 16 ++ (q.rs d).extractLsb' 0 48)) ∧
  (∀ c d base index sc, EachDoes (.addr c d base index sc) fun q => q.ws d (base.val q + (index.val q <<< sc.toNat))))

/-- CMP, FCMP and the predicate words. CMP and FCMP write the predicate of their condition; PAND, POR, PXOR, PNOT work on
bit 0 of their sources; PSET writes the predicates that its mask names; PGET reads all of them with p0 as 1. A write
to p0 is discarded. Each completes on every ready convoy. -/
def Obligations.ComparisonsWritePredicates : Prop :=
  (∀ c d cond a b, EachDoes (.cmp c d cond a b) fun q => q.wp d (match cond with
      | .eq => decide (a.val q = b.val q)
      | .ne => decide (a.val q ≠ b.val q)
      | .lt => decide ((a.val q).toInt < (b.val q).toInt)
      | .le => decide ((a.val q).toInt ≤ (b.val q).toInt)
      | .gt => decide ((b.val q).toInt < (a.val q).toInt)
      | .ge => decide ((b.val q).toInt ≤ (a.val q).toInt)
      | .ltn => decide ((a.val q).toNat < (b.val q).toNat)
      | .len => decide ((a.val q).toNat ≤ (b.val q).toNat))) ∧
  (∀ c d cond a b t, EachDoes (.fcmp c d cond a b t) fun q => q.wp d (cond.holds ((fval q t a).cmp (fval q t b)))) ∧
  (∀ c d a b, EachDoes (.pand c d a b) fun q => q.wp d (a.bit q && b.bit q)) ∧
  (∀ c d a b, EachDoes (.por c d a b) fun q => q.wp d (a.bit q || b.bit q)) ∧
  (∀ c d a b, EachDoes (.pxor c d a b) fun q => q.wp d (xor (a.bit q) (b.bit q))) ∧
  (∀ c d a, EachDoes (.pnot c d a) fun q => q.wp d (!a.bit q)) ∧
  (∀ c a m, ∃ g : Core → Byte, EachDoes (.pset c a m) (fun q => { q with p := g q }) ∧
      ∀ q k, k < 8 → (g q).getLsbD k = if k ≠ 0 ∧ (m.val q).getLsbD k then (a.val q).getLsbD k else q.p.getLsbD k) ∧
  (∀ c d, ∃ g : Core → Word, EachDoes (.pget c d) (fun q => q.ws d (g q)) ∧
      ∀ q k, k < 64 → (g q).getLsbD k = (decide (k = 0) || (decide (k < 8) && q.p.getLsbD k)))

/-- Results of the scalar float words. FADD, FSUB, FMUL and FFMA give the exact result rounded once to the format; FMIN
and FMAX order -0 below +0 and give the other source beside a lone NaN; FABS and FNEG change only the sign bit; FRND
rounds to an integral value; FCVT rounds, or truncates and saturates to an integer. Each completes. -/
def Obligations.ScalarFloatResults : Prop :=
  (∀ c d a b t, EachDoes (.fadd c d a b t) fun q => q.ws d (fres t ((fval q t a).add (fval q t b)))) ∧
  (∀ c d a b t, EachDoes (.fsub c d a b t) fun q => q.ws d (fres t ((fval q t a).add (fval q t b).neg))) ∧
  (∀ c d a b t, EachDoes (.fmul c d a b t) fun q => q.ws d (fres t ((fval q t a).mul (fval q t b)))) ∧
  (∀ c d a b e t, EachDoes (.ffma c d a b e t) fun q =>
      q.ws d (fres t (((fval q t a).mul (fval q t b)).add (fval q t e)))) ∧
  (∀ c d a b t, EachDoes (.fmin c d a b t) fun q =>
      q.ws d (BitVec.ofNat 64 ((FTypeFmt t).minMax false (fbits q t a) (fbits q t b)))) ∧
  (∀ c d a b t, EachDoes (.fmax c d a b t) fun q =>
      q.ws d (BitVec.ofNat 64 ((FTypeFmt t).minMax true (fbits q t a) (fbits q t b)))) ∧
  (∀ c d a, EachDoes (.fabs c d a .fp32) fun q => q.ws d ((a.val q).setWidth 31 |>.setWidth 64)) ∧
  (∀ c d a, EachDoes (.fabs c d a .bf16) fun q => q.ws d ((a.val q).setWidth 15 |>.setWidth 64)) ∧
  (∀ c d a, EachDoes (.fneg c d a .fp32) fun q => q.ws d ((a.val q).setWidth 32 ^^^ 0x80000000#32 |>.setWidth 64)) ∧
  (∀ c d a, EachDoes (.fneg c d a .bf16) fun q => q.ws d ((a.val q).setWidth 16 ^^^ 0x8000#16 |>.setWidth 64)) ∧
  (∀ c d a mode t, EachDoes (.frnd c d a mode t) fun q => q.ws d (fres t ((fval q t a).round mode))) ∧
  (∀ c d a dst src, EachDoes (.fcvt c d a dst src) fun q => q.ws d (cvtResult dst (cvtSource src (a.val q))))

/-- Taken transfers put the whole convoy before the target header. BR, a BRC whose condition holds, BRX, CALL, CALLX, RET
and a LOOP that still counts complete on every convoy whose leader may enter the target: every core stands before the
header, the calls have left the fall-through address in every core's link register and LOOP the leader's decremented
counter. -/
def Obligations.TransfersEnterTheirTarget : Prop :=
  ∀ (s : State) (f : Fields), s.Led f → let q := s.core s.leader
    let rel := fun (off : BitVec 24) => q.pc + 8 * off.signExtend 64
    (∀ c off, Instr.fields (.br c off) = some f → s.Enters (rel off) kindNormal → s.JumpsTo (.br c off) f (rel off) id) ∧
    (∀ c a cond off, Instr.fields (.brc c a cond off) = some f → cond.holds (a.val q) = true →
      s.Enters (rel off) kindNormal → s.JumpsTo (.brc c a cond off) f (rel off) id) ∧
    (∀ c a, Instr.fields (.brx c a) = some f → s.Enters (q.rs a) kindNormal → s.JumpsTo (.brx c a) f (q.rs a) id) ∧
    (∀ c d off, Instr.fields (.call c d off) = some f → s.Enters (rel off) kindNormal →
      s.JumpsTo (.call c d off) f (rel off) fun x => x.ws d q.fallthrough) ∧
    (∀ c d a, Instr.fields (.callx c d a) = some f → s.Enters (q.rs a) kindNormal →
      s.JumpsTo (.callx c d a) f (q.rs a) fun x => x.ws d q.fallthrough) ∧
    (∀ c a, Instr.fields (.ret c a) = some f → s.Enters (q.rs a) kindNormal → s.JumpsTo (.ret c a) f (q.rs a) id) ∧
    (∀ c a off, Instr.fields (.loop c a off) = some f → q.rs a ≠ 0 → q.rs a ≠ 1 → s.Enters (rel off) kindLoop →
      s.JumpsTo (.loop c a off) f (rel off) fun x => x.ws a (q.rs a - 1))

/-- Untaken transfers, NOP, SLEEP, YIELD and HALT. A BRC whose condition does not hold changes nothing but the program
counter; a LOOP at zero leaves the counter at zero, a LOOP at one leaves it at zero, and both go on behind the word,
in every core of the convoy with the leader's counter. NOP has no effect but its issue slot. SLEEP puts every core of
the convoy to sleep with the leader's timeout and sets the program counter behind the word. YIELD is a NOP unless a
READY node of higher priority could take the core, which requests a pre-emption. HALT stops every core behind the word
and reports the leader, its context generation and the address of the HALT word. -/
def Obligations.WordsThatGoOn : Prop :=
  (∀ (s : State) (f : Fields), s.Led f → let q := s.core s.leader
    (∀ c a cond off, Instr.fields (.brc c a cond off) = some f → cond.holds (a.val q) = false →
      s.AllDo (.brc c a cond off) f id) ∧
    (∀ c a off, Instr.fields (.loop c a off) = some f → q.rs a = 0 → s.AllDo (.loop c a off) f id) ∧
    (∀ c a off, Instr.fields (.loop c a off) = some f → q.rs a = 1 → s.AllDo (.loop c a off) f fun x => x.ws a 0)) ∧
  ((∀ c, EachDoes (.nop c) id) ∧
  ∀ (s : State) (f : Fields), s.Led f → let q := s.core s.leader
    (∀ c d t, Instr.fields (.sleep c d t) = some f →
      s.AllDo (.sleep c d t) f fun x => { x with sleep := some ⟨d, s.now, t.val q⟩ }) ∧
    (∀ c, Instr.fields (.yield c) = some f → s.yieldsTo s.leader = false → s.AllDo (.yield c) f id) ∧
    (∀ c, Instr.fields (.yield c) = some f → s.yieldsTo s.leader = true → ∃ t, exec (.yield c) s = .next t ∧
      ∀ m ∈ s.membersOf s.leader, (t.core m).req = if (s.core m).req.isSome then (s.core m).req else some (.preempt 6)) ∧
    (∀ c w, Instr.fields (.halt c) = some f → q.work = some w → ∃ x : State, x = { s with cores := x.cores } ∧
      (∀ m ∈ s.convoyOf s.cur, x.core m = { (s.core m).advance with debug := true }) ∧
      (∀ m, m ∉ s.convoyOf s.cur → x.core m = s.core m) ∧
      exec (.halt c) s =
        .next ((x.workEvent 4 s.leader w 0 (s.ctxGen q) q.pc 0 0).countIssue (s.convoyOf s.cur) f)))

/-- A transfer to a misaligned, local or headerless target raises BAD_TARGET. A BR, BRX, CALL, CALLX, RET, a BRC whose
condition holds or a counting LOOP whose target is not a multiple of 8, lies outside the global window, or holds a
word that is no header of the kind it needs, takes BAD_TARGET with TRAP_INFO the target and TRAP_PC the branch: it
writes no link and changes no counter. -/
def Obligations.BadTargetsTrapBeforeAnyEffect : Prop :=
  ∀ (s : State) (f : Fields), s.Led f → let q := s.core s.leader
    let rel := fun (off : BitVec 24) => q.pc + 8 * off.signExtend 64
    let bad := fun (t : Word) (kinds : Nat → Bool) => t.toNat % 8 ≠ 0 ∨ isGlobal t.toNat = false ∨
      ∃ w, s.fetch s.leader q.priv t = .word w ∧
        (isHeader w = false ∨ ((headerOf w).kind < 5 ∧ kinds (headerOf w).kind = false))
    (∀ c off, Instr.fields (.br c off) = some f → bad (rel off) kindNormal → s.TrapsAs (.br c off) .badTarget (rel off)) ∧
    (∀ c a cond off, Instr.fields (.brc c a cond off) = some f → cond.holds (a.val q) = true → bad (rel off) kindNormal →
      s.TrapsAs (.brc c a cond off) .badTarget (rel off)) ∧
    (∀ c a, Instr.fields (.brx c a) = some f → bad (q.rs a) kindNormal → s.TrapsAs (.brx c a) .badTarget (q.rs a)) ∧
    (∀ c d off, Instr.fields (.call c d off) = some f → bad (rel off) kindNormal →
      s.TrapsAs (.call c d off) .badTarget (rel off)) ∧
    (∀ c d a, Instr.fields (.callx c d a) = some f → bad (q.rs a) kindNormal →
      s.TrapsAs (.callx c d a) .badTarget (q.rs a)) ∧
    (∀ c a, Instr.fields (.ret c a) = some f → bad (q.rs a) kindNormal → s.TrapsAs (.ret c a) .badTarget (q.rs a)) ∧
    (∀ c a off, Instr.fields (.loop c a off) = some f → q.rs a ≠ 0 → q.rs a ≠ 1 → bad (rel off) kindLoop →
      s.TrapsAs (.loop c a off) .badTarget (rel off))

/-- A header opens its block, traps, or dissolves or re-forms a convoy. Time having passed, a step whose next move is the
boundary of a core that stands before a header, its convoy running, enters it in no issue slot, with the header's word
used: every member stands at the first word of the block that the header opens. A word that is no header traps
ILLEGAL_OP 0x03 with the block just left, one with a bad field 0x04 with itself as its block, and a header met among
the words of a block 0x02. A branch of a convoy to a header without the uniform flag dissolves it, each member with
the reconvergence target RCV names, or none for 0; a target that is no header is BAD_TARGET at the header. A member
that reaches its target waits there, and with the last member of the cluster whose task has not ended they form the
convoy again (that its lowest-numbered member then leads where the former leader has ended is the model's choice, log
82). Past a word stands the next one, or after the last the fall-through header. -/
def Obligations.BlockHeadersAreEntered : Prop :=
  (∀ q : Core, let next := q.blk + 8 * (BitVec.ofNat 64 (headerOf q.hdr).len + 1)
    q.advance.pc = q.pc + 8 ∧ (q.pc + 8 = next → q.advance.pos = .header .fall) ∧ (q.pc + 8 ≠ next → q.advance.pos = q.pos)) ∧
  ∀ (s : State) (r : List Move) (c : CoreId), s.agenda = .core c :: r → c < 512 →
    let u : State := { s.tickOver with agenda := r }
    let ms := u.convoyOf c
    let l := ms.headD c
    let q := u.core l
    let h := q.pc
    ∀ w, u.fetch l q.priv h = .word w → (∀ m ∈ ms, (u.core m).running = true) →
    let v := u.fetchUse l h
    let x := headerOf w
    let steps := fun (t : State) => step s = u.unlessFull (.next t)
    (q.pos = .word → isHeader w = true → u.groupReq (u.groupOf l) = none → q.uiReady = false →
      (∀ m ∈ ms, (u.core m).due = [] ∧ (u.core m).debugReq = false ∧ (u.core m).waitPage = none) →
      step s = u.unlessFull (u.noteWait ms (.next (({ v with cur := l } : State).preciseTrap ms l .illegalOp 0xFF02 h q.blk)))) ∧
    ∀ how, q.pos = .header how → u.stands l = false →
    let opens := fun (g : Core → Core) => ∃ t, steps t ∧ t = { v with cores := t.cores } ∧
      (∀ m ∈ ms, t.core m = { g (v.core m) with blk := (v.core m).pc, hdr := w, pc := (v.core m).pc + 8, pos := .word }) ∧
      ∀ m, m ∉ ms → t.core m = v.core m
    let bad := x.len = 0 ∨ 5 ≤ x.kind ∨ 4 ≤ x.flags.toNat
    (isHeader w = false → steps (v.preciseTrap ms l .illegalOp 0xFF03 h q.blk)) ∧
    (isHeader w = true → bad → steps (v.preciseTrap ms l .illegalOp 0x0704 h h)) ∧
    (isHeader w = true → ¬ bad →
      (q.convoy = false → q.rejoin ≠ some h → opens id) ∧
      (q.convoy = true → (how ≠ .jump ∨ x.flags.getLsbD 0 = true) → opens id) ∧
      (q.convoy = true → how = .jump → x.flags.getLsbD 0 = false →
        (x.rcv = 0 → opens fun k => { k with convoy := false, rejoin := none }) ∧
        (x.rcv ≠ 0 → let t := h + BitVec.ofInt 64 (8 * x.rcv)
          ∀ y, v.fetch l q.priv t = .word y →
            (isHeader y = true → opens fun k => { k with convoy := false, rejoin := some t }) ∧
            (isHeader y = false → steps (v.preciseTrap ms l .badTarget t h h)))) ∧
      (q.convoy = false → q.rejoin = some h →
        let mine := (clusterCores (clusterOf l)).filter fun m => (v.core m).work.isSome && (v.core m).ended.isNone
        ∃ t, steps t ∧ t = { v with cores := t.cores } ∧ (t.core l).pc = h ∧ (t.core l).pos = .header .handler ∧
          ((∀ m ∈ mine, m ≠ l → (v.core m).parked = true) → ∀ m ∈ mine, (t.core m).convoy = true ∧ (t.core m).parked = false ∧
            (t.core m).rejoin = none ∧ (t.core m).pc = (v.core m).pc) ∧
          ((∃ m ∈ mine, m ≠ l ∧ (v.core m).parked = false) → (t.core l).parked = true ∧ (t.core l).convoy = false) ∧
          ∀ m, m ∉ mine → t.core m = v.core m))

/-- Taking a trap writes the trap registers of every member and enters the vector, or ends the work. Outside a handler,
with a vector that is the address of an executable header of KIND 2, every trapping member together takes the cause,
the information, the trapping word and its block into its trap registers, with the privilege and convoy bits it had,
the completion bit, and the trapping member's number or 0xFF, becomes supervisor and handler code, and stands before
the vector; nothing else changes. With no vector, or one that is unusable, the trap registers are written so and the
work ends, its record flagged as vector-failed for the latter; inside a handler the trap registers keep the first
trap's values and the work ends, its record flagged as nested and followed by one with the first trap's. Work that
ends so leaves its cores, all of a gang, with nothing of it, and its node is FAILED with TRAPPED, or its core ended
for its persistent program. -/
def Obligations.TrapsAreTakenByEveryMember : Prop :=
  (∀ (s : State) (ms : List CoreId) (member : CoreId) (cause : Cause) (info pc blk : Word) (compl deferred : Bool),
    ms ≠ [] → ms.Nodup → let first := ms.headD 0
    let v := s.vector (s.core first)
    let usable := ∃ w, s.fetch first true v = .word w ∧ isHeader w = true ∧ (headerOf w).kind = 2
    let took := fun (q : Core) => ({ q with
      deferredTrap := deferred
      trap := { cause := cause.code, pc := pc, info := info, blk := blk
                status := BitVec.ofNat 64 ((if q.priv then 1 else 0) + (if q.convoy then 2 else 0) +
                  (if compl then 4 else 0) + 256 * (if q.convoy then member % 8 else 255)) } } : Core)
    let r := ms.foldl (fun s m => s.modCore m took) s
    let t := s.takeTrap ms member cause info pc blk compl deferred
    ((s.core first).inHandler = false → v ≠ 0 → usable →
      t = { s with cores := t.cores } ∧
      (∀ m ∈ ms, t.core m = { took (s.core m) with
        priv := true, inHandler := true, pc := v, pos := .header .handler, waitPage := none }) ∧
      ∀ c, c ∉ ms → t.core c = s.core c) ∧
    ((s.core first).inHandler = false → v = 0 → t = r.endTraps ms false false cause.code pc info) ∧
    ((s.core first).inHandler = false → v ≠ 0 → ¬ usable → s.fetch first true v ≠ .busy →
      t = r.endTraps ms false true cause.code pc info) ∧
    ((s.core first).inHandler = true → t = s.endTraps ms true false cause.code pc info)) ∧
  ∀ (s : State) (c : CoreId) (w : WorkRef) (ms : List CoreId), (s.core c).work = some w → ms.headD 0 = c → ms ≠ [] →
    (w.gang = true ∨ ms = [c]) → let q := s.core c
    (∀ (nested vfail : Bool) (cause pc info : Word),
      let e := s.workEvent 1 c w ((if nested then 1 else 0) + (if vfail then 2 else 0)) cause pc info q.trap.status
      let e := if nested then e.workEvent 6 c w 1 q.trap.cause q.trap.pc q.trap.info q.trap.status else e
      s.endTraps ms nested vfail cause pc info = e.endWork c 0x42) ∧
    ((∀ m ∈ s.membersOf c, (s.core m).req ≠ some .kill) → let t := s.endWork c 0x42
      (∀ m ∈ s.membersOf c, (t.core m).work = none ∧ (t.core m).stores = [] ∧ (t.core m).loads = [] ∧ (t.core m).upd = []) ∧
      (∀ n x, w.node = some n → s.node? w.ctx w.launch n = some x → ∃ l ∈ t.launches, l.ctx = w.ctx ∧ l.id = w.launch ∧
        ∃ y, l.nodes[n]? = some y ∧ y.st = .failed ∧ y.status = 0x42) ∧
      ∀ l, w.node = none → s.launch? w.ctx w.launch = some l → ∃ k ∈ t.launches, k.ctx = w.ctx ∧ k.id = w.launch ∧ c ∈ k.ended)

/-- TRAP takes SW_TRAP; a supervisor word at user privilege takes PRIV_OP. TRAP on a core with nothing outstanding,
outside a handler and with a usable vector, leaves cause 0x15, its immediate as information and its own address in the
trap registers, and the core, now supervisor, before the vector. ERET, TLBI and the writes of supervisor control
registers trap with PRIV_OP, cause 0x03 and information 0, at user privilege. -/
def Obligations.TrapWordsAndSupervisorWords : Prop :=
  ∀ (s : State) (f : Fields), s.Alone f → let q := s.core s.cur 
    (∀ c imm, Instr.fields (.trap c imm) = some f → s.TrapsAs (.trap c imm) .swTrap (imm.setWidth 64) ∧
      (q.Quiet → q.inHandler = false → s.vector q ≠ 0 →
        (∃ w, s.fetch s.cur true (s.vector q) = .word w ∧ isHeader w = true ∧ (headerOf w).kind = 2) →
        ∃ t, exec (.trap c imm) s = .next t ∧ (t.core s.cur).pc = s.vector q ∧ (t.core s.cur).priv = true ∧
          (t.core s.cur).inHandler = true ∧ (t.core s.cur).trap.cause = 0x15 ∧
          (t.core s.cur).trap.info = imm.setWidth 64 ∧ (t.core s.cur).trap.pc = q.pc ∧ (t.core s.cur).trap.blk = q.blk ∧
          t = { s with cores := t.cores } ∧ ∀ c, c ≠ s.cur → t.core c = s.core c)) ∧
    (q.priv = false →
      (∀ c mode, Instr.fields (.eret c mode) = some f → s.TrapsAs (.eret c mode) .privOp 0) ∧
      (∀ c mode a r, Instr.fields (.tlbi c mode a r) = some f → s.TrapsAs (.tlbi c mode a r) .privOp 0) ∧
      (∀ c a cr, Instr.fields (.crw c a cr) = some f → cr.supervisor = true → s.TrapsAs (.crw c a cr) .privOp 0) ∧
      (∀ c d a cr, Instr.fields (.crset c d a cr) = some f → cr.supervisor = true →
        s.TrapsAs (.crset c d a cr) .privOp 0) ∧
      ∀ c d a cr, Instr.fields (.crclr c d a cr) = some f → cr.supervisor = true →
        s.TrapsAs (.crclr c d a cr) .privOp 0)

/-- ERET and UIRET resume the interrupted block, or trap. ERET at supervisor privilege on a lone core restores PRIV from
TRAP_STATUS, leaves the handler, and resumes the block at TRAP_BLK: retry at TRAP_PC, next behind it, or before the
fall-through header when TRAP_PC is the block's last word. With PCONV set a whole convoy does so together, each member
with the PRIV of its own TRAP_STATUS, and stays a convoy. ERET traps BAD_TARGET where TRAP_BLK holds no header,
TRAP_PC is outside the block, or retry meets a completion-time trap. From a deferred trap ERET in either mode ends the
work with TRAPPED, on a lone core or once for a whole convoy. UIRET restores s56 to s63 and resumes at UI_PC; with UIH
clear it traps UI_STATE. That UIRET leaves PRIV as it is, and that it comes back before the header, as by fall-
through, where UI_PC is UI_BLK, is the model's choice (log 45). -/
def Obligations.HandlersReturn : Prop :=
  (∀ (s : State) (f : Fields), s.Alone f → let q := s.core s.cur
    (∀ c mode w, Instr.fields (.eret c mode) = some f → q.priv = true → q.deferredTrap = false →
      s.fetch s.cur true q.trap.blk = .word w →
      let pc := q.trap.pc
      let last := q.trap.blk + BitVec.ofNat 64 (8 * (headerOf w).len)
      let inside := isHeader w = true ∧ pc.toNat % 8 = 0 ∧ q.trap.blk.toNat + 8 ≤ pc.toNat ∧ pc.toNat ≤ last.toNat
      (inside → (mode = .retry → q.trap.status.getLsbD 2 = false) → q.trap.status.getLsbD 1 = false →
        s.JumpsAs (.eret c mode) f ((s.fetchUse s.cur q.trap.blk).modCore s.cur fun y =>
          { y with
            priv := q.trap.status.getLsbD 0, inHandler := false, blk := q.trap.blk, hdr := w, convoy := false
            pc := if mode = .retry then pc else pc + 8
            pos := if mode = .next ∧ pc = last then .header .fall else .word })) ∧
      (¬ inside → s.TrapsAs (.eret c mode) .badTarget pc) ∧
      (mode = .retry → q.trap.status.getLsbD 2 = true → s.TrapsAs (.eret c mode) .badTarget pc)) ∧
    (∀ c mode, Instr.fields (.eret c mode) = some f → q.priv = true → q.deferredTrap = true →
      s.JumpsAs (.eret c mode) f (s.endTraps [s.cur] false false q.trap.cause q.trap.pc q.trap.info)) ∧
    (∀ c w, Instr.fields (.uiret c) = some f → q.uih = true → s.fetch s.cur q.priv q.ui.blk = .word w →
      isHeader w = true → q.ui.pc.toNat % 8 = 0 → q.ui.blk.toNat + 8 ≤ q.ui.pc.toNat →
      q.ui.pc.toNat ≤ q.ui.blk.toNat + 8 * (headerOf w).len →
      ∃ t, exec (.uiret c) s = .next t ∧ let y := t.core s.cur
        y.uih = false ∧ y.pc = q.ui.pc ∧ y.blk = q.ui.blk ∧ y.hdr = w ∧ y.pos = .word ∧ y.priv = q.priv ∧
        (∀ r : SReg, y.rs r = if 56 ≤ r.toNat then q.shadow.get (r.toNat - 56) 0 else q.rs r) ∧
        t.mem = (s.fetchUse s.cur q.ui.blk).mem ∧ t.tiles = s.tiles) ∧
    (∀ c w, Instr.fields (.uiret c) = some f → q.uih = true → s.fetch s.cur q.priv q.ui.blk = .word w →
      q.ui.pc = q.ui.blk → ∃ t, exec (.uiret c) s = .next t ∧ (t.core s.cur).uih = false ∧
        (t.core s.cur).pc = q.ui.pc ∧ (t.core s.cur).pos = .header .fall) ∧
    (∀ c, Instr.fields (.uiret c) = some f → q.uih = false → s.TrapsAs (.uiret c) .uiState 0)) ∧
  (∀ (s : State) (f : Fields) c mode a m, s.Ready f → Instr.fields (.eret c mode) = some f → s.convoyOf s.cur = a ++ [m] →
    (∀ k ∈ s.convoyOf s.cur, f.ctl.guards (s.core k) = true ∧ (s.core k).convoy = true ∧ (s.core k).priv = true ∧
      (s.core k).deferredTrap = true) →
    let x := (s.core m).trap
    exec (.eret c mode) s = .next ((s.endTraps (s.convoyOf s.cur) false false x.cause x.pc x.info).countIssue
      (s.convoyOf s.cur) f)) ∧
  -- ERET of a whole convoy (R187, R237)
  ∀ (s : State) (f : Fields) c mode w (h pc : Word), s.Ready f → Instr.fields (.eret c mode) = some f →
    let ms := s.convoyOf s.cur
    (s.core s.cur).convoy = true →
    (∀ m ∈ ms, f.ctl.guards (s.core m) = true ∧ (s.core m).priv = true ∧ (s.core m).deferredTrap = false ∧
      (s.core m).trap.blk = h ∧ (s.core m).trap.pc = pc ∧ (s.core m).trap.status.getLsbD 1 = true ∧
      (mode = .retry → (s.core m).trap.status.getLsbD 2 = false)) →
    let last := h + BitVec.ofNat 64 (8 * (headerOf w).len)
    isHeader w = true → pc.toNat % 8 = 0 → h.toNat + 8 ≤ pc.toNat → pc.toNat ≤ last.toNat →
    let back := fun (x : State) (m : CoreId) => (x.fetchUse m h).modCore m fun y =>
      { y with
        priv := (s.core m).trap.status.getLsbD 0, inHandler := false, blk := h, hdr := w
        pc := if mode = .retry then pc else pc + 8
        pos := if mode = .next ∧ pc = last then .header .fall else .word }
    -- the header is read by each member in its turn
    (∀ k m, ms[k]? = some m → ((ms.take k).foldl back s).fetch m true h = .word w) →
    exec (.eret c mode) s = .next ((ms.foldl back s).countIssue ms f) ∧
    ∀ m ∈ ms, ((ms.foldl back s).core m).convoy = true

/-- USER_INTERRUPT_ENTRY saves s56 to s63, the next word and its block, and enters the handler. A running lone core at a
word boundary with an enabled cause pending, outside handlers, with nothing outstanding and UIVEC the address of a
header of KIND 4, copies s56 to s63 to the shadow registers, the next word to UI_PC and its block to UI_BLK, sets
STATUS.UIH, and stands before UIVEC at user privilege; with UIVEC zero the event changes nothing. In a convoy the
leader's causes and vector count, and every member enters so, each saving its own registers. A nonzero UIVEC that is
no address of a header of KIND 4 clears the leader's UI_EN and makes every member take BAD_TARGET with TRAP_PC the
next word and TRAP_INFO the vector, and changes nothing else: shadow registers, UI_PC, UI_BLK and STATUS.UIH keep
their values. That UI_EN of no other member is cleared is inferred (log 87), and that a vector on a page that is
present and not executable, or outside the global window, is such a bad vector is the model's choice (log 64). -/
def Obligations.UserInterruptsEnterTheirHandler : Prop :=
  (∀ (s : State) (c : CoreId) (w : Word), let q := s.core c
    q.issuing = true → q.convoy = false → q.Quiet → q.req = none →
    (q.ui.vec = 0 → exec (.userInterruptEntry c) s = .next s) ∧
    (q.uiReady = true → s.fetch c q.priv q.ui.vec = .word w → isHeader w = true → (headerOf w).kind = 4 →
      ∃ t, exec (.userInterruptEntry c) s = .next t ∧ let y := t.core c
        y.ui = { q.ui with pc := q.pc, blk := q.blk } ∧ (∀ i < 8, y.shadow.get i 0 = q.s.get (56 + i) 0) ∧
        y.uih = true ∧ y.priv = false ∧ y.pc = q.ui.vec ∧ y.pos = .header .handler ∧ y.s = q.s ∧ y.trap = q.trap ∧
        t.mem = (s.fetchUse c q.ui.vec).mem ∧ t.tiles = s.tiles)) ∧
  ∀ (s : State) (c : CoreId) (w : Word), let ms := s.convoyOf c
    let l := ms.headD c
    let v := (s.core l).ui.vec
    (∀ m ∈ ms, (s.core m).issuing = true ∧ (s.core m).Quiet ∧ (s.core m).req = none) → ms ≠ [] → (s.core l).uiReady = true →
    (s.fetch l (s.core l).priv v = .word w → isHeader w = true → (headerOf w).kind = 4 →
      ∃ t, exec (.userInterruptEntry c) s = .next t ∧ t.mem = (s.fetchUse l v).mem ∧ t.tiles = s.tiles ∧
        (∀ m ∈ ms, let q := s.core m
          let y := t.core m
          y.ui = { q.ui with pc := q.pc, blk := q.blk } ∧ (∀ i < 8, y.shadow.get i 0 = q.s.get (56 + i) 0) ∧
          y.uih = true ∧ y.priv = false ∧ y.pc = v ∧ y.pos = .header .handler ∧ y.s = q.s ∧ y.convoy = q.convoy ∧
          y.trap = q.trap) ∧
        ∀ m, m ∉ ms → (t.core m).pc = (s.core m).pc ∧ (t.core m).ui = (s.core m).ui) ∧
    (((∃ e, s.fetch l (s.core l).priv v = .trap e) ∨
        (s.fetch l (s.core l).priv v = .word w ∧ (isHeader w = false ∨ (headerOf w).kind ≠ 4))) →
      s.vector (s.core l) ≠ 0 →
      (∃ x, s.fetch l true (s.vector (s.core l)) = .word x ∧ isHeader x = true ∧ (headerOf x).kind = 2) →
      ∃ t, exec (.userInterruptEntry c) s = .next t ∧ t = { s with cores := t.cores } ∧
        (∀ m ∈ ms, let q := s.core m
          t.core m = { q with
            ui := { q.ui with en := if m = l then 0 else q.ui.en }
            priv := true, inHandler := true, deferredTrap := false, pc := s.vector (s.core l), pos := .header .handler
            waitPage := none
            trap := { cause := 0x02, pc := (s.core l).pc, info := v, blk := (s.core l).blk
                      status := BitVec.ofNat 64 ((if q.priv then 1 else 0) + (if q.convoy then 2 else 0) +
                        256 * (if q.convoy then l % 8 else 255)) } }) ∧
        ∀ m, m ∉ ms → t.core m = s.core m)

/-- CRR gives every control register its value. CRR leaves in its destination, on every core of a ready convoy whose
guards hold, what the spec lays out for the register: the core's numbers, the generation of its context, the status
bits, the saved registers of traps and user interrupts, the tile's droop and current registers, the counters, the
timelines' issued counts, the ring paths, the record sequence numbers and the barrier memberships; nothing else
changes but the pc. -/
def Obligations.ControlRegistersRead : Prop :=
  ∀ (s : State) (f : Fields) (c : Ctl) (d : SReg) (cr : CReg), Instr.fields (.crr c d cr) = some f → s.Ready f →
    let n := fun (x : Nat) => BitVec.ofNat 64 x
    let value := fun (m : CoreId) => let q := s.core m
      let t := s.tile (m / 4)
      match cr with
      | .coreId => n m
      | .tileId => n (m / 4)
      | .clusterId => n (m / 8)
      | .dieId => n (m / 128)
      | .pkgId => n s.ring.pkgId
      | .ctxGen => s.ctxGen q
      | .status => q.status
      | .spillBase => q.spillBase
      | .spillOvf => q.ovfMark
      | .uivec => q.ui.vec
      | .uiPc => q.ui.pc
      | .uiBlk => q.ui.blk
      | .uiEn => n q.ui.en.toNat
      | .uiCause => n q.ui.cause.toNat
      | .trapCause => q.trap.cause
      | .trapPc => q.trap.pc
      | .trapInfo => q.trap.info
      | .trapBlk => q.trap.blk
      | .trapStatus => q.trap.status
      | .fduty => n (q.duty.toNat + q.opreq.toNat * 2 ^ 8)
      | .droopThr => n t.thr.toNat
      | .droopCfg => n ((if t.droopEn then 1 else 0) + t.maxd.toNat * 2 ^ 24 + t.alarms.toNat * 2 ^ 32)
      | .tbCfg => n (t.fill.toNat + t.cap.toNat * 2 ^ 16)
      | .tbBal => n t.bal.toNat
      | .ec k => n (q.ec.get k.toNat 0).toNat
      | .ecsel k => n (q.ecsel.get k.toNat 0).toNat
      | .tl x => n (q.tl x).issued
      | .rgPath p => q.rgPath.get p.toNat 0
      | .lastHostSeq => n s.bar0.lastHost
      | .lastDevSeq => n s.lastDev
      | .member b => n (q.bar b.toNat).mem.toNat
    ∃ t, exec (.crr c d cr) s = .next t ∧ t = { s with cores := t.cores } ∧
      (∀ m ∈ s.convoyOf s.cur, t.core m =
        (if f.ctl.guards (s.core m) then (s.core m).ws d (value m) else s.core m).passed f) ∧
      ∀ k, k ∉ s.convoyOf s.cur → t.core k = s.core k

/-- CRW, CRSET and CRCLR write a control register and leave the others. On a lone core with the privilege the register
needs, CRW makes a writable control register read as the value written, cut to its fields: addresses of the spill area
at 128 bytes, causes cleared by ones, DUTY within 1 to 16, FILL at least 1, a membership as checked by BARM. CRSET and
CRCLR first read the old value into their destination and write it with the bits set or cleared. Every other control
register, but TB_BAL behind TB_CFG, keeps its value; memory and the general registers are unchanged. Where a field is
cut the model's reading is logged (TRAP_STATUS, DUTY). -/
def Obligations.ControlRegisterWrites : Prop :=
  ∀ (s : State) (f : Fields), s.Alone f → let q := s.core s.cur
    let n := fun (x : Nat) => BitVec.ofNat 64 x
    -- what a register reads as behind a write of `v` where it read `old`; none: it is not written
    let after := fun (cr : CReg) (old v : Word) =>
      match cr with
      | .spillBase | .uivec | .uiPc | .uiBlk | .trapCause | .trapPc | .trapInfo | .trapBlk | .rgPath _ => some v
      | .spillOvf => some (v - n (v.toNat % 128))
      | .uiEn => some (v &&& 0x1F)
      | .uiCause => some (old &&& ~~~v)
      | .trapStatus => some (v &&& 0xFF07)
      | .fduty => some (n (max 1 (min 16 (v.toNat % 32)) + v.toNat / 2 ^ 8 % 8 * 2 ^ 8))
      | .droopThr => some (v &&& 0xFF)
      | .droopCfg => some (v &&& 1)
      | .tbCfg => some (n (max 1 (v.toNat % 256) + v.toNat / 2 ^ 16 % 2 ^ 16 * 2 ^ 16))
      | .ec _ => some (v &&& 0xFFFFFFFFFFFF)
      | .ecsel _ => some (v &&& 0x1FFFF)
      | .member b =>
        if b.toNat < q.grants.barriers ∧ v.toNat < 2 ^ 16 ∧ v.toNat / 2 ^ 8 % 16 = 0 ∧ (q.bar b.toNat).st = .idle ∧
          (v.getLsbD 15 = true → 1 ≤ v.toNat / 2 ^ 12 % 8 ∧ v.toNat / 2 ^ 12 % 8 ≤ 5) then some v else none
      | .coreId | .tileId | .clusterId | .dieId | .pkgId | .ctxGen | .status | .tbBal | .tl _ | .lastHostSeq
      | .lastDevSeq => none
    let others := fun (u : State) (cr : CReg) => (∀ r, r ≠ cr → (cr = .tbCfg → r ≠ .tbBal) →
      u.readCr s.cur r = s.readCr s.cur r) ∧ u.mem = s.mem ∧ (∀ t, (u.tile t).lm = (s.tile t).lm) ∧
      ∀ m, m ≠ s.cur → u.core m = s.core m
    (∀ c a cr x, Instr.fields (.crw c a cr) = some f → (cr.supervisor = true → q.priv = true) →
      after cr (s.readCr s.cur cr) (a.val q) = some x →
      ∃ u, s.Does (.crw c a cr) f u ∧ u.readCr s.cur cr = x ∧ others u cr ∧ (u.core s.cur).s = q.s) ∧
    (∀ c d a cr x, Instr.fields (.crset c d a cr) = some f → (cr.supervisor = true → q.priv = true) → cr ≠ .droopCfg →
      after cr (s.readCr s.cur cr) (s.readCr s.cur cr ||| a.val q) = some x →
      ∃ u, s.Does (.crset c d a cr) f u ∧ u.readCr s.cur cr = x ∧ others u cr ∧
        ∀ r, (u.core s.cur).rs r = if r = d ∧ r ≠ 0 then s.readCr s.cur cr else q.rs r) ∧
    (∀ c d a cr x, Instr.fields (.crclr c d a cr) = some f → (cr.supervisor = true → q.priv = true) → cr ≠ .droopCfg →
      after cr (s.readCr s.cur cr) (s.readCr s.cur cr &&& ~~~(a.val q)) = some x →
      ∃ u, s.Does (.crclr c d a cr) f u ∧ u.readCr s.cur cr = x ∧ others u cr ∧
        ∀ r, (u.core s.cur).rs r = if r = d ∧ r ≠ 0 then s.readCr s.cur cr else q.rs r)

/-- TSTAMP, CYC, ECRD, ECCFG and RNG. TSTAMP gives the package's time, CYC the core's cycles, ECRD an event counter, RNG
two draws of FCM, each from one half of its key and the low half of its counter; ECCFG selects a counter's source and
clears it, and traps ILLEGAL_OP, subcode 0x05 of slot 1, when its value has more than 17 bits. Each core of a ready
convoy changes by itself. -/
def Obligations.TimeCountersAndRandomNumbers : Prop :=
  (∀ (s : State) (f : Fields) c d, Instr.fields (.tstamp c d) = some f → s.Ready f →
    s.EachDoes (.tstamp c d) f fun q => q.ws d (BitVec.ofNat 64 s.now)) ∧
  (∀ c d, EachDoes (.cyc c d) fun q => q.ws d (BitVec.ofNat 64 q.cyc)) ∧
  (∀ c d n, EachDoes (.ecrd c d n) fun q => q.ws d ((q.ec.get n.toNat 0).setWidth 64)) ∧
  (∀ c d k x, EachDoes (.rng c d k x) fun q =>
    -- both halves are drawn from the counter's low half, each with its half of the key (R195)
    q.ws d (fcm ((k.val q).extractLsb' 32 32) ((x.val q).setWidth 32) ++ fcm ((k.val q).setWidth 32) ((x.val q).setWidth 32))) ∧
  ∀ (s : State) (f : Fields), s.Alone f → ∀ c n src, Instr.fields (.eccfg c n src) = some f →
    let v := src.val (s.core s.cur)
    (v.toNat < 2 ^ 17 → s.Does (.eccfg c n src) f (s.modCore s.cur fun q =>
      { q with ecsel := q.ecsel.set n.toNat (v.setWidth 17), ec := q.ec.set n.toNat 0 })) ∧
    (2 ^ 17 ≤ v.toNat → s.TrapsAs (.eccfg c n src) .illegalOp 0x0105)

/-- TASKPUT and TASKGET, and the entry that a pop takes. TASKPUT in non-idempotent work, each member of a ready convoy in
turn, appends its entry to the die's queue and sets its predicate; on a full queue it clears the predicate and does no
more; an entry address that is no multiple of 8 traps MISALIGNED. TASKGET hands the argument and key of the one entry
that the leader pops, and the fall-through address, to every member and enters the entry's KIND 3 header; of an entry
with a bad target it takes BAD_TARGET and the entry is consumed and lost; with nothing of the context queued, poll
gives all ones and goes on, and wait waits. Both trap NONIDEM_OP in an idempotent task. A pop serves one of the 32
entries of its context with the smallest keys, of equal ones the first pushed: the smallest, or, when with these
listed by skip count some entry, the k-th, has been skipped 32 - k times, the one that heads the list. It removes just
that entry, raises the skip count of the others of the 32 by one and clears that of the context's others; entries of
other contexts are unchanged. So no entry is ever skipped more than 32 - k times, before or after a pop or a push,
which bounds an entry's wait by 32 pops. While a context has fewer than 32 entries and none has been passed over, a
pop gives its smallest key. -/
def Obligations.TheTaskQueue : Prop :=
  ((∀ c d key e arg, let i : Instr := .taskput c d key e arg
    let full := fun (m : CoreId) (s : State) => 65536 ≤ (s.die (dieOf m)).pq.length
    FirstTraps i .nonidemOp (fun m s x => (s.core m).idem = true ∧ x = 0) ∧
    FirstTraps i .misaligned (fun m s x => (s.core m).idem = false ∧ ((s.core m).rs e).toNat % 8 ≠ 0 ∧ x = (s.core m).rs e) ∧
    InTurns i fun m s t => let q := s.core m
      let die := s.die (dieOf m)
      q.idem = false ∧ (q.rs e).toNat % 8 = 0 ∧
      (full m s ∧ t = s.modCore m (fun q => q.wp d false) ∨
      ¬ full m s ∧ t = ({ s with dies := s.dies.set (dieOf m) { die with
          pushes := die.pushes + 1
          pq := die.pq ++ [⟨q.ctxNum, (key.val q).setWidth 32, q.rs e, arg.val q, 0, die.pushes⟩] } } : State).modCore m
            fun q => q.wp d true)) ∧
  ∀ (s : State) (f : Fields), s.Led f → let l := s.leader
    let q := s.core l
    let ms := s.convoyOf s.cur
    let die := s.die (dieOf l)
    ∀ c a k r how, Instr.fields (.taskget c a k r how) = some f → let i : Instr := .taskget c a k r how
      (q.idem = true → s.TrapsAs i .nonidemOp 0) ∧
      (q.idem = false → pqPop die.pq q.ctxNum = none →
        (how = .poll → s.AllDo i f fun q => q.ws k (BitVec.allOnes 64)) ∧ (how = .wait → exec i s = .next s)) ∧
      ∀ x rest, q.idem = false → pqPop die.pq q.ctxNum = some (x, rest) →
        let u : State := { s with dies := s.dies.set (dieOf l) { die with pq := rest } }
        (u.Enters x.entry kindTask → let v := u.fetchUse l x.entry
          ∃ t, exec i s = .next t ∧ (t.die (dieOf l)).pq = rest ∧ t.mem = v.mem ∧
            (∀ m ∈ ms, let y := (((v.core m).ws a x.arg).ws k (x.key.setWidth 64)).ws r q.fallthrough
              t.core m = ({ y with pc := x.entry, pos := .header .jump } : Core).counted f) ∧
            ∀ m, m ∉ ms → t.core m = v.core m) ∧
        (x.entry.toNat % 8 ≠ 0 ∨ isGlobal x.entry.toNat = false ∨ (∃ w, s.fetch l q.priv x.entry = .word w ∧
            (isHeader w = false ∨ ((headerOf w).kind < 5 ∧ (headerOf w).kind ≠ 3))) →
          (∀ m ∈ ms, (s.core m).Quiet) → s.busyVector ms = none →
          exec i s = .next ((u.preciseTrap ms l .badTarget x.entry q.pc q.blk).countIssue ms f))) ∧
  ((∀ (l : List PqEntry) (ctx : Nat), (l.map (·.push)).Nodup → (l.filter (·.ctx == ctx)).length < 32 →
    (∀ x ∈ l, x.ctx = ctx → x.skip = 0) →
    (pqPop l ctx = none ↔ ∀ x ∈ l, x.ctx ≠ ctx) ∧
    ∀ e rest, pqPop l ctx = some (e, rest) → e ∈ l ∧ e.ctx = ctx ∧
      (∀ x ∈ l, x.ctx = ctx → e.key.toNat < x.key.toNat ∨ (e.key = x.key ∧ e.push ≤ x.push)) ∧
      ∀ x, x ∈ rest ↔ ∃ y ∈ l, y.push ≠ e.push ∧ x = if y.ctx = ctx then { y with skip := 1 } else y) ∧
  ∀ (l : List PqEntry) (ctx : Nat), (l.map (·.push)).Nodup →
    let first := fun (x y : PqEntry) => decide (x.key.toNat < y.key.toNat) || (x.key == y.key && decide (x.push < y.push))
    -- the 32 smallest of a queue, and the place of one of them by skip count
    let front := fun (l : List PqEntry) (x : PqEntry) =>
      x.ctx == ctx && decide ((l.filter fun y => y.ctx == ctx && first y x).length < 32)
    let place := fun (l : List PqEntry) (x : PqEntry) =>
      (l.filter fun y => front l y && (decide (x.skip < y.skip) || (y.skip == x.skip && decide (y.push < x.push)))).length + 1
    let bounded := fun (l : List PqEntry) => ∀ x ∈ l, front l x = true → x.skip + place l x ≤ 32
    (pqPop l ctx = none ↔ ∀ x ∈ l, x.ctx ≠ ctx) ∧
    (∀ e rest, pqPop l ctx = some (e, rest) → e ∈ l ∧ front l e = true ∧
      ((∃ x ∈ l, front l x = true ∧ x.skip + place l x = 32) → place l e = 1) ∧
      ((∀ x ∈ l, front l x = true → x.skip + place l x ≠ 32) → ∀ x ∈ l, x.ctx = ctx → x = e ∨ first e x = true) ∧
      (∀ x, x ∈ rest ↔ ∃ y ∈ l, y.push ≠ e.push ∧
        x = if y.ctx ≠ ctx then y else if front l y then { y with skip := y.skip + 1 } else { y with skip := 0 }) ∧
      (bounded l → bounded rest)) ∧
    ∀ x, (∀ y ∈ l, y.push < x.push) → x.skip = 0 → bounded l → bounded (l ++ [x]))

/-- TASKEND, TASKAB and TASK_COMPLETION_REPORT. TASKEND, which the leader resolves for its convoy, waits until the
timelines of every core of it have completed what they issued; then these cores have ended. When the last core of a
node's work has ended, the node goes to ENDING; or, where one of a gang had issued TASKAB, or the lone core issues it,
the node ends at once as FAILED with status 0x40 and the code of the first TASKAB, of one word the lowest core's, and
its cores are free. A persistent core is marked ended by TASKEND, and TASKAB ends its program there at once, with its
event. The report of a node in ENDING, whose cores have performed their stores, ends the node with its status, OK
unless an engine operation failed; a node not in ENDING is left alone. The report of a persistent launch frees its
ended core and counts it as ended. A dissolved convoy whose other members all wait at their reconvergence header re-
forms (R55). That a request pending on one of its cores goes before the report, so that the report changes nothing, is
the model's reading (log 66). -/
def Obligations.WorkEnds : Prop :=
  (∀ (s : State) (f : Fields), s.Led f → let l := s.leader
    let ms := s.convoyOf s.cur
    -- the members end as `how` says, in a state `b`
    let ends := fun (i : Instr) (b : State) (how : Ended) (w : WorkRef) => let u :=
        (ms.foldl (fun s m => s.modCore m fun x => { x with ended := some how }) b).rejoinConvoy (clusterOf l)
      let goes := fun (t : State) => exec i s = .next (t.countIssue ms f)
      let gm := s.membersOf l
      ∀ n, w.node = some n →
        ((∃ k ∈ gm, (u.core k).ended = none) → goes u) ∧
        ((∀ k ∈ gm, (u.core k).ended = some .taskEnd) → goes (u.modNode w.ctx w.launch n fun x => { x with st := .ending })) ∧
        ∀ m v o, (∀ k ∈ gm, (u.core k).ended ≠ none) → m ∈ gm → (u.core m).ended = some (.taskAb v o) →
          (∀ k ∈ gm, ∀ x p, (u.core k).ended = some (.taskAb x p) → o ≤ p ∧ (o = p → m ≤ k)) →
          (u.finishMembers gm = none → exec i s = .next s) ∧
          ∀ y, u.finishMembers gm = some y → goes ((((y.workEvent 2 m w 0 v 0 0 0).leaveCores gm).releaseHeld w.ctx w.launch n).endNode
            w.ctx w.launch n 0x40 v)
    (∀ c w, Instr.fields (.taskend c) = some f → (s.core l).work = some w →
      ((∃ m ∈ ms, (s.core m).quiet = false) → exec (.taskend c) s = .next s) ∧
      ((∀ m ∈ ms, (s.core m).quiet = true) → ends (.taskend c) s .taskEnd w ∧
        (w.node = none → exec (.taskend c) s =
          .next (((ms.foldl (fun s m => s.modCore m fun x => { x with ended := some .taskEnd }) s).rejoinConvoy (clusterOf l)).countIssue
            ms f)))) ∧
    ∀ c code w, Instr.fields (.taskab c code) = some f → (s.core l).work = some w →
      let v : Word := ((code.val (s.core l)).setWidth 32 : BitVec 32).setWidth 64
      let b : State := { s with orders := s.orders + 1 }
      ends (.taskab c code) b (.taskAb v s.orders) w ∧
      (w.node = none → let u :=
          (ms.foldl (fun s m => s.modCore m fun x => { x with ended := some (.taskAb v s.orders) }) b).rejoinConvoy (clusterOf l)
        let u := (ms.foldl (fun s m => s.workEvent 2 m w 0 v 0 0 0) u).leaveCores ms
        exec (.taskab c code) s = .next ((ms.foldl (fun s m => s.endPersistent m w) u).countIssue ms f))) ∧
  (∀ s ctx launch node x cores, State.node? s ctx (BitVec.ofNat 64 launch) node = some x → node ≠ 0xFFFFFFFF →
    cores = ((s.cores.filter fun (_, q) => (q.work.any fun w => w.ctx == ctx && w.launch == BitVec.ofNat 64 launch &&
      w.node == some node) && q.ended == some .taskEnd).map (·.1)) →
    (x.st ≠ .ending ∨ (∃ c ∈ cores, (s.core c).req.isSome = true) → exec (.taskCompletionReport ctx launch node) s = .next s) ∧
    ∀ u, x.st = .ending → (∀ c ∈ cores, (s.core c).req = none) → s.finishMembers cores = some u →
      let fails := cores.filterMap fun m => (u.core m).engFail
      exec (.taskCompletionReport ctx launch node) s =
        .next (((u.leaveCores cores).releaseHeld ctx (BitVec.ofNat 64 launch) node).endNode ctx (BitVec.ofNat 64 launch) node
          (if 0x10 ∈ fails then 0x10 else if 0x13 ∈ fails then 0x13 else 0) 0)) ∧
  ∀ (s : State) ctx launch c w, (s.cores.filter fun (_, q) => (q.work.any fun w => w.ctx == ctx && w.launch == BitVec.ofNat 64 launch &&
      w.node == none) && q.ended == some .taskEnd).map (·.1) = [c] → (s.core c).work = some w →
    (s.finishCore c = none → exec (.taskCompletionReport ctx launch 0xFFFFFFFF) s = .next s) ∧
    ∀ u, s.finishCore c = some u →
      exec (.taskCompletionReport ctx launch 0xFFFFFFFF) s = .next ((u.leaveCores [c]).endPersistent c w)

/-- CONVOY off, the arrival of CONVOY on, and TLBI. CONVOY off dissolves the leader's convoy, every member going on alone,
and does nothing on a core outside a convoy. CONVOY on in a formed convoy goes on, with the barrier idle for every
member, behind its own completed arrival, and otherwise, on an idle barrier, traps BARRIER_FAULT with subcode 3, or 5
when the leader is no member. TLBI at supervisor privilege, its fence complete, goes on; page and context remove
exactly the translations they name from the micro-TLBs and second-level TLBs within their scope. -/
def Obligations.ConvoysAndTranslationInvalidation : Prop :=
  (∀ (s : State) (f : Fields) c, s.Led f → Instr.fields (.convoy c .off) = some f →
    ((s.core s.leader).convoy = true → s.AllDo (.convoy c .off) f fun x => { x with convoy := false, rejoin := none }) ∧
    ((s.core s.leader).convoy = false → s.AllDo (.convoy c .off) f id)) ∧
  (∀ (s : State) (f : Fields) c b, s.Led f → Instr.fields (.convoy c (.on b)) = some f → (s.core s.leader).convoy = true →
    let x := (s.core s.leader).bar b.toNat
    x.st = .idle →
    (memOn x.mem = true → s.TrapsAs (.convoy c (.on b)) .barrierFault 3) ∧
    (memOn x.mem = false → s.TrapsAs (.convoy c (.on b)) .barrierFault 5)) ∧
  (∀ (s : State) (f : Fields) c b, s.Led f → Instr.fields (.convoy c (.on b)) = some f → (s.core s.leader).convoy = true →
    let x := (s.core s.leader).bar b.toNat
    x.st = .done → x.mark = some (s.core s.leader).pc → x.arr = some .convoy →
    exec (.convoy c (.on b)) s = .next (((s.convoyOf s.cur).foldl (fun s m => s.leaveBarrier m b.toNat) s).goOn
      (s.convoyOf s.cur) f)) ∧
  ∀ (s : State) (f : Fields) c mode a r u, s.Alone f → Instr.fields (.tlbi c mode a r) = some f →
    let q := s.core s.cur
    q.priv = true →
    s.fenceSteps s.cur { pred := 0x02, succ := 0x03, scope := tlbiFence r, upto := q.issue } = some u →
    ∃ t, s.Does (.tlbi c mode a r) f t ∧ (mode ≠ .stable → t.mem = u.mem ∧ t.tiles = u.tiles ∧
      let kept := fun (l : List TlbEntry) => l.filter fun e => !(e.ctx == q.ctxNum && (mode == .context ||
        (decide (e.va ≤ (q.rs a).toNat) && decide ((q.rs a).toNat < e.va + e.size))))
      (∀ k, (t.core k).utlb = if tlbiReach r s.cur k then kept (u.core k).utlb else (u.core k).utlb) ∧
      ∀ k, (t.cluster k).tlb = if tlbiReach r s.cur (8 * k) then kept (u.cluster k).tlb else (u.cluster k).tlb)

/-- Loads from and stores to a core's share of local memory. On every ready convoy or lone core, members in turn, where
every byte of a member's access lies in its share, aligned, unpoisoned, behind no fence and meeting no outstanding
load, LD gives the little-endian bytes extended as its size says, LDP the two doublewords, and LDV and LDVS the vector
whose enabled bytes or elements are loaded and whose others are zero; a byte is the core's own latest buffered store
of it, or the tile's. Only the destinations and the pcs change: no memory, no buffer. This is the load performed at
issue, the model's plan of deferred loads (log entry 11) being empty; a deferred one is said of with the accesses of
any address. In the same way, where a member's bytes lie in its share, aligned and behind no fence, the stores put
exactly the bytes they name into that core's buffer, with the offsets that the address function gives: the low bytes
of the source, the two doublewords, the enabled bytes of the vector, or its enabled elements, of overlapping ones the
highest. No memory changes before the store drains. -/
def Obligations.ScratchpadAccesses : Prop :=
  (let byte := fun (s : State) (m : CoreId) (o : Nat) => s.localByte m o
  (∀ c d b size disp, InTurns (.ld c d b size disp) fun m s t => let q := s.core m
      let ea := q.rs b + disp.signExtend 64
      let n := memBytes size
      ∃ off, q.defer = [] ∧ ea.toNat % n = 0 ∧ s.Local m (bytesFrom ea n) off ∧
        let x := ofLe ((List.range n).map fun i => byte s m (off i))
        t = s.modCore m fun q => q.ws d (if memSigned size then (BitVec.ofNat (8 * n) x).signExtend 64 else BitVec.ofNat 64 x)) ∧
  (∀ c d1 d2 b disp, InTurns (.ldp c d1 d2 b disp) fun m s t => let q := s.core m
      let ea := q.rs b + disp.signExtend 64
      ∃ off, q.defer = [] ∧ ea.toNat % 8 = 0 ∧ s.Local m (bytesFrom ea 16) off ∧
        let x := fun k => BitVec.ofNat 64 (ofLe ((List.range 8).map fun i => byte s m (off (k + i))))
        t = s.modCore m fun q => (q.ws d1 (x 0)).ws d2 (x 8)) ∧
  (∀ c d b k disp, InTurns (.ldv c d b k disp) fun m s t => let q := s.core m
      let ea := q.rs b + disp.signExtend 64
      ∃ off, q.defer = [] ∧ ea.toNat % 32 = 0 ∧ s.Local m ((bytesFrom ea (q.vbits / 8)).filter fun x => q.enabled k 8 x.1) off ∧
        t = s.modCore m fun q => q.wv d (ofLe ((List.range (q.vbits / 8)).map fun i =>
          if q.enabled k 8 i then byte s m (off i) else 0))) ∧
  ∀ c d b stride size k, InTurns (.ldvs c d b stride size k) fun m s t => let q := s.core m
      let w := elBytes size
      let es := (List.range (q.vbits / 8 / w)).filter fun e => q.enabled k (8 * w) e
      let ea := fun e => q.rs b + BitVec.ofNat 64 e * stride.val q
      ∃ off, q.defer = [] ∧ (∀ e ∈ es, (ea e).toNat % w = 0) ∧
        s.Local m (es.flatMap fun e => (bytesFrom (ea e) w).map fun x => (w * e + x.1, x.2)) off ∧
        t = s.modCore m fun q => q.wv d (ofLe ((List.range (q.vbits / 8)).map fun i =>
          if q.enabled k (8 * w) (i / w) then byte s m (off i) else 0))) ∧
  ((∀ c b a size disp, InTurns (.st c b a size disp) fun m s t => let q := s.core m
      let ea := q.rs b + disp.signExtend 64
      ∃ off, ea.toNat % memBytes size = 0 ∧ s.Local m (bytesFrom ea (memBytes size)) off ∧
        t = s.buffers m ((List.range (memBytes size)).map fun i => (off i, (a.val q).extractLsb' (8 * i) 8))) ∧
  (∀ c b a1 a2 disp, InTurns (.stp c b a1 a2 disp) fun m s t => let q := s.core m
      let ea := q.rs b + disp.signExtend 64
      ∃ off, ea.toNat % 8 = 0 ∧ s.Local m (bytesFrom ea 16) off ∧
        t = s.buffers m ((List.range 16).map fun i =>
          (off i, if i < 8 then (a1.val q).extractLsb' (8 * i) 8 else (a2.val q).extractLsb' (8 * (i - 8)) 8))) ∧
  (∀ c b v k disp, InTurns (.stv c b v k disp) fun m s t => let q := s.core m
      let ea := q.rs b + disp.signExtend 64
      let l := (bytesFrom ea (q.vbits / 8)).filter fun x => q.enabled k 8 x.1
      ∃ off, ea.toNat % 32 = 0 ∧ s.Local m l off ∧ t = s.buffers m (l.map fun x => (off x.1, vecByte q v x.1))) ∧
  ∀ c b v stride size k, InTurns (.stvs c b v stride size k) fun m s t => let q := s.core m
      let w := elBytes size
      let es := (List.range (q.vbits / 8 / w)).filter fun e => q.enabled k (8 * w) e
      let ea := fun e => q.rs b + BitVec.ofNat 64 e * stride.val q
      let l := es.flatMap fun e => (bytesFrom (ea e) w).map fun x => (w * e + x.1, x.2)
      ∃ off, (∀ e ∈ es, (ea e).toNat % w = 0) ∧ s.Local m l off ∧
        t = s.buffers m ((lastWins (l.map fun x => (x.1, x.2.toNat))).map fun x => (off x.1, vecByte q v x.1)))

/-- STORE_DRAIN writes exactly the bytes of a buffered store, at its tile or at its home. A buffered store with no earlier
access of the same bytes before it drains and leaves the buffer, no register changes, and nothing else in the memories
does: a local one writes its bytes of the tile's local memory. A global one of a line that no pending pair touches
writes its bytes, marked dirty, into the line in the tile's L1, which is filled from home first where it is not there
and its set has room; one that keeps out of L1 writes them at home, or, where the home write has to wait, stands last
in the writes that wait at home, each byte being what it was. A number that no store of the core has changes nothing. -/
def Obligations.StoresDrainToTheirBytes : Prop :=
  ∀ (s : State) (c : CoreId) (n : Nat), let q := s.core c
    let tl := tileOf c
    (q.stores.find? (·.n == n) = none → exec (.storeDrain c n) s = .next s) ∧
    ∀ p, q.stores.find? (·.n == n) = some p → (p.cells.map (·.1)).Nodup → q.storeBlocked p = false →
      let left := fun (t : State) => (t.core c).stores = q.stores.filter (·.n != n) ∧ (∀ r, (t.core c).rs r = q.rs r) ∧
        ∀ k, k ≠ c → t.core k = s.core k
      let memories := fun (t : State) => t.mem = s.mem ∧ t.host = s.host ∧ t.wstack = s.wstack ∧ t.tier = s.tier ∧
        t.safeCxl = s.safeCxl ∧ t.slices = s.slices ∧ t.viewPend = s.viewPend
      (p.loc = true → ∃ t, exec (.storeDrain c n) s = .next t ∧
        (∀ a b, (a, b) ∈ p.cells → (t.tile tl).lm.get a = b) ∧
        (∀ a, a ∉ p.cells.map (·.1) → (t.tile tl).lm.get a = (s.tile tl).lm.get a) ∧
        (t.tile tl).l1 = (s.tile tl).l1 ∧ (∀ k, k ≠ tl → t.tile k = s.tile k) ∧ memories t ∧ t.homeQ = s.homeQ ∧ left t) ∧
      ∀ line, p.loc = false → p.cells ≠ [] → (∀ x ∈ p.cells, x.1 / 128 = line) → s.sorterPairs = [] →
        (∀ old, s.noL1 c p.bypass (128 * line) = false → ((s.tile tl).l1.find line).map (·.bytes) = some old ∧ old.length = 128 ∨
            (s.tile tl).l1.find line = none ∧ ((s.tile tl).l1Ways line).length < 16 ∧
              old = (List.range 128).map (fun i => s.homeByteFor tl p.home (128 * line + i)) →
          ∃ t y, exec (.storeDrain c n) s = .next t ∧ (t.tile tl).l1.find line = some y ∧
            (∀ a b, (a, b) ∈ p.cells → y.bytes.getD (a % 128) 0 = b ∧ y.dirty.getLsbD (a % 128) = true) ∧
            (∀ i < 128, 128 * line + i ∉ p.cells.map (·.1) → y.bytes.getD i 0 = old.getD i 0 ∧
              y.dirty.getLsbD i = (((s.tile tl).l1.find line).map (·.dirty)).any (·.getLsbD i)) ∧
            (∀ l, l ≠ line → (t.tile tl).l1.find l = (s.tile tl).l1.find l) ∧ (t.tile tl).lm = (s.tile tl).lm ∧
            (∀ k, k ≠ tl → t.tile k = s.tile k) ∧ memories t ∧ t.homeQ = s.homeQ ∧ left t) ∧
        (s.noL1 c p.bypass (128 * line) = true → (s.tile tl).l1.find line = none → s.lineQueued line = false →
          128 * line < 2 ^ 52 → (∀ k, s.l2At k line = none) →
          (∀ k l g, (s.slice k).tags.find l = some g → ((s.slice k).data.find g.dptr).isSome = true) →
          ∃ t, exec (.storeDrain c n) s = .next t ∧ left t ∧ (t.tile tl).l1.find line = none ∧ (t.tile tl).lm = (s.tile tl).lm ∧
            (∀ k, k ≠ tl → t.tile k = s.tile k) ∧
            (t.homeQ = s.homeQ → (∀ x ∈ p.cells, t.homeByte p.home x.1 = x.2) ∧
              ∀ a < 2 ^ 52, a ∉ p.cells.map (·.1) → (onTier (128 * line) = true → storeOf a ≠ .host) → ∀ k,
                t.homeByte k a = s.homeByte k a) ∧
            (t.homeQ ≠ s.homeQ → t.mem = s.mem ∧ t.tier = s.tier ∧ t.safeCxl = s.safeCxl ∧ t.slices = s.slices ∧
              ∃ w, t.homeQ = s.homeQ ++ [w] ∧ w.core = some c ∧ w.home = p.home ∧ w.cells = p.cells ∧
                (s.migrating line = true ∨ onTier (128 * line) = true)))

/-- Loads and stores of any address that pass their checks complete. On every ready convoy or lone core, members in turn:
a scalar, pair, vector or strided access, to local memory or through a translation, that passes the checks at issue,
with no fence or sequentially consistent operation of its core before it, completes: a store leaves its bytes in the
buffer, by 32-byte beat; a load that meets no outstanding one and whose bytes can be read now writes its destination
from them, or, where a byte is poisoned, leaves it and pends the trap; one that its core's plan (log entry 11) leaves
outstanding, or that has to wait for an apply, waits in the core with its bytes' places. -/
def Obligations.AcceptedAccessesComplete : Prop :=
  let loads := fun (i : Instr) (c : Ctl) (dst : Core → LoadDst) (aligned : Core → Prop) (es : Core → List Elem)
      (bytes : Core → List (Nat × Nat)) => InTurns i fun m s t => let q := s.core m
    aligned q ∧ q.fences = [] ∧ q.sc = none ∧ s.checkAccess m accRead (es q) = none ∧
    let w := (s.resolve m false (Ctl.ch c) (bytes q)).2
    let u := (s.resolve m false (Ctl.ch c) (bytes q)).1.countAccess m w 0x0012
    let empty := w.lanes = [] ∧ w.locs = []
    let later := (u.core m).defer.headD false = true ∧ ¬ empty
    let u := if empty then u else u.modCore m fun q => { q with defer := q.defer.drop 1 }
    let x := u.core m
    let left := u.modCore m fun x =>
      { x with loads := x.loads ++ [{ n := x.issue, pc := x.pc, blk := x.blk, dst := dst q, lanes := w.lanes, locs := w.locs }]
               issue := x.issue + 1 }
    later ∧ t = left ∨
    ¬ later ∧ x.loadsMeet w = false ∧ (u.readWhere m x.issue w = none ∧ t = left ∨
      ∃ v r, u.readWhere m x.issue w = some (v, r) ∧ (r.ue = none ∧ t = v.modCore m (fun x => x.loadInto (dst q) r) ∨
        ∃ a, r.ue = some a ∧ t = v.modCore m fun x => { x with due := x.due ++ [(x.pc, x.blk, a)] }))
  let stores := fun (i : Instr) (c : Ctl) (aligned : Core → Prop) (es : Core → List Elem) (bytes : Core → List (Nat × Nat))
      (byte : Core → Nat → Byte) => InTurns i fun m s t => let q := s.core m
    aligned q ∧ q.fences = [] ∧ q.sc = none ∧ s.checkAccess m accWrite (es q) = none ∧
    let u := s.resolve m true (Ctl.ch c) (bytes q)
    t = (u.1.countAccess m u.2 0x0013).buffer m u.2 (byte q)
  let lanes := fun (l : List (Nat × Nat)) => l.map fun x => (⟨BitVec.ofNat 64 x.2, 1, 1⟩ : Elem)
  let ea := fun (b : SReg) (disp : BitVec 16) (q : Core) => q.rs b + disp.signExtend 64
  let any := fun (_ : Core) => True
  (∀ c d b size disp, let n := memBytes size
    loads (.ld c d b size disp) c (fun _ => .scalar d n (memSigned size)) any (fun q => [⟨ea b disp q, n, n⟩])
      fun q => runBytes (ea b disp q) n) ∧
  (∀ c d1 d2 b disp, loads (.ldp c d1 d2 b disp) c (fun _ => .pair d1 d2) any (fun q => [⟨ea b disp q, 16, 8⟩])
    fun q => runBytes (ea b disp q) 16) ∧
  (∀ c d b k disp, loads (.ldv c d b k disp) c (fun q => .vec d q.long) (fun q => (ea b disp q).toNat % 32 = 0)
    (fun q => lanes (q.vecLanes k (ea b disp q))) fun q => q.vecLanes k (ea b disp q)) ∧
  (∀ c d b stride size k, let w := elBytes size
    let es := fun (q : Core) => q.strided b stride w k
    loads (.ldvs c d b stride size k) c (fun q => .vec d q.long) any (fun q => (es q).map fun x => ⟨x.2, w, w⟩)
      fun q => stridedBytes w (es q)) ∧
  (∀ c b a size disp, let n := memBytes size
    stores (.st c b a size disp) c any (fun q => [⟨ea b disp q, n, n⟩]) (fun q => runBytes (ea b disp q) n) fun q => wordByte (a.val q)) ∧
  (∀ c b a1 a2 disp, stores (.stp c b a1 a2 disp) c any (fun q => [⟨ea b disp q, 16, 8⟩]) (fun q => runBytes (ea b disp q) 16)
    fun q i => if i < 8 then wordByte (a1.val q) i else wordByte (a2.val q) (i - 8)) ∧
  (∀ c b v k disp, stores (.stv c b v k disp) c (fun q => (ea b disp q).toNat % 32 = 0) (fun q => lanes (q.vecLanes k (ea b disp q)))
    (fun q => q.vecLanes k (ea b disp q)) fun q => vecByte q v) ∧
  ∀ c b v stride size k, let w := elBytes size
    let es := fun (q : Core) => q.strided b stride w k
    stores (.stvs c b v stride size k) c any (fun q => (es q).map fun x => ⟨x.2, w, w⟩) (fun q => lastWins (stridedBytes w (es q)))
      fun q => vecByte q v

/-- Accesses that fail a check trap before any effect, in the order of the checks. On a ready convoy or lone core, the
first member with its guards on: a load, store, atomic or sequentially consistent operation at an address that is no
multiple of its size traps MISALIGNED with the address, one whose first byte lies in no aperture ADDR_FAULT; an atomic
or sequentially consistent operation in the scratchpad or stack ATOMIC_LOCAL; a store or atomic to a read-only or
stable page, or a user access to a supervisor page, PROT_FAULT; a sequentially consistent operation on a page of the
host window SC_SCOPE. Atomics, SCST and SCXCH trap NONIDEM_OP in an idempotent task. A pair access at no multiple of 8
and a whole-register vector access at no multiple of 32 trap MISALIGNED; a strided access reports its first enabled
element that lies in no aperture. A block without spills traps ILLEGAL_OP, subcode 0x07, at an access to the stack.
The model's choices: that a scalar access to the stack in such a block traps so whatever its alignment (log 29), and
that a misaligned LDV or STV traps whatever its mask (log 30), with the base address (log 83). -/
def Obligations.BadAccessesTrap : Prop :=
  -- the accesses of one aligned location: its address, its bytes, what it does
  let ea := fun (b : SReg) (disp : BitVec 16) (q : Core) => q.rs b + disp.signExtend 64
  let at_ := fun (b : SReg) (q : Core) => q.rs b
  let each := fun (P : Instr → AccKind → (Core → Word) → Nat → Prop) =>
    (∀ c d b size disp, P (.ld c d b size disp) accRead (ea b disp) (memBytes size)) ∧
    (∀ c b a size disp, P (.st c b a size disp) accWrite (ea b disp) (memBytes size)) ∧
    (∀ (c : Ctl) (d b : SReg) (v w : SImm) (t : AType), let n := atypeBits t / 8
      (∀ i ∈ ([.aadd c d b v t, .amin c d b v t, .amax c d b v t, .aand c d b v t, .aor c d b v t, .axor c d b v t, .axchg c d b v t,
          .acas c d b v w t, .anadd c b v t] : List Instr), P i accAtomic (at_ b) n) ∧
      P (.scld c d b t) accScRead (at_ b) n ∧ P (.scst c b v t) accScWrite (at_ b) n ∧ P (.scxch c d b v t) accScWrite (at_ b) n)
  -- a member that may make the access so far: its task is not one that forbids it, it is aligned, and its block may spill (R57)
  let fit := fun (k : AccKind) (n : Nat) (q : Core) (a : Word) => (k.global = true ∧ k.write = true → q.idem = false) ∧
    a.toNat % n = 0 ∧ ((headerOf q.hdr).noSpill = true → inStack a = false)
  let spills := fun (q : Core) (a : Word) => (headerOf q.hdr).noSpill = true → inStack a = false
  each (fun i k a n =>
    (k.global = true → k.write = true → FirstTraps i .nonidemOp fun m s x => x = 0 ∧ (s.core m).idem = true) ∧
    (FirstTraps i .illegalOp fun m s x => let q := s.core m
      x = 0xFF07 ∧ (k.global = true ∧ k.write = true → q.idem = false) ∧ (headerOf q.hdr).noSpill = true ∧ inStack (a q) = true) ∧
    (FirstTraps i .misaligned fun m s x => let q := s.core m
      x = a q ∧ (k.global = true ∧ k.write = true → q.idem = false) ∧ spills q (a q) ∧ (a q).toNat % n ≠ 0) ∧
    (FirstTraps i .addrFault fun m s x => let q := s.core m
      x = a q ∧ fit k n q (a q) ∧ q.place (a q).toNat = none) ∧
    (k.global = true → FirstTraps i .atomicLocal fun m s x => let q := s.core m
      x = a q ∧ fit k n q (a q) ∧
        ∀ j ∈ [0, n - 1], (∃ o, q.place ((a q).toNat + j) = some (.lm o)) ∨ ∃ va, q.place ((a q).toNat + j) = some (.glob va true)) ∧
    (FirstTraps i .protFault fun m s x => let q := s.core m
      x = a q ∧ fit k n q (a q) ∧ isGlobal (a q).toNat = true ∧ ∃ y z,
        s.look m q.ctxNum (a q).toNat = .ok y ∧ s.viewBad (y.key (a q).toNat) = false ∧
        s.look m q.ctxNum ((a q).toNat + n - 1) = .ok z ∧ s.viewBad (z.key ((a q).toNat + n - 1)) = false ∧
        (k.write = true ∧ (pteW y.leaf = false ∨ pteStb y.leaf = true) ∨ q.priv = false ∧ pteU y.leaf = false)) ∧
    (k.sc = true → FirstTraps i .scScope fun m s x => let q := s.core m
      x = a q ∧ fit k n q (a q) ∧ isGlobal (a q).toNat = true ∧ ∃ y z,
        s.look m q.ctxNum (a q).toNat = .ok y ∧ s.viewBad (y.key (a q).toNat) = false ∧
        s.look m q.ctxNum ((a q).toNat + n - 1) = .ok z ∧ s.viewBad (z.key ((a q).toNat + n - 1)) = false ∧
        q.mayUse k.write y.leaf = true ∧ q.mayUse k.write z.leaf = true ∧ storeOf (y.key (a q).toNat) = .host)) ∧
  (∀ c d1 d2 b disp, FirstTraps (.ldp c d1 d2 b disp) .misaligned fun m s x => let q := s.core m
    x = ea b disp q ∧ spills q x ∧ x.toNat % 8 ≠ 0) ∧
  (∀ c b a1 a2 disp, FirstTraps (.stp c b a1 a2 disp) .misaligned fun m s x => let q := s.core m
    x = ea b disp q ∧ spills q x ∧ x.toNat % 8 ≠ 0) ∧
  (∀ c d b k disp, FirstTraps (.ldv c d b k disp) .misaligned fun m s x => x = ea b disp (s.core m) ∧ x.toNat % 32 ≠ 0) ∧
  (∀ c b v k disp, FirstTraps (.stv c b v k disp) .misaligned fun m s x => x = ea b disp (s.core m) ∧ x.toNat % 32 ≠ 0) ∧
  ∀ c d b v stride size k, ∀ i ∈ ([.ldvs c d b stride size k, .stvs c b v stride size k] : List Instr),
    FirstTraps i .addrFault fun m s x => let q := s.core m
      let w := elBytes size
      ∃ l e r, q.strided b stride w k = l ++ (e, x) :: r ∧ (∀ y ∈ q.strided b stride w k, y.2.toNat % w = 0 ∧ spills q y.2) ∧
        q.place x.toNat = none ∧ ∀ y ∈ l, ∀ j ∈ [0, w - 1], isGlobal (y.2.toNat + j) = true ∧
          ∀ z, s.look m q.ctxNum (y.2.toNat + j) = .ok z → s.viewBad (z.key (y.2.toNat + j)) = false

/-- An access to an absent page asks the host for it, and its work waits or is aborted. The same accesses, where every
other member's guards are off and the core has no fence open, at an address of the global window whose page is not
present: a page request with the context, its generation, the page, the access type and the core goes to the host
unless one for the page is outstanding. A core that does not run an idempotent task then awaits the page, before the
word; an idempotent task is aborted: its node is READY again with one replay more, held for the page, and its cores
have no work. A core that awaits a page executes no word, whatever its turn. -/
def Obligations.AbsentPagesAreRequested : Prop :=
  -- the accesses of one aligned location: its address, its bytes, what it does
  let ea := fun (b : SReg) (disp : BitVec 16) (q : Core) => q.rs b + disp.signExtend 64
  let at_ := fun (b : SReg) (q : Core) => q.rs b
  let each := fun (P : Instr → AccKind → (Core → Word) → Nat → Prop) =>
    (∀ c d b size disp, P (.ld c d b size disp) accRead (ea b disp) (memBytes size)) ∧
    (∀ c b a size disp, P (.st c b a size disp) accWrite (ea b disp) (memBytes size)) ∧
    (∀ (c : Ctl) (d b : SReg) (v w : SImm) (t : AType), let n := atypeBits t / 8
      (∀ i ∈ ([.aadd c d b v t, .amin c d b v t, .amax c d b v t, .aand c d b v t, .aor c d b v t, .axor c d b v t, .axchg c d b v t,
          .acas c d b v w t, .anadd c b v t] : List Instr), P i accAtomic (at_ b) n) ∧
      P (.scld c d b t) accScRead (at_ b) n ∧ P (.scst c b v t) accScWrite (at_ b) n ∧ P (.scxch c d b v t) accScWrite (at_ b) n)
  -- a member that may make the access so far: its task is not one that forbids it, it is aligned, and its block may spill (R57)
  let fit := fun (k : AccKind) (n : Nat) (q : Core) (a : Word) => (k.global = true ∧ k.write = true → q.idem = false) ∧
    a.toNat % n = 0 ∧ ((headerOf q.hdr).noSpill = true → inStack a = false)
  (∀ (s : State) (ctx va code c : Nat) (bad : Bool), let page := alignDown va 4096
    (s.pageReqs.any (fun r => r.ctx == ctx && r.page == page) = true → s.pageRequest ctx va code 0 c bad = s) ∧
    (s.pageReqs.any (fun r => r.ctx == ctx && r.page == page) = false → ∃ no,
      let gen := ((s.ctxs.find ctx).map (·.gen)).getD 0
      let t := s.emit 0x23 [(12, 1, ctx), (13, 1, code), (14, 1, if bad then 1 else 0), (15, 1, 0), (16, 8, gen.toNat),
        (24, 8, page), (32, 2, c)]
      s.pageRequest ctx va code 0 c bad = { t with pageReqs := s.pageReqs ++ [⟨ctx, gen, page, code, 0, c, bad, no⟩] })) ∧
  each (fun i k a n => ∀ (s : State) (f : Fields) (m : CoreId) (x y : Miss), i.fields = some f → s.Ready f →
    m ∈ s.convoyOf s.cur → f.ctl.guards (s.core m) = true → (∀ j ∈ s.convoyOf s.cur, j ≠ m → f.ctl.guards (s.core j) = false) →
    let q := s.core m
    let va := (a q).toNat
    fit k n q (a q) → q.fences = [] → isGlobal va = true → s.look m q.ctxNum va = .error x → s.look m q.ctxNum (va + n - 1) = .error y →
    let asked := s.pageRequest q.ctxNum va k.code 0 m x.bad
    (q.idem = false → exec i s = .next (asked.modCore m fun q => { q with waitPage := some (alignDown va 4096) })) ∧
    (q.idem = true → ∀ w node z, q.work = some w → w.node = some node → s.node? w.ctx w.launch node = some z →
      (∀ j ∈ s.membersOf m, (s.core j).req ≠ some .kill) → ∃ t z', exec i s = .next t ∧ t.pageReqs = asked.pageReqs ∧
        t.node? w.ctx w.launch node = some z' ∧ z'.st = .ready ∧ z'.replays = min (2 ^ 32 - 1) (z.replays + 1) ∧
        z'.page = some (alignDown va 4096) ∧ z'.held = some q.inst ∧ ∀ j ∈ s.membersOf m, (t.core j).work = none)) ∧
  ∀ (s : State) (r : List Move) (c : CoreId), s.agenda = .core c :: r → c < 512 →
    let u : State := { s.tickOver with agenda := r }
    let l := (u.convoyOf c).headD c
    u.groupReq (u.groupOf l) = none → (u.core l).uiReady = false → (u.core l).pos = .word →
    (∀ m ∈ u.convoyOf c, (u.core m).running = true ∧ (u.core m).due = [] ∧ (u.core m).debugReq = false) →
    (∃ m ∈ u.convoyOf c, (u.core m).waitPage.isSome = true) → step s = .next u

/-- PRF, FLL and FENCE complete, and a completed fence has ordered what it names. On every ready convoy or lone core,
members in turn: PRF of an address outside the global window only passes; of another it requests the line into the
level that it names. FLL of a local address, and of an absent page, only passes, and of an address in no aperture or
on a page that may not be written it traps; FLL of a line of which the core has no buffered store uses the
translation, writes the tile's dirty bytes of the line to its home, and with cleaninv drops it from L1. FENCE with
classes on both sides is remembered with its sets, scope and position, and what the core has read ahead counts no
more: with gl in the successors all of it, with vw in either set that of view regions (log 11); with an empty side it
does nothing. When the predecessor steps of a fence can be taken, no store that the core issued before the fence, of a
class in the predecessor set, or with vw in either set of that class, is still buffered, and no load or atomic of such
a class is outstanding; with gs or gl no sequentially consistent operation is, and with a scope beyond the tile no
write of the tile waits at home; with ue, in work that is not idempotent, no pair that the core sent before the fence
is still on its way; with ei no engine operation, and with rp no put or send, issued before has still to read its
source (an operation's completion is not waited for). -/
def Obligations.PrefetchFlushAndFence : Prop :=
  ((∀ c b level disp, InTurns (.prf c b level disp) fun m s t => let ea := (s.core m).rs b + disp.signExtend 64
    isGlobal ea.toNat = false ∧ t = s ∨ isGlobal ea.toNat = true ∧ t = s.prefetch m c.ch level ea) ∧
  (∀ c b mode disp,
    (FirstTraps (.fll c b mode disp) .addrFault fun m s x => x = (s.core m).rs b + disp.signExtend 64 ∧ (s.core m).place x.toNat = none) ∧
    (FirstTraps (.fll c b mode disp) .protFault fun m s x => let q := s.core m
      x = q.rs b + disp.signExtend 64 ∧ ∃ va y, q.place x.toNat = some (.glob va false) ∧ s.look m q.ctxNum va = .ok y ∧
        s.viewBad (y.key va) = false ∧ q.mayUse true y.leaf = false) ∧
    InTurns (.fll c b mode disp) fun m s t => let q := s.core m
      let ea := q.rs b + disp.signExtend 64
      (∃ o, q.place ea.toNat = some (.lm o) ∧ t = s) ∨
      (∃ va, q.place ea.toNat = some (.glob va true) ∧ t = s) ∨
      ∃ va, q.place ea.toNat = some (.glob va false) ∧ ((∃ e, s.look m q.ctxNum va = .error e ∧ t = s) ∨
        ∃ x, s.look m q.ctxNum va = .ok x ∧ s.viewBad (x.key va) = false ∧ q.mayUse true x.leaf = true ∧ q.fences = [] ∧
          q.sc = none ∧ (∀ p ∈ q.stores, p.loc = false → ∀ y ∈ p.cells, y.1 / 128 ≠ x.key va / 128) ∧
          let u := (s.xlat m q.ctxNum va false).1
          t = if mode = .cleaninv then u.l1Expel (tileOf m) (x.key va / 128) else u.l1WriteBack (tileOf m) (x.key va / 128))) ∧
  ∀ c pred succ scope, InTurns (.fence c pred succ scope) fun m s t => t = s.modCore m fun q =>
    let keep : Byte := if q.idem then 0xDF else 0xFF
    if pred &&& keep = 0 ∨ succ &&& keep = 0 then q
    else { q with
      fences := q.fences ++ [{ pred := pred &&& keep, succ := succ &&& keep, scope := scope, upto := q.issue, pairs := s.pairsOut }]
      early := if meet (succ &&& keep) 0x01 then []
        else if meet ((pred &&& keep) ||| (succ &&& keep)) 0x80 then q.early.filter fun (a, _) => viewOf a == 0 else q.early
      issue := q.issue + 1 }) ∧
  (∀ (s t : State) (c : CoreId) (x : FenceRec), s.fenceSteps c x = some t →
    (∀ p ∈ (t.core c).stores, p.n < x.upto → p.inSet (x.pred ||| ((x.pred ||| x.succ) &&& 0x80)) = false) ∧
    (∀ l ∈ (t.core c).loads, l.n < x.upto → l.inSet x.pred = false) ∧
    (meet x.pred 0x03 = true → (t.core c).sc = none) ∧
    (meet x.pred 0x20 = true → (t.core c).idem = false → ∀ p ∈ t.flight, p.src = c → x.pairs ≤ p.num) ∧
    (∀ o ∈ t.opsOf (t.core c).inst, o.core = c → o.issued ≤ x.upto →
      meet x.pred 0x10 = true ∧ o.kind.readsSource = true ∨ meet x.pred 0x40 = true ∧ o.kind.ringSource = true →
      t.sourceRead o = true) ∧
    (2 ≤ x.reach → meet x.pred 0x03 = true → t.tileWaits (tileOf c) = false))

/-- The atomics read, combine and write one location, and return what it held. On every ready convoy or lone core, members
in turn: in non-idempotent work, with the checks passed and no fence or sequentially consistent operation before it,
an atomic completes: performed at issue, the location takes the sum, the typed minimum or maximum, the bitwise result,
the operand, or for ACAS the new value if the old one equals the compare value, and every form but ANADD gives the old
value, extended by its type; left outstanding by the core's plan (log entry 11), it waits in the core with its place
and the same new value. In an idempotent task it traps NONIDEM_OP. New values count modulo the width. That a returning
atomic on poisoned data leaves its register and pends the deferred trap is the model's reading (log 59). -/
def Obligations.AtomicsReturnTheOldValue : Prop :=
  let low := fun (t : AType) (x : Word) => x.toNat % 2 ^ atypeBits t
  let does := fun (i : Instr) (d : Option SReg) (b : SReg) (t : AType) (op : Core → AtomOp) (v : Core → Nat) (new : Core → Nat → Nat) =>
    let n := atypeBits t / 8
    (FirstTraps i .nonidemOp fun m s x => x = 0 ∧ (s.core m).idem = true) ∧
    (∀ q old, Rmw.new ⟨op q, t, v q⟩ old = new q old) ∧
    InTurns i fun m s z => let q := s.core m
      let a := q.rs b
      q.idem = false ∧ s.checkAccess m accAtomic [⟨a, n, n⟩] = none ∧ q.fences = [] ∧ q.sc = none ∧
      let x := s.resolve m true 3 (runBytes a n)
      let y := x.1.modCore m fun q =>
        let q := { q with defer := q.defer.drop 1 }
        if d.isSome then q.countEvent 0x0040 1 else q
      ((x.1.core m).defer.headD false = true ∧ z = y.modCore m fun q =>
        { q with loads := q.loads ++ [{ n := q.issue, pc := q.pc, blk := q.blk
                                        dst := match d with
                                          | none => .nothing
                                          | some r => .scalar r n (atypeSigned t)
                                        lanes := x.2.lanes, locs := x.2.locs, rmw := some ⟨op (s.core m), t, v (s.core m)⟩ }]
                 issue := q.issue + 1 }) ∨
      ((x.1.core m).defer.headD false = false ∧ ∃ w l ls u old bad,
        y.ownBefore m x.2.lanes = some w ∧ x.2.lanes = l :: ls ∧ w.engineRmw l.home l.pa t (new q) = some (u, old, bad) ∧
        z = u.modCore m fun q =>
          let q := { q with early := q.early.filter fun (k, _) => k / 32 != l.pa / 32 }
          match d with
          | none => q
          | some r => if bad then { q with due := q.due ++ [(q.pc, q.blk, a)] } else q.ws r (atypeExtend t old))
  (∀ c d b v t, let x := fun (q : Core) => low t (v.val q)
    does (.aadd c d b v t) (some d) b t (fun _ => .add) x (fun q old => old + x q) ∧
    does (.amin c d b v t) (some d) b t (fun _ => .min) x
      (fun q old => if atypeInt t (x q) < atypeInt t old then x q else old) ∧
    does (.amax c d b v t) (some d) b t (fun _ => .max) x
      (fun q old => if atypeInt t old < atypeInt t (x q) then x q else old) ∧
    does (.aand c d b v t) (some d) b t (fun _ => .and) x (fun q old => old &&& x q) ∧
    does (.aor c d b v t) (some d) b t (fun _ => .or) x (fun q old => old ||| x q) ∧
    does (.axor c d b v t) (some d) b t (fun _ => .xor) x (fun q old => old ^^^ x q) ∧
    does (.axchg c d b v t) (some d) b t (fun _ => .xchg) x (fun q _ => x q)) ∧
  (∀ c d b cv nv t, does (.acas c d b cv nv t) (some d) b t (fun q => .cas (low t (cv.val q))) (fun q => (nv.val q).toNat)
    fun q old => if old = low t (cv.val q) then (nv.val q).toNat else old) ∧
  ∀ c b v t, does (.anadd c b v t) none b t (fun _ => .add) (fun q => (v.val q).toNat) fun q old => old + (v.val q).toNat

/-- Engine operations and writes at home change exactly their bytes. For a location within one line of plain memory that
the engine of its home's die holds, that no slice holds, and that has no pending update, no migration and no poison,
the operation reads the little-endian value at home; the location then holds the new value modulo its width, and every
other byte of plain memory is as before. Where every L2 tag points at an entry, a write of distinct bytes of one line
of plain memory, of HBM, the capacity tier or the host window, whose line no slice holds, leaves at home exactly its
bytes changed; every other byte reads at any home as before (the host's memory too, but for records of a tier write),
and the write answers nothing only while the line migrates, a tier slot is wanting, or a full-line write finds no
entry in its slice. -/
def Obligations.HomeAccessesAreExact : Prop :=
  (∀ (s u : State) (h pk : Nat) (t : AType) (new : Nat → Nat) (old : Nat) (bad : Bool),
    let n := atypeBits t / 8
    pk % 128 + n ≤ 128 → pk < 2 ^ 52 → onTier pk = false → (s.die (h / 2 / 16)).held.contains (pk / 128) = true →
    (∀ k, s.l2At k (pk / 128) = none) → s.sorterPairs = [] → s.poison.contains (pk / 128) = false →
    s.engineRmw h pk t new = some (u, old, bad) →
    old = ofLe ((List.range n).map fun i => s.homeByte h (pk + i)) ∧ bad = false ∧
    ofLe ((List.range n).map fun i => u.homeByte h (pk + i)) = new old % 2 ^ atypeBits t ∧
    ∀ a < 2 ^ 52, a < pk ∨ pk + n ≤ a → u.plainByte a = s.plainByte a) ∧
  (∀ (s : State) (core : Option CoreId) (h line : Nat) (cells : Mem) (via : Via),
    (∀ x ∈ cells, x.1 / 128 = line) → cells ≠ [] → (cells.map (·.1)).Nodup → 128 * line < 2 ^ 52 →
    (∀ k, s.l2At k line = none) →
    (∀ k l t, (s.slice k).tags.find l = some t → ((s.slice k).data.find t.dptr).isSome = true) →
    (∀ t, s.homeWriteNow core h cells via = some t →
      (∀ x ∈ cells, t.homeByte h x.1 = x.2) ∧
      (∀ a < 2 ^ 52, a ∉ cells.map (·.1) → (onTier (128 * line) = true → storeOf a ≠ .host) → ∀ k,
        t.homeByte k a = s.homeByte k a)) ∧
    (s.homeWriteNow core h cells via = none → s.migrating line = true ∨ onTier (128 * line) = true ∨
      (via ≠ .store ∧ cells.length = 128)))

/-- SCLD, SCST and SCXCH issue, perform at a window, and complete. On every ready convoy or lone core, members in turn:
with its checks passed and its implied fence taken, each operation is outstanding with its place and value, and on a
tile whose cycles are not stretched reaches Sirocco for the next window; stores and exchanges trap NONIDEM_OP in an
idempotent task. When a window closes with every engine free, every operation that had reached Sirocco has been
performed and every other is a window nearer; without one, nothing changes. Completion clears the operation, lets
later loads take no older line and, for a load or exchange of sound data, writes the old value extended by its type.
That one of poisoned data leaves its register is the model's reading (log 59). -/
def Obligations.SequentiallyConsistentOperations : Prop :=
  (let issues := fun (i : Instr) (kind : ScKind) (d b : SReg) (v : Core → Word) (t : AType) =>
    let n := atypeBits t / 8
    (kind ≠ .load → FirstTraps i .nonidemOp fun m s x => x = 0 ∧ (s.core m).idem = true) ∧
    InTurns i fun m s z => let q := s.core m
      let a := q.rs b
      (kind = .load ∨ q.idem = false) ∧ s.checkAccess m (if kind = .load then accScRead else accScWrite) [⟨a, n, n⟩] = none ∧
      q.fences = [] ∧ q.sc = none ∧
      ∃ u l ls, s.fenceSteps m { pred := 0xFF, succ := 0xFF, scope := .package, upto := q.issue, pairs := s.pairsOut } = some u ∧
        let x := u.resolve m (kind != .load) 3 (runBytes a n)
        x.2.lanes = l :: ls ∧ z = x.1.modCore m fun q =>
          let o : ScOp := { kind := kind, d := d, t := t, pa := l.pa, home := l.home, va := a, v := v (s.core m), pc := q.pc, blk := q.blk
                            late := if (x.1.tile (tileOf m)).stretch = 0 then 0 else Config.scLate x.1.tick m }
          { q with early := [], sc := some o }
  (∀ c d b t, issues (.scld c d b t) .load d b (fun _ => 0) t) ∧
  (∀ c b v t, issues (.scst c b v t) .store 0 b (fun q => v.val q) t) ∧
  ∀ c d b v t, issues (.scxch c d b v t) .xchg d b (fun q => v.val q) t) ∧
  (∀ s : State, (∀ c, (s.core c).sc = none) → exec .siroccoWindowClose s = .next s) ∧
  (∀ s t : State, s.scPerform (List.range 512) = some t → exec .siroccoWindowClose s = .next t ∧
    ∀ c < 512, ∀ o, (s.core c).sc = some o → ∃ o', (t.core c).sc = some o' ∧
      (o.performed = none → o.late = 0 → o'.performed.isSome = true) ∧
      (o.performed = none → 0 < o.late → o' = { o with late := o.late - 1 }) ∧ (o.performed.isSome = true → o' = o)) ∧
  ∀ (s : State) (c : CoreId) (o : ScOp), (s.core c).sc = some o →
    (o.performed = none → exec (.scOperationComplete c) s = .next s) ∧
    ∀ old, o.performed = some old → exec (.scOperationComplete c) s = .next ((s.freshLines c).modCore c fun q =>
      if o.kind = .store ∨ o.bad = true then { q with sc := none }
      else ({ q with sc := none } : Core).ws o.d (atypeExtend o.t old.toNat))

/-- SOBJ, REL and ACQ. On every ready convoy or lone core, members in turn: SOBJ sets or, with length 0, clears a slot's
range, and traps BAD_OBJECT for a number of 65,536 or more, a misaligned base or length, or a length above 2^36. REL
with every store to the object's ranges performed raises its count by one and gives the new count; it traps NONIDEM_OP
in an idempotent task. ACQ gives the count and drops the ranges' lines from the tile's L1, but those of pages that are
stable now (R309), with what the core has read ahead of them. SYNC_LINE_RETURN ends the hold of a line. -/
def Obligations.SynchronisationObjects : Prop :=
  ((∀ c obj slot base len, let i : Instr := .sobj c obj slot base len
      (FirstTraps i .badObject fun m s x => let q := s.core m
        let o := (obj.val q).toNat
        let off := (q.rs base).toNat % 128 ≠ 0 ∨ (q.rs len).toNat % 128 ≠ 0
        x = 1 ∧ 65536 ≤ o ∨ x = 2 ∧ o < 65536 ∧ off ∨ x = 3 ∧ o < 65536 ∧ ¬ off ∧ 2 ^ 36 < (q.rs len).toNat) ∧
      InTurns i fun m s t => let q := s.core m
        let k := q.ctxNum * 65536 + (obj.val q).toNat
        let x := s.objs.get k {}
        (obj.val q).toNat < 65536 ∧ (q.rs base).toNat % 128 = 0 ∧ (q.rs len).toNat % 128 = 0 ∧ (q.rs len).toNat ≤ 2 ^ 36 ∧
          (q.rs len = 0 ∧ t = { s with objs := s.objs.set k { x with ranges := x.ranges.erase slot.toNat } } ∨
            q.rs len ≠ 0 ∧ rangeFail q (q.rs base) (q.rs len) = none ∧
              t = { s with objs := s.objs.set k { x with ranges := x.ranges.set slot.toNat (q.rs base, q.rs len) } })) ∧
    (∀ c d obj,
      (FirstTraps (.rel c d obj) .nonidemOp fun m s x => x = 0 ∧ (s.core m).idem = true) ∧
      (FirstTraps (.rel c d obj) .badObject fun m s x => x = 1 ∧ (s.core m).idem = false ∧ 65536 ≤ (obj.val (s.core m)).toNat) ∧
      InTurns (.rel c d obj) fun m s t => let q := s.core m
        let k := q.ctxNum * 65536 + (obj.val q).toNat
        q.idem = false ∧ (obj.val q).toNat < 65536 ∧ ∃ u, s.publishRanges m (s.objLines q.ctxNum (s.obj k)) = some u ∧
          t = (u.setObj k { u.obj k with count := (u.obj k).count + 1 }).modCore m fun q => q.ws d ((u.obj k).count + 1)) ∧
    ∀ c d obj,
      (FirstTraps (.acq c d obj) .badObject fun m s x => x = 1 ∧ 65536 ≤ (obj.val (s.core m)).toNat) ∧
      InTurns (.acq c d obj) fun m s t => let q := s.core m
        let x := s.obj (q.ctxNum * 65536 + (obj.val q).toNat)
        (obj.val q).toNat < 65536 ∧
        t = (s.l1Sweep (tileOf m) true fun line _ => lineIn (s.objLines q.ctxNum x) line && !s.lineStb line).modCore m fun q =>
          { q with early := q.early.filter fun (a, _) =>
            !(s.objLines q.ctxNum x).any fun (b, e) => decide (b ≤ a) && decide (a < e) }.ws d x.count) ∧
  ∀ (s : State) (line : Nat), ∃ t, exec (.syncLineReturn line) s = .next t ∧ t = { s with dies := t.dies } ∧
    ∀ d, (t.die d).held = (s.die d).held.filter (· != line)

/-- BARA, BARW, BART, BARM and PHASE. On every ready convoy or lone core, members in turn: BARM writes a membership and
gives the old one; its value and the barrier's state are checked. BARA on an idle barrier that others share leaves the
arrival; without its wait it goes on, with it the members stand at the word until the phase completes, and then go on
with the barrier idle. BARW traps with subcode 4 on an idle barrier, waits on an arrived one, and goes on behind a
completed one; BART gives 0 only while the phase is open; both raise a fault that the phase has left, on a lone core
with nothing outstanding whose trap vector's code waits for no update (R373). PHASE sets the barrier's phase. -/
def Obligations.BarrierWords : Prop :=
  let b := fun (n : BitVec 7) (q : Core) => q.bar n.toNat
  -- the arrival of a member: its barrier, the probe's count of passes, and others in its domain
  let arrives := fun (n : BitVec 7) (arr : Arrival) (stays : Bool) (m : CoreId) (s t : State) => let q := s.core m
    let arrived : Bar := { b n q with
      st := .arrived, arr := some arr, upto := q.issue, fault := none, owed := false
      mark := if stays then some q.pc else none, drained := false }
    let k := s.domainKey m n.toNat
    memOn (b n q).mem = true ∧ (b n q).st = .idle ∧
    t = { s.modCore m (fun q => q.setBar n.toNat arrived) with probes := s.probes.set k { s.probes.get k {} with passes := 0 } } ∧
    (2 ≤ (t.seats m n.toNat).length ∨ memLevel (b n q).mem = 5 ∧ 1 < s.ring.n)
  -- the completed phase of a word that has stood: the member goes on
  let leaves := fun (n : BitVec 7) (m : CoreId) (s t : State) => let q := s.core m
    (b n q).st = .done ∧ (b n q).mark = some q.pc ∧ (b n q).fault = none ∧ (b n q).owed = false ∧ t = s.leaveBarrier m n.toNat
  -- a fault that the phase has left, on a lone core
  let raises := fun (i : Instr) (n : BitVec 7) (k : Nat) (s : State) => (s.core s.cur).Quiet → s.busyVector [s.cur] = none →
    let q := s.core s.cur
    exec i s = .next ((s.modCore s.cur fun q => q.setBar n.toNat (b n q).over).takeTrap [s.cur] s.cur .barrierFault
      (BitVec.ofNat 64 k) q.pc q.blk true false)
  let fault := fun (k : Nat) (x : Word) => x = BitVec.ofNat 64 k
  (∀ c d v n,
    (FirstTraps (.barm c d v n) .barrierFault fun m s x => ∃ k, (s.core m).memberFault n.toNat (v.val (s.core m)) = some k ∧ fault k x) ∧
    InTurns (.barm c d v n) fun m s t => let q := s.core m
      q.memberFault n.toNat (v.val q) = none ∧ t = s.modCore m fun q =>
        (q.setBar n.toNat { b n q with mem := (v.val q).setWidth 16 }).ws d ((b n q).mem.setWidth 64)) ∧
  (∀ c mode n, InTurns (.phase c mode n) fun m s t => t = s.modCore m fun q =>
    q.setBar n.toNat { q.bar n.toNat with comm := decide (mode = .comm) }) ∧
  (∀ c opts n, let i : Instr := .bara c opts n
    (FirstTraps i .barrierFault fun m s x => let y := b n (s.core m)
      fault 5 x ∧ memOn y.mem = false ∧ (y.st = .idle ∨ y.mark ≠ some (s.core m).pc) ∨
      fault 3 x ∧ memOn y.mem = true ∧ y.st ≠ .idle ∧ y.mark ≠ some (s.core m).pc) ∧
    let free := fun (m : CoreId) (s : State) => memLevel (b n (s.core m)).mem = 5 → opts.getLsbD 1 = true ∨ s.putsOpen m = false
    (opts.getLsbD 0 = true → InTurns i fun m s t => free m s ∧ arrives n (.plain (opts.getLsbD 1)) false m s t) ∧
    (opts.getLsbD 0 = false → (ArriveInTurns i fun m s t => free m s ∧ arrives n (.plain (opts.getLsbD 1)) true m s t) ∧
      InTurns i (leaves n))) ∧
  (∀ c n, let i : Instr := .barw c n
    (FirstTraps i .barrierFault fun m s x => fault 4 x ∧ (b n (s.core m)).st = .idle) ∧
    (Waits i fun m s => (b n (s.core m)).st = .arrived) ∧
    InTurns i fun m s t => (b n (s.core m)).st = .done ∧ (b n (s.core m)).fault = none ∧ t = s.leaveBarrier m n.toNat) ∧
  (∀ c d n, InTurns (.bart c d n) fun m s t => let x := b n (s.core m)
    x.st = .idle ∧ t = s.modCore m (fun q => q.wp d true) ∨
    x.st = .arrived ∧ t = s.modCore m (fun q => q.wp d false) ∨
    x.st = .done ∧ x.fault = none ∧ t = (s.leaveBarrier m n.toNat).modCore m fun q => q.wp d true) ∧
  ∀ (s : State) (f : Fields), s.Alone f → ∀ c d n k, (b n (s.core s.cur)).st = .done → (b n (s.core s.cur)).fault = some k →
    (Instr.fields (.barw c n) = some f → raises (.barw c n) n k s) ∧ (Instr.fields (.bart c d n) = some f → raises (.bart c d n) n k s)

/-- PDRAIN, VPMRG, ECSUM and CONVOY on arrive, wait, and go on behind their phase. On every ready convoy or lone core,
members in turn: on an idle barrier of their level, shared with others, each leaves its own kind of arrival and the
members stand at the word; behind its completed phase without a fault they go on with the barrier idle. PDRAIN outside
a communication phase traps with subcode 6, VPMRG above cluster level and ECSUM at level 5 with 8; ECSUM traps
NONIDEM_OP in an idempotent task. CONVOY on, outside a convoy, does the same on a lone core. A fault left by
completion traps there, subcode as TRAP_INFO, and consumes the phase, on a lone core with nothing outstanding whose
trap vector's code waits for no update (R373). -/
def Obligations.WordsThatArriveAndWait : Prop :=
  let b := fun (n : BitVec 7) (q : Core) => q.bar n.toNat
  -- the arrival of a member: its barrier, the probe's count of passes, and others in its domain
  let arrives := fun (n : BitVec 7) (arr : Arrival) (stays : Bool) (m : CoreId) (s t : State) => let q := s.core m
    let arrived : Bar := { b n q with
      st := .arrived, arr := some arr, upto := q.issue, fault := none, owed := false
      mark := if stays then some q.pc else none, drained := false }
    let k := s.domainKey m n.toNat
    memOn (b n q).mem = true ∧ (b n q).st = .idle ∧
    t = { s.modCore m (fun q => q.setBar n.toNat arrived) with probes := s.probes.set k { s.probes.get k {} with passes := 0 } } ∧
    (2 ≤ (t.seats m n.toNat).length ∨ memLevel (b n q).mem = 5 ∧ 1 < s.ring.n)
  -- the completed phase of a word that has stood: the member goes on
  let leaves := fun (n : BitVec 7) (m : CoreId) (s t : State) => let q := s.core m
    (b n q).st = .done ∧ (b n q).mark = some q.pc ∧ (b n q).fault = none ∧ (b n q).owed = false ∧ t = s.leaveBarrier m n.toNat
  -- a fault that the phase has left, on a lone core
  let raises := fun (i : Instr) (n : BitVec 7) (k : Nat) (s : State) => (s.core s.cur).Quiet → s.busyVector [s.cur] = none →
    let q := s.core s.cur
    exec i s = .next ((s.modCore s.cur fun q => q.setBar n.toNat (b n q).over).takeTrap [s.cur] s.cur .barrierFault
      (BitVec.ofNat 64 k) q.pc q.blk true false)
  let fault := fun (k : Nat) (x : Word) => x = BitVec.ofNat 64 k
  let free := fun (n : BitVec 7) (m : CoreId) (s : State) => memLevel (b n (s.core m)).mem = 5 → s.putsOpen m = false
  (∀ c d n, let i : Instr := .pdrain c d n
    (ArriveInTurns i fun m s t => (b n (s.core m)).comm = true ∧ free n m s ∧ arrives n (.drain d) true m s t) ∧ InTurns i (leaves n) ∧
    FirstTraps i .barrierFault fun m s x => let y := b n (s.core m)
      fault 6 x ∧ memOn y.mem = true ∧ y.st = .idle ∧ y.comm = false) ∧
  (∀ c d a n, let i : Instr := .vpmrg c d a n
    (ArriveInTurns i fun m s t => let q := s.core m
      1 ≤ memLevel (b n q).mem ∧ memLevel (b n q).mem ≤ 2 ∧ arrives n (.merge d q.long (BitVec.ofNat 2048 (q.rv a))) true m s t) ∧
    InTurns i (leaves n) ∧
    FirstTraps i .barrierFault fun m s x => let y := b n (s.core m)
      fault 8 x ∧ memOn y.mem = true ∧ y.st = .idle ∧ 2 < memLevel y.mem) ∧
  (∀ c r opt n, let i : Instr := .ecsum c r opt n
    (FirstTraps i .nonidemOp fun m s x => x = 0 ∧ (s.core m).idem = true) ∧
    (ArriveInTurns i fun m s t => let q := s.core m
      q.idem = false ∧ memLevel (b n q).mem ≠ 5 ∧ s.checkAccess m accWrite [⟨q.rs r, 128, 128⟩] = none ∧
      ∃ o, q.place (q.rs r).toNat = some (.lm o) ∧ arrives n (.counters o none (decide (opt = .clear))) true m s t) ∧
    (InTurns i fun m s t => (s.core m).idem = false ∧ leaves n m s t) ∧
    FirstTraps i .barrierFault fun m s x => let y := b n (s.core m)
      fault 8 x ∧ (s.core m).idem = false ∧ memOn y.mem = true ∧ y.st = .idle ∧ memLevel y.mem = 5) ∧
  ∀ (s : State) (f : Fields), s.Alone f → let q := s.core s.cur
    let left := fun (i : Instr) (n : BitVec 7) => ∀ k, (b n q).st = .done → (b n q).mark = some q.pc → (b n q).fault = some k → raises i n k s
    (∀ c d n, Instr.fields (.pdrain c d n) = some f → left (.pdrain c d n) n) ∧
    (∀ c d a n, Instr.fields (.vpmrg c d a n) = some f → left (.vpmrg c d a n) n) ∧
    (∀ c r opt n, Instr.fields (.ecsum c r opt n) = some f → q.idem = false → left (.ecsum c r opt n) n) ∧
    ∀ c n, Instr.fields (.convoy c (.on n)) = some f → left (.convoy c (.on n)) n ∧
      (∀ t, free n s.cur s → arrives n .convoy true s.cur s t → exec (.convoy c (.on n)) s = .next t) ∧
      ∀ t, leaves n s.cur s t → s.Does (.convoy c (.on n)) f t

/-- BARRIER_PHASE_COMPLETE, PROBE_PASS and VPMRG_MERGE. While a participant has not arrived, neither a completion nor a
probe pass changes anything. When every one has, of a phase of plain arrivals with their fenced accesses performed,
each participant's barrier is done, with no fault and its membership kept. A probe pass over participants with
something sent and not received on its path, or some of it received since the last pass, only counts; one that finds
neither completes a phase of drains, which gives every participant the number of passes. A phase of merges of one form
leaves each participant the joint pairs and its cluster's merge unit the phase; the unit returns the pairs of the
phase at its head to the registers. The model's readings: who counts as a participant (log 18), what counts as sent
and not received at the probe's interfaces, the ring port among them (log 19), and a ring-level phase completing by
this package's arrivals (log 47). -/
def Obligations.PhasesComplete : Prop :=
  ∀ (s : State) (c : CoreId) (b : Nat), let l := s.seats c b
    let level := memLevel ((s.core c).bar b).mem
    (s.allArrived c b = false → exec (.barrierPhaseComplete c b) s = .next s ∧ exec (.probePass c b) s = .next s) ∧
    (∀ u, s.allArrived c b = true → (l.map (·.core)).Nodup →
      (∀ x ∈ l, x.saved = none ∧ ∃ nofence, x.bar.arr = some (.plain nofence)) →
      s.releaseSeats level false l = some u →
      ∃ t, exec (.barrierPhaseComplete c b) s = .next t ∧ t = { u with cores := t.cores } ∧
        (∀ x ∈ l, (t.core x.core).bar b = { x.bar with st := .done, fault := none, drained := false }) ∧
        ∀ k, k ∉ l.map (·.core) → t.core k = u.core k) ∧
    (s.allArrived c b = true → (∃ x ∈ l, x.isDrain = true) →
      let old := s.probes.get (s.domainKey c b) {}
      let black := s.receivedSince ((512 + (s.core c).ctxNum) :: l.map (·.core)) level old.seen
      let sum := (l.map fun x => s.inFlight x.core (s.seatCore x).inst level).sum
      let next : State := { s with probes := s.probes.set (s.domainKey c b) ⟨old.passes + 1, s.receipts⟩ }
      (black = true ∨ sum ≠ 0 → exec (.probePass c b) s = .next next) ∧
      (black = false → sum = 0 → (l.map (·.core)).Nodup → (∀ x ∈ l, x.saved = none ∧ x.isDrain = true) →
        ∀ u, next.releaseSeats level true l = some u →
        ∃ t, exec (.probePass c b) s = .next t ∧ t = { u with cores := t.cores } ∧
          (∀ x ∈ l, (t.core x.core).bar b = { x.bar with st := .done, fault := none, comm := false, drained := true } ∧
            ∀ d, x.bar.arr = some (.drain d) → d ≠ 0 → (t.core x.core).rs d = BitVec.ofNat 64 (old.passes + 1)) ∧
          ∀ k, k ∉ l.map (·.core) → t.core k = u.core k)) ∧
    (∀ u long, s.allArrived c b = true → (l.map (·.core)).Nodup →
      (∀ x ∈ l, x.saved = none ∧ ∃ d v, x.bar.arr = some (.merge d long v)) →
      s.releaseSeats level false l = some u →
      ∃ t, exec (.barrierPhaseComplete c b) s = .next t ∧
        (∀ x ∈ l, ∀ d v, x.bar.arr = some (.merge d long v) → (t.core x.core).bar b =
          { x.bar with st := .done, fault := none, drained := false, arr := some (.merge d long (mergeOf l)), owed := true }) ∧
        (t.cluster (clusterOf c)).merges = (u.cluster (clusterOf c)).merges ++
          [{ b := b, seats := l.map fun x => (x.core, (u.core x.core).inst) }]) ∧
    ((s.cluster (clusterOf c)).merges = [] → ∃ t, exec (.vpmrgMerge c b) s = .next t ∧ t = { s with clusters := t.clusters } ∧
      ∀ k, t.cluster k = s.cluster k) ∧
    ∀ seats r, (s.cluster (clusterOf c)).merges = ⟨b, seats⟩ :: r → (seats.map (·.1)).Nodup →
      (c, (s.core c).inst) ∈ seats →
      (∀ y ∈ seats, (s.core y.1).inst = y.2 ∧ (s.core y.1).work.isSome = true) →
      ∃ t, exec (.vpmrgMerge c b) s = .next t ∧ t = { s with cores := t.cores, clusters := t.clusters } ∧
        (t.cluster (clusterOf c)).merges = r ∧ (∀ k, k ∉ seats.map (·.1) → t.core k = s.core k) ∧
        ∀ y ∈ seats, ∀ d long v, ((s.core y.1).bar b).owed = true →
          ((s.core y.1).bar b).arr = some (.merge d long v) → ((t.core y.1).bar b).owed = false ∧
          (if long then (t.core y.1).l.get d.toNat 0 = v else (t.core y.1).v.get d.toNat 0 = v.setWidth 256)

/-- TLRD, TLWAIT, TLPOLL, JWAIT and JPOLL. On every ready convoy or lone core, members in turn: TLRD gives C or I. A wait
or test of a number beyond I traps TIMELINE_AHEAD, with I as information, or the tag for JWAIT and JPOLL, which also
trap so on a tag of no timeline. At C or below, TLWAIT goes on behind the acquire of the operations' lines, JWAIT
gives the operation's kept status, and the tests give 1; above C the waits wait and the tests give 0. -/
def Obligations.TimelineWords : Prop :=
  let acq := fun (s : State) (m : CoreId) (t : Timeline) (n : Nat) (g : Core → Core) => (s.acquire m t n).modCore m g
  -- a word that names, by a number or a tag, operations up to `n` of a timeline; `info` is reported of one beyond I
  let reaches := fun (i : Instr) (names : Core → Timeline → Nat → Prop) (info : Core → Timeline → Word)
      (hit : Timeline → Nat → Core → Core) => 
    (FirstTraps i .timelineAhead fun m s x => let q := s.core m
      ∃ t n, names q t n ∧ (q.tl t).issued < n ∧ x = info q t) ∧
    (Waits i fun m s => let q := s.core m
      ∃ t n, names q t n ∧ n ≤ (q.tl t).issued ∧ (q.tl t).done < n) ∧
    InTurns i fun m s u => let q := s.core m
      ∃ t n, names q t n ∧ n ≤ (q.tl t).issued ∧ n ≤ (q.tl t).done ∧ u = acq s m t n (hit t n)
  let tests := fun (i : Instr) (d : PReg) (names : Core → Timeline → Nat → Prop) (info : Core → Timeline → Word) =>
    (FirstTraps i .timelineAhead fun m s x => let q := s.core m
      ∃ t n, names q t n ∧ (q.tl t).issued < n ∧ x = info q t) ∧
    InTurns i fun m s u => let q := s.core m
      ∃ t n, names q t n ∧ n ≤ (q.tl t).issued ∧ ((q.tl t).done < n ∧ u = s.modCore m (fun q => q.wp d false) ∨
        n ≤ (q.tl t).done ∧ u = acq s m t n fun q => q.wp d true)
  let named := fun (tl : Timeline) (v : SImm) (q : Core) (t : Timeline) (n : Nat) => t = tl ∧ n = (v.val q).toNat
  let tagged := fun (r : SReg) (q : Core) (t : Timeline) (n : Nat) =>
    timelineOf ((q.rs r).toNat / 2 ^ 61) = some t ∧ n = (q.rs r).toNat % 2 ^ 61
  let count := fun (q : Core) (t : Timeline) => BitVec.ofNat 64 (q.tl t).issued
  (∀ c d t which, InTurns (.tlrd c d t which) fun m s u => u = s.modCore m fun q =>
    q.ws d (BitVec.ofNat 64 (if which = .done then (q.tl t).done else (q.tl t).issued))) ∧
  (∀ c t v, reaches (.tlwait c t v) (named t v) count fun _ _ q => q) ∧
  (∀ c d t v, tests (.tlpoll c d t v) d (named t v) count) ∧
  (∀ c d r, reaches (.jwait c d r) (tagged r) (fun q _ => q.rs r) fun t n q => q.ws d (((q.tl t).statusOf n).setWidth 64)) ∧
  (∀ c d r, tests (.jpoll c d r) d (tagged r) fun q _ => q.rs r) ∧
  ∀ c d e r, ∀ i ∈ ([.jwait c d r, .jpoll c e r] : List Instr), FirstTraps i .timelineAhead fun m s x =>
    x = (s.core m).rs r ∧ timelineOf (x.toNat / 2 ^ 61) = none

/-- Timelines count completions, and handles commit slots, in order. Completing an issued operation of a timeline raises C
past every operation that is complete, at most to I; C never falls, and an operation that completes ahead of an
earlier one waits beyond C. Where every finished slot lies between the committed and the claimed count, finishing one
more claimed slot never moves a count back, nor past its claims; a slot that is not the next one in line leaves the
committed counts where they are, and the next one moves its count on. -/
def Obligations.CompletionsAndCommitsAreInOrder : Prop :=
  (∀ (x : Tline) (n : Nat) (status : Byte), x.done < n → n ≤ x.issued → n ∉ x.beyond → (∀ m ∈ x.beyond, x.done < m ∧ m ≤ x.issued) →
    let y := x.complete n status
    x.done ≤ y.done ∧ y.done ≤ x.issued ∧ y.issued = x.issued ∧
    (n ≠ x.done + 1 → y.done = x.done) ∧ (n = x.done + 1 → n ≤ y.done) ∧
    (∀ m, x.done < m → m ≤ y.done → m = n ∨ m ∈ x.beyond) ∧
    ∀ m, y.done < m → (m ∈ y.beyond ↔ m = n ∨ m ∈ x.beyond)) ∧
  (∀ (x : Handle) (n : Nat), x.c ≤ x.d → x.p ≤ x.q → (∀ m ∈ x.doneP, x.p ≤ m ∧ m < x.q) → (∀ m ∈ x.doneC, x.c ≤ m ∧ m < x.d) →
    (x.p ∉ x.doneP) →
    (x.p ≤ n → n < x.q → n ∉ x.doneP → let y := x.commitP n
      x.p ≤ y.p ∧ y.p ≤ x.q ∧ y.q = x.q ∧ (n ≠ x.p → y.p = x.p) ∧ (n = x.p → x.p < y.p)) ∧
    (x.c ≤ n → n < x.d → n ∉ x.doneC → let y := x.commitC n
      x.c ≤ y.c ∧ y.c ≤ x.d ∧ y.d = x.d ∧ (n ≠ x.c → x.c ∉ x.doneC → y.c = x.c) ∧ (n = x.c → x.c < x.p → x.c < y.c)))

/-- A vector result writes its enabled elements and leaves everything else. Merging results of width 8, 16, 32 or 64 into
a vector register gives every enabled element its result, cut to the width, and leaves every other element of the
register as it was; every other vector register, every scalar register, predicate and mask is unchanged. An element is
enabled where no mask is named, and by a mask where the mask's bit of the element's lowest byte is set, so that in
short mode only its low 32 bits count. -/
def Obligations.VectorElementsAreMerged : Prop :=
  ∀ (q : Core) (d : VReg) (k : KOpt) (w : Nat) (f : Nat → Nat), w ∈ [8, 16, 32, 64] →
    let y := q.merge d k w f
    (∀ e < q.count w, elem w (y.rv d) e = if q.enabled k w e then f e % 2 ^ w else elem w (q.rv d) e) ∧
    (∀ r, r ≠ d → y.rv r = q.rv r) ∧ y.s = q.s ∧ y.p = q.p ∧ y.k = q.k ∧ y.share = q.share ∧
    ∀ e < q.count w, q.enabled none w e = true ∧ ∀ r, q.enabled (some r) w e = (q.rk r).getLsbD (e * w / 8)

/-- Integer, bitwise, shift and float arithmetic, special functions and reductions of the vector unit. Element by element,
the sums, differences, saturated sums and differences, low and high products, typed minima and maxima, bitwise results
and shifts by the low bits of the count, in the element's width; VABS wraps at the most negative value. Each core of a
ready convoy changes its destination register only. VFADD, VFSUB, VFMUL and VFFMA are rounded once from flushed
operands, VFMIN and VFMAX order flushed operands; the special functions give the unit's results; VRSUM adds integers
exactly into the scalar and floats in the fixed pairwise tree, in FP32; VRMAX and VRMIN reduce in the type's order.
Disabled elements count as the operation's identity. -/
def Obligations.VectorArithmeticResults : Prop :=
  (let each2 := fun (i : Instr) (d a : VReg) (b : VSrc) (k : KOpt) (t : VType) (g : Nat → Nat → Nat) =>
    EachDoes i fun q => q.merge d k t.width fun e => g (elem t.width (q.rv a) e) (b.elemAt q t.width e)
  (∀ c d a b k t, each2 (.vadd c d a b k t) d a b k t fun x y => x + y) ∧
  (∀ c d a b k t, each2 (.vsub c d a b k t) d a b k t fun x y => t.ofInt (t.int x - t.int y)) ∧
  (∀ c d a b k t, each2 (.vadds c d a b k t) d a b k t fun x y => t.sat (t.int x + t.int y)) ∧
  (∀ c d a b k t, each2 (.vsubs c d a b k t) d a b k t fun x y => t.sat (t.int x - t.int y)) ∧
  (∀ c d a b k t, each2 (.vmul c d a b k t) d a b k t fun x y => x * y) ∧
  (∀ c d a b k t, each2 (.vmulh c d a b k t) d a b k t fun x y => t.ofInt (t.int x * t.int y / 2 ^ t.width)) ∧
  (∀ c d a b k t, each2 (.vmin c d a b k t) d a b k t fun x y => if t.int y < t.int x then y else x) ∧
  (∀ c d a b k t, each2 (.vmax c d a b k t) d a b k t fun x y => if t.int x < t.int y then y else x) ∧
  (∀ c d a b k t, each2 (.vand c d a b k t) d a b k t fun x y => x &&& y) ∧
  (∀ c d a b k t, each2 (.vor c d a b k t) d a b k t fun x y => x ||| y) ∧
  (∀ c d a b k t, each2 (.vxor c d a b k t) d a b k t fun x y => x ^^^ y) ∧
  (∀ c d a b k t, each2 (.vshl c d a b k t) d a b k t fun x y => x * 2 ^ (y % t.width)) ∧
  (∀ c d a b k t, each2 (.vshr c d a b k t) d a b k t fun x y => x / 2 ^ (y % t.width)) ∧
  (∀ c d a b k t, each2 (.vsar c d a b k t) d a b k t fun x y => t.ofInt ((BitVec.ofNat t.width x).toInt / 2 ^ (y % t.width))) ∧
  (∀ c d a k t, EachDoes (.vabs c d a k t) fun q => q.merge d k t.width fun e =>
    t.ofInt (t.int (elem t.width (q.rv a) e)).natAbs)) ∧
  (let each2 := fun (i : Instr) (d a : VReg) (b : VSrc) (k : KOpt) (t : VType) (g : Nat → Nat → Nat) =>
    EachDoes i fun q => q.merge d k t.width fun e => g (elem t.width (q.rv a) e) (b.elemAt q t.width e)
  (∀ c d a b k t, each2 (.vfadd c d a b k t) d a b k t fun x y => vresF t ((velemF t x).add (velemF t y))) ∧
  (∀ c d a b k t, each2 (.vfsub c d a b k t) d a b k t fun x y => vresF t ((velemF t x).sub (velemF t y))) ∧
  (∀ c d a b k t, each2 (.vfmul c d a b k t) d a b k t fun x y => vresF t ((velemF t x).mul (velemF t y))) ∧
  (∀ c d a b k t, each2 (.vfmin c d a b k t) d a b k t fun x y => (vfmt t).minMax false ((vfmt t).flush x) ((vfmt t).flush y)) ∧
  (∀ c d a b k t, each2 (.vfmax c d a b k t) d a b k t fun x y => (vfmt t).minMax true ((vfmt t).flush x) ((vfmt t).flush y)) ∧
  (∀ c d a b k t, EachDoes (.vffma c d a b k t) fun q => q.merge d k t.width fun e => vresF t
    ((velemF t (elem t.width (q.rv a) e)).fma (velemF t (b.elemAt q t.width e)) (velemF t (elem t.width (q.rv d) e)))) ∧
  (∀ c d a k t, EachDoes (.vexp2 c d a k t) fun q => q.merge d k t.width fun e =>
    specialElem exp2F t (elem t.width (q.rv a) e)) ∧
  (∀ c d a k t, EachDoes (.vlog2 c d a k t) fun q => q.merge d k t.width fun e =>
    specialElem log2F t (elem t.width (q.rv a) e)) ∧
  (∀ c d a k t, EachDoes (.vrcp c d a k t) fun q => q.merge d k t.width fun e =>
    specialElem recip t (elem t.width (q.rv a) e)) ∧
  (∀ c d a k t, EachDoes (.vrsq c d a k t) fun q => q.merge d k t.width fun e =>
    specialElem recipSqrt t (elem t.width (q.rv a) e)) ∧
  (∀ c d a k t, EachDoes (.vtanh c d a k t) fun q => q.merge d k t.width fun e =>
    specialElem tanhF t (elem t.width (q.rv a) e)) ∧
  let part := fun (q : Core) (a : VReg) (k : KOpt) (w off : Nat) =>
    (List.range (q.count w)).map fun e => if q.enabled k w e then elem w (q.rv a) e else off
  (∀ c d a k t, EachDoes (.vrsum c d a k t) fun q => q.ws d
    (if t = .bf16 then BitVec.ofNat 64 (treeOf addF ((part q a k 16 0x8000).map fun x => bf16.flush x * 65536))
     else if t = .fp32 then BitVec.ofNat 64 (treeOf addF ((part q a k 32 0x80000000).map fp32.flush))
     else BitVec.ofInt 64 (((part q a k t.width 0).map t.int).sum))) ∧
  (∀ c d a k t, EachDoes (.vrmax c d a k t) fun q => q.ws d
    (if t = .bf16 then BitVec.ofNat 64 (treeOf (vminMaxF t true) (part q a k 16 0xFF80))
     else if t = .fp32 then BitVec.ofNat 64 (treeOf (vminMaxF t true) (part q a k 32 0xFF800000))
     else t.extend (treeOf (vmaxI t) (part q a k t.width (t.ofInt t.minInt))))) ∧
  ∀ c d a k t, EachDoes (.vrmin c d a k t) fun q => q.ws d
    (if t = .bf16 then BitVec.ofNat 64 (treeOf (vminMaxF t false) (part q a k 16 0x7F80))
     else if t = .fp32 then BitVec.ofNat 64 (treeOf (vminMaxF t false) (part q a k 32 0x7F800000))
     else t.extend (treeOf (vminI t) (part q a k t.width (t.ofInt t.maxInt)))))

/-- Comparison, selection, permutation, element moves, masks and the mode of the vector unit. VMOV, VBC, VSEL, VINS,
VPERM, VSHUF, VSLIDE, VZIP, VUZP and VLUT give the elements that the spec names, indices modulo the count; VEXT the
element extended by its type; VCMP and VFCMP a mask in which every byte lane of an enabled element has the
comparison's bit and every other bit is kept. KAND, KOR and KNOT combine whole masks; KPOP counts and KFIRST finds
among the mask's 32 or 256 bits of the mode. VMODE to another share clears the long registers and, entering a share,
the masks; short mode keeps the masks; the same share changes nothing; a share above the grant traps ILLEGAL_OP,
subcode 0x05 of slot 1. -/
def Obligations.VectorMovesAndMasks : Prop :=
  (let mask := fun (i : Instr) (d : KReg) (k : KOpt) (w : Nat) (g : Core → Nat → Bool) =>
    EachDoes i fun q => q.wk d (BitVec.ofNat 256 (ofElems 1 ((List.range 256).map fun l =>
      if (if l < q.vbits / 8 ∧ q.enabled k w (l / (w / 8)) = true then g q (l / (w / 8)) else (q.rk d).getLsbD l) then 1 else 0)))
  (∀ c d a b k cond t, mask (.vcmp c d a b k cond t) d k t.width fun q e =>
    cond.holds (t.int (elem t.width (q.rv a) e)) (t.int (b.elemAt q t.width e))) ∧
  (∀ c d a b k cond t, mask (.vfcmp c d a b k cond t) d k t.width fun q e =>
    cond.holds ((velemF t (elem t.width (q.rv a) e)).cmp (velemF t (b.elemAt q t.width e)))) ∧
  (∀ c d b k t, EachDoes (.vmov c d b k t) fun q => q.merge d k t.width fun e => b.elemAt q t.width e) ∧
  (∀ c d a b k t, EachDoes (.vsel c d a b k t) fun q => q.merge d none t.width fun e =>
    if q.maskBit k (e * t.width / 8) then elem t.width (q.rv a) e else b.elemAt q t.width e) ∧
  (∀ c d a x k t, EachDoes (.vbc c d a x k t) fun q => q.merge d k t.width fun _ =>
    elem t.width (q.rv a) ((x.val q).toNat % q.count t.width)) ∧
  (∀ c d a x t, EachDoes (.vext c d a x t) fun q => q.ws d
    (t.extend (elem t.width (q.rv a) ((x.val q).toNat % q.count t.width)))) ∧
  (∀ c d a x t, EachDoes (.vins c d a x t) fun q => q.merge d none t.width fun e =>
    if (x.val q).toNat % q.count t.width ≤ e ∧ e < (x.val q).toNat % q.count t.width + 1 then
      [(a.val q).toNat % 2 ^ t.width].getD (e - (x.val q).toNat % q.count t.width) 0
    else elem t.width (q.rv d) e) ∧
  (∀ c d a i k t, EachDoes (.vperm c d a i k t) fun q => q.merge d k t.width fun e =>
    elem t.width (q.rv a) (elem t.width (q.rv i) e % q.count t.width)) ∧
  (∀ c d a i k t, EachDoes (.vlut c d a i k t) fun q => q.merge d k t.width fun e =>
    elem t.width (q.rv i) (elem t.width (q.rv a) e % q.count t.width)) ∧
  let pair := fun (q : Core) (a b : VReg) (w i : Nat) =>
    if i < q.count w then elem w (q.rv a) i else elem w (q.rv b) (i - q.count w)
  (∀ c d a b i t, EachDoes (.vshuf c d a b i t) fun q => q.merge d none t.width fun e =>
    pair q a b t.width (elem t.width (q.rv i) e % (2 * q.count t.width))) ∧
  (∀ c d a b n t, EachDoes (.vslide c d a b n t) fun q => q.merge d none t.width fun e =>
    if e + (n.val q).toNat < 2 * q.count t.width then pair q a b t.width (e + (n.val q).toNat) else 0) ∧
  (∀ c d a b half t, EachDoes (.vzip c d a b half t) fun q => q.merge d none t.width fun e =>
    elem t.width (q.rv (if e % 2 = 0 then a else b)) ((if half = .hi then q.count t.width / 2 else 0) + e / 2)) ∧
  ∀ c d a b half t, EachDoes (.vuzp c d a b half t) fun q => q.merge d none t.width fun e =>
    pair q a b t.width (2 * e + if half = .hi then 1 else 0)) ∧
  ((∀ c d a b, EachDoes (.kand c d a b) fun q => q.wk d (q.rk a &&& q.rk b)) ∧
  (∀ c d a b, EachDoes (.kor c d a b) fun q => q.wk d (q.rk a ||| q.rk b)) ∧
  (∀ c d a, EachDoes (.knot c d a) fun q => q.wk d (~~~ q.rk a)) ∧
  (∀ c d a, EachDoes (.kpop c d a) fun q => q.ws d (BitVec.ofNat 64
    ((List.range (if q.long then 256 else 32)).countP fun i => (q.rk a).getLsbD i))) ∧
  (∀ c d a, EachDoes (.kfirst c d a) fun q => let n := if q.long then 256 else 32
    q.ws d (BitVec.ofNat 64 (((List.range n).find? fun i => (q.rk a).getLsbD i).getD n))) ∧
  ∀ (s : State) (f : Fields) c x, s.Alone f → Instr.fields (.vmode c x) = some f →
    let n := match x with
      | .short => 0
      | .n4 => 4
      | .n8 => 8
      | .n12 => 12
      | .n16 => 16
    ((s.core s.cur).grants.lregs < n → s.TrapsAs (.vmode c x) .illegalOp 0x0105) ∧
    (n ≤ (s.core s.cur).grants.lregs → s.Does (.vmode c x) f (s.modCore s.cur fun q =>
      if n = q.share then q else if n = 0 then { q with share := 0, l := [] } else { q with share := n, l := [], k := [] })))

/-- VCVT, quantisation, ternary packing and sparsity of the vector unit. On every core of a ready convoy VCVT converts
element by element between types, a narrower destination filling the part named; VQMX and VTOLG quantise blocks under
a given or derived scale, VFRLG gives LG6 values back; VTERN writes trits against a threshold; VPK5 and VUPK5 pack and
unpack them, counting bad codes; VCOMP keeps the largest of each group, the lower index first among equals, and writes
their ascending positions as metadata, and VEXPD puts elements back at their positions, zeros elsewhere, counting
malformed groups. Only the named registers and the event counter change. VCVT between integer types saturates, and LG6
bytes are copied whole (log entry 51). -/
def Obligations.VectorConversions : Prop :=
  (∀ c d a k part dst src, EachDoes (.vcvt c d a k part dst src) fun q => q.merge d k dst.width fun e =>
    let conv := fun (x : Nat) => match src.isFloat, dst.isFloat with
      | true, true => vresF dst (velemF src x)
      | true, false => dst.ofInt ((velemF src x).toIntSat dst.minInt dst.maxInt)
      | false, true => vresF dst (FVal.ofInt (src.int x) 0)
      | false, false => dst.sat (src.int x)
    if src.width < dst.width then conv (elem src.width (q.rv a) (part.toNat * q.count dst.width + e))
    else if part.toNat * q.count src.width ≤ e ∧ e < part.toNat * q.count src.width + q.count src.width then
      conv (elem src.width (q.rv a) (e - part.toNat * q.count src.width))
    else elem dst.width (q.rv d) e) ∧
  (∀ c d a e part mode fmt src, EachDoes (.vqmx c d a e part mode fmt src) fun q =>
    q.quantise d a e part.toNat mode src fmt.bits (blockScale 127) fun x v => (BitVec.ofInt fmt.bits
      (if fmt = .m8 then mxQuant 6 127 x v else mxQuant 2 7 x v)).toNat) ∧
  (∀ c d a e part mode src, EachDoes (.vtolg c d a e part mode src) fun q =>
    q.quantise d a e part.toNat mode src 8 (blockScale 125) lgQuant) ∧
  (∀ c d a e part t, EachDoes (.vfrlg c d a e part t) fun q => q.merge d none t.width fun x =>
    vresF t (lgValue ((q.rs e).toNat % 256) (elem 8 (q.rv a) (part.toNat * q.count t.width + x)))) ∧
  (∀ c d a thr part t, EachDoes (.vtern c d a thr part t) fun q =>
    q.place1 d 8 (part.toNat * q.count t.width) ((List.range (q.count t.width)).map fun e =>
      tritByte (ternOf t (thr.val q) (elem t.width (q.rv a) e)))) ∧
  (∀ c d a o fmt, EachDoes (.vpk5 c d a o fmt) fun q =>
    let trits := fun (n : Nat) => (List.range n).map fun i => (BitVec.ofNat 8 (elem 8 (q.rv a) i)).toInt.sign
    q.place1 d 8 (o.val q).toNat ((match fmt, q.long with
      | .t5, false => t5Pack 6 (trits 30)
      | .t5, true => t5Pack 51 (trits 255)
      | .t2, false => t2Pack (trits 32)
      | .t2, true => t2Pack (trits 256) : List Byte).map (·.toNat))) ∧
  (∀ c d a o fmt, EachDoes (.vupk5 c d a o fmt) fun q =>
    let n := q.vbits / 8
    let byte := fun (j : Nat) => if (o.val q).toNat + j < n then BitVec.ofNat 8 (elem 8 (q.rv a) ((o.val q).toNat + j)) else 0
    let r := match fmt with
      | .t5 => t5Run n ((List.range ((n + 4) / 5)).map byte)
      | .t2 => t2Run n ((List.range (n / 4)).map byte)
    (q.place1 d 8 0 (r.1.map tritByte)).countEvent 0x0020 r.2) ∧
  (∀ keep ms, keep ≤ ms.length → let ps := keepPos keep ms
    ps.length = keep ∧ ps.Pairwise (· < ·) ∧ (∀ i ∈ ps, i < ms.length) ∧
    ∀ i ∈ ps, ∀ j < ms.length, j ∉ ps → ms.getD j 0 < ms.getD i 0 ∨ ms.getD j 0 = ms.getD i 0 ∧ i < j) ∧
  (∀ c d m a part pat t, EachDoes (.vcomp c d m a part pat t) fun q =>
    let gr := match pat with
      | .p24 => group24
      | .p48 => group48
    let n := q.vbits / 8
    let first := gr.metaBits * (part.toNat * (n / gr.width))
    let kept := (List.range (n / gr.width)).map fun g =>
      let xs := (List.range gr.width).map fun i => elem 8 (q.rv a) (gr.width * g + i)
      let mags := xs.map fun x => if t = .lg6 then lgL x else (BitVec.ofNat 8 x).toInt.natAbs
      (keepPos gr.keep mags).map fun p => (p, xs.getD p 0)
    let data := ofElems gr.metaBits (kept.map fun l => ofElems gr.bits (l.map (·.1)))
    let y := q.place1 d 8 (part.toNat * (n / 2)) (kept.flatMap fun l => l.map (·.2))
    let old := y.rv m
    y.wv m (old - old / 2 ^ first % 2 ^ (gr.metaBits * (n / gr.width)) * 2 ^ first + data * 2 ^ first)) ∧
  ∀ c d m a part pat t, EachDoes (.vexpd c d m a part pat t) fun q =>
    let gr := match pat with
      | .p24 => group24
      | .p48 => group48
    let n := q.vbits / 8
    let groups := (List.range (n / gr.width)).map fun g =>
      let x := sparseIndex gr (elem gr.metaBits (q.rv m) (part.toNat * (n / gr.width) + g))
      (x.1.map fun p => match p with
        | some k => elem 8 (q.rv a) (part.toNat * (n / 2) + gr.keep * g + k)
        | none => 0, x.2)
    (q.place1 d 8 0 (groups.flatMap (·.1))).countEvent 0x0020 (groups.filter (·.2)).length

/-- The matrix instructions issue their operations. On every ready convoy or lone core, members in turn, behind no fence:
MGANG and MJOB with a descriptor that passes its checks, MBLD, MSCL, MPERM, MACZ and MACW with good operands are
numbered on the mx timeline, give their tags, claim the slots the descriptor names, and join their gang, the job queue
or the engine order; an MBLD of length 0 completes at once. MJOB waits at a full queue. MACR gives the tile's elements
and steps, or its overflow count; an element outside the tile traps ILLEGAL_OP, but for type STAT, which takes no
range check (the model's choice, log 83). MPERM traps NONIDEM_OP in an idempotent task. -/
def Obligations.MatrixWordsIssue : Prop :=
  let calm := fun (q : Core) => q.fences = [] ∧ q.sc = none
  let me := fun (m : CoreId) (q : Core) => (⟨m, q.inst, .mx, (q.tl .mx).issued + 1⟩ : JobRef)
  let issues := fun (i : Instr) (d : SReg) (good : CoreId → State → Prop) (kind : Core → OpKind) (after : CoreId → Core → State → State) =>
    InTurns i fun m s t => calm (s.core m) ∧ good m s ∧ t = s.tagged m .mx (kind (s.core m)) d (after m (s.core m))
  let enters := fun (kind : Core → OpKind) (m : CoreId) (q : Core) (u : State) =>
    ({ u with nextOp := u.nextOp + 1 } : State).arriveMx (clusterOf m) { id := u.nextOp, parts := [me m q], kind := kind q }
  let room := fun (q : Core) (a : Word) (n : Nat) => a.toNat < 2 ^ 29 ∧ a.toNat % 2 ^ 26 + n ≤ 2 ^ 26 ∧
    (q.idem = true → q.declaredW a.toNat n = true)
  (∀ c d dr, issues (.mgang c d dr) d (fun m s => s.matrixFail m true ((s.core m).desc dr) = none) (fun q => .matrix true (q.desc dr))
    fun m q u => let x := q.desc dr
      let takes := (mdMask x).testBit (inCluster m)
      let u := if takes then u.modCore m fun q => (q.claimSlots (mdHandle x) (mdSteps x)).1 else u
      let g : GangIssue := ⟨q.inst, (q.tl .mx).issued + 1, x, q.metaBytes x, if takes then (q.handle (mdHandle x)).d else 0⟩
      (u.modCluster (clusterOf m) fun k =>
        { k with gangs := k.gangs.set (inCluster m) (k.gangs.get (inCluster m) [] ++ [g]) }).joinGangs (clusterOf m)) ∧
  (∀ c d dr,
    (Waits (.mjob c d dr) fun m s => calm (s.core m) ∧ s.matrixFail m false ((s.core m).desc dr) = none ∧
      16 ≤ (s.cluster (clusterOf m)).queued) ∧
    issues (.mjob c d dr) d (fun m s => s.matrixFail m false ((s.core m).desc dr) = none ∧ (s.cluster (clusterOf m)).queued < 16)
      (fun q => .matrix false (q.desc dr)) fun m q u => let x := q.desc dr
        let u := u.modCore m fun q => (q.claimSlots (mdHandle x) (mdSteps x)).1
        let op : MxOp := { id := u.nextOp, parts := [me m q], kind := .matrix false x, metas := [(inCluster m, q.metaBytes x)]
                           claims := [(inCluster m, me m q, (q.handle (mdHandle x)).d)] }
        (({ u with nextOp := u.nextOp + 1 } : State).modCluster (clusterOf m) fun k => { k with pending := k.pending ++ [op] }).offerJob
          m c.yld (me m q)) ∧
  (∀ c d a b len, let load := fun (q : Core) => OpKind.load (q.rs a) (q.rs b) (q.rs len).toNat
    issues (.mbld c d a b len) d (fun m s => let q := s.core m
        (q.rs a).toNat % 32 = 0 ∧ (q.rs b).toNat % 32 = 0 ∧ q.rs len = 0) (fun q => .load (q.rs a) (q.rs b) 0)
      (fun m q u => u.jobDone (me m q) 0 0xFF 0) ∧
    issues (.mbld c d a b len) d (fun m s => let q := s.core m
        (q.rs a).toNat % 32 = 0 ∧ (q.rs b).toNat % 32 = 0 ∧ q.rs len ≠ 0 ∧ room q (q.rs a) (q.rs len).toNat ∧
          s.rangesFail m [(accRead, q.rs b, (q.rs len).toNat)] = none) load (enters load)) ∧
  (∀ c d a v, let k := fun (q : Core) => OpKind.scale (q.rs a) (leBytes (q.vbits / 8) (q.rv v))
    issues (.mscl c d a v) d (fun m s => ((s.core m).rs a).toNat % 32 = 0 ∧ room (s.core m) ((s.core m).rs a) ((s.core m).vbits / 8))
      k (enters k)) ∧
  (∀ c d b, (FirstTraps (.mperm c d b) .nonidemOp fun m s x => x = 0 ∧ (s.core m).idem = true) ∧
    issues (.mperm c d b) d (fun m s => (s.core m).idem = false ∧ ((s.core m).rs b).toNat % 128 = 0 ∧
      s.rangesFail m [(accRead, (s.core m).rs b, 8192)] = none) (fun q => .perm (q.rs b)) (enters fun q => .perm (q.rs b))) ∧
  (∀ c d t, issues (.macz c d t) d (fun _ _ => True) (fun _ => .zero t.toNat) (enters fun _ => .zero t.toNat)) ∧
  let bad := fun (t : AccType) (row col : SImm) (q : Core) =>
    127 < (row.val q).toNat ∨ 128 < (col.val q).toNat + q.count (accWidth t)
  (∀ c d v t x row col,
    let k := fun (q : Core) =>
      OpKind.accWrite t x.toNat (row.val q).toNat (col.val q).toNat (leBytes (q.vbits / 8) (q.rv v))
    (FirstTraps (.macw c d v t x row col) .illegalOp fun m s y => y = 0x0305 ∧ bad t row col (s.core m)) ∧
    issues (.macw c d v t x row col) d (fun m s => ¬ bad t row col (s.core m)) k (enters k)) ∧
  ∀ c d k t x row col,
    (t ≠ .stat → FirstTraps (.macr c d k t x row col) .illegalOp fun m s y => y = 0x0305 ∧ bad t row col (s.core m)) ∧
    InTurns (.macr c d k t x row col) fun m s u => let q := s.core m
      let y := (s.cluster (clusterOf m)).acc.get x.toNat {}
      t = .stat ∧ u = s.setCore m (q.ws k (y.ovf.setWidth 64)) ∨
      t ≠ .stat ∧ ¬ bad t row col q ∧ u = s.setCore m ((q.wv d (ofElems (accWidth t)
        ((List.range (q.count (accWidth t))).map fun e => accOut t (y.e.get (128 * (row.val q).toNat + (col.val q).toNat + e) 0)))).ws
          k (BitVec.ofNat 64 y.steps))

/-- MCFG, HBIND, CPYT and CTHR take their descriptors. On every ready convoy or lone core, members in turn: when the
64-byte descriptor at an aligned address (32 bytes for CTHR) can be read at issue, MCFG with good fields puts its
bytes into the descriptor register and traps BAD_DESC with the first bad field's offset and subcode otherwise; HBIND
on a granted, bindable handle makes it a stream of the descriptor with its counts at zero and gives its tag, and on
one not granted traps HANDLE_STATE 0x10; CPYT and CTHR with good fields are offered to the job queue, and wait while
it is full. Poisoned bytes leave a deferred trap pending instead. That a bad field of CTHR's descriptor is BAD_DESC,
subcode 7, is the model's reading (log 35). -/
def Obligations.DescriptorsAreLoaded : Prop :=
  let reads := fun (m : CoreId) (s : State) (ea : Word) (n : Nat) (v : State) (bytes : List Byte) (ue : Option Word) =>
    s.checkAccess m accRead [⟨ea, n, n⟩] = none ∧ (s.core m).fences = [] ∧ (s.core m).sc = none ∧ (s.core m).loads = [] ∧
    let w := (s.resolve m false 0 (runBytes ea n)).2
    let u := (s.resolve m false 0 (runBytes ea n)).1.countAccess m w 0x0012
    (u.core m).loads = [] ∧ ∃ r, u.readWhere m (u.core m).issue w = some (v, r) ∧ r.ue = ue ∧
      bytes = (List.range n).map r.byte ∧ (v.core m).fences = [] ∧ (v.core m).sc = none
  let takes := fun (ea : Core → Word) (n : Nat) (go : CoreId → State → State → List Byte → State → Prop) (m : CoreId) (s t : State) =>
    ∃ v bytes, reads m s (ea (s.core m)) n v bytes none ∧ go m s v bytes t ∨
      ∃ va, reads m s (ea (s.core m)) n v bytes (some va) ∧ t = v.modCore m fun x => { x with due := x.due ++ [(x.pc, x.blk, va)] }
  let bad := fun (ea : Core → Word) (n : Nat) (p : CoreId → State → List Byte → Nat → Nat → Prop) (m : CoreId) (s : State) (x : Word) =>
    ∃ v bytes off sub, reads m s (ea (s.core m)) n v bytes none ∧ p m v bytes off sub ∧ x = BitVec.ofNat 64 (off * 256 + sub)
  (∀ c dr b disp, let ea := fun (q : Core) => q.rs b + disp.signExtend 64
    InTurns (.mcfg c dr b disp) (takes ea 64 fun m _ v bytes t => mcfgFail bytes = none ∧
      t = v.modCore m fun q => { q with dr := q.dr.set dr.toNat bytes }) ∧
    FirstTraps (.mcfg c dr b disp) .badDesc (bad ea 64 fun _ _ bytes off sub => mcfgFail bytes = some (off, sub))) ∧
  (∀ c d h b, let i : Instr := .hbind c d h b
    let ok := fun (q : Core) => h.toNat < q.grants.handles ∧ (q.handle h).bindable = true
    FirstTraps i .handleState (fun m s x => (s.core m).grants.handles ≤ h.toNat ∧ x = 0x10 ∨
      h.toNat < (s.core m).grants.handles ∧ ((s.core m).handle h).bindable = false ∧ x = BitVec.ofNat 64 ((s.core m).handle h).st.code) ∧
    FirstTraps i .badDesc (fun m s x => ok (s.core m) ∧
      bad (·.rs b) 64 (fun _ _ bytes off sub => stagesOf id bytes = .error off ∧ sub = 7) m s x) ∧
    InTurns i fun m s t => ok (s.core m) ∧ takes (·.rs b) 64 (fun m s v bytes t => (∃ sts, stagesOf id bytes = .ok sts) ∧
      let x := (s.core m).handle h
      let n := ((v.core m).tl .cp).issued + 1
      t = v.tagged m .cp (.stream h) d fun u => u.modCore m fun q => q.setHandle h
        { st := .stream, base := x.base, bytes := x.bytes, slots := x.slots, desc := bytes, opNum := n }) m s t) ∧
  let queues := fun (i : Instr) (b d : SReg) (yld : Bool) (n : Nat) (good : Core → List Byte → Prop) (kind : List Byte → OpKind) =>
    InTurns i (takes (·.rs b) n fun m _ v bytes t => good (v.core m) bytes ∧ v.Numbered m ∧ (v.cluster (clusterOf m)).queued < 16 ∧
      t = v.offered m (kind bytes) d yld) ∧
    Waits i fun m s => ∃ v bytes, reads m s ((s.core m).rs b) n v bytes none ∧ good (v.core m) bytes ∧
      16 ≤ (v.cluster (clusterOf m)).queued
  (∀ c d b, let i : Instr := .cpyt c d b
    FirstTraps i .badDesc (bad (·.rs b) 64 fun _ _ bytes off sub => sub = 7 ∧ (patBad (bytes.take 32) = some off ∨
      patBad (bytes.take 32) = none ∧ ∃ o, patBad (bytes.drop 32) = some o ∧ off = 32 + o)) ∧
    queues i b d c.yld 64 (fun q bytes => patBad (bytes.take 32) = none ∧ patBad (bytes.drop 32) = none ∧
      patTotal (bytes.take 32) = patTotal (bytes.drop 32) ∧ q.undeclaredPat (bytes.drop 32) = false) .pattern) ∧
  ∀ c d b, let i : Instr := .cthr c d b
    FirstTraps i .badDesc (bad (·.rs b) 32 fun _ _ bytes off sub => sub = 7 ∧ thBad bytes = some off) ∧
    queues i b d c.yld 32 (fun q bytes => thBad bytes = none ∧ (q.idem = true → ∀ g < thGroups bytes,
        q.declaredW (thT bytes + g * thStep bytes) (thBytes bytes) = true ∧ q.declaredW (thS bytes + g) 1 = true) ∧
      pastPart (thT bytes) ((thGroups bytes - 1) * thStep bytes + thBytes bytes) = false ∧
      pastPart (thS bytes) (thGroups bytes) = false) .ternarise

/-- HCFG, HADVP, HADVC, HSTAT and HUNB. On every ready convoy or lone core, members in turn: HCFG of a granted handle,
unbound or an unclaimed ring, with sizes in their ranges and its slots inside the share, makes it an empty ring; its
checks trap in R173's order. HADVP produces, its core's earlier local accesses complete, and HADVC consumes, its
core's earlier loads of the slots complete, the count of slots SC.N names, or they wait while slots are missing or
those accesses cannot complete; HSTAT gives the address of the next free or filled slot, or the object word. HUNB of
an unclaimed ring, or of a stream whose operation is over, unbinds it, and waits on claims; of a stream that runs on a
lone core it first ends the operation with OK. Wrong states trap HANDLE_UNBOUND, HANDLE_STATE or, of a stream that
gives no more slots, HANDLE_FAULT. -/
def Obligations.HandleWords : Prop :=
  let n := fun (c : Ctl) => c.n.toNat + 1
  let code := fun (x : Handle) => BitVec.ofNat 64 x.st.code
  let free := fun (x : Handle) => x.slots - (x.q - x.c)
  let slot := fun (x : Handle) (i : Nat) => x.base + BitVec.ofNat 64 (i % x.slots * x.bytes)
  -- what a source with a count of slots traps on, and waits for
  let sourceTraps := fun (i : Instr) (h : HReg) (k : Nat) =>
    FirstTraps i .handleUnbound (fun m s x => ((s.core m).handle h).st = .unbound ∧ x = BitVec.ofNat 64 h.toNat) ∧
    FirstTraps i .handleState (fun m s x => ((s.core m).handle h).st = .update ∧ x = 3) ∧
    FirstTraps i .handleFault (fun m s x => let y := (s.core m).handle h
      y.st = .stream ∧ y.p - y.d < k ∧ (y.fault = true ∧ x = 1 ∨ y.fault = false ∧ y.exhausted = true ∧ x = 2)) ∧
    Waits i fun m s => let y := (s.core m).handle h
      y.p - y.d < k ∧ (y.st = .ring ∨ y.st = .stream ∧ y.fault = false ∧ y.exhausted = false)
  let destTraps := fun (i : Instr) (h : HReg) (k : Nat) =>
    FirstTraps i .handleState (fun m s x => ((s.core m).handle h).st ≠ .ring ∧ x = code ((s.core m).handle h)) ∧
    Waits i fun m s => ((s.core m).handle h).st = .ring ∧ free ((s.core m).handle h) < k
  (∀ c h base bytes slots, let i : Instr := .hcfg c h base bytes slots
    let b := fun (q : Core) => base.val q
    let k := fun (q : Core) => (bytes.val q).toNat
    let l := fun (q : Core) => (slots.val q).toNat
    let granted := fun (q : Core) => h.toNat < q.grants.handles
    let sized := fun (q : Core) => k q % 32 = 0 ∧ 32 ≤ k q ∧ k q ≤ 65536
    let counted := fun (q : Core) => 1 ≤ l q ∧ l q ≤ 256
    let open' := fun (x : Handle) => x.st = .unbound ∨ (x.st = .ring ∧ x.p = x.q ∧ x.c = x.d)
    let placed := fun (q : Core) => (b q).toNat % 32 = 0 ∧ q.shareRange (b q) (k q * l q) = true
    FirstTraps i .handleState (fun m s x => let q := s.core m
      ¬ granted q ∧ x = 0x10 ∨ granted q ∧ sized q ∧ counted q ∧ placed q ∧ ¬ open' (q.handle h) ∧ x = code (q.handle h)) ∧
    FirstTraps i .illegalOp (fun m s x => let q := s.core m
      granted q ∧ (¬ sized q ∧ x = 0x0205 ∨ sized q ∧ ¬ counted q ∧ x = 0x0305)) ∧
    FirstTraps i .misaligned (fun m s x => let q := s.core m
      granted q ∧ sized q ∧ counted q ∧ (b q).toNat % 32 ≠ 0 ∧ x = b q) ∧
    FirstTraps i .addrFault (fun m s x => let q := s.core m
      granted q ∧ sized q ∧ counted q ∧ (b q).toNat % 32 = 0 ∧ q.shareRange (b q) (k q * l q) = false ∧ x = b q) ∧
    InTurns i fun m s t => let q := s.core m
      granted q ∧ sized q ∧ counted q ∧ placed q ∧ open' (q.handle h) ∧
      t = s.setCore m (q.setHandle h { st := .ring, base := b q, bytes := k q, slots := l q })) ∧
  (∀ c h, let i : Instr := .hadvp c h
    -- the core's earlier local accesses come first
    let u := fun (m : CoreId) (s : State) =>
      (if (s.core m).loads.any fun l => !l.locs.isEmpty then s.performLoads m else s).drainWhere m (·.loc)
    let ready := fun (m : CoreId) (s : State) => ((s.core m).handle h).st = .ring ∧ n c ≤ free ((s.core m).handle h)
    destTraps i h (n c) ∧
    Waits i (fun m s => ready m s ∧ ((u m s).core m).stores.any (·.loc) = true) ∧
    InTurns i fun m s t => ready m s ∧ ((u m s).core m).stores.any (·.loc) = false ∧
      t = (u m s).modCore m fun q => q.setHandle h ((q.handle h).produce (n c))) ∧
  (∀ c h, let i : Instr := .hadvc c h
    -- the core's earlier loads of the slots come first
    let held := fun (m : CoreId) (u : State) => (u.core m).loadsSlots ((u.core m).handle h) ((u.core m).handle h).d (n c)
    let u := fun (m : CoreId) (s : State) => if held m s then s.performLoads m else s
    let ready := fun (m : CoreId) (s : State) => let y := (s.core m).handle h
      (y.st = .ring ∨ y.st = .stream) ∧ n c ≤ y.p - y.d
    sourceTraps i h (n c) ∧
    Waits i (fun m s => ready m s ∧ held m (u m s) = true) ∧
    InTurns i fun m s t => ready m s ∧ held m (u m s) = false ∧
      t = (u m s).modCore m fun q => q.setHandle h ((q.handle h).consume (n c))) ∧
  (∀ c d h, sourceTraps (.hstat c d h .source) h (n c) ∧ destTraps (.hstat c d h .destination) h (n c) ∧
    (InTurns (.hstat c d h .object) fun m s t => let x := (s.core m).handle h
      t = s.modCore m fun q => q.ws d (BitVec.ofNat 64 ((x.p - x.d) % 65536 + free x * 2 ^ 16 + x.st.code * 2 ^ 32 +
        (if x.fault then 2 ^ 36 else 0) + (if x.exhausted then 2 ^ 37 else 0)))) ∧
    (InTurns (.hstat c d h .destination) fun m s t => let x := (s.core m).handle h
      x.st = .ring ∧ n c ≤ free x ∧ t = s.modCore m fun q => q.ws d (slot x x.q)) ∧
    (InTurns (.hstat c d h .source) fun m s t => let x := (s.core m).handle h
      (x.st = .ring ∨ x.st = .stream) ∧ n c ≤ x.p - x.d ∧
      t = s.modCore m fun q => (if c.adv then q.setHandle h (x.consume (n c)) else q).ws d (slot x x.d))) ∧
  ∀ c h, let i : Instr := .hunb c h
    let idle := fun (m : CoreId) (s : State) => ∀ o ∈ s.opsOf (s.core m).inst, o.core = m → o.kind ≠ .stream h
    let claimed := fun (x : Handle) => x.p ≠ x.q ∨ x.c ≠ x.d
    let off := fun (m : CoreId) (s : State) => s.modCore m fun q => q.setHandle h { q.handle h with st := .unbound, region := none }
    Waits i (fun m s => let x := (s.core m).handle h
      claimed x ∧ (x.st = .ring ∨ x.st = .stream ∧ idle m s)) ∧
    (InTurns i fun m s t => let x := (s.core m).handle h
      x.st = .unbound ∧ t = s ∨ x.st = .update ∧ t = s.unbindRegion m h ∨
      ¬ claimed x ∧ (x.st = .ring ∨ x.st = .stream ∧ idle m s) ∧ t = off m s) ∧
    ∀ (s : State) (f : Fields) (o : EngOp), s.Alone f → Instr.fields i = some f → ((s.core s.cur).handle h).st = .stream →
      (s.opsOf (s.core s.cur).inst).find? (fun o => o.core == s.cur && o.kind == .stream h) = some o →
      let u := s.opComplete o 0 0xFF 0
      idle s.cur u → ((u.core s.cur).handle h).st = .stream →
      (claimed ((u.core s.cur).handle h) → exec i s = .next u) ∧ (¬ claimed ((u.core s.cur).handle h) → s.Does i f (off s.cur u))

/-- CPY, GTH, GTHM, GMSK, UREG, UPD, UPDV, UFLSH and UQRY. On every ready convoy or lone core, members in turn: CPY of
checked ranges is offered to the job queue, of length 0 completes at once, and waits at a full queue; GTH claims one
slot of a ring and takes the indices; GTHM takes up the oldest failed slot with the elements GCM leaves; GMSK moves
GCM. UREG makes R181's checks in their order: of a range that no region of the context meets it registers a new region
and binds the handle, of exactly the range and operation of the one that it meets it joins that region, and it traps
UPD_OVERLAP with the base of another that it meets; behind a region with no handle left it waits; a handle in UPDATE
is unbound first. UPD and UPDV send the enabled pairs inside the region, or buffer them in an idempotent task, and
trap UPD_RANGE outside and UPD_FULL past 4,096; UFLSH issues a flush; UQRY gives the region's word. -/
def Obligations.CopiesGathersAndUpdates : Prop :=
  let calm := fun (q : Core) => q.fences = [] ∧ q.sc = none
  (∀ c d a b len, let i : Instr := .cpy c d a b len
    let good := fun (m : CoreId) (s : State) => let q := s.core m
      calm q ∧ q.rs len ≠ 0 ∧ (q.rs len).toNat ≤ 2 ^ 32 ∧ q.undeclared (q.rs a).toNat (q.rs len).toNat = false ∧
        s.rangesFail m [(accRead, q.rs b, (q.rs len).toNat), (accWrite, q.rs a, (q.rs len).toNat)] = none
    FirstTraps i .illegalOp (fun m s x => 2 ^ 32 < ((s.core m).rs len).toNat ∧ x = 0x0305) ∧
    FirstTraps i .nonidemOp (fun m s x => let q := s.core m
      q.rs len ≠ 0 ∧ (q.rs len).toNat ≤ 2 ^ 32 ∧ q.undeclared (q.rs a).toNat (q.rs len).toNat = true ∧ x = 0) ∧
    (∀ cause, FirstTraps i cause fun m s x => let q := s.core m
      q.rs len ≠ 0 ∧ (q.rs len).toNat ≤ 2 ^ 32 ∧ q.undeclared (q.rs a).toNat (q.rs len).toNat = false ∧
        s.rangesFail m [(accRead, q.rs b, (q.rs len).toNat), (accWrite, q.rs a, (q.rs len).toNat)] = some (.trap cause x)) ∧
    Waits i (fun m s => good m s ∧ 16 ≤ (s.cluster (clusterOf m)).queued) ∧
    InTurns i fun m s t => let q := s.core m
      calm q ∧ q.rs len = 0 ∧ t = s.tagged m .cp (.copy (q.rs a) (q.rs b) 0) d (fun u =>
        u.jobDone ⟨m, q.inst, .cp, (q.tl .cp).issued + 1⟩ 0 0xFF 0) ∨
      good m s ∧ (s.cluster (clusterOf m)).queued < 16 ∧ s.Numbered m ∧
        t = s.offered m (.copy (q.rs a) (q.rs b) (q.rs len).toNat) d c.yld) ∧
  (∀ c d h b v r, let i : Instr := .gth c d h b v r
    let good := fun (q : Core) => (q.handle h).st = .ring ∧ gatherStop (q.handle h) (q.gatherIdx v).length (q.rs b) (q.rs r) = none
    FirstTraps i .handleState (fun m s x => ((s.core m).handle h).st ≠ .ring ∧ x = BitVec.ofNat 64 ((s.core m).handle h).st.code) ∧
    Waits i (fun m s => good (s.core m) ∧ ((s.core m).handle h).free < c.n.toNat + 1) ∧
    InTurns i fun m s t => let q := s.core m
      let x := q.handle h
      good q ∧ calm q ∧ c.n.toNat + 1 ≤ x.free ∧ t = s.tagged m .gt
        (.gather h x.q (q.rs b) (q.gatherIdx v) (q.rs r).toNat (List.range (q.gatherIdx v).length) []) d fun u =>
          u.modCore m fun q => q.setHandle h { q.handle h with q := x.q + 1 }) ∧
  (∀ c d h b v r, let i : Instr := .gthm c d h b v r
    FirstTraps i .handleState (fun m s x => let y := (s.core m).handle h
      (y.st ≠ .ring ∨ y.failed = []) ∧ x = BitVec.ofNat 64 y.st.code) ∧
    InTurns i fun m s t => let q := s.core m
      let x := q.handle h
      let is := q.gatherIdx v
      calm q ∧ ∃ pos rest, x.st = .ring ∧ x.failed = pos :: rest ∧ gatherStop x is.length (q.rs b) (q.rs r) = none ∧
        t = s.tagged m .gt (.gather h pos (q.rs b) is (q.rs r).toNat
          ((List.range is.length).filter fun e => !q.gcm.getLsbD (4 * e)) []) d fun u =>
            u.modCore m fun q => q.setHandle h { q.handle h with failed := rest }) ∧
  (∀ c k, (InTurns (.gmsk c k .read) fun m s t => t = s.modCore m fun q => q.wk k q.gcm) ∧
    InTurns (.gmsk c k .write) fun m s t => t = s.modCore m fun q => { q with gcm := q.rk k }) ∧
  (∀ c h base len op, let i : Instr := .ureg c h base len op
    let a := fun (q : Core) => (q.rs base).toNat
    let n := fun (q : Core) => (q.rs len).toNat
    let meets := fun (q : Core) (g : Region) => g.ctx = q.ctxNum ∧ g.base < a q + n q ∧ a q < g.base + g.len
    let same := fun (q : Core) (o : UpdOp) (g : Region) => g.base = a q ∧ g.len = n q ∧ g.op = o
    let granted := fun (q : Core) => h.toNat < q.grants.handles
    let open' := fun (q : Core) => (q.handle h).st = .unbound ∨ (q.handle h).st = .update
    let sized := fun (q : Core) => n q % 128 = 0 ∧ 128 ≤ n q ∧ n q ≤ 2 ^ 32
    -- no region is over that the word would first let go
    let kept := fun (s : State) => ∀ x ∈ s.regions, x.2.handles ≠ [] ∨ 0 < s.pendingOf x.1
    let ranged := fun (m : CoreId) (s : State) (o : UpdOp) => let q := s.core m
      kept s ∧ granted q ∧ UpdOp.ofCode op.toNat = some o ∧ sized q ∧ a q % 128 = 0 ∧ s.regionFail m (a q) (n q) = none
    -- another handle than this one keeps a region of another extent or operation
    let differs := fun (m : CoreId) (q : Core) (o : UpdOp) (x : Nat × Region) =>
      meets q x.2 ∧ (∃ y ∈ x.2.handles, y ≠ (m, h)) ∧ ¬ same q o x.2
    let binds := fun (m : CoreId) (s u : State) (r : Nat) (g : Region) =>
      let x : Region := { g with
        handles := g.handles ++ [(m, h)]
        launches := addNew g.launches (((s.core m).work.map (·.launch)).getD 0)
        seqs := if g.handles.any (·.1 == m) then g.seqs else g.seqs.set m 0 }
      ({ u with regions := u.regions.set r x } : State).modCore m fun q => q.setHandle h { q.handle h with st := .update, region := some r }
    let registers := fun (m : CoreId) (s t : State) => let q := s.core m
      (q.handle h).st = .unbound ∧ ∃ o, ranged m s o ∧
      let g : Region := { ctx := q.ctxNum, base := a q, len := n q, op := o }
      let u := ({ s with nextOp := s.nextOp + 1 } : State).newRegion m g
      ((∀ x ∈ s.regions, ¬ meets q x.2) ∧ t = binds m s u.1 s.nextOp u.2 ∨
      ∃ r g, s.regions.find? (fun x => decide (x.2.ctx = q.ctxNum ∧ x.2.base < a q + n q ∧ a q < x.2.base + x.2.len)) = some (r, g) ∧
        (∀ x ∈ s.regions, meets q x.2 → same q o x.2 ∧ x.2.handles ≠ []) ∧ t = binds m s s r g)
    FirstTraps i .handleState (fun m s x => kept s ∧ let q := s.core m
      ¬ granted q ∧ x = 0x10 ∨ granted q ∧ ¬ open' q ∧ x = BitVec.ofNat 64 (q.handle h).st.code) ∧
    FirstTraps i .illegalOp (fun m s x => kept s ∧ let q := s.core m
      granted q ∧ open' q ∧ (UpdOp.ofCode op.toNat = none ∧ x = 0x0305 ∨ UpdOp.ofCode op.toNat ≠ none ∧ ¬ sized q ∧ x = 0x0205)) ∧
    FirstTraps i .misaligned (fun m s x => kept s ∧ let q := s.core m
      granted q ∧ open' q ∧ UpdOp.ofCode op.toNat ≠ none ∧ sized q ∧ a q % 128 ≠ 0 ∧ x = q.rs base) ∧
    (∀ cause, FirstTraps i cause fun m s x => kept s ∧ let q := s.core m
      granted q ∧ open' q ∧ UpdOp.ofCode op.toNat ≠ none ∧ sized q ∧ a q % 128 = 0 ∧
        s.regionFail m (a q) (n q) = some (.trap cause x)) ∧
    FirstTraps i .updOverlap (fun m s x => let q := s.core m
      open' q ∧ ∃ o before y after, ranged m s o ∧ s.regions = before ++ y :: after ∧ (∀ z ∈ before, ¬ differs m q o z) ∧
        differs m q o y ∧ x = BitVec.ofNat 64 y.2.base) ∧
    Waits i (fun m s => let q := s.core m
      (q.handle h).st = .unbound ∧ ∃ o, ranged m s o ∧ (∀ x ∈ s.regions, ¬ differs m q o x) ∧
        ∃ x ∈ s.regions, meets q x.2 ∧ x.2.handles = []) ∧
    InTurns i registers ∧
    (∀ (s : State) (f : Fields) (o : UpdOp), s.Alone f → Instr.fields i = some f → let q := s.core s.cur
      (q.handle h).st = .update → ranged s.cur s o → (∀ x ∈ s.regions, ¬ differs s.cur q o x) →
      ∀ t, registers s.cur (s.unbindRegion s.cur h) t → s.Does i f t) ∧
    ∀ (s : State) (f : Fields) (o : UpdOp), s.Alone f → Instr.fields i = some f → let q := s.core s.cur
      (q.handle h).st = .unbound → ranged s.cur s o → (∀ x ∈ s.regions, ¬ meets q x.2) →
      ∃ t g, exec i s = .next t ∧ t.regions = s.regions.set s.nextOp g ∧ g.ctx = q.ctxNum ∧ g.base = a q ∧ g.len = n q ∧
        g.op = o ∧ g.handles = [(s.cur, h)] ∧ ((t.core s.cur).handle h).st = .update ∧
        ((t.core s.cur).handle h).region = some s.nextOp) ∧
  let bound := fun (m : CoreId) (s : State) (h : HReg) (r : Nat) (g : Region) =>
    ((s.core m).handle h).st = .update ∧ ((s.core m).handle h).region = some r ∧ s.region r = some g
  -- the pairs `ps` of a word, in order, inside the region: buffered, or sent one by one
  let emits := fun (i : Instr) (h : HReg) (ps : CoreId → State → Nat → Region → List Pair) (inside : CoreId → State → Region → Prop) =>
    FirstTraps i .updFull (fun m s x => ∃ r g, bound m s h r g ∧ inside m s g ∧ (s.core m).idem = true ∧
      4096 < (s.core m).upd.length + (ps m s r g).length ∧ x = 4096) ∧
    Waits i (fun m s => ∃ r g, bound m s h r g ∧ inside m s g ∧ (s.core m).idem = false ∧ calm (s.core m) ∧
      (∀ y ∈ (s.core m).stores, y.loc = true) ∧ (s.core m).credits < (ps m s r g).length) ∧
    InTurns i fun m s t => ∃ r g, bound m s h r g ∧ inside m s g ∧ let q := s.core m
      let l := ps m s r g
      let n := g.seqs.get m 0
      (q.idem = true ∧ q.upd.length + l.length ≤ 4096 ∧
        t = s.modCore m (fun q => ({ q with upd := q.upd ++ l } : Core).countEvent 0x0041 l.length)) ∨
      (q.idem = false ∧ calm q ∧ (∀ y ∈ q.stores, y.loc = true) ∧ l.length ≤ q.credits ∧
        t = ({ s with regions := if l = [] then s.regions else s.regions.set r { g with seqs := g.seqs.set m (n + l.length) }
                      flight := s.flight ++ (l.zipIdx.map fun x => { x.1 with seq := (n + x.2) % 2 ^ 48, num := s.pairsOut + x.2 })
                      pairsOut := s.pairsOut + l.length } : State).modCore m fun q =>
            ({ q with credits := q.credits - l.length } : Core).countEvent 0x0041 l.length)
  (∀ c h o v, let off := fun (q : Core) => (q.rs o).toNat
    let past := fun (q : Core) (g : Region) => g.len / (g.op.width / 8) ≤ off q
    (FirstTraps (.upd c h o v) .updRange fun m s x => ∃ r g, bound m s h r g ∧ past (s.core m) g ∧ x = (s.core m).rs o) ∧
    emits (.upd c h o v) h (fun m s r g => let q := s.core m
      [⟨g.ctx, r, g.base + off q * (g.op.width / 8), m, 0, BitVec.ofNat 64 ((v.val q).toNat % 2 ^ g.op.width), 0⟩])
      fun m s g => ¬ past (s.core m) g) ∧
  (∀ c h o v k,
    let es := fun (q : Core) (g : Region) =>
      (List.range (if g.op.width = 64 then q.vbits / 64 else q.vbits / 32)).filter fun e => q.enabled k 32 e
    let fits := fun (q : Core) (g : Region) (e : Nat) => decide (elem 32 (q.rv o) e < g.len / (g.op.width / 8))
    (FirstTraps (.updv c h o v k) .updRange fun m s x => let q := s.core m
      ∃ r g e l, bound m s h r g ∧ (es q g).dropWhile (fits q g) = e :: l ∧
        x = BitVec.ofNat 64 (e * 2 ^ 32 + elem 32 (q.rv o) e)) ∧
    emits (.updv c h o v k) h (fun m s r g => let q := s.core m
      (es q g).map fun e => ⟨g.ctx, r, g.base + elem 32 (q.rv o) e * (g.op.width / 8), m, 0,
        BitVec.ofNat 64 (elem g.op.width (q.rv v) e % 2 ^ (8 * (g.op.width / 8))), 0⟩)
      fun m s g => ∀ e ∈ es (s.core m) g, fits (s.core m) g e = true) ∧
  ∀ c d h,
    (InTurns (.uflsh c d h) fun m s t => ∃ r g, bound m s h r g ∧ t = s.tagged m .up (.flush r s.pairsOut) d id) ∧
    InTurns (.uqry c d h) fun m s t => ∃ r g, bound m s h r g ∧ t = s.modCore m fun q => q.ws d (s.regionWord r g)

/-- RPUT, RFLAG, RFENCE, RSEND and RRECV. On every ready convoy or lone core, members in turn, in non-idempotent work
behind no fence: RPUT with an aligned length up to 4096 and aligned readable addresses, and RFLAG, are outstanding on
the rg timeline with fewer than 256 puts and flags before them (that sends and receives do not count is the model's
choice, log 85), and wait at 256; with a package that is no other of the ring they fail at once with RING_PKG. RSEND
claims filled and RRECV free slots and is outstanding on a channel the core owns, or fails at once with RING_CHAN, or
RING_DOWN where the port's paths are down; they wait for slots. In an idempotent task these four trap NONIDEM_OP.
RFENCE waits for the context's puts and flags and gives and clears the failed count; that it does so in an idempotent
task too is the model's choice (log 79). The model's readings: that the links of the channel's own port decide that
(log 47), and that RSEND with ADV claims as without it (log 13). -/
def Obligations.RingWords : Prop :=
  let calm := fun (q : Core) => q.fences = [] ∧ q.sc = none
  let works := fun (q : Core) => calm q ∧ q.idem = false
  let pk := fun (p : SImm) (q : Core) => (p.val q).toNat % 16
  let other := fun (s : State) (p : Nat) => p ≠ s.ring.pkgId ∧ p < s.ring.n
  -- the operation, numbered, fails at once
  let failed := fun (s : State) (m : CoreId) (kind : OpKind) (d : SReg) (status : Byte) (t : State) => let u := s.issued m .rg kind
    s.Numbered m ∧ ∃ o, u.ops.getLast? = some o ∧ t = (u.endSlots o status (ringFailInfo o)).modCore m fun q =>
      q.ws d (BitVec.ofNat 64 (Timeline.rg.code * 2 ^ 61 + (((s.core m).tl .rg).issued + 1) % 2 ^ 61))
  let fails := fun (s : State) (i : Instr) (status : Byte) => let q := s.core s.cur
    let n := (q.tl .rg).issued + 1
    (∀ x ∈ s.orphans, x.inst ≠ q.inst) → ∃ t, exec i s = .next t ∧
    ((t.core s.cur).tl .rg).issued = n ∧ ((t.core s.cur).tl .rg).statusOf n = status ∧
    ∀ o ∈ t.ops, ¬ (o.core = s.cur ∧ o.inst = q.inst ∧ o.tl = .rg ∧ o.n = n)
  let alone := fun (i : Instr) (p : State → Prop) => ∀ (s : State) (f : Fields), s.Alone f → Instr.fields i = some f → p s
  let chan := fun (s : State) (m : CoreId) (ch : BitVec 5) (sends : Bool) =>
    ∃ y, s.ring.chans.find (16 * (ch.toNat / 16) + ch.toNat % 16) = some y ∧ y.valid = true ∧ y.core = m ∧
      y.ctx = (s.core m).ctxNum ∧ y.sends = sends
  let down := fun (s : State) (ch : BitVec 5) =>
    ∀ p ∈ (if ch.toNat / 16 = 1 then [0, 1] else [2, 3]), (s.link p).up = false ∧ (s.link p).training = false
  let nonidem := fun (i : Instr) => FirstTraps i .nonidemOp fun m s x => (s.core m).idem = true ∧ x = 0
  let puts := fun (i : Instr) (d : SReg) (pkg : SImm) (kind : Core → OpKind) (good : CoreId → State → Prop) =>
    Waits i (fun m s => works (s.core m) ∧ good m s ∧ 256 ≤ (s.putsOf m).length) ∧
    (InTurns i fun m s t => let q := s.core m
      works q ∧ good m s ∧ (s.putsOf m).length < 256 ∧ (other s (pk pkg q) ∧ t = s.tagged m .rg (kind q) d id ∨
        ¬ other s (pk pkg q) ∧ failed s m (kind q) d 0x33 t)) ∧
    alone i fun s => let q := s.core s.cur
      works q → good s.cur s → (s.putsOf s.cur).length < 256 → ¬ other s (pk pkg q) → fails s i 0x33
  (∀ c d pkg dst src len, let i : Instr := .rput c d pkg dst src len
    let k := fun (q : Core) => (len.val q).toNat
    let sized := fun (q : Core) => k q % 32 = 0 ∧ 32 ≤ k q ∧ k q ≤ 4096
    nonidem i ∧
    FirstTraps i .misaligned (fun m s x => let q := s.core m
      q.idem = false ∧ (¬ sized q ∧ x = len.val q ∨ sized q ∧ (q.rs dst).toNat % 32 ≠ 0 ∧ x = q.rs dst ∨
        sized q ∧ (q.rs dst).toNat % 32 = 0 ∧ (q.rs src).toNat % 32 ≠ 0 ∧ x = q.rs src)) ∧
    puts i d pkg (fun q => .put (pk pkg q) (q.rs dst) (q.rs src) (k q)) fun m s => let q := s.core m
      sized q ∧ (q.rs dst).toNat % 32 = 0 ∧ (q.rs src).toNat % 32 = 0 ∧ s.checkAccess m accRead [⟨q.rs src, k q, 1⟩] = none) ∧
  (∀ c d pkg dst v, let i : Instr := .rflag c d pkg dst v
    nonidem i ∧
    FirstTraps i .misaligned (fun m s x => let q := s.core m
      q.idem = false ∧ (q.rs dst).toNat % 8 ≠ 0 ∧ x = q.rs dst) ∧
    puts i d pkg (fun q => .flag (pk pkg q) (q.rs dst) (v.val q)) fun m s => ((s.core m).rs dst).toNat % 8 = 0) ∧
  (∀ c d, Waits (.rfence c d) (fun m s => s.putsOf m ≠ []) ∧
    InTurns (.rfence c d) fun m s t => s.putsOf m = [] ∧ t = s.modCore m fun q =>
      ({ q with ringFails := 0 } : Core).ws d (BitVec.ofNat 64 q.ringFails)) ∧
  let streams := fun (i : Instr) (d : SReg) (ch : BitVec 5) (sends : Bool) (ready : Core → Prop) (claim : Core → Core)
      (kind : Core → OpKind) =>
    (InTurns i fun m s t => let q := s.core m
      let u := s.modCore m claim
      works q ∧ ready q ∧ (chan s m ch sends ∧ ¬ down s ch ∧ t = u.tagged m .rg (kind q) d id ∨
        ¬ chan s m ch sends ∧ failed u m (kind q) d 0x32 t ∨ chan s m ch sends ∧ down s ch ∧ failed u m (kind q) d 0x30 t)) ∧
    alone i fun s => works (s.core s.cur) → ready (s.core s.cur) →
      (¬ chan s s.cur ch sends → fails s i 0x32) ∧ (chan s s.cur ch sends → down s ch → fails s i 0x30)
  (∀ c d h ch, let i : Instr := .rsend c d h ch
    let k := c.n.toNat + 1
    nonidem i ∧ Waits i (fun m s => let x := (s.core m).handle h
      (s.core m).idem = false ∧ x.st = .ring ∧ x.p - x.d < k) ∧
    streams i d ch true (fun q => let x := q.handle h
        (x.st = .ring ∨ x.st = .stream) ∧ k ≤ x.p - x.d)
      (fun q => q.setHandle h { q.handle h with d := (q.handle h).d + k })
      fun q => .send h (ch.toNat / 16) (ch.toNat % 16) (q.handle h).d k) ∧
  ∀ c d h ch, let i : Instr := .rrecv c d h ch
    let k := c.n.toNat + 1
    nonidem i ∧ Waits i (fun m s => let x := (s.core m).handle h
      (s.core m).idem = false ∧ x.st = .ring ∧ x.slots - (x.q - x.c) < k) ∧
    streams i d ch false (fun q => let x := q.handle h
        x.st = .ring ∧ k ≤ x.slots - (x.q - x.c))
      (fun q => q.setHandle h { q.handle h with q := (q.handle h).q + k })
      fun q => .recv h (ch.toNat / 16) (ch.toNat % 16) (q.handle h).q k

/-- Host records are consumed in the order of their numbers. For each of the host's record types: a record whose number is
not above the last one consumed is a duplicate, which only counts; one whose number lies beyond the next waits, which
only starts the wait for the missing record; the next one becomes the last consumed, and while a checkpoint runs it is
held unless it is CTX_KILL, CKPT_ABORT or RESTORE, which then answers with REJECT 0x12. In recovery the device takes
no record. The model's readings: that records are held in the same way while a RESTORE streams (log 65), and what
recovery closes (log 56). -/
def Obligations.HostRecordsAreTakenInOrder : Prop :=
  ∀ (s : State) (q x y z : Nat) (g : Bool) (a b v d : Word) (n : BitVec 256) (sc : ReqScope) (i : Instr),
    i ∈ ([.devConfig q a, .ctxCreate q x y a b v z d, .ctxKill q x a, .launch q x a b y,
       .preempt q x sc, .preemptKill q x sc, .resume q x sc, .pageAnswer q x g a b v,
       .migrate q x y z a b v, .setLimit q x, .ringCfg q x y a, .ckpt q a x,
       .ckptAbort q, .restore q a x n, .diagRead q x a b y, .eventResend q x,
       .attest q n a, .debugResume q x y a, .debugHaltRequest q x y a] : List Instr) →
    (s.recovery = true → exec i s = .next s) ∧ (s.recovery = false →
    (q ≤ s.bar0.lastHost →
      exec i s = .next { s with bar0 := { s.bar0 with dups := min (2 ^ 32 - 1) (s.bar0.dups + 1) } }) ∧
    (s.bar0.lastHost + 1 < q → exec i s = .next { s with gap := some (s.gap.getD (s.now, false)) }) ∧
    (q = s.bar0.lastHost + 1 → s.ckpt.isSome = true →
      (i ≠ .ctxKill q x a → i ≠ .ckptAbort q → i ≠ .restore q a x n → exec i s = .next { s with
        bar0 := { s.bar0 with lastHost := q }, gap := none, heldRecs := s.heldRecs ++ [i] }) ∧
      (i = .restore q a x n → exec i s =
        .next ((({ s with bar0 := { s.bar0 with lastHost := q }, gap := none } : State).reject 0xFF 0x12 q []).releaseRecs))))

/-- DEV_CONFIG, CTX_CREATE, CTX_KILL, SET_LIMIT, RING_CFG, the checkpoint records, DIAG_READ, EVENT_RESEND and ATTEST.
With no checkpoint under way and no record held, the next record of each type has its effect: a limit of 100 W to
1,400 W is set, a context is created with its fields, a device with no context takes its configuration, a ring its
links, a checkpoint holds every context and asks all work to leave, an attestation report of 256 bytes begins with the
nonce. A field outside its limits answers with its REJECT, 0x11 with the field's byte, and does nothing else, of a
number of fields the first; extents together too small for a stream answer with REJECT 0x14. That a bad field inside
DEV_CONFIG's block is REJECT 0x11 at offset 16 is the model's choice (log 56). CKPT_ABORT with a checkpoint under way
stops its stream: before the first byte while work has still to leave or a write has to wait, else behind some number
of bytes (log 17), which stand in the extents; CKPT_DONE carries the abort flag with the bytes and their digest, the
checkpoint is over, and the held records that nothing else holds take effect; with none under way it does nothing (the
model's choice, log 88). RESTORE drops caches, pairs and, by the model's choice (log 84), the writes that wait at
home. -/
def Obligations.HostRecordsOfTheDevice : Prop :=
  (∀ s : State, s.recovery = false → ∀ k, s.ckpt = some k → k.restore = false →
    let n := s.bar0.lastHost + 1
    let t : State := { s with bar0 := { s.bar0 with lastHost := n }, gap := none }
    let done := fun (u : State) (bytes : Nat) (digest : BitVec 256) =>
      ({ u with ckpt := none } : State).emit 0x29 [(12, 1, 1), (16, 8, bytes), (24, 32, digest.toNat)]
    ∃ w, exec (.ckptAbort n) s = .next w.releaseRecs ∧ w.ckpt = none ∧
      (t.ckptReady = none → w = done t 0 (digestOf [])) ∧
      (∀ u, t.ckptReady = some u → ∃ m, m ≤ ckptBytes ∧
        w = done (u.putStream k.extents u.streamCells m) m (digestOf (u.streamCells.filter fun x => decide (x.1 < m)))) ∧
      (w.heldRecs = [] → w.releaseRecs = w) ∧
      ∀ i, w.heldRecs = [i] → w.recWaits [] i = false → w.releaseRecs = { w.performRec i with heldRecs := [] }) ∧
  ∀ s : State, s.recovery = false → s.ckpt = none → s.heldRecs = [] →
    let n := s.bar0.lastHost + 1
    let t : State := { s with bar0 := { s.bar0 with lastHost := n }, gap := none }
    (∀ w, (100 ≤ w ∧ w ≤ 1400 → exec (.setLimit n w) s = .next { t with limit := w }) ∧
      (w < 100 ∨ 1400 < w → exec (.setLimit n w) s = .next (t.reject 0xFF 0x11 n [(24, 4, 16)]))) ∧
    (∀ b, (s.ctxs ≠ [] → exec (.devConfig n b) s = .next (t.reject 0xFF 0x12 n [])) ∧
      (s.ctxs = [] → b.toNat % 4096 ≠ 0 ∨ t.cfgGood b.toNat = false →
        exec (.devConfig n b) s = .next (t.reject 0xFF 0x11 n [(24, 4, 16)])) ∧
      (s.ctxs = [] → b.toNat % 4096 = 0 → t.cfgGood b.toNat = true → ∃ u, exec (.devConfig n b) s = .next u ∧
        u.cfg = t.cfgOf b.toNat ∧ u.tier = [] ∧ u.tierTags = [] ∧ u.pools = [] ∧ u.ctxs = [] ∧ u.mem = s.mem)) ∧
    (∀ ctx split gen root vec wd b, let i : Instr := .ctxCreate n ctx split gen root vec wd b
      let block := b.toNat % 4096 = 0 ∧ t.paNum b.toNat 8 % 4096 = 0 ∧ t.paNum (b.toNat + 0x18) 8 = 0 ∧
        (t.paRead (b.toNat + 0x160) 0xEA0).any (· != 0) = false
      let bad := fun (off : Nat) => exec i s = .next (t.reject ctx 0x11 n [(24, 4, off)])
      (16 ≤ ctx → s.ctxs.find ctx = none → exec i s = .next (t.reject 0xFF 0x11 n [(24, 4, 12)])) ∧
      (ctx < 16 → (∀ x, s.ctxs.find ctx = some x → x.dying = false) → (8 < split → bad 13) ∧
        (split ≤ 8 → (root.toNat % 4096 ≠ 0 → bad 24) ∧ (root.toNat % 4096 = 0 → (2 ^ 56 ≤ vec.toNat → bad 32) ∧
          (vec.toNat < 2 ^ 56 → ¬ block → bad 48)))) ∧
      (ctx < 16 → split ≤ 8 → root.toNat % 4096 = 0 → vec.toNat < 2 ^ 56 → block →
        (s.ctxs.find ctx = none → ∃ x, exec i s = .next { t with ctxs := s.ctxs.set ctx x } ∧ x.gen = gen ∧
          x.root = root.toNat ∧ x.vec = vec ∧ x.wdLimit = wd ∧ x.split = split ∧ x.dying = false ∧ x.held = false) ∧
        ∀ x, s.ctxs.find ctx = some x → x.dying = false → exec i s = .next (t.reject ctx 0x12 n []))) ∧
    (∀ ctx gen, (s.ctxs.find ctx = none → exec (.ctxKill n ctx gen) s = .next (t.reject ctx 0x13 n [])) ∧
      ∀ x, s.ctxs.find ctx = some x → x.dying = false →
        (x.gen ≠ gen → exec (.ctxKill n ctx gen) s = .next (t.reject ctx 0x15 n [])) ∧
        (x.gen = gen → let u : State := { t with
            ctxs := s.ctxs.set ctx { x with dying := true }, pageReqs := s.pageReqs.filter (·.ctx != ctx) }
          exec (.ctxKill n ctx gen) s = .next (((u.killScope ctx .context).discardPairs ctx).retireAll).releaseRecs)) ∧
    (∀ k pkg b, let good := b.toNat % 4096 = 0 ∧ (t.paRead (b.toNat + 0x200) 0xE00).any (· != 0) = false
      let bad := fun (off : Nat) => exec (.ringCfg n k pkg b) s = .next (t.reject 0xFF 0x11 n [(24, 4, off)])
      (k < 2 ∨ 16 < k → bad 12) ∧ (2 ≤ k → k ≤ 16 → (k ≤ pkg → bad 13) ∧ (pkg < k → ¬ good → bad 16))) ∧
    (∀ k pkg b, 2 ≤ k → k ≤ 16 → pkg < k → b.toNat % 4096 = 0 → (t.paRead (b.toNat + 0x200) 0xE00).any (· != 0) = false →
      ∃ u, exec (.ringCfg n k pkg b) s = .next u ∧ u = { t with ring := u.ring, ringRec := u.ringRec } ∧
        u.ring.n = k ∧ u.ring.pkgId = pkg ∧ (∀ i < 256, u.ring.peers.get i 0xFF = t.paNum (b.toNat + i) 1) ∧
        ∀ p < 4, u.link p = { s.link p with training := true }) ∧
    (∀ a m, t.goodExtent a m = true → m % 4096 = 0 ∧
      (a < 2 ^ 42 → 2 ^ 41 < a + m → ∀ x, a ≤ x → x < a + m → x < 2 ^ 52 → t.excluded x = true)) ∧
    (∀ a k d, s.ctxs ≠ [] → exec (.restore n a k d) s = .next (t.reject 0xFF 0x12 n [])) ∧
    (∀ a k, let es := t.extentsOf a k
      let both := fun (u : State) => exec (.ckpt n a k) s = .next u ∧ (s.ctxs = [] → ∀ d, exec (.restore n a k d) s = .next u)
      ((∃ x ∈ es, t.goodExtent x.1 x.2 = false) → both (t.reject 0xFF 0x11 n [(24, 4, 16)])) ∧
      ((∀ x ∈ es, t.goodExtent x.1 x.2 = true) → extentsTotal es < ckptBytes → both (t.reject 0xFF 0x14 n []))) ∧
    (∀ a k, let es := t.extentsOf a k
      (∀ x ∈ es, t.goodExtent x.1 x.2 = true) → ckptBytes ≤ extentsTotal es →
      exec (.ckpt n a k) s = .next (({ t with ckpt := some ⟨false, es, 0⟩ } : State).holdAll false |>.requestEverything 1) ∧
      ∀ d, (s.ctxs = [] → ∃ u, exec (.restore n a k d) s = .next u ∧ u.ckpt = some ⟨true, es, d⟩ ∧ u.slices = [] ∧
          u.sorterPairs = [] ∧ u.flight = [] ∧ u.homeQ = [] ∧ u.mem = s.mem ∧ u.host = s.host)) ∧
    (exec (.ckptAbort n) s = .next t) ∧
    (∀ kind target a k, (4 < kind → exec (.diagRead n kind target a k) s = .next (t.reject 0xFF 0x11 n [(24, 4, 12)])) ∧
      (kind ≤ 4 → ∀ l, t.diagItems kind target.toNat k = some l → exec (.diagRead n kind target a k) s =
        .next (({ t with host := s.host.write a.toNat l.flatten } : State).emit 0x2A
          [(12, 1, kind), (16, 8, target.toNat), (24, 4, l.length), (28, 1, 0)]))) ∧
    (∀ m, (∀ r ∈ s.kept, r.seq < m) → exec (.eventResend n m) s = .next t) ∧
    (∀ m r l, s.kept = r :: l → m ≤ r.seq → (∀ x ∈ l, m ≤ x.seq) →
      exec (.eventResend n m) s = .next ((r :: l).foldl State.resend t)) ∧
    ∀ nonce a, ∃ report, exec (.attest n nonce a) s =
      .next (({ t with host := s.host.write a.toNat report } : State).emit 0x2B [(16, 8, a.toNat), (24, 1, 0)]) ∧
      report.length = 256 ∧ report.take 32 = leBytes 32 nonce.toNat

/-- LAUNCH, PREEMPT, RESUME, PAGE_ANSWER, MIGRATE and DEBUG. With no checkpoint under way and no record held, the next
record of each type has its effect: a launch of a fresh number in a resident context is admitted with the fields that
its card's size holds (a card stands as placed fields and is cut at its size, by the model's choice, log 16), where no
pair of the context has to wait to be applied, behind which it waits (log 84); a pre-emption puts its request before
exactly the cores whose work its scope names, none where a launch or node is absent, without a REJECT (the model's
reading, log 56), a kill ends the scope, RESUME lets saved work come back, an answer to an outstanding page request
wakes its work and any other answer counts as stale, a migration of a mapped page of its size is begun, and DEBUG
resumes or halts a core that runs work of the context, and a resume of a core that is not debug-halted is rejected
with 0x15. A context that is not resident is rejected with 0x13. -/
def Obligations.HostRecordsOfWork : Prop :=
  ∀ s : State, s.recovery = false → s.ckpt = none → s.heldRecs = [] →
    let n := s.bar0.lastHost + 1
    let t : State := { s with bar0 := { s.bar0 with lastHost := n }, gap := none }
    let busy := fun (ctx : Nat) => t.applyWhere (·.ctx == ctx) = none
    (∀ ctx id card size, busy ctx →
      exec (.launch n ctx id card size) s = .next { t with heldRecs := [.launch n ctx id card size] }) ∧
    (∀ ctx id card size sc, s.ctxs.find ctx = none →
      (¬ busy ctx → exec (.launch n ctx id card size) s = .next (t.reject ctx 0x13 n [])) ∧
      exec (.preempt n ctx sc) s = .next (t.reject ctx 0x13 n []) ∧
      exec (.preemptKill n ctx sc) s = .next (t.reject ctx 0x13 n []) ∧
      exec (.resume n ctx sc) s = .next (t.reject ctx 0x13 n [])) ∧
    (∀ ctx x, s.ctxs.find ctx = some x → x.dying = false →
      (x.recsHeld = true → ∀ id card size,
        exec (.launch n ctx id card size) s = .next { t with heldRecs := [.launch n ctx id card size] }) ∧
      (x.recsHeld = false →
        (∀ id card size, ¬ busy ctx → (s.launch? ctx id).isSome = true →
          exec (.launch n ctx id card size) s = .next (t.reject ctx 0x11 n [(24, 4, 16)])) ∧
        (∀ id card size fields, ¬ busy ctx → s.launch? ctx id = none → s.cards.find card.toNat = some fields →
          exec (.launch n ctx id card size) s =
            .next (t.enrol n ctx id x.split (fields.filter fun y => decide (y.off < size))).releaseRecs) ∧
        (∀ sc, let named := (s.cores.filter fun (_, q) => q.work.any fun w => w.ctx == ctx && sc.has w).map (·.1)
          ∃ u, exec (.preempt n ctx sc) s = .next u ∧ u = { t with cores := u.cores } ∧
            (∀ c ∈ named, u.core c = (s.core c).request (.preempt 1)) ∧ ∀ c, c ∉ named → u.core c = s.core c) ∧
        ∀ sc, exec (.preemptKill n ctx sc) s = .next (t.killScope ctx sc).releaseRecs) ∧
      (∀ sc, ∃ u, exec (.resume n ctx sc) s = .next u ∧ u.saved = s.saved.map (fun r =>
          if r.ctx = ctx ∧ sc.has r.work = true then { r with resumed := true } else r) ∧
        u = { t with saved := u.saved, ctxs := u.ctxs } ∧
        (sc = .context → u.ctxs = s.ctxs.set ctx { x with held := false, recsHeld := false }) ∧
        (sc ≠ .context → u.ctxs = s.ctxs))) ∧
    (∀ ctx no gen (va : Word) k, let i : Instr := .pageAnswer n ctx no gen va k
      (va.toNat % 4096 ≠ 0 → exec i s = .next (t.reject ctx 0x11 n [(24, 4, 24)])) ∧
      (va.toNat % 4096 = 0 → s.pageReqs.any (fun r => r.ctx == ctx && r.gen == gen && r.page == va.toNat) = false →
        exec i s = .next { t with bar0 := { t.bar0 with stale := min (2 ^ 32 - 1) (s.bar0.stale + 1) } }) ∧
      (va.toNat % 4096 = 0 → s.pageReqs.any (fun r => r.ctx == ctx && r.gen == gen && r.page == va.toNat) = true →
        (s.ctxs.find ctx).any (fun x => x.gen == gen && !x.dying) = true →
        exec i s = .next ((({ t with pageReqs := s.pageReqs.filter fun r =>
          !(r.ctx == ctx && r.gen == gen && r.page == va.toNat) } : State).answerPage ctx va.toNat no).releaseRecs))) ∧
    (∀ ctx size alloc (va target : Word) r x, let k := migrateBytes size
      (s.ctxs.find ctx).any (fun c => !c.dying) = true → size ≤ 3 → alloc ≤ 4 → (onTier target.toNat = false → alloc = 0) →
      target.toNat % k = 0 → s.isFrame target.toNat k = true → t.walk ctx va.toNat = .ok x → va.toNat % k = 0 → x.size = k →
      pteView x.leaf = 0 → s.isFrame (alignDown (pteFrame x.leaf) k) k = true →
      s.migrating (alignDown (pteFrame x.leaf) k / 128) = false →
      exec (.migrate n ctx size alloc va target r) s = .next { t with migrations := s.migrations ++
        [{ ctx := ctx, va := va.toNat, size := k, src := alignDown (pteFrame x.leaf) k, dst := target.toNat, alloc := alloc
           replica := if r = 0 then none else some r.toNat }] }) ∧
    ∀ ctx c gen, (t.debugOk ctx c gen = false →
        exec (.debugResume n ctx c gen) s = .next (t.reject ctx 0x15 n []) ∧
        exec (.debugHaltRequest n ctx c gen) s = .next (t.reject ctx 0x15 n [])) ∧
      (t.debugOk ctx c gen = true → ((s.core c).debug = false → exec (.debugResume n ctx c gen) s = .next (t.reject ctx 0x15 n [])) ∧
        exec (.debugHaltRequest n ctx c gen) s = .next (t.modCore c fun q => { q with debugReq := true }) ∧
        ((s.core c).debug = true → ∃ u, exec (.debugResume n ctx c gen) s = .next u ∧ u = { t with cores := u.cores } ∧
          (∀ m ∈ s.convoyOf c, u.core m = { s.core m with debug := false }) ∧
          ∀ m, m ∉ s.convoyOf c → u.core m = s.core m))

/-- BAR0 writes, the host window, SEQ_GAP, MSI-X, CHECKPOINT_STREAM_END and DEVICE_RESET. Each writable BAR0 offset does
what its own event does, and any other write, of an offset that is no multiple of 8 too, nothing, but for words of the
flash window. A tail is kept, and counts for the stream once the host's earlier window writes are home; EVENT_HEAD
moves and the backlog follows; a new ATTACH epoch holds every context and asks all work to leave, and the same one
does nothing; WAKE gives reason 5 to a core that runs work of the named context. A window read changes nothing where
no update is pending, a write changes its bytes. MSI-X vector 0 is raised for 16 records, or 10 µs after the first of
fewer. SEQ_GAP is one event after 1 ms. Reset leaves only what the reset rule keeps: every core, tile, cluster, die,
cache, sorter and queue is as after power-on, the tiles with what the image sets. In recovery only the flash window
takes a write. The model's choices: device memory reads as empty after a reset (log 4), WIN_BASE drops low bits and
WAKE ignores unnamed ones (log 46), and the flash window's place (log 78). -/
def Obligations.HostRegistersAndDeviceEvents : Prop :=
  (∀ (s : State) (n off len : Nat) (v : Word) (e : BitVec 32) (d : Option (List Byte)) (i : Instr), s.recovery = true →
    (i ∈ ([.streamTailWrite n v, .eventHeadWrite v, .reattach e, .wake v, .hostWindowAccess off len d] : List Instr) →
      exec i s = .next s) ∧
    exec (.hostRegisterWrite off v) s = .next (if off % 8 = 0 ∧ 0x148 ≤ off ∧ Config.flashBase ≤ off ∧
        off - Config.flashBase < Config.flashBytes ∧ Config.flashProtected (off - Config.flashBase) = false then
      { s with flashWords := s.flashWords.set (off - Config.flashBase) v } else s)) ∧
  ∀ s : State,
    (s.recovery = false →
    (∀ n v, ∃ u, exec (.streamTailWrite n v) s = .next u ∧ (17 ≤ n → u = s) ∧
      (n < 17 → u = { s with bar0 := { s.bar0 with tails := s.bar0.tails.set n v, tailQ := u.bar0.tailQ } } ∧
        ((∀ w ∈ s.homeQ, w.host = 0) → u.tailOf n = v.toNat) ∧
        ((∃ w ∈ s.homeQ, w.host ≠ 0 ∧ w.host ≤ s.bar0.writes) → (∀ x ∈ s.bar0.tailQ, x.1 ≠ n) →
          u.tailOf n = (s.bar0.tails.get n 0).toNat))) ∧
    (∀ v, ∃ u, exec (.eventHeadWrite v) s = .next u ∧ u.bar0 = { s.bar0 with eventHead := v } ∧
      (s.backlog = [] → u = { s with bar0 := { s.bar0 with eventHead := v } }) ∧
      (u.backlog ≠ [] → u.evRoom = false)) ∧
    (∀ e, (s.bar0.attach = e → exec (.reattach e) s = .next s) ∧ (s.bar0.attach ≠ e → exec (.reattach e) s = .next
      ((({ s with bar0 := { s.bar0 with attach := e }, attachPending := some e } : State).holdAll true).requestEverything
        5).tryAttach)) ∧
    (∀ v : Word, let c := v.toNat % 512
      ((s.core c).work.any (·.ctx == v.toNat / 2 ^ 16 % 16) = true → exec (.wake v) s = .next (s.modCore c fun q => q.wakeFor 5)) ∧
      ((s.core c).work.any (·.ctx == v.toNat / 2 ^ 16 % 16) = false → exec (.wake v) s = .next s)) ∧
    (∀ v, (∀ n < 17, exec (.hostRegisterWrite (8 * n) v) s = exec (.streamTailWrite n v) s) ∧
      exec (.hostRegisterWrite 0x100 v) s = exec (.eventHeadWrite v) s ∧
      exec (.hostRegisterWrite 0x118 v) s = exec (.reattach (v.setWidth 32)) s ∧
      exec (.hostRegisterWrite 0x140 v) s = exec (.wake v) s ∧
      (∃ b, exec (.hostRegisterWrite 0x130 v) s = .next { s with bar0 := { s.bar0 with winBase := b } } ∧
        b.toNat = v.toNat / 2 ^ 30 * 2 ^ 30) ∧
      (∀ off, off % 8 ≠ 0 → exec (.hostRegisterWrite off v) s = .next s) ∧
      ∀ off, 0x88 ≤ off → off ∉ [0x100, 0x118, 0x130, 0x140] → exec (.hostRegisterWrite off v) s =
        .next (if off % 8 = 0 ∧ 0x148 ≤ off ∧ Config.flashBase ≤ off ∧ off - Config.flashBase < Config.flashBytes ∧
            Config.flashProtected (off - Config.flashBase) = false then
          { s with flashWords := s.flashWords.set (off - Config.flashBase) v } else s)) ∧
    (∀ off len d, let pa := s.bar0.winBase.toNat + off
      (2 ^ 39 < off + len → exec (.hostWindowAccess off len none) s = .next s) ∧
      (s.sorterPairs = [] → exec (.hostWindowAccess off len none) s = .next s ∧
        (off + d.length ≤ 2 ^ 39 → ∃ u, exec (.hostWindowAccess off len (some d)) s = .next u ∧ (s.ckpt.isSome = true → u = s) ∧
          (s.ckpt.isSome = false → u = { s.paWrite pa d with bar0 := u.bar0, homeQ := u.homeQ } ∧
            u.bar0 = { (s.paWrite pa d).bar0 with writes := s.bar0.writes + 1 } ∧
            u.homeQ.map (·.cells) = (s.paWrite pa d).homeQ.map (·.cells)))))) ∧
    ((s.gap = none → exec .seqGap s = .next s) ∧ ∀ k, (s.gap = some (k, true) → exec .seqGap s = .next s) ∧
      (s.gap = some (k, false) → exec .seqGap s = .next (if s.now - k < 1000000 then s
        else ({ s with gap := some (k, true) } : State).resourceEvent 5 0xFF (s.bar0.lastHost + 1)))) ∧
    (16 ≤ s.msix ∨ (s.msix ≠ 0 ∧ 10000 ≤ s.now - s.msixSince) → exec .msiXInterrupt s =
      .next { s with msix := s.msix - 16, msixSince := s.now, msixRaised := s.msixRaised + 1 }) ∧
    (s.msix = 0 ∨ (s.msix < 16 ∧ s.now - s.msixSince < 10000) → exec .msiXInterrupt s = .next s) ∧
    (s.ckpt = none → exec .checkpointStreamEnd s = .next s) ∧
    (∀ k, s.ckpt = some k → (k.restore = true → exec .checkpointStreamEnd s = .next (s.restoreEnd k).releaseRecs) ∧
      (k.restore = false → (s.ckptEnd k = none → exec .checkpointStreamEnd s = .next s) ∧
        ∀ u, s.ckptEnd k = some u → exec .checkpointStreamEnd s = .next u.releaseRecs)) ∧
    ∀ a b, ∃ u, exec (.deviceReset a b) s = .next u ∧ u.cores = [] ∧ u.ctxs = [] ∧ u.launches = [] ∧ u.saved = [] ∧ u.ops = [] ∧
      u.host = s.host ∧ u.mem = [] ∧ u.slices = [] ∧ u.wstack = [] ∧ u.backing = [] ∧ u.wpoison = [] ∧ u.poison = [] ∧
      (∀ k, (u.tile k).lm = [] ∧ (u.tile k).l1 = [] ∧ (u.tile k).poison = [] ∧ (u.tile k).l1Poison = [] ∧ (u.tile k).split = 0 ∧
        (u.tile k).point = 7) ∧
      u.clusters = [] ∧ u.dies = [] ∧ u.sorters = [] ∧ u.objs = [] ∧ u.regions = [] ∧ u.flight = [] ∧ u.homeQ = [] ∧
      u.viewPend = [] ∧ u.viewDir = [] ∧ u.frames = [] ∧ u.pageReqs = [] ∧ u.migrations = [] ∧ u.probes = [] ∧ u.orphans = [] ∧
      (∃ l, u.ring = { laneMap := l }) ∧ (∃ w, u.bar0 = { bootStatus := w }) ∧ u.cfg = {} ∧ u.backlog = [] ∧ u.kept = [] ∧
      u.heldRecs = [] ∧ u.ckpt = none ∧ u.gap = none ∧ u.limit = 1400 ∧ u.ringRec = [] ∧ u.devRec = [] ∧
      u.persist = s.persist ∧ u.safeCxl = s.safeCxl ∧ u.flash = s.flash ∧ (∀ x, u.tier.find x = if storeOf (128 * x) = .cxl then s.tier.find x else none) ∧ u.bar0.lastHost = 0 ∧ u.lastDev = 0 ∧
      u.flashWords = s.flashWords ∧ (a = true ∨ b = true → u.points = [560, 580, 600, 630, 660, 690, 720, 750]) ∧
      (u.bar0.bootStatus.toNat % 4 = if a = false ∧ b = false then 2 else 1)

/-- Events of outstanding loads, SLEEP, the L2 slices, the tier, view lines and migrations. A returning load or atomic
leaves the outstanding ones and writes its destination, or a deferred DATA_UE falls due where its data is poisoned.
SLEEP_WAKE ends the sleep of the whole convoy with the leader's reasons. Filling a line into a home slice of its with
room, and hashing a line again, change no byte that is read there. A waiting write at home is performed when it can
be, and ends or sets its line's poison as it was to. A tier line that is malformed or cannot be refetched is poisoned.
The oldest view write settles into its array. A finished migration ends, and one that finds no overflow slot waits and
tells the host once. The model's readings: what TIER_READ's operand says (log 57), and that an atomic on poisoned data
defers its trap (log 59). -/
def Obligations.MemoryEvents : Prop :=
  (∀ (s : State) (c : CoreId) (n : Nat), let q := s.core c
    (q.loads.find? (·.n == n) = none → exec (.loadReturn c n) s = .next s ∧ exec (.loadDataUe c n) s = .next s) ∧
    ∀ l, q.loads.find? (·.n == n) = some l → (q.loadBlocked l = true → exec (.loadReturn c n) s = .next s) ∧
      let done := fun (u : State) (r : Read) => exec (.loadReturn c n) s = .next (u.modCore c fun q =>
          let q : Core := { q with loads := q.loads.filter (·.n != n) }
          match r.ue with
          | some va => if l.dst = .nothing then q else { q with due := q.due ++ [(l.pc, l.blk, va)] }
          | none => q.loadInto l.dst r)
      (∀ u r, q.loadBlocked l = false → l.rmw = none →
        s.readLanes c n (l.locs.foldl (fun r x => s.readLocal c n r x.1 x.2) { bytes := l.got, ue := l.ue }) l.lanes = some (u, r) →
        done u r ∧
        exec (.loadDataUe c n) s = if r.ue.isSome ∧ l.dst ≠ .nothing then exec (.loadReturn c n) s else .next s) ∧
      ∀ x a ls u old bad, q.loadBlocked l = false → l.rmw = some x → l.lanes = a :: ls →
        s.engineRmw a.home a.pa x.t x.new = some (u, old, bad) →
        done (u.modCore c fun q => { q with early := q.early.filter fun (k, _) => k / 32 != a.pa / 32 })
          { bytes := (List.range (atypeBits x.t / 8)).zip (leBytes (atypeBits x.t / 8) old)
            ue := if bad then some a.va else none }) ∧
  (∀ (s : State) (c : CoreId) (odd : Bool), let l := (s.convoyOf c).headD c
    let q := s.core l
    (q.sleep = none → exec (.sleepWake c odd) s = .next s) ∧
    ∀ x, q.sleep = some x → let why := s.wakeReasons q x
      (q.pre ≠ .run ∨ (why = 0 ∧ odd = false) → exec (.sleepWake c odd) s = .next s) ∧
      (q.pre = .run → (why ≠ 0 ∨ odd = true) → ∃ u, exec (.sleepWake c odd) s = .next u ∧ u = { s with cores := u.cores } ∧
        (∀ m ∈ s.convoyOf c, ∀ y, (s.core m).sleep = some y →
          u.core m = ({ s.core m with sleep := none, wakes := 0 } : Core).ws y.d (why.setWidth 64)) ∧
        ∀ m, m ∉ s.convoyOf c → u.core m = s.core m)) ∧
  (∀ (s : State) (k line : Nat), let x := s.slice k
    ((s.l2At k line).isSome = true ∨ s.homesAt k line = false → exec (.l2Install k line) s = .next s) ∧
    (k < 128 → s.l2At k line = none → s.homesAt k line = true → 128 * line < 2 ^ 52 →
      storeOf (128 * line) = .hbm → x.freeEntry.isSome = true →
      (x.tags.filter fun (t : Nat × L2Tag) => Machine.setOf t.1 == Machine.setOf line).length < 16 → (x.data.map (·.1)).Nodup →
      ∃ u, exec (.l2Install k line) s = .next u ∧ u = { s with slices := u.slices } ∧ (u.l2At k line).isSome = true ∧
        ∀ i < 128, u.homeByte k (128 * line + i) = s.homeByte k (128 * line + i)) ∧
    ∃ u, exec (.idleSweep k line) s = .next u ∧ u = { s with slices := u.slices } ∧
      ((x.tags.find line).all (fun t => !t.unh) = true → ∀ h, u.slice h = s.slice h) ∧
      ((x.data.map (·.1)).Nodup → ∀ i < 128, u.homeByte k (128 * line + i) = s.homeByte k (128 * line + i))) ∧
  (∀ (s u : State) (k line : Nat) (w : HomeWrite) (a b : List HomeWrite),
    let mine := fun (y : HomeWrite) => y.cells.any (·.1 / 128 == line)
    ((∀ y ∈ s.homeQ, y.home = k → mine y = false) → exec (.l2Write k line) s = .next s) ∧
    ((∀ y ∈ s.homeQ, mine y = false) ∨ s.tiered (128 * line) = false → exec (.tierWrite line) s = .next s) ∧
    (s.homeQ = a ++ w :: b → (∀ y ∈ a, mine y = false) → mine w = true →
      ({ s with homeQ := a ++ b } : State).homeWriteNow w.core w.home w.cells w.via = some u →
      -- what the write says of its line's poison comes with it
      let v := u.markPoison line w.mark
      let done := match w.core with
        | none => v
        | some c => v.receipt c (sliceLevel c w.home)
      (w.home = k → s.tiered (128 * line) = false → exec (.l2Write k line) s = .next done) ∧
      (s.tiered (128 * line) = true → (∀ y ∈ b, mine y = false) → exec (.tierWrite line) s = .next done))) ∧
  (∀ (s : State) (line : Nat) (good : Bool),
    (s.tiered (128 * line) = false ∨ (good = true ∧ s.tierMalformed line = false) →
      exec (.tierRead line good) s = .next s) ∧
    (s.tiered (128 * line) = true → (good = false ∨ s.tierMalformed line = true) → ∃ u, exec (.tierRead line good) s = .next u ∧
      u = { s with tierTags := u.tierTags } ∧ u.tierTag line = { s.tierTag line with poison := true } ∧ u.poisoned line = true)) ∧
  (∀ s : State, (s.viewPend = [] → exec .viewSettle s = .next s) ∧
    ∀ w r, s.viewPend = w :: r → ∃ u, exec .viewSettle s = .next u ∧ u.viewPend = r ∧
      ∀ g, ({ s with viewPend := r } : State).viewGeom w.region = some g → u.mem = s.mem.writeCells (g.arrayCells w)) ∧
  ∀ (s : State) (ctx page : Nat), let m := s.migrations.find? fun m => m.ctx == ctx && m.va == page
    (m = none → exec (.migrationComplete ctx page) s = .next s) ∧
    ∀ x, m = some x →
      (∀ u, s.finishMigration x = .ok u → exec (.migrationComplete ctx page) s = .next u.retireAll ∧ x ∉ u.migrations) ∧
      ∀ ch, s.finishMigration x = .error ch →
        (x.told = true → exec (.migrationComplete ctx page) s = .next s) ∧
        (x.told = false → exec (.migrationComplete ctx page) s = .next (({ s with migrations := s.migrations.map fun y =>
          if y = x then { y with told := true } else y } : State).resourceEvent 4 0xFF ch))

/-- Events of the job queue, the matrix engine, streams and engine operations. The job queue takes the offered entry whose
core comes first in turn behind the last one, one of a core that yields only when no other is offered, and an entry
leaves it for its engine. The first operation of the order that has not started starts when no started one holds its
slices or tile. A step of one slice, behind its issuers' earlier stores, adds that slice's V into each element with
one rounding. A chain ends in every cluster at once, failed in each when one failed. A stream fills its next free
slot. An operation whose unit is its last completes. -/
def Obligations.EngineEvents : Prop :=
  (∀ (s : State) (cl : Nat), let x := s.cluster cl
    let turn := fun (j : JobRef) => (inCluster j.core + 7 - x.rr) % 8
    (x.offers = [] → exec (.jobQueueAccept cl) s = .next s) ∧
    (∀ a j b, x.offers = a ++ j :: b → (x.late.contains j = true → ∀ k ∈ x.offers, x.late.contains k = true) →
      (∀ k ∈ a, (x.late.contains j || !x.late.contains k) = true → turn j < turn k) →
      (∀ k ∈ b, (x.late.contains j || !x.late.contains k) = true → turn j ≤ turn k) →
      exec (.jobQueueAccept cl) s = .next ((s.setCluster cl
        { x with offers := x.offers.filter (· != j), late := x.late.filter (· != j), jobs := x.jobs ++ [j]
                 rr := inCluster j.core }).receipt j.core 2)) ∧
    (∀ mx, (∀ j ∈ x.jobs, (j.tl == .mx) ≠ mx) → exec (.jobQueueDepart cl mx) s = .next s) ∧
    ∀ a j b, x.jobs = a ++ j :: b → (∀ k ∈ a, (k.tl == .mx) ≠ (j.tl == .mx)) →
      let u := (s.setCluster cl { x with jobs := x.jobs.filter (· != j) }).receipt j.core 2
      (j.tl ≠ .mx → (u.jobOp j = none → exec (.jobQueueDepart cl false) s = .next u) ∧
        ∀ o, u.jobOp j = some o → exec (.jobQueueDepart cl false) s = .next (u.setOp { o with queued := false })) ∧
      (j.tl = .mx → ∀ op, x.pending.find? (fun op => op.parts == [j]) = some op → exec (.jobQueueDepart cl true) s =
        .next ((u.modCluster cl fun x => { x with pending := x.pending.filter (·.id != op.id) }).arriveMx cl op))) ∧
  (∀ (s : State) (cl : Nat), let x := s.cluster cl
    ((∀ op ∈ x.order, op.started = true) → exec (.matrixOperationStart cl) s = .next s) ∧
    ∀ a op b, x.order = a ++ op :: b → (∀ y ∈ a, y.started = true) → op.started = false →
      let clear := ∀ y ∈ x.order, y.started = true →
        (∀ j ∈ y.holdsSlices, j ∉ op.holdsSlices) ∧ ∀ t, y.holdsTile = some t → op.holdsTile ≠ some t
      (¬ clear → exec (.matrixOperationStart cl) s = .next s) ∧
      (clear → (∀ gang d, op.kind ≠ .matrix gang d) →
        exec (.matrixOperationStart cl) s = .next (s.setCluster cl (x.setMx { op with started := true }))) ∧
      ∀ gang d, clear → op.kind = .matrix gang d → exec (.matrixOperationStart cl) s = .next (s.setCluster cl (x.setMx
        { op with started := true, base := some (x.acc.get (mdAcc d) {})
                  fail := s.scan cl op d (List.range (mdSteps d)) }))) ∧
  (∀ (s : State) (cl n : Nat) (gang : Bool) (d : List Byte) (o : MxOp), let x := s.cluster cl
    (x.order.find? (·.id == n) = none →
      exec (.matrixStepCommit cl n) s = .next s ∧ exec (.chainAdd cl n) s = .next s) ∧
    (x.order.find? (·.id == n) = some o → o.kind = .matrix gang d →
      (o.started = false ∨ o.running = false → exec (.matrixStepCommit cl n) s = .next s) ∧
      (o.started = true → o.running = true → (s.ownParts o.parts = none → exec (.matrixStepCommit cl n) s = .next s) ∧
        -- `p`: the issuers' earlier stores have drained (R155)
        ∀ p, s.ownParts o.parts = some p → (p.stepSlots o d = .error none → exec (.matrixStepCommit cl n) s = .next p) ∧
        (∀ j slot, p.stepSlots o d = .ok [(j, slot)] → (∀ k ∈ o.slices, p.stepUe cl k d o.steps = none) →
          p.scan cl o d [o.steps] = none → chained d = false → mdN d ≤ 128 →
          (p.cluster cl).order.find? (·.id == n) = some o →
          ∃ u y, exec (.matrixStepCommit cl n) s = .next u ∧ (u.cluster cl).order.find? (·.id == n) = some y ∧
            y.steps = o.steps + 1 ∧ ∀ r < mdM d, ∀ c < mdN d,
              let v := ((p.sliceV cl j d slot (o.metas.get j []) o.steps).1.getD r []).getD c 0
              ((u.cluster cl).acc.get (mdAcc d) {}).e.get (128 * r + c) 0 =
                (acxAdd (((p.cluster cl).acc.get (mdAcc d) {}).e.get (128 * r + c) 0) (acxDecode v)).1)) ∧
      (lastOfChain cl d = false ∨ s.chainReady d = none → exec (.chainAdd cl n) s = .next s) ∧
      ∀ l, lastOfChain cl d = true → s.chainReady d = some l → ∃ u, exec (.chainAdd cl n) s = .next u ∧
        u = { s with clusters := u.clusters } ∧ ∀ k y, (k, y) ∈ l → ∃ z ∈ (u.cluster k).order, z.id = y.id ∧
          z.finished = true ∧ ((∃ k' y', (k', y') ∈ l ∧ y'.fail.isSome = true) → z.fail.isSome = true))) ∧
  (∀ (s : State) (c : CoreId) (h : HReg), let mine := fun (o : EngOp) => o.core == c && o.kind == .stream h
    ((∀ o ∈ s.ops, mine o = false) → exec (.streamSlotFill c h) s = .next s) ∧
    ∀ o, s.ops.filter mine = [o] → s.current o = o → let x := s.opHandle c o.inst h
      let slot := (x.slotAt x.q).toNat
      (x.st ≠ .stream ∨ x.free = 0 ∨ s.streamGoes o = false ∨ s.writeTurn o slot x.bytes = false →
        exec (.streamSlotFill c h) s = .next s) ∧
      ∀ sts u v w bs bad k, x.st = .stream → x.free ≠ 0 → s.streamGoes o = true → s.writeTurn o slot x.bytes = true →
        stagesOf (s.cluster (clusterOf c)).permEntry x.desc = .ok sts → stagesBad sts = none → s.ownStores o = some u →
        let total := stagesTotal (patTotal x.desc) sts
        let m := min x.bytes (total - x.committed)
        u.streamBytes o x.desc sts x.committed m x.committed = .ok v (bs, bad) →
        v.engWrite o (x.bytes / 32 + 2) slot (padTo x.bytes bs) = .ok w k →
        let fin := decide (total ≤ x.committed + m)
        let y := w.modOpHandle c o.inst h fun x =>
          { x.produce 1 with committed := x.committed + m, exhausted := fin }
        let z := if (y.core c).inst = o.inst then y.modCore c fun q => q.countEvent 0x0020 bad else y
        exec (.streamSlotFill c h) s =
          .next (if fin then z.opComplete (z.current o) 0 0xFF 0 else z)) ∧
  ∀ (s : State) (c : CoreId) (tl : Timeline) (n : Nat),
    (s.opNamed c tl n = none → exec (.engineOperationComplete c tl n) s = .next s) ∧
    ∀ o, s.opNamed c tl n = some o →
      ((∀ gang d, o.kind ≠ .matrix gang d) →
        (∀ u, s.opUnit o 0 = .wait u → exec (.engineOperationComplete c tl n) s = .next u) ∧
        ∀ u st sl i, s.opUnit o 0 = .over u st sl i → exec (.engineOperationComplete c tl n) s =
          .next ((u.opComplete (u.current o) st sl i).dropOrphans.settleRegions)) ∧
      ∀ gang d op g e, o.kind = .matrix gang d → s.mxOf o = some op → op.kind = .matrix g e →
        exec (.engineOperationComplete c tl n) s = .next (if op.over e then s.mxEnd (clusterOf c) op e else s)

/-- Events of update pairs, ring packets and links. An arriving pair leaves the flight, returns its credit, and joins the
batch of its sorter, which closes when it is full, and waits in flight while a full batch is stuck; a closed batch
passes to the bins in key order, and pairs of a flush, of a region that ends or of a full bin are applied, those of a
line in key order from the first. A packet whose page is present is performed at home, one that the target refuses is
only counted, one whose page is absent is held for it, as is one behind a held packet of that page, and a second
delivery changes nothing; an ordered flag is held, in at most 64 places, until the counts it names are reached.
Acknowledgements of a put or flag count on their path, one that is up, and end the operation with the last; those of a
send give its slots back. Links train, narrow, and go down. The model's readings: a refused packet counts as performed
on its path, and an acknowledgement over a path that is down is ignored (log 47), flags are numbered and held in their
order (log 38), and how far one step of an apply goes is free (log 20). -/
def Obligations.UpdateAndRingEvents : Prop :=
  (∀ (s : State) (k : Nat),
    (s.flight.length ≤ k → exec (.updatePairArrival k) s = .next s.settleRegions) ∧
    (∀ p, s.flight[k]? = some p →
      let gone := ({ s with flight := s.flight.eraseIdx k } : State).modCore p.src fun q =>
        { q with credits := min 256 (q.credits + 1) }
      ((s.ctxs.find p.ctx).any (·.dying) = true ∨ s.pairLoc p = none →
        exec (.updatePairArrival k) s = .next gone.settleRegions) ∧
      ∀ pk h, s.pairLoc p = some (pk, h) → (s.ctxs.find p.ctx).any (·.dying) = false →
        let d := sorterOf h
        let r := gone.receipt p.src (sorterLevel p.src d)
        let u := r.setSorter d { r.sorter d with batch := (s.sorter d).batch ++ [p] }
        ((s.sorter d).batch.length + 1 < batchCap → exec (.updatePairArrival k) s = .next u.settleRegions) ∧
        ((s.sorter d).batch.length + 1 = batchCap → exec (.updatePairArrival k) s = .next (u.closeBatch d).settleRegions) ∧
        (batchCap ≤ (s.sorter d).batch.length → batchCap ≤ ((s.closeBatch d).sorter d).batch.length →
          exec (.updatePairArrival k) s = .next (s.closeBatch d).settleRegions)) ∧
    -- a batch passes to the bins in key order, up to the first pair that finds no place
    (let b := (s.sorter k).batch
     (sortPairs b).Perm b ∧ (sortPairs b).Pairwise (fun p q => pairLt q p = false) ∧
     ∀ x y w, sortPairs b = x ++ y → x.foldlM (fun u p => u.binPair k p) (s.setSorter k { s.sorter k with batch := [] }) = some w →
       (y = [] → exec (.sorterBatchClose k) s = .next w) ∧
       ∀ p r, y = p :: r → w.binPair k p = none →
         exec (.sorterBatchClose k) s = .next (w.setSorter k { w.sorter k with batch := y ++ (w.sorter k).batch })) ∧
    (∀ p line home ps, s.pairLoc p = some (128 * line + p.addr % 128, home) →
      (s.sorter k).bins.find? (·.1 == line) = some (line, ps) → ps.length < binCap → s.binPair k p =
        some (s.setSorter k { s.sorter k with
          bins := (s.sorter k).bins.filter (·.1 != line) ++ [(line, insertPair p ps)] })) ∧
    (∀ ctx line, let mine := sortPairs (s.sorterPairs.filter fun p => p.ctx == ctx && p.addr / 128 == line && s.applies p.region)
      let v := s.endFlushes ctx line
      let step := v.applyWhere (s.applyStep ctx line).contains
      (∃ m, s.applyStep ctx line = mine.take m ∧ (mine ≠ [] → 1 ≤ m ∧ m ≤ mine.length)) ∧
      (mine = [] → exec (.updateApply ctx line) s = .next v.settleRegions) ∧
      (step = none → exec (.updateApply ctx line) s = .next s) ∧
      ∀ u, step = some u → exec (.updateApply ctx line) s = .next u.settleRegions) ∧
    ∀ line, ((∀ l ps, (l, ps) ∈ (s.sorter k).bins → l = line → ps.length < binCap) →
        exec (.backgroundFlush k line) s = .next s) ∧
      ((∃ ps, (line, ps) ∈ (s.sorter k).bins ∧ binCap ≤ ps.length) →
        (s.applyBlock line = none → exec (.backgroundFlush k line) s = .next s) ∧
        ∀ u, s.applyBlock line = some u → exec (.backgroundFlush k line) s = .next u.settleRegions)) ∧
  (∀ (s : State) (pkg rctx : Nat) (path : PathSeq) (dst v : Word) (data : List Byte) (counts : List Nat),
    let p : RingPkt := { pkg, rctx, path := path.path, seq := path.seq, dst, data }
    let i : Instr := .ringPacketPerform pkg rctx path dst data
    (p ∉ s.ring.waiting → ∀ page, s.holdPacket p page = { s with ring := { s.ring with
      holds := s.ring.holds + 1, waiting := s.ring.waiting ++ [{ p with page := page, held := s.ring.holds + 1 }] } }) ∧
    -- every packet that is held still awaits its page's answer
    ((∀ w ∈ s.ring.heldOrder, w.page.isSome = true) →
      let again := s.packetDone p = true ∨ ∃ w ∈ s.ring.waiting, ({ w with page := none, held := 0 } : RingPkt) = p
      (again → exec i s = .next s) ∧
      (¬ again → (∀ w, s.aheadOf p = some w → exec i s = .next (s.holdPacket p w.page)) ∧
        (s.aheadOf p = none → (s.land p = .denied → exec i s = .next ((s.unhold p).countPacket p)) ∧
          (∀ ctx va m, s.land p = .absent ctx va m →
            exec i s = .next ((s.pageRequest ctx va 1 5 0xFFFF m.bad).holdPacket p (some (alignDown va 4096)))) ∧
          ∀ ctx cells, s.land p = .lands ctx cells →
            let l := (((s.unhold p).portReceipt ctx).landTouch ctx dst.toNat data.length).landCells cells
            (l = none → exec i s = .next s) ∧ ∀ u, l = some u → exec i s = .next (u.countPacket p)))) ∧
    let f : RingPkt :=
      { pkg, rctx, path := path.path, seq := path.seq, dst, data := leBytes 8 v.toNat, counts := some counts }
    let j : Instr := .orderedFlagPerform pkg rctx path dst v counts
    let n := s.ring.flagsTaken.get (pkg * 8192 + rctx) 0
    let u := ({ s with ring := { s.ring with
      flags := s.ring.flags ++ [f], flagsTaken := s.ring.flagsTaken.set (pkg * 8192 + rctx) (n + 1) } } : State)
    (∀ g, s.heldFlag f = some g → (s.flagNext g = false → exec j s = .next s) ∧
      (s.flagNext g = true → exec j s = .next (s.performFlag g))) ∧
    (s.heldFlag f = none → (path.seq ≠ n ∨ 64 ≤ s.ring.flags.length → exec j s = .next s) ∧
      (path.seq = n → s.ring.flags.length < 64 → (u.flagNext f = false → exec j s = .next u) ∧
        (u.flagNext f = true → (u.land f = .denied → exec j s = .next (u.unhold f)) ∧
          ∀ ctx cells w, u.land f = .lands ctx cells →
            (((u.unhold f).portReceipt ctx).landTouch ctx dst.toNat f.data.length).landCells cells = some w →
            exec j s = .next w)))) ∧
  (∀ (s : State) (c : CoreId) (n path : Nat) (st : Byte),
    (s.opNamed c .rg n = none → exec (.ringAck c n path st) s = .next s) ∧
    ∀ o, s.opNamed c .rg n = some o →
      (∀ h port ch first k, o.kind = .send h port ch first k →
        ((∀ p ∈ portPaths port, (s.link p).up = false) → exec (.ringAck c n path st) s = .next s) ∧
        ((∃ p ∈ portPaths port, (s.link p).up = true) →
          (st ≠ 0 → exec (.ringAck c n path st) s = .next (s.endSlots o st (ringFailInfo o))) ∧
          (st = 0 → o.acked < o.sent.length →
            let u := s.modOpHandle o.core o.inst h fun x => x.commitC (first + o.acked)
            let x : EngOp := { o with acked := o.acked + 1 }
            exec (.ringAck c n path st) s = .next (if o.acked + 1 = k then u.ringEnd x 0 0 else u.setOp x)))) ∧
      (o.kind.isPut = true →
      (4 ≤ path ∨ (s.link path).up = false → exec (.ringAck c n path st) s = .next s) ∧
      (path < 4 → (s.link path).up = true → o.acked < o.sent.length →
      let u := s.pathCount o path
      let x : EngOp := { o with
        acked := o.acked + 1, fail := if st ≠ 0 ∧ o.fail = none then some (st, ringFailInfo o) else o.fail }
      (o.acked + 1 ≠ o.kind.packets → exec (.ringAck c n path st) s = .next (u.setOp x)) ∧
      (o.acked + 1 = o.kind.packets → exec (.ringAck c n path st) s =
        .next (u.ringEnd x ((x.fail.map (·.1)).getD 0) ((x.fail.map (·.2)).getD 0)))))) ∧
  (∀ (s : State) (port ch : Nat) (data : List Byte),
    ((∀ o ∈ s.ops, ∀ h first n, o.kind ≠ .recv h port ch first n) → exec (.ringSlotArrive port ch data) s = .next s) ∧
    ∀ a o b h first n, s.ops = a ++ o :: b → (∀ x ∈ a, ∀ h' f' n', x.kind ≠ .recv h' port ch f' n') →
      o.kind = .recv h port ch first n →
      ((s.opHandle o.core o.inst h).bytes ≠ data.length →
        exec (.ringSlotArrive port ch data) s = .next (s.endSlots o 0x32 (ringFailInfo o))) ∧
      ((s.opHandle o.core o.inst h).bytes = data.length → let u := (s.portReceipt o.ctx).fillRecv o h (first + o.acked) data
      (o.acked + 1 = n →
        exec (.ringSlotArrive port ch data) s = .next (u.ringEnd { o with acked := o.acked + 1 } 0 0)) ∧
      (o.acked + 1 ≠ n →
        exec (.ringSlotArrive port ch data) s = .next (u.setOp { o with acked := o.acked + 1 })))) ∧
  ∀ (s : State) (k lanes : Nat), let l := s.link k
    exec (.flitRetransmit k) s = .next s ∧
    (4 ≤ k → ∀ i ∈ [Instr.laneRetire k, .linkDown k, .linkTrained k lanes], exec i s = .next s) ∧
    (l.up = false → exec (.laneRetire k) s = .next s ∧ (l.training = false → exec (.linkDown k) s = .next s)) ∧
    (l.training = false → exec (.linkTrained k lanes) s = .next s) ∧
    (k < 4 →
      (l.up = true → 8 < l.lanes → exec (.laneRetire k) s = .next ((s.setLink k { l with lanes := 8 }).ringEvent 2 k 8)) ∧
      (l.up = true → l.lanes ≤ 8 → exec (.laneRetire k) s = .next (s.dropLink k (l.lanes - 1))) ∧
      (l.up = true ∨ l.training = true → exec (.linkDown k) s = .next (s.dropLink k (min 7 l.lanes))) ∧
      (l.training = true → exec (.linkTrained k lanes) s = .next (if lanes < 8 then s.dropLink k lanes
        else (s.setLink k { up := true, lanes := lanes }).ringEvent 1 k lanes)))

/-- NODE_PLACEMENT, NEAR_SPILL_OVER, GANG_PLACEMENT, PERSISTENT_START and REPLAY_RELEASE. With the heads of the pools
noted: a core node that heads its pool starts on the first idle core of its home cluster from the cluster's pointer
on, on the core that holds its memberships, or, having waited its time, on the first idle core of the spill order; a
gang on its reserved cluster once that is idle; a persistent launch, its cores idle, on all of them at once. What
starts finds its entry header, its argument, first output and core-in-cluster number, and nothing of earlier work. A
node that does not head its pool, or finds no idle core, starts nowhere. A held node whose operations are over takes a
new place in readiness order. -/
def Obligations.NodesArePlaced : Prop :=
  ∀ (s : State) (ctx launch node : Nat), let t := s.markHeads
    let id := BitVec.ofNat 64 launch
    -- R219: what a core holds as it starts work; nothing of earlier work is left
    let fresh := fun (u v : State) (m : CoreId) (w : WorkRef) (entry s1 s2 s3 : Word) =>
      v.core m = ({ s := ((SMap.set [] 1 s1).set 2 s2).set 3 s3, pc := entry, blk := entry, pos := .header .handler, work := some w
                    inst := u.nextInst, pre := .run, bars := if (u.core m).heldFor.isSome then (u.core m).bars else []
                    duty := (u.core m).duty, credits := (u.core m).credits, utlb := (v.core m).utlb, grants := (v.core m).grants
                    spillBase := (v.core m).spillBase, ovfBase := (v.core m).ovfBase, ovfMark := (v.core m).ovfBase } : Core)
    let begins := fun (i : Instr) (l : Launch) (v : State) (ms : List CoreId) => exec i s = .next v ∧
      let x := l.node node
      ((t.ctxs.find ctx).isSome = true → v.nextInst = t.nextInst + 1 ∧ ∀ m ∈ ms, (v.core m).priv = false ∧
        (v.core m).rs 1 = x.arg ∧ (v.core m).rs 2 = BitVec.ofNat 64 ((x.outs.headD (0, 0)).1) ∧
        (v.core m).rs 3 = (if x.gang then BitVec.ofNat 64 (inCluster m) else 0) ∧
        fresh t v m ⟨ctx, id, some node, x.idem, x.gang⟩ x.entry x.arg (BitVec.ofNat 64 ((x.outs.headD (0, 0)).1))
          (if x.gang then BitVec.ofNat 64 (inCluster m) else 0))
    (t.heading ctx launch node = none → exec (.nodePlacement ctx launch node) s = .next t ∧
      exec (.nearSpillOver ctx launch node) s = .next t) ∧
    (∀ l p, t.heading ctx launch node = some (l, p) → p.x.gang = true →
      exec (.nodePlacement ctx launch node) s = .next t ∧ exec (.nearSpillOver ctx launch node) s = .next t) ∧
    (∀ l p, t.heading ctx launch node = some (l, p) → p.x.gang = false →
      let idle := fun (cl : Nat) => t.idleCore [] ctx p.id node cl
      let shut := fun (cl : Nat) => t.reservedFor cl = true ∨ idle cl = none
      (∀ c, t.heldCore p = some c → exec (.nearSpillOver ctx launch node) s = .next t ∧
        (t.idleFor ctx p.id node c = true → begins (.nodePlacement ctx launch node) l (t.takeCore l node c) [c]) ∧
        (t.idleFor ctx p.id node c = false → exec (.nodePlacement ctx launch node) s = .next t)) ∧
      (t.heldCore p = none → (shut p.cl → exec (.nodePlacement ctx launch node) s = .next t) ∧
        ∀ c, t.reservedFor p.cl = false → idle p.cl = some c →
          begins (.nodePlacement ctx launch node) l (t.takeCore l node c) [c]) ∧
      (t.heldCore p = none → ∀ since, p.x.head = some since →
        (t.now - since < p.near → exec (.nearSpillOver ctx launch node) s = .next t) ∧
        (p.near ≤ t.now - since →
          ((∀ k ∈ spillOrder p.cl, shut k) → exec (.nearSpillOver ctx launch node) s = .next t) ∧
          ∀ a cl b c, spillOrder p.cl = a ++ cl :: b → (∀ k ∈ a, shut k) → t.reservedFor cl = false → idle cl = some c →
            begins (.nearSpillOver ctx launch node) l (t.takeCore l node c) [c]))) ∧
    (∀ l x, t.launch? ctx id = some l → t.node? ctx id node = some x → let cl := t.nodeCluster ctx x
      let u := t.modCluster cl fun k => { k with reserved := none }
      (x.gang = false ∨ t.reservation cl ≠ some (ctx, id, node) ∨ t.persistHolds cl = true ∨
        (∃ c ∈ clusterCores cl, t.idleFor ctx id node c = false) → exec (.gangPlacement ctx launch node) s = .next t) ∧
      (x.gang = true → t.reservation cl = some (ctx, id, node) → t.persistHolds cl = false →
        (∀ c ∈ clusterCores cl, t.idleFor ctx id node c = true) → begins (.gangPlacement ctx launch node) l
          ((if x.idem then u else (u.modTile (2 * cl) Tile.closeWindow).modTile (2 * cl + 1) Tile.closeWindow).startNode
            l node (8 * cl)) (clusterCores cl))) ∧
    (∀ l x entry first count arg, s.launch? ctx id = some l → s.ctxs.find ctx = some x →
      l.persist = some (entry, first, count, arg) →
      let ms := rangeFrom (8 * first) (8 * count)
      (l.started = true ∨ x.held = true ∨
        (∃ c ∈ ms, (s.core c).work.isSome = true ∨ (s.core c).heldFor.isSome = true ∨ s.splitFits c x.split = false) →
        exec (.persistentStart ctx launch) s = .next s) ∧
      (l.started = false → x.held = false → (∀ c ∈ ms, (s.core c).work = none ∧ (s.core c).heldFor = none ∧ s.splitFits c x.split = true) →
        ∃ u, exec (.persistentStart ctx launch) s = .next u ∧ u.nextInst = s.nextInst + 1 ∧ ∀ c ∈ ms,
          (u.core c).work = some ⟨ctx, id, none, false, false⟩ ∧ (u.core c).inst = s.nextInst ∧ (u.core c).pc = entry ∧
          (u.core c).pos = .header .handler ∧ (u.core c).priv = false ∧ (u.core c).rs 1 = arg ∧
          (u.core c).rs 3 = BitVec.ofNat 64 (inCluster c) ∧
          fresh s u c ⟨ctx, id, none, false, false⟩ entry arg 0 (BitVec.ofNat 64 (inCluster c)))) ∧
    ∀ x, s.node? ctx id node = some x → (x.held = none → exec (.replayRelease ctx launch node) s = .next s) ∧
      ∀ inst, x.held = some inst →
        (x.st ≠ .ready ∨ x.page.isSome = true ∨ s.opsOf inst ≠ [] → exec (.replayRelease ctx launch node) s = .next s) ∧
        (x.st = .ready → x.page = none → s.opsOf inst = [] → ∃ u, exec (.replayRelease ctx launch node) s = .next u ∧
          u.orders = s.orders + 1 ∧ u = { s with launches := u.launches, orders := u.orders } ∧
          u.node? ctx id node = some { x with held := none, order := s.orders })

/-- PREEMPT_HALT, DRAIN_DONE, SAVE_DONE, CONTEXT_RESTORE_DONE and WATCHDOG_EXPIRY. A request is taken only where one is
pending and every core of the group can stop: a kill ends the work with status 0x41, an expiry ends a task with 0x43,
a pre-emption aborts an idempotent task for replay and sends other work to draining. Draining ends when no load,
store, fence or write of the tile is left; then saving. A saved task's node is marked saved and its core is free. A
resumed task comes back onto an idle core that fits it, other work onto its own cores, each core with the registers,
trap registers and handles of its records. An expiry is requested only past the limit. That draining publishes the
lines (log 54), and an expiry or a kill ends its waiting chains with CHAIN_FAULT (log 52), is the model's choice. -/
def Obligations.WorkLeavesAndReturns : Prop :=
  ∀ (s : State) (c : CoreId), let ms := s.groupOf c
    let l := ms.headD c
    (s.groupReq ms = none → exec (.preemptHalt c) s = .next s) ∧
    (∀ r, s.groupReq ms = some r → s.isEnding l = true → exec (.preemptHalt c) s =
      .next ((ms.foldl (fun s m => s.modCore m fun q => { q with req := none }) s).preemptLate l)) ∧
    (∀ r, s.groupReq ms = some r → s.isEnding l = false → (∃ m ∈ ms, (s.core m).pre ≠ .run) →
      exec (.preemptHalt c) s = .next (if r = .kill then s.endKilled ms 0x41 else s)) ∧
    (∀ r, s.groupReq ms = some r → s.isEnding l = false → (∀ m ∈ ms, (s.core m).pre = .run) →
      ((∃ m ∈ ms, s.haltable m = false) → exec (.preemptHalt c) s = .next s) ∧
      ((∀ m ∈ ms, s.haltable m = true) →
        (r = .kill → exec (.preemptHalt c) s = .next (s.endKilled ms 0x41)) ∧
        (r = .watchdog → let u := s.endChains (s.core l).inst
          exec (.preemptHalt c) s = .next (if (u.core l).work.any (·.node.isSome) then u.endKilled ms 0x43
            else u.halt ms (some .watchdog))) ∧
        ∀ why, r = .preempt why →
          ((s.core l).idem = true → exec (.preemptHalt c) s = .next
            ((ms.foldl (fun s m => s.modCore m fun q => { q with req := none }) s).abortTask l why 0 none)) ∧
          ((s.core l).idem = false → ∃ u, exec (.preemptHalt c) s = .next u ∧ u = { s with cores := u.cores } ∧
            (∀ m ∈ ms, (u.core m).pre = .draining ∧ (u.core m).req = none ∧ (u.core m).waitPage = none ∧
              ((s.core m).sleep = none → ∀ r, (u.core m).rs r = (s.core m).rs r)) ∧
            ∀ m, m ∉ ms → u.core m = s.core m))) ∧
    (ms = [] ∨ (∃ m ∈ ms, (s.core m).pre ≠ .draining) → exec (.drainDone c) s = .next s) ∧
    (ms ≠ [] → (∀ m ∈ ms, (s.core m).pre = .draining) →
      let v := ms.foldl (fun s m => ((s.performLoads m).drainAll m).publishLines m true true) s
      let u := (v.finishFences ms).getD v
      let done := fun (m : CoreId) => (u.core m).loads = [] ∧ (u.core m).stores = [] ∧ (u.core m).fences = [] ∧
        u.tileWaits (tileOf m) = false
      ((∀ m ∈ ms, done m) → exec (.drainDone c) s = .next (ms.foldl (fun s m => s.modCore m fun q => { q with pre := .saving }) u)) ∧
      ((∃ m ∈ ms, ¬ done m) → exec (.drainDone c) s = .next u)) ∧
    (ms = [] ∨ (∃ m ∈ ms, (s.core m).pre ≠ .saving) → exec (.saveDone c) s = .next s) ∧
    (∀ w n, ms = [c] → (s.core c).pre = .saving → (s.core c).savesCluster = false → (s.core c).work = some w →
      w.node = some n → (s.core c).req = none → exec (.saveDone c) s =
        .next ((s.saveCore ms c (s.nextImage w.ctx) true).modNode w.ctx w.launch n fun x => { x with saved := true, core := none }) ∧
        let u := s.saveCore ms c (s.nextImage w.ctx) true
        (u.core c).work = none ∧ ∃ r ∈ u.saved, r.core = c ∧ r.snap = s.core c) ∧
    (∀ ctx onto, (∀ r ∈ s.saved, r.ctx = ctx → r.core = c → r.resumed = false) →
      exec (.contextRestoreDone ctx c onto) s = .next s) ∧
    (∀ ctx onto r x, s.saved.find? (fun y => y.ctx == ctx && y.core == c && y.resumed) = some r → s.ctxs.find ctx = some x →
      onto < 512 → let group := s.saved.filter fun y => y.ctx == ctx && y.inst == r.inst && y.group == r.group
      let alone := r.work.node.isSome && !r.work.gang
      let place := fun (y : SavedRec) => if alone then onto else y.core
      let fits := inCluster onto = inCluster c ∧ (onto = c ∨ r.clus = none) ∧ s.reservedFor (clusterOf onto) = false
      (x.held = true ∨ (alone = true ∧ ¬ fits) ∨ (r.clus.isSome = true ∧ (s.cluster (clusterOf (place r))).order ≠ []) ∨
        (∃ y ∈ group, (s.core (place y)).work.isSome = true ∨ (s.core (place y)).heldFor.isSome = true ∨
          s.splitFits (place y) x.split = false) → exec (.contextRestoreDone ctx c onto) s = .next s) ∧
      (x.held = false → (alone = true → fits) → (r.clus.isSome = true → (s.cluster (clusterOf (place r))).order = []) →
        (∀ y ∈ group, (s.core (place y)).work = none ∧ (s.core (place y)).heldFor = none ∧ s.splitFits (place y) x.split = true) →
        (group.map place).Nodup → ∃ u, exec (.contextRestoreDone ctx c onto) s = .next u ∧
        u.saved = (s.saved.filter fun z => !group.any fun y => z.inst == y.inst && z.core == y.core) ∧
        (∀ n z, r.work.node = some n → s.node? ctx r.work.launch n = some z →
          u.node? ctx r.work.launch n = some { z with saved := false, core := some (place r) }) ∧
        ∀ y ∈ group, let m := place y
          (u.core m).work = some y.work ∧ (u.core m).pre = .run ∧ (u.core m).inst = y.inst ∧ (u.core m).bars = y.arrivals ∧
          -- with nothing for the L1s there to write back first: the registers that its records hold
          ((∀ z ∈ group, ∀ b ∈ (s.tile (tileOf (place z))).l1, b.2.dirty = 0) → let a := s.coreRecord y.ctx y.core
            let w := fun (o : Nat) => BitVec.ofNat 64 (s.paNum (a + o) 8)
            let wide := fun (o : Nat) => BitVec.ofNat 256 (s.paNum (a + o) 32)
            let q := (s.loadCore y).catchUpSaved y
            (∀ i, i ≠ 0 → (u.core m).rs i = w (0x100 + 8 * i.toNat)) ∧ (∀ i < 8, (u.core m).shadow.get i 0 = w (0x300 + 8 * i)) ∧
            (u.core m).p = BitVec.ofNat 8 (s.paNum (a + 0x18) 8 / 2 * 2) ∧ (∀ i < 32, (u.core m).v.get i 0 = wide (0xAC0 + 32 * i)) ∧
            (∀ i < 8, (u.core m).k.get i 0 = wide (0xEC0 + 32 * i)) ∧
            (∀ i < (u.core m).share, (u.core m).l.get i 0 = BitVec.ofNat 2048 (s.paNum (a + 0x1080 + 256 * i) 256)) ∧
            (u.core m).trap = ⟨w 0x20, w 0x28, w 0x30, w 0x38, w 0x40⟩ ∧
            (u.core m).pc = BitVec.ofNat 64 (s.paNum (a + 0x08) 8 % 2 ^ 56) ∧
            u.core m = { q with
              ringCore := if q.ringCore.getD y.core = m then none else some (q.ringCore.getD y.core)
              duty := (s.core m).duty, utlb := (s.core m).utlb, credits := (s.core m).credits, pre := .run, req := none
              seen := [], wrote := [], early := [], work := some y.work, inst := y.inst, heldFor := none }))) ∧
    (let limit := (((s.core c).work.bind fun w => s.ctxs.find w.ctx).map (·.wdLimit)).getD 0
     ((s.core c).pre ≠ .run ∨ limit = 0 ∨ s.wdCount c ≤ 1000 * limit ∨ s.isEnding c = true → exec (.watchdogExpiry c) s = .next s) ∧
     ((s.core c).pre = .run → limit ≠ 0 → 1000 * limit < s.wdCount c → s.isEnding c = false → ∃ u,
        exec (.watchdogExpiry c) s = .next u ∧ u = { s with cores := u.cores } ∧
        (∀ m ∈ ms, u.core m = (s.core m).request .watchdog) ∧ ∀ m, m ∉ ms → u.core m = s.core m))

/-- Events of the budget tree, droop, calibration, ageing, errors and telemetry. A division leaves every core a duty of 1
to 16, 16 where it demands nothing, and grants every tile the highest point whose draw fits its share. A sample above
the limit caps requests at 32, one at or below it leaves the cap. A tile's point becomes the highest request, limited
by the grant. A droop that passes the threshold counts and starts the sequence; a dwell with at most one error moves
the last known good offset, a worse one suspends it. The guardband never falls. A corrected error changes no value; an
uncorrectable one poisons its line. A telemetry sample writes one record for each tile of the die, its readings and
what the tile counted since the last. An unlisted draw counting as 0, the package limit as the lesser of 1,400 W and
the host's, the cap coming off by the last sample and a failed step at 0 staying 0 are log 58's choices, the kept
report of a scrub log 73's. -/
def Obligations.PowerAndErrorEvents : Prop :=
  (∀ (s : State) (draw : Nat) (demands draws : List (Nat × Nat)), let entry := fun (l : List (Nat × Nat)) (k : Nat) => ((l.find? (·.1 == k)).map (·.2)).getD 0
    let leaf := fun (c : Nat) => if (s.core c).work.isSome && (s.core c).pre == .run then (entry demands c : Rat) else 0
    ∃ u, exec (.budgetDivision draw demands draws) s = .next u ∧ u.mem = s.mem ∧ u.measured = s.measured ∧
    (∀ c < 512, 1 ≤ (u.core c).duty.toNat ∧ (u.core c).duty.toNat ≤ 16 ∧ u.core c = { s.core c with duty := (u.core c).duty } ∧
      (leaf c = 0 → (u.core c).duty = 16)) ∧
    (∀ t < 128, ∃ g, (tileGrantsMw leaf ((s.limitMw : Rat) - draw))[t]? = some g ∧ let p := (u.tile t).granted
      u.tile t = { s.tile t with granted := p } ∧ p < 8 ∧ (∀ n < 8, p < n → g < (entry draws (8 * t + n) : Rat)) ∧
      ((∃ n < 8, (entry draws (8 * t + n) : Rat) ≤ g) → (entry draws (8 * t + p) : Rat) ≤ g)) ∧
    (s.capHigh = true → s.measured < s.limitMw → u.capHigh = false ∧ ∀ k < 64, (u.cluster k).reqCap = 256) ∧
    (s.capHigh = false ∨ s.limitMw ≤ s.measured → u.capHigh = s.capHigh ∧ u.clusters = s.clusters)) ∧
  (∀ (s : State) (mw : Nat), ∃ u, exec (.powerSample mw) s = .next u ∧ u.measured = mw ∧ u.cores = s.cores ∧
    (mw ≤ 1000 * min 1400 s.limit → u = { s with measured := mw }) ∧
    (1000 * min 1400 s.limit < mw → u.capHigh = true ∧ ∀ k < 64, (u.cluster k).reqCap = 32)) ∧
  (∀ (s : State) (k : Nat), k < 128 → let t := s.tile k
    let p := min ((tileCores k).foldl (fun n c => max n (s.core c).opreq.toNat) 0) t.granted
    (exec (.operatingPointChange k) s =
      .next (if t.point = p then s else s.setTile k { t.closeWindow with point := p })) ∧
    (∀ mv, t.droopEn = false ∨ t.thr = 0 ∨ mv ≤ t.thr.toNat → ∃ u x, exec (.droopAlarm k mv) s = .next u ∧ u = s.setTile k x ∧
      x.alarms = t.alarms ∧ x.stretch = t.stretch ∧ (mv < 256 → x.maxd.toNat = max t.maxd.toNat mv)) ∧
    (∀ mv, t.droopEn = true → t.thr ≠ 0 → t.thr.toNat < mv → ∃ u, exec (.droopAlarm k mv) s = .next u ∧
      (u.tile k).alarms.toNat = min 65535 (t.alarms.toNat + 1) ∧ (u.tile k).dwell = false ∧
      (u.tile k).stretch = (if t.stretch = 0 then 7 else t.stretch) ∧ (t.stretch = 0 → (u.tile k).halve = 64)) ∧
    (t.stretch ≠ 0 ∨ 1 < t.halve → exec (.droopHalvingEnd k) s = .next s) ∧
    (t.stretch = 0 → t.halve ≤ 1 → exec (.droopHalvingEnd k) s = .next (s.setTile k { t with halve := 0 })) ∧
    (∀ n early, t.dwell = false → exec (.calibrationDwellEnd k n early) s = .next s) ∧
    (∀ n, t.dwell = true → let z := t.calib.get t.point {}
      (exec (.calibrationDwellEnd k n true) s =
        .next (s.setTile k { t with dwell := false, calib := t.calib.set t.point { z with offset := z.good } })) ∧
      (n ≤ 1 → exec (.calibrationDwellEnd k n false) s =
        .next (s.setTile k { t with dwell := false, calib := t.calib.set t.point { z with good := z.offset } })) ∧
      (2 ≤ n → ∃ y, exec (.calibrationDwellEnd k n false) s =
        .next (s.setTile k { t with dwell := false, calib := t.calib.set t.point y }) ∧ y.good = z.good - 1 ∧
        y.offset = z.good - 1 ∧ y.suspended = true)) ∧
    (∀ p < 8, exec (.calibrationStepResume k p) s =
      .next (s.setTile k { t with calib := t.calib.set p { t.calib.get p {} with suspended := false } })) ∧
    (∀ store lines, (s.windowOpen k = false → exec (.calibUe k store lines) s = .next s) ∧
      (s.windowOpen k = true → exec (.calibUe k store lines) s = .next (s.calibError k store lines))) ∧
    (10 ≤ t.guardband → exec (.ageingMeasure k true) s = .next s) ∧ (exec (.ageingMeasure k false) s = .next s) ∧
    (t.guardband < 10 → ∃ u, exec (.ageingMeasure k true) s = .next u ∧ (u.tile k).guardband = t.guardband + 1 ∧
      u.flash.find k = some (t.guardband + 1) ∧ ∀ j, j ≠ k → u.tile j = s.tile j)) ∧
  (∀ (s : State) (site : Site) (canary : Bool),
    (∃ u, exec (.correctedError site canary) s = .next u ∧ u.mem = s.mem ∧ u.wstack = s.wstack ∧ u.poison = s.poison ∧
      ∀ c r, (u.core c).rs r = (s.core c).rs r) ∧
    (∀ n, n ≠ 2 → exec (.patrolScrub site n) s = .next s) ∧
    (exec (.uncorrectableError site) s = match siteTile site with
      | some t => if s.windowOpen t then .next (s.calibError t (siteStore site) (siteLines site)) else .next (s.siteError site)
      | none => .next (s.siteError site)) ∧
    ∀ line, ∃ u, exec (.uncorrectableError (.mem line)) s = .next u ∧ exec (.patrolScrub (.mem line) 2) s = .next (u.scrubReport (.mem line)) ∧
      u.mem = s.mem ∧ u.poisoned line = true ∧ ∀ l, l ≠ line → u.poisoned l = s.poisoned l) ∧
  (∀ (s : State) (c : CoreId) (r : Byte), let q := s.core c
    (q.work = none ∨ s.isEnding c = true → exec (.registerParityError c r) s = .next s) ∧
    (q.work.isSome = true → s.isEnding c = false →
      (s.windowOpen (tileOf c) = true → exec (.registerParityError c r) s = .next (s.calibError (tileOf c) 0 [])) ∧
      (s.windowOpen (tileOf c) = false → (q.idem = true → exec (.registerParityError c r) s = .next (s.abortTask c 4 0 none)) ∧
        (q.idem = false → ∃ u pc blk, exec (.registerParityError c r) s = .next u ∧ u = { s with cores := u.cores } ∧
          u.core c = { q with due := q.due ++ [(pc, blk, BitVec.ofNat 64 (2 ^ 63 + r.toNat))] } ∧
          ∀ k, k ≠ c → u.core k = s.core k)))) ∧
  ∀ (s : State) (die : Nat) (l : List (Nat × Nat)),
    (4 ≤ die ∨ s.cfg.placed = false → exec (.telemetrySample die l) s = .next s) ∧
    (die < 4 → s.cfg.placed = true → s.cfg.telSize ≠ 0 → ∃ u, exec (.telemetrySample die l) s = .next u ∧
      u.telNext = s.telNext + 32 ∧ u.mem = s.mem ∧ ∀ k, 32 * die ≤ k → k < 32 * die + 32 →
        (u.tile k).telMaxd = 0 ∧ (u.tile k).telAlarms = 0 ∧ (u.tile k).telEcc = 0 ∧
        -- its record, where the ring has room for one of each tile
        (32 ≤ s.cfg.telSize → let x := s.tile k
          let r := l.getD (k - 32 * die) (0, 0)
          let at0 := s.cfg.telBase + 32 * ((s.telNext + (k - 32 * die)) % s.cfg.telSize)
          let field := fun (o n : Nat) => ofLe ((List.range n).map fun i => u.host.get (at0 + o + i))
          field 0 8 = s.now % 2 ^ 64 ∧ field 8 2 = k ∧ field 10 1 = x.point % 256 ∧
          field 11 1 = (256 - (x.calib.get x.point {}).offset) % 256 ∧ field 12 1 = x.guardband % 256 ∧
          field 13 1 = x.telMaxd.toNat ∧ field 14 2 = min 65535 x.telAlarms ∧ field 16 4 = r.1 % 2 ^ 32 ∧
          field 20 2 = r.2 % 2 ^ 16 ∧ field 22 2 = min 65535 x.telEcc ∧ field 24 8 = 0))

/-- FMIN and FMAX order zeros and pass over a lone NaN. With a bit pattern's place on the line of numbers its magnitude,
or for a set sign bit one less than minus its magnitude, so that -0 lies below +0: FMIN.FP32 and FMIN.BF16 write the
source that lies lower and FMAX the one that lies higher; beside exactly one NaN they write the other source, and of
two NaNs the canonical quiet NaN. They complete on every ready convoy. -/
def Obligations.FloatMinimumAndMaximum : Prop :=
  let nan := fun (w top : Nat) (x : Nat) => top < x % 2 ^ (w - 1)
  let at_ := fun (w x : Nat) => if 2 ^ (w - 1) ≤ x then -((x % 2 ^ (w - 1) : Nat) : Int) - 1 else (x : Int)
  let ok := fun (i : Instr) (w top quiet : Nat) (d : SReg) (a b : SPred) (high : Bool) => ∃ g : Core → Word,
    EachDoes i (fun q => q.ws d (g q)) ∧ ∀ q, let x := (a.val q).toNat % 2 ^ w
      let y := (b.val q).toNat % 2 ^ w
      (nan w top x → nan w top y → g q = BitVec.ofNat 64 quiet) ∧
      (nan w top x → ¬ nan w top y → g q = BitVec.ofNat 64 y) ∧
      (¬ nan w top x → nan w top y → g q = BitVec.ofNat 64 x) ∧
      (¬ nan w top x → ¬ nan w top y → g q = BitVec.ofNat 64 (if decide (at_ w x ≤ at_ w y) = !high then x else y))
  ∀ c d a b,
    ok (.fmin c d a b .fp32) 32 0x7F800000 0x7FC00000 d a b false ∧ ok (.fmax c d a b .fp32) 32 0x7F800000 0x7FC00000 d a b true ∧
    ok (.fmin c d a b .bf16) 16 0x7F80 0x7FC0 d a b false ∧ ok (.fmax c d a b .bf16) 16 0x7F80 0x7FC0 d a b true

/-- Words written out in the spec decode to the instructions they stand for. The words that the spec writes out for LD.I32
s3, (s4 + 16), FENCE gs, gl, package, BARA 17, fuzzy, HADVC h3:2, RNG s5, s2, 0, MGANG s20, 1, ERET retry, VCMP.I32
k1, lt, v8, 4, RFENCE s13, and [p1] BR with offset 31 decode to them; in long mode with share 4 the word of VFFMA.FP32
l1, l0, l0 does; a word of zeros is an unassigned opcode. -/
def Obligations.WrittenOutWordsDecode : Prop :=
  let c : Ctl := ⟨⟨false, 0⟩, ⟨false, 0⟩, 0, 0, false, false⟩
  decode 0x8000000304040010#64 = .ok (.ld c 3 4 .i32 16) ∧ decode 0x8800000201040000#64 = .ok (.fence c 2 1 .package) ∧
  decode 0x9800000100000011#64 = .ok (.bara c 1 17) ∧ decode 0xE180046300000000#64 = .ok (.hadvc { c with n := 1 } 3) ∧
  decode 0xF680000502C00000#64 = .ok (.rng c 5 (.s 2) (.imm 64)) ∧ decode 0xD9800014C1000000#64 = .ok (.mgang c 20 1) ∧
  decode 0xF080000000000000#64 = .ok (.eret c .retry) ∧
  decode 0xBB80007148C40024#64 = .ok (.vcmp c 1 8 (.imm 68) none .lt .i32) ∧
  decode 0xFD00000D00000000#64 = .ok (.rfence c 13) ∧
  decode 0x010800000000001F#64 = .ok (.br { c with g1 := ⟨false, 1⟩ } 31) ∧
  decodeIn 4 0xC180004140400009#64 = .ok (.vffma c 1 0 (.v 0) none .fp32) ∧
  decode 0#64 = .ok (.unassignedOpcode 0)

/-- Decoding and encoding agree on every word. Every well-formed instruction that has a word is what that word decodes to,
with every operand at every value the encoding admits; and every word that decodes gives a well-formed instruction
whose encoding is the word itself: no bit of a word is dropped, and no two words mean the same instruction. -/
def Obligations.EncodedWordsDecode : Prop :=
  (∀ (i : Instr) (w : Word), i.wf = true → encode i = some w → decode w = .ok i) ∧
  ∀ (w : Word) (i : Instr), decode w = .ok i → i.wf = true ∧ encode i = some w

/-- A step of a core at a word runs the decoded instruction. Time having passed, a step whose next move is a core's
boundary, with no request before its work, every core of its convoy running with no trap due, no awaited page and no
halt asked for, and no user interrupt ready, fetches the word at the leader's program counter: the decoded instruction
is executed for that core, and a word that does not decode traps ILLEGAL_OP. A move of an event executes the event. A
word before which a member still stands is noted for its saved record. Only a full backlog of device records holds
such a step up. -/
def Obligations.StepRunsTheWord : Prop :=
  ∀ (s : State) (r : List Move), let u : State := { s.tickOver with agenda := r }
    (∀ i, s.agenda = .ev i :: r → step s = u.unlessFull (exec i u)) ∧
    (∀ x, (x.backlog.length ≤ backlogCap ∨ x.backlog.length ≤ u.backlog.length) → u.unlessFull (.next x) = .next x) ∧
    ∀ c, s.agenda = .core c :: r → c < 512 → let ms := u.convoyOf c
      let l := ms.headD c
      let q := u.core l
      u.groupReq (u.groupOf l) = none → q.uiReady = false → q.issuing = true →
      (∀ m ∈ ms, (u.core m).running = true ∧ (u.core m).due = [] ∧ (u.core m).debugReq = false ∧ (u.core m).waitPage = none) →
      ∀ w, u.fetch l q.priv q.pc = .word w → isHeader w = false →
        let v : State := { u.fetchUse l q.pc with cur := l }
        let row := opRow (unpack w).op.toNat
        (∀ i, (checkMode q.share (unpack w) = none ∨ row.isNone = true) → decodeIn q.share w = .ok i →
          step s = u.unlessFull (u.noteWait ms (exec i v))) ∧
        ∀ e, row.isSome = true → checkMode q.share (unpack w) = some e →
          step s = u.unlessFull (u.noteWait ms (.next (v.preciseTrap ms l .illegalOp (illegalInfo e) q.pc q.blk)))

/-- A word whose guards do not hold only passes; an unassigned word traps whatever its guards. On a lone supervisor core
that is ready for it, every instruction word whose guards do not hold is counted and goes on to the next word, and
nothing else in the machine changes. On a convoy that issues, a word whose opcode the map does not assign traps
ILLEGAL_OP, subcode 0x01, in the leader's name, with no other effect. -/
def Obligations.WordsWithFalseGuardsPass : Prop :=
  (∀ (s : State) (i : Instr) (f : Fields), i.fields = some f → s.Ready f → (s.core s.cur).convoy = false →
    (s.core s.cur).priv = true → f.ctl.guards (s.core s.cur) = false →
    exec i s = .next (s.modCore s.cur fun q => q.passed f)) ∧
  ∀ (s : State) (w : Word), (∀ m ∈ s.convoyOf s.cur, (s.core m).issuing = true) → opcodeUnassigned w = true →
    s.TrapsAs (.unassignedOpcode w) .illegalOp 0xFF01

/-- After reset every memory is canonical, and nothing is under way. Right after reset every memory has its canonical
form, no context is resident, no launch, operation or pair is under way, no record has been consumed or written, and
every core is free, outside a convoy, at user privilege and in short mode, with no barrier arrived and all its
timelines at zero. The register values that the spec does not give are the model's own (log 5) and not stated here. -/
def Obligations.ResetIsWellKept : Prop :=
  let s := State.reset
  s.memWf ∧ s.ctxs = [] ∧ s.launches = [] ∧ s.ops = [] ∧ s.flight = [] ∧ s.sorterPairs = [] ∧ s.homeQ = [] ∧
  s.bar0.lastHost = 0 ∧ s.lastDev = 0 ∧ s.backlog = [] ∧
  ∀ c, let q := s.core c
    q.work = none ∧ q.convoy = false ∧ q.priv = false ∧ q.share = 0 ∧ q.Quiet ∧ (∀ b, (q.bar b).st = .idle) ∧
    ∀ t, (q.tl t).issued = 0 ∧ (q.tl t).done = 0

/-- Every step keeps every memory in its canonical form. In a state in which device memory, host memory, the W-stack and
every tile's local memory list their bytes in rising order of address, once each and never one that equals what an
unlisted address reads as, every next state of a step has the same property; so equal memories are equal data. The
canonical form is the model's own representation of memory (log 4). -/
def Obligations.StepsKeepMemoryCanonical : Prop :=
  ∀ s t : State, s.memWf → step s = .next t → t.memWf
end

