-- ==== Sys2Proof/Laws/Maps.lean ====
section
/-! SUPPORT. What reading after writing gives, for sparse maps and for memory, and that every memory operation keeps the
canonical form. -/
namespace Sys2Proof.Machine
open Sys2Proof

/-! ## Sparse maps -/

@[simp] theorem SMap.find_set_same {α : Type} (m : SMap α) (k : Nat) (a : α) : SMap.find (SMap.set m k a) k = some a := by
  induction m with
  | nil => simp [SMap.set, SMap.find]
  | cons x r ih =>
    obtain ⟨j, b⟩ := x
    by_cases h : j = k
    · simp [SMap.set, SMap.find, h]
    · by_cases h' : k < j <;> simp [SMap.set, SMap.find, h, h', ih]

theorem SMap.find_set_other {α : Type} (m : SMap α) {k j : Nat} (h : j ≠ k) (a : α) :
    SMap.find (SMap.set m k a) j = SMap.find m j := by
  induction m with
  | nil => simp [SMap.set, SMap.find, h.symm]
  | cons x r ih =>
    obtain ⟨i, b⟩ := x
    by_cases hk : i = k
    · subst hk; simp [SMap.set, SMap.find, h.symm]
    · by_cases hlt : k < i
      · simp [SMap.set, SMap.find, hk, hlt, h.symm]
      · rw [SMap.set, if_neg hk, if_neg hlt, SMap.find, SMap.find, ih]

@[simp] theorem SMap.get_set_same {α : Type} (m : SMap α) (k : Nat) (a d : α) : SMap.get (SMap.set m k a) k d = a := by
  simp [SMap.get]

theorem SMap.get_set_other {α : Type} (m : SMap α) {k j : Nat} (h : j ≠ k) (a d : α) :
    SMap.get (SMap.set m k a) j d = SMap.get m j d := by
  simp [SMap.get, SMap.find_set_other m h]

@[simp] theorem SMap.find_erase_same {α : Type} (m : SMap α) (k : Nat) : SMap.find (SMap.erase m k) k = none := by
  induction m with
  | nil => rfl
  | cons x r ih =>
    obtain ⟨j, b⟩ := x
    by_cases h : j = k <;> simp [SMap.erase, SMap.find, h, ih]

theorem SMap.find_erase_other {α : Type} (m : SMap α) {k j : Nat} (h : j ≠ k) :
    SMap.find (SMap.erase m k) j = SMap.find m j := by
  induction m with
  | nil => rfl
  | cons x r ih =>
    obtain ⟨i, b⟩ := x
    by_cases hk : i = k
    · subst hk; simp [SMap.erase, SMap.find, h.symm, ih]
    · rw [SMap.erase, if_neg hk, SMap.find, SMap.find, ih]

theorem SMap.find_mapVals {α : Type} (m : SMap α) (f : Nat → α → α) (k : Nat) :
    SMap.find (SMap.mapVals m f) k = (SMap.find m k).map (f k) := by
  induction m with
  | nil => rfl
  | cons x r ih =>
    obtain ⟨j, b⟩ := x
    by_cases h : j = k
    · subst h; simp [SMap.mapVals, SMap.find]
    · simp [SMap.mapVals, SMap.find, h, ih]

/-! ## Memory -/

theorem Mem.get_clear_same (m : Mem) (a : Nat) : (m.clear a).get a = 0 := by
  induction m with
  | nil => rfl
  | cons x r ih =>
    obtain ⟨j, b⟩ := x
    by_cases h : j = a <;> simp [Mem.clear, Mem.get, h, ih]

theorem Mem.get_clear_other (m : Mem) {a j : Nat} (h : j ≠ a) : (m.clear a).get j = m.get j := by
  induction m with
  | nil => rfl
  | cons x r ih =>
    obtain ⟨i, b⟩ := x
    by_cases hk : i = a
    · subst hk; simp [Mem.clear, Mem.get, h.symm, ih]
    · rw [Mem.clear, if_neg hk, Mem.get, Mem.get, ih]

theorem Mem.get_list_same (m : Mem) (a : Nat) (b : Byte) : (m.list a b).get a = b := by
  induction m with
  | nil => simp [Mem.list, Mem.get]
  | cons x r ih =>
    obtain ⟨j, c⟩ := x
    by_cases h : j = a
    · simp [Mem.list, Mem.get, h]
    · by_cases h' : a < j <;> simp [Mem.list, Mem.get, h, h', ih]

theorem Mem.get_list_other (m : Mem) {a j : Nat} (h : j ≠ a) (b : Byte) : (m.list a b).get j = m.get j := by
  induction m with
  | nil => simp [Mem.list, Mem.get, h.symm]
  | cons x r ih =>
    obtain ⟨i, c⟩ := x
    by_cases hk : i = a
    · subst hk; simp [Mem.list, Mem.get, h.symm]
    · by_cases hlt : a < i
      · simp [Mem.list, Mem.get, hk, hlt, h.symm]
      · rw [Mem.list, if_neg hk, if_neg hlt, Mem.get, Mem.get, ih]

/-- A byte reads as what was last written to it. -/
@[simp] theorem Mem.get_put_same (m : Mem) (a : Nat) (b : Byte) : (m.put a b).get a = b := by
  unfold Mem.put
  split
  · subst_vars; exact m.get_clear_same a
  · exact m.get_list_same a b

/-- A write leaves every other byte alone. -/
theorem Mem.get_put_other (m : Mem) {a j : Nat} (h : j ≠ a) (b : Byte) : (m.put a b).get j = m.get j := by
  unfold Mem.put
  split
  · exact m.get_clear_other h
  · exact m.get_list_other h b

/-- Bytes outside a run of written bytes are left alone. -/
theorem Mem.get_write_other (m : Mem) (a : Nat) (bs : List Byte) {j : Nat} (h : j < a ∨ a + bs.length ≤ j) :
    (m.write a bs).get j = m.get j := by
  induction bs generalizing m a with
  | nil => rfl
  | cons b bs ih =>
    have hl : (b :: bs).length = bs.length + 1 := rfl
    have h1 : j ≠ a := by omega
    have h2 : j < a + 1 ∨ a + 1 + bs.length ≤ j := by omega
    rw [Mem.write, ih _ _ h2, Mem.get_put_other m h1]

/-- A run of written bytes reads back. -/
theorem Mem.get_write_same (m : Mem) (a : Nat) (bs : List Byte) (i : Nat) (h : i < bs.length) :
    (m.write a bs).get (a + i) = bs[i] := by
  induction bs generalizing m a i with
  | nil => simp at h
  | cons b bs ih =>
    cases i with
    | zero =>
      rw [Mem.write]; simp only [Nat.add_zero]; rw [Mem.get_write_other _ (a + 1) bs (Or.inl (Nat.lt_succ_self a))]
      simp
    | succ i =>
      have := ih (m.put a b) (a + 1) i (by simpa using h)
      rw [Mem.write, show a + (i + 1) = a + 1 + i by omega, this]
      simp

/-! ## The canonical form -/

theorem Mem.wfFrom_mono (m : Mem) {lo hi : Nat} (h : lo ≤ hi) (w : Mem.wfFrom hi m = true) : Mem.wfFrom lo m = true := by
  cases m with
  | nil => rfl
  | cons x r =>
    obtain ⟨a, b⟩ := x
    simp only [Mem.wfFrom, Bool.and_eq_true, decide_eq_true_eq] at w ⊢
    exact ⟨⟨by omega, w.1.2⟩, w.2⟩

theorem Mem.wfFrom_clear (m : Mem) (lo a : Nat) (w : Mem.wfFrom lo m = true) : Mem.wfFrom lo (m.clear a) = true := by
  induction m generalizing lo with
  | nil => rfl
  | cons x r ih =>
    obtain ⟨j, b⟩ := x
    simp only [Mem.wfFrom, Bool.and_eq_true, decide_eq_true_eq] at w
    by_cases h : j = a
    · simp only [Mem.clear, h, if_true]
      exact ih lo (Mem.wfFrom_mono r (by omega) w.2)
    · simp only [Mem.clear, h, if_false, Mem.wfFrom, Bool.and_eq_true, decide_eq_true_eq]
      exact ⟨w.1, ih _ w.2⟩

theorem Mem.wfFrom_list (m : Mem) (lo a : Nat) (b : Byte) (hb : b ≠ 0) (ha : lo ≤ a) (w : Mem.wfFrom lo m = true) :
    Mem.wfFrom lo (m.list a b) = true := by
  induction m generalizing lo with
  | nil => simpa [Mem.list, Mem.wfFrom, ha] using hb
  | cons x r ih =>
    obtain ⟨j, c⟩ := x
    simp only [Mem.wfFrom, Bool.and_eq_true, decide_eq_true_eq] at w
    by_cases h : j = a
    · subst h
      simp only [Mem.list, if_true, Mem.wfFrom, Bool.and_eq_true, decide_eq_true_eq]
      exact ⟨⟨ha, by simpa using hb⟩, w.2⟩
    · by_cases h' : a < j
      · simp only [Mem.list, h, h', if_true, if_false, Mem.wfFrom, Bool.and_eq_true, decide_eq_true_eq]
        exact ⟨⟨ha, by simpa using hb⟩, ⟨by omega, w.1.2⟩, w.2⟩
      · simp only [Mem.list, h, h', if_false, Mem.wfFrom, Bool.and_eq_true, decide_eq_true_eq]
        exact ⟨w.1, ih (j + 1) (by omega) w.2⟩

/-- Writing a byte keeps the canonical form. -/
theorem Memory.wf_put (m : Mem) (a : Nat) (b : Byte) (w : Memory.wf m = true) : Memory.wf (m.put a b) = true := by
  unfold Mem.put
  split
  · exact Mem.wfFrom_clear m 0 a w
  · next h => exact Mem.wfFrom_list m 0 a b h (Nat.zero_le a) w

theorem Memory.wf_clear (m : Mem) (a : Nat) (w : Memory.wf m = true) : Memory.wf (m.clear a) = true :=
  Mem.wfFrom_clear m 0 a w

/-- Writing a run of bytes keeps the canonical form. -/
theorem Memory.wf_write (m : Mem) (a : Nat) (bs : List Byte) (w : Memory.wf m = true) :
    Memory.wf (m.write a bs) = true := by
  induction bs generalizing m a with
  | nil => exact w
  | cons b bs ih => exact ih _ _ (Memory.wf_put m a b w)

/-- Writing listed cells keeps the canonical form. -/
theorem Memory.wf_writeCells (m : Mem) (cs : List Host.Cell) (w : Memory.wf m = true) :
    Memory.wf (m.writeCells cs) = true := by
  induction cs generalizing m with
  | nil => exact w
  | cons c cs ih =>
    obtain ⟨a, b⟩ := c
    exact ih _ (Memory.wf_put m a b w)

end Sys2Proof.Machine
end

