-- ==== Sys2Proof/Laws/State.lean ====
section
/-! SUPPORT. What each update of the state leaves of each of its fields. -/
namespace Sys2Proof.Machine
open Sys2Proof

/-! ## Reading a unit after writing one -/

@[simp] theorem State.core_setCore_same (s : State) (c : CoreId) (q : Core) : (s.setCore c q).core c = q := by
  simp [State.core, State.setCore]
theorem State.core_setCore_other (s : State) {c d : CoreId} (h : d ≠ c) (q : Core) :
    (s.setCore c q).core d = s.core d := by
  simp [State.core, State.setCore, SMap.get_set_other _ h]
@[simp] theorem State.core_modCore_same (s : State) (c : CoreId) (f : Core → Core) :
    (s.modCore c f).core c = f (s.core c) := by simp [State.modCore]
theorem State.core_modCore_other (s : State) {c d : CoreId} (h : d ≠ c) (f : Core → Core) :
    (s.modCore c f).core d = s.core d := by simp [State.modCore, State.core_setCore_other s h]
@[simp] theorem State.tile_setTile_same (s : State) (t : Nat) (x : Tile) : (s.setTile t x).tile t = x := by
  simp [State.tile, State.setTile]
theorem State.tile_setTile_other (s : State) {t u : Nat} (h : u ≠ t) (x : Tile) : (s.setTile t x).tile u = s.tile u := by
  simp [State.tile, State.setTile, SMap.get_set_other _ h]
@[simp] theorem State.tile_modTile_same (s : State) (t : Nat) (f : Tile → Tile) :
    (s.modTile t f).tile t = f (s.tile t) := by simp [State.modTile]
@[simp] theorem State.cluster_setCluster_same (s : State) (n : Nat) (x : Cluster) :
    (s.setCluster n x).cluster n = x := by simp [State.cluster, State.setCluster]
theorem State.cluster_setCluster_other (s : State) {n m : Nat} (h : m ≠ n) (x : Cluster) :
    (s.setCluster n x).cluster m = s.cluster m := by
  simp [State.cluster, State.setCluster, SMap.get_set_other _ h]
@[simp] theorem State.cluster_modCluster_same (s : State) (n : Nat) (f : Cluster → Cluster) :
    (s.modCluster n f).cluster n = f (s.cluster n) := by simp [State.modCluster]
@[simp] theorem State.die_modDie_same (s : State) (d : Nat) (f : Die → Die) : (s.modDie d f).die d = f (s.die d) := by
  simp [State.die, State.modDie]

/-! ## setCore -/

@[simp] theorem State.setCore_tiles (s : State) (c : CoreId) (q : Core) : (s.setCore c q).tiles = s.tiles := rfl
@[simp] theorem State.setCore_clusters (s : State) (c : CoreId) (q : Core) : (s.setCore c q).clusters = s.clusters := rfl
@[simp] theorem State.setCore_dies (s : State) (c : CoreId) (q : Core) : (s.setCore c q).dies = s.dies := rfl
@[simp] theorem State.setCore_wstack (s : State) (c : CoreId) (q : Core) : (s.setCore c q).wstack = s.wstack := rfl
@[simp] theorem State.setCore_backing (s : State) (c : CoreId) (q : Core) : (s.setCore c q).backing = s.backing := rfl
@[simp] theorem State.setCore_wpoison (s : State) (c : CoreId) (q : Core) : (s.setCore c q).wpoison = s.wpoison := rfl
@[simp] theorem State.setCore_scrubbed (s : State) (c : CoreId) (q : Core) : (s.setCore c q).scrubbed = s.scrubbed := rfl
@[simp] theorem State.setCore_objs (s : State) (c : CoreId) (q : Core) : (s.setCore c q).objs = s.objs := rfl
@[simp] theorem State.setCore_sorters (s : State) (c : CoreId) (q : Core) : (s.setCore c q).sorters = s.sorters := rfl
@[simp] theorem State.setCore_mem (s : State) (c : CoreId) (q : Core) : (s.setCore c q).mem = s.mem := rfl
@[simp] theorem State.setCore_host (s : State) (c : CoreId) (q : Core) : (s.setCore c q).host = s.host := rfl
@[simp] theorem State.setCore_tier (s : State) (c : CoreId) (q : Core) : (s.setCore c q).tier = s.tier := rfl
@[simp] theorem State.setCore_tierTags (s : State) (c : CoreId) (q : Core) : (s.setCore c q).tierTags = s.tierTags := rfl
@[simp] theorem State.setCore_pools (s : State) (c : CoreId) (q : Core) : (s.setCore c q).pools = s.pools := rfl
@[simp] theorem State.setCore_slices (s : State) (c : CoreId) (q : Core) : (s.setCore c q).slices = s.slices := rfl
@[simp] theorem State.setCore_homeQ (s : State) (c : CoreId) (q : Core) : (s.setCore c q).homeQ = s.homeQ := rfl
@[simp] theorem State.setCore_frames (s : State) (c : CoreId) (q : Core) : (s.setCore c q).frames = s.frames := rfl
@[simp] theorem State.setCore_viewPend (s : State) (c : CoreId) (q : Core) : (s.setCore c q).viewPend = s.viewPend := rfl
@[simp] theorem State.setCore_viewDir (s : State) (c : CoreId) (q : Core) : (s.setCore c q).viewDir = s.viewDir := rfl
@[simp] theorem State.setCore_past (s : State) (c : CoreId) (q : Core) : (s.setCore c q).past = s.past := rfl
@[simp] theorem State.setCore_poison (s : State) (c : CoreId) (q : Core) : (s.setCore c q).poison = s.poison := rfl
@[simp] theorem State.setCore_regions (s : State) (c : CoreId) (q : Core) : (s.setCore c q).regions = s.regions := rfl
@[simp] theorem State.setCore_flight (s : State) (c : CoreId) (q : Core) : (s.setCore c q).flight = s.flight := rfl
@[simp] theorem State.setCore_pairsOut (s : State) (c : CoreId) (q : Core) : (s.setCore c q).pairsOut = s.pairsOut := rfl
@[simp] theorem State.setCore_ops (s : State) (c : CoreId) (q : Core) : (s.setCore c q).ops = s.ops := rfl
@[simp] theorem State.setCore_orphans (s : State) (c : CoreId) (q : Core) : (s.setCore c q).orphans = s.orphans := rfl
@[simp] theorem State.setCore_ctxs (s : State) (c : CoreId) (q : Core) : (s.setCore c q).ctxs = s.ctxs := rfl
@[simp] theorem State.setCore_launches (s : State) (c : CoreId) (q : Core) : (s.setCore c q).launches = s.launches := rfl
@[simp] theorem State.setCore_pageReqs (s : State) (c : CoreId) (q : Core) : (s.setCore c q).pageReqs = s.pageReqs := rfl
@[simp] theorem State.setCore_migrations (s : State) (c : CoreId) (q : Core) : (s.setCore c q).migrations = s.migrations := rfl
@[simp] theorem State.setCore_saved (s : State) (c : CoreId) (q : Core) : (s.setCore c q).saved = s.saved := rfl
@[simp] theorem State.setCore_probes (s : State) (c : CoreId) (q : Core) : (s.setCore c q).probes = s.probes := rfl
@[simp] theorem State.setCore_received (s : State) (c : CoreId) (q : Core) : (s.setCore c q).received = s.received := rfl
@[simp] theorem State.setCore_receipts (s : State) (c : CoreId) (q : Core) : (s.setCore c q).receipts = s.receipts := rfl
@[simp] theorem State.setCore_ring (s : State) (c : CoreId) (q : Core) : (s.setCore c q).ring = s.ring := rfl
@[simp] theorem State.setCore_bar0 (s : State) (c : CoreId) (q : Core) : (s.setCore c q).bar0 = s.bar0 := rfl
@[simp] theorem State.setCore_cfg (s : State) (c : CoreId) (q : Core) : (s.setCore c q).cfg = s.cfg := rfl
@[simp] theorem State.setCore_streamPos (s : State) (c : CoreId) (q : Core) : (s.setCore c q).streamPos = s.streamPos := rfl
@[simp] theorem State.setCore_lastDev (s : State) (c : CoreId) (q : Core) : (s.setCore c q).lastDev = s.lastDev := rfl
@[simp] theorem State.setCore_evTail (s : State) (c : CoreId) (q : Core) : (s.setCore c q).evTail = s.evTail := rfl
@[simp] theorem State.setCore_backlog (s : State) (c : CoreId) (q : Core) : (s.setCore c q).backlog = s.backlog := rfl
@[simp] theorem State.setCore_kept (s : State) (c : CoreId) (q : Core) : (s.setCore c q).kept = s.kept := rfl
@[simp] theorem State.setCore_gap (s : State) (c : CoreId) (q : Core) : (s.setCore c q).gap = s.gap := rfl
@[simp] theorem State.setCore_msix (s : State) (c : CoreId) (q : Core) : (s.setCore c q).msix = s.msix := rfl
@[simp] theorem State.setCore_msixSince (s : State) (c : CoreId) (q : Core) : (s.setCore c q).msixSince = s.msixSince := rfl
@[simp] theorem State.setCore_msixRaised (s : State) (c : CoreId) (q : Core) : (s.setCore c q).msixRaised = s.msixRaised := rfl
@[simp] theorem State.setCore_limit (s : State) (c : CoreId) (q : Core) : (s.setCore c q).limit = s.limit := rfl
@[simp] theorem State.setCore_measured (s : State) (c : CoreId) (q : Core) : (s.setCore c q).measured = s.measured := rfl
@[simp] theorem State.setCore_capHigh (s : State) (c : CoreId) (q : Core) : (s.setCore c q).capHigh = s.capHigh := rfl
@[simp] theorem State.setCore_ckpt (s : State) (c : CoreId) (q : Core) : (s.setCore c q).ckpt = s.ckpt := rfl
@[simp] theorem State.setCore_heldRecs (s : State) (c : CoreId) (q : Core) : (s.setCore c q).heldRecs = s.heldRecs := rfl
@[simp] theorem State.setCore_safe (s : State) (c : CoreId) (q : Core) : (s.setCore c q).safe = s.safe := rfl
@[simp] theorem State.setCore_attachPending (s : State) (c : CoreId) (q : Core) : (s.setCore c q).attachPending = s.attachPending := rfl
@[simp] theorem State.setCore_telNext (s : State) (c : CoreId) (q : Core) : (s.setCore c q).telNext = s.telNext := rfl
@[simp] theorem State.setCore_bootSlot (s : State) (c : CoreId) (q : Core) : (s.setCore c q).bootSlot = s.bootSlot := rfl
@[simp] theorem State.setCore_flash (s : State) (c : CoreId) (q : Core) : (s.setCore c q).flash = s.flash := rfl
@[simp] theorem State.setCore_flashWords (s : State) (c : CoreId) (q : Core) : (s.setCore c q).flashWords = s.flashWords := rfl
@[simp] theorem State.setCore_points (s : State) (c : CoreId) (q : Core) : (s.setCore c q).points = s.points := rfl
@[simp] theorem State.setCore_persist (s : State) (c : CoreId) (q : Core) : (s.setCore c q).persist = s.persist := rfl
@[simp] theorem State.setCore_safeCxl (s : State) (c : CoreId) (q : Core) : (s.setCore c q).safeCxl = s.safeCxl := rfl
@[simp] theorem State.setCore_ringRec (s : State) (c : CoreId) (q : Core) : (s.setCore c q).ringRec = s.ringRec := rfl
@[simp] theorem State.setCore_devRec (s : State) (c : CoreId) (q : Core) : (s.setCore c q).devRec = s.devRec := rfl
@[simp] theorem State.setCore_now (s : State) (c : CoreId) (q : Core) : (s.setCore c q).now = s.now := rfl
@[simp] theorem State.setCore_cur (s : State) (c : CoreId) (q : Core) : (s.setCore c q).cur = s.cur := rfl
@[simp] theorem State.setCore_agenda (s : State) (c : CoreId) (q : Core) : (s.setCore c q).agenda = s.agenda := rfl
@[simp] theorem State.setCore_tick (s : State) (c : CoreId) (q : Core) : (s.setCore c q).tick = s.tick := rfl
@[simp] theorem State.setCore_cards (s : State) (c : CoreId) (q : Core) : (s.setCore c q).cards = s.cards := rfl
@[simp] theorem State.setCore_nextInst (s : State) (c : CoreId) (q : Core) : (s.setCore c q).nextInst = s.nextInst := rfl
@[simp] theorem State.setCore_nextOp (s : State) (c : CoreId) (q : Core) : (s.setCore c q).nextOp = s.nextOp := rfl
@[simp] theorem State.setCore_orders (s : State) (c : CoreId) (q : Core) : (s.setCore c q).orders = s.orders := rfl
@[simp] theorem State.setCore_tile (s : State) (c : CoreId) (q : Core) (i : Nat) : (s.setCore c q).tile i = s.tile i := rfl
@[simp] theorem State.setCore_cluster (s : State) (c : CoreId) (q : Core) (i : Nat) : (s.setCore c q).cluster i = s.cluster i := rfl
@[simp] theorem State.setCore_die (s : State) (c : CoreId) (q : Core) (i : Nat) : (s.setCore c q).die i = s.die i := rfl

/-! ## modCore -/

@[simp] theorem State.modCore_tiles (s : State) (c : CoreId) (f : Core → Core) : (s.modCore c f).tiles = s.tiles := rfl
@[simp] theorem State.modCore_clusters (s : State) (c : CoreId) (f : Core → Core) : (s.modCore c f).clusters = s.clusters := rfl
@[simp] theorem State.modCore_dies (s : State) (c : CoreId) (f : Core → Core) : (s.modCore c f).dies = s.dies := rfl
@[simp] theorem State.modCore_wstack (s : State) (c : CoreId) (f : Core → Core) : (s.modCore c f).wstack = s.wstack := rfl
@[simp] theorem State.modCore_backing (s : State) (c : CoreId) (f : Core → Core) : (s.modCore c f).backing = s.backing := rfl
@[simp] theorem State.modCore_wpoison (s : State) (c : CoreId) (f : Core → Core) : (s.modCore c f).wpoison = s.wpoison := rfl
@[simp] theorem State.modCore_scrubbed (s : State) (c : CoreId) (f : Core → Core) : (s.modCore c f).scrubbed = s.scrubbed := rfl
@[simp] theorem State.modCore_objs (s : State) (c : CoreId) (f : Core → Core) : (s.modCore c f).objs = s.objs := rfl
@[simp] theorem State.modCore_sorters (s : State) (c : CoreId) (f : Core → Core) : (s.modCore c f).sorters = s.sorters := rfl
@[simp] theorem State.modCore_mem (s : State) (c : CoreId) (f : Core → Core) : (s.modCore c f).mem = s.mem := rfl
@[simp] theorem State.modCore_host (s : State) (c : CoreId) (f : Core → Core) : (s.modCore c f).host = s.host := rfl
@[simp] theorem State.modCore_tier (s : State) (c : CoreId) (f : Core → Core) : (s.modCore c f).tier = s.tier := rfl
@[simp] theorem State.modCore_tierTags (s : State) (c : CoreId) (f : Core → Core) : (s.modCore c f).tierTags = s.tierTags := rfl
@[simp] theorem State.modCore_pools (s : State) (c : CoreId) (f : Core → Core) : (s.modCore c f).pools = s.pools := rfl
@[simp] theorem State.modCore_slices (s : State) (c : CoreId) (f : Core → Core) : (s.modCore c f).slices = s.slices := rfl
@[simp] theorem State.modCore_homeQ (s : State) (c : CoreId) (f : Core → Core) : (s.modCore c f).homeQ = s.homeQ := rfl
@[simp] theorem State.modCore_frames (s : State) (c : CoreId) (f : Core → Core) : (s.modCore c f).frames = s.frames := rfl
@[simp] theorem State.modCore_viewPend (s : State) (c : CoreId) (f : Core → Core) : (s.modCore c f).viewPend = s.viewPend := rfl
@[simp] theorem State.modCore_viewDir (s : State) (c : CoreId) (f : Core → Core) : (s.modCore c f).viewDir = s.viewDir := rfl
@[simp] theorem State.modCore_past (s : State) (c : CoreId) (f : Core → Core) : (s.modCore c f).past = s.past := rfl
@[simp] theorem State.modCore_poison (s : State) (c : CoreId) (f : Core → Core) : (s.modCore c f).poison = s.poison := rfl
@[simp] theorem State.modCore_regions (s : State) (c : CoreId) (f : Core → Core) : (s.modCore c f).regions = s.regions := rfl
@[simp] theorem State.modCore_flight (s : State) (c : CoreId) (f : Core → Core) : (s.modCore c f).flight = s.flight := rfl
@[simp] theorem State.modCore_pairsOut (s : State) (c : CoreId) (f : Core → Core) : (s.modCore c f).pairsOut = s.pairsOut := rfl
@[simp] theorem State.modCore_ops (s : State) (c : CoreId) (f : Core → Core) : (s.modCore c f).ops = s.ops := rfl
@[simp] theorem State.modCore_orphans (s : State) (c : CoreId) (f : Core → Core) : (s.modCore c f).orphans = s.orphans := rfl
@[simp] theorem State.modCore_ctxs (s : State) (c : CoreId) (f : Core → Core) : (s.modCore c f).ctxs = s.ctxs := rfl
@[simp] theorem State.modCore_launches (s : State) (c : CoreId) (f : Core → Core) : (s.modCore c f).launches = s.launches := rfl
@[simp] theorem State.modCore_pageReqs (s : State) (c : CoreId) (f : Core → Core) : (s.modCore c f).pageReqs = s.pageReqs := rfl
@[simp] theorem State.modCore_migrations (s : State) (c : CoreId) (f : Core → Core) : (s.modCore c f).migrations = s.migrations := rfl
@[simp] theorem State.modCore_saved (s : State) (c : CoreId) (f : Core → Core) : (s.modCore c f).saved = s.saved := rfl
@[simp] theorem State.modCore_probes (s : State) (c : CoreId) (f : Core → Core) : (s.modCore c f).probes = s.probes := rfl
@[simp] theorem State.modCore_received (s : State) (c : CoreId) (f : Core → Core) : (s.modCore c f).received = s.received := rfl
@[simp] theorem State.modCore_receipts (s : State) (c : CoreId) (f : Core → Core) : (s.modCore c f).receipts = s.receipts := rfl
@[simp] theorem State.modCore_ring (s : State) (c : CoreId) (f : Core → Core) : (s.modCore c f).ring = s.ring := rfl
@[simp] theorem State.modCore_bar0 (s : State) (c : CoreId) (f : Core → Core) : (s.modCore c f).bar0 = s.bar0 := rfl
@[simp] theorem State.modCore_cfg (s : State) (c : CoreId) (f : Core → Core) : (s.modCore c f).cfg = s.cfg := rfl
@[simp] theorem State.modCore_streamPos (s : State) (c : CoreId) (f : Core → Core) : (s.modCore c f).streamPos = s.streamPos := rfl
@[simp] theorem State.modCore_lastDev (s : State) (c : CoreId) (f : Core → Core) : (s.modCore c f).lastDev = s.lastDev := rfl
@[simp] theorem State.modCore_evTail (s : State) (c : CoreId) (f : Core → Core) : (s.modCore c f).evTail = s.evTail := rfl
@[simp] theorem State.modCore_backlog (s : State) (c : CoreId) (f : Core → Core) : (s.modCore c f).backlog = s.backlog := rfl
@[simp] theorem State.modCore_kept (s : State) (c : CoreId) (f : Core → Core) : (s.modCore c f).kept = s.kept := rfl
@[simp] theorem State.modCore_gap (s : State) (c : CoreId) (f : Core → Core) : (s.modCore c f).gap = s.gap := rfl
@[simp] theorem State.modCore_msix (s : State) (c : CoreId) (f : Core → Core) : (s.modCore c f).msix = s.msix := rfl
@[simp] theorem State.modCore_msixSince (s : State) (c : CoreId) (f : Core → Core) : (s.modCore c f).msixSince = s.msixSince := rfl
@[simp] theorem State.modCore_msixRaised (s : State) (c : CoreId) (f : Core → Core) : (s.modCore c f).msixRaised = s.msixRaised := rfl
@[simp] theorem State.modCore_limit (s : State) (c : CoreId) (f : Core → Core) : (s.modCore c f).limit = s.limit := rfl
@[simp] theorem State.modCore_measured (s : State) (c : CoreId) (f : Core → Core) : (s.modCore c f).measured = s.measured := rfl
@[simp] theorem State.modCore_capHigh (s : State) (c : CoreId) (f : Core → Core) : (s.modCore c f).capHigh = s.capHigh := rfl
@[simp] theorem State.modCore_ckpt (s : State) (c : CoreId) (f : Core → Core) : (s.modCore c f).ckpt = s.ckpt := rfl
@[simp] theorem State.modCore_heldRecs (s : State) (c : CoreId) (f : Core → Core) : (s.modCore c f).heldRecs = s.heldRecs := rfl
@[simp] theorem State.modCore_safe (s : State) (c : CoreId) (f : Core → Core) : (s.modCore c f).safe = s.safe := rfl
@[simp] theorem State.modCore_attachPending (s : State) (c : CoreId) (f : Core → Core) : (s.modCore c f).attachPending = s.attachPending := rfl
@[simp] theorem State.modCore_telNext (s : State) (c : CoreId) (f : Core → Core) : (s.modCore c f).telNext = s.telNext := rfl
@[simp] theorem State.modCore_bootSlot (s : State) (c : CoreId) (f : Core → Core) : (s.modCore c f).bootSlot = s.bootSlot := rfl
@[simp] theorem State.modCore_flash (s : State) (c : CoreId) (f : Core → Core) : (s.modCore c f).flash = s.flash := rfl
@[simp] theorem State.modCore_flashWords (s : State) (c : CoreId) (f : Core → Core) : (s.modCore c f).flashWords = s.flashWords := rfl
@[simp] theorem State.modCore_points (s : State) (c : CoreId) (f : Core → Core) : (s.modCore c f).points = s.points := rfl
@[simp] theorem State.modCore_persist (s : State) (c : CoreId) (f : Core → Core) : (s.modCore c f).persist = s.persist := rfl
@[simp] theorem State.modCore_safeCxl (s : State) (c : CoreId) (f : Core → Core) : (s.modCore c f).safeCxl = s.safeCxl := rfl
@[simp] theorem State.modCore_ringRec (s : State) (c : CoreId) (f : Core → Core) : (s.modCore c f).ringRec = s.ringRec := rfl
@[simp] theorem State.modCore_devRec (s : State) (c : CoreId) (f : Core → Core) : (s.modCore c f).devRec = s.devRec := rfl
@[simp] theorem State.modCore_now (s : State) (c : CoreId) (f : Core → Core) : (s.modCore c f).now = s.now := rfl
@[simp] theorem State.modCore_cur (s : State) (c : CoreId) (f : Core → Core) : (s.modCore c f).cur = s.cur := rfl
@[simp] theorem State.modCore_agenda (s : State) (c : CoreId) (f : Core → Core) : (s.modCore c f).agenda = s.agenda := rfl
@[simp] theorem State.modCore_tick (s : State) (c : CoreId) (f : Core → Core) : (s.modCore c f).tick = s.tick := rfl
@[simp] theorem State.modCore_cards (s : State) (c : CoreId) (f : Core → Core) : (s.modCore c f).cards = s.cards := rfl
@[simp] theorem State.modCore_nextInst (s : State) (c : CoreId) (f : Core → Core) : (s.modCore c f).nextInst = s.nextInst := rfl
@[simp] theorem State.modCore_nextOp (s : State) (c : CoreId) (f : Core → Core) : (s.modCore c f).nextOp = s.nextOp := rfl
@[simp] theorem State.modCore_orders (s : State) (c : CoreId) (f : Core → Core) : (s.modCore c f).orders = s.orders := rfl
@[simp] theorem State.modCore_tile (s : State) (c : CoreId) (f : Core → Core) (i : Nat) : (s.modCore c f).tile i = s.tile i := rfl
@[simp] theorem State.modCore_cluster (s : State) (c : CoreId) (f : Core → Core) (i : Nat) : (s.modCore c f).cluster i = s.cluster i := rfl
@[simp] theorem State.modCore_die (s : State) (c : CoreId) (f : Core → Core) (i : Nat) : (s.modCore c f).die i = s.die i := rfl

/-! ## setTile -/

@[simp] theorem State.setTile_cores (s : State) (t : Nat) (x : Tile) : (s.setTile t x).cores = s.cores := rfl
@[simp] theorem State.setTile_clusters (s : State) (t : Nat) (x : Tile) : (s.setTile t x).clusters = s.clusters := rfl
@[simp] theorem State.setTile_dies (s : State) (t : Nat) (x : Tile) : (s.setTile t x).dies = s.dies := rfl
@[simp] theorem State.setTile_wstack (s : State) (t : Nat) (x : Tile) : (s.setTile t x).wstack = s.wstack := rfl
@[simp] theorem State.setTile_backing (s : State) (t : Nat) (x : Tile) : (s.setTile t x).backing = s.backing := rfl
@[simp] theorem State.setTile_wpoison (s : State) (t : Nat) (x : Tile) : (s.setTile t x).wpoison = s.wpoison := rfl
@[simp] theorem State.setTile_scrubbed (s : State) (t : Nat) (x : Tile) : (s.setTile t x).scrubbed = s.scrubbed := rfl
@[simp] theorem State.setTile_objs (s : State) (t : Nat) (x : Tile) : (s.setTile t x).objs = s.objs := rfl
@[simp] theorem State.setTile_sorters (s : State) (t : Nat) (x : Tile) : (s.setTile t x).sorters = s.sorters := rfl
@[simp] theorem State.setTile_mem (s : State) (t : Nat) (x : Tile) : (s.setTile t x).mem = s.mem := rfl
@[simp] theorem State.setTile_host (s : State) (t : Nat) (x : Tile) : (s.setTile t x).host = s.host := rfl
@[simp] theorem State.setTile_tier (s : State) (t : Nat) (x : Tile) : (s.setTile t x).tier = s.tier := rfl
@[simp] theorem State.setTile_tierTags (s : State) (t : Nat) (x : Tile) : (s.setTile t x).tierTags = s.tierTags := rfl
@[simp] theorem State.setTile_pools (s : State) (t : Nat) (x : Tile) : (s.setTile t x).pools = s.pools := rfl
@[simp] theorem State.setTile_slices (s : State) (t : Nat) (x : Tile) : (s.setTile t x).slices = s.slices := rfl
@[simp] theorem State.setTile_homeQ (s : State) (t : Nat) (x : Tile) : (s.setTile t x).homeQ = s.homeQ := rfl
@[simp] theorem State.setTile_frames (s : State) (t : Nat) (x : Tile) : (s.setTile t x).frames = s.frames := rfl
@[simp] theorem State.setTile_viewPend (s : State) (t : Nat) (x : Tile) : (s.setTile t x).viewPend = s.viewPend := rfl
@[simp] theorem State.setTile_viewDir (s : State) (t : Nat) (x : Tile) : (s.setTile t x).viewDir = s.viewDir := rfl
@[simp] theorem State.setTile_past (s : State) (t : Nat) (x : Tile) : (s.setTile t x).past = s.past := rfl
@[simp] theorem State.setTile_poison (s : State) (t : Nat) (x : Tile) : (s.setTile t x).poison = s.poison := rfl
@[simp] theorem State.setTile_regions (s : State) (t : Nat) (x : Tile) : (s.setTile t x).regions = s.regions := rfl
@[simp] theorem State.setTile_flight (s : State) (t : Nat) (x : Tile) : (s.setTile t x).flight = s.flight := rfl
@[simp] theorem State.setTile_pairsOut (s : State) (t : Nat) (x : Tile) : (s.setTile t x).pairsOut = s.pairsOut := rfl
@[simp] theorem State.setTile_ops (s : State) (t : Nat) (x : Tile) : (s.setTile t x).ops = s.ops := rfl
@[simp] theorem State.setTile_orphans (s : State) (t : Nat) (x : Tile) : (s.setTile t x).orphans = s.orphans := rfl
@[simp] theorem State.setTile_ctxs (s : State) (t : Nat) (x : Tile) : (s.setTile t x).ctxs = s.ctxs := rfl
@[simp] theorem State.setTile_launches (s : State) (t : Nat) (x : Tile) : (s.setTile t x).launches = s.launches := rfl
@[simp] theorem State.setTile_pageReqs (s : State) (t : Nat) (x : Tile) : (s.setTile t x).pageReqs = s.pageReqs := rfl
@[simp] theorem State.setTile_migrations (s : State) (t : Nat) (x : Tile) : (s.setTile t x).migrations = s.migrations := rfl
@[simp] theorem State.setTile_saved (s : State) (t : Nat) (x : Tile) : (s.setTile t x).saved = s.saved := rfl
@[simp] theorem State.setTile_probes (s : State) (t : Nat) (x : Tile) : (s.setTile t x).probes = s.probes := rfl
@[simp] theorem State.setTile_received (s : State) (t : Nat) (x : Tile) : (s.setTile t x).received = s.received := rfl
@[simp] theorem State.setTile_receipts (s : State) (t : Nat) (x : Tile) : (s.setTile t x).receipts = s.receipts := rfl
@[simp] theorem State.setTile_ring (s : State) (t : Nat) (x : Tile) : (s.setTile t x).ring = s.ring := rfl
@[simp] theorem State.setTile_bar0 (s : State) (t : Nat) (x : Tile) : (s.setTile t x).bar0 = s.bar0 := rfl
@[simp] theorem State.setTile_cfg (s : State) (t : Nat) (x : Tile) : (s.setTile t x).cfg = s.cfg := rfl
@[simp] theorem State.setTile_streamPos (s : State) (t : Nat) (x : Tile) : (s.setTile t x).streamPos = s.streamPos := rfl
@[simp] theorem State.setTile_lastDev (s : State) (t : Nat) (x : Tile) : (s.setTile t x).lastDev = s.lastDev := rfl
@[simp] theorem State.setTile_evTail (s : State) (t : Nat) (x : Tile) : (s.setTile t x).evTail = s.evTail := rfl
@[simp] theorem State.setTile_backlog (s : State) (t : Nat) (x : Tile) : (s.setTile t x).backlog = s.backlog := rfl
@[simp] theorem State.setTile_kept (s : State) (t : Nat) (x : Tile) : (s.setTile t x).kept = s.kept := rfl
@[simp] theorem State.setTile_gap (s : State) (t : Nat) (x : Tile) : (s.setTile t x).gap = s.gap := rfl
@[simp] theorem State.setTile_msix (s : State) (t : Nat) (x : Tile) : (s.setTile t x).msix = s.msix := rfl
@[simp] theorem State.setTile_msixSince (s : State) (t : Nat) (x : Tile) : (s.setTile t x).msixSince = s.msixSince := rfl
@[simp] theorem State.setTile_msixRaised (s : State) (t : Nat) (x : Tile) : (s.setTile t x).msixRaised = s.msixRaised := rfl
@[simp] theorem State.setTile_limit (s : State) (t : Nat) (x : Tile) : (s.setTile t x).limit = s.limit := rfl
@[simp] theorem State.setTile_measured (s : State) (t : Nat) (x : Tile) : (s.setTile t x).measured = s.measured := rfl
@[simp] theorem State.setTile_capHigh (s : State) (t : Nat) (x : Tile) : (s.setTile t x).capHigh = s.capHigh := rfl
@[simp] theorem State.setTile_ckpt (s : State) (t : Nat) (x : Tile) : (s.setTile t x).ckpt = s.ckpt := rfl
@[simp] theorem State.setTile_heldRecs (s : State) (t : Nat) (x : Tile) : (s.setTile t x).heldRecs = s.heldRecs := rfl
@[simp] theorem State.setTile_safe (s : State) (t : Nat) (x : Tile) : (s.setTile t x).safe = s.safe := rfl
@[simp] theorem State.setTile_attachPending (s : State) (t : Nat) (x : Tile) : (s.setTile t x).attachPending = s.attachPending := rfl
@[simp] theorem State.setTile_telNext (s : State) (t : Nat) (x : Tile) : (s.setTile t x).telNext = s.telNext := rfl
@[simp] theorem State.setTile_bootSlot (s : State) (t : Nat) (x : Tile) : (s.setTile t x).bootSlot = s.bootSlot := rfl
@[simp] theorem State.setTile_flash (s : State) (t : Nat) (x : Tile) : (s.setTile t x).flash = s.flash := rfl
@[simp] theorem State.setTile_flashWords (s : State) (t : Nat) (x : Tile) : (s.setTile t x).flashWords = s.flashWords := rfl
@[simp] theorem State.setTile_points (s : State) (t : Nat) (x : Tile) : (s.setTile t x).points = s.points := rfl
@[simp] theorem State.setTile_persist (s : State) (t : Nat) (x : Tile) : (s.setTile t x).persist = s.persist := rfl
@[simp] theorem State.setTile_safeCxl (s : State) (t : Nat) (x : Tile) : (s.setTile t x).safeCxl = s.safeCxl := rfl
@[simp] theorem State.setTile_ringRec (s : State) (t : Nat) (x : Tile) : (s.setTile t x).ringRec = s.ringRec := rfl
@[simp] theorem State.setTile_devRec (s : State) (t : Nat) (x : Tile) : (s.setTile t x).devRec = s.devRec := rfl
@[simp] theorem State.setTile_now (s : State) (t : Nat) (x : Tile) : (s.setTile t x).now = s.now := rfl
@[simp] theorem State.setTile_cur (s : State) (t : Nat) (x : Tile) : (s.setTile t x).cur = s.cur := rfl
@[simp] theorem State.setTile_agenda (s : State) (t : Nat) (x : Tile) : (s.setTile t x).agenda = s.agenda := rfl
@[simp] theorem State.setTile_tick (s : State) (t : Nat) (x : Tile) : (s.setTile t x).tick = s.tick := rfl
@[simp] theorem State.setTile_cards (s : State) (t : Nat) (x : Tile) : (s.setTile t x).cards = s.cards := rfl
@[simp] theorem State.setTile_nextInst (s : State) (t : Nat) (x : Tile) : (s.setTile t x).nextInst = s.nextInst := rfl
@[simp] theorem State.setTile_nextOp (s : State) (t : Nat) (x : Tile) : (s.setTile t x).nextOp = s.nextOp := rfl
@[simp] theorem State.setTile_orders (s : State) (t : Nat) (x : Tile) : (s.setTile t x).orders = s.orders := rfl
@[simp] theorem State.setTile_core (s : State) (t : Nat) (x : Tile) (i : CoreId) : (s.setTile t x).core i = s.core i := rfl
@[simp] theorem State.setTile_cluster (s : State) (t : Nat) (x : Tile) (i : Nat) : (s.setTile t x).cluster i = s.cluster i := rfl
@[simp] theorem State.setTile_die (s : State) (t : Nat) (x : Tile) (i : Nat) : (s.setTile t x).die i = s.die i := rfl

/-! ## modTile -/

@[simp] theorem State.modTile_cores (s : State) (t : Nat) (f : Tile → Tile) : (s.modTile t f).cores = s.cores := rfl
@[simp] theorem State.modTile_clusters (s : State) (t : Nat) (f : Tile → Tile) : (s.modTile t f).clusters = s.clusters := rfl
@[simp] theorem State.modTile_dies (s : State) (t : Nat) (f : Tile → Tile) : (s.modTile t f).dies = s.dies := rfl
@[simp] theorem State.modTile_wstack (s : State) (t : Nat) (f : Tile → Tile) : (s.modTile t f).wstack = s.wstack := rfl
@[simp] theorem State.modTile_backing (s : State) (t : Nat) (f : Tile → Tile) : (s.modTile t f).backing = s.backing := rfl
@[simp] theorem State.modTile_wpoison (s : State) (t : Nat) (f : Tile → Tile) : (s.modTile t f).wpoison = s.wpoison := rfl
@[simp] theorem State.modTile_scrubbed (s : State) (t : Nat) (f : Tile → Tile) : (s.modTile t f).scrubbed = s.scrubbed := rfl
@[simp] theorem State.modTile_objs (s : State) (t : Nat) (f : Tile → Tile) : (s.modTile t f).objs = s.objs := rfl
@[simp] theorem State.modTile_sorters (s : State) (t : Nat) (f : Tile → Tile) : (s.modTile t f).sorters = s.sorters := rfl
@[simp] theorem State.modTile_mem (s : State) (t : Nat) (f : Tile → Tile) : (s.modTile t f).mem = s.mem := rfl
@[simp] theorem State.modTile_host (s : State) (t : Nat) (f : Tile → Tile) : (s.modTile t f).host = s.host := rfl
@[simp] theorem State.modTile_tier (s : State) (t : Nat) (f : Tile → Tile) : (s.modTile t f).tier = s.tier := rfl
@[simp] theorem State.modTile_tierTags (s : State) (t : Nat) (f : Tile → Tile) : (s.modTile t f).tierTags = s.tierTags := rfl
@[simp] theorem State.modTile_pools (s : State) (t : Nat) (f : Tile → Tile) : (s.modTile t f).pools = s.pools := rfl
@[simp] theorem State.modTile_slices (s : State) (t : Nat) (f : Tile → Tile) : (s.modTile t f).slices = s.slices := rfl
@[simp] theorem State.modTile_homeQ (s : State) (t : Nat) (f : Tile → Tile) : (s.modTile t f).homeQ = s.homeQ := rfl
@[simp] theorem State.modTile_frames (s : State) (t : Nat) (f : Tile → Tile) : (s.modTile t f).frames = s.frames := rfl
@[simp] theorem State.modTile_viewPend (s : State) (t : Nat) (f : Tile → Tile) : (s.modTile t f).viewPend = s.viewPend := rfl
@[simp] theorem State.modTile_viewDir (s : State) (t : Nat) (f : Tile → Tile) : (s.modTile t f).viewDir = s.viewDir := rfl
@[simp] theorem State.modTile_past (s : State) (t : Nat) (f : Tile → Tile) : (s.modTile t f).past = s.past := rfl
@[simp] theorem State.modTile_poison (s : State) (t : Nat) (f : Tile → Tile) : (s.modTile t f).poison = s.poison := rfl
@[simp] theorem State.modTile_regions (s : State) (t : Nat) (f : Tile → Tile) : (s.modTile t f).regions = s.regions := rfl
@[simp] theorem State.modTile_flight (s : State) (t : Nat) (f : Tile → Tile) : (s.modTile t f).flight = s.flight := rfl
@[simp] theorem State.modTile_pairsOut (s : State) (t : Nat) (f : Tile → Tile) : (s.modTile t f).pairsOut = s.pairsOut := rfl
@[simp] theorem State.modTile_ops (s : State) (t : Nat) (f : Tile → Tile) : (s.modTile t f).ops = s.ops := rfl
@[simp] theorem State.modTile_orphans (s : State) (t : Nat) (f : Tile → Tile) : (s.modTile t f).orphans = s.orphans := rfl
@[simp] theorem State.modTile_ctxs (s : State) (t : Nat) (f : Tile → Tile) : (s.modTile t f).ctxs = s.ctxs := rfl
@[simp] theorem State.modTile_launches (s : State) (t : Nat) (f : Tile → Tile) : (s.modTile t f).launches = s.launches := rfl
@[simp] theorem State.modTile_pageReqs (s : State) (t : Nat) (f : Tile → Tile) : (s.modTile t f).pageReqs = s.pageReqs := rfl
@[simp] theorem State.modTile_migrations (s : State) (t : Nat) (f : Tile → Tile) : (s.modTile t f).migrations = s.migrations := rfl
@[simp] theorem State.modTile_saved (s : State) (t : Nat) (f : Tile → Tile) : (s.modTile t f).saved = s.saved := rfl
@[simp] theorem State.modTile_probes (s : State) (t : Nat) (f : Tile → Tile) : (s.modTile t f).probes = s.probes := rfl
@[simp] theorem State.modTile_received (s : State) (t : Nat) (f : Tile → Tile) : (s.modTile t f).received = s.received := rfl
@[simp] theorem State.modTile_receipts (s : State) (t : Nat) (f : Tile → Tile) : (s.modTile t f).receipts = s.receipts := rfl
@[simp] theorem State.modTile_ring (s : State) (t : Nat) (f : Tile → Tile) : (s.modTile t f).ring = s.ring := rfl
@[simp] theorem State.modTile_bar0 (s : State) (t : Nat) (f : Tile → Tile) : (s.modTile t f).bar0 = s.bar0 := rfl
@[simp] theorem State.modTile_cfg (s : State) (t : Nat) (f : Tile → Tile) : (s.modTile t f).cfg = s.cfg := rfl
@[simp] theorem State.modTile_streamPos (s : State) (t : Nat) (f : Tile → Tile) : (s.modTile t f).streamPos = s.streamPos := rfl
@[simp] theorem State.modTile_lastDev (s : State) (t : Nat) (f : Tile → Tile) : (s.modTile t f).lastDev = s.lastDev := rfl
@[simp] theorem State.modTile_evTail (s : State) (t : Nat) (f : Tile → Tile) : (s.modTile t f).evTail = s.evTail := rfl
@[simp] theorem State.modTile_backlog (s : State) (t : Nat) (f : Tile → Tile) : (s.modTile t f).backlog = s.backlog := rfl
@[simp] theorem State.modTile_kept (s : State) (t : Nat) (f : Tile → Tile) : (s.modTile t f).kept = s.kept := rfl
@[simp] theorem State.modTile_gap (s : State) (t : Nat) (f : Tile → Tile) : (s.modTile t f).gap = s.gap := rfl
@[simp] theorem State.modTile_msix (s : State) (t : Nat) (f : Tile → Tile) : (s.modTile t f).msix = s.msix := rfl
@[simp] theorem State.modTile_msixSince (s : State) (t : Nat) (f : Tile → Tile) : (s.modTile t f).msixSince = s.msixSince := rfl
@[simp] theorem State.modTile_msixRaised (s : State) (t : Nat) (f : Tile → Tile) : (s.modTile t f).msixRaised = s.msixRaised := rfl
@[simp] theorem State.modTile_limit (s : State) (t : Nat) (f : Tile → Tile) : (s.modTile t f).limit = s.limit := rfl
@[simp] theorem State.modTile_measured (s : State) (t : Nat) (f : Tile → Tile) : (s.modTile t f).measured = s.measured := rfl
@[simp] theorem State.modTile_capHigh (s : State) (t : Nat) (f : Tile → Tile) : (s.modTile t f).capHigh = s.capHigh := rfl
@[simp] theorem State.modTile_ckpt (s : State) (t : Nat) (f : Tile → Tile) : (s.modTile t f).ckpt = s.ckpt := rfl
@[simp] theorem State.modTile_heldRecs (s : State) (t : Nat) (f : Tile → Tile) : (s.modTile t f).heldRecs = s.heldRecs := rfl
@[simp] theorem State.modTile_safe (s : State) (t : Nat) (f : Tile → Tile) : (s.modTile t f).safe = s.safe := rfl
@[simp] theorem State.modTile_attachPending (s : State) (t : Nat) (f : Tile → Tile) : (s.modTile t f).attachPending = s.attachPending := rfl
@[simp] theorem State.modTile_telNext (s : State) (t : Nat) (f : Tile → Tile) : (s.modTile t f).telNext = s.telNext := rfl
@[simp] theorem State.modTile_bootSlot (s : State) (t : Nat) (f : Tile → Tile) : (s.modTile t f).bootSlot = s.bootSlot := rfl
@[simp] theorem State.modTile_flash (s : State) (t : Nat) (f : Tile → Tile) : (s.modTile t f).flash = s.flash := rfl
@[simp] theorem State.modTile_flashWords (s : State) (t : Nat) (f : Tile → Tile) : (s.modTile t f).flashWords = s.flashWords := rfl
@[simp] theorem State.modTile_points (s : State) (t : Nat) (f : Tile → Tile) : (s.modTile t f).points = s.points := rfl
@[simp] theorem State.modTile_persist (s : State) (t : Nat) (f : Tile → Tile) : (s.modTile t f).persist = s.persist := rfl
@[simp] theorem State.modTile_safeCxl (s : State) (t : Nat) (f : Tile → Tile) : (s.modTile t f).safeCxl = s.safeCxl := rfl
@[simp] theorem State.modTile_ringRec (s : State) (t : Nat) (f : Tile → Tile) : (s.modTile t f).ringRec = s.ringRec := rfl
@[simp] theorem State.modTile_devRec (s : State) (t : Nat) (f : Tile → Tile) : (s.modTile t f).devRec = s.devRec := rfl
@[simp] theorem State.modTile_now (s : State) (t : Nat) (f : Tile → Tile) : (s.modTile t f).now = s.now := rfl
@[simp] theorem State.modTile_cur (s : State) (t : Nat) (f : Tile → Tile) : (s.modTile t f).cur = s.cur := rfl
@[simp] theorem State.modTile_agenda (s : State) (t : Nat) (f : Tile → Tile) : (s.modTile t f).agenda = s.agenda := rfl
@[simp] theorem State.modTile_tick (s : State) (t : Nat) (f : Tile → Tile) : (s.modTile t f).tick = s.tick := rfl
@[simp] theorem State.modTile_cards (s : State) (t : Nat) (f : Tile → Tile) : (s.modTile t f).cards = s.cards := rfl
@[simp] theorem State.modTile_nextInst (s : State) (t : Nat) (f : Tile → Tile) : (s.modTile t f).nextInst = s.nextInst := rfl
@[simp] theorem State.modTile_nextOp (s : State) (t : Nat) (f : Tile → Tile) : (s.modTile t f).nextOp = s.nextOp := rfl
@[simp] theorem State.modTile_orders (s : State) (t : Nat) (f : Tile → Tile) : (s.modTile t f).orders = s.orders := rfl
@[simp] theorem State.modTile_core (s : State) (t : Nat) (f : Tile → Tile) (i : CoreId) : (s.modTile t f).core i = s.core i := rfl
@[simp] theorem State.modTile_cluster (s : State) (t : Nat) (f : Tile → Tile) (i : Nat) : (s.modTile t f).cluster i = s.cluster i := rfl
@[simp] theorem State.modTile_die (s : State) (t : Nat) (f : Tile → Tile) (i : Nat) : (s.modTile t f).die i = s.die i := rfl

/-! ## setCluster -/

@[simp] theorem State.setCluster_cores (s : State) (n : Nat) (x : Cluster) : (s.setCluster n x).cores = s.cores := rfl
@[simp] theorem State.setCluster_tiles (s : State) (n : Nat) (x : Cluster) : (s.setCluster n x).tiles = s.tiles := rfl
@[simp] theorem State.setCluster_dies (s : State) (n : Nat) (x : Cluster) : (s.setCluster n x).dies = s.dies := rfl
@[simp] theorem State.setCluster_wstack (s : State) (n : Nat) (x : Cluster) : (s.setCluster n x).wstack = s.wstack := rfl
@[simp] theorem State.setCluster_backing (s : State) (n : Nat) (x : Cluster) : (s.setCluster n x).backing = s.backing := rfl
@[simp] theorem State.setCluster_wpoison (s : State) (n : Nat) (x : Cluster) : (s.setCluster n x).wpoison = s.wpoison := rfl
@[simp] theorem State.setCluster_scrubbed (s : State) (n : Nat) (x : Cluster) : (s.setCluster n x).scrubbed = s.scrubbed := rfl
@[simp] theorem State.setCluster_objs (s : State) (n : Nat) (x : Cluster) : (s.setCluster n x).objs = s.objs := rfl
@[simp] theorem State.setCluster_sorters (s : State) (n : Nat) (x : Cluster) : (s.setCluster n x).sorters = s.sorters := rfl
@[simp] theorem State.setCluster_mem (s : State) (n : Nat) (x : Cluster) : (s.setCluster n x).mem = s.mem := rfl
@[simp] theorem State.setCluster_host (s : State) (n : Nat) (x : Cluster) : (s.setCluster n x).host = s.host := rfl
@[simp] theorem State.setCluster_tier (s : State) (n : Nat) (x : Cluster) : (s.setCluster n x).tier = s.tier := rfl
@[simp] theorem State.setCluster_tierTags (s : State) (n : Nat) (x : Cluster) : (s.setCluster n x).tierTags = s.tierTags := rfl
@[simp] theorem State.setCluster_pools (s : State) (n : Nat) (x : Cluster) : (s.setCluster n x).pools = s.pools := rfl
@[simp] theorem State.setCluster_slices (s : State) (n : Nat) (x : Cluster) : (s.setCluster n x).slices = s.slices := rfl
@[simp] theorem State.setCluster_homeQ (s : State) (n : Nat) (x : Cluster) : (s.setCluster n x).homeQ = s.homeQ := rfl
@[simp] theorem State.setCluster_frames (s : State) (n : Nat) (x : Cluster) : (s.setCluster n x).frames = s.frames := rfl
@[simp] theorem State.setCluster_viewPend (s : State) (n : Nat) (x : Cluster) : (s.setCluster n x).viewPend = s.viewPend := rfl
@[simp] theorem State.setCluster_viewDir (s : State) (n : Nat) (x : Cluster) : (s.setCluster n x).viewDir = s.viewDir := rfl
@[simp] theorem State.setCluster_past (s : State) (n : Nat) (x : Cluster) : (s.setCluster n x).past = s.past := rfl
@[simp] theorem State.setCluster_poison (s : State) (n : Nat) (x : Cluster) : (s.setCluster n x).poison = s.poison := rfl
@[simp] theorem State.setCluster_regions (s : State) (n : Nat) (x : Cluster) : (s.setCluster n x).regions = s.regions := rfl
@[simp] theorem State.setCluster_flight (s : State) (n : Nat) (x : Cluster) : (s.setCluster n x).flight = s.flight := rfl
@[simp] theorem State.setCluster_pairsOut (s : State) (n : Nat) (x : Cluster) : (s.setCluster n x).pairsOut = s.pairsOut := rfl
@[simp] theorem State.setCluster_ops (s : State) (n : Nat) (x : Cluster) : (s.setCluster n x).ops = s.ops := rfl
@[simp] theorem State.setCluster_orphans (s : State) (n : Nat) (x : Cluster) : (s.setCluster n x).orphans = s.orphans := rfl
@[simp] theorem State.setCluster_ctxs (s : State) (n : Nat) (x : Cluster) : (s.setCluster n x).ctxs = s.ctxs := rfl
@[simp] theorem State.setCluster_launches (s : State) (n : Nat) (x : Cluster) : (s.setCluster n x).launches = s.launches := rfl
@[simp] theorem State.setCluster_pageReqs (s : State) (n : Nat) (x : Cluster) : (s.setCluster n x).pageReqs = s.pageReqs := rfl
@[simp] theorem State.setCluster_migrations (s : State) (n : Nat) (x : Cluster) : (s.setCluster n x).migrations = s.migrations := rfl
@[simp] theorem State.setCluster_saved (s : State) (n : Nat) (x : Cluster) : (s.setCluster n x).saved = s.saved := rfl
@[simp] theorem State.setCluster_probes (s : State) (n : Nat) (x : Cluster) : (s.setCluster n x).probes = s.probes := rfl
@[simp] theorem State.setCluster_received (s : State) (n : Nat) (x : Cluster) : (s.setCluster n x).received = s.received := rfl
@[simp] theorem State.setCluster_receipts (s : State) (n : Nat) (x : Cluster) : (s.setCluster n x).receipts = s.receipts := rfl
@[simp] theorem State.setCluster_ring (s : State) (n : Nat) (x : Cluster) : (s.setCluster n x).ring = s.ring := rfl
@[simp] theorem State.setCluster_bar0 (s : State) (n : Nat) (x : Cluster) : (s.setCluster n x).bar0 = s.bar0 := rfl
@[simp] theorem State.setCluster_cfg (s : State) (n : Nat) (x : Cluster) : (s.setCluster n x).cfg = s.cfg := rfl
@[simp] theorem State.setCluster_streamPos (s : State) (n : Nat) (x : Cluster) : (s.setCluster n x).streamPos = s.streamPos := rfl
@[simp] theorem State.setCluster_lastDev (s : State) (n : Nat) (x : Cluster) : (s.setCluster n x).lastDev = s.lastDev := rfl
@[simp] theorem State.setCluster_evTail (s : State) (n : Nat) (x : Cluster) : (s.setCluster n x).evTail = s.evTail := rfl
@[simp] theorem State.setCluster_backlog (s : State) (n : Nat) (x : Cluster) : (s.setCluster n x).backlog = s.backlog := rfl
@[simp] theorem State.setCluster_kept (s : State) (n : Nat) (x : Cluster) : (s.setCluster n x).kept = s.kept := rfl
@[simp] theorem State.setCluster_gap (s : State) (n : Nat) (x : Cluster) : (s.setCluster n x).gap = s.gap := rfl
@[simp] theorem State.setCluster_msix (s : State) (n : Nat) (x : Cluster) : (s.setCluster n x).msix = s.msix := rfl
@[simp] theorem State.setCluster_msixSince (s : State) (n : Nat) (x : Cluster) : (s.setCluster n x).msixSince = s.msixSince := rfl
@[simp] theorem State.setCluster_msixRaised (s : State) (n : Nat) (x : Cluster) : (s.setCluster n x).msixRaised = s.msixRaised := rfl
@[simp] theorem State.setCluster_limit (s : State) (n : Nat) (x : Cluster) : (s.setCluster n x).limit = s.limit := rfl
@[simp] theorem State.setCluster_measured (s : State) (n : Nat) (x : Cluster) : (s.setCluster n x).measured = s.measured := rfl
@[simp] theorem State.setCluster_capHigh (s : State) (n : Nat) (x : Cluster) : (s.setCluster n x).capHigh = s.capHigh := rfl
@[simp] theorem State.setCluster_ckpt (s : State) (n : Nat) (x : Cluster) : (s.setCluster n x).ckpt = s.ckpt := rfl
@[simp] theorem State.setCluster_heldRecs (s : State) (n : Nat) (x : Cluster) : (s.setCluster n x).heldRecs = s.heldRecs := rfl
@[simp] theorem State.setCluster_safe (s : State) (n : Nat) (x : Cluster) : (s.setCluster n x).safe = s.safe := rfl
@[simp] theorem State.setCluster_attachPending (s : State) (n : Nat) (x : Cluster) : (s.setCluster n x).attachPending = s.attachPending := rfl
@[simp] theorem State.setCluster_telNext (s : State) (n : Nat) (x : Cluster) : (s.setCluster n x).telNext = s.telNext := rfl
@[simp] theorem State.setCluster_bootSlot (s : State) (n : Nat) (x : Cluster) : (s.setCluster n x).bootSlot = s.bootSlot := rfl
@[simp] theorem State.setCluster_flash (s : State) (n : Nat) (x : Cluster) : (s.setCluster n x).flash = s.flash := rfl
@[simp] theorem State.setCluster_flashWords (s : State) (n : Nat) (x : Cluster) : (s.setCluster n x).flashWords = s.flashWords := rfl
@[simp] theorem State.setCluster_points (s : State) (n : Nat) (x : Cluster) : (s.setCluster n x).points = s.points := rfl
@[simp] theorem State.setCluster_persist (s : State) (n : Nat) (x : Cluster) : (s.setCluster n x).persist = s.persist := rfl
@[simp] theorem State.setCluster_safeCxl (s : State) (n : Nat) (x : Cluster) : (s.setCluster n x).safeCxl = s.safeCxl := rfl
@[simp] theorem State.setCluster_ringRec (s : State) (n : Nat) (x : Cluster) : (s.setCluster n x).ringRec = s.ringRec := rfl
@[simp] theorem State.setCluster_devRec (s : State) (n : Nat) (x : Cluster) : (s.setCluster n x).devRec = s.devRec := rfl
@[simp] theorem State.setCluster_now (s : State) (n : Nat) (x : Cluster) : (s.setCluster n x).now = s.now := rfl
@[simp] theorem State.setCluster_cur (s : State) (n : Nat) (x : Cluster) : (s.setCluster n x).cur = s.cur := rfl
@[simp] theorem State.setCluster_agenda (s : State) (n : Nat) (x : Cluster) : (s.setCluster n x).agenda = s.agenda := rfl
@[simp] theorem State.setCluster_tick (s : State) (n : Nat) (x : Cluster) : (s.setCluster n x).tick = s.tick := rfl
@[simp] theorem State.setCluster_cards (s : State) (n : Nat) (x : Cluster) : (s.setCluster n x).cards = s.cards := rfl
@[simp] theorem State.setCluster_nextInst (s : State) (n : Nat) (x : Cluster) : (s.setCluster n x).nextInst = s.nextInst := rfl
@[simp] theorem State.setCluster_nextOp (s : State) (n : Nat) (x : Cluster) : (s.setCluster n x).nextOp = s.nextOp := rfl
@[simp] theorem State.setCluster_orders (s : State) (n : Nat) (x : Cluster) : (s.setCluster n x).orders = s.orders := rfl
@[simp] theorem State.setCluster_core (s : State) (n : Nat) (x : Cluster) (i : CoreId) : (s.setCluster n x).core i = s.core i := rfl
@[simp] theorem State.setCluster_tile (s : State) (n : Nat) (x : Cluster) (i : Nat) : (s.setCluster n x).tile i = s.tile i := rfl
@[simp] theorem State.setCluster_die (s : State) (n : Nat) (x : Cluster) (i : Nat) : (s.setCluster n x).die i = s.die i := rfl

/-! ## modCluster -/

@[simp] theorem State.modCluster_cores (s : State) (n : Nat) (f : Cluster → Cluster) : (s.modCluster n f).cores = s.cores := rfl
@[simp] theorem State.modCluster_tiles (s : State) (n : Nat) (f : Cluster → Cluster) : (s.modCluster n f).tiles = s.tiles := rfl
@[simp] theorem State.modCluster_dies (s : State) (n : Nat) (f : Cluster → Cluster) : (s.modCluster n f).dies = s.dies := rfl
@[simp] theorem State.modCluster_wstack (s : State) (n : Nat) (f : Cluster → Cluster) : (s.modCluster n f).wstack = s.wstack := rfl
@[simp] theorem State.modCluster_backing (s : State) (n : Nat) (f : Cluster → Cluster) : (s.modCluster n f).backing = s.backing := rfl
@[simp] theorem State.modCluster_wpoison (s : State) (n : Nat) (f : Cluster → Cluster) : (s.modCluster n f).wpoison = s.wpoison := rfl
@[simp] theorem State.modCluster_scrubbed (s : State) (n : Nat) (f : Cluster → Cluster) : (s.modCluster n f).scrubbed = s.scrubbed := rfl
@[simp] theorem State.modCluster_objs (s : State) (n : Nat) (f : Cluster → Cluster) : (s.modCluster n f).objs = s.objs := rfl
@[simp] theorem State.modCluster_sorters (s : State) (n : Nat) (f : Cluster → Cluster) : (s.modCluster n f).sorters = s.sorters := rfl
@[simp] theorem State.modCluster_mem (s : State) (n : Nat) (f : Cluster → Cluster) : (s.modCluster n f).mem = s.mem := rfl
@[simp] theorem State.modCluster_host (s : State) (n : Nat) (f : Cluster → Cluster) : (s.modCluster n f).host = s.host := rfl
@[simp] theorem State.modCluster_tier (s : State) (n : Nat) (f : Cluster → Cluster) : (s.modCluster n f).tier = s.tier := rfl
@[simp] theorem State.modCluster_tierTags (s : State) (n : Nat) (f : Cluster → Cluster) : (s.modCluster n f).tierTags = s.tierTags := rfl
@[simp] theorem State.modCluster_pools (s : State) (n : Nat) (f : Cluster → Cluster) : (s.modCluster n f).pools = s.pools := rfl
@[simp] theorem State.modCluster_slices (s : State) (n : Nat) (f : Cluster → Cluster) : (s.modCluster n f).slices = s.slices := rfl
@[simp] theorem State.modCluster_homeQ (s : State) (n : Nat) (f : Cluster → Cluster) : (s.modCluster n f).homeQ = s.homeQ := rfl
@[simp] theorem State.modCluster_frames (s : State) (n : Nat) (f : Cluster → Cluster) : (s.modCluster n f).frames = s.frames := rfl
@[simp] theorem State.modCluster_viewPend (s : State) (n : Nat) (f : Cluster → Cluster) : (s.modCluster n f).viewPend = s.viewPend := rfl
@[simp] theorem State.modCluster_viewDir (s : State) (n : Nat) (f : Cluster → Cluster) : (s.modCluster n f).viewDir = s.viewDir := rfl
@[simp] theorem State.modCluster_past (s : State) (n : Nat) (f : Cluster → Cluster) : (s.modCluster n f).past = s.past := rfl
@[simp] theorem State.modCluster_poison (s : State) (n : Nat) (f : Cluster → Cluster) : (s.modCluster n f).poison = s.poison := rfl
@[simp] theorem State.modCluster_regions (s : State) (n : Nat) (f : Cluster → Cluster) : (s.modCluster n f).regions = s.regions := rfl
@[simp] theorem State.modCluster_flight (s : State) (n : Nat) (f : Cluster → Cluster) : (s.modCluster n f).flight = s.flight := rfl
@[simp] theorem State.modCluster_pairsOut (s : State) (n : Nat) (f : Cluster → Cluster) : (s.modCluster n f).pairsOut = s.pairsOut := rfl
@[simp] theorem State.modCluster_ops (s : State) (n : Nat) (f : Cluster → Cluster) : (s.modCluster n f).ops = s.ops := rfl
@[simp] theorem State.modCluster_orphans (s : State) (n : Nat) (f : Cluster → Cluster) : (s.modCluster n f).orphans = s.orphans := rfl
@[simp] theorem State.modCluster_ctxs (s : State) (n : Nat) (f : Cluster → Cluster) : (s.modCluster n f).ctxs = s.ctxs := rfl
@[simp] theorem State.modCluster_launches (s : State) (n : Nat) (f : Cluster → Cluster) : (s.modCluster n f).launches = s.launches := rfl
@[simp] theorem State.modCluster_pageReqs (s : State) (n : Nat) (f : Cluster → Cluster) : (s.modCluster n f).pageReqs = s.pageReqs := rfl
@[simp] theorem State.modCluster_migrations (s : State) (n : Nat) (f : Cluster → Cluster) : (s.modCluster n f).migrations = s.migrations := rfl
@[simp] theorem State.modCluster_saved (s : State) (n : Nat) (f : Cluster → Cluster) : (s.modCluster n f).saved = s.saved := rfl
@[simp] theorem State.modCluster_probes (s : State) (n : Nat) (f : Cluster → Cluster) : (s.modCluster n f).probes = s.probes := rfl
@[simp] theorem State.modCluster_received (s : State) (n : Nat) (f : Cluster → Cluster) : (s.modCluster n f).received = s.received := rfl
@[simp] theorem State.modCluster_receipts (s : State) (n : Nat) (f : Cluster → Cluster) : (s.modCluster n f).receipts = s.receipts := rfl
@[simp] theorem State.modCluster_ring (s : State) (n : Nat) (f : Cluster → Cluster) : (s.modCluster n f).ring = s.ring := rfl
@[simp] theorem State.modCluster_bar0 (s : State) (n : Nat) (f : Cluster → Cluster) : (s.modCluster n f).bar0 = s.bar0 := rfl
@[simp] theorem State.modCluster_cfg (s : State) (n : Nat) (f : Cluster → Cluster) : (s.modCluster n f).cfg = s.cfg := rfl
@[simp] theorem State.modCluster_streamPos (s : State) (n : Nat) (f : Cluster → Cluster) : (s.modCluster n f).streamPos = s.streamPos := rfl
@[simp] theorem State.modCluster_lastDev (s : State) (n : Nat) (f : Cluster → Cluster) : (s.modCluster n f).lastDev = s.lastDev := rfl
@[simp] theorem State.modCluster_evTail (s : State) (n : Nat) (f : Cluster → Cluster) : (s.modCluster n f).evTail = s.evTail := rfl
@[simp] theorem State.modCluster_backlog (s : State) (n : Nat) (f : Cluster → Cluster) : (s.modCluster n f).backlog = s.backlog := rfl
@[simp] theorem State.modCluster_kept (s : State) (n : Nat) (f : Cluster → Cluster) : (s.modCluster n f).kept = s.kept := rfl
@[simp] theorem State.modCluster_gap (s : State) (n : Nat) (f : Cluster → Cluster) : (s.modCluster n f).gap = s.gap := rfl
@[simp] theorem State.modCluster_msix (s : State) (n : Nat) (f : Cluster → Cluster) : (s.modCluster n f).msix = s.msix := rfl
@[simp] theorem State.modCluster_msixSince (s : State) (n : Nat) (f : Cluster → Cluster) : (s.modCluster n f).msixSince = s.msixSince := rfl
@[simp] theorem State.modCluster_msixRaised (s : State) (n : Nat) (f : Cluster → Cluster) : (s.modCluster n f).msixRaised = s.msixRaised := rfl
@[simp] theorem State.modCluster_limit (s : State) (n : Nat) (f : Cluster → Cluster) : (s.modCluster n f).limit = s.limit := rfl
@[simp] theorem State.modCluster_measured (s : State) (n : Nat) (f : Cluster → Cluster) : (s.modCluster n f).measured = s.measured := rfl
@[simp] theorem State.modCluster_capHigh (s : State) (n : Nat) (f : Cluster → Cluster) : (s.modCluster n f).capHigh = s.capHigh := rfl
@[simp] theorem State.modCluster_ckpt (s : State) (n : Nat) (f : Cluster → Cluster) : (s.modCluster n f).ckpt = s.ckpt := rfl
@[simp] theorem State.modCluster_heldRecs (s : State) (n : Nat) (f : Cluster → Cluster) : (s.modCluster n f).heldRecs = s.heldRecs := rfl
@[simp] theorem State.modCluster_safe (s : State) (n : Nat) (f : Cluster → Cluster) : (s.modCluster n f).safe = s.safe := rfl
@[simp] theorem State.modCluster_attachPending (s : State) (n : Nat) (f : Cluster → Cluster) : (s.modCluster n f).attachPending = s.attachPending := rfl
@[simp] theorem State.modCluster_telNext (s : State) (n : Nat) (f : Cluster → Cluster) : (s.modCluster n f).telNext = s.telNext := rfl
@[simp] theorem State.modCluster_bootSlot (s : State) (n : Nat) (f : Cluster → Cluster) : (s.modCluster n f).bootSlot = s.bootSlot := rfl
@[simp] theorem State.modCluster_flash (s : State) (n : Nat) (f : Cluster → Cluster) : (s.modCluster n f).flash = s.flash := rfl
@[simp] theorem State.modCluster_flashWords (s : State) (n : Nat) (f : Cluster → Cluster) : (s.modCluster n f).flashWords = s.flashWords := rfl
@[simp] theorem State.modCluster_points (s : State) (n : Nat) (f : Cluster → Cluster) : (s.modCluster n f).points = s.points := rfl
@[simp] theorem State.modCluster_persist (s : State) (n : Nat) (f : Cluster → Cluster) : (s.modCluster n f).persist = s.persist := rfl
@[simp] theorem State.modCluster_safeCxl (s : State) (n : Nat) (f : Cluster → Cluster) : (s.modCluster n f).safeCxl = s.safeCxl := rfl
@[simp] theorem State.modCluster_ringRec (s : State) (n : Nat) (f : Cluster → Cluster) : (s.modCluster n f).ringRec = s.ringRec := rfl
@[simp] theorem State.modCluster_devRec (s : State) (n : Nat) (f : Cluster → Cluster) : (s.modCluster n f).devRec = s.devRec := rfl
@[simp] theorem State.modCluster_now (s : State) (n : Nat) (f : Cluster → Cluster) : (s.modCluster n f).now = s.now := rfl
@[simp] theorem State.modCluster_cur (s : State) (n : Nat) (f : Cluster → Cluster) : (s.modCluster n f).cur = s.cur := rfl
@[simp] theorem State.modCluster_agenda (s : State) (n : Nat) (f : Cluster → Cluster) : (s.modCluster n f).agenda = s.agenda := rfl
@[simp] theorem State.modCluster_tick (s : State) (n : Nat) (f : Cluster → Cluster) : (s.modCluster n f).tick = s.tick := rfl
@[simp] theorem State.modCluster_cards (s : State) (n : Nat) (f : Cluster → Cluster) : (s.modCluster n f).cards = s.cards := rfl
@[simp] theorem State.modCluster_nextInst (s : State) (n : Nat) (f : Cluster → Cluster) : (s.modCluster n f).nextInst = s.nextInst := rfl
@[simp] theorem State.modCluster_nextOp (s : State) (n : Nat) (f : Cluster → Cluster) : (s.modCluster n f).nextOp = s.nextOp := rfl
@[simp] theorem State.modCluster_orders (s : State) (n : Nat) (f : Cluster → Cluster) : (s.modCluster n f).orders = s.orders := rfl
@[simp] theorem State.modCluster_core (s : State) (n : Nat) (f : Cluster → Cluster) (i : CoreId) : (s.modCluster n f).core i = s.core i := rfl
@[simp] theorem State.modCluster_tile (s : State) (n : Nat) (f : Cluster → Cluster) (i : Nat) : (s.modCluster n f).tile i = s.tile i := rfl
@[simp] theorem State.modCluster_die (s : State) (n : Nat) (f : Cluster → Cluster) (i : Nat) : (s.modCluster n f).die i = s.die i := rfl

/-! ## modDie -/

@[simp] theorem State.modDie_cores (s : State) (d : Nat) (f : Die → Die) : (s.modDie d f).cores = s.cores := rfl
@[simp] theorem State.modDie_tiles (s : State) (d : Nat) (f : Die → Die) : (s.modDie d f).tiles = s.tiles := rfl
@[simp] theorem State.modDie_clusters (s : State) (d : Nat) (f : Die → Die) : (s.modDie d f).clusters = s.clusters := rfl
@[simp] theorem State.modDie_wstack (s : State) (d : Nat) (f : Die → Die) : (s.modDie d f).wstack = s.wstack := rfl
@[simp] theorem State.modDie_backing (s : State) (d : Nat) (f : Die → Die) : (s.modDie d f).backing = s.backing := rfl
@[simp] theorem State.modDie_wpoison (s : State) (d : Nat) (f : Die → Die) : (s.modDie d f).wpoison = s.wpoison := rfl
@[simp] theorem State.modDie_scrubbed (s : State) (d : Nat) (f : Die → Die) : (s.modDie d f).scrubbed = s.scrubbed := rfl
@[simp] theorem State.modDie_objs (s : State) (d : Nat) (f : Die → Die) : (s.modDie d f).objs = s.objs := rfl
@[simp] theorem State.modDie_sorters (s : State) (d : Nat) (f : Die → Die) : (s.modDie d f).sorters = s.sorters := rfl
@[simp] theorem State.modDie_mem (s : State) (d : Nat) (f : Die → Die) : (s.modDie d f).mem = s.mem := rfl
@[simp] theorem State.modDie_host (s : State) (d : Nat) (f : Die → Die) : (s.modDie d f).host = s.host := rfl
@[simp] theorem State.modDie_tier (s : State) (d : Nat) (f : Die → Die) : (s.modDie d f).tier = s.tier := rfl
@[simp] theorem State.modDie_tierTags (s : State) (d : Nat) (f : Die → Die) : (s.modDie d f).tierTags = s.tierTags := rfl
@[simp] theorem State.modDie_pools (s : State) (d : Nat) (f : Die → Die) : (s.modDie d f).pools = s.pools := rfl
@[simp] theorem State.modDie_slices (s : State) (d : Nat) (f : Die → Die) : (s.modDie d f).slices = s.slices := rfl
@[simp] theorem State.modDie_homeQ (s : State) (d : Nat) (f : Die → Die) : (s.modDie d f).homeQ = s.homeQ := rfl
@[simp] theorem State.modDie_frames (s : State) (d : Nat) (f : Die → Die) : (s.modDie d f).frames = s.frames := rfl
@[simp] theorem State.modDie_viewPend (s : State) (d : Nat) (f : Die → Die) : (s.modDie d f).viewPend = s.viewPend := rfl
@[simp] theorem State.modDie_viewDir (s : State) (d : Nat) (f : Die → Die) : (s.modDie d f).viewDir = s.viewDir := rfl
@[simp] theorem State.modDie_past (s : State) (d : Nat) (f : Die → Die) : (s.modDie d f).past = s.past := rfl
@[simp] theorem State.modDie_poison (s : State) (d : Nat) (f : Die → Die) : (s.modDie d f).poison = s.poison := rfl
@[simp] theorem State.modDie_regions (s : State) (d : Nat) (f : Die → Die) : (s.modDie d f).regions = s.regions := rfl
@[simp] theorem State.modDie_flight (s : State) (d : Nat) (f : Die → Die) : (s.modDie d f).flight = s.flight := rfl
@[simp] theorem State.modDie_pairsOut (s : State) (d : Nat) (f : Die → Die) : (s.modDie d f).pairsOut = s.pairsOut := rfl
@[simp] theorem State.modDie_ops (s : State) (d : Nat) (f : Die → Die) : (s.modDie d f).ops = s.ops := rfl
@[simp] theorem State.modDie_orphans (s : State) (d : Nat) (f : Die → Die) : (s.modDie d f).orphans = s.orphans := rfl
@[simp] theorem State.modDie_ctxs (s : State) (d : Nat) (f : Die → Die) : (s.modDie d f).ctxs = s.ctxs := rfl
@[simp] theorem State.modDie_launches (s : State) (d : Nat) (f : Die → Die) : (s.modDie d f).launches = s.launches := rfl
@[simp] theorem State.modDie_pageReqs (s : State) (d : Nat) (f : Die → Die) : (s.modDie d f).pageReqs = s.pageReqs := rfl
@[simp] theorem State.modDie_migrations (s : State) (d : Nat) (f : Die → Die) : (s.modDie d f).migrations = s.migrations := rfl
@[simp] theorem State.modDie_saved (s : State) (d : Nat) (f : Die → Die) : (s.modDie d f).saved = s.saved := rfl
@[simp] theorem State.modDie_probes (s : State) (d : Nat) (f : Die → Die) : (s.modDie d f).probes = s.probes := rfl
@[simp] theorem State.modDie_received (s : State) (d : Nat) (f : Die → Die) : (s.modDie d f).received = s.received := rfl
@[simp] theorem State.modDie_receipts (s : State) (d : Nat) (f : Die → Die) : (s.modDie d f).receipts = s.receipts := rfl
@[simp] theorem State.modDie_ring (s : State) (d : Nat) (f : Die → Die) : (s.modDie d f).ring = s.ring := rfl
@[simp] theorem State.modDie_bar0 (s : State) (d : Nat) (f : Die → Die) : (s.modDie d f).bar0 = s.bar0 := rfl
@[simp] theorem State.modDie_cfg (s : State) (d : Nat) (f : Die → Die) : (s.modDie d f).cfg = s.cfg := rfl
@[simp] theorem State.modDie_streamPos (s : State) (d : Nat) (f : Die → Die) : (s.modDie d f).streamPos = s.streamPos := rfl
@[simp] theorem State.modDie_lastDev (s : State) (d : Nat) (f : Die → Die) : (s.modDie d f).lastDev = s.lastDev := rfl
@[simp] theorem State.modDie_evTail (s : State) (d : Nat) (f : Die → Die) : (s.modDie d f).evTail = s.evTail := rfl
@[simp] theorem State.modDie_backlog (s : State) (d : Nat) (f : Die → Die) : (s.modDie d f).backlog = s.backlog := rfl
@[simp] theorem State.modDie_kept (s : State) (d : Nat) (f : Die → Die) : (s.modDie d f).kept = s.kept := rfl
@[simp] theorem State.modDie_gap (s : State) (d : Nat) (f : Die → Die) : (s.modDie d f).gap = s.gap := rfl
@[simp] theorem State.modDie_msix (s : State) (d : Nat) (f : Die → Die) : (s.modDie d f).msix = s.msix := rfl
@[simp] theorem State.modDie_msixSince (s : State) (d : Nat) (f : Die → Die) : (s.modDie d f).msixSince = s.msixSince := rfl
@[simp] theorem State.modDie_msixRaised (s : State) (d : Nat) (f : Die → Die) : (s.modDie d f).msixRaised = s.msixRaised := rfl
@[simp] theorem State.modDie_limit (s : State) (d : Nat) (f : Die → Die) : (s.modDie d f).limit = s.limit := rfl
@[simp] theorem State.modDie_measured (s : State) (d : Nat) (f : Die → Die) : (s.modDie d f).measured = s.measured := rfl
@[simp] theorem State.modDie_capHigh (s : State) (d : Nat) (f : Die → Die) : (s.modDie d f).capHigh = s.capHigh := rfl
@[simp] theorem State.modDie_ckpt (s : State) (d : Nat) (f : Die → Die) : (s.modDie d f).ckpt = s.ckpt := rfl
@[simp] theorem State.modDie_heldRecs (s : State) (d : Nat) (f : Die → Die) : (s.modDie d f).heldRecs = s.heldRecs := rfl
@[simp] theorem State.modDie_safe (s : State) (d : Nat) (f : Die → Die) : (s.modDie d f).safe = s.safe := rfl
@[simp] theorem State.modDie_attachPending (s : State) (d : Nat) (f : Die → Die) : (s.modDie d f).attachPending = s.attachPending := rfl
@[simp] theorem State.modDie_telNext (s : State) (d : Nat) (f : Die → Die) : (s.modDie d f).telNext = s.telNext := rfl
@[simp] theorem State.modDie_bootSlot (s : State) (d : Nat) (f : Die → Die) : (s.modDie d f).bootSlot = s.bootSlot := rfl
@[simp] theorem State.modDie_flash (s : State) (d : Nat) (f : Die → Die) : (s.modDie d f).flash = s.flash := rfl
@[simp] theorem State.modDie_flashWords (s : State) (d : Nat) (f : Die → Die) : (s.modDie d f).flashWords = s.flashWords := rfl
@[simp] theorem State.modDie_points (s : State) (d : Nat) (f : Die → Die) : (s.modDie d f).points = s.points := rfl
@[simp] theorem State.modDie_persist (s : State) (d : Nat) (f : Die → Die) : (s.modDie d f).persist = s.persist := rfl
@[simp] theorem State.modDie_safeCxl (s : State) (d : Nat) (f : Die → Die) : (s.modDie d f).safeCxl = s.safeCxl := rfl
@[simp] theorem State.modDie_ringRec (s : State) (d : Nat) (f : Die → Die) : (s.modDie d f).ringRec = s.ringRec := rfl
@[simp] theorem State.modDie_devRec (s : State) (d : Nat) (f : Die → Die) : (s.modDie d f).devRec = s.devRec := rfl
@[simp] theorem State.modDie_now (s : State) (d : Nat) (f : Die → Die) : (s.modDie d f).now = s.now := rfl
@[simp] theorem State.modDie_cur (s : State) (d : Nat) (f : Die → Die) : (s.modDie d f).cur = s.cur := rfl
@[simp] theorem State.modDie_agenda (s : State) (d : Nat) (f : Die → Die) : (s.modDie d f).agenda = s.agenda := rfl
@[simp] theorem State.modDie_tick (s : State) (d : Nat) (f : Die → Die) : (s.modDie d f).tick = s.tick := rfl
@[simp] theorem State.modDie_cards (s : State) (d : Nat) (f : Die → Die) : (s.modDie d f).cards = s.cards := rfl
@[simp] theorem State.modDie_nextInst (s : State) (d : Nat) (f : Die → Die) : (s.modDie d f).nextInst = s.nextInst := rfl
@[simp] theorem State.modDie_nextOp (s : State) (d : Nat) (f : Die → Die) : (s.modDie d f).nextOp = s.nextOp := rfl
@[simp] theorem State.modDie_orders (s : State) (d : Nat) (f : Die → Die) : (s.modDie d f).orders = s.orders := rfl
@[simp] theorem State.modDie_core (s : State) (d : Nat) (f : Die → Die) (i : CoreId) : (s.modDie d f).core i = s.core i := rfl
@[simp] theorem State.modDie_tile (s : State) (d : Nat) (f : Die → Die) (i : Nat) : (s.modDie d f).tile i = s.tile i := rfl
@[simp] theorem State.modDie_cluster (s : State) (d : Nat) (f : Die → Die) (i : Nat) : (s.modDie d f).cluster i = s.cluster i := rfl

/-! ## Core.advance -/

@[simp] theorem Core.advance_s (q : Core) : (q.advance).s = q.s := by
  unfold Core.advance; dsimp only; split <;> rfl
@[simp] theorem Core.advance_p (q : Core) : (q.advance).p = q.p := by
  unfold Core.advance; dsimp only; split <;> rfl
@[simp] theorem Core.advance_v (q : Core) : (q.advance).v = q.v := by
  unfold Core.advance; dsimp only; split <;> rfl
@[simp] theorem Core.advance_l (q : Core) : (q.advance).l = q.l := by
  unfold Core.advance; dsimp only; split <;> rfl
@[simp] theorem Core.advance_k (q : Core) : (q.advance).k = q.k := by
  unfold Core.advance; dsimp only; split <;> rfl
@[simp] theorem Core.advance_share (q : Core) : (q.advance).share = q.share := by
  unfold Core.advance; dsimp only; split <;> rfl
@[simp] theorem Core.advance_dr (q : Core) : (q.advance).dr = q.dr := by
  unfold Core.advance; dsimp only; split <;> rfl
@[simp] theorem Core.advance_h (q : Core) : (q.advance).h = q.h := by
  unfold Core.advance; dsimp only; split <;> rfl
@[simp] theorem Core.advance_gcm (q : Core) : (q.advance).gcm = q.gcm := by
  unfold Core.advance; dsimp only; split <;> rfl
@[simp] theorem Core.advance_shadow (q : Core) : (q.advance).shadow = q.shadow := by
  unfold Core.advance; dsimp only; split <;> rfl
@[simp] theorem Core.advance_blk (q : Core) : (q.advance).blk = q.blk := by
  unfold Core.advance; dsimp only; split <;> rfl
@[simp] theorem Core.advance_hdr (q : Core) : (q.advance).hdr = q.hdr := by
  unfold Core.advance; dsimp only; split <;> rfl
@[simp] theorem Core.advance_priv (q : Core) : (q.advance).priv = q.priv := by
  unfold Core.advance; dsimp only; split <;> rfl
@[simp] theorem Core.advance_convoy (q : Core) : (q.advance).convoy = q.convoy := by
  unfold Core.advance; dsimp only; split <;> rfl
@[simp] theorem Core.advance_uih (q : Core) : (q.advance).uih = q.uih := by
  unfold Core.advance; dsimp only; split <;> rfl
@[simp] theorem Core.advance_inHandler (q : Core) : (q.advance).inHandler = q.inHandler := by
  unfold Core.advance; dsimp only; split <;> rfl
@[simp] theorem Core.advance_deferredTrap (q : Core) : (q.advance).deferredTrap = q.deferredTrap := by
  unfold Core.advance; dsimp only; split <;> rfl
@[simp] theorem Core.advance_trap (q : Core) : (q.advance).trap = q.trap := by
  unfold Core.advance; dsimp only; split <;> rfl
@[simp] theorem Core.advance_ui (q : Core) : (q.advance).ui = q.ui := by
  unfold Core.advance; dsimp only; split <;> rfl
@[simp] theorem Core.advance_spillBase (q : Core) : (q.advance).spillBase = q.spillBase := by
  unfold Core.advance; dsimp only; split <;> rfl
@[simp] theorem Core.advance_ovfBase (q : Core) : (q.advance).ovfBase = q.ovfBase := by
  unfold Core.advance; dsimp only; split <;> rfl
@[simp] theorem Core.advance_ovfMark (q : Core) : (q.advance).ovfMark = q.ovfMark := by
  unfold Core.advance; dsimp only; split <;> rfl
@[simp] theorem Core.advance_duty (q : Core) : (q.advance).duty = q.duty := by
  unfold Core.advance; dsimp only; split <;> rfl
@[simp] theorem Core.advance_opreq (q : Core) : (q.advance).opreq = q.opreq := by
  unfold Core.advance; dsimp only; split <;> rfl
@[simp] theorem Core.advance_ec (q : Core) : (q.advance).ec = q.ec := by
  unfold Core.advance; dsimp only; split <;> rfl
@[simp] theorem Core.advance_ecsel (q : Core) : (q.advance).ecsel = q.ecsel := by
  unfold Core.advance; dsimp only; split <;> rfl
@[simp] theorem Core.advance_badtrits (q : Core) : (q.advance).badtrits = q.badtrits := by
  unfold Core.advance; dsimp only; split <;> rfl
@[simp] theorem Core.advance_tls (q : Core) : (q.advance).tls = q.tls := by
  unfold Core.advance; dsimp only; split <;> rfl
@[simp] theorem Core.advance_rgPath (q : Core) : (q.advance).rgPath = q.rgPath := by
  unfold Core.advance; dsimp only; split <;> rfl
@[simp] theorem Core.advance_ringFails (q : Core) : (q.advance).ringFails = q.ringFails := by
  unfold Core.advance; dsimp only; split <;> rfl
@[simp] theorem Core.advance_ringCore (q : Core) : (q.advance).ringCore = q.ringCore := by
  unfold Core.advance; dsimp only; split <;> rfl
@[simp] theorem Core.advance_bars (q : Core) : (q.advance).bars = q.bars := by
  unfold Core.advance; dsimp only; split <;> rfl
@[simp] theorem Core.advance_stores (q : Core) : (q.advance).stores = q.stores := by
  unfold Core.advance; dsimp only; split <;> rfl
@[simp] theorem Core.advance_loads (q : Core) : (q.advance).loads = q.loads := by
  unfold Core.advance; dsimp only; split <;> rfl
@[simp] theorem Core.advance_fences (q : Core) : (q.advance).fences = q.fences := by
  unfold Core.advance; dsimp only; split <;> rfl
@[simp] theorem Core.advance_seen (q : Core) : (q.advance).seen = q.seen := by
  unfold Core.advance; dsimp only; split <;> rfl
@[simp] theorem Core.advance_early (q : Core) : (q.advance).early = q.early := by
  unfold Core.advance; dsimp only; split <;> rfl
@[simp] theorem Core.advance_wrote (q : Core) : (q.advance).wrote = q.wrote := by
  unfold Core.advance; dsimp only; split <;> rfl
@[simp] theorem Core.advance_sc (q : Core) : (q.advance).sc = q.sc := by
  unfold Core.advance; dsimp only; split <;> rfl
@[simp] theorem Core.advance_upd (q : Core) : (q.advance).upd = q.upd := by
  unfold Core.advance; dsimp only; split <;> rfl
@[simp] theorem Core.advance_credits (q : Core) : (q.advance).credits = q.credits := by
  unfold Core.advance; dsimp only; split <;> rfl
@[simp] theorem Core.advance_view (q : Core) : (q.advance).view = q.view := by
  unfold Core.advance; dsimp only; split <;> rfl
@[simp] theorem Core.advance_utlb (q : Core) : (q.advance).utlb = q.utlb := by
  unfold Core.advance; dsimp only; split <;> rfl
@[simp] theorem Core.advance_work (q : Core) : (q.advance).work = q.work := by
  unfold Core.advance; dsimp only; split <;> rfl
@[simp] theorem Core.advance_inst (q : Core) : (q.advance).inst = q.inst := by
  unfold Core.advance; dsimp only; split <;> rfl
@[simp] theorem Core.advance_grants (q : Core) : (q.advance).grants = q.grants := by
  unfold Core.advance; dsimp only; split <;> rfl
@[simp] theorem Core.advance_pre (q : Core) : (q.advance).pre = q.pre := by
  unfold Core.advance; dsimp only; split <;> rfl
@[simp] theorem Core.advance_req (q : Core) : (q.advance).req = q.req := by
  unfold Core.advance; dsimp only; split <;> rfl
@[simp] theorem Core.advance_due (q : Core) : (q.advance).due = q.due := by
  unfold Core.advance; dsimp only; split <;> rfl
@[simp] theorem Core.advance_debug (q : Core) : (q.advance).debug = q.debug := by
  unfold Core.advance; dsimp only; split <;> rfl
@[simp] theorem Core.advance_debugReq (q : Core) : (q.advance).debugReq = q.debugReq := by
  unfold Core.advance; dsimp only; split <;> rfl
@[simp] theorem Core.advance_sleep (q : Core) : (q.advance).sleep = q.sleep := by
  unfold Core.advance; dsimp only; split <;> rfl
@[simp] theorem Core.advance_wakes (q : Core) : (q.advance).wakes = q.wakes := by
  unfold Core.advance; dsimp only; split <;> rfl
@[simp] theorem Core.advance_cyc (q : Core) : (q.advance).cyc = q.cyc := by
  unfold Core.advance; dsimp only; split <;> rfl
@[simp] theorem Core.advance_wd (q : Core) : (q.advance).wd = q.wd := by
  unfold Core.advance; dsimp only; split <;> rfl
@[simp] theorem Core.advance_rejoin (q : Core) : (q.advance).rejoin = q.rejoin := by
  unfold Core.advance; dsimp only; split <;> rfl
@[simp] theorem Core.advance_parked (q : Core) : (q.advance).parked = q.parked := by
  unfold Core.advance; dsimp only; split <;> rfl
@[simp] theorem Core.advance_heldFor (q : Core) : (q.advance).heldFor = q.heldFor := by
  unfold Core.advance; dsimp only; split <;> rfl
@[simp] theorem Core.advance_ended (q : Core) : (q.advance).ended = q.ended := by
  unfold Core.advance; dsimp only; split <;> rfl
@[simp] theorem Core.advance_engFail (q : Core) : (q.advance).engFail = q.engFail := by
  unfold Core.advance; dsimp only; split <;> rfl
@[simp] theorem Core.advance_engWrote (q : Core) : (q.advance).engWrote = q.engWrote := by
  unfold Core.advance; dsimp only; split <;> rfl
@[simp] theorem Core.advance_waitPage (q : Core) : (q.advance).waitPage = q.waitPage := by
  unfold Core.advance; dsimp only; split <;> rfl
@[simp] theorem Core.advance_defer (q : Core) : (q.advance).defer = q.defer := by
  unfold Core.advance; dsimp only; split <;> rfl
@[simp] theorem Core.advance_issue (q : Core) : (q.advance).issue = q.issue := by
  unfold Core.advance; dsimp only; split <;> rfl
@[simp] theorem Core.advance_yld (q : Core) : (q.advance).yld = q.yld := by
  unfold Core.advance; dsimp only; split <;> rfl
@[simp] theorem Core.advance_stood (q : Core) : (q.advance).stood = q.stood := by
  unfold Core.advance; dsimp only; split <;> rfl

/-! ## Core.countEvent -/

@[simp] theorem Core.countEvent_s (q : Core) (src n : Nat) : (q.countEvent src n).s = q.s := rfl
@[simp] theorem Core.countEvent_p (q : Core) (src n : Nat) : (q.countEvent src n).p = q.p := rfl
@[simp] theorem Core.countEvent_v (q : Core) (src n : Nat) : (q.countEvent src n).v = q.v := rfl
@[simp] theorem Core.countEvent_l (q : Core) (src n : Nat) : (q.countEvent src n).l = q.l := rfl
@[simp] theorem Core.countEvent_k (q : Core) (src n : Nat) : (q.countEvent src n).k = q.k := rfl
@[simp] theorem Core.countEvent_share (q : Core) (src n : Nat) : (q.countEvent src n).share = q.share := rfl
@[simp] theorem Core.countEvent_dr (q : Core) (src n : Nat) : (q.countEvent src n).dr = q.dr := rfl
@[simp] theorem Core.countEvent_h (q : Core) (src n : Nat) : (q.countEvent src n).h = q.h := rfl
@[simp] theorem Core.countEvent_gcm (q : Core) (src n : Nat) : (q.countEvent src n).gcm = q.gcm := rfl
@[simp] theorem Core.countEvent_shadow (q : Core) (src n : Nat) : (q.countEvent src n).shadow = q.shadow := rfl
@[simp] theorem Core.countEvent_pc (q : Core) (src n : Nat) : (q.countEvent src n).pc = q.pc := rfl
@[simp] theorem Core.countEvent_blk (q : Core) (src n : Nat) : (q.countEvent src n).blk = q.blk := rfl
@[simp] theorem Core.countEvent_hdr (q : Core) (src n : Nat) : (q.countEvent src n).hdr = q.hdr := rfl
@[simp] theorem Core.countEvent_pos (q : Core) (src n : Nat) : (q.countEvent src n).pos = q.pos := rfl
@[simp] theorem Core.countEvent_priv (q : Core) (src n : Nat) : (q.countEvent src n).priv = q.priv := rfl
@[simp] theorem Core.countEvent_convoy (q : Core) (src n : Nat) : (q.countEvent src n).convoy = q.convoy := rfl
@[simp] theorem Core.countEvent_uih (q : Core) (src n : Nat) : (q.countEvent src n).uih = q.uih := rfl
@[simp] theorem Core.countEvent_inHandler (q : Core) (src n : Nat) : (q.countEvent src n).inHandler = q.inHandler := rfl
@[simp] theorem Core.countEvent_deferredTrap (q : Core) (src n : Nat) : (q.countEvent src n).deferredTrap = q.deferredTrap := rfl
@[simp] theorem Core.countEvent_trap (q : Core) (src n : Nat) : (q.countEvent src n).trap = q.trap := rfl
@[simp] theorem Core.countEvent_ui (q : Core) (src n : Nat) : (q.countEvent src n).ui = q.ui := rfl
@[simp] theorem Core.countEvent_spillBase (q : Core) (src n : Nat) : (q.countEvent src n).spillBase = q.spillBase := rfl
@[simp] theorem Core.countEvent_ovfBase (q : Core) (src n : Nat) : (q.countEvent src n).ovfBase = q.ovfBase := rfl
@[simp] theorem Core.countEvent_ovfMark (q : Core) (src n : Nat) : (q.countEvent src n).ovfMark = q.ovfMark := rfl
@[simp] theorem Core.countEvent_duty (q : Core) (src n : Nat) : (q.countEvent src n).duty = q.duty := rfl
@[simp] theorem Core.countEvent_opreq (q : Core) (src n : Nat) : (q.countEvent src n).opreq = q.opreq := rfl
@[simp] theorem Core.countEvent_ecsel (q : Core) (src n : Nat) : (q.countEvent src n).ecsel = q.ecsel := rfl
@[simp] theorem Core.countEvent_tls (q : Core) (src n : Nat) : (q.countEvent src n).tls = q.tls := rfl
@[simp] theorem Core.countEvent_rgPath (q : Core) (src n : Nat) : (q.countEvent src n).rgPath = q.rgPath := rfl
@[simp] theorem Core.countEvent_ringFails (q : Core) (src n : Nat) : (q.countEvent src n).ringFails = q.ringFails := rfl
@[simp] theorem Core.countEvent_ringCore (q : Core) (src n : Nat) : (q.countEvent src n).ringCore = q.ringCore := rfl
@[simp] theorem Core.countEvent_bars (q : Core) (src n : Nat) : (q.countEvent src n).bars = q.bars := rfl
@[simp] theorem Core.countEvent_stores (q : Core) (src n : Nat) : (q.countEvent src n).stores = q.stores := rfl
@[simp] theorem Core.countEvent_loads (q : Core) (src n : Nat) : (q.countEvent src n).loads = q.loads := rfl
@[simp] theorem Core.countEvent_fences (q : Core) (src n : Nat) : (q.countEvent src n).fences = q.fences := rfl
@[simp] theorem Core.countEvent_seen (q : Core) (src n : Nat) : (q.countEvent src n).seen = q.seen := rfl
@[simp] theorem Core.countEvent_early (q : Core) (src n : Nat) : (q.countEvent src n).early = q.early := rfl
@[simp] theorem Core.countEvent_wrote (q : Core) (src n : Nat) : (q.countEvent src n).wrote = q.wrote := rfl
@[simp] theorem Core.countEvent_sc (q : Core) (src n : Nat) : (q.countEvent src n).sc = q.sc := rfl
@[simp] theorem Core.countEvent_upd (q : Core) (src n : Nat) : (q.countEvent src n).upd = q.upd := rfl
@[simp] theorem Core.countEvent_credits (q : Core) (src n : Nat) : (q.countEvent src n).credits = q.credits := rfl
@[simp] theorem Core.countEvent_view (q : Core) (src n : Nat) : (q.countEvent src n).view = q.view := rfl
@[simp] theorem Core.countEvent_utlb (q : Core) (src n : Nat) : (q.countEvent src n).utlb = q.utlb := rfl
@[simp] theorem Core.countEvent_work (q : Core) (src n : Nat) : (q.countEvent src n).work = q.work := rfl
@[simp] theorem Core.countEvent_inst (q : Core) (src n : Nat) : (q.countEvent src n).inst = q.inst := rfl
@[simp] theorem Core.countEvent_grants (q : Core) (src n : Nat) : (q.countEvent src n).grants = q.grants := rfl
@[simp] theorem Core.countEvent_pre (q : Core) (src n : Nat) : (q.countEvent src n).pre = q.pre := rfl
@[simp] theorem Core.countEvent_req (q : Core) (src n : Nat) : (q.countEvent src n).req = q.req := rfl
@[simp] theorem Core.countEvent_due (q : Core) (src n : Nat) : (q.countEvent src n).due = q.due := rfl
@[simp] theorem Core.countEvent_debug (q : Core) (src n : Nat) : (q.countEvent src n).debug = q.debug := rfl
@[simp] theorem Core.countEvent_debugReq (q : Core) (src n : Nat) : (q.countEvent src n).debugReq = q.debugReq := rfl
@[simp] theorem Core.countEvent_sleep (q : Core) (src n : Nat) : (q.countEvent src n).sleep = q.sleep := rfl
@[simp] theorem Core.countEvent_wakes (q : Core) (src n : Nat) : (q.countEvent src n).wakes = q.wakes := rfl
@[simp] theorem Core.countEvent_cyc (q : Core) (src n : Nat) : (q.countEvent src n).cyc = q.cyc := rfl
@[simp] theorem Core.countEvent_wd (q : Core) (src n : Nat) : (q.countEvent src n).wd = q.wd := rfl
@[simp] theorem Core.countEvent_rejoin (q : Core) (src n : Nat) : (q.countEvent src n).rejoin = q.rejoin := rfl
@[simp] theorem Core.countEvent_parked (q : Core) (src n : Nat) : (q.countEvent src n).parked = q.parked := rfl
@[simp] theorem Core.countEvent_heldFor (q : Core) (src n : Nat) : (q.countEvent src n).heldFor = q.heldFor := rfl
@[simp] theorem Core.countEvent_ended (q : Core) (src n : Nat) : (q.countEvent src n).ended = q.ended := rfl
@[simp] theorem Core.countEvent_engFail (q : Core) (src n : Nat) : (q.countEvent src n).engFail = q.engFail := rfl
@[simp] theorem Core.countEvent_engWrote (q : Core) (src n : Nat) : (q.countEvent src n).engWrote = q.engWrote := rfl
@[simp] theorem Core.countEvent_waitPage (q : Core) (src n : Nat) : (q.countEvent src n).waitPage = q.waitPage := rfl
@[simp] theorem Core.countEvent_defer (q : Core) (src n : Nat) : (q.countEvent src n).defer = q.defer := rfl
@[simp] theorem Core.countEvent_issue (q : Core) (src n : Nat) : (q.countEvent src n).issue = q.issue := rfl
@[simp] theorem Core.countEvent_yld (q : Core) (src n : Nat) : (q.countEvent src n).yld = q.yld := rfl
@[simp] theorem Core.countEvent_paid (q : Core) (src n : Nat) : (q.countEvent src n).paid = q.paid := rfl
@[simp] theorem Core.countEvent_stood (q : Core) (src n : Nat) : (q.countEvent src n).stood = q.stood := rfl

/-! ## Core.ws -/

@[simp] theorem Core.ws_p (q : Core) (r : SReg) (x : Word) : (q.ws r x).p = q.p := by
  unfold Core.ws; split <;> rfl
@[simp] theorem Core.ws_v (q : Core) (r : SReg) (x : Word) : (q.ws r x).v = q.v := by
  unfold Core.ws; split <;> rfl
@[simp] theorem Core.ws_l (q : Core) (r : SReg) (x : Word) : (q.ws r x).l = q.l := by
  unfold Core.ws; split <;> rfl
@[simp] theorem Core.ws_k (q : Core) (r : SReg) (x : Word) : (q.ws r x).k = q.k := by
  unfold Core.ws; split <;> rfl
@[simp] theorem Core.ws_share (q : Core) (r : SReg) (x : Word) : (q.ws r x).share = q.share := by
  unfold Core.ws; split <;> rfl
@[simp] theorem Core.ws_dr (q : Core) (r : SReg) (x : Word) : (q.ws r x).dr = q.dr := by
  unfold Core.ws; split <;> rfl
@[simp] theorem Core.ws_h (q : Core) (r : SReg) (x : Word) : (q.ws r x).h = q.h := by
  unfold Core.ws; split <;> rfl
@[simp] theorem Core.ws_gcm (q : Core) (r : SReg) (x : Word) : (q.ws r x).gcm = q.gcm := by
  unfold Core.ws; split <;> rfl
@[simp] theorem Core.ws_shadow (q : Core) (r : SReg) (x : Word) : (q.ws r x).shadow = q.shadow := by
  unfold Core.ws; split <;> rfl
@[simp] theorem Core.ws_pc (q : Core) (r : SReg) (x : Word) : (q.ws r x).pc = q.pc := by
  unfold Core.ws; split <;> rfl
@[simp] theorem Core.ws_blk (q : Core) (r : SReg) (x : Word) : (q.ws r x).blk = q.blk := by
  unfold Core.ws; split <;> rfl
@[simp] theorem Core.ws_hdr (q : Core) (r : SReg) (x : Word) : (q.ws r x).hdr = q.hdr := by
  unfold Core.ws; split <;> rfl
@[simp] theorem Core.ws_pos (q : Core) (r : SReg) (x : Word) : (q.ws r x).pos = q.pos := by
  unfold Core.ws; split <;> rfl
@[simp] theorem Core.ws_priv (q : Core) (r : SReg) (x : Word) : (q.ws r x).priv = q.priv := by
  unfold Core.ws; split <;> rfl
@[simp] theorem Core.ws_convoy (q : Core) (r : SReg) (x : Word) : (q.ws r x).convoy = q.convoy := by
  unfold Core.ws; split <;> rfl
@[simp] theorem Core.ws_uih (q : Core) (r : SReg) (x : Word) : (q.ws r x).uih = q.uih := by
  unfold Core.ws; split <;> rfl
@[simp] theorem Core.ws_inHandler (q : Core) (r : SReg) (x : Word) : (q.ws r x).inHandler = q.inHandler := by
  unfold Core.ws; split <;> rfl
@[simp] theorem Core.ws_deferredTrap (q : Core) (r : SReg) (x : Word) : (q.ws r x).deferredTrap = q.deferredTrap := by
  unfold Core.ws; split <;> rfl
@[simp] theorem Core.ws_trap (q : Core) (r : SReg) (x : Word) : (q.ws r x).trap = q.trap := by
  unfold Core.ws; split <;> rfl
@[simp] theorem Core.ws_ui (q : Core) (r : SReg) (x : Word) : (q.ws r x).ui = q.ui := by
  unfold Core.ws; split <;> rfl
@[simp] theorem Core.ws_spillBase (q : Core) (r : SReg) (x : Word) : (q.ws r x).spillBase = q.spillBase := by
  unfold Core.ws; split <;> rfl
@[simp] theorem Core.ws_ovfBase (q : Core) (r : SReg) (x : Word) : (q.ws r x).ovfBase = q.ovfBase := by
  unfold Core.ws; split <;> rfl
@[simp] theorem Core.ws_ovfMark (q : Core) (r : SReg) (x : Word) : (q.ws r x).ovfMark = q.ovfMark := by
  unfold Core.ws; split <;> rfl
@[simp] theorem Core.ws_duty (q : Core) (r : SReg) (x : Word) : (q.ws r x).duty = q.duty := by
  unfold Core.ws; split <;> rfl
@[simp] theorem Core.ws_opreq (q : Core) (r : SReg) (x : Word) : (q.ws r x).opreq = q.opreq := by
  unfold Core.ws; split <;> rfl
@[simp] theorem Core.ws_ec (q : Core) (r : SReg) (x : Word) : (q.ws r x).ec = q.ec := by
  unfold Core.ws; split <;> rfl
@[simp] theorem Core.ws_ecsel (q : Core) (r : SReg) (x : Word) : (q.ws r x).ecsel = q.ecsel := by
  unfold Core.ws; split <;> rfl
@[simp] theorem Core.ws_badtrits (q : Core) (r : SReg) (x : Word) : (q.ws r x).badtrits = q.badtrits := by
  unfold Core.ws; split <;> rfl
@[simp] theorem Core.ws_tls (q : Core) (r : SReg) (x : Word) : (q.ws r x).tls = q.tls := by
  unfold Core.ws; split <;> rfl
@[simp] theorem Core.ws_rgPath (q : Core) (r : SReg) (x : Word) : (q.ws r x).rgPath = q.rgPath := by
  unfold Core.ws; split <;> rfl
@[simp] theorem Core.ws_ringFails (q : Core) (r : SReg) (x : Word) : (q.ws r x).ringFails = q.ringFails := by
  unfold Core.ws; split <;> rfl
@[simp] theorem Core.ws_ringCore (q : Core) (r : SReg) (x : Word) : (q.ws r x).ringCore = q.ringCore := by
  unfold Core.ws; split <;> rfl
@[simp] theorem Core.ws_bars (q : Core) (r : SReg) (x : Word) : (q.ws r x).bars = q.bars := by
  unfold Core.ws; split <;> rfl
@[simp] theorem Core.ws_stores (q : Core) (r : SReg) (x : Word) : (q.ws r x).stores = q.stores := by
  unfold Core.ws; split <;> rfl
@[simp] theorem Core.ws_loads (q : Core) (r : SReg) (x : Word) : (q.ws r x).loads = q.loads := by
  unfold Core.ws; split <;> rfl
@[simp] theorem Core.ws_fences (q : Core) (r : SReg) (x : Word) : (q.ws r x).fences = q.fences := by
  unfold Core.ws; split <;> rfl
@[simp] theorem Core.ws_seen (q : Core) (r : SReg) (x : Word) : (q.ws r x).seen = q.seen := by
  unfold Core.ws; split <;> rfl
@[simp] theorem Core.ws_early (q : Core) (r : SReg) (x : Word) : (q.ws r x).early = q.early := by
  unfold Core.ws; split <;> rfl
@[simp] theorem Core.ws_wrote (q : Core) (r : SReg) (x : Word) : (q.ws r x).wrote = q.wrote := by
  unfold Core.ws; split <;> rfl
@[simp] theorem Core.ws_sc (q : Core) (r : SReg) (x : Word) : (q.ws r x).sc = q.sc := by
  unfold Core.ws; split <;> rfl
@[simp] theorem Core.ws_upd (q : Core) (r : SReg) (x : Word) : (q.ws r x).upd = q.upd := by
  unfold Core.ws; split <;> rfl
@[simp] theorem Core.ws_credits (q : Core) (r : SReg) (x : Word) : (q.ws r x).credits = q.credits := by
  unfold Core.ws; split <;> rfl
@[simp] theorem Core.ws_view (q : Core) (r : SReg) (x : Word) : (q.ws r x).view = q.view := by
  unfold Core.ws; split <;> rfl
@[simp] theorem Core.ws_utlb (q : Core) (r : SReg) (x : Word) : (q.ws r x).utlb = q.utlb := by
  unfold Core.ws; split <;> rfl
@[simp] theorem Core.ws_work (q : Core) (r : SReg) (x : Word) : (q.ws r x).work = q.work := by
  unfold Core.ws; split <;> rfl
@[simp] theorem Core.ws_inst (q : Core) (r : SReg) (x : Word) : (q.ws r x).inst = q.inst := by
  unfold Core.ws; split <;> rfl
@[simp] theorem Core.ws_grants (q : Core) (r : SReg) (x : Word) : (q.ws r x).grants = q.grants := by
  unfold Core.ws; split <;> rfl
@[simp] theorem Core.ws_pre (q : Core) (r : SReg) (x : Word) : (q.ws r x).pre = q.pre := by
  unfold Core.ws; split <;> rfl
@[simp] theorem Core.ws_req (q : Core) (r : SReg) (x : Word) : (q.ws r x).req = q.req := by
  unfold Core.ws; split <;> rfl
@[simp] theorem Core.ws_due (q : Core) (r : SReg) (x : Word) : (q.ws r x).due = q.due := by
  unfold Core.ws; split <;> rfl
@[simp] theorem Core.ws_debug (q : Core) (r : SReg) (x : Word) : (q.ws r x).debug = q.debug := by
  unfold Core.ws; split <;> rfl
@[simp] theorem Core.ws_debugReq (q : Core) (r : SReg) (x : Word) : (q.ws r x).debugReq = q.debugReq := by
  unfold Core.ws; split <;> rfl
@[simp] theorem Core.ws_sleep (q : Core) (r : SReg) (x : Word) : (q.ws r x).sleep = q.sleep := by
  unfold Core.ws; split <;> rfl
@[simp] theorem Core.ws_wakes (q : Core) (r : SReg) (x : Word) : (q.ws r x).wakes = q.wakes := by
  unfold Core.ws; split <;> rfl
@[simp] theorem Core.ws_cyc (q : Core) (r : SReg) (x : Word) : (q.ws r x).cyc = q.cyc := by
  unfold Core.ws; split <;> rfl
@[simp] theorem Core.ws_wd (q : Core) (r : SReg) (x : Word) : (q.ws r x).wd = q.wd := by
  unfold Core.ws; split <;> rfl
@[simp] theorem Core.ws_rejoin (q : Core) (r : SReg) (x : Word) : (q.ws r x).rejoin = q.rejoin := by
  unfold Core.ws; split <;> rfl
@[simp] theorem Core.ws_parked (q : Core) (r : SReg) (x : Word) : (q.ws r x).parked = q.parked := by
  unfold Core.ws; split <;> rfl
@[simp] theorem Core.ws_heldFor (q : Core) (r : SReg) (x : Word) : (q.ws r x).heldFor = q.heldFor := by
  unfold Core.ws; split <;> rfl
@[simp] theorem Core.ws_ended (q : Core) (r : SReg) (x : Word) : (q.ws r x).ended = q.ended := by
  unfold Core.ws; split <;> rfl
@[simp] theorem Core.ws_engFail (q : Core) (r : SReg) (x : Word) : (q.ws r x).engFail = q.engFail := by
  unfold Core.ws; split <;> rfl
@[simp] theorem Core.ws_engWrote (q : Core) (r : SReg) (x : Word) : (q.ws r x).engWrote = q.engWrote := by
  unfold Core.ws; split <;> rfl
@[simp] theorem Core.ws_waitPage (q : Core) (r : SReg) (x : Word) : (q.ws r x).waitPage = q.waitPage := by
  unfold Core.ws; split <;> rfl
@[simp] theorem Core.ws_defer (q : Core) (r : SReg) (x : Word) : (q.ws r x).defer = q.defer := by
  unfold Core.ws; split <;> rfl
@[simp] theorem Core.ws_issue (q : Core) (r : SReg) (x : Word) : (q.ws r x).issue = q.issue := by
  unfold Core.ws; split <;> rfl
@[simp] theorem Core.ws_yld (q : Core) (r : SReg) (x : Word) : (q.ws r x).yld = q.yld := by
  unfold Core.ws; split <;> rfl
@[simp] theorem Core.ws_paid (q : Core) (r : SReg) (x : Word) : (q.ws r x).paid = q.paid := by
  unfold Core.ws; split <;> rfl
@[simp] theorem Core.ws_stood (q : Core) (r : SReg) (x : Word) : (q.ws r x).stood = q.stood := by
  unfold Core.ws; split <;> rfl

/-! ## Core.wp -/

@[simp] theorem Core.wp_s (q : Core) (r : PReg) (x : Bool) : (q.wp r x).s = q.s := by
  unfold Core.wp; split <;> rfl
@[simp] theorem Core.wp_v (q : Core) (r : PReg) (x : Bool) : (q.wp r x).v = q.v := by
  unfold Core.wp; split <;> rfl
@[simp] theorem Core.wp_l (q : Core) (r : PReg) (x : Bool) : (q.wp r x).l = q.l := by
  unfold Core.wp; split <;> rfl
@[simp] theorem Core.wp_k (q : Core) (r : PReg) (x : Bool) : (q.wp r x).k = q.k := by
  unfold Core.wp; split <;> rfl
@[simp] theorem Core.wp_share (q : Core) (r : PReg) (x : Bool) : (q.wp r x).share = q.share := by
  unfold Core.wp; split <;> rfl
@[simp] theorem Core.wp_dr (q : Core) (r : PReg) (x : Bool) : (q.wp r x).dr = q.dr := by
  unfold Core.wp; split <;> rfl
@[simp] theorem Core.wp_h (q : Core) (r : PReg) (x : Bool) : (q.wp r x).h = q.h := by
  unfold Core.wp; split <;> rfl
@[simp] theorem Core.wp_gcm (q : Core) (r : PReg) (x : Bool) : (q.wp r x).gcm = q.gcm := by
  unfold Core.wp; split <;> rfl
@[simp] theorem Core.wp_shadow (q : Core) (r : PReg) (x : Bool) : (q.wp r x).shadow = q.shadow := by
  unfold Core.wp; split <;> rfl
@[simp] theorem Core.wp_pc (q : Core) (r : PReg) (x : Bool) : (q.wp r x).pc = q.pc := by
  unfold Core.wp; split <;> rfl
@[simp] theorem Core.wp_blk (q : Core) (r : PReg) (x : Bool) : (q.wp r x).blk = q.blk := by
  unfold Core.wp; split <;> rfl
@[simp] theorem Core.wp_hdr (q : Core) (r : PReg) (x : Bool) : (q.wp r x).hdr = q.hdr := by
  unfold Core.wp; split <;> rfl
@[simp] theorem Core.wp_pos (q : Core) (r : PReg) (x : Bool) : (q.wp r x).pos = q.pos := by
  unfold Core.wp; split <;> rfl
@[simp] theorem Core.wp_priv (q : Core) (r : PReg) (x : Bool) : (q.wp r x).priv = q.priv := by
  unfold Core.wp; split <;> rfl
@[simp] theorem Core.wp_convoy (q : Core) (r : PReg) (x : Bool) : (q.wp r x).convoy = q.convoy := by
  unfold Core.wp; split <;> rfl
@[simp] theorem Core.wp_uih (q : Core) (r : PReg) (x : Bool) : (q.wp r x).uih = q.uih := by
  unfold Core.wp; split <;> rfl
@[simp] theorem Core.wp_inHandler (q : Core) (r : PReg) (x : Bool) : (q.wp r x).inHandler = q.inHandler := by
  unfold Core.wp; split <;> rfl
@[simp] theorem Core.wp_deferredTrap (q : Core) (r : PReg) (x : Bool) : (q.wp r x).deferredTrap = q.deferredTrap := by
  unfold Core.wp; split <;> rfl
@[simp] theorem Core.wp_trap (q : Core) (r : PReg) (x : Bool) : (q.wp r x).trap = q.trap := by
  unfold Core.wp; split <;> rfl
@[simp] theorem Core.wp_ui (q : Core) (r : PReg) (x : Bool) : (q.wp r x).ui = q.ui := by
  unfold Core.wp; split <;> rfl
@[simp] theorem Core.wp_spillBase (q : Core) (r : PReg) (x : Bool) : (q.wp r x).spillBase = q.spillBase := by
  unfold Core.wp; split <;> rfl
@[simp] theorem Core.wp_ovfBase (q : Core) (r : PReg) (x : Bool) : (q.wp r x).ovfBase = q.ovfBase := by
  unfold Core.wp; split <;> rfl
@[simp] theorem Core.wp_ovfMark (q : Core) (r : PReg) (x : Bool) : (q.wp r x).ovfMark = q.ovfMark := by
  unfold Core.wp; split <;> rfl
@[simp] theorem Core.wp_duty (q : Core) (r : PReg) (x : Bool) : (q.wp r x).duty = q.duty := by
  unfold Core.wp; split <;> rfl
@[simp] theorem Core.wp_opreq (q : Core) (r : PReg) (x : Bool) : (q.wp r x).opreq = q.opreq := by
  unfold Core.wp; split <;> rfl
@[simp] theorem Core.wp_ec (q : Core) (r : PReg) (x : Bool) : (q.wp r x).ec = q.ec := by
  unfold Core.wp; split <;> rfl
@[simp] theorem Core.wp_ecsel (q : Core) (r : PReg) (x : Bool) : (q.wp r x).ecsel = q.ecsel := by
  unfold Core.wp; split <;> rfl
@[simp] theorem Core.wp_badtrits (q : Core) (r : PReg) (x : Bool) : (q.wp r x).badtrits = q.badtrits := by
  unfold Core.wp; split <;> rfl
@[simp] theorem Core.wp_tls (q : Core) (r : PReg) (x : Bool) : (q.wp r x).tls = q.tls := by
  unfold Core.wp; split <;> rfl
@[simp] theorem Core.wp_rgPath (q : Core) (r : PReg) (x : Bool) : (q.wp r x).rgPath = q.rgPath := by
  unfold Core.wp; split <;> rfl
@[simp] theorem Core.wp_ringFails (q : Core) (r : PReg) (x : Bool) : (q.wp r x).ringFails = q.ringFails := by
  unfold Core.wp; split <;> rfl
@[simp] theorem Core.wp_ringCore (q : Core) (r : PReg) (x : Bool) : (q.wp r x).ringCore = q.ringCore := by
  unfold Core.wp; split <;> rfl
@[simp] theorem Core.wp_bars (q : Core) (r : PReg) (x : Bool) : (q.wp r x).bars = q.bars := by
  unfold Core.wp; split <;> rfl
@[simp] theorem Core.wp_stores (q : Core) (r : PReg) (x : Bool) : (q.wp r x).stores = q.stores := by
  unfold Core.wp; split <;> rfl
@[simp] theorem Core.wp_loads (q : Core) (r : PReg) (x : Bool) : (q.wp r x).loads = q.loads := by
  unfold Core.wp; split <;> rfl
@[simp] theorem Core.wp_fences (q : Core) (r : PReg) (x : Bool) : (q.wp r x).fences = q.fences := by
  unfold Core.wp; split <;> rfl
@[simp] theorem Core.wp_seen (q : Core) (r : PReg) (x : Bool) : (q.wp r x).seen = q.seen := by
  unfold Core.wp; split <;> rfl
@[simp] theorem Core.wp_early (q : Core) (r : PReg) (x : Bool) : (q.wp r x).early = q.early := by
  unfold Core.wp; split <;> rfl
@[simp] theorem Core.wp_wrote (q : Core) (r : PReg) (x : Bool) : (q.wp r x).wrote = q.wrote := by
  unfold Core.wp; split <;> rfl
@[simp] theorem Core.wp_sc (q : Core) (r : PReg) (x : Bool) : (q.wp r x).sc = q.sc := by
  unfold Core.wp; split <;> rfl
@[simp] theorem Core.wp_upd (q : Core) (r : PReg) (x : Bool) : (q.wp r x).upd = q.upd := by
  unfold Core.wp; split <;> rfl
@[simp] theorem Core.wp_credits (q : Core) (r : PReg) (x : Bool) : (q.wp r x).credits = q.credits := by
  unfold Core.wp; split <;> rfl
@[simp] theorem Core.wp_view (q : Core) (r : PReg) (x : Bool) : (q.wp r x).view = q.view := by
  unfold Core.wp; split <;> rfl
@[simp] theorem Core.wp_utlb (q : Core) (r : PReg) (x : Bool) : (q.wp r x).utlb = q.utlb := by
  unfold Core.wp; split <;> rfl
@[simp] theorem Core.wp_work (q : Core) (r : PReg) (x : Bool) : (q.wp r x).work = q.work := by
  unfold Core.wp; split <;> rfl
@[simp] theorem Core.wp_inst (q : Core) (r : PReg) (x : Bool) : (q.wp r x).inst = q.inst := by
  unfold Core.wp; split <;> rfl
@[simp] theorem Core.wp_grants (q : Core) (r : PReg) (x : Bool) : (q.wp r x).grants = q.grants := by
  unfold Core.wp; split <;> rfl
@[simp] theorem Core.wp_pre (q : Core) (r : PReg) (x : Bool) : (q.wp r x).pre = q.pre := by
  unfold Core.wp; split <;> rfl
@[simp] theorem Core.wp_req (q : Core) (r : PReg) (x : Bool) : (q.wp r x).req = q.req := by
  unfold Core.wp; split <;> rfl
@[simp] theorem Core.wp_due (q : Core) (r : PReg) (x : Bool) : (q.wp r x).due = q.due := by
  unfold Core.wp; split <;> rfl
@[simp] theorem Core.wp_debug (q : Core) (r : PReg) (x : Bool) : (q.wp r x).debug = q.debug := by
  unfold Core.wp; split <;> rfl
@[simp] theorem Core.wp_debugReq (q : Core) (r : PReg) (x : Bool) : (q.wp r x).debugReq = q.debugReq := by
  unfold Core.wp; split <;> rfl
@[simp] theorem Core.wp_sleep (q : Core) (r : PReg) (x : Bool) : (q.wp r x).sleep = q.sleep := by
  unfold Core.wp; split <;> rfl
@[simp] theorem Core.wp_wakes (q : Core) (r : PReg) (x : Bool) : (q.wp r x).wakes = q.wakes := by
  unfold Core.wp; split <;> rfl
@[simp] theorem Core.wp_cyc (q : Core) (r : PReg) (x : Bool) : (q.wp r x).cyc = q.cyc := by
  unfold Core.wp; split <;> rfl
@[simp] theorem Core.wp_wd (q : Core) (r : PReg) (x : Bool) : (q.wp r x).wd = q.wd := by
  unfold Core.wp; split <;> rfl
@[simp] theorem Core.wp_rejoin (q : Core) (r : PReg) (x : Bool) : (q.wp r x).rejoin = q.rejoin := by
  unfold Core.wp; split <;> rfl
@[simp] theorem Core.wp_parked (q : Core) (r : PReg) (x : Bool) : (q.wp r x).parked = q.parked := by
  unfold Core.wp; split <;> rfl
@[simp] theorem Core.wp_heldFor (q : Core) (r : PReg) (x : Bool) : (q.wp r x).heldFor = q.heldFor := by
  unfold Core.wp; split <;> rfl
@[simp] theorem Core.wp_ended (q : Core) (r : PReg) (x : Bool) : (q.wp r x).ended = q.ended := by
  unfold Core.wp; split <;> rfl
@[simp] theorem Core.wp_engFail (q : Core) (r : PReg) (x : Bool) : (q.wp r x).engFail = q.engFail := by
  unfold Core.wp; split <;> rfl
@[simp] theorem Core.wp_engWrote (q : Core) (r : PReg) (x : Bool) : (q.wp r x).engWrote = q.engWrote := by
  unfold Core.wp; split <;> rfl
@[simp] theorem Core.wp_waitPage (q : Core) (r : PReg) (x : Bool) : (q.wp r x).waitPage = q.waitPage := by
  unfold Core.wp; split <;> rfl
@[simp] theorem Core.wp_defer (q : Core) (r : PReg) (x : Bool) : (q.wp r x).defer = q.defer := by
  unfold Core.wp; split <;> rfl
@[simp] theorem Core.wp_issue (q : Core) (r : PReg) (x : Bool) : (q.wp r x).issue = q.issue := by
  unfold Core.wp; split <;> rfl
@[simp] theorem Core.wp_yld (q : Core) (r : PReg) (x : Bool) : (q.wp r x).yld = q.yld := by
  unfold Core.wp; split <;> rfl
@[simp] theorem Core.wp_paid (q : Core) (r : PReg) (x : Bool) : (q.wp r x).paid = q.paid := by
  unfold Core.wp; split <;> rfl
@[simp] theorem Core.wp_stood (q : Core) (r : PReg) (x : Bool) : (q.wp r x).stood = q.stood := by
  unfold Core.wp; split <;> rfl

/-! ## Core.wk -/

@[simp] theorem Core.wk_s (q : Core) (r : KReg) (x : Vec) : (q.wk r x).s = q.s := rfl
@[simp] theorem Core.wk_p (q : Core) (r : KReg) (x : Vec) : (q.wk r x).p = q.p := rfl
@[simp] theorem Core.wk_v (q : Core) (r : KReg) (x : Vec) : (q.wk r x).v = q.v := rfl
@[simp] theorem Core.wk_l (q : Core) (r : KReg) (x : Vec) : (q.wk r x).l = q.l := rfl
@[simp] theorem Core.wk_share (q : Core) (r : KReg) (x : Vec) : (q.wk r x).share = q.share := rfl
@[simp] theorem Core.wk_dr (q : Core) (r : KReg) (x : Vec) : (q.wk r x).dr = q.dr := rfl
@[simp] theorem Core.wk_h (q : Core) (r : KReg) (x : Vec) : (q.wk r x).h = q.h := rfl
@[simp] theorem Core.wk_gcm (q : Core) (r : KReg) (x : Vec) : (q.wk r x).gcm = q.gcm := rfl
@[simp] theorem Core.wk_shadow (q : Core) (r : KReg) (x : Vec) : (q.wk r x).shadow = q.shadow := rfl
@[simp] theorem Core.wk_pc (q : Core) (r : KReg) (x : Vec) : (q.wk r x).pc = q.pc := rfl
@[simp] theorem Core.wk_blk (q : Core) (r : KReg) (x : Vec) : (q.wk r x).blk = q.blk := rfl
@[simp] theorem Core.wk_hdr (q : Core) (r : KReg) (x : Vec) : (q.wk r x).hdr = q.hdr := rfl
@[simp] theorem Core.wk_pos (q : Core) (r : KReg) (x : Vec) : (q.wk r x).pos = q.pos := rfl
@[simp] theorem Core.wk_priv (q : Core) (r : KReg) (x : Vec) : (q.wk r x).priv = q.priv := rfl
@[simp] theorem Core.wk_convoy (q : Core) (r : KReg) (x : Vec) : (q.wk r x).convoy = q.convoy := rfl
@[simp] theorem Core.wk_uih (q : Core) (r : KReg) (x : Vec) : (q.wk r x).uih = q.uih := rfl
@[simp] theorem Core.wk_inHandler (q : Core) (r : KReg) (x : Vec) : (q.wk r x).inHandler = q.inHandler := rfl
@[simp] theorem Core.wk_deferredTrap (q : Core) (r : KReg) (x : Vec) : (q.wk r x).deferredTrap = q.deferredTrap := rfl
@[simp] theorem Core.wk_trap (q : Core) (r : KReg) (x : Vec) : (q.wk r x).trap = q.trap := rfl
@[simp] theorem Core.wk_ui (q : Core) (r : KReg) (x : Vec) : (q.wk r x).ui = q.ui := rfl
@[simp] theorem Core.wk_spillBase (q : Core) (r : KReg) (x : Vec) : (q.wk r x).spillBase = q.spillBase := rfl
@[simp] theorem Core.wk_ovfBase (q : Core) (r : KReg) (x : Vec) : (q.wk r x).ovfBase = q.ovfBase := rfl
@[simp] theorem Core.wk_ovfMark (q : Core) (r : KReg) (x : Vec) : (q.wk r x).ovfMark = q.ovfMark := rfl
@[simp] theorem Core.wk_duty (q : Core) (r : KReg) (x : Vec) : (q.wk r x).duty = q.duty := rfl
@[simp] theorem Core.wk_opreq (q : Core) (r : KReg) (x : Vec) : (q.wk r x).opreq = q.opreq := rfl
@[simp] theorem Core.wk_ec (q : Core) (r : KReg) (x : Vec) : (q.wk r x).ec = q.ec := rfl
@[simp] theorem Core.wk_ecsel (q : Core) (r : KReg) (x : Vec) : (q.wk r x).ecsel = q.ecsel := rfl
@[simp] theorem Core.wk_badtrits (q : Core) (r : KReg) (x : Vec) : (q.wk r x).badtrits = q.badtrits := rfl
@[simp] theorem Core.wk_tls (q : Core) (r : KReg) (x : Vec) : (q.wk r x).tls = q.tls := rfl
@[simp] theorem Core.wk_rgPath (q : Core) (r : KReg) (x : Vec) : (q.wk r x).rgPath = q.rgPath := rfl
@[simp] theorem Core.wk_ringFails (q : Core) (r : KReg) (x : Vec) : (q.wk r x).ringFails = q.ringFails := rfl
@[simp] theorem Core.wk_ringCore (q : Core) (r : KReg) (x : Vec) : (q.wk r x).ringCore = q.ringCore := rfl
@[simp] theorem Core.wk_bars (q : Core) (r : KReg) (x : Vec) : (q.wk r x).bars = q.bars := rfl
@[simp] theorem Core.wk_stores (q : Core) (r : KReg) (x : Vec) : (q.wk r x).stores = q.stores := rfl
@[simp] theorem Core.wk_loads (q : Core) (r : KReg) (x : Vec) : (q.wk r x).loads = q.loads := rfl
@[simp] theorem Core.wk_fences (q : Core) (r : KReg) (x : Vec) : (q.wk r x).fences = q.fences := rfl
@[simp] theorem Core.wk_seen (q : Core) (r : KReg) (x : Vec) : (q.wk r x).seen = q.seen := rfl
@[simp] theorem Core.wk_early (q : Core) (r : KReg) (x : Vec) : (q.wk r x).early = q.early := rfl
@[simp] theorem Core.wk_wrote (q : Core) (r : KReg) (x : Vec) : (q.wk r x).wrote = q.wrote := rfl
@[simp] theorem Core.wk_sc (q : Core) (r : KReg) (x : Vec) : (q.wk r x).sc = q.sc := rfl
@[simp] theorem Core.wk_upd (q : Core) (r : KReg) (x : Vec) : (q.wk r x).upd = q.upd := rfl
@[simp] theorem Core.wk_credits (q : Core) (r : KReg) (x : Vec) : (q.wk r x).credits = q.credits := rfl
@[simp] theorem Core.wk_view (q : Core) (r : KReg) (x : Vec) : (q.wk r x).view = q.view := rfl
@[simp] theorem Core.wk_utlb (q : Core) (r : KReg) (x : Vec) : (q.wk r x).utlb = q.utlb := rfl
@[simp] theorem Core.wk_work (q : Core) (r : KReg) (x : Vec) : (q.wk r x).work = q.work := rfl
@[simp] theorem Core.wk_inst (q : Core) (r : KReg) (x : Vec) : (q.wk r x).inst = q.inst := rfl
@[simp] theorem Core.wk_grants (q : Core) (r : KReg) (x : Vec) : (q.wk r x).grants = q.grants := rfl
@[simp] theorem Core.wk_pre (q : Core) (r : KReg) (x : Vec) : (q.wk r x).pre = q.pre := rfl
@[simp] theorem Core.wk_req (q : Core) (r : KReg) (x : Vec) : (q.wk r x).req = q.req := rfl
@[simp] theorem Core.wk_due (q : Core) (r : KReg) (x : Vec) : (q.wk r x).due = q.due := rfl
@[simp] theorem Core.wk_debug (q : Core) (r : KReg) (x : Vec) : (q.wk r x).debug = q.debug := rfl
@[simp] theorem Core.wk_debugReq (q : Core) (r : KReg) (x : Vec) : (q.wk r x).debugReq = q.debugReq := rfl
@[simp] theorem Core.wk_sleep (q : Core) (r : KReg) (x : Vec) : (q.wk r x).sleep = q.sleep := rfl
@[simp] theorem Core.wk_wakes (q : Core) (r : KReg) (x : Vec) : (q.wk r x).wakes = q.wakes := rfl
@[simp] theorem Core.wk_cyc (q : Core) (r : KReg) (x : Vec) : (q.wk r x).cyc = q.cyc := rfl
@[simp] theorem Core.wk_wd (q : Core) (r : KReg) (x : Vec) : (q.wk r x).wd = q.wd := rfl
@[simp] theorem Core.wk_rejoin (q : Core) (r : KReg) (x : Vec) : (q.wk r x).rejoin = q.rejoin := rfl
@[simp] theorem Core.wk_parked (q : Core) (r : KReg) (x : Vec) : (q.wk r x).parked = q.parked := rfl
@[simp] theorem Core.wk_heldFor (q : Core) (r : KReg) (x : Vec) : (q.wk r x).heldFor = q.heldFor := rfl
@[simp] theorem Core.wk_ended (q : Core) (r : KReg) (x : Vec) : (q.wk r x).ended = q.ended := rfl
@[simp] theorem Core.wk_engFail (q : Core) (r : KReg) (x : Vec) : (q.wk r x).engFail = q.engFail := rfl
@[simp] theorem Core.wk_engWrote (q : Core) (r : KReg) (x : Vec) : (q.wk r x).engWrote = q.engWrote := rfl
@[simp] theorem Core.wk_waitPage (q : Core) (r : KReg) (x : Vec) : (q.wk r x).waitPage = q.waitPage := rfl
@[simp] theorem Core.wk_defer (q : Core) (r : KReg) (x : Vec) : (q.wk r x).defer = q.defer := rfl
@[simp] theorem Core.wk_issue (q : Core) (r : KReg) (x : Vec) : (q.wk r x).issue = q.issue := rfl
@[simp] theorem Core.wk_yld (q : Core) (r : KReg) (x : Vec) : (q.wk r x).yld = q.yld := rfl
@[simp] theorem Core.wk_paid (q : Core) (r : KReg) (x : Vec) : (q.wk r x).paid = q.paid := rfl
@[simp] theorem Core.wk_stood (q : Core) (r : KReg) (x : Vec) : (q.wk r x).stood = q.stood := rfl

/-! ## Core.setHandle -/

@[simp] theorem Core.setHandle_s (q : Core) (h : HReg) (x : Handle) : (q.setHandle h x).s = q.s := rfl
@[simp] theorem Core.setHandle_p (q : Core) (h : HReg) (x : Handle) : (q.setHandle h x).p = q.p := rfl
@[simp] theorem Core.setHandle_v (q : Core) (h : HReg) (x : Handle) : (q.setHandle h x).v = q.v := rfl
@[simp] theorem Core.setHandle_l (q : Core) (h : HReg) (x : Handle) : (q.setHandle h x).l = q.l := rfl
@[simp] theorem Core.setHandle_k (q : Core) (h : HReg) (x : Handle) : (q.setHandle h x).k = q.k := rfl
@[simp] theorem Core.setHandle_share (q : Core) (h : HReg) (x : Handle) : (q.setHandle h x).share = q.share := rfl
@[simp] theorem Core.setHandle_dr (q : Core) (h : HReg) (x : Handle) : (q.setHandle h x).dr = q.dr := rfl
@[simp] theorem Core.setHandle_gcm (q : Core) (h : HReg) (x : Handle) : (q.setHandle h x).gcm = q.gcm := rfl
@[simp] theorem Core.setHandle_shadow (q : Core) (h : HReg) (x : Handle) : (q.setHandle h x).shadow = q.shadow := rfl
@[simp] theorem Core.setHandle_pc (q : Core) (h : HReg) (x : Handle) : (q.setHandle h x).pc = q.pc := rfl
@[simp] theorem Core.setHandle_blk (q : Core) (h : HReg) (x : Handle) : (q.setHandle h x).blk = q.blk := rfl
@[simp] theorem Core.setHandle_hdr (q : Core) (h : HReg) (x : Handle) : (q.setHandle h x).hdr = q.hdr := rfl
@[simp] theorem Core.setHandle_pos (q : Core) (h : HReg) (x : Handle) : (q.setHandle h x).pos = q.pos := rfl
@[simp] theorem Core.setHandle_priv (q : Core) (h : HReg) (x : Handle) : (q.setHandle h x).priv = q.priv := rfl
@[simp] theorem Core.setHandle_convoy (q : Core) (h : HReg) (x : Handle) : (q.setHandle h x).convoy = q.convoy := rfl
@[simp] theorem Core.setHandle_uih (q : Core) (h : HReg) (x : Handle) : (q.setHandle h x).uih = q.uih := rfl
@[simp] theorem Core.setHandle_inHandler (q : Core) (h : HReg) (x : Handle) : (q.setHandle h x).inHandler = q.inHandler := rfl
@[simp] theorem Core.setHandle_deferredTrap (q : Core) (h : HReg) (x : Handle) : (q.setHandle h x).deferredTrap = q.deferredTrap := rfl
@[simp] theorem Core.setHandle_trap (q : Core) (h : HReg) (x : Handle) : (q.setHandle h x).trap = q.trap := rfl
@[simp] theorem Core.setHandle_ui (q : Core) (h : HReg) (x : Handle) : (q.setHandle h x).ui = q.ui := rfl
@[simp] theorem Core.setHandle_spillBase (q : Core) (h : HReg) (x : Handle) : (q.setHandle h x).spillBase = q.spillBase := rfl
@[simp] theorem Core.setHandle_ovfBase (q : Core) (h : HReg) (x : Handle) : (q.setHandle h x).ovfBase = q.ovfBase := rfl
@[simp] theorem Core.setHandle_ovfMark (q : Core) (h : HReg) (x : Handle) : (q.setHandle h x).ovfMark = q.ovfMark := rfl
@[simp] theorem Core.setHandle_duty (q : Core) (h : HReg) (x : Handle) : (q.setHandle h x).duty = q.duty := rfl
@[simp] theorem Core.setHandle_opreq (q : Core) (h : HReg) (x : Handle) : (q.setHandle h x).opreq = q.opreq := rfl
@[simp] theorem Core.setHandle_ec (q : Core) (h : HReg) (x : Handle) : (q.setHandle h x).ec = q.ec := rfl
@[simp] theorem Core.setHandle_ecsel (q : Core) (h : HReg) (x : Handle) : (q.setHandle h x).ecsel = q.ecsel := rfl
@[simp] theorem Core.setHandle_badtrits (q : Core) (h : HReg) (x : Handle) : (q.setHandle h x).badtrits = q.badtrits := rfl
@[simp] theorem Core.setHandle_tls (q : Core) (h : HReg) (x : Handle) : (q.setHandle h x).tls = q.tls := rfl
@[simp] theorem Core.setHandle_rgPath (q : Core) (h : HReg) (x : Handle) : (q.setHandle h x).rgPath = q.rgPath := rfl
@[simp] theorem Core.setHandle_ringFails (q : Core) (h : HReg) (x : Handle) : (q.setHandle h x).ringFails = q.ringFails := rfl
@[simp] theorem Core.setHandle_ringCore (q : Core) (h : HReg) (x : Handle) : (q.setHandle h x).ringCore = q.ringCore := rfl
@[simp] theorem Core.setHandle_bars (q : Core) (h : HReg) (x : Handle) : (q.setHandle h x).bars = q.bars := rfl
@[simp] theorem Core.setHandle_stores (q : Core) (h : HReg) (x : Handle) : (q.setHandle h x).stores = q.stores := rfl
@[simp] theorem Core.setHandle_loads (q : Core) (h : HReg) (x : Handle) : (q.setHandle h x).loads = q.loads := rfl
@[simp] theorem Core.setHandle_fences (q : Core) (h : HReg) (x : Handle) : (q.setHandle h x).fences = q.fences := rfl
@[simp] theorem Core.setHandle_seen (q : Core) (h : HReg) (x : Handle) : (q.setHandle h x).seen = q.seen := rfl
@[simp] theorem Core.setHandle_early (q : Core) (h : HReg) (x : Handle) : (q.setHandle h x).early = q.early := rfl
@[simp] theorem Core.setHandle_wrote (q : Core) (h : HReg) (x : Handle) : (q.setHandle h x).wrote = q.wrote := rfl
@[simp] theorem Core.setHandle_sc (q : Core) (h : HReg) (x : Handle) : (q.setHandle h x).sc = q.sc := rfl
@[simp] theorem Core.setHandle_upd (q : Core) (h : HReg) (x : Handle) : (q.setHandle h x).upd = q.upd := rfl
@[simp] theorem Core.setHandle_credits (q : Core) (h : HReg) (x : Handle) : (q.setHandle h x).credits = q.credits := rfl
@[simp] theorem Core.setHandle_view (q : Core) (h : HReg) (x : Handle) : (q.setHandle h x).view = q.view := rfl
@[simp] theorem Core.setHandle_utlb (q : Core) (h : HReg) (x : Handle) : (q.setHandle h x).utlb = q.utlb := rfl
@[simp] theorem Core.setHandle_work (q : Core) (h : HReg) (x : Handle) : (q.setHandle h x).work = q.work := rfl
@[simp] theorem Core.setHandle_inst (q : Core) (h : HReg) (x : Handle) : (q.setHandle h x).inst = q.inst := rfl
@[simp] theorem Core.setHandle_grants (q : Core) (h : HReg) (x : Handle) : (q.setHandle h x).grants = q.grants := rfl
@[simp] theorem Core.setHandle_pre (q : Core) (h : HReg) (x : Handle) : (q.setHandle h x).pre = q.pre := rfl
@[simp] theorem Core.setHandle_req (q : Core) (h : HReg) (x : Handle) : (q.setHandle h x).req = q.req := rfl
@[simp] theorem Core.setHandle_due (q : Core) (h : HReg) (x : Handle) : (q.setHandle h x).due = q.due := rfl
@[simp] theorem Core.setHandle_debug (q : Core) (h : HReg) (x : Handle) : (q.setHandle h x).debug = q.debug := rfl
@[simp] theorem Core.setHandle_debugReq (q : Core) (h : HReg) (x : Handle) : (q.setHandle h x).debugReq = q.debugReq := rfl
@[simp] theorem Core.setHandle_sleep (q : Core) (h : HReg) (x : Handle) : (q.setHandle h x).sleep = q.sleep := rfl
@[simp] theorem Core.setHandle_wakes (q : Core) (h : HReg) (x : Handle) : (q.setHandle h x).wakes = q.wakes := rfl
@[simp] theorem Core.setHandle_cyc (q : Core) (h : HReg) (x : Handle) : (q.setHandle h x).cyc = q.cyc := rfl
@[simp] theorem Core.setHandle_wd (q : Core) (h : HReg) (x : Handle) : (q.setHandle h x).wd = q.wd := rfl
@[simp] theorem Core.setHandle_rejoin (q : Core) (h : HReg) (x : Handle) : (q.setHandle h x).rejoin = q.rejoin := rfl
@[simp] theorem Core.setHandle_parked (q : Core) (h : HReg) (x : Handle) : (q.setHandle h x).parked = q.parked := rfl
@[simp] theorem Core.setHandle_heldFor (q : Core) (h : HReg) (x : Handle) : (q.setHandle h x).heldFor = q.heldFor := rfl
@[simp] theorem Core.setHandle_ended (q : Core) (h : HReg) (x : Handle) : (q.setHandle h x).ended = q.ended := rfl
@[simp] theorem Core.setHandle_engFail (q : Core) (h : HReg) (x : Handle) : (q.setHandle h x).engFail = q.engFail := rfl
@[simp] theorem Core.setHandle_engWrote (q : Core) (h : HReg) (x : Handle) : (q.setHandle h x).engWrote = q.engWrote := rfl
@[simp] theorem Core.setHandle_waitPage (q : Core) (h : HReg) (x : Handle) : (q.setHandle h x).waitPage = q.waitPage := rfl
@[simp] theorem Core.setHandle_defer (q : Core) (h : HReg) (x : Handle) : (q.setHandle h x).defer = q.defer := rfl
@[simp] theorem Core.setHandle_issue (q : Core) (h : HReg) (x : Handle) : (q.setHandle h x).issue = q.issue := rfl
@[simp] theorem Core.setHandle_yld (q : Core) (h : HReg) (x : Handle) : (q.setHandle h x).yld = q.yld := rfl
@[simp] theorem Core.setHandle_paid (q : Core) (h : HReg) (x : Handle) : (q.setHandle h x).paid = q.paid := rfl
@[simp] theorem Core.setHandle_stood (q : Core) (h : HReg) (x : Handle) : (q.setHandle h x).stood = q.stood := rfl

/-! ## Core.setTl -/

@[simp] theorem Core.setTl_s (q : Core) (t : Timeline) (x : Tline) : (q.setTl t x).s = q.s := rfl
@[simp] theorem Core.setTl_p (q : Core) (t : Timeline) (x : Tline) : (q.setTl t x).p = q.p := rfl
@[simp] theorem Core.setTl_v (q : Core) (t : Timeline) (x : Tline) : (q.setTl t x).v = q.v := rfl
@[simp] theorem Core.setTl_l (q : Core) (t : Timeline) (x : Tline) : (q.setTl t x).l = q.l := rfl
@[simp] theorem Core.setTl_k (q : Core) (t : Timeline) (x : Tline) : (q.setTl t x).k = q.k := rfl
@[simp] theorem Core.setTl_share (q : Core) (t : Timeline) (x : Tline) : (q.setTl t x).share = q.share := rfl
@[simp] theorem Core.setTl_dr (q : Core) (t : Timeline) (x : Tline) : (q.setTl t x).dr = q.dr := rfl
@[simp] theorem Core.setTl_h (q : Core) (t : Timeline) (x : Tline) : (q.setTl t x).h = q.h := rfl
@[simp] theorem Core.setTl_gcm (q : Core) (t : Timeline) (x : Tline) : (q.setTl t x).gcm = q.gcm := rfl
@[simp] theorem Core.setTl_shadow (q : Core) (t : Timeline) (x : Tline) : (q.setTl t x).shadow = q.shadow := rfl
@[simp] theorem Core.setTl_pc (q : Core) (t : Timeline) (x : Tline) : (q.setTl t x).pc = q.pc := rfl
@[simp] theorem Core.setTl_blk (q : Core) (t : Timeline) (x : Tline) : (q.setTl t x).blk = q.blk := rfl
@[simp] theorem Core.setTl_hdr (q : Core) (t : Timeline) (x : Tline) : (q.setTl t x).hdr = q.hdr := rfl
@[simp] theorem Core.setTl_pos (q : Core) (t : Timeline) (x : Tline) : (q.setTl t x).pos = q.pos := rfl
@[simp] theorem Core.setTl_priv (q : Core) (t : Timeline) (x : Tline) : (q.setTl t x).priv = q.priv := rfl
@[simp] theorem Core.setTl_convoy (q : Core) (t : Timeline) (x : Tline) : (q.setTl t x).convoy = q.convoy := rfl
@[simp] theorem Core.setTl_uih (q : Core) (t : Timeline) (x : Tline) : (q.setTl t x).uih = q.uih := rfl
@[simp] theorem Core.setTl_inHandler (q : Core) (t : Timeline) (x : Tline) : (q.setTl t x).inHandler = q.inHandler := rfl
@[simp] theorem Core.setTl_deferredTrap (q : Core) (t : Timeline) (x : Tline) : (q.setTl t x).deferredTrap = q.deferredTrap := rfl
@[simp] theorem Core.setTl_trap (q : Core) (t : Timeline) (x : Tline) : (q.setTl t x).trap = q.trap := rfl
@[simp] theorem Core.setTl_ui (q : Core) (t : Timeline) (x : Tline) : (q.setTl t x).ui = q.ui := rfl
@[simp] theorem Core.setTl_spillBase (q : Core) (t : Timeline) (x : Tline) : (q.setTl t x).spillBase = q.spillBase := rfl
@[simp] theorem Core.setTl_ovfBase (q : Core) (t : Timeline) (x : Tline) : (q.setTl t x).ovfBase = q.ovfBase := rfl
@[simp] theorem Core.setTl_ovfMark (q : Core) (t : Timeline) (x : Tline) : (q.setTl t x).ovfMark = q.ovfMark := rfl
@[simp] theorem Core.setTl_duty (q : Core) (t : Timeline) (x : Tline) : (q.setTl t x).duty = q.duty := rfl
@[simp] theorem Core.setTl_opreq (q : Core) (t : Timeline) (x : Tline) : (q.setTl t x).opreq = q.opreq := rfl
@[simp] theorem Core.setTl_ec (q : Core) (t : Timeline) (x : Tline) : (q.setTl t x).ec = q.ec := rfl
@[simp] theorem Core.setTl_ecsel (q : Core) (t : Timeline) (x : Tline) : (q.setTl t x).ecsel = q.ecsel := rfl
@[simp] theorem Core.setTl_badtrits (q : Core) (t : Timeline) (x : Tline) : (q.setTl t x).badtrits = q.badtrits := rfl
@[simp] theorem Core.setTl_rgPath (q : Core) (t : Timeline) (x : Tline) : (q.setTl t x).rgPath = q.rgPath := rfl
@[simp] theorem Core.setTl_ringFails (q : Core) (t : Timeline) (x : Tline) : (q.setTl t x).ringFails = q.ringFails := rfl
@[simp] theorem Core.setTl_ringCore (q : Core) (t : Timeline) (x : Tline) : (q.setTl t x).ringCore = q.ringCore := rfl
@[simp] theorem Core.setTl_bars (q : Core) (t : Timeline) (x : Tline) : (q.setTl t x).bars = q.bars := rfl
@[simp] theorem Core.setTl_stores (q : Core) (t : Timeline) (x : Tline) : (q.setTl t x).stores = q.stores := rfl
@[simp] theorem Core.setTl_loads (q : Core) (t : Timeline) (x : Tline) : (q.setTl t x).loads = q.loads := rfl
@[simp] theorem Core.setTl_fences (q : Core) (t : Timeline) (x : Tline) : (q.setTl t x).fences = q.fences := rfl
@[simp] theorem Core.setTl_seen (q : Core) (t : Timeline) (x : Tline) : (q.setTl t x).seen = q.seen := rfl
@[simp] theorem Core.setTl_early (q : Core) (t : Timeline) (x : Tline) : (q.setTl t x).early = q.early := rfl
@[simp] theorem Core.setTl_wrote (q : Core) (t : Timeline) (x : Tline) : (q.setTl t x).wrote = q.wrote := rfl
@[simp] theorem Core.setTl_sc (q : Core) (t : Timeline) (x : Tline) : (q.setTl t x).sc = q.sc := rfl
@[simp] theorem Core.setTl_upd (q : Core) (t : Timeline) (x : Tline) : (q.setTl t x).upd = q.upd := rfl
@[simp] theorem Core.setTl_credits (q : Core) (t : Timeline) (x : Tline) : (q.setTl t x).credits = q.credits := rfl
@[simp] theorem Core.setTl_view (q : Core) (t : Timeline) (x : Tline) : (q.setTl t x).view = q.view := rfl
@[simp] theorem Core.setTl_utlb (q : Core) (t : Timeline) (x : Tline) : (q.setTl t x).utlb = q.utlb := rfl
@[simp] theorem Core.setTl_work (q : Core) (t : Timeline) (x : Tline) : (q.setTl t x).work = q.work := rfl
@[simp] theorem Core.setTl_inst (q : Core) (t : Timeline) (x : Tline) : (q.setTl t x).inst = q.inst := rfl
@[simp] theorem Core.setTl_grants (q : Core) (t : Timeline) (x : Tline) : (q.setTl t x).grants = q.grants := rfl
@[simp] theorem Core.setTl_pre (q : Core) (t : Timeline) (x : Tline) : (q.setTl t x).pre = q.pre := rfl
@[simp] theorem Core.setTl_req (q : Core) (t : Timeline) (x : Tline) : (q.setTl t x).req = q.req := rfl
@[simp] theorem Core.setTl_due (q : Core) (t : Timeline) (x : Tline) : (q.setTl t x).due = q.due := rfl
@[simp] theorem Core.setTl_debug (q : Core) (t : Timeline) (x : Tline) : (q.setTl t x).debug = q.debug := rfl
@[simp] theorem Core.setTl_debugReq (q : Core) (t : Timeline) (x : Tline) : (q.setTl t x).debugReq = q.debugReq := rfl
@[simp] theorem Core.setTl_sleep (q : Core) (t : Timeline) (x : Tline) : (q.setTl t x).sleep = q.sleep := rfl
@[simp] theorem Core.setTl_wakes (q : Core) (t : Timeline) (x : Tline) : (q.setTl t x).wakes = q.wakes := rfl
@[simp] theorem Core.setTl_cyc (q : Core) (t : Timeline) (x : Tline) : (q.setTl t x).cyc = q.cyc := rfl
@[simp] theorem Core.setTl_wd (q : Core) (t : Timeline) (x : Tline) : (q.setTl t x).wd = q.wd := rfl
@[simp] theorem Core.setTl_rejoin (q : Core) (t : Timeline) (x : Tline) : (q.setTl t x).rejoin = q.rejoin := rfl
@[simp] theorem Core.setTl_parked (q : Core) (t : Timeline) (x : Tline) : (q.setTl t x).parked = q.parked := rfl
@[simp] theorem Core.setTl_heldFor (q : Core) (t : Timeline) (x : Tline) : (q.setTl t x).heldFor = q.heldFor := rfl
@[simp] theorem Core.setTl_ended (q : Core) (t : Timeline) (x : Tline) : (q.setTl t x).ended = q.ended := rfl
@[simp] theorem Core.setTl_engFail (q : Core) (t : Timeline) (x : Tline) : (q.setTl t x).engFail = q.engFail := rfl
@[simp] theorem Core.setTl_engWrote (q : Core) (t : Timeline) (x : Tline) : (q.setTl t x).engWrote = q.engWrote := rfl
@[simp] theorem Core.setTl_waitPage (q : Core) (t : Timeline) (x : Tline) : (q.setTl t x).waitPage = q.waitPage := rfl
@[simp] theorem Core.setTl_defer (q : Core) (t : Timeline) (x : Tline) : (q.setTl t x).defer = q.defer := rfl
@[simp] theorem Core.setTl_issue (q : Core) (t : Timeline) (x : Tline) : (q.setTl t x).issue = q.issue := rfl
@[simp] theorem Core.setTl_yld (q : Core) (t : Timeline) (x : Tline) : (q.setTl t x).yld = q.yld := rfl
@[simp] theorem Core.setTl_paid (q : Core) (t : Timeline) (x : Tline) : (q.setTl t x).paid = q.paid := rfl
@[simp] theorem Core.setTl_stood (q : Core) (t : Timeline) (x : Tline) : (q.setTl t x).stood = q.stood := rfl

/-! ## Core.setBar -/

@[simp] theorem Core.setBar_s (q : Core) (b : Nat) (x : Bar) : (q.setBar b x).s = q.s := rfl
@[simp] theorem Core.setBar_p (q : Core) (b : Nat) (x : Bar) : (q.setBar b x).p = q.p := rfl
@[simp] theorem Core.setBar_v (q : Core) (b : Nat) (x : Bar) : (q.setBar b x).v = q.v := rfl
@[simp] theorem Core.setBar_l (q : Core) (b : Nat) (x : Bar) : (q.setBar b x).l = q.l := rfl
@[simp] theorem Core.setBar_k (q : Core) (b : Nat) (x : Bar) : (q.setBar b x).k = q.k := rfl
@[simp] theorem Core.setBar_share (q : Core) (b : Nat) (x : Bar) : (q.setBar b x).share = q.share := rfl
@[simp] theorem Core.setBar_dr (q : Core) (b : Nat) (x : Bar) : (q.setBar b x).dr = q.dr := rfl
@[simp] theorem Core.setBar_h (q : Core) (b : Nat) (x : Bar) : (q.setBar b x).h = q.h := rfl
@[simp] theorem Core.setBar_gcm (q : Core) (b : Nat) (x : Bar) : (q.setBar b x).gcm = q.gcm := rfl
@[simp] theorem Core.setBar_shadow (q : Core) (b : Nat) (x : Bar) : (q.setBar b x).shadow = q.shadow := rfl
@[simp] theorem Core.setBar_pc (q : Core) (b : Nat) (x : Bar) : (q.setBar b x).pc = q.pc := rfl
@[simp] theorem Core.setBar_blk (q : Core) (b : Nat) (x : Bar) : (q.setBar b x).blk = q.blk := rfl
@[simp] theorem Core.setBar_hdr (q : Core) (b : Nat) (x : Bar) : (q.setBar b x).hdr = q.hdr := rfl
@[simp] theorem Core.setBar_pos (q : Core) (b : Nat) (x : Bar) : (q.setBar b x).pos = q.pos := rfl
@[simp] theorem Core.setBar_priv (q : Core) (b : Nat) (x : Bar) : (q.setBar b x).priv = q.priv := rfl
@[simp] theorem Core.setBar_convoy (q : Core) (b : Nat) (x : Bar) : (q.setBar b x).convoy = q.convoy := rfl
@[simp] theorem Core.setBar_uih (q : Core) (b : Nat) (x : Bar) : (q.setBar b x).uih = q.uih := rfl
@[simp] theorem Core.setBar_inHandler (q : Core) (b : Nat) (x : Bar) : (q.setBar b x).inHandler = q.inHandler := rfl
@[simp] theorem Core.setBar_deferredTrap (q : Core) (b : Nat) (x : Bar) : (q.setBar b x).deferredTrap = q.deferredTrap := rfl
@[simp] theorem Core.setBar_trap (q : Core) (b : Nat) (x : Bar) : (q.setBar b x).trap = q.trap := rfl
@[simp] theorem Core.setBar_ui (q : Core) (b : Nat) (x : Bar) : (q.setBar b x).ui = q.ui := rfl
@[simp] theorem Core.setBar_spillBase (q : Core) (b : Nat) (x : Bar) : (q.setBar b x).spillBase = q.spillBase := rfl
@[simp] theorem Core.setBar_ovfBase (q : Core) (b : Nat) (x : Bar) : (q.setBar b x).ovfBase = q.ovfBase := rfl
@[simp] theorem Core.setBar_ovfMark (q : Core) (b : Nat) (x : Bar) : (q.setBar b x).ovfMark = q.ovfMark := rfl
@[simp] theorem Core.setBar_duty (q : Core) (b : Nat) (x : Bar) : (q.setBar b x).duty = q.duty := rfl
@[simp] theorem Core.setBar_opreq (q : Core) (b : Nat) (x : Bar) : (q.setBar b x).opreq = q.opreq := rfl
@[simp] theorem Core.setBar_ec (q : Core) (b : Nat) (x : Bar) : (q.setBar b x).ec = q.ec := rfl
@[simp] theorem Core.setBar_ecsel (q : Core) (b : Nat) (x : Bar) : (q.setBar b x).ecsel = q.ecsel := rfl
@[simp] theorem Core.setBar_badtrits (q : Core) (b : Nat) (x : Bar) : (q.setBar b x).badtrits = q.badtrits := rfl
@[simp] theorem Core.setBar_tls (q : Core) (b : Nat) (x : Bar) : (q.setBar b x).tls = q.tls := rfl
@[simp] theorem Core.setBar_rgPath (q : Core) (b : Nat) (x : Bar) : (q.setBar b x).rgPath = q.rgPath := rfl
@[simp] theorem Core.setBar_ringFails (q : Core) (b : Nat) (x : Bar) : (q.setBar b x).ringFails = q.ringFails := rfl
@[simp] theorem Core.setBar_ringCore (q : Core) (b : Nat) (x : Bar) : (q.setBar b x).ringCore = q.ringCore := rfl
@[simp] theorem Core.setBar_stores (q : Core) (b : Nat) (x : Bar) : (q.setBar b x).stores = q.stores := rfl
@[simp] theorem Core.setBar_loads (q : Core) (b : Nat) (x : Bar) : (q.setBar b x).loads = q.loads := rfl
@[simp] theorem Core.setBar_fences (q : Core) (b : Nat) (x : Bar) : (q.setBar b x).fences = q.fences := rfl
@[simp] theorem Core.setBar_seen (q : Core) (b : Nat) (x : Bar) : (q.setBar b x).seen = q.seen := rfl
@[simp] theorem Core.setBar_early (q : Core) (b : Nat) (x : Bar) : (q.setBar b x).early = q.early := rfl
@[simp] theorem Core.setBar_wrote (q : Core) (b : Nat) (x : Bar) : (q.setBar b x).wrote = q.wrote := rfl
@[simp] theorem Core.setBar_sc (q : Core) (b : Nat) (x : Bar) : (q.setBar b x).sc = q.sc := rfl
@[simp] theorem Core.setBar_upd (q : Core) (b : Nat) (x : Bar) : (q.setBar b x).upd = q.upd := rfl
@[simp] theorem Core.setBar_credits (q : Core) (b : Nat) (x : Bar) : (q.setBar b x).credits = q.credits := rfl
@[simp] theorem Core.setBar_view (q : Core) (b : Nat) (x : Bar) : (q.setBar b x).view = q.view := rfl
@[simp] theorem Core.setBar_utlb (q : Core) (b : Nat) (x : Bar) : (q.setBar b x).utlb = q.utlb := rfl
@[simp] theorem Core.setBar_work (q : Core) (b : Nat) (x : Bar) : (q.setBar b x).work = q.work := rfl
@[simp] theorem Core.setBar_inst (q : Core) (b : Nat) (x : Bar) : (q.setBar b x).inst = q.inst := rfl
@[simp] theorem Core.setBar_grants (q : Core) (b : Nat) (x : Bar) : (q.setBar b x).grants = q.grants := rfl
@[simp] theorem Core.setBar_pre (q : Core) (b : Nat) (x : Bar) : (q.setBar b x).pre = q.pre := rfl
@[simp] theorem Core.setBar_req (q : Core) (b : Nat) (x : Bar) : (q.setBar b x).req = q.req := rfl
@[simp] theorem Core.setBar_due (q : Core) (b : Nat) (x : Bar) : (q.setBar b x).due = q.due := rfl
@[simp] theorem Core.setBar_debug (q : Core) (b : Nat) (x : Bar) : (q.setBar b x).debug = q.debug := rfl
@[simp] theorem Core.setBar_debugReq (q : Core) (b : Nat) (x : Bar) : (q.setBar b x).debugReq = q.debugReq := rfl
@[simp] theorem Core.setBar_sleep (q : Core) (b : Nat) (x : Bar) : (q.setBar b x).sleep = q.sleep := rfl
@[simp] theorem Core.setBar_wakes (q : Core) (b : Nat) (x : Bar) : (q.setBar b x).wakes = q.wakes := rfl
@[simp] theorem Core.setBar_cyc (q : Core) (b : Nat) (x : Bar) : (q.setBar b x).cyc = q.cyc := rfl
@[simp] theorem Core.setBar_wd (q : Core) (b : Nat) (x : Bar) : (q.setBar b x).wd = q.wd := rfl
@[simp] theorem Core.setBar_rejoin (q : Core) (b : Nat) (x : Bar) : (q.setBar b x).rejoin = q.rejoin := rfl
@[simp] theorem Core.setBar_parked (q : Core) (b : Nat) (x : Bar) : (q.setBar b x).parked = q.parked := rfl
@[simp] theorem Core.setBar_heldFor (q : Core) (b : Nat) (x : Bar) : (q.setBar b x).heldFor = q.heldFor := rfl
@[simp] theorem Core.setBar_ended (q : Core) (b : Nat) (x : Bar) : (q.setBar b x).ended = q.ended := rfl
@[simp] theorem Core.setBar_engFail (q : Core) (b : Nat) (x : Bar) : (q.setBar b x).engFail = q.engFail := rfl
@[simp] theorem Core.setBar_engWrote (q : Core) (b : Nat) (x : Bar) : (q.setBar b x).engWrote = q.engWrote := rfl
@[simp] theorem Core.setBar_waitPage (q : Core) (b : Nat) (x : Bar) : (q.setBar b x).waitPage = q.waitPage := rfl
@[simp] theorem Core.setBar_defer (q : Core) (b : Nat) (x : Bar) : (q.setBar b x).defer = q.defer := rfl
@[simp] theorem Core.setBar_issue (q : Core) (b : Nat) (x : Bar) : (q.setBar b x).issue = q.issue := rfl
@[simp] theorem Core.setBar_yld (q : Core) (b : Nat) (x : Bar) : (q.setBar b x).yld = q.yld := rfl
@[simp] theorem Core.setBar_paid (q : Core) (b : Nat) (x : Bar) : (q.setBar b x).paid = q.paid := rfl
@[simp] theorem Core.setBar_stood (q : Core) (b : Nat) (x : Bar) : (q.setBar b x).stood = q.stood := rfl

/-! ## Registers -/

@[simp] theorem Core.rs_zero (q : Core) : q.rs 0 = 0 := rfl
@[simp] theorem Core.ws_zero (q : Core) (x : Word) : q.ws 0 x = q := rfl
theorem Core.rs_ws_same (q : Core) {r : SReg} (h : r ≠ 0) (x : Word) : (q.ws r x).rs r = x := by
  rw [Core.rs, Core.ws, if_neg h, if_neg h]
  exact SMap.get_set_same ..
theorem Core.rs_ws_other (q : Core) {r t : SReg} (h : t ≠ r) (x : Word) : (q.ws r x).rs t = q.rs t := by
  by_cases hr : r = 0
  · rw [Core.ws, if_pos hr]
  · by_cases ht : t = 0
    · rw [Core.rs, Core.rs, if_pos ht, if_pos ht]
    · rw [Core.rs, Core.rs, Core.ws, if_neg ht, if_neg ht, if_neg hr]
      exact SMap.get_set_other _ (fun e => h (BitVec.eq_of_toNat_eq e)) ..

end Sys2Proof.Machine
end

