-- ==== Sys2Proof/Laws/Words.lean ====
section
/-! SUPPORT. What a word does to the cores that run it: the outcomes of the runners of Machine/Ops.lean, said once. -/
namespace Sys2Proof.Machine
open Sys2Proof

/-! ## The cores of a convoy -/

theorem clusterCores_nodup (cl : Nat) : (clusterCores cl).Nodup := by
  unfold clusterCores rangeFrom
  exact List.Nodup.map (fun a b h => by simpa using h) List.nodup_range

theorem convoyOf_nodup (s : State) (c : CoreId) : (s.convoyOf c).Nodup := by
  unfold State.convoyOf
  split
  · exact (clusterCores_nodup _).filter _
  · simp

theorem convoyOf_alone (s : State) (c : CoreId) (h : (s.core c).convoy = false) : s.convoyOf c = [c] := by
  simp [State.convoyOf, h]

/-! ## A word's pass over one core -/

/-- A core that is ready is held up by no check. -/
theorem memberRes_ready {s : State} {m : CoreId} {f : Fields} {priv guarded : Bool} {body : CoreId → State → Res}
    (h : (s.core m).Ready f) (hp : priv = true → (s.core m).priv = true) :
    s.memberRes m f priv guarded body =
      if guarded && !f.ctl.guards (s.core m) then .done s else body m s := by
  have hpriv : (priv && !(s.core m).priv) = false := by
    cases hq : priv with
    | false => rfl
    | true => simp [hp hq]
  unfold State.memberRes
  rw [h.legal]
  simp only [hpriv, h.settled, if_false, Bool.false_eq_true]

/-- A core that is not paced pays nothing for a word. -/
theorem offer_unpaced {s : State} {m : CoreId} {f : Fields}
    (h : takesLong f.op.toNat = true → (s.core m).long = false ∨ (s.tile (tileOf m)).cap = 0) :
    (s.core m).offers f = false ∨ s.offer m f.op.toNat = (s, true) := by
  by_cases ht : takesLong f.op.toNat = true
  · rcases h ht with hl | hc
    · left; simp [Core.offers, hl]
    · right; simp [State.offer, hc]
  · left; simp [Core.offers, ht]

/-- The long unit takes the words of cores that are not paced, and nothing is paid. -/
theorem offerAll_unpaced {s : State} {f : Fields} (ms : List CoreId)
    (h : ∀ m ∈ ms, takesLong f.op.toNat = true → (s.core m).long = false ∨ (s.tile (tileOf m)).cap = 0) :
    s.offerAll ms f = (s, true) := by
  unfold State.offerAll
  induction ms with
  | nil => rfl
  | cons a l ih =>
    have e := ih fun m hm => h m (List.mem_cons_of_mem _ hm)
    rcases offer_unpaced (h a List.mem_cons_self) with ho | ho <;> simp [List.foldl_cons, ho, e]

/-- The checks of a word stop no core that is ready for it. -/
theorem pass_checks (f : Fields) (priv guarded : Bool) (l : List CoreId) (s : State) (hr : ∀ m ∈ l, (s.core m).Ready f)
    (hp : ∀ m ∈ l, priv = true → (s.core m).priv = true) :
    l.foldl (fun (p : Pass) m => p.take m (p.s.memberRes m f priv guarded fun _ s => .done s)) { s := s } = { s := s } := by
  induction l with
  | nil => rfl
  | cons a l ih =>
    have ha : s.memberRes a f priv guarded (fun _ s => .done s) = .done s := by
      rw [memberRes_ready (hr a List.mem_cons_self) (hp a List.mem_cons_self)]; simp
    simp only [List.foldl_cons, ha]
    rw [show Pass.take { s := s } a (.done s) = { s := s } from rfl]
    exact ih (fun m hm => hr m (List.mem_cons_of_mem _ hm)) fun m hm => hp m (List.mem_cons_of_mem _ hm)

/-- What a word does on cores that are ready and not paced: its second pass decides. -/
theorem runMembers_ready {s : State} {f : Fields} {priv : Bool} (body : CoreId → State → Res) (h : s.Ready f)
    (hp : ∀ m ∈ s.convoyOf s.cur, priv = true → (s.core m).priv = true) :
    s.runMembers f priv body = s.runEffects s f priv body := by
  unfold State.runMembers
  simp only [pass_checks f priv true _ s h.each hp, offerAll_unpaced _ h.unpaced]

/-! ## Words whose whole effect is on each core's own state -/

/-- A fold over distinct cores, each of which changes only itself. -/
theorem foldl_modCore (l : List CoreId) (hl : l.Nodup) (g : Core → Core) (s : State) :
    let t := l.foldl (fun s m => s.modCore m g) s
    t = { s with cores := t.cores } ∧ (∀ m ∈ l, t.core m = g (s.core m)) ∧ ∀ c, c ∉ l → t.core c = s.core c := by
  induction l generalizing s with
  | nil => simp
  | cons a l ih =>
    have hn := List.nodup_cons.mp hl
    obtain ⟨h1, h2, h3⟩ := ih hn.2 (s.modCore a g)
    refine ⟨?_, ?_, ?_⟩
    · simp only [List.foldl_cons]
      rw [h1]; rfl
    · intro m hm
      simp only [List.foldl_cons]
      rcases List.mem_cons.mp hm with rfl | hm
      · rw [h3 m hn.1]; simp
      · have hne : m ≠ a := fun e => hn.1 (e ▸ hm)
        rw [h2 m hm, State.core_modCore_other _ hne]
    · intro c hc
      simp only [List.foldl_cons]
      have hc' : c ≠ a ∧ c ∉ l := ⟨fun e => hc (e ▸ List.mem_cons_self), fun e => hc (List.mem_cons_of_mem _ e)⟩
      rw [h3 c hc'.2, State.core_modCore_other _ hc'.1]

theorem countIssue_eq (s : State) (ms : List CoreId) (f : Fields) :
    s.countIssue ms f = ms.foldl (fun s m => s.modCore m fun q => q.counted f) s := rfl

/-- The pass of a word over cores that are ready for it, when its effect is on each core alone. -/
theorem pass_each (base : State) (f : Fields) (g : Core → Core) (priv : Bool) (body : CoreId → State → Res)
    (l : List CoreId) (hl : l.Nodup) (s : State)
    (hs : s = { base with cores := s.cores }) (hc : ∀ m ∈ l, s.core m = base.core m)
    (hr : ∀ m ∈ l, (base.core m).Ready f) (hp : ∀ m ∈ l, priv = true → (base.core m).priv = true)
    (hb : ∀ m ∈ l, f.ctl.guards (base.core m) = true → ∀ s' : State, s' = { base with cores := s'.cores } →
      s'.core m = base.core m → body m s' = .done (s'.modCore m g)) :
    let p := l.foldl (fun (p : Pass) m => p.take m (p.s.memberRes m f priv true body)) { s := s }
    p.stop = none ∧ p.again = [] ∧ p.jumped = [] ∧ p.s = { base with cores := p.s.cores } ∧
      (∀ m ∈ l, p.s.core m = if f.ctl.guards (base.core m) then g (base.core m) else base.core m) ∧
      ∀ c, c ∉ l → p.s.core c = s.core c := by
  induction l generalizing s with
  | nil => simp [← hs]
  | cons a l ih =>
    have hn := List.nodup_cons.mp hl
    have ha : s.core a = base.core a := hc a List.mem_cons_self
    have hres : s.memberRes a f priv true body =
        .done (if f.ctl.guards (base.core a) then s.modCore a g else s) := by
      rw [memberRes_ready (ha ▸ hr a List.mem_cons_self) (fun h => ha ▸ hp a List.mem_cons_self h), ha]
      by_cases hg : f.ctl.guards (base.core a) = true
      · simpa [hg] using hb a List.mem_cons_self hg s hs ha
      · simp [hg]
    simp only [List.foldl_cons]
    rw [hres, show ∀ s', Pass.take { s := s } a (.done s') = { s := s' } from fun _ => rfl]
    have key := ih hn.2 (if f.ctl.guards (base.core a) then s.modCore a g else s)
      (by split
          · rw [hs]; rfl
          · exact hs)
      (by intro m hm
          have hne : m ≠ a := fun e => hn.1 (e ▸ hm)
          rw [← hc m (List.mem_cons_of_mem _ hm)]
          split
          · exact State.core_modCore_other s hne g
          · rfl)
      (fun m hm => hr m (List.mem_cons_of_mem _ hm)) (fun m hm => hp m (List.mem_cons_of_mem _ hm))
      (fun m hm => hb m (List.mem_cons_of_mem _ hm))
    obtain ⟨k1, k2, k3, k4, k5, k6⟩ := key
    refine ⟨k1, k2, k3, k4, ?_, ?_⟩
    · intro m hm
      rcases List.mem_cons.mp hm with rfl | hm
      · rw [k6 m hn.1]
        split
        · rw [State.core_modCore_same, ha]
        · exact ha
      · exact k5 m hm
    · intro c hc'
      have hc' : c ≠ a ∧ c ∉ l := ⟨fun e => hc' (e ▸ List.mem_cons_self), fun e => hc' (List.mem_cons_of_mem _ e)⟩
      rw [k6 c hc'.2]
      split
      · exact State.core_modCore_other s hc'.1 g
      · rfl

/-- The members of a pass that nobody left go on, each counted. -/
theorem finish_each (p : Pass) (ms : List CoreId) (f : Fields) (hm : ms.Nodup) (hj : p.jumped = []) :
    let t := p.finish ms f
    t = { p.s with cores := t.cores } ∧ (∀ m ∈ ms, t.core m = (p.s.core m).passed f) ∧
      ∀ c, c ∉ ms → t.core c = p.s.core c := by
  unfold Pass.finish
  rw [countIssue_eq]
  simp only [hj, List.contains_nil, Bool.false_eq_true, if_false]
  obtain ⟨a1, a2, a3⟩ := foldl_modCore ms hm (fun q => q.counted f) p.s
  obtain ⟨b1, b2, b3⟩ := foldl_modCore ms hm Core.advance (ms.foldl (fun s m => s.modCore m fun q => q.counted f) p.s)
  refine ⟨?_, ?_, ?_⟩
  · rw [b1, a1]
  · intro m hm'
    rw [b2 m hm', a2 m hm']; rfl
  · intro c hc
    rw [b3 c hc, a3 c hc]

theorem settle_ready {s : State} {f : Fields} (l : List CoreId) (h : ∀ m ∈ l, (s.core m).awaits f = false) :
    l.foldl (fun s m => s.settleLoads m f) s = s := by
  induction l with
  | nil => rfl
  | cons a l ih =>
    have ha : s.settleLoads a f = s := by
      have := h a List.mem_cons_self
      simp only [Core.awaits, Bool.or_eq_false_iff] at this
      simp only [State.settleLoads, this.1, Bool.false_eq_true, if_false]
    simp only [List.foldl_cons, ha]
    exact ih fun m hm => h m (List.mem_cons_of_mem _ hm)

/-- The frame of a word, when its cores are ready for it. -/
theorem word_ready {i : Instr} {f : Fields} {s : State} (hf : i.fields = some f) (h : s.Ready f)
    (run : Fields → State → State) : s.word i run = .next (run f s) := by
  have h1 : ((s.convoyOf s.cur).all fun m => (s.core m).issuing) = true :=
    List.all_eq_true.mpr fun m hm => (h.each m hm).issuing
  have h2 : ((s.convoyOf s.cur).any fun m => !(s.core m).due.isEmpty) = false :=
    List.any_eq_false.mpr fun m hm => by simp [(h.each m hm).calm]
  simp only [State.word, hf, h1, if_true, settle_ready _ fun m hm => (h.each m hm).settled, h2, Bool.false_eq_true,
    if_false]

/-- A word whose effect is on each core alone, over every core of the convoy. -/
theorem runWord_each {i : Instr} {f : Fields} {s : State} {g : Core → Core} {body : CoreId → State → Res}
    (hf : i.fields = some f) (h : s.Ready f)
    (hb : ∀ m ∈ s.convoyOf s.cur, f.ctl.guards (s.core m) = true → ∀ s' : State, s' = { s with cores := s'.cores } →
      s'.core m = s.core m → body m s' = .done (s'.modCore m g))
    (hx : exec i s = runWord i s body) : s.EachDoes i f g := by
  have hn := convoyOf_nodup s s.cur
  obtain ⟨k1, k2, k3, k4, k5, k6⟩ := pass_each s f g false body (s.convoyOf s.cur) hn s rfl (fun _ _ => rfl) h.each
    (fun _ _ hf => by cases hf) hb
  refine ⟨_, by rw [hx, runWord, word_ready hf h], ?_⟩
  rw [runMembers_ready body h fun _ _ hf => by cases hf]
  unfold State.runEffects
  simp only [k1, k2, List.isEmpty_nil, if_true]
  obtain ⟨b1, b2, b3⟩ := finish_each _ (s.convoyOf s.cur) f hn k3
  refine ⟨?_, ?_, ?_⟩
  · rw [b1, k4]
  · intro m hm
    rw [b2 m hm, k5 m hm]
  · intro c hc
    rw [b3 c hc, k6 c hc]

/-! ## Words of a core outside a convoy -/

theorem SMap.set_set {α : Type} (m : SMap α) (k : Nat) (a b : α) : SMap.set (SMap.set m k a) k b = SMap.set m k b := by
  induction m with
  | nil => simp [SMap.set]
  | cons x r ih =>
    obtain ⟨j, c⟩ := x
    by_cases h : j = k
    · simp [SMap.set, h]
    · by_cases h' : k < j <;> simp [SMap.set, h, h', ih]

theorem State.modCore_modCore (s : State) (c : CoreId) (f g : Core → Core) :
    (s.modCore c f).modCore c g = s.modCore c fun q => g (f q) := by
  simp only [State.modCore, State.setCore, State.core, SMap.get_set_same, SMap.set_set]

theorem countIssue_alone (s : State) (c : CoreId) (f : Fields) : s.countIssue [c] f = s.counted c f := by
  rw [countIssue_eq]; rfl

/-- What a word of a lone core does, by the outcome of its own effect. -/
theorem runMembers_alone {f : Fields} {s : State} {priv : Bool} {body : CoreId → State → Res} (h : s.Alone f)
    (hp : priv = true → (s.core s.cur).priv = true) :
    s.runMembers f priv body = match body s.cur s with
      | .done t => t.passed s.cur f
      | .jumped t => t.counted s.cur f
      | .arrived t => match body s.cur t with
        | .done t' => t'.passed s.cur f
        | .jumped t' => t'.counted s.cur f
        | .arrived t' => t'.passed s.cur f
        | .trapCompl t' sub => t.stopWord [s.cur] s.cur (.trapCompl t' sub) fun u => u.consumePhases [s.cur] body
        | .wait => t
        | .busy .. => t
        | .page .. => t
        | .trap .. => t
      | .trapCompl t sub => s.stopWord [s.cur] s.cur (.trapCompl t sub) fun u =>
          u.consumePhases [s.cur] fun m u => u.memberRes m f priv true body
      | r => s.stopWord [s.cur] s.cur r := by
  have hms := convoyOf_alone s s.cur h.lone
  have hm : s.cur ∈ s.convoyOf s.cur := by simp [hms]
  have hr := memberRes_ready (guarded := true) (body := body) (h.ready.each _ hm) hp
  simp only [h.guards, Bool.not_true, Bool.and_false, Bool.false_eq_true, if_false] at hr
  have adv : ∀ t : State, (t.counted s.cur f).modCore s.cur Core.advance = t.passed s.cur f :=
    fun t => State.modCore_modCore t s.cur _ _
  rw [runMembers_ready body h.ready (by rw [hms]; simpa using hp)]
  unfold State.runEffects
  simp only [hms, List.foldl_cons, List.foldl_nil, hr]
  cases hb : body s.cur s <;> simp [Pass.take, worseStop, Pass.finish, countIssue_alone, adv]
  case wait => rfl
  case busy => rfl
  case page => rfl
  case trap => rfl
  case arrived t =>
    cases hb2 : body s.cur t <;> simp

/-- Only a fault at an address walks tables. -/
theorem faultWalk_other (s : State) (c : CoreId) (cause : Cause) (info : Word)
    (h : (cause == .protFault || cause == .scScope || cause == .addrFault) = false) : s.faultWalk c cause info = s := by
  simp only [State.faultWalk, h, Bool.false_eq_true, if_false]

/-- A word of a lone core. -/
theorem runWord_alone {i : Instr} {f : Fields} {s : State} {body : CoreId → State → Res} (hf : i.fields = some f)
    (h : s.Alone f) (hx : exec i s = runWord i s body) :
    (∀ t, body s.cur s = .done t → exec i s = .next (t.passed s.cur f)) ∧
    (∀ t, body s.cur s = .jumped t → exec i s = .next (t.counted s.cur f)) ∧
    (∀ cause info, body s.cur s = .trap cause info →
      exec i s = .next ((s.faultWalk s.cur cause info).preciseTrap [s.cur] s.cur cause info (s.core s.cur).pc
        (s.core s.cur).blk)) ∧
    (body s.cur s = .wait → exec i s = .next s) := by
  have e : exec i s = .next (s.runMembers f false body) := by rw [hx, runWord, word_ready hf h.ready]
  rw [runMembers_alone h (fun hf => by cases hf)] at e
  refine ⟨?_, ?_, ?_, ?_⟩
  · intro t ht; rw [e, ht]
  · intro t ht; rw [e, ht]
  · intro cause info ht; rw [e, ht]; rfl
  · intro ht; rw [e, ht]; rfl

/-- A supervisor word of a lone core at supervisor privilege. -/
theorem runPriv_alone {i : Instr} {f : Fields} {s t : State} {body : CoreId → State → Res} (hf : i.fields = some f)
    (h : s.Alone f) (hp : (s.core s.cur).priv = true) (hx : exec i s = runPriv i s body)
    (ht : body s.cur s = .done t) : exec i s = .next (t.passed s.cur f) := by
  rw [hx, runPriv, word_ready hf h.ready, runMembers_alone h (fun _ => hp), ht]

/-- A supervisor word of a lone core at user privilege takes PRIV_OP (R60). -/
theorem runPriv_user {i : Instr} {f : Fields} {s : State} {body : CoreId → State → Res} (hf : i.fields = some f)
    (h : s.Ready f) (hl : (s.core s.cur).convoy = false) (hp : (s.core s.cur).priv = false)
    (hx : exec i s = runPriv i s body) :
    exec i s = .next (s.preciseTrap [s.cur] s.cur .privOp 0 (s.core s.cur).pc (s.core s.cur).blk) := by
  have hms := convoyOf_alone s s.cur hl
  have hm : s.cur ∈ s.convoyOf s.cur := by simp [hms]
  have hres : s.memberRes s.cur f true true (fun _ s => .done s) = .trap .privOp 0 := by
    unfold State.memberRes
    rw [(h.each _ hm).legal]
    simp [hp]
  rw [hx, runPriv, word_ready hf h]
  unfold State.runMembers
  simp only [hms, List.foldl_cons, List.foldl_nil, hres, Pass.take, worseStop, State.stopWord]
  rfl

/-- A word that the leader resolves, on a lone core. -/
theorem runLeaderWord_alone {i : Instr} {f : Fields} {s : State} {body : List CoreId → State → Res}
    (hf : i.fields = some f) (h : s.Alone f) (hx : exec i s = runLeaderWord i s body) :
    (∀ t, body [s.cur] s = .done t → exec i s = .next (t.passed s.cur f)) ∧
    (∀ t, body [s.cur] s = .jumped t → exec i s = .next (t.counted s.cur f)) ∧
    (∀ cause info, body [s.cur] s = .trap cause info →
      exec i s = .next ((s.faultWalk s.cur cause info).preciseTrap [s.cur] s.cur cause info (s.core s.cur).pc
        (s.core s.cur).blk)) ∧
    (body [s.cur] s = .wait → exec i s = .next s) := by
  have hms := convoyOf_alone s s.cur h.lone
  have hm : s.cur ∈ s.convoyOf s.cur := by simp [hms]
  have hr := memberRes_ready (guarded := false) (priv := false) (body := fun _ s => .done s) (h.ready.each _ hm)
    (fun hf => by cases hf)
  simp only [Bool.false_and, Bool.false_eq_true, if_false] at hr
  have adv : ∀ t : State, (t.counted s.cur f).modCore s.cur Core.advance = t.passed s.cur f :=
    fun t => State.modCore_modCore t s.cur _ _
  have e : exec i s = .next (s.runLeader f body) := by rw [hx, runLeaderWord, word_ready hf h.ready]
  unfold State.runLeader at e
  simp only [hms, List.foldl_cons, List.foldl_nil, hr, Pass.take, List.headD_cons, h.guards, if_true] at e
  refine ⟨?_, ?_, ?_, ?_⟩
  · intro t ht; rw [e, ht]; simp [Pass.finish, countIssue_alone, adv]
  · intro t ht; rw [e, ht]; simp [countIssue_alone]
  · intro cause info ht; rw [e, ht]; rfl
  · intro ht; rw [e, ht]; rfl

/-! ## Words that the leader resolves -/

/-- What a word does that the leader resolves, by the outcome of its effect, over the whole convoy. -/
theorem runLeaderWord_led {i : Instr} {f : Fields} {s : State} {body : List CoreId → State → Res}
    (hf : i.fields = some f) (h : s.Led f) (hx : exec i s = runLeaderWord i s body) :
    (∀ t, body (s.convoyOf s.cur) s = .done t → exec i s = .next (t.goOn (s.convoyOf s.cur) f)) ∧
    (∀ t, body (s.convoyOf s.cur) s = .jumped t → exec i s = .next (t.countIssue (s.convoyOf s.cur) f)) ∧
    (∀ cause info, body (s.convoyOf s.cur) s = .trap cause info → s.TrapsAs i cause info) ∧
    (body (s.convoyOf s.cur) s = .wait → exec i s = .next s) := by
  have e : exec i s = .next (s.runLeader f body) := by rw [hx, runLeaderWord, word_ready hf h.ready]
  have hc := pass_checks f false false (s.convoyOf s.cur) s h.ready.each (fun _ _ hf => by cases hf)
  have hg := h.guards
  unfold State.leader at hg
  unfold State.runLeader at e
  simp only [hc, hg, if_true] at e
  refine ⟨?_, ?_, ?_, ?_⟩
  · intro t ht
    rw [e, ht]
    simp [Pass.finish, State.goOn]
  · intro t ht; rw [e, ht]
  · intro cause info ht; rw [State.TrapsAs, e, ht]; rfl
  · intro ht; rw [e, ht]; rfl

theorem goOn_all (s t : State) (ms : List CoreId) (hm : ms.Nodup) (f : Fields) (g : Core → Core)
    (h1 : t = { s with cores := t.cores }) (h2 : ∀ m ∈ ms, t.core m = g (s.core m)) (h3 : ∀ c, c ∉ ms → t.core c = s.core c) :
    let u := t.goOn ms f
    u = { s with cores := u.cores } ∧ (∀ m ∈ ms, u.core m = (g (s.core m)).passed f) ∧
      ∀ c, c ∉ ms → u.core c = s.core c := by
  unfold State.goOn
  rw [countIssue_eq]
  obtain ⟨a1, a2, a3⟩ := foldl_modCore ms hm (fun q => q.counted f) t
  obtain ⟨b1, b2, b3⟩ := foldl_modCore ms hm Core.advance (ms.foldl (fun s m => s.modCore m fun q => q.counted f) t)
  refine ⟨?_, ?_, ?_⟩
  · rw [b1, a1, h1]
  · intro m hm'
    rw [b2 m hm', a2 m hm', h2 m hm']; rfl
  · intro c hc
    rw [b3 c hc, a3 c hc, h3 c hc]

/-- A leader-resolved word that changes each core of the convoy by itself. -/
theorem runLeaderWord_all {i : Instr} {f : Fields} {s t : State} {body : List CoreId → State → Res} {g : Core → Core}
    (hf : i.fields = some f) (h : s.Led f) (hx : exec i s = runLeaderWord i s body)
    (hb : body (s.convoyOf s.cur) s = .done t) (h1 : t = { s with cores := t.cores })
    (h2 : ∀ m ∈ s.convoyOf s.cur, t.core m = g (s.core m)) (h3 : ∀ c, c ∉ s.convoyOf s.cur → t.core c = s.core c) :
    s.AllDo i f g := by
  obtain ⟨u1, u2, u3⟩ := goOn_all s t _ (convoyOf_nodup s s.cur) f g h1 h2 h3
  exact ⟨_, (runLeaderWord_led hf h hx).1 t hb, u1, u2, u3⟩

/-- Words of Machine/Ops.lean's `runCore`. -/
theorem runCore_each {i : Instr} {g : Core → Core} (hx : ∀ s, exec i s = runCore i s g) : EachDoes i g :=
  fun s _ hf h => runWord_each hf h (fun _ _ _ _ _ _ => rfl) (hx s)

end Sys2Proof.Machine
end

