-- ==== Sys2Proof/Tests/Slice0.lean ====
section
/-! SUPPORT. The model's own tests: the refusals of WellFormed, words written out in the spec, single steps with results
worked in the spec, and for each obligation a state and operands that meet its hypotheses. -/
namespace Sys2Proof.Tests
set_option Elab.async false
open Sys2Proof Sys2Proof.Machine

/-! ## Small states -/

/-- No guards, no hints. -/
def c0 : Ctl := ⟨⟨false, 0⟩, ⟨false, 0⟩, 0, 0, false, false⟩
/-- A reference to handle slots with SC.N = n. -/
def cN (n : BitVec 3) : Ctl := { c0 with n := n }

/-- Every grant, with the first 512 KiB of the scratchpad as its share. -/
def allGrants : Grants :=
  { handles := 16, barriers := 128, lregs := 16, stack := 0, ovf := 0, shareBase := 0, shareSize := 524288, outs := [], wouts := [] }

/-- A core at a word of its block, running a persistent program of context 0. -/
def busy : Core :=
  { pc := 8, blk := 0, hdr := 0xFF40010000000000, pos := .word, work := some ⟨0, 0, none, false, false⟩, pre := .run
    grants := allGrants }

/-- A core that runs a task. -/
def task (idem : Bool) : Core := { busy with work := some ⟨0, 0, some 0, idem, false⟩ }

/-- A package whose core 0 is as given. -/
def one (q : Core) : State := { cores := [(0, q)] }

/-- Core 0 behind one instruction. -/
def after (i : Instr) (q : Core) : Core :=
  match exec i (one q) with
  | .next t => t.core 0
  | .fault _ | .refused _ => q

/-- The state behind one instruction. -/
def next (i : Instr) (s : State) : State :=
  match exec i s with
  | .next t => t
  | .fault _ | .refused _ => s

/-- s1 and s2 hold `a` and `b`. -/
def regs (a b : Word) : Core := { busy with s := [(1, a), (2, b)] }

/-- s3 behind an instruction on s1 and s2. -/
def res (i : Instr) (a b : Word) : Word := (after i (regs a b)).rs 3

/-! ## What WellFormed refuses -/

theorem test_wf_hint_on_plain : (Instr.add { c0 with ch := 1 } 3 (.s 1) (.s 2)).wf = false := by decide
theorem test_wf_adv_on_plain : (Instr.nop { c0 with adv := true }).wf = false := by decide
theorem test_wf_adv_on_hinted : (Instr.ld { c0 with adv := true } 3 4 .i32 0).wf = false := by decide
theorem test_wf_object_with_n : (Instr.hunb { c0 with n := 1 } 3).wf = false := by decide
theorem test_wf_hinted_object_with_n : (Instr.hbind { c0 with n := 1 } 3 0 1).wf = false := by decide
theorem test_wf_hstat_destination_adv : (Instr.hstat { c0 with adv := true } 3 0 .destination).wf = false := by decide
theorem test_wf_limm_top : (Instr.limm c0 3 .top 0x10000).wf = false := by decide
theorem test_wf_fcvt_int_to_int : (Instr.fcvt c0 3 (.s 1) .i32 .i64).wf = false := by decide
theorem test_wf_fcvt_float_immediate : (Instr.fcvt c0 3 (.imm 65) .i32 .fp32).wf = false := by decide
theorem test_wf_ldp_same : (Instr.ldp c0 3 3 1 0).wf = false := by decide
theorem test_wf_vadd_float : (Instr.vadd c0 1 2 (.v 3) none .fp32).wf = false := by decide
theorem test_wf_vfadd_immediate : (Instr.vfadd c0 1 2 (.imm 65) none .fp32).wf = false := by decide
theorem test_wf_vabs_unsigned : (Instr.vabs c0 1 2 none .n8).wf = false := by decide
theorem test_wf_vcmp_lg6_order : (Instr.vcmp c0 1 2 (.v 3) none .lt .lg6).wf = false := by decide
theorem test_wf_vlut_wide : (Instr.vlut c0 1 2 3 none .i32).wf = false := by decide
theorem test_wf_vrsum_lg6 : (Instr.vrsum c0 1 2 none .lg6).wf = false := by decide
theorem test_wf_vcvt_part : (Instr.vcvt c0 1 2 none 4 .i8 .fp32).wf = false := by decide
theorem test_wf_vqmx_source : (Instr.vqmx c0 1 2 3 0 .given .m8 .i8).wf = false := by decide
theorem test_wf_vtern_part : (Instr.vtern c0 1 2 (.s 3) 4 .fp32).wf = false := by decide
theorem test_wf_vcomp_same : (Instr.vcomp c0 1 1 2 0 .p24 .i8).wf = false := by decide
theorem test_wf_vexpd_pattern : (Instr.vexpd c0 1 2 3 0 .p48 .lg6).wf = false := by decide
theorem test_wf_macw_stat : (Instr.macw c0 3 1 .stat 0 (.imm 64) (.imm 64)).wf = false := by decide
theorem test_wf_crw_read_only : (Instr.crw c0 (.s 1) .coreId).wf = false := by decide
theorem test_wf_crset_w1c : (Instr.crset c0 3 (.s 1) .uiCause).wf = false := by decide
theorem test_wf_assigned_opcode : (Instr.unassignedOpcode 0x2000000101020000).wf = false := by decide

/-! ## Words written out in the spec -/

/-- 02 R65: guards and SC. -/
theorem test_word_guards :
    decode 0x201E880702BB0000#64 = .ok (.add { c0 with g1 := ⟨false, 3⟩, g2 := ⟨true, 5⟩, n := 2 } 7 (.s 2) (.imm 59)) := by
  decide +kernel
/-- 03 R77, 08 R205: scalar words. -/
theorem test_word_scalar :
    decode 0x2000000101020000#64 = .ok (.add c0 1 (.s 1) (.s 2)) ∧ decode 0x2C000006C1E00000#64 = .ok (.shl c0 6 (.imm 65) (.imm 96)) ∧
    decode 0x3600007906080600#64 = .ok (.cmp c0 1 .ltn (.s 8) (.s 6)) ∧
    decode 0x2008000404C10000#64 = .ok (.add { c0 with g1 := ⟨false, 1⟩ } 4 (.s 4) (.imm 65)) ∧
    decode 0x3200000807D0D000#64 = .ok (.bext c0 8 (.s 7) (.imm 80) (.imm 80)) := by decide +kernel
/-- 04 R104, 13 R293: loads and stores with and without hints. -/
theorem test_word_memory :
    decode 0x8000200304040010#64 = .ok (.ld { c0 with ch := 1 } 3 4 .i32 16) ∧
    decode 0x808060010D040228#64 = .ok (.st { c0 with ch := 3 } 1 (.s 13) .i32 552) ∧
    decode 0x8C00000704C00001#64 = .ok (.aadd c0 7 4 (.imm 64) .i64) := by decide +kernel
/-- 11 R254: fences, control registers, ring words. -/
theorem test_word_ring :
    decode 0x8800000240000000#64 = .ok (.fence c0 2 0x40 .core) ∧ decode 0xF2000000C0000068#64 = .ok (.crw c0 (.imm 64) (.rgPath 0)) ∧
    decode 0xFC000014C101020B#64 = .ok (.rput c0 20 (.imm 65) 1 2 (.s 11)) ∧
    decode 0xFC800015C10CC100#64 = .ok (.rflag c0 21 (.imm 65) 12 (.imm 65)) ∧
    decode 0xF180000E00000068#64 = .ok (.crr c0 14 (.rgPath 0)) := by decide +kernel
/-- 15 R322: matrix and handle words. -/
theorem test_word_matrix :
    decode 0xD80000C101000040#64 = .ok (.mcfg c0 1 1 64) ∧
    decode 0xE008006006E0C200#64 = .ok (.hcfg { c0 with g1 := ⟨false, 1⟩ } 0 (.s 6) (.imm 96) (.imm 66)) ∧
    decode 0xE108046000000000#64 = .ok (.hadvp { c0 with g1 := ⟨false, 1⟩, n := 1 } 0) ∧
    decode 0xDC10000C100E0F00#64 = .ok (.mbld { c0 with g1 := ⟨false, 2⟩ } 12 16 14 15) ∧
    decode 0xDA9000411500C0C0#64 = .ok (.macr { c0 with g1 := ⟨false, 2⟩ } 1 21 .fp32 0 (.imm 64) (.imm 64)) ∧
    decode 0xE400001401020B00#64 = .ok (.cpy c0 20 1 2 11) := by decide +kernel
/-- 17 R345: vector words. -/
theorem test_word_vector :
    decode 0xC880000A41007109#64 = .ok (.vrmax c0 10 1 (some 1) .fp32) ∧
    decode 0xBE0000440BC10009#64 = .ok (.vins c0 4 (.s 11) (.imm 65) .fp32) ∧
    decode 0xD500004544000000#64 = .ok (.vpmrg c0 5 4 0) ∧
    decode 0xD280004A490E0059#64 = .ok (.vtolg c0 10 9 14 0 .given .fp32) ∧
    decode 0xD400004B4C4A000A#64 = .ok (.vcomp c0 11 12 10 0 .p24 .lg6) ∧
    decode 0xBB80007248390004#64 = .ok (.vcmp c0 2 8 (.s 57) none .eq .i32) ∧
    decode 0xD580007171720000#64 = .ok (.kand c0 1 1 2) ∧ decode 0xB000000104000000#64 = .ok (.vmode c0 .n4) := by decide +kernel
/-- 19 R362, 21 R379: update, barrier, counter words. -/
theorem test_word_update_barrier :
    decode 0xE800006002060000#64 = .ok (.ureg c0 0 2 6 0) ∧ decode 0xE900006041427100#64 = .ok (.updv c0 0 1 2 (some 1)) ∧
    decode 0xEA18001E60000000#64 = .ok (.uqry { c0 with g1 := ⟨false, 3⟩ } 30 0) ∧
    decode 0x9800000000000000#64 = .ok (.bara c0 0 0) ∧ decode 0xA000000100000000#64 = .ok (.phase c0 .comm 0) ∧
    decode 0xA080000900000000#64 = .ok (.pdrain c0 9 0) ∧ decode 0x9980000014000000#64 = .ok (.barm c0 0 (.s 20) 0) ∧
    decode 0xF480000B00000000#64 = .ok (.cyc c0 11) ∧ decode 0xF400000C00000000#64 = .ok (.tstamp c0 12) := by decide +kernel
/-- 02 R50: the header word of the example; R63: a word of zeros. -/
theorem test_word_header : isHeader 0xFF05031000002101#64 = true ∧ (headerOf 0xFF05031000002101#64).len = 5 ∧
    (headerOf 0xFF05031000002101#64).kind = 1 ∧ (headerOf 0xFF05031000002101#64).pf = 2 ∧
    (headerOf 0xFF05031000002101#64).uniform = true ∧ (headerOf 0xFF05031000002101#64).noSpill = false := by decide +kernel
/-- R58, R59: a reserved field, then a wrong class, by slot. -/
theorem test_word_refused : decode 0x2000000101020001#64 = .error ⟨0x05, 4⟩ ∧ decode 0x2000004101020000#64 = .error ⟨0x06, 0⟩ ∧
    decode 0x2000200101020000#64 = .error ⟨0x05, 5⟩ ∧ decodeTableWord 64 0x2000004101020000 = none := by decide +kernel
/-- R45, R198: CONVOY.OFF, whose pair OD:OE is 0; a nonzero byte is reported by the slot that holds it. -/
theorem test_word_convoy_off : decode 0xFA00000000000000#64 = .ok (.convoy c0 .off) ∧
    decode 0xFA00000000000001#64 = .error ⟨0x05, 4⟩ ∧ decode 0xFA00000000000101#64 = .error ⟨0x05, 3⟩ := by decide +kernel

/-! ## Scalar words (03) -/

theorem test_add_wraps : res (.add c0 3 (.s 1) (.s 2)) (-1) 1 = 0 := by decide +kernel
theorem test_sub : res (.sub c0 3 (.s 1) (.imm 65)) 0 0 = -1 := by decide +kernel
theorem test_mulh : res (.mulh c0 3 (.s 1) (.s 2)) (-1) (-1) = 0 ∧ res (.mulhn c0 3 (.s 1) (.s 2)) (-1) (-1) = -2 := by decide +kernel
/-- R84's examples and edge cases. -/
theorem test_div : res (.div c0 3 (.s 1) (.s 2)) (-7) 2 = -3 ∧ res (.rem c0 3 (.s 1) (.s 2)) (-7) 2 = -1 ∧
    res (.divn c0 3 (.s 1) (.s 2)) (-7) 2 = 0x7FFFFFFFFFFFFFFC ∧ res (.remn c0 3 (.s 1) (.s 2)) (-7) 2 = 1 := by decide +kernel
theorem test_div_edges : res (.div c0 3 (.s 1) (.s 2)) 5 0 = -1 ∧ res (.rem c0 3 (.s 1) (.s 2)) 5 0 = 5 ∧
    res (.div c0 3 (.s 1) (.s 2)) 0x8000000000000000 (-1) = 0x8000000000000000 := by decide +kernel
theorem test_abs_most_negative : res (.abs c0 3 (.s 1)) 0x8000000000000000 0 = 0x8000000000000000 := by decide +kernel
theorem test_sar_count : res (.sar c0 3 (.s 1) (.s 2)) (-8) 65 = -4 ∧ res (.shl c0 3 (.s 1) (.s 2)) 1 64 = 1 := by decide +kernel
theorem test_bext : res (.bext c0 3 (.s 1) (.imm 68) (.imm 68)) 0xABCD 0 = 0xC := by decide +kernel
theorem test_counts : res (.clz c0 3 (.s 1)) 1 0 = 63 ∧ res (.ctz c0 3 (.s 1)) 0 0 = 64 ∧ res (.popc c0 3 (.s 1)) 0xFF 0 = 8 := by
  decide +kernel
theorem test_sext : res (.sext c0 3 (.s 1) .w8) 0x180 0 = 0xFFFFFFFFFFFFFF80 := by decide +kernel
/-- R88's sampling key, the second of two words. -/
theorem test_limm : (after (.limm c0 2 .mid 0x5EED00) { busy with s := [(2, 0xC0DE)] }).rs 2 = 0x5EED0000C0DE := by decide +kernel
theorem test_s0_discards : (after (.mov c0 0 (.imm 65)) busy).rs 0 = 0 := by decide +kernel
theorem test_cmp : (after (.cmp c0 1 .ltn (.s 1) (.s 2)) (regs 1 (-1))).p = 2 := by decide +kernel
theorem test_p0_discards : (after (.cmp c0 0 .ne (.s 1) (.s 2)) (regs 1 1)).p = 0 := by decide +kernel
/-- R97's borderline results. -/
theorem test_frnd : res (.frnd c0 3 (.s 1) .rne .fp32) 0x40200000 0 = 0x40000000 ∧
    res (.frnd c0 3 (.s 1) .rna .fp32) 0xC0200000 0 = 0xC0400000 ∧
    res (.frnd c0 3 (.s 1) .rtz .fp32) 0xBF000000 0 = 0x80000000 := by decide +kernel
theorem test_fcvt : res (.fcvt c0 3 (.s 1) .i32 .fp32) 0xC039999A 0 = 0xFFFFFFFFFFFFFFFE ∧
    res (.fcvt c0 3 (.s 1) .n32 .fp32) 0xC039999A 0 = 0 ∧ res (.fcvt c0 3 (.s 1) .i32 .fp32) 0x4F32D05E 0 = 2147483647 ∧
    res (.fcvt c0 3 (.s 1) .bf16 .fp32) 0x3F808000 0 = 0x3F80 ∧ res (.fcvt c0 3 (.s 1) .bf16 .fp32) 0x3F818000 0 = 0x3F82 := by
  decide +kernel
/-- R71, R92: an integer source may be an immediate. -/
theorem test_fcvt_immediate : res (.fcvt c0 3 (.imm 69) .fp32 .i32) 0 0 = 0x40A00000 := by decide +kernel
theorem test_fmax_zeros : res (.fmax c0 3 (.s 1) (.s 2) .fp32) 0x80000000 0 = 0 ∧
    res (.fmin c0 3 (.s 1) (.s 2) .fp32) 0 0x80000000 = 0x80000000 := by decide +kernel
theorem test_guard_false : (after (.mov { c0 with g1 := ⟨false, 3⟩ } 3 (.imm 65)) busy).rs 3 = 0 ∧
    (after (.mov { c0 with g1 := ⟨false, 3⟩ } 3 (.imm 65)) busy).pc = 16 := by decide +kernel
/-- R195's example. -/
theorem test_rng : (after (.rng c0 5 (.s 2) (.imm 64)) (regs 0 0x5EED0000C0DE)).rs 5 = 0xBBD6224BBDA60E69 := by decide +kernel
/-- 08 R205's example: the draw of counter 1. -/
theorem test_rng_counter : (after (.rng c0 5 (.s 2) (.imm 65)) (regs 0 0x5EED0000C0DE)).rs 5 = 0xBBD7A8F8BDA62092 := by decide +kernel

/-! ## Memory words (04) -/

/-- A core whose share holds a doubleword of ones at offset 8, its address in s1. -/
def mem1 : State :=
  { cores := [(0, { busy with s := [(1, 0x00FF000000000008), (2, 5)] })]
    tiles := [(0, { lm := (rangeFrom 8 8).map fun a => (a, 0xFF) })] }

theorem test_load_signs : ((next (.ld c0 3 1 .i32 0) mem1).core 0).rs 3 = -1 ∧ ((next (.ld c0 3 1 .n32 0) mem1).core 0).rs 3 = 0xFFFFFFFF := by
  decide +kernel
theorem test_store_buffers : ((next (.st c0 1 (.s 2) .i8 0) mem1).core 0).stores.length = 1 ∧
    ((next (.ld c0 3 1 .n8 0) (next (.st c0 1 (.s 2) .i8 0) mem1)).core 0).rs 3 = 5 := by decide +kernel
theorem test_store_drains :
    ((next (.storeDrain 0 0) (next (.st c0 1 (.s 2) .i8 0) mem1)).tile 0).lm.get 8 = 5 := by decide +kernel
theorem test_load_misaligned : ((next (.ld c0 3 1 .i64 1) mem1).core 0).rs 3 = 0 := by decide +kernel
theorem test_store_top_of_share : ((next (.st c0 1 (.imm 65) .i8 0) { mem1 with cores := [(0,
    { busy with s := [(1, 0x00FF00000007FFFF)] })] }).core 0).stores.length = 1 := by decide +kernel
theorem test_fence_waits_for_next : ((next (.fence c0 2 1 .package) mem1).core 0).fences.length = 1 := by decide +kernel
theorem test_fence_empty_side : ((next (.fence c0 0 1 .package) mem1).core 0).fences = [] := by decide +kernel

/-! ## Vector words (05) -/

/-- v1 and v2 hold `a` and `b`; the low bytes of v3 behind an instruction. -/
def vres (i : Instr) (a b : Vec) (n : Nat) : Nat :=
  (after i { busy with v := [(1, a), (2, b)], s := [(9, 128)] }).rv 3 % 2 ^ (8 * n)

theorem test_vadd_lanes : vres (.vadd c0 3 1 (.v 2) none .i8) 0x01FF 0x0101 2 = 0x0200 := by decide +kernel
theorem test_vadds_saturates : vres (.vadds c0 3 1 (.v 2) none .i8) 0x7F80 0x0180 2 = 0x7F80 := by decide +kernel
theorem test_vmulh : vres (.vmulh c0 3 1 (.v 2) none .i16) 0x4000 0x4000 2 = 0x1000 := by decide +kernel
theorem test_vector_merge : ((after (.vadd c0 3 1 (.v 2) (some 1) .i8)
    { busy with v := [(1, 0x0101), (2, 0x0101), (3, 0x7777)], k := [(1, 1)] }).rv 3) = 0x7702 := by decide +kernel
/-- R143's example: 300.7 and -2.9. -/
theorem test_vcvt : vres (.vcvt c0 3 1 none 0 .i8 .fp32) 0xC039999A4396599A 0 2 = 0xFE7F := by decide +kernel
/-- R143: a conversion to the other signedness saturates, -1 to 0. -/
theorem test_vcvt_signedness : vres (.vcvt c0 3 1 none 0 .n16 .i8) 0x7FFF 0 4 = 0x007F0000 := by decide +kernel
/-- R147's example: lanes 0 to 4, and the illegal code's five zeros. -/
theorem test_vupk5 : vres (.vupk5 c0 3 1 (.imm 64) .t5) 0xF39A 0 10 = 0x01FFFF0001 := by decide +kernel
/-- R148's example: the groups (5, -7, 7, 0) and (3, 0, -3, 3). -/
theorem test_vcomp : vres (.vcomp c0 3 4 1 0 .p24 .i8) 0x03FD000300_07F905 0 4 = 0xFD0307F9 ∧
    ((after (.vcomp c0 3 4 1 0 .p24 .i8) { busy with v := [(1, 0x03FD00030007F905)] }).rv 4) % 256 = 0x89 := by
  decide +kernel
/-- R358's example: the sum in tree order. -/
theorem test_vrsum : (after (.vrsum c0 3 1 none .fp32) { busy with v := [(1, 0xCB8000003F8000004B8000003F800000)] }).rs 3 =
    0x3F800000 := by decide +kernel
/-- R357's example: VRCP.FP32 of 3.0. -/
theorem test_vrcp : vres (.vrcp c0 3 1 none .fp32) 0x40400000 0 4 = 0x3EAAAAAA := by decide +kernel
theorem test_vmode_clears : (after (.vmode c0 .n4) { busy with v := [(1, 5)], l := [(1, 7)] }).share = 4 := by decide +kernel
theorem test_kpop : (after (.kpop c0 3 1) { busy with k := [(1, 0x0F)] }).rs 3 = 4 := by decide +kernel


/-! ## Formats, tables and address functions -/

/-- R15: the example's byte. -/
theorem test_t5 : t5Encode [1, 0, -1, -1, 1] = 0x9A ∧ (t5Decode 0x9A).1 = [1, 0, -1, -1, 1] := by decide +kernel
/-- R26's example product. -/
theorem test_log_product : lgProd 0x16 0x39 = -112863232 := by decide +kernel
/-- R32's and R33's examples: 60.125, then 57.3125. -/
theorem test_acx : (acxRound (.fin false 481 (-3))).1 = 0x409C20000000 ∧
    acxAdd 0x409C20000000 (.fin true 45 (-4)) = (acxRound (.fin false 917 (-4)) : BitVec 48 × Bool) := by decide +kernel
/-- R177's example group: trits, scale byte, nothing illegal. -/
theorem test_threshold : ternGroup 0x74 [.fin false 1 (-1), .fin true 1 (-3), .fin false 0 0, .fin true 3 (-2), .fin false 3 (-3)] =
    ([1, 0, 0, -1, 1], 0x71, false) := by decide +kernel
theorem test_macz_issues : (next (.macz c0 3 1) (one busy)).ops.length = 1 ∧
    (after (.macz c0 3 1) busy).rs 3 = 1 := by decide +kernel
theorem test_taskput_idempotent : (after (.taskput c0 1 (.imm 65) 1 (.imm 64)) (task true)).p = 0 := by decide +kernel
theorem test_taskput : ((next (.taskput c0 1 (.imm 65) 1 (.imm 64)) (one busy)).die 0).pq.length = 1 := by decide +kernel
theorem test_eccfg : (after (.eccfg c0 2 (.s 1)) (regs 0x10001 0)).ecsel.get 2 0 = 0x10001 := by decide +kernel

/-- R402: a duplicate counts, the next record is taken, one beyond it waits. -/
theorem test_records : (next (.setLimit 0 500) State.reset).bar0.dups = 1 ∧ (next (.setLimit 1 500) State.reset).limit = 500 ∧
    (next (.setLimit 2 500) State.reset).gap.isSome = true := by decide +kernel
theorem test_limit_refused : (next (.setLimit 1 99) State.reset).limit = State.reset.limit := by decide +kernel
theorem test_power_cap : ((next (.powerSample 1400001) State.reset).cluster 63).reqCap = 32 := by decide +kernel
theorem test_droop_counts : let s : State := { tiles := [(3, { droopEn := true, thr := 40 })] }
    ((next (.droopAlarm 3 47) s).tile 3).alarms = 1 ∧ ((next (.droopAlarm 3 47) s).tile 3).maxd = 47 ∧
    ((next (.droopAlarm 3 40) s).tile 3).alarms = 0 := by decide +kernel
theorem test_ageing : ((next (.ageingMeasure 5 true) State.reset).tile 5).guardband = 1 := by decide +kernel
theorem test_link_trains : let s : State := { ring := { links := [(1, { training := true })] } }
    ((next (.linkTrained 1 16) s).link 1).up = true ∧ ((next (.linkTrained 1 7) s).link 1).up = false := by decide +kernel
theorem test_reset_keeps_host : let s : State := { host := [(4096, 7)], mem := [(64, 1)] }
    (next (.deviceReset true true) s).host = [(4096, 7)] ∧ (next (.deviceReset true true) s).mem = [] := by decide +kernel


/-! ## States and operands that meet the statements' hypotheses -/

/-- Whether a lone core is ready for an instruction whose guards hold. -/
def meets? (s : State) (i : Instr) : Bool :=
  match i.fields with
  | none => false
  | some f =>
    let q := s.core s.cur
    q.issuing && !q.awaits f && q.due.isEmpty && (checkMode q.share f).isNone && !(takesLong f.op.toNat && q.long) && !q.convoy &&
      f.ctl.guards q

/-- A lone core is ready for each of the instructions, its guards holding. -/
def Meets (s : State) (l : List Instr) : Prop := ∀ i ∈ l, ∃ f, i.fields = some f ∧ s.Alone f

theorem convoyOf_lone {s : State} {c : CoreId} (h : (s.core c).convoy = false) : s.convoyOf c = [c] := by
  simp [State.convoyOf, h]

theorem meets_all {s : State} {l : List Instr} (h : l.all (meets? s) = true) : Meets s l := by
  intro i hi
  have h := List.all_eq_true.mp h i hi
  unfold meets? at h
  cases e : i.fields with
  | none => simp [e] at h
  | some f =>
    simp only [e, Bool.and_eq_true, Bool.not_eq_true', Option.isNone_iff_eq_none, List.isEmpty_iff] at h
    obtain ⟨⟨⟨⟨⟨⟨h1, h2⟩, h3⟩, h4⟩, h5⟩, h6⟩, h7⟩ := h
    refine ⟨f, rfl, ⟨⟨fun m hm => ?_, fun m hm ht => ?_⟩, h6, h7⟩⟩ <;>
      (rw [convoyOf_lone h6, List.mem_singleton] at hm; subst hm)
    · exact ⟨h1, h2, h3, h4⟩
    · simp [ht] at h5; exact .inl h5

/-- Whether a convoy is ready for an instruction that its leader resolves. -/
def leads? (s : State) (i : Instr) : Bool :=
  match i.fields with
  | none => false
  | some f =>
    ((s.convoyOf s.cur).all fun m => let q := s.core m
      q.issuing && !q.awaits f && q.due.isEmpty && (checkMode q.share f).isNone && !(takesLong f.op.toNat && q.long)) &&
      f.ctl.guards (s.core s.leader)

def Leads (s : State) (l : List Instr) : Prop := ∀ i ∈ l, ∃ f, i.fields = some f ∧ s.Led f

theorem leads_all {s : State} {l : List Instr} (h : l.all (leads? s) = true) : Leads s l := by
  intro i hi
  have h := List.all_eq_true.mp h i hi
  unfold leads? at h
  cases e : i.fields with
  | none => simp [e] at h
  | some f =>
    simp only [e, Bool.and_eq_true, List.all_eq_true, Bool.not_eq_true', Option.isNone_iff_eq_none, List.isEmpty_iff] at h
    obtain ⟨h, hg⟩ := h
    refine ⟨f, rfl, ⟨⟨fun m hm => ?_, fun m hm ht => ?_⟩, hg⟩⟩
    · obtain ⟨⟨⟨⟨h1, h2⟩, h3⟩, h4⟩, -⟩ := h m hm; exact ⟨h1, h2, h3, h4⟩
    · obtain ⟨-, h5⟩ := h m hm; simp [ht] at h5; exact .inl h5

/-- On a lone core the hypothesis of a statement in turns is what it says of that core. -/
theorem turns_lone {s t : State} {f : Fields} {act : CoreId → State → State → Prop} (h : s.Alone f) (a : act s.cur s t) :
    State.Turns f act (s.convoyOf s.cur) s t := by
  have r := h.ready.each s.cur (by simp [convoyOf_lone h.lone])
  rw [convoyOf_lone h.lone]
  exact ⟨r.settled, r.legal, t, by simpa [h.guards] using a, rfl⟩

/-- Whether the members of a convoy can take a word one after the other, each where `good` holds, with the effect `g`. -/
def turns? (f : Fields) (good : CoreId → State → Bool) (g : CoreId → State → State) : List CoreId → State → Bool
  | [], _ => true
  | m :: ms, s => !(s.core m).awaits f && (checkMode (s.core m).share f).isNone && f.ctl.guards (s.core m) && good m s &&
      turns? f good g ms (g m s)

theorem turns_of {f : Fields} {act : CoreId → State → State → Prop} {good : CoreId → State → Bool} {g : CoreId → State → State}
    (ok : ∀ m s, good m s = true → act m s (g m s)) :
    ∀ (ms : List CoreId) (s : State), turns? f good g ms s = true → ∃ t, State.Turns f act ms s t
  | [], s, _ => ⟨s, rfl⟩
  | m :: ms, s, h => by
    simp only [turns?, Bool.and_eq_true, Bool.not_eq_true', Option.isNone_iff_eq_none] at h
    obtain ⟨⟨⟨⟨h1, h2⟩, h3⟩, h4⟩, h5⟩ := h
    obtain ⟨t, ht⟩ := turns_of ok ms _ h5
    exact ⟨t, h1, h2, g m s, by simpa [h3] using ok m s h4, ht⟩

/-- Every member of a ready convoy can take an instruction in its turn. -/
def TakenInTurns (s : State) (i : Instr) (act : CoreId → State → State → Prop) : Prop :=
  ∃ f t, i.fields = some f ∧ s.Ready f ∧ State.Turns f act (s.convoyOf s.cur) s t

theorem taken_in_turns {s : State} {i : Instr} {act : CoreId → State → State → Prop} (good : CoreId → State → Bool)
    (g : CoreId → State → State) (hl : leads? s i = true) (ok : ∀ m s, good m s = true → act m s (g m s))
    (h : (i.fields.any fun f => turns? f good g (s.convoyOf s.cur) s) = true) : TakenInTurns s i act := by
  obtain ⟨f, hf, r⟩ := leads_all (l := [i]) (by simpa using hl) i (by simp)
  obtain ⟨t, ht⟩ := turns_of ok _ _ (by simpa [hf] using h)
  exact ⟨f, t, hf, r.ready, ht⟩

theorem some_of {α β : Type} {x : Option (α × β)} {P : α → β → Bool} (h : (x.any fun p => P p.1 p.2) = true) :
    ∃ v r, x = some (v, r) ∧ P v r = true := by
  cases x with
  | none => simp at h
  | some p => exact ⟨p.1, p.2, rfl, by simpa using h⟩

/-- A page at VA 0 with headers of KIND 0 to 4 at 0x100 to 0x120, and the given cores of context 0. -/
def paged (cores : SMap Core) : State :=
  let s := State.reset.placeWord 0
  let heads := (List.range 5).foldl (fun m k =>
    m.write (24576 + 256 + 8 * k) (leBytes 8 (0xFF01000000000000 + 256 * k))) s.mem
  { s with mem := heads, agenda := [], cores := cores
           ctxs := [(0, { (s.ctxs.get 0 ⟨0, 0, 0, 0, 4, 0, 0, 0, 0, [], 0, false, false, false⟩) with vec := 0x110 })] }

/-- s5 holds the address of a header, s6 the number 2. -/
def code : State := paged [(0, { busy with s := [(5, 0x100), (6, 2)] })]
/-- The same, of a convoy of eight. -/
def codes : State := paged ((List.range 8).map fun c => (c, { busy with s := [(5, 0x100), (6, 2)], convoy := true }))

theorem code_head (t : Word) (k : Nat) (h : t = BitVec.ofNat 64 (0x100 + 8 * k)) (hk : k < 5) :
    ∃ w, code.fetch 0 false t = .word w ∧ isHeader w = true ∧ (headerOf w).kind = k := by
  subst h
  have : k = 0 ∨ k = 1 ∨ k = 2 ∨ k = 3 ∨ k = 4 := by omega
  rcases this with rfl | rfl | rfl | rfl | rfl
  · exact ⟨0xFF01000000000000, by decide +kernel⟩
  · exact ⟨0xFF01000000000100, by decide +kernel⟩
  · exact ⟨0xFF01000000000200, by decide +kernel⟩
  · exact ⟨0xFF01000000000300, by decide +kernel⟩
  · exact ⟨0xFF01000000000400, by decide +kernel⟩

theorem witness_IntegerAndLogicResults : Leads codes [.add c0 3 (.s 1) (.s 2), .mulh c0 3 (.s 1) (.imm 65), .abs c0 3 (.s 1)] ∧
    Meets (one busy) [.add c0 3 (.s 1) (.s 2), .sub c0 3 (.s 1) (.s 2), .mul c0 3 (.s 1) (.s 2), .mulh c0 3 (.s 1) (.s 2),
      .mulhn c0 3 (.s 1) (.s 2), .neg c0 3 (.s 1), .abs c0 3 (.s 1), .min c0 3 (.s 1) (.s 2), .max c0 3 (.s 1) (.s 2),
      .minn c0 3 (.s 1) (.s 2), .maxn c0 3 (.s 1) (.s 2), .and c0 3 (.s 1) (.s 2), .or c0 3 (.s 1) (.s 2),
      .xor c0 3 (.s 1) (.s 2), .andn c0 3 (.s 1) (.s 2), .orn c0 3 (.s 1) (.s 2), .shl c0 3 (.s 1) (.s 2),
      .shr c0 3 (.s 1) (.s 2), .sar c0 3 (.s 1) (.s 2), .rol c0 3 (.s 1) (.s 2), .ror c0 3 (.s 1) (.s 2), .mov c0 0 (.p 1),
      .sext c0 3 (.s 1) .w8, .sext c0 3 (.s 1) .w16, .sext c0 3 (.s 1) .w32, .zext c0 3 (.s 1) .w8, .zext c0 3 (.s 1) .w16,
      .zext c0 3 (.s 1) .w32] := ⟨leads_all (by decide +kernel), meets_all (by decide +kernel)⟩

theorem witness_DivisionResultsAndEdges : Meets (one (regs 5 0))
    [.div c0 3 (.s 1) (.s 2), .divn c0 3 (.s 1) (.s 2), .rem c0 3 (.s 1) (.s 2), .remn c0 0 (.s 1) (.s 2)] :=
  meets_all (by decide +kernel)

theorem witness_CountingWordsCount : Meets (one busy) [.clz c0 3 (.s 1), .ctz c0 3 (.s 1), .popc c0 3 (.s 1), .brev c0 3 (.s 1)] :=
  meets_all (by decide +kernel)

theorem witness_BitFieldAndMoveResults : Meets (one busy) [.bext c0 3 (.s 1) (.imm 64) (.imm 64), .bins c0 3 (.s 1) (.s 2) (.s 2),
    .sel c0 3 1 (.s 1) (.s 2), .limm c0 3 .lo 0xFFFFFF, .limm c0 3 .mid 0, .limm c0 3 .top 0xFFFF, .addr c0 3 (.s 1) (.s 2) 7] :=
  meets_all (by decide +kernel)

theorem witness_ComparisonsWritePredicates : Meets (one busy) [.cmp c0 1 .len (.s 1) (.s 2), .fcmp c0 1 .un (.s 1) (.s 2) .bf16,
    .pand c0 1 (.p 2) (.imm 65), .por c0 0 (.p 2) (.p 3), .pxor c0 1 (.p 2) (.p 3), .pnot c0 1 (.p 2), .pset c0 (.s 1) (.imm 65),
    .pget c0 3] := meets_all (by decide +kernel)

theorem witness_ScalarFloatResults : Meets (one busy) [.fadd c0 3 (.s 1) (.s 2) .fp32, .fsub c0 3 (.s 1) (.s 2) .bf16,
    .fmul c0 3 (.s 1) (.s 2) .fp32, .ffma c0 3 (.s 1) (.s 2) (.s 3) .fp32, .fmin c0 3 (.s 1) (.s 2) .fp32,
    .fmax c0 3 (.s 1) (.s 2) .bf16, .fabs c0 3 (.s 1) .fp32, .fabs c0 3 (.s 1) .bf16, .fneg c0 3 (.s 1) .fp32,
    .fneg c0 3 (.s 1) .bf16, .frnd c0 3 (.s 1) .rup .fp32, .fcvt c0 3 (.s 1) .n64 .fp32] := meets_all (by decide +kernel)

theorem witness_FloatMinimumAndMaximum : Meets (one (regs 0x7FC00000 0)) [.fmin c0 3 (.s 1) (.s 2) .fp32,
    .fmax c0 3 (.s 1) (.s 2) .fp32, .fmin c0 3 (.s 1) (.s 2) .bf16, .fmax c0 3 (.s 1) (.s 2) .bf16] := meets_all (by decide +kernel)

theorem witness_TransfersEnterTheirTarget :
    Leads code [.br c0 31, .brc c0 (.s 0) .eqz 31, .brx c0 5, .call c0 7 31, .callx c0 7 5, .ret c0 5, .loop c0 6 32] ∧
    Leads codes [.br c0 31, .loop c0 6 32] ∧ CondZ.holds .eqz 0 = true ∧ (code.core 0).rs 6 = 2 ∧
    code.Enters ((code.core 0).pc + 8 * (31 : BitVec 24).signExtend 64) kindNormal ∧
    code.Enters ((code.core 0).rs 5) kindNormal ∧
    code.Enters ((code.core 0).pc + 8 * (32 : BitVec 24).signExtend 64) kindLoop := by
  refine ⟨leads_all (by decide +kernel), leads_all (by decide +kernel), by decide, by decide +kernel, ?_, ?_, ?_⟩
  · exact ⟨by decide +kernel, by decide +kernel, 0xFF01000000000000, by decide +kernel⟩
  · exact ⟨by decide +kernel, by decide +kernel, 0xFF01000000000000, by decide +kernel⟩
  · exact ⟨by decide +kernel, by decide +kernel, 0xFF01000000000100, by decide +kernel⟩

theorem witness_WordsThatGoOn : Leads codes [.brc c0 (.s 5) .eqz 31, .loop c0 1 32, .sleep c0 3 (.imm 64), .yield c0, .halt c0, .nop c0] ∧
    CondZ.holds .eqz ((codes.core 0).rs 5) = false ∧ (codes.core 0).rs 1 = 0 ∧ Leads (one (regs 1 0)) [.loop c0 1 32] ∧
    (regs 1 0).rs 1 = 1 ∧ codes.yieldsTo 0 = false ∧ (codes.core 0).work.isSome = true :=
  ⟨leads_all (by decide +kernel), by decide +kernel, by decide +kernel, leads_all (by decide +kernel), by decide +kernel,
    by decide +kernel, by decide +kernel⟩

theorem witness_BadTargetsTrapBeforeAnyEffect :
    Leads code [.br c0 33, .brx c0 6, .call c0 7 33, .callx c0 7 6, .ret c0 6, .loop c0 6 31] ∧
    ((code.core 0).rs 6).toNat % 8 ≠ 0 ∧
    (∃ w, code.fetch 0 false (8 + 8 * (33 : BitVec 24).signExtend 64) = .word w ∧ isHeader w = true ∧ (headerOf w).kind = 2) ∧
    ∃ w, code.fetch 0 false (8 + 8 * (31 : BitVec 24).signExtend 64) = .word w ∧ isHeader w = true ∧ (headerOf w).kind = 0 :=
  ⟨leads_all (by decide +kernel), by decide +kernel, code_head _ 2 (by decide) (by decide), code_head _ 0 (by decide) (by decide)⟩

theorem witness_TrapsAreTakenByEveryMember : ([0, 1] : List CoreId).Nodup ∧ (code.core 0).inHandler = false ∧
    code.vector (code.core 0) = 0x110 ∧ ∃ w, code.fetch 0 true 0x110 = .word w ∧ isHeader w = true ∧ (headerOf w).kind = 2 :=
  ⟨by decide, by decide +kernel, by decide +kernel, 0xFF01000000000200, by decide +kernel⟩

theorem witness_TrapWordsAndSupervisorWords : Meets code [.trap c0 7, .eret c0 .retry, .tlbi c0 .page 1 .cluster,
      .crw c0 (.s 1) .fduty, .crset c0 3 (.s 1) .fduty, .crclr c0 3 (.s 1) .fduty] ∧
    CReg.supervisor .fduty = true ∧ (code.core 0).priv = false ∧ (code.core 0).Quiet ∧ (code.core 0).inHandler = false :=
  ⟨meets_all (by decide +kernel), by decide +kernel, by decide +kernel, ⟨by decide +kernel, by decide +kernel, by decide +kernel,
    by decide +kernel, by decide +kernel⟩, by decide +kernel⟩

/-- A supervisor handler that has been entered from the word at 0x108, in the block at 0x100. -/
def handling (status : Word) : State :=
  paged [(0, { busy with priv := true, inHandler := true, trap := { pc := 0x108, blk := 0x100, status := status } })]
/-- A user-level handler, entered from 0x108 in the block at 0x100, or from before the header at 0x100. -/
def interrupted (pc : Word) : State := paged [(0, { busy with uih := true, ui := { pc := pc, blk := 0x100 } })]

/-- A convoy of eight that handles a trap taken from 0x108 with PCONV set. -/
def handlings : State := paged ((List.range 8).map fun c =>
  (c, { busy with convoy := true, priv := true, inHandler := true, trap := { pc := 0x108, blk := 0x100, status := 2 }
                  utlb := (((paged []).walk 0 0).toOption.map fun x => ⟨0, x.base, x.size, BitVec.ofNat 64 x.leaf, x.pte⟩).toList }))

theorem witness_HandlersReturn : (Leads handlings [.eret c0 .retry, .eret c0 .next] ∧ (handlings.core 0).convoy = true ∧
    (∀ m ∈ handlings.convoyOf 0, let q := handlings.core m
      q.priv = true ∧ q.deferredTrap = false ∧ q.trap.blk = 0x100 ∧ q.trap.pc = 0x108 ∧ q.trap.status.getLsbD 1 = true ∧
        q.trap.status.getLsbD 2 = false) ∧
    (let back := fun (x : State) (m : CoreId) => (x.fetchUse m 0x100).modCore m fun y =>
       { y with priv := false, inHandler := false, blk := 0x100, hdr := 0xFF01000000000000, pc := 0x108, pos := .word }
     ∀ k < 8, (((List.range 8).take k).foldl back handlings).fetch k true 0x100 = .word 0xFF01000000000000)) ∧ Meets (handling 0) [.eret c0 .retry, .eret c0 .next] ∧ Meets (handling 4) [.eret c0 .retry] ∧
    (handling 0).fetch 0 true 0x100 = .word 0xFF01000000000000 ∧ isHeader 0xFF01000000000000 = true ∧
    (headerOf 0xFF01000000000000).len = 1 ∧ Meets (interrupted 0x108) [.uiret c0] ∧ Meets (interrupted 0x100) [.uiret c0] ∧
    (interrupted 0x108).fetch 0 false 0x100 = .word 0xFF01000000000000 ∧ Meets code [.uiret c0] ∧ (code.core 0).uih = false :=
  ⟨⟨leads_all (by decide +kernel), by decide +kernel, by decide +kernel, by decide +kernel⟩,
    meets_all (by decide +kernel), meets_all (by decide +kernel), by decide +kernel, by decide, by decide, meets_all (by decide +kernel),
    meets_all (by decide +kernel), by decide +kernel, meets_all (by decide +kernel), by decide +kernel⟩

/-- A convoy of eight whose leader has an enabled cause pending. -/
def callings (v : Word) : State :=
  paged ((List.range 8).map fun c => (c, { busy with convoy := true, ui := { vec := v, en := 1, cause := 1 } }))

theorem witness_UserInterruptsEnterTheirHandler :
    (let s := callings 0x120
     s.convoyOf 3 = List.range 8 ∧ (∀ m ∈ s.convoyOf 3, (s.core m).issuing = true ∧ (s.core m).req = none) ∧ (s.core 0).uiReady = true ∧
      s.fetch 0 false 0x120 = .word 0xFF01000000000400) ∧
    (let s := callings 0x118
     (s.core 0).uiReady = true ∧ s.fetch 0 false 0x118 = .word 0xFF01000000000300 ∧ (headerOf 0xFF01000000000300).kind ≠ 4 ∧
      s.vector (s.core 0) = 0x110 ∧ s.fetch 0 true 0x110 = .word 0xFF01000000000200 ∧ (headerOf 0xFF01000000000200).kind = 2) ∧
    let s := paged [(0, { busy with ui := { vec := 0x120, en := 1, cause := 1 } })]
    (s.core 0).issuing = true ∧ (s.core 0).convoy = false ∧ (s.core 0).req = none ∧ (s.core 0).uiReady = true ∧
    s.fetch 0 false 0x120 = .word 0xFF01000000000400 ∧ (headerOf 0xFF01000000000400).kind = 4 ∧ (code.core 0).ui.vec = 0 := by
  decide +kernel

theorem witness_ControlRegistersRead : Meets code [.crr c0 3 .coreId, .crr c0 3 (.member 127), .crr c0 3 .lastDevSeq,
    .crr c0 3 .trapStatus, .crr c0 3 (.tl .rg)] := meets_all (by decide +kernel)

theorem witness_ControlRegisterWrites : Meets (handling 0) [.crw c0 (.s 1) .spillOvf, .crset c0 3 (.s 1) .fduty,
      .crclr c0 3 (.s 1) .tbCfg, .crw c0 (.s 1) (.rgPath 3)] ∧ Meets (one busy) [.crw c0 (.imm 64) (.member 5)] ∧
    ((handling 0).core 0).priv = true :=
  ⟨meets_all (by decide +kernel), meets_all (by decide +kernel), by decide +kernel⟩

theorem witness_TimeCountersAndRandomNumbers : Meets (one (regs 0x1FFFF 0x20000)) [.tstamp c0 3, .cyc c0 3, .ecrd c0 3 7,
    .rng c0 5 (.s 1) (.imm 64), .eccfg c0 2 (.s 1), .eccfg c0 2 (.s 2)] := meets_all (by decide +kernel)

/-- A die queue with three entries, two of context 0. -/
def queue3 : List PqEntry := [⟨0, 5, 0x118, 11, 0, 0⟩, ⟨1, 2, 0x118, 12, 0, 1⟩, ⟨0, 5, 0x118, 13, 0, 2⟩]
theorem witness_TheTaskQueue : Meets (one (task true)) [.taskput c0 1 (.imm 65) 2 (.imm 64), .taskget c0 1 2 3 .poll] ∧
    Meets (one (regs 1 0x118)) [.taskput c0 1 (.imm 65) 1 (.imm 64), .taskput c0 1 (.imm 65) 2 (.imm 64), .taskget c0 1 2 3 .poll,
      .taskget c0 1 2 3 .wait] ∧ pqPop [] 0 = none ∧ (task true).idem = true ∧ busy.idem = false ∧
    (let s : State := { code with dies := [(0, { pq := queue3, pushes := 3 })] }
     (pqPop (s.die 0).pq (s.core 0).ctxNum).map (·.1.arg) = some 11 ∧ s.fetch 0 false 0x118 = .word 0xFF01000000000300) ∧
    (queue3.map (·.push)).Nodup ∧ (queue3.filter (·.ctx == 0)).length < 32 ∧ ∀ x ∈ queue3, x.skip = 0 :=
  ⟨meets_all (by decide +kernel), meets_all (by decide +kernel), by decide +kernel, by decide +kernel, by decide +kernel,
    by decide +kernel, by decide +kernel, by decide +kernel, by decide +kernel⟩

/-- A graph of one core node in a given state, running on core 0. -/
def graph (st : NodeSt) (q : Core) : State :=
  { one q with launches := [{ ctx := 0, id := 0, grants := allGrants, near := 0, scratch := 0, started := true
                              nodes := [{ entry := 0x118, gang := false, idem := false, arg := 0, outs := [], wouts := [],
                                          after := [], prio := 0, st := st, core := some 0 }] }] }
theorem witness_WorkEnds : Meets (graph .running (task false)) [.taskend c0, .taskab c0 (.imm 65)] ∧
    ((task false).work.map fun w => (w.node, w.gang)) = some (some 0, false) ∧ (task false).quiet = true ∧
    ({ (task false) with tls := [(0, { issued := 1 })] } : Core).quiet = false ∧
    ((graph .ending { (task false) with ended := some .taskEnd }).node? 0 0 0).any (·.st == .ending) = true ∧
    ((graph .ending { (task false) with ended := some .taskEnd }).finishMembers [0]).isSome = true ∧ (task false).req = none :=
  ⟨meets_all (by decide +kernel), by decide +kernel, by decide +kernel, by decide +kernel, by decide +kernel, by decide +kernel, by decide +kernel⟩

/-- A convoy of eight whose barrier 3 stands as given, and as its CONVOY on leaves it when the phase completes. -/
def codesAt (x : Bar) : State :=
  paged ((List.range 8).map fun c => (c, { busy with convoy := true, bars := [(3, x)] }))
def arrived8 : Bar := { mem := 0xA000, st := .done, mark := some 8, arr := some .convoy }

theorem witness_ConvoysAndTranslationInvalidation : Leads codes [.convoy c0 .off, .convoy c0 (.on 3)] ∧
    (codes.core codes.leader).convoy = true ∧ Leads code [.convoy c0 .off] ∧ ((codes.core 0).bar 3).st = .idle ∧
    Leads (codesAt { mem := 0xA000 }) [.convoy c0 (.on 3)] ∧ memOn (((codesAt { mem := 0xA000 }).core 0).bar 3).mem = true ∧
    Leads (codesAt arrived8) [.convoy c0 (.on 3)] ∧ ((codesAt arrived8).core (codesAt arrived8).leader).bar 3 = arrived8 ∧
    arrived8.mark = some ((codesAt arrived8).core (codesAt arrived8).leader).pc ∧
    Meets (handling 0) [.tlbi c0 .page 1 .package, .tlbi c0 .context 1 .cluster, .tlbi c0 .stable 1 .die] ∧
    ((handling 0).fenceSteps 0 { pred := 0x02, succ := 0x03, scope := tlbiFence .package, upto := 0 }).isSome = true :=
  ⟨leads_all (by decide +kernel), by decide +kernel, leads_all (by decide +kernel), by decide +kernel, leads_all (by decide +kernel),
    by decide +kernel, leads_all (by decide +kernel), by decide +kernel, by decide +kernel, meets_all (by decide +kernel),
    by decide +kernel⟩

/-- Addresses of the scratchpad in s1 to s3, the last with its top byte at the top of the share. -/
def local3 : State := one { busy with s := [(1, 0x00FF000000000020), (2, 0x00FF00000007FFFF), (3, 8), (4, 0x00FF000000000021)] }

theorem witness_LoadsFromTheScratchpad : Meets local3 [.ld c0 5 1 .i64 0, .ld c0 5 2 .n8 0, .ldp c0 5 6 1 0, .ldv c0 5 1 none 0,
      .ldvs c0 5 1 (.s 3) .b4 none] ∧
    local3.Local 0 (bytesFrom 0x00FF000000000020 8) (fun i => 32 + i) ∧ local3.Local 0 (bytesFrom 0x00FF00000007FFFF 1) (fun _ => 524287) ∧
    local3.Local 0 (bytesFrom 0x00FF000000000020 32) (fun i => 32 + i) ∧
    local3.Local 0 ((List.range 8).flatMap fun e => (bytesFrom (0x00FF000000000020 + BitVec.ofNat 64 e * 8) 4).map fun x => (4 * e + x.1, x.2))
      (fun i => 32 + 8 * (i / 4) + i % 4) :=
  ⟨meets_all (by decide +kernel),
    ⟨by decide +kernel, by decide +kernel, by decide +kernel, by decide +kernel, by decide +kernel⟩,
    ⟨by decide +kernel, by decide +kernel, by decide +kernel, by decide +kernel, by decide +kernel⟩,
    ⟨by decide +kernel, by decide +kernel, by decide +kernel, by decide +kernel, by decide +kernel⟩,
    ⟨by decide +kernel, by decide +kernel, by decide +kernel, by decide +kernel, by decide +kernel⟩⟩

theorem witness_StoresToTheScratchpad : Meets local3 [.st c0 1 (.s 3) .i64 0, .st c0 2 (.s 3) .i8 0, .stp c0 1 (.s 3) (.s 4) 0,
      .stv c0 1 2 none 0, .stvs c0 1 2 (.imm 64) .b8 none] ∧
    local3.Local 0 (bytesFrom 0x00FF000000000020 16) (fun i => 32 + i) ∧
    local3.Local 0 ((List.range 4).flatMap fun e => (bytesFrom 0x00FF000000000020 8).map fun x => (8 * e + x.1, x.2))
      (fun i => 32 + i % 8) :=
  ⟨meets_all (by decide +kernel), ⟨by decide +kernel, by decide +kernel, by decide +kernel, by decide +kernel, by decide +kernel⟩,
    ⟨by decide +kernel, by decide +kernel, by decide +kernel, by decide +kernel, by decide +kernel⟩⟩

/-- A core before the page, with a plan that leaves its next global load outstanding, or without one. -/
def global (plan : List Bool) : State := paged [(0, { busy with s := [(5, 0x100), (6, 2), (7, 128)], defer := plan })]

theorem witness_AcceptedAccessesComplete : Meets (global []) [.ld c0 3 5 .i64 0, .ldp c0 3 4 5 0, .ldv c0 3 5 none 0,
      .ldvs c0 3 5 (.s 6) .b2 none, .st c0 5 (.s 6) .i32 4, .stp c0 5 (.s 6) (.s 6) 8, .stv c0 5 3 none 0, .stvs c0 5 3 (.s 6) .b2 none] ∧
    (global []).checkAccess 0 accRead [⟨0x100, 8, 8⟩] = none ∧ (global []).checkAccess 0 accWrite [⟨0x104, 4, 4⟩] = none ∧
    (let u := (global []).resolve 0 false 0 (runBytes 0x100 8)
     (u.2.locs = [] ∧ u.2.lanes ≠ [] ∧ (u.1.core 0).loadsMeet u.2 = false) ∧ ∃ v r, u.1.readWhere 0 0 u.2 = some (v, r) ∧ decide (r.ue = none) = true) ∧
    ((global [true]).core 0).defer.headD false = true :=
  ⟨meets_all (by decide +kernel), by decide +kernel, by decide +kernel, ⟨by decide +kernel, some_of (by decide +kernel)⟩,
    by decide +kernel⟩

theorem witness_PrefetchFlushAndFence : Meets (global []) [.prf c0 5 .l2 0, .prf c0 5 .l1 0, .fll c0 5 .clean 0, .fll c0 5 .cleaninv 0,
      .fence c0 1 2 .package, .fence c0 0 1 .core] ∧ Meets local3 [.prf c0 1 .l1 0, .fll c0 1 .clean 0] ∧
    ((global []).core 0).place 0x100 = some (.glob 0x100 false) ∧ (local3.core 0).place 0x00FF000000000020 = some (.lm 32) ∧
    (((global []).look 0 0 0x100).toOption.any fun x =>
      !(global []).viewBad (x.key 0x100) && ((global []).core 0).mayUse true x.leaf) = true ∧
    ((global []).fenceSteps 0 { pred := 3, succ := 3, scope := .package, upto := 5 }).isSome = true :=
  ⟨meets_all (by decide +kernel), meets_all (by decide +kernel), by decide +kernel, by decide +kernel, by decide +kernel,
    by decide +kernel⟩

theorem witness_AtomicsReturnTheOldValue : Meets (global []) [.aadd c0 3 5 (.s 6) .i64, .amin c0 3 5 (.s 6) .i32, .amax c0 3 5 (.s 6) .n32,
      .aand c0 3 5 (.s 6) .n64, .aor c0 3 5 (.s 6) .i64, .axor c0 3 5 (.s 6) .i64, .axchg c0 3 5 (.s 6) .i64,
      .acas c0 3 5 (.s 6) (.s 7) .i64, .anadd c0 5 (.s 6) .i64] ∧ Meets (one (task true)) [.aadd c0 3 5 (.s 6) .i64] ∧
    (global []).checkAccess 0 accAtomic [⟨0x100, 8, 8⟩] = none ∧
    (let x := (global []).resolve 0 true 3 (runBytes 0x100 8)
     ∃ v r, (x.1.ownBefore 0 x.2.lanes).bind (fun v => x.2.lanes.head?.bind fun l => v.engineRmw l.home l.pa .i64 fun old => old + 2) =
       some (v, r) ∧ (r.1 == 0xFF01000000000000 && !r.2) = true) :=
  ⟨meets_all (by decide +kernel), meets_all (by decide +kernel), by decide +kernel, some_of (by decide +kernel)⟩

/-- A die's engine holds the line at PA 24,832. -/
def held : State := { code with dies := [(0, { held := [194] })] }
theorem witness_HomeAccessesAreExact : (∃ u x, held.engineRmw 3 24832 .i64 (fun old => old + 1) = some (u, x) ∧ (!x.2) = true) ∧
    (held.die 0).held.contains (24832 / 128) = true ∧ onTier 24832 = false ∧ (∀ k, held.l2At k 194 = none) ∧ held.sorterPairs = [] ∧
    ((code.homeWriteNow none 3 [(24832, 1), (24959, 2)]).isSome = true ∧ (24832 : Nat) / 128 = 194 ∧ (24959 : Nat) / 128 = 194) :=
  ⟨some_of (by decide +kernel), by decide +kernel, by decide +kernel, fun _ => rfl, by decide +kernel, by decide +kernel⟩

theorem witness_SequentiallyConsistentOperations : Meets (global []) [.scld c0 3 5 .i64, .scst c0 5 (.s 6) .i32, .scxch c0 3 5 (.s 6) .n64] ∧
    Meets (one (task true)) [.scst c0 5 (.s 6) .i32] ∧ (global []).checkAccess 0 accScRead [⟨0x100, 8, 8⟩] = none ∧
    (global []).checkAccess 0 accScWrite [⟨0x100, 8, 8⟩] = none ∧
    ((global []).fenceSteps 0 { pred := 0xFF, succ := 0xFF, scope := .package, upto := 0 }).isSome = true ∧
    (∀ c, (State.reset.core c).sc = none) ∧
    (let o : ScOp := { kind := .load, d := 3, t := .i64, pa := 24832, home := 3, va := 0x100, v := 0, pc := 8, blk := 0 }
     ((paged [(0, { busy with sc := some o })]).scPerform (List.range 512)).any (fun t => (t.core 0).sc.any (·.performed.isSome)) = true) :=
  ⟨meets_all (by decide +kernel), meets_all (by decide +kernel), by decide +kernel, by decide +kernel, by decide +kernel,
    fun _ => rfl, by decide +kernel⟩

theorem witness_SynchronisationObjects :
    Meets (one (regs 0x10000 128)) [.sobj c0 (.s 1) 0 0 2, .sobj c0 (.imm 65) 0 1 2, .sobj c0 (.imm 65) 7 1 0, .rel c0 3 (.imm 65),
      .rel c0 3 (.s 1), .acq c0 3 (.imm 65), .acq c0 3 (.s 1), .sobj c0 (.imm 65) 0 2 1, .sobj c0 (.imm 65) 0 3 2] ∧
    Meets (one (regs 0x80 (2 ^ 36 + 128))) [.sobj c0 (.imm 65) 0 1 2] ∧ Meets (one (regs 0x80 0x81)) [.sobj c0 (.imm 65) 0 1 2] ∧
    Meets (one (task true)) [.rel c0 3 (.imm 65)] ∧ rangeFail (regs 0 128) 0 128 = none ∧
    ((global []).publishRanges 0 ((global []).objLines 0 {})).isSome = true :=
  ⟨meets_all (by decide +kernel), meets_all (by decide +kernel), meets_all (by decide +kernel), meets_all (by decide +kernel),
    by decide +kernel, by decide +kernel⟩

/-- Cores 0 and 1 are the members of barrier 3 at cluster level, each in the state given; core 0 holds v1 = 5. -/
def pair2 (a b : Bar) (comm : Bool) : State :=
  let bar := fun (x : Bar) => ({ x with mem := 0xA000, comm := comm } : Bar)
  { cores := [(0, { busy with bars := [(3, bar a)], v := [(1, 5)], s := [(1, 0x00FF000000000080)] }), (1, { busy with bars := [(3, bar b)] })] }
/-- A completed phase of the word at 8; an arrival. -/
def over8 (fault : Option Nat) (arr : Arrival) : Bar := { st := .done, mark := some 8, fault := fault, arr := some arr }
def came (arr : Arrival) : Bar := { st := .arrived, arr := some arr }

theorem witness_BarrierWords : Meets (pair2 {} {} false) [.bara c0 0 3, .bara c0 1 3, .bara c0 1 4, .barw c0 3, .bart c0 1 3,
      .barm c0 5 (.imm 64) 3, .phase c0 .comm 3] ∧
    Meets (pair2 (over8 none (.plain false)) {} false) [.bara c0 0 3, .barw c0 3, .bart c0 1 3, .barm c0 5 (.imm 64) 3] ∧
    Meets (pair2 (came (.plain false)) {} false) [.bara c0 0 3, .barw c0 3, .bart c0 1 3] ∧
    memOn ((pair2 {} {} false).core 0 |>.bar 3).mem = true ∧ memOn ((pair2 {} {} false).core 0 |>.bar 4).mem = false ∧
    memLevel ((pair2 {} {} false).core 0 |>.bar 3).mem = 2 ∧ ((pair2 {} {} false).seats 0 3).length = 2 ∧
    ((pair2 {} {} false).core 0).memberFault 3 0 = none ∧
    ((pair2 (came (.plain false)) {} false).core 0).memberFault 3 0 = some 2 :=
  ⟨meets_all (by decide +kernel), meets_all (by decide +kernel), meets_all (by decide +kernel), by decide +kernel, by decide +kernel,
    by decide +kernel, by decide +kernel, by decide +kernel, by decide +kernel⟩

theorem witness_WordsThatArriveAndWait : Meets (pair2 {} {} true) [.pdrain c0 5 3, .vpmrg c0 2 1 3, .ecsum c0 1 .keep 3, .convoy c0 (.on 3)] ∧
    Meets (pair2 {} {} false) [.pdrain c0 5 3] ∧ Meets (one (task true)) [.ecsum c0 1 .keep 3] ∧
    Meets (pair2 (over8 none (.drain 5)) {} true) [.pdrain c0 5 3, .vpmrg c0 2 1 3, .ecsum c0 1 .clear 3, .convoy c0 (.on 3)] ∧
    Meets (pair2 (over8 (some 10) (.merge 2 false 5)) {} true) [.vpmrg c0 2 1 3] ∧
    ((pair2 (over8 (some 10) (.merge 2 false 5)) {} true).core 0).Quiet ∧ ((pair2 {} {} true).seats 0 3).length = 2 ∧
    (pair2 {} {} true).checkAccess 0 accWrite [⟨0x00FF000000000080, 128, 128⟩] = none ∧
    ((pair2 {} {} true).core 0).place 0x00FF000000000080 = some (.lm 128) :=
  ⟨meets_all (by decide +kernel), meets_all (by decide +kernel), meets_all (by decide +kernel), meets_all (by decide +kernel),
    meets_all (by decide +kernel), ⟨by decide +kernel, by decide +kernel, by decide +kernel, by decide +kernel, by decide +kernel⟩,
    by decide +kernel, by decide +kernel, by decide +kernel⟩

theorem witness_PhasesComplete : (pair2 (came (.plain false)) {} false).allArrived 0 3 = false ∧
    (let s := pair2 (came (.plain false)) (came (.plain true)) false
     s.allArrived 0 3 = true ∧ ((s.seats 0 3).map (·.core)).Nodup ∧ (∀ x ∈ s.seats 0 3, x.saved = none) ∧
      (s.releaseSeats 2 false (s.seats 0 3)).isSome = true) ∧
    (let s : State := { pair2 (came (.drain 5)) (came (.drain 6)) true with received := [(10, 1)], receipts := 1 }
     s.allArrived 0 3 = true ∧ (∃ x ∈ s.seats 0 3, x.isDrain = true) ∧ s.receivedSince (512 :: (s.seats 0 3).map (·.core)) 2 0 = true) ∧
    (let s : State := pair2 (came (.drain 5)) (came (.drain 6)) true
     s.receivedSince (512 :: (s.seats 0 3).map (·.core)) 2 0 = false ∧ ((s.seats 0 3).map fun x => s.inFlight x.core (s.seatCore x).inst 2).sum = 0 ∧
      (∀ x ∈ s.seats 0 3, x.saved = none ∧ x.isDrain = true) ∧ (s.releaseSeats 2 true (s.seats 0 3)).isSome = true) ∧
    (let s := pair2 (came (.merge 2 false 5)) (came (.merge 2 false 6)) false
     s.allArrived 0 3 = true ∧ (s.releaseSeats 2 false (s.seats 0 3)).isSome = true) ∧
    (let b : Bar := { mem := 0xA000, st := .done, arr := some (.merge 2 false 5), owed := true }
     let s : State := { one { busy with bars := [(3, b)] } with clusters := [(0, { merges := [⟨3, [(0, 0)]⟩] })] }
     (s.cluster 0).merges = ⟨3, [(0, 0)]⟩ :: [] ∧ ((s.core 0).bar 3).owed = true ∧ (s.core 0).inst = 0 ∧ (s.core 0).work.isSome = true) ∧
    ((one busy).cluster 0).merges = [] := by decide +kernel

/-- mx: two issued, one completed; s1, s2, s3 hold a completed, an open and a missing operation's tag. -/
def tagged : State := one { busy with
  tls := [(0, { issued := 2, done := 1, status := [(1, 0)] })], s := [(1, 1), (2, 2), (3, 3), (4, 0xE000000000000001)] }
theorem witness_TimelineWords : Meets tagged [.tlrd c0 5 .mx .done, .tlwait c0 .mx (.imm 65), .tlwait c0 .mx (.imm 66),
      .tlwait c0 .mx (.imm 67), .tlpoll c0 1 .mx (.imm 65), .tlpoll c0 1 .mx (.imm 66), .tlpoll c0 1 .mx (.imm 67), .jwait c0 5 1,
      .jwait c0 5 2, .jwait c0 5 3, .jwait c0 5 4, .jpoll c0 1 1, .jpoll c0 1 2, .jpoll c0 1 3, .jpoll c0 1 4] ∧
    timelineOf (1 / 2 ^ 61) = some .mx ∧ timelineOf (0xE000000000000001 / 2 ^ 61) = none ∧
    ((tagged.core 0).tl .mx).issued = 2 ∧ ((tagged.core 0).tl .mx).done = 1 :=
  ⟨meets_all (by decide +kernel), by decide +kernel, by decide +kernel, by decide +kernel, by decide +kernel⟩

theorem witness_CompletionsAndCommitsAreInOrder :
    (let x : Tline := { issued := 4, done := 1, beyond := [3] }
     x.done < 2 ∧ 2 ≤ x.issued ∧ 2 ∉ x.beyond ∧ 4 ∉ x.beyond ∧ ∀ m ∈ x.beyond, x.done < m ∧ m ≤ x.issued) ∧
    (let x : Handle := { st := .ring, p := 2, q := 4, c := 0, d := 2, slots := 4, doneP := [3], doneC := [1] }
     x.c ≤ x.d ∧ x.p ≤ x.q ∧ (∀ m ∈ x.doneP, x.p ≤ m ∧ m < x.q) ∧ (∀ m ∈ x.doneC, x.c ≤ m ∧ m < x.d) ∧ x.p ∉ x.doneP ∧
      2 ∉ x.doneP ∧ 0 ∉ x.doneC ∧ x.c < x.p) := by decide +kernel

theorem witness_VectorElementsAreMerged : (8 : Nat) ∈ [8, 16, 32, 64] ∧ (64 : Nat) ∈ [8, 16, 32, 64] ∧ 3 < busy.count 64 := by decide +kernel

theorem witness_VectorArithmeticResults : Meets (one busy) [.vadd c0 3 1 (.v 2) none .i8, .vsub c0 3 1 (.s 2) none .n16,
      .vadds c0 3 1 (.v 2) none .i32, .vsubs c0 3 1 (.v 2) none .n8, .vmul c0 3 1 (.v 2) none .i32, .vmulh c0 3 1 (.v 2) none .n32,
      .vmin c0 3 1 (.v 2) none .i8, .vmax c0 3 1 (.v 2) none .n8, .vabs c0 3 1 none .i8, .vand c0 3 1 (.v 2) none .i32,
      .vor c0 3 1 (.v 2) none .i32, .vxor c0 3 1 (.v 2) none .i32, .vshl c0 3 1 (.v 2) none .i32, .vshr c0 3 1 (.v 2) none .i32,
      .vsar c0 3 1 (.v 2) none .i32, .vfadd c0 3 1 (.v 2) none .fp32, .vfsub c0 3 1 (.v 2) none .bf16, .vfmul c0 3 1 (.v 2) none .fp32,
      .vffma c0 3 1 (.v 2) none .fp32, .vfmin c0 3 1 (.v 2) none .fp32, .vfmax c0 3 1 (.v 2) none .bf16, .vexp2 c0 3 1 none .fp32,
      .vlog2 c0 3 1 none .bf16, .vrcp c0 3 1 none .fp32, .vrsq c0 3 1 none .fp32, .vtanh c0 3 1 none .fp32, .vrsum c0 3 1 none .bf16,
      .vrmax c0 3 1 none .i8, .vrmin c0 3 1 (some 1) .fp32] := meets_all (by decide +kernel)

theorem witness_VectorMovesAndMasks : Meets (one busy) [.vcmp c0 1 2 (.v 3) none .lt .i8, .vfcmp c0 1 2 (.v 3) none .un .fp32,
      .vsel c0 3 1 (.v 2) 1 .i32, .vmov c0 3 (.s 1) none .i32, .vbc c0 3 1 (.imm 64) none .i32, .vext c0 3 1 (.imm 64) .i32,
      .vins c0 3 (.s 1) (.imm 64) .i32, .vlut c0 3 1 2 none .i8, .vperm c0 3 1 2 none .i32, .vshuf c0 3 1 2 4 .i32,
      .vslide c0 3 1 2 (.imm 64) .i32, .vzip c0 3 1 2 .lo .i32, .vuzp c0 3 1 2 .hi .i32, .kand c0 1 2 3, .kor c0 1 2 3, .knot c0 1 2,
      .kpop c0 3 1, .kfirst c0 3 1, .vmode c0 .n16, .vmode c0 .short] ∧
    Meets (one { busy with grants := { allGrants with lregs := 4 } }) [.vmode c0 .n8] :=
  ⟨meets_all (by decide +kernel), meets_all (by decide +kernel)⟩

theorem witness_VectorConversions : Meets (one busy) [.vcvt c0 3 1 none 0 .i8 .fp32, .vcvt c0 3 1 none 1 .fp32 .i8,
      .vqmx c0 3 1 2 0 .given .m8 .fp32, .vtolg c0 3 1 2 0 .whole .fp32, .vfrlg c0 3 1 2 0 .bf16, .vtern c0 3 1 (.s 1) 0 .fp32,
      .vpk5 c0 3 1 (.imm 64) .t5, .vupk5 c0 3 1 (.imm 64) .t2, .vcomp c0 3 4 1 0 .p24 .i8, .vexpd c0 3 4 1 0 .p48 .i8] :=
  meets_all (by decide +kernel)

/-- Descriptors of one step of one row, dense, from h0: for MGANG of slice 0, and for MJOB. -/
def mdOf (mask : Byte) : List Byte := [0x80, 0, 1, 0, 1, 0, 0, 0, mask] ++ List.replicate 55 0
/-- A filled ring of slots of 256 bytes in h0, descriptors in d0 and d1, good addresses in s5 to s8, 32 in s9. -/
def engines : Core :=
  { busy with dr := [(0, mdOf 1), (1, mdOf 0)], h := [(0, { st := .ring, base := 0x00FF000000000000, bytes := 256, slots := 4, p := 2, q := 2 }),
                         (4, { st := .ring, base := 0x00FF000000001000, bytes := 32, slots := 4 })]
              s := [(5, 0x200), (6, 0x240), (7, 0x280), (8, 0x300), (9, 32), (10, 64), (11, 2 ^ 29), (12, 2 ^ 32 + 1)] }
/-- The page behind these addresses: a matrix descriptor at 0x200, 64 zero bytes at 0x240, a threshold descriptor at 0x280. -/
def descs : State :=
  let s := paged [(0, engines)]
  let th := leBytes 8 0 ++ leBytes 4 1 ++ [1, 0, 0, 0] ++ leBytes 8 0 ++ leBytes 4 64 ++ leBytes 4 0
  { s with mem := (s.mem.write (24576 + 0x200) (mdOf 0)).write (24576 + 0x280) th }

theorem witness_MatrixWordsIssue : Meets descs [.mgang c0 3 0, .mjob c0 3 1, .mbld c0 3 10 5 0, .mbld c0 3 10 5 9, .mscl c0 3 10 2,
      .mperm c0 3 8, .macz c0 3 3, .macw c0 3 2 .fp32 3 (.imm 64) (.imm 64), .macw c0 3 2 .fp32 3 (.s 5) (.imm 64),
      .macr c0 4 3 .stat 0 (.imm 64) (.imm 64), .macr c0 4 3 .raw 0 (.imm 64) (.imm 64), .macr c0 4 3 .raw 0 (.s 5) (.imm 64)] ∧
    (descs.matrixFail 0 true (mdOf 1)).isNone = true ∧ (descs.matrixFail 0 false (mdOf 0)).isNone = true ∧
    (descs.rangesFail 0 [(accRead, 0x200, 32)]).isNone = true ∧ (descs.core 0).fences = [] ∧ (descs.core 0).idem = false ∧
    Meets (one (task true)) [.mperm c0 3 8] ∧
    16 ≤ (({ descs with clusters := [(0, { jobs := List.replicate 16 ⟨1, 1, .cp, 1⟩ })] } : State).cluster 0).queued :=
  ⟨meets_all (by decide +kernel), by decide +kernel, by decide +kernel, by decide +kernel, by decide +kernel, by decide +kernel,
    meets_all (by decide +kernel), by decide +kernel⟩

/-- What the descriptor loads of `n` bytes at an address of the page give. -/
def descAt (a : Word) (n : Nat) : Option (State × Read) :=
  let u := descs.resolve 0 false 0 (runBytes a n)
  u.1.readWhere 0 (u.1.core 0).issue u.2
theorem witness_DescriptorsAreLoaded : Meets descs [.mcfg c0 2 5 0, .mcfg c0 2 6 0, .hbind c0 3 4 6, .hbind c0 3 2 6, .cpyt c0 3 6,
      .cthr c0 3 7] ∧ descs.checkAccess 0 accRead [⟨0x200, 64, 64⟩] = none ∧ (descs.core 0).loads = [] ∧
    (∃ v r, descAt 0x200 64 = some (v, r) ∧ (decide (r.ue = none) && decide (mcfgFail ((List.range 64).map r.byte) = none) &&
      v.cur == 0 && (v.core 0).fences.isEmpty) = true) ∧
    (∃ v r, descAt 0x240 64 = some (v, r) ∧ (decide (r.ue = none) && (mcfgFail ((List.range 64).map r.byte)).isSome &&
      ((stagesOf id ((List.range 64).map r.byte)).toOption.isSome) && (patBad ((List.range 32).map r.byte)).isNone) = true) ∧
    (∃ v r, descAt 0x280 32 = some (v, r) ∧ (decide (r.ue = none) && (thBad ((List.range 32).map r.byte)).isNone) = true) ∧
    ((descs.core 0).handle 4).bindable = true ∧ ((descs.core 0).handle 2).bindable = false :=
  ⟨meets_all (by decide +kernel), by decide +kernel, by decide +kernel, some_of (by decide +kernel), some_of (by decide +kernel),
    some_of (by decide +kernel), by decide +kernel, by decide +kernel⟩

/-- An atomic behind the core's store to its doubleword, a load of that doubleword and of the first slot of h0, and a store
to this slot: none can be done before the store. -/
def stuck : State := descs.modCore 0 fun q => { q with
  stores := [{ n := 0, loc := false, cells := [(24832, 1)] }, { n := 3, loc := true, cells := [(0, 1)] }]
  loads := [{ n := 1, pc := 8, blk := 0, dst := .nothing, lanes := [⟨0, 0x100, 24832, 3, true, false, false, false⟩], rmw := some ⟨.add, .i64, 1⟩ },
            { n := 2, pc := 8, blk := 0, dst := .vec 3 false, lanes := [⟨0, 0x100, 24832, 3, false, false, false, false⟩], locs := [(1, 0)] }]
  issue := 4 }

theorem witness_HandleWords : (Meets stuck [.hadvp c0 0, .hadvc c0 0] ∧
    (let u := (stuck.performLoads 0).drainWhere 0 (·.loc)
     (u.core 0).stores.any (·.loc) = true ∧ (u.core 0).loadsSlots ((u.core 0).handle 0) 0 1 = true) ∧
    ((descs.drainWhere 0 (·.loc)).core 0).stores.any (·.loc) = false ∧ (descs.core 0).loadsSlots ((descs.core 0).handle 0) 0 1 = false) ∧
    Meets descs [.hcfg c0 1 (.s 10) (.s 9) (.imm 65), .hcfg c0 0 (.s 10) (.s 9) (.imm 65), .hadvp c0 0, .hadvp c0 1,
      .hadvc c0 0, .hadvc c0 1, .hadvc (cN 2) 0, .hadvp (cN 4) 0, .hstat c0 3 0 .object, .hstat c0 3 0 .destination, .hstat c0 3 0 .source,
      .hunb c0 0, .hunb c0 1] ∧
    Meets (one { engines with s := [(5, 0x00FF000000000000), (6, 64)] }) [.hcfg c0 1 (.s 5) (.s 6) (.imm 66)] ∧
    (descs.core 0).shareRange 0x00FF000000000000 128 = true ∧
    (let x := (descs.core 0).handle 0
     x.st = .ring ∧ x.p = x.q ∧ x.c = x.d ∧ 1 ≤ x.slots - (x.q - x.c) ∧ x.slots - (x.q - x.c) < 5 ∧ 1 ≤ x.p - x.d ∧ x.p - x.d < 3) ∧
    ((descs.core 0).handle 1).st = .unbound :=
  ⟨⟨meets_all (by decide +kernel), by decide +kernel, by decide +kernel, by decide +kernel⟩, meets_all (by decide +kernel),
    meets_all (by decide +kernel), by decide +kernel, by decide +kernel, by decide +kernel⟩

/-- h3 on region 1 of 128 bytes at 0x300, 32-bit sums; idempotent or not. -/
def region1 : Region := { ctx := 0, base := 0x300, len := 128, op := .addI32, handles := [(0, 3)]
                          pins := ((descs.walk 0 0).toOption.map fun x => ⟨0, x.base, x.size, BitVec.ofNat 64 x.leaf, x.pte⟩).toList }
def updating (idem : Bool) (credits : Nat) : State :=
  { descs with regions := [(1, region1)]
               cores := [(0, { engines with work := some ⟨0, 0, some 0, idem, false⟩, credits := credits
                                            h := [(3, { st := .update, region := some 1 })] })] }
theorem witness_CopiesGathersAndUpdates : Meets descs [.cpy c0 3 8 5 10, .cpy c0 3 8 5 0, .cpy c0 3 8 5 12, .gth c0 3 0 5 1 9, .gth c0 3 1 5 1 9,
      .gthm c0 3 0 5 1 9, .gmsk c0 1 .read, .gmsk c0 1 .write, .ureg c0 1 8 10 0, .ureg c0 1 8 10 40, .ureg c0 0 8 10 0] ∧
    (descs.rangesFail 0 [(accRead, 0x200, 64), (accWrite, 0x300, 64)]).isNone = true ∧ (descs.core 0).undeclared 0x300 64 = false ∧
    (gatherStop ((descs.core 0).handle 0) 8 0x200 32).isNone = true ∧ ((descs.core 0).gatherIdx 1).length = 8 ∧
    descs.Numbered 0 ∧ (descs.regionFail 0 0x300 128).isNone = true ∧
    Meets (updating true 256) [.upd c0 3 0 (.imm 65), .upd c0 3 9 (.imm 65), .updv c0 3 1 2 none, .uflsh c0 5 3, .uqry c0 5 3] ∧
    Meets (updating false 0) [.upd c0 3 0 (.imm 65)] ∧ Meets (updating false 256) [.upd c0 3 0 (.imm 65)] ∧
    ((updating true 256).core 0 |>.rs 9).toNat = 128 / 4 ∧ (updating true 256).region 1 = some region1 :=
  ⟨meets_all (by decide +kernel), by decide +kernel, by decide +kernel, by decide +kernel, by decide +kernel,
    fun o ho => absurd ho (by rw [show descs.ops = [] by decide +kernel]; simp), by decide +kernel, meets_all (by decide +kernel), meets_all (by decide +kernel),
    meets_all (by decide +kernel), by decide +kernel, by decide +kernel⟩

/-- A ring of two packages; channel 1 of port 0 sends from core 0, channel 2 receives. -/
def ringed : State := { descs with ring := { n := 2, pkgId := 0, chans := [(1, ⟨0, 0, 0, 0, true, true⟩), (2, ⟨0, 0, 0, 0, true, false⟩)] } }
theorem witness_RingWords : Meets ringed [.rput c0 3 (.imm 65) 5 5 (.s 9), .rput c0 3 (.imm 64) 5 5 (.s 9), .rput c0 3 (.imm 65) 5 5 (.imm 65),
      .rflag c0 3 (.imm 65) 5 (.imm 65), .rfence c0 3, .rsend c0 3 0 1, .rsend (cN 2) 3 0 1, .rrecv c0 3 0 2, .rrecv (cN 4) 3 0 2] ∧
    Meets (one (task true)) [.rput c0 3 (.imm 65) 5 5 (.s 9), .rflag c0 3 (.imm 65) 5 (.imm 65), .rsend c0 3 0 1, .rrecv c0 3 0 2] ∧
    (1 ≠ ringed.ring.pkgId ∧ 1 < ringed.ring.n) ∧ ringed.checkAccess 0 accRead [⟨0x200, 32, 1⟩] = none ∧ ringed.putsOf 0 = [] ∧ ringed.isSaved 0 (ringed.core 0).inst = false ∧
    (ringed.ring.chans.find 1).any (fun y => y.valid && y.sends && y.core == 0) = true ∧
    (ringed.ring.chans.find 2).any (fun y => y.valid && !y.sends && y.core == 0) = true :=
  ⟨meets_all (by decide +kernel), meets_all (by decide +kernel), by decide +kernel, by decide +kernel, by decide +kernel,
    by decide +kernel, by decide +kernel, by decide +kernel⟩

theorem witness_HostRecordsAreTakenInOrder :
    (let s : State := { bar0 := { lastHost := 4 } }
     s.recovery = false ∧ ({ bar0 := { bootStatus := 2 } } : State).recovery = true ∧ 4 ≤ s.bar0.lastHost ∧ s.bar0.lastHost + 1 < 6 ∧ 5 = s.bar0.lastHost + 1) ∧
    Instr.setLimit 5 100 ∈ ([.ckptAbort 5, .setLimit 5 100] : List Instr) ∧
    ({ bar0 := { lastHost := 4 }, ckpt := some ⟨false, [], 0⟩ } : State).ckpt.isSome = true := by
  refine ⟨by decide, ?_, rfl⟩
  simp

/-- Context 1, with the fields of `CTX_CREATE`. -/
def ctx1 : Ctx := ⟨7, 4096, 0x110, 0, 4, 0, 0, 0, 0, [], 0, false, false, false⟩
/-- A checkpoint under way, with a record held behind it. -/
def ckpting : State := { ckpt := some ⟨false, [(0x10000000000, ckptBytes)], 0⟩, heldRecs := [.setLimit 3 200], bar0 := { lastHost := 4 } }
theorem witness_HostRecordsOfTheDevice :
    (ckpting.recovery = false ∧ (ckpting.ckpt.any fun k => !k.restore) = true ∧ ckpting.ckptReady.isSome = true ∧
      ({ ckpting with cores := [(0, busy)] } : State).ckptReady = none ∧ ({ ckpting with ckpt := none } : State).recWaits [] (.setLimit 3 200) = false) ∧
    (let s : State := { mem := [(8204, 1), (8205, 1), (8206, 2)] }
     (∀ x ∈ s.extentsOf 8192 1, x.2 % 4096 = 0 ∧ storeOf x.1 ≠ .cxl) ∧ ckptBytes ≤ extentsTotal (s.extentsOf 8192 1)) ∧
    (let s : State := { mem := [(8197, 2), (8204, 1), (8205, 1), (8206, 2)], persist := [(0x20000000000, 2 ^ 50)] }
     (∀ x ∈ s.extentsOf 8192 1, x.2 % 4096 = 0 ∧ storeOf x.1 = .cxl ∧ s.excluded x.1 = true ∧ s.excluded (x.1 + x.2 - 1) = true) ∧
      ckptBytes ≤ extentsTotal (s.extentsOf 8192 1)) ∧
    (let s : State := {}
     s.recovery = false ∧ s.ckpt = none ∧ s.heldRecs = [] ∧ s.ctxs = [] ∧ s.ctxs.find 16 = none ∧
      (s.paRead 0x160 0xEA0).any (· != 0) = false ∧ s.paNum 0 8 % 4096 = 0 ∧ (s.paRead 0x200 0xE00).any (· != 0) = false ∧ s.kept = []) ∧
    (let s : State := { ctxs := [(1, ctx1)] }
     s.ctxs.find 1 = some ctx1 ∧ ctx1.dying = false ∧ ctx1.gen = 7 ∧ s.ctxs ≠ [] ∧ s.ctxs.find 2 = none) ∧
    (({} : State).diagItems 0 0 1).isSome = true ∧ ({ kept := [⟨3, []⟩] } : State).kept = ⟨3, []⟩ :: [] := by decide +kernel

theorem witness_HostRecordsOfWork :
    (let s : State := { ctxs := [(1, ctx1)], cards := [(64, [])], pageReqs := [⟨1, 7, 4096, 1, 0, 0, false, 9⟩] }
     s.recovery = false ∧ s.ckpt = none ∧ s.heldRecs = [] ∧ s.ctxs.find 1 = some ctx1 ∧ s.ctxs.find 2 = none ∧ ctx1.recsHeld = false ∧
      s.launch? 1 5 = none ∧ s.cards.find 64 = some [] ∧
      s.pageReqs.any (fun r => r.ctx == 1 && r.gen == 7 && r.page == 4096) = true ∧
      s.pageReqs.any (fun r => r.ctx == 1 && r.gen == 7 && r.page == 8192) = false) ∧
    (let s : State := { descs with ctxs := descs.ctxs }
     (s.walk 0 0).toOption.any (fun x => x.size == 4096 && pteView x.leaf == 0 && s.isFrame (alignDown (pteFrame x.leaf) 4096) 4096 &&
      !s.migrating (alignDown (pteFrame x.leaf) 4096 / 128)) = true ∧ migrateBytes 0 = 4096 ∧ s.isFrame 0x100000 4096 = true ∧
      onTier 0x100000 = false) ∧
    (descs.debugOk 0 0 ((descs.ctxs.get 0 ctx1).gen) = true) ∧ descs.debugOk 3 0 0 = false ∧
    (({ busy with debug := true } : Core).debug = true) := by decide +kernel

theorem witness_HostRegistersAndDeviceEvents : (one busy).recovery = false ∧
    ({ bar0 := { bootStatus := 2 } } : State).recovery = true ∧ (16 : Nat) < 17 ∧ (0x150 : Nat) ∉ [0x100, 0x118, 0x130, 0x140] ∧
    (one busy).backlog = [] ∧ ({ bar0 := { attach := 3 } } : State).bar0.attach ≠ 4 ∧
    ((one busy).core 0).work.any (·.ctx == (0 : Word).toNat / 2 ^ 16 % 16) = true ∧ 2 ^ 39 < 2 ^ 39 + 1 ∧ (one busy).sorterPairs = [] ∧
    ({ gap := some (0, false), now := 1000000 } : State).gap = some (0, false) ∧
    ({ ckpt := some ⟨false, [], 0⟩ } : State).ckpt = some ⟨false, [], 0⟩ ∧
    (let s : State := { homeQ := [{ core := none, home := 0, cells := [(0x10000000000, 1)], host := 3 }], bar0 := { writes := 3 } }
     (∃ w ∈ s.homeQ, w.host ≠ 0 ∧ w.host ≤ s.bar0.writes) ∧ ∀ x ∈ s.bar0.tailQ, x.1 ≠ 2) ∧
    (16 ≤ ({ msix := 16 } : State).msix ∧ (let s : State := { msix := 3, msixSince := 5, now := 10005 }
     s.msix ≠ 0 ∧ 10000 ≤ s.now - s.msixSince) ∧ (let s : State := { msix := 3, msixSince := 5, now := 10004 }
     s.msix < 16 ∧ s.now - s.msixSince < 10000)) := by decide +kernel

/-- A load of a page's doubleword, outstanding; one slice that holds a line of it. -/
def loading : State :=
  let u := (global [true]).resolve 0 false 0 (runBytes 0x100 8)
  u.1.modCore 0 fun x => { x with loads := [{ n := 0, pc := 8, blk := 0, dst := .scalar 3 8 false, lanes := u.2.lanes }] }
def sliced : State := { global [] with slices := [(3, { tags := [(194, { unh := true })], data := [(0, { bytes := List.replicate 128 0 })] })] }
theorem witness_MemoryEvents :
    ((loading.core 0).loads.find? (·.n == 0)).any (fun l => !(loading.core 0).loadBlocked l && (loading.readLanes 0 0 {} l.lanes).any
      fun p => p.2.ue.isNone) = true ∧ (loading.core 0).loads.find? (·.n == 1) = none ∧
    (let q : Core := { busy with sleep := some ⟨3, 0, 0⟩, wakes := 4 }
     q.pre = .run ∧ (one q).wakeReasons q ⟨3, 0, 0⟩ ≠ 0 ∧ ((one q).core 0).sleep = some ⟨3, 0, 0⟩) ∧
    (let s : State := { global [] with frames := [(6, ⟨0, 0, 0x6001⟩)] }
     let x := s.slice 30
     x.tags.find 194 = none ∧ (global []).homesAt 3 194 = false ∧ s.homesAt 30 194 = true ∧ s.l2At 30 194 = none ∧ storeOf (128 * 194) = .hbm ∧ x.freeEntry.isSome = true ∧
      (x.data.map (·.1)).Nodup) ∧
    (sliced.l2At 3 194).any (fun p => p.1.unh) = true ∧ ((sliced.slice 3).data.map (·.1)).Nodup ∧
    (let w : HomeWrite := { core := some 1, home := 3, cells := [(24832, 1)] }
     let s : State := { sliced with homeQ := [w] }
     w.cells.any (·.1 / 128 == 194) = true ∧ (({ s with homeQ := [] } : State).homeWriteNow w.core w.home w.cells w.via).isSome = true) ∧
    onTier (128 * (2 ^ 40 / 128)) = true ∧ onTier (128 * 194) = false ∧ (one busy).viewPend = [] ∧
    (let m : Migration := { ctx := 0, va := 0, size := 4096, src := 24576, dst := 0x100000, alloc := 0 }
     ({ descs with migrations := [m] } : State).migrations.find? (fun m => m.ctx == 0 && m.va == 0) = some m) := by decide +kernel

/-- A pair of a region that is flushed, and the state in whose sorter 2 it is the only one. -/
def pair0 : Pair := ⟨0, 1, 0x300, 0, 0, 5, 0⟩
def flushed : State :=
  { updating false 255 with regions := [(1, { region1 with flush := 1 })], sorters := [(2, { bins := [(198, [pair0])] })] }
theorem flushed_step : flushed.applyStep 0 6 = [pair0] := by
  unfold State.applyStep
  rw [show sortPairs (flushed.sorterPairs.filter fun p => p.ctx == 0 && p.addr / 128 == 6 && flushed.applies p.region) = [pair0] by
    decide +kernel]
  simp [Nat.mod_one]

theorem witness_UpdateAndRingEvents :
    (let p : Pair := ⟨0, 1, 0x300, 0, 0, 5, 0⟩
     let s : State := { updating false 255 with flight := [p] }
     s.flight[0]? = some p ∧ s.region 1 = some region1 ∧ (s.pairLoc p).isSome = true ∧
      (s.ctxs.find p.ctx).any (·.dying) = false ∧ s.flight.length ≤ 1) ∧
    (let p : Pair := ⟨0, 1, 0x300, 0, 0, 5, 0⟩
     ({ sorters := [(2, { batch := [p] })] } : State).sorter 2 = { batch := [p] }) ∧
    (let p := pair0
     let s := flushed
     (∃ x ∈ s.sorterPairs, (x.ctx == 0 && x.addr / 128 == 6 && s.applies x.region) = true) ∧
      ((s.endFlushes 0 6).applyWhere [p].contains).isSome = true ∧
      (s.sorterPairs.filter fun p => p.ctx == 0 && p.addr / 128 == 7 && s.applies p.region) = [] ∧ s.pairLoc p = some (128 * 198 + p.addr % 128, (s.pairLoc p).getD (0, 0) |>.2) ∧ (s.binPair 2 p).isSome = true ∧
      (s.applyBlock 198).isSome = true) ∧
    (let s : State := {}
     s.packetDone { pkg := 0, rctx := 0, path := 0, dst := 0, data := [] } = false ∧ s.ring.waiting = [] ∧
      s.land { pkg := 0, rctx := 0, path := 0, dst := 0, data := [] } = .denied ∧
      s.flagFree { pkg := 0, rctx := 0, path := 0, dst := 0, data := [], counts := some [1] } = false ∧
      s.flagFree { pkg := 0, rctx := 0, path := 0, dst := 0, data := [], counts := some [0] } = true ∧ s.ring.flags = [] ∧
      (let f : RingPkt := { pkg := 0, rctx := 0, path := 0, dst := 0, data := leBytes 8 0, counts := some [0, 0, 0, 0] }
       let u : State := { ring := { flags := [f] } }
       u.flagNext f = true ∧ u.land f = .denied)) ∧
    (let p : RingPkt := { pkg := 1, rctx := 0, path := 0, dst := 0x5000, data := [7] }
     let r : State := { ringed with ring := { ringed.ring with peers := [(1, 0)] } }
     let s := r.holdPacket p (some 0x5000)
     (match r.land p with
      | .absent ctx va _ => ctx == 0 && va == 0x5000
      | .denied | .lands _ _ => false) = true ∧ r.aheadOf p = none ∧ s.packetDone p = false ∧
      (∃ w ∈ s.ring.waiting, ({ w with page := none, held := 0 } : RingPkt) = p) ∧
      (∀ w ∈ s.ring.heldOrder, w.page.isSome = true) ∧ (s.aheadOf { p with seq := 1, dst := 0x5001 }).isSome = true ∧
      ((match r.land { p with dst := 0x300 } with
       | .lands _ cells => (r.landCells cells).isSome
       | .denied | .absent .. => false) = true) ∧ r.heldFlag { p with counts := some [0] } = none ∧ r.ring.flagsTaken.get 8192 0 = 0) ∧
    (let o : EngOp := { core := 0, ctx := 0, inst := 0, tl := .rg, n := 1, kind := .put 1 0 0 32, sent := [⟨0, 0, [], []⟩] }
     let s : State := { ringed with ops := [o], ring := { ringed.ring with links := [(0, { up := true, lanes := 16 })] } }
     (s.link 0).up = true ∧ (s.link 1).up = false ∧
     s.opNamed 0 .rg 1 = some o ∧ o.kind.isPut = true ∧ o.acked < o.sent.length ∧ o.acked + 1 = o.kind.packets) ∧
    (let o : EngOp := { core := 0, ctx := 0, inst := 0, tl := .rg, n := 1, kind := .recv 0 0 2 2 1 }
     let s : State := { ringed with ops := [o] }
     s.ops = [] ++ o :: [] ∧ (s.opHandle 0 0 0).bytes = 256) ∧
    (({ ring := { links := [(1, { up := true, lanes := 16 }), (2, { training := true }), (3, { up := true, lanes := 8 })] } } : State).link 1).up = true := by
  decide +kernel

/-- A graph of one waiting core node; the launch has not placed it. -/
def waitingNode : State :=
  let s := graph .ready busy
  { s with cores := [], ctxs := [(0, { ctx1 with gen := 1 })]
           launches := s.launches.map fun l => { l with nodes := l.nodes.map fun x => { x with core := none, head := some 0 } } }
theorem witness_NodesArePlaced :
    (waitingNode.markHeads.heading 0 0 0).any (fun (_, p) => !p.x.gang && !waitingNode.markHeads.reservedFor p.cl &&
      (waitingNode.markHeads.heldCore p).isNone && (waitingNode.markHeads.idleCore [] 0 p.id 0 p.cl).isSome) = true ∧
    (waitingNode.markHeads.heading 0 1 0).isNone = true ∧
    (let s : State := { ctxs := [(0, ctx1)], launches := [{ ctx := 0, id := 0, grants := allGrants, near := 0, scratch := 0, nodes := [],
                                                            persist := some (0x110, 1, 1, 5) }] }
     (s.launch? 0 0).any (fun l => l.persist == some (0x110, 1, 1, 5) && !l.started) = true ∧ s.ctxs.find 0 = some ctx1 ∧ ctx1.held = false ∧
      ∀ c ∈ rangeFrom 8 8, (s.core c).work = none ∧ (s.core c).heldFor = none ∧ s.splitFits c 4 = true) ∧
    (let s : State := { waitingNode with launches := waitingNode.launches.map fun l => { l with nodes := l.nodes.map fun x => { x with held := some 4 } } }
     (s.node? 0 0 0).any (fun x => x.held == some 4 && x.st == .ready && x.page.isNone) = true ∧ s.opsOf 4 = []) := by decide +kernel

theorem witness_WorkLeavesAndReturns :
    (let s := one { busy with req := some (.preempt 1) }
     s.groupReq (s.groupOf 0) = some (.preempt 1) ∧ s.isEnding 0 = false ∧ (∀ m ∈ s.groupOf 0, (s.core m).pre = .run) ∧
      (∀ m ∈ s.groupOf 0, s.haltable m = true) ∧ (s.core 0).idem = false) ∧ (one busy).groupReq ((one busy).groupOf 0) = none ∧
    (let s := one { task true with req := some .kill }
     s.groupReq (s.groupOf 0) = some .kill ∧ (∀ m ∈ s.groupOf 0, s.haltable m = true) ∧ (s.core 0).idem = true) ∧
    (let s := one { busy with pre := .draining }
     let v := ((s.performLoads 0).drainAll 0).publishLines 0 true true
     let u := (v.finishFences [0]).getD v
     s.groupOf 0 = [0] ∧ (s.core 0).pre = .draining ∧ (u.core 0).loads = [] ∧ (u.core 0).stores = [] ∧ (u.core 0).fences = [] ∧
      u.tileWaits 0 = false) ∧
    (let s := one { task false with pre := .saving }
     s.groupOf 0 = [0] ∧ (s.core 0).pre = .saving ∧ (s.core 0).savesCluster = false ∧ (s.core 0).req = none) ∧
    (let s : State := { one { busy with wd := 2001 } with ctxs := [(0, { ctx1 with wdLimit := 2 })] }
     (s.core 0).pre = .run ∧ 1000 * 2 < s.wdCount 0 ∧ s.isEnding 0 = false) ∧
    (let w : WorkRef := ⟨0, 0, some 0, false, false⟩
     let r : SavedRec := { ctx := 0, core := 0, work := w, inst := 1, snap := busy, image := 0, imageLen := 0, clus := none, arrivals := [],
                           gangs := [], engWrote := [], resumed := true }
     let s : State := { ctxs := [(0, ctx1)], saved := [r] }
     s.saved = [r] ∧ s.ctxs.find 0 = some ctx1 ∧ s.reservedFor (clusterOf 8) = false ∧ inCluster 8 = inCluster 0 ∧ (s.core 8).work = none ∧
      (s.core 8).heldFor = none ∧ s.splitFits 8 ctx1.split = true) := by decide +kernel

theorem witness_PowerAndErrorEvents : (127 : Nat) < 128 ∧ 1000 * min 1400 State.reset.limit < 1400001 ∧
    (let t : Tile := { droopEn := true, thr := 40, dwell := true }
     t.droopEn = true ∧ t.thr ≠ 0 ∧ t.thr.toNat < 41 ∧ t.dwell = true ∧ t.guardband < 10 ∧ ¬ 10 ≤ t.guardband) ∧
    (one busy).windowOpen 0 = false ∧ ((one (task true)).core 0).idem = true ∧ (one busy).isEnding 0 = false ∧
    ({ cfg := { placed := true, telSize := 4096 } } : State).cfg.telSize ≠ 0 := by decide +kernel

theorem witness_EncodedWordsDecode : (Instr.add c0 1 (.s 1) (.s 2)).wf = true ∧
    encode (.add c0 1 (.s 1) (.s 2)) = some 0x2000000101020000 ∧ decode 0x2000000101020000 = .ok (.add c0 1 (.s 1) (.s 2)) := by
  decide +kernel

theorem witness_StepRunsTheWord : (Move.core 511 = .core 511 ∧ (511 : Nat) < 512) ∧
    (let u := code
     u.groupReq (u.groupOf 0) = none ∧ (u.core 0).uiReady = false ∧ (u.core 0).issuing = true ∧
      (∀ m ∈ u.convoyOf 0, (u.core m).running = true ∧ (u.core m).due = [] ∧ (u.core m).debugReq = false ∧ (u.core m).waitPage = none) ∧
      u.fetch 0 false 8 = .word 0 ∧ isHeader 0 = false ∧ decodeIn 0 0 = .ok (.unassignedOpcode 0) ∧ (opRow (unpack 0).op.toNat).isNone = true) := by
  decide +kernel

theorem witness_WordsWithFalseGuardsPass :
    (let q := (handling 0).core 0
     let i : Instr := .add { c0 with g1 := ⟨false, 3⟩ } 3 (.s 1) (.s 2)
     (i.fields.any fun f => !f.ctl.guards q) = true ∧ q.convoy = false ∧ q.priv = true) ∧
    (codes.core 0).issuing = true ∧ opcodeUnassigned 0 = true := by decide +kernel

theorem witness_StepsKeepMemoryCanonical : Memory.wf State.reset.mem = true ∧ Memory.wf descs.mem = true ∧
    ∃ t, exec (.msiXInterrupt) descs = .next t := ⟨by decide +kernel, by decide +kernel, _, rfl⟩

/-- An MJOB of core 0 at the head of its cluster's order, started, with the first slot of h0 claimed. -/
def stepping : MxOp :=
  { id := 7, parts := [⟨0, 0, .mx, 1⟩], kind := .matrix false (mdOf 0), started := true, claims := [(0, ⟨0, 0, .mx, 1⟩, 0)] }
def ordered : State := { descs with clusters := [(0, { order := [stepping] })] }
theorem witness_EngineEvents :
    (let j : JobRef := ⟨3, 0, .cp, 1⟩
     let k : JobRef := ⟨1, 0, .mx, 1⟩
     let turn := fun (j : JobRef) => (inCluster j.core + 7 - 1) % 8
     [k, j] = [k] ++ j :: [] ∧ turn j < turn k ∧ ([k] : List JobRef).contains j = false ∧ (j.tl == .mx) = false ∧ (k.tl == .mx) = true) ∧
    (let x := ordered.cluster 0
     x.order.find? (·.id == 7) = some stepping ∧ x.order.find? (·.id == 8) = none ∧ stepping.started = true ∧ stepping.running = true ∧
      (ordered.stepSlots stepping (mdOf 0)).toOption.any (fun l => l.length == 1) = true ∧
      (∀ k ∈ stepping.slices, ordered.stepUe 0 k (mdOf 0) 0 = none) ∧ ordered.scan 0 stepping (mdOf 0) [0] = none ∧
      chained (mdOf 0) = false ∧ mdN (mdOf 0) ≤ 128 ∧ lastOfChain 0 (mdOf 0) = false) ∧
    (let x := { stepping with started := false }
     [x] = [] ++ x :: [] ∧ x.started = false) ∧
    (let o : EngOp := { core := 0, ctx := 0, inst := 0, tl := .cp, n := 1, kind := .copy 0x300 0x200 32 }
     let s : State := { descs with ops := [o] }
     s.opNamed 0 .cp 1 = some o ∧ s.opNamed 0 .cp 2 = none ∧ (∀ gang d, o.kind ≠ .matrix gang d)) ∧
    (let o : EngOp := { core := 0, ctx := 0, inst := 0, tl := .cp, n := 1, kind := .stream 4 }
     let h : Handle := { st := .stream, base := 0x00FF000000001000, bytes := 32, slots := 4, desc := List.replicate 64 0, opNum := 1 }
     let s : State := { paged [(0, { engines with h := [(4, h)] })] with ops := [o] }
     s.ops.filter (fun o => o.core == 0 && o.kind == .stream 4) = [o] ∧ s.current o = o ∧ (s.opHandle 0 0 4).free ≠ 0 ∧
      s.streamGoes o = true ∧ s.writeTurn o ((s.opHandle 0 0 4).slotAt (s.opHandle 0 0 4).q).toNat 32 = true ∧
      (stagesOf (s.cluster 0).permEntry h.desc).toOption.any (fun l => (stagesBad l).isNone) = true ∧ (s.ownStores o).isSome = true) := by
  refine ⟨by decide +kernel, by decide +kernel, by decide +kernel, ⟨by decide +kernel, by decide +kernel, fun _ _ => by simp⟩, ?_⟩
  decide +kernel

/-- A convoy of eight; s1 holds an address of the scratchpad, s5 one of the page. -/
def members : State := paged ((List.range 8).map fun c =>
  (c, { busy with s := [(1, 0x00FF000000000020), (5, 0x100), (6, 2)], convoy := true }))

/-- The members of a convoy can store to the scratchpad in turn. -/
theorem witness_StoresInTurns : TakenInTurns members (.st c0 1 (.s 6) .i8 0) fun m s t =>
    ∃ off, (((s.core m).rs 1 + (0 : BitVec 16).signExtend 64).toNat % 1 = 0) ∧
      s.Local m (bytesFrom ((s.core m).rs 1 + (0 : BitVec 16).signExtend 64) 1) off ∧
      t = s.buffers m ((List.range 1).map fun i => (off i, ((.s 6 : SImm).val (s.core m)).extractLsb' (8 * i) 8)) :=
  taken_in_turns (fun m s =>
      let l := bytesFrom ((s.core m).rs 1 + (0 : BitVec 16).signExtend 64) 1
      (l.all fun x => (s.core m).place x.2.toNat == some (.lm (32 + x.1)) && !(s.tile (tileOf m)).poison.contains ((32 + x.1) / 128)) &&
        (s.core m).fences.isEmpty && (s.core m).sc.isNone && (s.core m).loads.isEmpty && !(headerOf (s.core m).hdr).noSpill)
    (fun m s => s.buffers m ((List.range 1).map fun i => (32 + i, ((.s 6 : SImm).val (s.core m)).extractLsb' (8 * i) 8)))
    (by decide +kernel)
    (fun m s h => by
      simp only [Bool.and_eq_true, List.all_eq_true, beq_iff_eq, Bool.not_eq_true', Option.isNone_iff_eq_none,
        List.isEmpty_iff] at h
      obtain ⟨⟨⟨⟨h1, h2⟩, h3⟩, h4⟩, h5⟩ := h
      exact ⟨fun i => 32 + i, Nat.mod_one _, ⟨fun x hx => (h1 x hx).1, fun x hx => (h1 x hx).2, ⟨h2, h3⟩,
        fun o ho => absurd ho (by rw [h4]; simp), fun hn => absurd hn (by rw [h5]; decide)⟩, rfl⟩)
    (by decide +kernel)

/-- The page of `global`, a read-only page at 0x3000 and one of the host window at 0x4000; nothing at 0x5000. -/
def pages (q : Core) : State :=
  let s := paged [(0, { q with
    s := [(5, 0x3000), (6, 2), (7, 0x4000), (8, 0x5000), (9, 0x00FF000000000020), (10, 0x00FF000000080000), (11, 0x00FE000000000000)] })]
  let leaf := fun (m : Mem) (k n : Nat) => m.write (4096 * 5 + 8 * k) (leBytes 8 (2 ^ 63 + 2 ^ 55 + n))
  { s with mem := leaf (leaf s.mem 3 (4096 * 7 + 0xB)) 4 (0x80000000000 + 0xF) }

theorem witness_BadAccessesTrap : Meets local3 [.ld c0 5 4 .i16 0, .st c0 4 (.s 3) .i16 0, .ldp c0 5 6 4 0, .stp c0 4 (.s 3) (.s 3) 0,
      .ldv c0 5 4 none 0, .stv c0 4 5 none 0, .ld c0 5 2 .n8 1, .st c0 2 (.s 3) .i8 1] ∧
    (local3.core 0).place (0x00FF00000007FFFF + 1) = none ∧ (headerOf (local3.core 0).hdr).noSpill = false ∧
    (let s := one { busy with hdr := 0xFF40010000000002, s := [(1, 0x00FE000000000000)] }
     (headerOf (s.core 0).hdr).noSpill = true ∧ inStack 0x00FE000000000000 = true ∧
      Meets s [.ld c0 5 1 .i64 0, .aadd c0 5 1 (.imm 64) .i64]) ∧
    Meets (pages busy) [.st c0 5 (.s 6) .i64 0, .aadd c0 3 5 (.s 6) .i64, .anadd c0 9 (.s 6) .i64, .acas c0 3 10 (.s 6) (.s 6) .i64,
      .scld c0 3 7 .i64, .scst c0 7 (.s 6) .i64, .ldvs c0 3 10 (.s 0) .b4 none, .stvs c0 10 3 (.s 0) .b4 none] ∧
    Meets (pages (task true)) [.aadd c0 3 5 (.s 6) .i64, .scst c0 5 (.s 6) .i32, .scxch c0 3 5 (.s 6) .i32] ∧
    ((pages busy).core 0).place 0x00FF000000080000 = none ∧
    ((pages busy).core 0).place 0x00FF000000000020 = some (.lm 32) ∧ ((pages busy).core 0).place 0x00FF000000000027 = some (.lm 39) ∧
    (((pages busy).look 0 0 0x3000).toOption.any fun y => !(pages busy).viewBad (y.key 0x3000) && !pteW y.leaf) = true ∧
    (((pages busy).look 0 0 0x3007).toOption.any fun y => !(pages busy).viewBad (y.key 0x3007)) = true ∧
    (((pages busy).look 0 0 0x4000).toOption.any fun y => !(pages busy).viewBad (y.key 0x4000) &&
      ((pages busy).core 0).mayUse true y.leaf && storeOf (y.key 0x4000) == .host) = true ∧
    (((pages busy).look 0 0 0x4007).toOption.any fun y => !(pages busy).viewBad (y.key 0x4007) &&
      ((pages busy).core 0).mayUse true y.leaf) = true ∧
    (((pages busy).core 0).strided 10 (.s 0) 4 none).head? = some (0, 0x00FF000000080000) :=
  ⟨meets_all (by decide +kernel), by decide +kernel, by decide +kernel, ⟨by decide +kernel, by decide +kernel, meets_all (by decide +kernel)⟩,
    meets_all (by decide +kernel), meets_all (by decide +kernel), by decide +kernel, by decide +kernel, by decide +kernel, by decide +kernel,
    by decide +kernel, by decide +kernel, by decide +kernel, by decide +kernel⟩

theorem witness_AbsentPagesAreRequested : Meets (pages busy) [.ld c0 3 8 .i64 0, .st c0 8 (.s 6) .i64 0, .aadd c0 3 8 (.s 6) .i64] ∧
    Meets (pages (task true)) [.ld c0 3 8 .i64 0, .scld c0 3 8 .i64] ∧
    (pages busy).look 0 0 0x5000 matches .error _ ∧ (pages busy).look 0 0 0x5007 matches .error _ ∧ isGlobal 0x5000 = true ∧
    ((pages busy).core 0).fences = [] ∧ ((pages busy).core 0).idem = false ∧ ((pages (task true)).core 0).idem = true ∧
    (let s : State := { pages (task true) with launches := (graph .running busy).launches }
     (s.node? 0 0 0).isSome = true ∧ ∀ j ∈ s.membersOf 0, (s.core j).req ≠ some .kill) ∧
    (pages busy).pageReqs.any (fun r => r.ctx == 0 && r.page == 0x5000) = false ∧
    (let s : State := { pages { busy with waitPage := some 0x5000 } with agenda := [.core 0] }
     let u : State := { s.tickOver with agenda := [] }
     u.groupReq (u.groupOf 0) = none ∧ (u.core 0).uiReady = false ∧ (u.core 0).pos = .word ∧
      (∀ m ∈ u.convoyOf 0, (u.core m).running = true ∧ (u.core m).due = [] ∧ (u.core m).debugReq = false) ∧
      ∃ m ∈ u.convoyOf 0, (u.core m).waitPage.isSome = true) :=
  ⟨meets_all (by decide +kernel), meets_all (by decide +kernel), by decide +kernel, by decide +kernel, by decide +kernel,
    by decide +kernel, by decide +kernel, by decide +kernel, by decide +kernel, by decide +kernel, by decide +kernel⟩

/-- A page's migration. -/
def mig0 : Migration := { ctx := 0, va := 0, size := 4096, src := 24576, dst := 0x100000, alloc := 0 }
/-- A core with one global store buffered, of two bytes of a line of the page. -/
def wstore (bypass : Bool) : PendStore := { n := 3, loc := false, home := 30, bypass := bypass, cells := [(24832, 1), (24834, 2)] }
def draining (bypass : Bool) : State := paged [(0, { busy with stores := [wstore bypass] })]

theorem witness_StoresDrainToTheirBytes :
    (let p : PendStore := { n := 3, loc := true, lcl := true, cells := [(7, 1), (8, 2)] }
     let q : Core := { busy with stores := [p] }
     q.stores.find? (·.n == 3) = some p ∧ (p.cells.map (·.1)).Nodup ∧ q.storeBlocked p = false ∧ q.stores.find? (·.n == 4) = none) ∧
    (∀ b, let s := draining b
     let p := wstore b
     (s.core 0).stores.find? (·.n == 3) = some p ∧ (p.cells.map (·.1)).Nodup ∧ (s.core 0).storeBlocked p = false ∧
      (∀ x ∈ p.cells, x.1 / 128 = 194) ∧ s.sorterPairs = [] ∧ s.noL1 0 p.bypass (128 * 194) = b ∧ (s.tile 0).l1.find 194 = none ∧
      ((s.tile 0).l1Ways 194).length < 16 ∧ s.lineQueued 194 = false ∧ s.slices = []) ∧
    (let s : State := { draining false with tiles := [(0, { l1 := [(194, { bytes := List.replicate 128 5 })] })] }
     ((s.tile 0).l1.find 194).map (·.bytes) = some (List.replicate 128 5)) ∧
    ({ draining true with migrations := [mig0] } : State).homeWriteNow (some 0) 30 [(24832, 1), (24834, 2)] .store = none ∧
    ({ draining true with migrations := [mig0] } : State).migrating 194 = true := by
  refine ⟨by decide +kernel, fun b => ?_, by decide +kernel, by decide +kernel, by decide +kernel⟩
  cases b <;> decide +kernel

/-- h4 is a stream whose operation is the outstanding one, with some of its slots claimed. -/
def streamOp : EngOp := { core := 0, ctx := 0, inst := 0, tl := .cp, n := 1, kind := .stream 4 }
def streaming (claims : Nat) : State :=
  let h : Handle :=
    { st := .stream, base := 0x00FF000000001000, bytes := 32, slots := 4, desc := List.replicate 64 0, opNum := 1, p := 1, q := 1, d := claims }
  { paged [(0, { engines with h := [(4, h)], tls := [(1, { issued := 1 })] })] with ops := [streamOp] }
/-- The job queue of cluster 0 is full. -/
def jammed (s : State) : State := { s with clusters := [(0, { jobs := List.replicate 16 ⟨1, 1, .cp, 1⟩ })] }
/-- 128 bytes of 32-bit sums at 0x300 are region 1, held by the handles given; those of core 0 are in UPDATE on it. -/
def shared (l : List (CoreId × HReg)) : State :=
  { descs with regions := [(1, { region1 with handles := l })], nextOp := 7
               cores := [(0, { engines with s := [(8, 0x300), (7, 0x280), (9, 0x380), (10, 128), (11, 256)]
                                            h := (l.filter (·.1 == 0)).map fun x => (x.2.toNat, { st := .update, region := some 1 }) })] }

theorem witness_StreamsAreUnbound : Meets (streaming 0) [.hunb c0 4] ∧ Meets (streaming 1) [.hunb c0 4] ∧
    ∀ n < 2, let s := streaming n
      let u := s.opComplete streamOp 0 0xFF 0
      ((s.core 0).handle 4).st = .stream ∧
      (s.opsOf (s.core 0).inst).find? (fun o => o.core == 0 && o.kind == .stream 4) = some streamOp ∧ u.opsOf (u.core 0).inst = [] ∧
      ((u.core 0).handle 4).st = .stream ∧ (((u.core 0).handle 4).p = ((u.core 0).handle 4).q) ∧
      (n = 0 → ((u.core 0).handle 4).c = ((u.core 0).handle 4).d) ∧ (n = 1 → ((u.core 0).handle 4).c ≠ ((u.core 0).handle 4).d) := by
  refine ⟨meets_all (by decide +kernel), meets_all (by decide +kernel), ?_⟩
  decide +kernel

theorem witness_JobsWait : Meets (jammed descs) [.mjob c0 3 1, .cpy c0 3 8 5 10, .cpyt c0 3 6, .cthr c0 3 7] ∧
    16 ≤ ((jammed descs).cluster (clusterOf 0)).queued ∧ ((jammed descs).matrixFail 0 false (mdOf 0)).isNone = true ∧
    ((jammed descs).rangesFail 0 [(accRead, 0x200, 64), (accWrite, 0x300, 64)]).isNone = true :=
  ⟨meets_all (by decide +kernel), by decide +kernel, by decide +kernel, by decide +kernel⟩

theorem witness_RegionsAreJoined :
    (∀ l ∈ [[], [(1, 4)], [(0, 3)], [(1, 4), (0, 3)]], meets? (shared l) (.ureg c0 3 8 10 0) = true) ∧
    Meets (shared [(1, 4)]) [.ureg c0 3 9 10 0, .ureg c0 3 8 11 0, .ureg c0 3 8 10 4, .ureg c0 3 8 10 40, .ureg c0 3 10 10 0] ∧
    (let s := shared [(1, 4)]
     (∀ x ∈ s.regions, x.2.handles ≠ []) ∧ (3 : HReg).toNat < (s.core 0).grants.handles ∧ UpdOp.ofCode 0 = some .addI32 ∧
      UpdOp.ofCode 40 = none ∧ ((s.core 0).handle 3).st = .unbound ∧ (s.regionFail 0 0x300 128).isNone = true ∧
      (s.regionFail 0 0x380 128).isNone = true ∧ (s.regionFail 0 0x300 256).isNone = true ∧
      s.regions = [(1, { region1 with handles := [(1, 4)] })] ∧ region1.base = 0x300 ∧ region1.len = 128 ∧ region1.op = .addI32) ∧
    (let s : State := { shared [] with flight := [⟨0, 1, 0x300, 1, 0, 5, 0⟩] }
     (∀ x ∈ s.regions, x.2.handles ≠ [] ∨ 0 < s.pendingOf x.1) ∧ (s.regions.all fun x => x.2.handles.isEmpty) = true) ∧
    (((shared [(1, 4), (0, 3)]).core 0).handle 3).st = .update ∧ (((shared [(0, 3)]).core 0).handle 3).st = .update := by
  refine ⟨by decide +kernel, meets_all (by decide +kernel), by decide +kernel, by decide +kernel, by decide +kernel⟩

theorem witness_PairsWaitAndOverflow : Meets (updating false 0) [.upd c0 3 0 (.imm 65), .updv c0 3 1 2 none] ∧
    Meets (updating false 256) [.updv c0 3 1 2 none] ∧
    (let s := (updating true 256).modCore 0 fun q => { q with upd := List.replicate 4096 pair0 }
     Meets s [.upd c0 3 0 (.imm 65)] ∧ (s.core 0).upd.length + 1 = 4097) ∧
    ((updating false 256).core 0).stores = [] ∧ ((updating false 0).core 0).credits < 1 :=
  ⟨meets_all (by decide +kernel), meets_all (by decide +kernel), ⟨meets_all (by decide +kernel), by decide +kernel⟩, by decide +kernel, by decide +kernel⟩

/-- The limit of puts and flags is reached. -/
def putsFull : State :=
  { ringed with ops := List.replicate 256 { core := 0, ctx := 0, inst := 0, tl := .rg, n := 1, kind := .put 1 0 0 32 } }
theorem witness_PutsWait : Meets putsFull [.rput c0 3 (.imm 65) 5 5 (.s 9), .rflag c0 3 (.imm 65) 5 (.imm 65), .rfence c0 3] ∧
    256 ≤ (putsFull.putsOf 0).length ∧ putsFull.putsOf 0 ≠ [] ∧
    Meets ringed [.rput c0 3 (.imm 79) 5 5 (.s 9), .rsend c0 3 0 9, .rrecv c0 3 0 9, .rsend c0 3 1 1, .rput c0 3 (.imm 65) 5 5 (.s 11)] ∧
    ringed.ring.chans.find 9 = none ∧ (∀ p ∈ [2, 3], (ringed.link p).up = false ∧ (ringed.link p).training = false) ∧ ringed.orphans = [] ∧
    ¬ (15 < ringed.ring.n) ∧ ringed.ring.chans.find 1 = some ⟨0, 0, 0, 0, true, true⟩ :=
  ⟨meets_all (by decide +kernel), by decide +kernel, by decide +kernel, meets_all (by decide +kernel), by decide +kernel,
    by decide +kernel, by decide +kernel, by decide +kernel, by decide +kernel⟩

/-- A convoy of eight that shares barrier 3 at cluster level. -/
def meeting : State := paged ((List.range 8).map fun c =>
  (c, { busy with convoy := true, bars := [(3, { mem := 0xA000 })], s := [(9, 32)] }))
theorem witness_BarriersInTurns : TakenInTurns meeting (.bara c0 1 3) (fun m s t => let q := s.core m
      let x := q.bar 3
      memOn x.mem = true ∧ x.st = .idle ∧ (2 ≤ (t.seats m 3).length) ∧
      t = { s.modCore m (fun q => q.setBar 3 { x with
              st := .arrived, arr := some (.plain false), upto := q.issue, fault := none, owed := false, mark := none, drained := false }) with
            probes := s.probes.set (s.domainKey m 3) { s.probes.get (s.domainKey m 3) {} with passes := 0 } }) ∧
    memLevel (((meeting).core 0).bar 3).mem ≠ 5 ∧ (∃ m ∈ meeting.convoyOf 0, (meeting.core m).convoy = true) :=
  ⟨taken_in_turns (fun m s => memOn ((s.core m).bar 3).mem && ((s.core m).bar 3).st == .idle &&
        decide (2 ≤ (State.seats { s.modCore m (fun q => q.setBar 3 { q.bar 3 with
          st := .arrived, arr := some (.plain false), upto := q.issue, fault := none, owed := false, mark := none, drained := false }) with
            probes := s.probes.set (s.domainKey m 3) { s.probes.get (s.domainKey m 3) {} with passes := 0 } } m 3).length))
      (fun m s => { s.modCore m (fun q => q.setBar 3 { q.bar 3 with
          st := .arrived, arr := some (.plain false), upto := q.issue, fault := none, owed := false, mark := none, drained := false }) with
            probes := s.probes.set (s.domainKey m 3) { s.probes.get (s.domainKey m 3) {} with passes := 0 } })
      (by decide +kernel)
      (fun m s h => by
        simp only [Bool.and_eq_true, beq_iff_eq, decide_eq_true_eq] at h
        exact ⟨h.1.1, h.1.2, h.2, rfl⟩)
      (by decide +kernel),
    by decide +kernel, by decide +kernel⟩

theorem witness_TaskputInTurns : TakenInTurns members (.taskput c0 1 (.imm 65) 5 (.imm 64)) fun m s t => let q := s.core m
    let die := s.die (dieOf m)
    q.idem = false ∧ (q.rs 5).toNat % 8 = 0 ∧ ¬ 65536 ≤ die.pq.length ∧ t = ({ s with dies := s.dies.set (dieOf m) { die with
        pushes := die.pushes + 1
        pq := die.pq ++ [⟨q.ctxNum, ((.imm 65 : SImm).val q).setWidth 32, q.rs 5, (.imm 64 : SImm).val q, 0, die.pushes⟩] } } : State).modCore m
          fun q => q.wp 1 true :=
  taken_in_turns (fun m s => !(s.core m).idem && ((s.core m).rs 5).toNat % 8 == 0 && !decide (65536 ≤ (s.die (dieOf m)).pq.length))
    (fun m s => let die := s.die (dieOf m)
      let q := s.core m
      ({ s with dies := s.dies.set (dieOf m) { die with
        pushes := die.pushes + 1
        pq := die.pq ++ [⟨q.ctxNum, ((.imm 65 : SImm).val q).setWidth 32, q.rs 5, (.imm 64 : SImm).val q, 0, die.pushes⟩] } } : State).modCore m
          fun q => q.wp 1 true)
    (by decide +kernel)
    (fun m s h => by
      simp only [Bool.and_eq_true, beq_iff_eq, Bool.not_eq_true', decide_eq_false_iff_not] at h
      exact ⟨h.1.1, h.1.2, h.2, rfl⟩)
    (by decide +kernel)

/-- Headers at 0x400: opening a block, with the uniform flag, with reconvergence at a header and at none, with LEN 0, KIND 5,
flag 4; then a zero word and one header more. -/
def headersAt : List Word := [0xFF02000000000000, 0xFF02000000000001, 0xFF02000000600000, 0xFF02000000400000, 0xFF00000000000000,
  0xFF01000000000500, 0xFF01000000000004, 0, 0xFF01000000000000]
/-- Core 0 before the `k`-th of these, alone or with its convoy, as `g` says, at its turn. -/
def before (k n : Nat) (g : Core → Core) : State :=
  let s := paged ((List.range n).map fun c => (c, g { busy with pc := BitVec.ofNat 64 (0x400 + 8 * k), pos := .header .jump, convoy := decide (1 < n) }))
  { s with mem := headersAt.zipIdx.foldl (fun m (w, i) => m.write (24576 + 0x400 + 8 * i) (leBytes 8 w.toNat)) s.mem, agenda := [.core 0] }

theorem witness_BlockHeadersAreEntered :
    (∀ k ∈ [0, 1, 2, 3, 4, 5, 6, 8], ∀ n ∈ [1, 8], let s := before k n id
     let u : State := { s.tickOver with agenda := [] }
     s.agenda = [.core 0] ∧ u.fetch 0 false (u.core 0).pc = .word (headersAt.getD k 0) ∧ isHeader (headersAt.getD k 0) = true ∧
      (∀ m ∈ u.convoyOf 0, (u.core m).running = true) ∧ u.stands 0 = false ∧ (u.core 0).convoy = decide (1 < n)) ∧
    (let s := before 7 1 id
     let u : State := { s.tickOver with agenda := [] }
     u.fetch 0 false 0x438 = .word 0 ∧ isHeader 0 = false) ∧
    (let s := before 0 1 fun q => { q with pos := .word }
     let u : State := { s.tickOver with agenda := [] }
     u.fetch 0 false 0x400 = .word 0xFF02000000000000 ∧ u.groupReq (u.groupOf 0) = none ∧ (u.core 0).uiReady = false ∧
      ∀ m ∈ u.convoyOf 0, (u.core m).due = [] ∧ (u.core m).debugReq = false ∧ (u.core m).waitPage = none) ∧
    (headerOf 0xFF02000000600000).rcv = 6 ∧ (headerOf 0xFF02000000400000).rcv = 4 ∧ (headerOf 0xFF00000000000000).len = 0 ∧
    (let v := before 2 8 id
     v.fetch 0 false 0x440 = .word 0xFF01000000000000 ∧ v.fetch 0 false 0x438 = .word 0) ∧
    (∀ parked, let s := before 8 8 fun q => { q with convoy := false, rejoin := some 0x440, parked := parked }
     let s := s.modCore 0 fun q => { q with parked := false }
     let u : State := { s.tickOver with agenda := [] }
     (u.core 0).running = true ∧ (u.core 0).rejoin = some (u.core 0).pc ∧ (u.core 0).convoy = false ∧
      (∀ m ∈ List.range 8, (u.core m).work.isSome = true ∧ (u.core m).ended = none) ∧ (u.core 1).parked = parked) := by
  refine ⟨by decide +kernel, by decide +kernel, by decide +kernel, by decide +kernel, by decide +kernel, by decide +kernel,
    by decide +kernel, fun b => ?_⟩
  cases b <;> decide +kernel

/-- A page whose context has the trap vector given, and a core on it. -/
def vectored (v : Word) (q : Core) : State :=
  let s := paged [(0, q)]
  { s with ctxs := s.ctxs.mapVals fun _ x => { x with vec := v }, launches := (graph .running busy).launches.map fun l => { l with img := s.mem } }
/-- A die queue of one entry with the target given. -/
def queued (entry : Word) : State := { code with dies := [(0, { pq := [⟨0, 5, entry, 11, 0, 0⟩], pushes := 1 })] }

theorem witness_TrapsEndTheWork :
    (vectored 0 (task false)).vector (task false) = 0 ∧ ((vectored 0 (task false)).core 0).inHandler = false ∧
    (let s := vectored 0x100 (task false)
     s.vector (s.core 0) = 0x100 ∧ s.fetch 0 true 0x100 = .word 0xFF01000000000000 ∧ (headerOf 0xFF01000000000000).kind = 0) ∧
    ((vectored 0x110 { task false with inHandler := true }).core 0).inHandler = true ∧
    (let s := vectored 0x110 (task false)
     (s.core 0).work = some ⟨0, 0, some 0, false, false⟩ ∧ (s.node? 0 0 0).isSome = true ∧ ∀ m ∈ s.membersOf 0, (s.core m).req ≠ some .kill) ∧
    (let s : State := { vectored 0x110 busy with
       launches := [{ ctx := 0, id := 0, grants := allGrants, near := 0, scratch := 0, nodes := [], persist := some (0x110, 0, 1, 5), started := true }] }
     (s.core 0).work = some ⟨0, 0, none, false, false⟩ ∧ (s.launch? 0 0).isSome = true) := by decide +kernel

theorem witness_DeferredTrapsEnd :
    (let s := (handling 0).modCore 0 fun q => { q with deferredTrap := true }
     Meets s [.eret c0 .retry, .eret c0 .next] ∧ (s.core 0).priv = true ∧ (s.core 0).deferredTrap = true) ∧
    (let s := (List.range 8).foldl (fun s m => s.modCore m fun q => { q with deferredTrap := true }) handlings
     Leads s [.eret c0 .retry, .eret c0 .next] ∧ s.convoyOf 0 = List.range 7 ++ [7] ∧
      ∀ k ∈ s.convoyOf 0, (s.core k).convoy = true ∧ (s.core k).priv = true ∧ (s.core k).deferredTrap = true) :=
  ⟨⟨meets_all (by decide +kernel), by decide +kernel, by decide +kernel⟩, leads_all (by decide +kernel), by decide +kernel, by decide +kernel⟩

theorem witness_EntriesWithBadTargets : Meets (queued 0x110) [.taskget c0 1 2 3 .poll] ∧ Meets (queued 0x114) [.taskget c0 1 2 3 .wait] ∧
    (pqPop ((queued 0x110).die 0).pq 0).map (fun x => (x.1.entry, x.2)) = some (0x110, []) ∧ ((queued 0x110).core 0).idem = false ∧
    (queued 0x110).busyVector [0] = none ∧
    (((queued 0x110).core 0).loads = [] ∧ ((queued 0x110).core 0).stores = [] ∧ ((queued 0x110).core 0).due = []) ∧
    (queued 0x110).fetch 0 false 0x110 = .word 0xFF01000000000200 ∧ (0x114 : Word).toNat % 8 = 4 ∧
    Leads code [.brc c0 (.s 0) .eqz 33] ∧ CondZ.holds .eqz 0 = true :=
  ⟨meets_all (by decide +kernel), meets_all (by decide +kernel), by decide +kernel, by decide +kernel, by decide +kernel,
    by decide +kernel, by decide +kernel, by decide, leads_all (by decide +kernel), by decide⟩

/-- Entries of context 0: the oldest has been passed over 31 times, and heads the list by skip count. -/
def queueDue : List PqEntry := [⟨0, 9, 0x118, 11, 31, 0⟩, ⟨0, 5, 0x118, 12, 30, 1⟩, ⟨1, 1, 0x118, 13, 0, 2⟩, ⟨0, 2, 0x118, 14, 0, 3⟩]
/-- More than 32 entries. -/
def queueLong : List PqEntry := (List.range 33).map fun i => ⟨0, BitVec.ofNat 32 (40 - i), 0x118, 0, if i = 1 then 31 else 0, i⟩
theorem witness_PopsAreBounded : (queueDue.map (·.push)).Nodup ∧ (queueLong.map (·.push)).Nodup ∧
    (pqPop queueDue 0).map (·.1.push) = some 0 ∧ (pqPop queueLong 0).map (·.1.push) = some 1 ∧
    (queueLong.filter (·.ctx == 0)).length = 33 ∧ (∀ y ∈ queueLong, y.push < 33) := by decide +kernel

/-- A convoy of a gang's eight cores; of core 7 the end is as given. -/
def ganged (e : Option Ended) : State :=
  { paged ((List.range 8).map fun c => (c, { busy with
      convoy := decide (c < 7), work := some ⟨0, 0, some 0, false, true⟩, ended := if c = 7 then e else none })) with
    orders := 9
    launches := [{ ctx := 0, id := 0, grants := allGrants, near := 0, scratch := 0, started := true
                   nodes := [{ entry := 0x118, gang := true, idem := false, arg := 0, outs := [], wouts := [],
                               after := [], prio := 0, st := .running, core := some 0 }] }] }
/-- The eight cores of a persistent program. -/
def persisting (convoy : Bool) : State :=
  { paged ((List.range 8).map fun c => (c, { busy with convoy := convoy })) with
    launches := [{ ctx := 0, id := 0, grants := allGrants, near := 0, scratch := 0, nodes := [], persist := some (0x110, 0, 1, 5), started := true }] }

theorem witness_GangsAndPersistentWorkEnd :
    (∀ e ∈ [none, some .taskEnd, some (.taskAb 7 3)], leads? (ganged e) (.taskend c0) = true ∧
      leads? (ganged e) (.taskab c0 (.imm 69)) = true ∧ ((ganged e).core 7).ended = e ∧ (ganged e).membersOf 0 = List.range 8 ∧
      ∀ m ∈ (ganged e).convoyOf 0, ((ganged e).core m).quiet = true) ∧
    (let s := ganged (some (.taskAb 7 3))
     let u := ((s.convoyOf 0).foldl (fun s m => s.modCore m fun x => { x with ended := some .taskEnd }) s).rejoinConvoy 0
     (∀ k ∈ List.range 8, (u.core k).ended ≠ none) ∧ (u.core 7).ended = some (.taskAb 7 3) ∧ (u.finishMembers (List.range 8)).isSome = true) ∧
    (∀ b, leads? (persisting b) (.taskend c0) = true ∧ leads? (persisting b) (.taskab c0 (.imm 69)) = true ∧
      ((persisting b).core 0).work = some ⟨0, 0, none, false, false⟩) ∧
    (let s := (persisting false).modCore 3 fun q => { q with ended := some .taskEnd }
     (s.cores.filter fun (_, q) => (q.work.any fun w => w.ctx == 0 && w.launch == 0 && w.node == none) && q.ended == some .taskEnd).map (·.1) = [3] ∧
      (s.finishCore 3).isSome = true) := by decide +kernel

theorem witness_MarkedWritesAtHome :
    (let w : HomeWrite := { core := some 1, home := 3, cells := [(24832, 1)], mark := some true }
     let s : State := { sliced with homeQ := [w] }
     (({ s with homeQ := [] } : State).homeWriteNow w.core w.home w.cells w.via).isSome = true ∧ s.tiered (128 * 194) = false) ∧
    (let line := 2 ^ 40 / 128
     let w : HomeWrite := { core := none, home := 3, cells := [(2 ^ 40, 1)], mark := some false }
     let s : State := { sliced with homeQ := [w] }
     s.tiered (128 * line) = true ∧ (∀ y ∈ ([] : List HomeWrite), y.cells.any (·.1 / 128 == line) = false) ∧
      ({ sliced with persist := [(2 ^ 41, 2 ^ 20)] } : State).tiered (2 ^ 41) = false) := by decide +kernel

theorem witness_BatchesAndSends :
    (let b : List Pair := [⟨0, 1, 0x308, 0, 2, 5, 2⟩, ⟨0, 1, 0x300, 0, 1, 5, 1⟩, ⟨0, 1, 0x300, 0, 0, 5, 0⟩]
     let s : State := { updating false 255 with sorters := [(2, { batch := b })] }
     (s.sorter 2).batch = b ∧ (sortPairs b).map (·.num) = [0, 1, 2] ∧
      ((sortPairs b ++ []).foldlM (fun (u : State) p => u.binPair 2 p) (s.setSorter 2 { s.sorter 2 with batch := [] })).isSome = true) ∧
    (let o : EngOp := { core := 0, ctx := 0, inst := 0, tl := .rg, n := 1, kind := .send 0 0 1 0 2, sent := [⟨0, 0, [], []⟩] }
     let s : State := { ringed with ops := [o], ring := { ringed.ring with links := [(2, { up := true, lanes := 16 })] } }
     s.opNamed 0 .rg 1 = some o ∧ (∃ p ∈ portPaths 0, (s.link p).up = true) ∧ o.acked < o.sent.length ∧
      ∀ p ∈ portPaths 1, (s.link p).up = false) := by decide +kernel

/-- A gang that heads its cluster's pool, with the cluster reserved for it. -/
def waitingGang : State :=
  let s := waitingNode
  { s with launches := s.launches.map fun l => { l with nodes := l.nodes.map fun x => { x with gang := true } } }
theorem witness_NodesBegin : (waitingNode.markHeads.ctxs.find 0).isSome = true ∧ (waitingGang.markHeads.ctxs.find 0).isSome = true ∧
    (let t := waitingGang.markHeads
     (t.launch? 0 0).isSome = true ∧ (t.node? 0 0 0).any (fun x => x.gang && t.reservation (t.nodeCluster 0 x) == some (0, 0, 0) &&
        !t.persistHolds (t.nodeCluster 0 x) && (clusterCores (t.nodeCluster 0 x)).all fun c => t.idleFor 0 0 0 c) = true) := by decide +kernel

/-- A saved gang of two cores' records, resumed, and a saved task that has issued on mx. -/
def savedRec (c : CoreId) (gang : Bool) (clus : Option Cluster) : SavedRec :=
  { ctx := 0, core := c, work := ⟨0, 0, some 0, false, gang⟩, inst := 1, snap := busy, image := 0, imageLen := 0, clus := clus, arrivals := [],
    gangs := [], engWrote := [], resumed := true }
theorem witness_GroupsComeBack :
    (let s : State := { ctxs := [(0, ctx1)], saved := (List.range 8).map fun c => savedRec (8 + c) true (some {}) }
     let r := savedRec 8 true (some {})
     let g := s.saved.filter fun y => y.ctx == 0 && y.inst == r.inst && y.group == r.group
     s.saved.find? (fun y => y.ctx == 0 && y.core == 8 && y.resumed) = some r ∧ (g.map (·.core)).Nodup ∧ g.length = 8 ∧
      (s.cluster (clusterOf 8)).order = [] ∧
      (∀ y ∈ g, (s.core y.core).work = none ∧ (s.core y.core).heldFor = none ∧ s.splitFits y.core ctx1.split = true) ∧
      (∀ z ∈ g, ∀ b ∈ (s.tile (tileOf z.core)).l1, b.2.dirty = 0)) ∧
    (let s : State := { ctxs := [(0, ctx1)], saved := [savedRec 0 false (some {})] }
     let r := savedRec 0 false (some {})
     s.saved.find? (fun y => y.ctx == 0 && y.core == 0 && y.resumed) = some r ∧ ¬ (8 = (0 : Nat) ∨ r.clus = none)) ∧
    (let s : State := { graph .running busy with cores := [], ctxs := [(0, ctx1)], saved := [savedRec 0 false none] }
     (s.node? 0 0 0).isSome = true ∧ s.reservedFor (clusterOf 16) = false ∧ inCluster 16 = inCluster 0 ∧ s.splitFits 16 ctx1.split = true) := by
  decide +kernel

theorem witness_DutiesAndTelemetry :
    (let s := one busy
     let demands : List (Nat × Nat) := [(3, 5)]
     (((demands.find? (·.1 == 0)).map (·.2)).getD 0) = 0 ∧ ((s.core 0).work.isSome && (s.core 0).pre == .run) = true) ∧
    (let s : State := { cfg := { placed := true, telSize := 32, telBase := 4096 } }
     32 ≤ s.cfg.telSize ∧ s.cfg.placed = true) := by decide +kernel

theorem witness_HostRecordsThatAreRejected :
    (let s : State := {}
     s.paNum 0 8 % 4096 = 0 ∧ s.paNum 0x18 8 = 0 ∧ s.extentsOf 8192 0 = [] ∧ extentsTotal (s.extentsOf 8192 0) < ckptBytes) ∧
    (({ mem := [(0x160, 1)] } : State).paRead 0x160 0xEA0).any (· != 0) = true ∧ ({ mem := [(0x18, 1)] } : State).paNum 0x18 8 ≠ 0 ∧
    ({ mem := [(0, 1)] } : State).paNum 0 8 % 4096 ≠ 0 ∧ (({ mem := [(0x200, 1)] } : State).paRead 0x200 0xE00).any (· != 0) = true ∧
    (let s : State := { mem := [(8197, 2), (8205, 16)] }
     ∃ x ∈ s.extentsOf 8192 1, s.goodExtent x.1 x.2 = false) ∧
    (let s : State := { mem := [(8201, 16)] }
     (∀ x ∈ s.extentsOf 8192 1, s.goodExtent x.1 x.2 = true) ∧ extentsTotal (s.extentsOf 8192 1) < ckptBytes) ∧
    (descs.debugOk 0 0 ((descs.ctxs.get 0 ctx1).gen) = true ∧ (descs.core 0).debug = false) ∧ (0x41 : Nat) % 8 ≠ 0 := by decide +kernel

/-- A pair of a region that is flushed has to be applied, and its page is being migrated. -/
def held1 : State := { flushed with migrations := [mig0] }
theorem witness_AppliesThatWait : held1.applyWhere (·.ctx == 0) = none ∧ flushed.applyWhere (fun _ => false) ≠ none ∧
    Meets held1 [.ld c0 3 8 .i64 0] ∧ held1.checkAccess 0 accRead [⟨0x300, 8, 8⟩] = none ∧
    (let u := held1.resolve 0 false 0 (runBytes 0x300 8)
     u.2.lanes ≠ [] ∧ (u.1.core 0).loadsMeet u.2 = false ∧ u.1.readWhere 0 0 u.2 = none) :=
  ⟨by decide +kernel, by decide +kernel, meets_all (by decide +kernel), by decide +kernel, by decide +kernel⟩

theorem witness_FlushesThatTrap : Meets (pages busy) [.fll c0 10 .clean 0, .fll c0 5 .cleaninv 0] ∧
    ((pages busy).core 0).place 0x00FF000000080000 = none ∧ ((pages busy).core 0).place 0x3000 = some (.glob 0x3000 false) ∧
    (((pages busy).look 0 0 0x3000).toOption.any fun y =>
      !(pages busy).viewBad (y.key 0x3000) && !((pages busy).core 0).mayUse true y.leaf) = true :=
  ⟨meets_all (by decide +kernel), by decide +kernel, by decide +kernel, by decide +kernel⟩

theorem witness_PhaseWordsTrap :
    (let b : Bar := { mem := 0xC000 }
     let s := one { busy with bars := [(3, b)] }
     Meets s [.vpmrg c0 2 1 3] ∧ memOn b.mem = true ∧ 2 < memLevel b.mem) ∧
    (let b : Bar := { mem := 0xD000 }
     let s := one { busy with bars := [(3, b)] }
     Meets s [.ecsum c0 1 .keep 3] ∧ memOn b.mem = true ∧ memLevel b.mem = 5 ∧
      s.putsOpen 0 = false) ∧
    (pair2 (over8 (some 10) (.merge 2 false 5)) {} true).busyVector [0] = none :=
  ⟨⟨meets_all (by decide +kernel), by decide +kernel, by decide +kernel⟩,
    ⟨meets_all (by decide +kernel), by decide +kernel, by decide +kernel, by decide +kernel⟩, by decide +kernel⟩

theorem witness_LateOperations :
    let o : ScOp := { kind := .load, d := 3, t := .i64, pa := 24832, home := 3, va := 0x100, v := 0, pc := 8, blk := 0, late := 2 }
    let s := paged [(0, { busy with sc := some o })]
    (s.scPerform (List.range 512)).any (fun t => (t.core 0).sc.any fun x => x.late == 1 && x.performed.isNone) = true ∧
      ({ o with performed := some 5 } : ScOp).performed.isSome = true ∧
      (paged [(0, { busy with sc := some { o with performed := some 5 } })]).cores.isEmpty = false := by decide +kernel

end Sys2Proof.Tests
end

/-! Proofs of O57: what one step does that begins with a core's boundary or an event. The ranks of R238 come in three
layers: the convoy that a boundary speaks of, the ranks above the word, and the word itself. -/
namespace Sys2Proof.Machine

/-! ## The convoy of a member is the convoy -/

theorem mem_clusterCores {m cl : Nat} : m ∈ clusterCores cl ↔ clusterOf m = cl := by
  simp only [clusterCores, rangeFrom, List.mem_map, List.mem_range, clusterOf]
  constructor
  · rintro ⟨i, hi, rfl⟩
    omega
  · intro h
    exact ⟨m % 8, by omega, by omega⟩

theorem self_mem_convoyOf (s : State) (c : CoreId) : c ∈ s.convoyOf c := by
  unfold State.convoyOf
  split
  next h => exact List.mem_filter.mpr ⟨mem_clusterCores.mpr rfl, h⟩
  next => exact List.mem_singleton_self c

theorem headD_mem_convoyOf (s : State) (c : CoreId) : (s.convoyOf c).headD c ∈ s.convoyOf c := by
  cases h : s.convoyOf c with
  | nil => exact absurd (self_mem_convoyOf s c) (by simp [h])
  | cons m ms => exact List.mem_cons_self

theorem convoyOf_member {s : State} {c m : CoreId} (h : m ∈ s.convoyOf c) : s.convoyOf m = s.convoyOf c := by
  cases hc : (s.core c).convoy with
  | false =>
    rw [convoyOf_alone s c hc, List.mem_singleton] at h
    rw [h]
  | true =>
    simp only [State.convoyOf, hc, if_true, List.mem_filter, mem_clusterCores] at h
    obtain ⟨hcl, hm⟩ := h
    simp only [State.convoyOf, hc, hm, hcl, if_true]

/-- The leader's convoy is that of every member: the traps of its word are taken by all of them (R237). -/
theorem convoyOf_leader (s : State) (c : CoreId) : s.convoyOf ((s.convoyOf c).headD c) = s.convoyOf c :=
  convoyOf_member (headD_mem_convoyOf s c)

/-! ## The ranks above the word (R238) -/

/-- Rank 2 has nothing to take when no member has a deferred trap. -/
theorem takeDue_of_none_due {s : State} {ms : List CoreId} (h : ∀ m ∈ ms, (s.core m).due = []) : s.takeDue ms = none := by
  refine List.findSome?_eq_none_iff.mpr fun m hm => ?_
  rw [h m hm]

/-- No halt of the debugger's is pending when no member has been asked for one. -/
theorem debugHalt_of_none_asked {s : State} {ms : List CoreId} (h : ∀ m ∈ ms, (s.core m).debugReq = false) :
    s.debugHalt ms = none := by
  have hf : (ms.find? fun m => (s.core m).debugReq) = none := List.find?_eq_none.mpr fun m hm => by simp [h m hm]
  rw [State.debugHalt, hf]

/-- A core before a word stands, so that no header of its is entered ahead of the ranks. -/
theorem stands_before_word {s : State} {c : CoreId} (h : (s.core c).pos = .word) : s.stands c = true := by
  simp [State.stands, h]

theorem Core.pos_of_issuing {q : Core} (h : q.issuing = true) : q.pos = .word := by
  simp only [Core.issuing, Bool.and_eq_true, beq_iff_eq] at h
  exact h.2

/-- A boundary before a word at which nothing of a higher rank is pending waits for an awaited page, and otherwise runs
the word when the leader issues. -/
theorem coreStep_at_word {s : State} {c l : CoreId} (hl : (s.convoyOf c).headD c = l)
    (hreq : s.groupReq (s.groupOf l) = none) (hui : (s.core l).uiReady = false) (hpos : (s.core l).pos = .word)
    (hms : ∀ m ∈ s.convoyOf c, (s.core m).running = true ∧ (s.core m).due = [] ∧ (s.core m).debugReq = false) :
    s.coreStep c =
      if (s.convoyOf c).any fun m => (s.core m).waitPage.isSome then .next s
      else if (s.core l).issuing then s.noteWait (s.convoyOf c) (s.coreWord l)
      else .next s := by
  have hready : ((s.convoyOf c).all fun m => (s.core m).running) = true := List.all_eq_true.mpr fun m hm => (hms m hm).1
  have hdue : s.takeDue (s.convoyOf c) = none := takeDue_of_none_due fun m hm => (hms m hm).2.1
  have hdbg : s.debugHalt (s.convoyOf c) = none := debugHalt_of_none_asked fun m hm => (hms m hm).2.2
  simp only [State.coreStep, hl, hreq, hpos, hready, stands_before_word hpos, hdue, hui, hdbg, Bool.not_true,
    Bool.and_false, Bool.false_and, Bool.false_eq_true, if_false]

/-- With no page awaited either, the boundary of a convoy whose leader issues is its word. -/
theorem coreStep_runs_word {s : State} {c l : CoreId} (hl : (s.convoyOf c).headD c = l)
    (hreq : s.groupReq (s.groupOf l) = none) (hui : (s.core l).uiReady = false) (hiss : (s.core l).issuing = true)
    (hms : ∀ m ∈ s.convoyOf c, (s.core m).running = true ∧ (s.core m).due = [] ∧ (s.core m).debugReq = false ∧
      (s.core m).waitPage = none) :
    s.coreStep c = s.noteWait (s.convoyOf c) (s.coreWord l) := by
  have hquiet : ∀ m ∈ s.convoyOf c, (s.core m).running = true ∧ (s.core m).due = [] ∧ (s.core m).debugReq = false := by
    intro m hm
    obtain ⟨hrun, hdue, hdbg, -⟩ := hms m hm
    exact ⟨hrun, hdue, hdbg⟩
  have hpage : ((s.convoyOf c).any fun m => (s.core m).waitPage.isSome) = false := by
    refine List.any_eq_false.mpr fun m hm => ?_
    obtain ⟨-, -, -, hwait⟩ := hms m hm
    simp [hwait]
  rw [coreStep_at_word hl hreq hui (Core.pos_of_issuing hiss) hquiet, hpage, hiss, if_neg Bool.false_ne_true, if_pos rfl]

/-! ## The word at a program counter -/

/-- A word that passes the checks of its mode, or that has no row to be checked by, is executed as decodeIn reads it. -/
theorem coreWord_executes {s : State} {l : CoreId} {w : Word} {i : Instr}
    (hw : s.fetch l (s.core l).priv (s.core l).pc = .word w) (hh : isHeader w = false)
    (hc : checkMode (s.core l).share (unpack w) = none ∨ (opRow (unpack w).op.toNat).isNone = true)
    (hd : decodeIn (s.core l).share w = .ok i) :
    s.coreWord l = exec i { s.fetchUse l (s.core l).pc with cur := l } := by
  have hbad : (if (opRow (unpack w).op.toNat).isSome then checkMode (s.core l).share (unpack w) else none) = none := by
    rcases hc with hc | hc
    · rw [hc, ite_self]
    · rw [Option.isNone_iff_eq_none.mp hc]
      rfl
  simp only [State.coreWord, hw, hh, hbad, hd, Bool.false_eq_true, if_false]

/-- A word of an assigned opcode that a check of its mode rejects traps ILLEGAL_OP with the check's subcode and place. -/
theorem coreWord_rejects {s : State} {l : CoreId} {w : Word} {e : Illegal}
    (hw : s.fetch l (s.core l).priv (s.core l).pc = .word w) (hh : isHeader w = false)
    (hrow : (opRow (unpack w).op.toNat).isSome = true) (hc : checkMode (s.core l).share (unpack w) = some e) :
    s.coreWord l = .next (({ s.fetchUse l (s.core l).pc with cur := l } : State).preciseTrap (s.convoyOf l) l .illegalOp
      (illegalInfo e) (s.core l).pc (s.core l).blk) := by
  simp only [State.coreWord, hw, hh, hrow, hc, Bool.false_eq_true, if_false, if_true]

/-! ## The moves of a step -/

theorem step_event {s : State} {i : Instr} {r : List Move} (h : s.agenda = .ev i :: r) :
    step s = ({ s.tickOver with agenda := r } : State).unlessFull (exec i { s.tickOver with agenda := r }) := by
  rw [step, h]
  rfl

theorem step_core {s : State} {c : CoreId} {r : List Move} (h : s.agenda = .core c :: r) (hc : c < 512) :
    step s = ({ s.tickOver with agenda := r } : State).unlessFull (State.coreStep { s.tickOver with agenda := r } c) := by
  rw [step, h]
  exact if_neg (Nat.not_le.mpr hc)

/-- A next state that writes no record past a full backlog is not held up (R403). -/
theorem unlessFull_next {s x : State} (h : x.backlog.length ≤ backlogCap ∨ x.backlog.length ≤ s.backlog.length) :
    s.unlessFull (.next x) = .next x := by
  refine if_neg fun hfull => ?_
  simp only [Bool.and_eq_true, decide_eq_true_eq] at hfull
  omega

/-- Settles O57: the boundary of the step is that of `coreStep_runs_word`, and its word's outcome that of
`coreWord_executes` or `coreWord_rejects`, in the leader's name for the whole convoy. -/
theorem stepRunsTheWord : Obligations.StepRunsTheWord := by
  intro s r u
  refine ⟨fun i h => step_event h, fun x hx => unlessFull_next hx, ?_⟩
  intro c h hc ms l q hreq hui hiss hms w hw hh v row
  have hstep : step s = u.unlessFull (u.noteWait ms (u.coreWord l)) := by
    rw [step_core h hc, coreStep_runs_word rfl hreq hui hiss hms]
  constructor
  · intro i hcheck hdec
    rw [hstep, coreWord_executes hw hh hcheck hdec]
  · intro e hrow hcheck
    rw [hstep, coreWord_rejects hw hh hrow hcheck, convoyOf_leader]

end Sys2Proof.Machine

/-! Proofs of O1 to O5: words whose whole effect is on the registers of each core that runs them. Each such word
runs by `runCore`, so its completion is `runCore_each`, and what is left to prove is that the model's helper and the
statement name one function of the sources. -/
namespace Sys2Proof.Machine

/-- A word that writes sD completes with whatever describes the word it writes. -/
theorem eachDoes_ws {i : Instr} {d : SReg} {x y : Core → Word} (hx : ∀ s, exec i s = runCore i s fun q => q.ws d (x q))
    (hxy : ∀ q, x q = y q) : EachDoes i fun q => q.ws d (y q) :=
  funext hxy ▸ runCore_each hx

/-! ## Integer arithmetic and logic (R83, R86) -/

theorem sext64_toNat (w : Nat) (x : Word) : sext64 w x.toNat = (x.setWidth w).signExtend 64 := by
  rw [sext64, BitVec.ofNat_toNat, BitVec.signExtend]

theorem ofNat_toNat_mod (w : Nat) (x : Word) : BitVec.ofNat 64 (x.toNat % 2 ^ w) = (x.setWidth w).setWidth 64 := by
  rw [← BitVec.toNat_setWidth, BitVec.ofNat_toNat]

/-- Settles O1: every word but the two extensions is written with the statement's own function. -/
theorem integerAndLogicResults : Obligations.IntegerAndLogicResults := by
  have sext : ∀ c d a w, EachDoes (.sext c d a w) fun q => q.ws d (((a.val q).setWidth (ExtWbits w)).signExtend 64) :=
    fun c d a w => eachDoes_ws (fun _ => rfl) fun q => sext64_toNat (ExtWbits w) (a.val q)
  have zext : ∀ c d a w, EachDoes (.zext c d a w) fun q => q.ws d (((a.val q).setWidth (ExtWbits w)).setWidth 64) :=
    fun c d a w => eachDoes_ws (fun _ => rfl) fun q => ofNat_toNat_mod (ExtWbits w) (a.val q)
  refine ⟨⟨?_, ?_, ?_, ?_, ?_, ?_, ?_, ?_, ?_, ?_, ?_⟩, ?_, ?_, ?_, ?_, ?_, ?_, ?_, ?_, ?_, ?_, ?_,
    fun c d a => sext c d a .w8, fun c d a => sext c d a .w16, fun c d a => sext c d a .w32,
    fun c d a => zext c d a .w8, fun c d a => zext c d a .w16, fun c d a => zext c d a .w32⟩
  all_goals
    intros
    exact runCore_each fun _ => rfl

/-! ## Division (R84) -/

/-- The quotient of the most negative number by -1 is 2^63, which wraps to the dividend. -/
theorem divS_intMin : divS (BitVec.intMin 64) (-1) = BitVec.intMin 64 := by decide

theorem remS_intMin : remS (BitVec.intMin 64) (-1) = 0 := by decide

theorem divS_eq (a b : Word) : divS a b = if b = 0 then -1 else
    if a = BitVec.intMin 64 ∧ b = -1 then BitVec.intMin 64 else BitVec.ofInt 64 (a.toInt.tdiv b.toInt) := by
  by_cases h : a = BitVec.intMin 64 ∧ b = -1
  · obtain ⟨rfl, rfl⟩ := h
    exact divS_intMin
  · rw [if_neg h, divS]

theorem remS_eq (a b : Word) : remS a b = if b = 0 then a else
    if a = BitVec.intMin 64 ∧ b = -1 then 0 else a - b * BitVec.ofInt 64 (a.toInt.tdiv b.toInt) := by
  by_cases h : a = BitVec.intMin 64 ∧ b = -1
  · obtain ⟨rfl, rfl⟩ := h
    exact remS_intMin
  · rw [if_neg h, remS, divS]
    split <;> rfl

theorem remN_eq (a b : Word) : remN a b = if b = 0 then a else a - b * BitVec.ofNat 64 (a.toNat / b.toNat) := by
  rw [remN, divN]
  split <;> rfl

/-- Settles O2: the signed words single out no case but zero, and the overflow of -2^63 by -1 wraps to what the statement
names. -/
theorem divisionResultsAndEdges : Obligations.DivisionResultsAndEdges :=
  ⟨fun _ _ a b => eachDoes_ws (fun _ => rfl) fun q => divS_eq (a.val q) (b.val q),
    fun _ _ _ _ => runCore_each fun _ => rfl,
    fun _ _ a b => eachDoes_ws (fun _ => rfl) fun q => remS_eq (a.val q) (b.val q),
    fun _ _ a b => eachDoes_ws (fun _ => rfl) fun q => remN_eq (a.val q) (b.val q)⟩

/-! ## Counts and reversal of bits (R83) -/

/-- The first number below `n` at which `p` holds, or `n` where there is none: `p` is false below it. -/
theorem findIdx?_range_getD (p : Nat → Bool) (n : Nat) :
    let k := ((List.range n).findIdx? p).getD n
    k ≤ n ∧ (∀ j, j < k → p j = false) ∧ (k < n → p k = true) := by
  cases h : (List.range n).findIdx? p with
  | none =>
    refine ⟨le_rfl, fun j hj => ?_, fun hk => absurd hk (Nat.lt_irrefl n)⟩
    exact List.findIdx?_eq_none_iff.mp h j (List.mem_range.mpr hj)
  | some k =>
    obtain ⟨hk, hpk, hlt⟩ := List.findIdx?_eq_some_iff_getElem.mp h
    simp only [List.length_range, List.getElem_range] at hk hpk hlt
    exact ⟨hk.le, fun j hj => Bool.eq_false_iff.mpr (hlt j hj), fun _ => hpk⟩

/-- Elements of one bit are the bits of the number that holds them. -/
theorem ofElems_one_testBit (l : List Bool) (k : Nat) :
    (ofElems 1 (l.map fun b => if b then 1 else 0)).testBit k = l.getD k false := by
  induction l generalizing k with
  | nil => simp [ofElems]
  | cons b l ih =>
    cases k with
    | zero => cases b <;> simp [ofElems, Nat.testBit_zero]
    | succ k =>
      have htail : ofElems 1 ((b :: l).map fun b => if b then 1 else 0) / 2 =
          ofElems 1 (l.map fun b => if b then 1 else 0) := by
        simp only [List.map_cons, ofElems]
        omega
      rw [Nat.testBit_succ, htail, ih, List.getD_cons_succ]

theorem brev_getLsbD (x : Word) {k : Nat} (hk : k < 64) : (brev x).getLsbD k = x.getLsbD (63 - k) := by
  have hbits : brev x = BitVec.ofNat 64 (ofElems 1 (((List.range 64).map fun k => x.getLsbD (63 - k)).map
      fun b => if b then 1 else 0)) := by
    rw [brev, List.map_map]
    rfl
  rw [hbits, BitVec.getLsbD_ofNat, ofElems_one_testBit]
  simp [hk]

/-! ## Bit fields (R85, R88) -/

/-- Where the field would pass bit 63 it is cut there. -/
theorem fieldMask_eq (pos len : Word) :
    fieldMask pos len = BitVec.ofNat 64 (2 ^ min (min (len.toNat % 128) 64) (64 - pos.toNat % 64) - 1) := by
  have hcut : (if 64 < fieldPos pos + min (len.toNat % 128) 64 then 64 - fieldPos pos else min (len.toNat % 128) 64) =
      min (min (len.toNat % 128) 64) (64 - pos.toNat % 64) := by
    rw [fieldPos]
    split <;> omega
  rw [fieldMask, hcut]

/-- The bits of a mask of `n` ones at `p`. -/
theorem ones_shiftLeft_getLsbD {m : Word} {n : Nat} (hm : m = BitVec.ofNat 64 (2 ^ n - 1)) (p : Nat) {k : Nat}
    (hk : k < 64) : (m <<< p).getLsbD k = decide (p ≤ k ∧ k < p + n) := by
  rw [hm, BitVec.getLsbD_shiftLeft, BitVec.getLsbD_ofNat, Nat.testBit_two_pow_sub_one]
  grind

theorem splice_getLsbD (x m y : Word) {k : Nat} (hk : k < 64) :
    ((x &&& ~~~m) ||| y).getLsbD k = (x.getLsbD k && !m.getLsbD k || y.getLsbD k) := by
  simp [hk]

theorem limmMid_eq_append (old : Word) (imm : BitVec 24) : (old &&& ~~~(0xFFFFFF#64 <<< 24)) ||| (imm.setWidth 64 <<< 24) =
    old.extractLsb' 48 16 ++ imm ++ old.extractLsb' 0 24 := by
  refine BitVec.eq_of_getLsbD_eq fun k hk => ?_
  rw [splice_getLsbD _ _ _ hk, ones_shiftLeft_getLsbD (m := 0xFFFFFF#64) (n := 24) rfl 24 hk, BitVec.getLsbD_append,
    BitVec.getLsbD_append, BitVec.getLsbD_shiftLeft, BitVec.getLsbD_setWidth, BitVec.getLsbD_extractLsb',
    BitVec.getLsbD_extractLsb']
  rcases Nat.lt_or_ge k 24 with h24 | h24
  · simp [h24]
  rcases Nat.lt_or_ge k 48 with h48 | h48
  · simp [Nat.not_lt.mpr h24, h24, h48, hk, show k - 24 < 24 by omega, show k - 24 < 64 by omega]
  · simp [Nat.not_lt.mpr h24, Nat.not_lt.mpr h48, hk, BitVec.getLsbD_of_ge imm (k - 24) (by omega),
      show ¬ k - 24 < 24 by omega, show k - 24 - 24 < 16 by omega, show 48 + (k - 24 - 24) = k by omega]

theorem limmTop_eq_append (old : Word) (imm : BitVec 24) :
    (old &&& ~~~(0xFFFF#64 <<< 48)) ||| ((imm.setWidth 16).setWidth 64 <<< 48) =
      imm.setWidth 16 ++ old.extractLsb' 0 48 := by
  refine BitVec.eq_of_getLsbD_eq fun k hk => ?_
  rw [splice_getLsbD _ _ _ hk, ones_shiftLeft_getLsbD (m := 0xFFFF#64) (n := 16) rfl 48 hk, BitVec.getLsbD_append,
    BitVec.getLsbD_shiftLeft, BitVec.getLsbD_setWidth, BitVec.getLsbD_extractLsb']
  rcases Nat.lt_or_ge k 48 with h48 | h48
  · simp [h48]
  · simp [Nat.not_lt.mpr h48, h48, hk, show k - 48 < 16 by omega, show k - 48 < 64 by omega]

/-- Settles O3: the counts are first places of a one bit (`findIdx?_range_getD`), the reversal is `brev_getLsbD`, and the
bit fields agree bit by bit. -/
theorem bitWordsAndMoves : Obligations.BitWordsAndMoves := by
  refine ⟨⟨fun _ _ _ => ⟨clz, runCore_each fun _ => rfl, fun x => findIdx?_range_getD (fun i => x.getLsbD (63 - i)) 64⟩,
      fun _ _ _ => ⟨ctz, runCore_each fun _ => rfl, fun x => findIdx?_range_getD (fun i => x.getLsbD i) 64⟩,
      fun _ _ _ => runCore_each fun _ => rfl,
      fun _ _ _ => ⟨brev, runCore_each fun _ => rfl, fun x _ hk => brev_getLsbD x hk⟩⟩,
    fun _ _ _ _ _ => ?bext, fun _ _ _ _ _ => ?bins, fun _ _ _ _ _ => runCore_each fun _ => rfl,
    fun _ _ _ => runCore_each fun _ => rfl,
    fun _ d imm => eachDoes_ws (fun _ => rfl) fun q => limmMid_eq_append (q.rs d) imm,
    fun _ d imm => eachDoes_ws (fun _ => rfl) fun q => limmTop_eq_append (q.rs d) imm,
    fun _ _ _ _ _ => runCore_each fun _ => rfl⟩
  case bext | bins =>
    refine eachDoes_ws (fun _ => rfl) fun q => ?_
    rw [← fieldMask_eq]
    rfl

/-! ## Comparisons and predicates (R90, R91, R95) -/

/-- A word that writes pD completes with whatever describes the bit it writes. -/
theorem eachDoes_wp {i : Instr} {d : PReg} {x y : Core → Bool} (hx : ∀ s, exec i s = runCore i s fun q => q.wp d (x q))
    (hxy : ∀ q, x q = y q) : EachDoes i fun q => q.wp d (y q) :=
  funext hxy ▸ runCore_each hx

/-- PSET's mask leaves p0 alone. -/
theorem predicateMask_getLsbD : ∀ k < 8, (0xFE : Byte).getLsbD k = decide (k ≠ 0) := by decide

theorem pset_getLsbD (p : Byte) (x m : Word) {k : Nat} (hk : k < 8) :
    ((p &&& ~~~(m.setWidth 8 &&& 0xFE)) ||| (x.setWidth 8 &&& (m.setWidth 8 &&& 0xFE))).getLsbD k =
      if k ≠ 0 ∧ m.getLsbD k then x.getLsbD k else p.getLsbD k := by
  simp only [BitVec.getLsbD_or, BitVec.getLsbD_and, BitVec.getLsbD_not, BitVec.getLsbD_setWidth,
    predicateMask_getLsbD k hk, hk, decide_true, Bool.true_and]
  by_cases h0 : k = 0
  · simp [h0]
  · cases hm : m.getLsbD k <;> simp [h0]

theorem pget_getLsbD (p : Byte) {k : Nat} (hk : k < 64) :
    ((p &&& 0xFE).setWidth 64 ||| 1 : Word).getLsbD k = (decide (k = 0) || (decide (k < 8) && p.getLsbD k)) := by
  have h1 : (1 : Word).getLsbD k = decide (k = 0) := by simp [hk]
  rw [BitVec.getLsbD_or, BitVec.getLsbD_setWidth, BitVec.getLsbD_and, h1]
  rcases Nat.lt_or_ge k 8 with h8 | h8
  · rw [predicateMask_getLsbD k h8]
    by_cases h0 : k = 0 <;> simp [h0, h8, hk]
  · simp [BitVec.getLsbD_of_ge p k h8, Nat.not_lt.mpr h8]

/-- Settles O4: PSET and PGET are said bit by bit, the conditions of CMP as propositions. -/
theorem comparisonsWritePredicates : Obligations.ComparisonsWritePredicates := by
  refine ⟨fun _ _ cond _ _ => ?cmp, fun _ _ _ _ _ _ => runCore_each fun _ => rfl, fun _ _ _ _ => runCore_each fun _ => rfl,
    fun _ _ _ _ => runCore_each fun _ => rfl, fun _ _ _ _ => runCore_each fun _ => rfl,
    fun _ _ _ => runCore_each fun _ => rfl,
    fun _ a m => ⟨_, runCore_each fun _ => rfl, fun q _ hk => pset_getLsbD q.p (a.val q) (m.val q) hk⟩,
    fun _ _ => ⟨_, runCore_each fun _ => rfl, fun q _ hk => pget_getLsbD q.p hk⟩⟩
  case cmp =>
    refine eachDoes_wp (fun _ => rfl) fun q => ?_
    cases cond
    case eq => exact beq_eq_decide _ _
    case ne => simp [Cond.holds, bne, beq_eq_decide]
    all_goals rfl

/-! ## Scalar floats (R92 to R97) -/

/-- FABS drops the sign bit, the top one of the format. -/
theorem clearSign_eq (w : Nat) (x : Word) :
    BitVec.ofNat 64 (x.toNat % 2 ^ (w + 1) % 2 ^ w) = (x.setWidth w).setWidth 64 := by
  rw [Nat.mod_mod_of_dvd _ (pow_dvd_pow 2 (Nat.le_succ w)), ofNat_toNat_mod]

/-- FNEG turns the sign bit over. -/
theorem flipSign_eq {w : Nat} (x : Word) (sign : BitVec w) :
    BitVec.ofNat 64 (x.toNat % 2 ^ w) ^^^ BitVec.ofNat 64 sign.toNat = (x.setWidth w ^^^ sign).setWidth 64 := by
  rw [ofNat_toNat_mod, BitVec.ofNat_toNat, BitVec.setWidth_xor]

/-- Settles O5: the words of one rounding are written so in the model; FABS and FNEG act on the sign bit alone. -/
theorem scalarFloatResults : Obligations.ScalarFloatResults := by
  refine ⟨?_, ?_, ?_, ?_, ?_, ?_,
    fun _ _ a => eachDoes_ws (fun _ => rfl) fun q => clearSign_eq 31 (a.val q),
    fun _ _ a => eachDoes_ws (fun _ => rfl) fun q => clearSign_eq 15 (a.val q),
    fun _ _ a => eachDoes_ws (fun _ => rfl) fun q => flipSign_eq (a.val q) 0x80000000#32,
    fun _ _ a => eachDoes_ws (fun _ => rfl) fun q => flipSign_eq (a.val q) 0x8000#16,
    ?_, ?_⟩
  all_goals
    intros
    exact runCore_each fun _ => rfl

end Sys2Proof.Machine

/-! Proof of O54: the order that FMIN and FMAX take from exact values is the order of places on the line of numbers. The
bridge is a pattern's value in units of the format's smallest subnormal, an integer. -/
namespace Sys2Proof.Machine

/-! ## A pattern's value as an integer -/

/-- The magnitude that exponent and fraction bits stand for, in units of the smallest subnormal (R34). -/
def FFmt.magnitude (f : FFmt) (m : Nat) : Nat :=
  if m / 2 ^ f.mb = 0 then m % 2 ^ f.mb else (2 ^ f.mb + m % 2 ^ f.mb) * 2 ^ (m / 2 ^ f.mb - 1)

/-- The value of a pattern in those units; an infinity stands one step above the largest finite number. -/
def FFmt.units (f : FFmt) (x : Nat) : Int :=
  if f.signBit ≤ x then -(f.magnitude (x % f.signBit) : Int) else f.magnitude (x % f.signBit)

/-- The exponent of the unit. -/
def FFmt.unitExp (f : FFmt) : Int := 1 - (f.bias : Int) - f.mb

/-- A pattern's place on the line of numbers: -0 lies just below +0. -/
def FFmt.place (f : FFmt) (x : Nat) : Int := if f.signBit ≤ x then -((x % f.signBit : Nat) : Int) - 1 else (x : Int)

theorem FFmt.signBit_pos (f : FFmt) : 0 < f.signBit := Nat.two_pow_pos _

theorem FFmt.magnitude_lt (f : FFmt) (m : Nat) : f.magnitude m < 2 ^ f.mb * 2 ^ (m / 2 ^ f.mb) := by
  have hfr : m % 2 ^ f.mb < 2 ^ f.mb := Nat.mod_lt _ (Nat.two_pow_pos _)
  unfold FFmt.magnitude
  split
  next h => simpa [h] using hfr
  next h =>
    obtain ⟨e, he⟩ := Nat.exists_eq_succ_of_ne_zero h
    rw [he, Nat.succ_sub_one, Nat.pow_succ', ← Nat.mul_assoc]
    exact Nat.mul_lt_mul_of_pos_right (by omega) (Nat.two_pow_pos e)

theorem FFmt.le_magnitude (f : FFmt) {m : Nat} (h : m / 2 ^ f.mb ≠ 0) :
    2 ^ f.mb * 2 ^ (m / 2 ^ f.mb - 1) ≤ f.magnitude m := by
  rw [FFmt.magnitude, if_neg h]
  exact Nat.mul_le_mul_right _ (Nat.le_add_right _ _)

/-- Magnitudes rise with their bits. -/
theorem FFmt.magnitude_strictMono (f : FFmt) : StrictMono f.magnitude := by
  intro m n hmn
  rcases Nat.lt_or_ge (m / 2 ^ f.mb) (n / 2 ^ f.mb) with he | he
  · calc f.magnitude m < 2 ^ f.mb * 2 ^ (m / 2 ^ f.mb) := f.magnitude_lt m
      _ ≤ 2 ^ f.mb * 2 ^ (n / 2 ^ f.mb - 1) :=
        Nat.mul_le_mul_left _ (Nat.pow_le_pow_right (by decide) (Nat.le_sub_one_of_lt he))
      _ ≤ f.magnitude n := f.le_magnitude (Nat.ne_zero_of_lt he)
  · have he : m / 2 ^ f.mb = n / 2 ^ f.mb := le_antisymm (Nat.div_le_div_right hmn.le) he
    have hfr : m % 2 ^ f.mb < n % 2 ^ f.mb := by
      have hm := Nat.div_add_mod m (2 ^ f.mb)
      have hn := Nat.div_add_mod n (2 ^ f.mb)
      rw [he] at hm
      linarith
    unfold FFmt.magnitude
    rw [he]
    split
    next => exact hfr
    next => exact Nat.mul_lt_mul_of_pos_right (by omega) (Nat.two_pow_pos _)

theorem FFmt.magnitude_zero (f : FFmt) : f.magnitude 0 = 0 := by simp [FFmt.magnitude]

theorem FFmt.magnitude_eq_zero (f : FFmt) {m : Nat} : f.magnitude m = 0 ↔ m = 0 := by
  rw [← f.magnitude_zero, f.magnitude_strictMono.injective.eq_iff, f.magnitude_zero]

/-- A pattern is its magnitude's bits under its sign bit. -/
theorem FFmt.eq_of_signBit_le (f : FFmt) {x : Nat} (hx : x < 2 * f.signBit) (h : f.signBit ≤ x) :
    x = f.signBit + x % f.signBit := by
  rw [Nat.mod_eq_sub_mod h, Nat.mod_eq_of_lt (by omega)]
  omega

/-- Values order patterns as places do, but that they do not tell the zeros apart. -/
theorem FFmt.place_lt_of_units_lt (f : FFmt) {x y : Nat} (h : f.units x < f.units y) : f.place x < f.place y := by
  have hmono := f.magnitude_strictMono.lt_iff_lt (a := x % f.signBit) (b := y % f.signBit)
  have hanti := f.magnitude_strictMono.lt_iff_lt (a := y % f.signBit) (b := x % f.signBit)
  have hmx : ¬ f.signBit ≤ x → x % f.signBit = x := fun h => Nat.mod_eq_of_lt (Nat.not_le.mp h)
  have hmy : ¬ f.signBit ≤ y → y % f.signBit = y := fun h => Nat.mod_eq_of_lt (Nat.not_le.mp h)
  unfold FFmt.units at h
  unfold FFmt.place
  split at h <;> split at h <;> simp only [*, if_true, if_false] <;> omega

theorem FFmt.units_eq_cases (f : FFmt) {x y : Nat} (hx : x < 2 * f.signBit) (hy : y < 2 * f.signBit)
    (h : f.units x = f.units y) : x = y ∨ (x = 0 ∧ y = f.signBit) ∨ (x = f.signBit ∧ y = 0) := by
  have hinj := f.magnitude_strictMono.injective.eq_iff (a := x % f.signBit) (b := y % f.signBit)
  have hx0 := f.magnitude_eq_zero (m := x % f.signBit)
  have hy0 := f.magnitude_eq_zero (m := y % f.signBit)
  have hmx : ¬ f.signBit ≤ x → x % f.signBit = x := fun h => Nat.mod_eq_of_lt (Nat.not_le.mp h)
  have hmy : ¬ f.signBit ≤ y → y % f.signBit = y := fun h => Nat.mod_eq_of_lt (Nat.not_le.mp h)
  have hsx := f.eq_of_signBit_le hx
  have hsy := f.eq_of_signBit_le hy
  unfold FFmt.units at h
  split at h <;> split at h <;> omega

/-! ## The order of decoded values -/

/-- Two finite values compare as integers over any common exponent. -/
theorem FVal.cmp_fin {x y : Bool} {m n : Nat} {e g base : Int} (he : base ≤ e) (hg : base ≤ g) :
    (FVal.fin x m e).cmp (FVal.fin y n g) = some (compare (scaledInt x m e base) (scaledInt y n g base)) := by
  have scale : ∀ (z : Bool) (k : Nat) (i : Int), min e g ≤ i →
      scaledInt z k i base = scaledInt z k i (min e g) * 2 ^ (min e g - base).toNat := by
    intro z k i hi
    have hpow : (i - base).toNat = (i - min e g).toNat + (min e g - base).toNat := by omega
    cases z <;> simp [scaledInt, hpow, pow_add, mul_assoc]
  have hmono : StrictMono fun a : Int => a * 2 ^ (min e g - base).toNat :=
    fun a b hab => mul_lt_mul_of_pos_right hab (by positivity)
  rw [scale x m e (min_le_left e g), scale y n g (min_le_right e g), ← cmp_eq_compare, hmono.cmp_map_eq, cmp_eq_compare]
  rfl

/-! ### Decoding -/

theorem FFmt.exponent_eq (f : FFmt) (x : Nat) : x / 2 ^ f.mb % 2 ^ f.eb = x % f.signBit / 2 ^ f.mb := by
  rw [FFmt.signBit, Nat.add_comm, Nat.pow_add, Nat.mod_mul_right_div_self]

theorem FFmt.fraction_eq (f : FFmt) (x : Nat) : x % 2 ^ f.mb = x % f.signBit % 2 ^ f.mb :=
  (Nat.mod_mod_of_dvd x (pow_dvd_pow 2 (Nat.le_add_left f.mb f.eb))).symm

theorem FFmt.sign_eq (f : FFmt) {x : Nat} (hx : x < 2 * f.signBit) : (x / f.signBit % 2 == 1) = decide (f.signBit ≤ x) := by
  have hlt : x / f.signBit < 2 := Nat.div_lt_of_lt_mul (by rwa [Nat.mul_comm])
  have hpos : 1 ≤ x / f.signBit ↔ f.signBit ≤ x := by rw [Nat.le_div_iff_mul_le f.signBit_pos, Nat.one_mul]
  rw [Nat.mod_eq_of_lt hlt, beq_eq_decide]
  exact decide_eq_decide.mpr ⟨fun h => hpos.mp h.ge, fun h => by have := hpos.mpr h; omega⟩

/-- Decoding by the sign and the magnitude bits of a pattern. -/
theorem FFmt.decode_eq (f : FFmt) {x : Nat} (hx : x < 2 * f.signBit) :
    f.decode x =
      if x % f.signBit / 2 ^ f.mb = 2 ^ f.eb - 1 then
        if x % f.signBit % 2 ^ f.mb = 0 then .inf (decide (f.signBit ≤ x)) else .nan
      else if x % f.signBit / 2 ^ f.mb = 0 then .fin (decide (f.signBit ≤ x)) (x % f.signBit % 2 ^ f.mb) f.unitExp
      else .fin (decide (f.signBit ≤ x)) (2 ^ f.mb + x % f.signBit % 2 ^ f.mb)
        (f.unitExp + ((x % f.signBit / 2 ^ f.mb - 1 : Nat) : Int)) := by
  rw [FFmt.decode, f.exponent_eq, f.fraction_eq, f.sign_eq hx]
  split
  · rfl
  split
  · rfl
  next h0 =>
    have hexp : f.unitExp + ((x % f.signBit / 2 ^ f.mb - 1 : Nat) : Int) =
        ((x % f.signBit / 2 ^ f.mb : Nat) : Int) - f.bias - f.mb := by
      rw [Nat.cast_sub (Nat.one_le_iff_ne_zero.mpr h0), FFmt.unitExp]
      ring
    rw [hexp]

/-- The magnitude bits of an infinity are the least with the top exponent; those of a NaN lie above (R34). -/
theorem FFmt.infBits_cases (f : FFmt) (x : Nat) :
    (x % f.signBit / 2 ^ f.mb = 2 ^ f.eb - 1 ∧ x % f.signBit % 2 ^ f.mb ≠ 0 ∧ f.infBits < x % f.signBit) ∨
    (x % f.signBit / 2 ^ f.mb = 2 ^ f.eb - 1 ∧ x % f.signBit % 2 ^ f.mb = 0 ∧ x % f.signBit = f.infBits) ∨
    (x % f.signBit / 2 ^ f.mb ≠ 2 ^ f.eb - 1 ∧ x % f.signBit < f.infBits) := by
  have hdm := Nat.div_add_mod' (x % f.signBit) (2 ^ f.mb)
  have htop : x % f.signBit / 2 ^ f.mb ≤ 2 ^ f.eb - 1 := by
    rw [← f.exponent_eq]
    exact Nat.le_sub_one_of_lt (Nat.mod_lt _ (Nat.two_pow_pos _))
  rcases htop.eq_or_lt with he | he
  · rw [he, ← FFmt.infBits] at hdm
    rcases Nat.eq_zero_or_pos (x % f.signBit % 2 ^ f.mb) with hf | hf
    · exact .inr (.inl ⟨he, hf, by omega⟩)
    · exact .inl ⟨he, hf.ne', by omega⟩
  · exact .inr (.inr ⟨he.ne, (Nat.div_lt_iff_lt_mul (Nat.two_pow_pos _)).mp he⟩)

theorem FFmt.isNan_decode (f : FFmt) {x : Nat} (hx : x < 2 * f.signBit) :
    (f.decode x).isNan = decide (f.infBits < x % f.signBit) := by
  rw [f.decode_eq hx]
  rcases f.infBits_cases x with ⟨he, hf, hlt⟩ | ⟨he, hf, heq⟩ | ⟨he, hlt⟩
  · rw [if_pos he, if_neg hf, decide_eq_true hlt]
    rfl
  · rw [if_pos he, if_pos hf, decide_eq_false heq.not_gt]
    rfl
  · rw [if_neg he, decide_eq_false hlt.not_gt]
    split <;> rfl

/-- The value of a finite pattern is its units times that of the unit. -/
theorem FFmt.scaledInt_units (f : FFmt) {x : Nat} {m : Nat} {e : Int}
    (h : m * 2 ^ (e - f.unitExp).toNat = f.magnitude (x % f.signBit)) :
    scaledInt (decide (f.signBit ≤ x)) m e f.unitExp = f.units x := by
  simp only [scaledInt, h, FFmt.units, decide_eq_true_eq]

/-- A pattern that is no NaN is an infinity, or a finite value of so many units. -/
theorem FFmt.decode_cases (f : FFmt) {x : Nat} (hx : x < 2 * f.signBit) (hn : ¬ f.infBits < x % f.signBit) :
    (f.decode x = .inf (decide (f.signBit ≤ x)) ∧ x % f.signBit = f.infBits) ∨
    (x % f.signBit < f.infBits ∧ ∃ m e, f.decode x = .fin (decide (f.signBit ≤ x)) m e ∧ f.unitExp ≤ e ∧
      scaledInt (decide (f.signBit ≤ x)) m e f.unitExp = f.units x) := by
  rw [f.decode_eq hx]
  rcases f.infBits_cases x with ⟨-, -, hlt⟩ | ⟨he, hf, heq⟩ | ⟨he, hlt⟩
  · exact absurd hlt hn
  · rw [if_pos he, if_pos hf]
    exact .inl ⟨rfl, heq⟩
  · rw [if_neg he]
    refine .inr ⟨hlt, ?_⟩
    split
    next h0 => exact ⟨_, _, rfl, le_rfl, f.scaledInt_units (by simp [FFmt.magnitude, h0])⟩
    next h0 => exact ⟨_, _, rfl, by omega, f.scaledInt_units (by simp [FFmt.magnitude, h0])⟩

theorem FFmt.isNeg_decode (f : FFmt) {x : Nat} (hx : x < 2 * f.signBit) (hn : ¬ f.infBits < x % f.signBit) :
    (f.decode x).isNeg = decide (f.signBit ≤ x) := by
  rcases f.decode_cases hx hn with ⟨hd, -⟩ | ⟨-, m, e, hd, -⟩ <;> rw [hd] <;> rfl

/-- Finite values lie between the infinities. -/
theorem FFmt.units_between (f : FFmt) {x : Nat} (h : x % f.signBit < f.infBits) :
    -(f.magnitude f.infBits : Int) < f.units x ∧ f.units x < f.magnitude f.infBits := by
  refine abs_lt.mp ?_
  have habs : |f.units x| = f.magnitude (x % f.signBit) := by
    unfold FFmt.units
    split <;> simp
  rw [habs]
  exact_mod_cast f.magnitude_strictMono h

theorem FFmt.units_inf (f : FFmt) {x : Nat} (h : x % f.signBit = f.infBits) :
    f.units x = if f.signBit ≤ x then -(f.magnitude f.infBits : Int) else f.magnitude f.infBits := by
  rw [FFmt.units, h]

/-- The exact values of two patterns that are no NaN stand in the order of their units. -/
theorem FFmt.cmp_decode (f : FFmt) (hf : 0 < f.infBits) {x y : Nat} (hx : x < 2 * f.signBit) (hy : y < 2 * f.signBit)
    (hnx : ¬ f.infBits < x % f.signBit) (hny : ¬ f.infBits < y % f.signBit) :
    (f.decode x).cmp (f.decode y) = some (compare (f.units x) (f.units y)) := by
  have hinf := f.magnitude_strictMono hf
  rw [f.magnitude_zero] at hinf
  rcases f.decode_cases hx hnx with ⟨hdx, hix⟩ | ⟨hlx, m, e, hdx, hex, hux⟩ <;>
    rcases f.decode_cases hy hny with ⟨hdy, hiy⟩ | ⟨hly, n, g, hdy, hey, huy⟩ <;> rw [hdx, hdy]
  · rw [f.units_inf hix, f.units_inf hiy]
    by_cases hsx : f.signBit ≤ x <;> by_cases hsy : f.signBit ≤ y
    · simp [FVal.cmp, hsx, hsy]
    · rw [if_pos hsx, if_neg hsy, compare_lt_iff_lt.mpr (by omega)]
      simp [FVal.cmp, hsx, hsy]
    · rw [if_neg hsx, if_pos hsy, compare_gt_iff_gt.mpr (by omega)]
      simp [FVal.cmp, hsx, hsy]
    · simp [FVal.cmp, hsx, hsy]
  · obtain ⟨hlo, hhi⟩ := f.units_between hly
    rw [f.units_inf hix]
    by_cases hsx : f.signBit ≤ x
    · rw [if_pos hsx, compare_lt_iff_lt.mpr hlo]
      simp [FVal.cmp, hsx]
    · rw [if_neg hsx, compare_gt_iff_gt.mpr hhi]
      simp [FVal.cmp, hsx]
  · obtain ⟨hlo, hhi⟩ := f.units_between hlx
    rw [f.units_inf hiy]
    by_cases hsy : f.signBit ≤ y
    · rw [if_pos hsy, compare_gt_iff_gt.mpr hlo]
      simp [FVal.cmp, hsy]
    · rw [if_neg hsy, compare_lt_iff_lt.mpr hhi]
      simp [FVal.cmp, hsy]
  · rw [FVal.cmp_fin hex hey, hux, huy]

/-! ## The choice of FMIN and FMAX (R94) -/

theorem FFmt.minMax_numbers (f : FFmt) (hf : 0 < f.infBits) (high : Bool) {x y : Nat} (hx : x < 2 * f.signBit)
    (hy : y < 2 * f.signBit) (hnx : ¬ f.infBits < x % f.signBit) (hny : ¬ f.infBits < y % f.signBit) :
    f.minMax high x y = if decide (f.place x ≤ f.place y) = !high then x else y := by
  have hix : (f.decode x).isNan = false := by rw [f.isNan_decode hx, decide_eq_false hnx]
  have hiy : (f.decode y).isNan = false := by rw [f.isNan_decode hy, decide_eq_false hny]
  simp only [FFmt.minMax, hix, hiy, f.cmp_decode hf hx hy hnx hny, f.isNeg_decode hx hnx]
  rcases lt_trichotomy (f.units x) (f.units y) with hlt | heq | hgt
  · have hpl := f.place_lt_of_units_lt hlt
    rw [compare_lt_iff_lt.mpr hlt]
    cases high <;> simp [hpl.le]
  · rw [compare_eq_iff_eq.mpr heq]
    rcases f.units_eq_cases hx hy heq with rfl | ⟨rfl, rfl⟩ | ⟨rfl, rfl⟩
    · simp
    · have := f.signBit_pos
      cases high <;> simp [FFmt.place, this.ne']
    · have := f.signBit_pos
      cases high <;> simp [FFmt.place, this.ne']
  · have hpl := f.place_lt_of_units_lt hgt
    rw [compare_gt_iff_gt.mpr hgt]
    cases high <;> simp [hpl.not_ge]

/-- What FMIN and FMAX write for any two words, read as patterns of the format. -/
theorem minMax_words (f : FFmt) (hf : 0 < f.infBits) (high : Bool) (u v : Word) :
    let x := u.toNat % (2 * f.signBit)
    let y := v.toNat % (2 * f.signBit)
    let r := BitVec.ofNat 64 (f.minMax high x y)
    (f.infBits < x % f.signBit → f.infBits < y % f.signBit → r = BitVec.ofNat 64 f.nanBits) ∧
    (f.infBits < x % f.signBit → ¬ f.infBits < y % f.signBit → r = BitVec.ofNat 64 y) ∧
    (¬ f.infBits < x % f.signBit → f.infBits < y % f.signBit → r = BitVec.ofNat 64 x) ∧
    (¬ f.infBits < x % f.signBit → ¬ f.infBits < y % f.signBit →
      r = BitVec.ofNat 64 (if decide (f.place x ≤ f.place y) = !high then x else y)) := by
  intro x y r
  have hx : x < 2 * f.signBit := Nat.mod_lt _ (Nat.mul_pos (by decide) f.signBit_pos)
  have hy : y < 2 * f.signBit := Nat.mod_lt _ (Nat.mul_pos (by decide) f.signBit_pos)
  have hix := f.isNan_decode hx
  have hiy := f.isNan_decode hy
  refine ⟨fun hnx hny => ?_, fun hnx hny => ?_, fun hnx hny => ?_, fun hnx hny => ?_⟩
  · simp only [r, FFmt.minMax, hix, hiy, hnx, hny, decide_true]
  · simp only [r, FFmt.minMax, hix, hiy, hnx, hny, decide_true, decide_false]
  · simp only [r, FFmt.minMax, hix, hiy, hnx, hny, decide_true, decide_false]
  · rw [← f.minMax_numbers hf high hx hy hnx hny]

/-- Settles O54: a format's places, infinities and canonical NaN are the statement's numbers at 32 and at 16 bits. -/
theorem floatMinimumAndMaximum : Obligations.FloatMinimumAndMaximum := fun _ _ a b =>
  ⟨⟨_, runCore_each fun _ => rfl, fun q => minMax_words fp32 (by decide) false (a.val q) (b.val q)⟩,
    ⟨_, runCore_each fun _ => rfl, fun q => minMax_words fp32 (by decide) true (a.val q) (b.val q)⟩,
    ⟨_, runCore_each fun _ => rfl, fun q => minMax_words bf16 (by decide) false (a.val q) (b.val q)⟩,
    ⟨_, runCore_each fun _ => rfl, fun q => minMax_words bf16 (by decide) true (a.val q) (b.val q)⟩⟩

end Sys2Proof.Machine

/-! Proofs of O6 and O7: words that the leader resolves for its convoy. What such a word leaves is said by one relation,
a change of the members alone, which composes along the folds over the members. -/
namespace Sys2Proof.Machine

/-! ## Changes of the members alone -/

/-- Each core of `ms` changes as `g` says; nothing else in the machine changes. -/
def State.MembersChange (s : State) (ms : List CoreId) (g : Core → Core) (t : State) : Prop :=
  t = { s with cores := t.cores } ∧ (∀ m ∈ ms, t.core m = g (s.core m)) ∧ ∀ c, c ∉ ms → t.core c = s.core c

theorem membersChange_refl (s : State) (ms : List CoreId) : s.MembersChange ms id s :=
  ⟨rfl, fun _ _ => rfl, fun _ _ => rfl⟩

theorem membersChange_foldl {ms : List CoreId} (hn : ms.Nodup) (g : Core → Core) (s : State) :
    s.MembersChange ms g (ms.foldl (fun s m => s.modCore m g) s) :=
  foldl_modCore ms hn g s

theorem State.MembersChange.trans {s t u : State} {ms : List CoreId} {g h : Core → Core}
    (hst : s.MembersChange ms g t) (htu : t.MembersChange ms h u) : s.MembersChange ms (fun q => h (g q)) u := by
  obtain ⟨ht, htm, htc⟩ := hst
  obtain ⟨hu, hum, huc⟩ := htu
  refine ⟨by rw [hu, ht], fun m hm => ?_, fun c hc => ?_⟩
  · rw [hum m hm, htm m hm]
  · rw [huc c hc, htc c hc]

theorem membersChange_countIssue {ms : List CoreId} (hn : ms.Nodup) (f : Fields) (s : State) :
    s.MembersChange ms (fun q => q.counted f) (s.countIssue ms f) :=
  membersChange_foldl hn _ s

/-! ## The leader -/

/-- Every convoy has a first member, whatever stands in for an empty one. -/
theorem headD_convoyOf_cur (s : State) (d : CoreId) : (s.convoyOf s.cur).headD d = s.leader := by
  cases h : s.convoyOf s.cur with
  | nil => exact absurd (self_mem_convoyOf s s.cur) (by simp [h])
  | cons m ms => rw [State.leader, h, List.headD_cons, List.headD_cons]

/-- A word of the leader's whose effect is on the members alone. -/
theorem runLeaderWord_changes {i : Instr} {f : Fields} {s t : State} {body : List CoreId → State → Res} {g : Core → Core}
    (hf : i.fields = some f) (h : s.Led f) (hx : exec i s = runLeaderWord i s body)
    (hb : body (s.convoyOf s.cur) s = .done t) (ht : s.MembersChange (s.convoyOf s.cur) g t) : s.AllDo i f g := by
  obtain ⟨h1, h2, h3⟩ := ht
  exact runLeaderWord_all hf h hx hb h1 h2 h3

/-! ## Transfers (R76 to R78) -/

/-- A jump to a header that may be entered is taken. -/
theorem jump_enters {s : State} {t : Word} {kinds : Nat → Bool} (h : s.Enters t kinds) (before : State → State) :
    s.jump (s.convoyOf s.cur) t kinds before =
      .jumped ((before (s.fetchUse s.leader t)).goTo (s.convoyOf s.cur) t) := by
  obtain ⟨hal, hgl, w, hw, hh, hk⟩ := h
  have hkind : (decide ((headerOf w).kind < 5) && !kinds (headerOf w).kind) = false := by
    rcases hk with hk | hk
    · simp [hk]
    · simp [Nat.not_lt.mpr hk]
  rw [State.jump, headD_convoyOf_cur, State.checkTarget]
  simp only [hal, hgl, hw, hh, hkind, bne_self_eq_false, Bool.not_true, Bool.or_self, Bool.false_eq_true, if_false]

/-- A taken transfer puts the convoy before the target header, behind the links that `before` writes. -/
theorem runLeaderWord_jumps {i : Instr} {f : Fields} {s : State} {body : List CoreId → State → Res} {t : Word}
    {kinds : Nat → Bool} {before : State → State} {link : Core → Core} (hf : i.fields = some f) (h : s.Led f)
    (hx : exec i s = runLeaderWord i s body) (hb : body (s.convoyOf s.cur) s = s.jump (s.convoyOf s.cur) t kinds before)
    (ht : s.Enters t kinds) (hlink : ∀ x : State, x.MembersChange (s.convoyOf s.cur) link (before x)) :
    s.JumpsTo i f t link := by
  have hn := convoyOf_nodup s s.cur
  rw [jump_enters ht] at hb
  exact ⟨_, (runLeaderWord_led hf h hx).2.1 _ hb,
    ((hlink _).trans (membersChange_foldl hn _ _)).trans (membersChange_countIssue hn f _)⟩

theorem membersChange_writeAll {ms : List CoreId} (hn : ms.Nodup) (d : SReg) (v : Word) (x : State) :
    x.MembersChange ms (fun q => q.ws d v) (writeAll ms d v x) :=
  membersChange_foldl hn _ x

/-- Settles O6: each word's effect is one jump of the leader's; the links are written before it, when the leader's target
has been checked. -/
theorem transfersEnterTheirTarget : Obligations.TransfersEnterTheirTarget := by
  intro s f h q rel
  have hn := convoyOf_nodup s s.cur
  refine ⟨fun c off hf ht => ?br, fun c a cond off hf hc ht => ?brc, fun c a hf ht => ?brx, fun c d off hf ht => ?call,
    fun c d a hf ht => ?callx, fun c a hf ht => ?ret, fun c a off hf h0 h1 ht => ?loop⟩
  case br =>
    exact runLeaderWord_jumps hf h rfl (by rw [headD_convoyOf_cur]; rfl) ht (membersChange_refl · _)
  case brc =>
    exact runLeaderWord_jumps hf h rfl (by rw [headD_convoyOf_cur]; exact if_pos hc) ht (membersChange_refl · _)
  case brx =>
    exact runLeaderWord_jumps hf h rfl (by rw [headD_convoyOf_cur]; rfl) ht (membersChange_refl · _)
  case call =>
    exact runLeaderWord_jumps hf h rfl (by rw [headD_convoyOf_cur]; rfl) ht (membersChange_writeAll hn d q.fallthrough)
  case callx =>
    exact runLeaderWord_jumps hf h rfl (by rw [headD_convoyOf_cur]) ht (membersChange_writeAll hn d q.fallthrough)
  case ret =>
    exact runLeaderWord_jumps hf h rfl (by rw [headD_convoyOf_cur]; rfl) ht (membersChange_refl · _)
  case loop =>
    refine runLeaderWord_jumps hf h rfl ?_ ht (membersChange_writeAll hn a (q.rs a - 1))
    rw [headD_convoyOf_cur]
    have h1' : q.rs a - 1 ≠ 0 := fun e => h1 (sub_eq_zero.mp e)
    exact (if_neg h0).trans (if_neg h1')

/-! ## Words that go on (R75 to R82) -/

theorem Core.counted_req (q : Core) (f : Fields) : (q.counted f).req = q.req := by
  unfold Core.counted
  split <;> simp

theorem Core.passed_req (q : Core) (f : Fields) : (q.passed f).req = q.req := by
  rw [Core.passed, Core.advance_req, Core.counted_req]

/-- Going on behind a word raises no request. -/
theorem goOn_req (t : State) {ms : List CoreId} (hn : ms.Nodup) (f : Fields) (m : CoreId) :
    ((t.goOn ms f).core m).req = (t.core m).req := by
  obtain ⟨-, hin, hout⟩ := (membersChange_countIssue hn f t).trans (membersChange_foldl hn Core.advance (t.countIssue ms f))
  by_cases hm : m ∈ ms
  · exact (congrArg Core.req (hin m hm)).trans (Core.passed_req _ f)
  · exact congrArg Core.req (hout m hm)

theorem membersOf_nodup (s : State) (c : CoreId) : (s.membersOf c).Nodup := by
  unfold State.membersOf
  split
  · exact clusterCores_nodup _
  · exact List.nodup_singleton c

/-- A pre-emption is the lowest of the requests, so that an earlier one stands. -/
theorem Core.request_preempt_req (q : Core) (k : Nat) :
    (q.request (.preempt k)).req = if q.req.isSome then q.req else some (.preempt k) := by
  cases hr : q.req with
  | none => simp [Core.request, Core.wakeFor, hr]
  | some r =>
    have hlow : ¬ r.rank < (Req.preempt k).rank := by cases r <;> simp [Req.rank]
    simp [Core.request, Core.wakeFor, hr, hlow]

/-- Settles O7: each word leaves a change of the members alone, with what the leader reads; YIELD and HALT add what they
report. -/
theorem wordsThatGoOn : Obligations.WordsThatGoOn := by
  refine ⟨fun s f h => ⟨fun c a cond off hf hc => ?brc, fun c a off hf h0 => ?loopZero, fun c a off hf h1 => ?loopOne⟩,
    fun c => runCore_each fun _ => rfl,
    fun s f h => ⟨fun c d t hf => ?sleep, fun c hf hy => ?yieldNop, fun c hf hy => ?yieldTo, fun c w hf hw => ?halt⟩⟩
  all_goals have hn := convoyOf_nodup s s.cur
  case brc =>
    refine runLeaderWord_changes hf h rfl ?_ (membersChange_refl s _)
    rw [headD_convoyOf_cur]
    exact if_neg (by simp [hc])
  case loopZero =>
    refine runLeaderWord_changes hf h rfl ?_ (membersChange_refl s _)
    rw [headD_convoyOf_cur]
    exact if_pos h0
  case loopOne =>
    refine runLeaderWord_changes hf h rfl ?_ (membersChange_writeAll hn a 0 s)
    simp only [headD_convoyOf_cur, h1]
    rfl
  case sleep =>
    refine runLeaderWord_changes hf h rfl ?_ (membersChange_foldl hn _ s)
    rw [headD_convoyOf_cur]
  case yieldNop =>
    refine runLeaderWord_changes hf h rfl ?_ (membersChange_refl s _)
    rw [headD_convoyOf_cur]
    exact if_neg (by simp [hy])
  case yieldTo =>
    have hdone := (runLeaderWord_led hf h rfl).1 _
      (by rw [headD_convoyOf_cur]; exact if_pos hy)
    refine ⟨_, hdone, fun m hm => ?_⟩
    obtain ⟨-, hreq, -⟩ := membersChange_foldl (membersOf_nodup s s.leader) (fun q => q.request (.preempt 6)) s
    rw [goOn_req _ hn, hreq m hm, Core.request_preempt_req]
  case halt =>
    obtain ⟨hx, hin, hout⟩ := membersChange_foldl hn (fun q => { q.advance with debug := true }) s
    refine ⟨_, hx, hin, hout, ?_⟩
    refine (runLeaderWord_led hf h rfl).2.1 _ ?_
    simp only [headD_convoyOf_cur, hw, State.ctxGen, congrArg State.ctxs hx]

end Sys2Proof.Machine

/-! Refutation of O48, in its clause on IDLE_SWEEP: "hashing a line again changes no byte that is read there" is said of
every state, also of one whose slices are not listed in rising order. There the sweep of a slice lists that slice a
second time, in front; an agent that knows only a PA then finds a line in another slice than before, and where that line
is the view table's, a byte of a view line changes. -/
namespace Sys2Proof.Machine

/-- The first entry of a view table: a region of 32 x 32 elements of one byte, its array at 2 MiB (R316). -/
def viewEntryBytes : List Byte := leBytes 16 (1 + 2 ^ 21 + 2 ^ 68 + 2 ^ 88)

/-- A slice that holds line 0, which is the view table's, with some bytes. -/
def tableHolder (bytes : List Byte) : Slice := { tags := [(0, {})], data := [(0, { bytes := bytes })] }

/-- Slice 5, listed before slice 3, holds the view table with its entry; slice 3 holds a copy without. -/
def fallingSlices : State :=
  { slices := [(5, tableHolder viewEntryBytes), (3, tableHolder [])], mem := [(2 ^ 21, 1)] }

/-- The first line of view V0 of region 0, whose first byte is the array's. -/
def viewLine : Nat := 2 ^ 45

theorem homeByte_fallingSlices : fallingSlices.homeByte 3 (128 * viewLine + 0) = 1 := by decide

/-- Slice 3 holds no tag of the view line, so that the sweep writes the slice back as it is: in front of slice 5. -/
theorem idleSweep_fallingSlices :
    exec (.idleSweep 3 viewLine) fallingSlices =
      .next { fallingSlices with slices := (3, tableHolder []) :: fallingSlices.slices } := rfl

theorem homeByte_swept :
    ({ fallingSlices with slices := (3, tableHolder []) :: fallingSlices.slices } : State).homeByte 3
      (128 * viewLine + 0) = 0 := by
  decide

/-- Refutes O48: sweeping `viewLine` in slice 3 of `fallingSlices` turns the line's first byte from 1 to 0. -/
theorem not_memoryEvents : ¬ Obligations.MemoryEvents := by
  unfold Obligations.MemoryEvents
  rintro ⟨-, -, hslices, -⟩
  obtain ⟨-, -, u, hsweep, -, -, hbytes⟩ := hslices fallingSlices 3 viewLine
  rw [idleSweep_fallingSlices] at hsweep
  cases hsweep
  have hsame := hbytes (by decide) 0 (by decide)
  rw [homeByte_fallingSlices, homeByte_swept] at hsame
  exact absurd hsame (by decide)

end Sys2Proof.Machine

/-! Refutations of O34, O32 and O27: each speaks, in one clause, of every state, and a premise that the clause needs is
missing. Each counterexample is a small state that the model runs to the refuting outcome. -/
namespace Sys2Proof.Machine

/-! ## Completions in order (R125) -/

/-- A timeline of which operation 1 stands among those beyond C although it is the next one in line. -/
def uncountedTline : Tline := { issued := 2, beyond := [1] }

/-- Completing operation 2, which is not the next one, takes C past operation 1 as well. -/
theorem uncountedTline_complete_done : (uncountedTline.complete 2 0).done = 2 := by decide

/-- Refutes O34, in "an operation that completes ahead of an earlier one waits beyond C": the clause on timelines has no
premise, as the clause on handles has one, that the next number is not among those beyond C already. -/
theorem not_completionsAndCommitsAreInOrder : ¬ Obligations.CompletionsAndCommitsAreInOrder := by
  unfold Obligations.CompletionsAndCommitsAreInOrder
  rintro ⟨htimeline, -⟩
  obtain ⟨-, -, -, hwaits, -⟩ := htimeline uncountedTline 2 0 (by decide) (by decide) (by decide) (by decide)
  have hdone := hwaits (by decide)
  rw [uncountedTline_complete_done] at hdone
  exact absurd hdone (by decide)

/-! ## The merge units (R359) -/

/-- Cluster 1's merge unit has a phase of core 8, which holds no work: nobody is left to take its pairs. -/
def deadMergeState : State := { clusters := [(1, { merges := [⟨0, [(8, 1)]⟩] })] }

/-- VPMRG_MERGE for core 0, in whose own cluster no phase waits, passes the dead phase of cluster 1 through its unit. -/
theorem vpmrgMerge_deadMergeState :
    exec (.vpmrgMerge 0 0) deadMergeState = .next { deadMergeState with clusters := [(1, {})] } := rfl

/-- Refutes O32, in "where the core's own cluster has no phase for its merge unit, VPMRG_MERGE changes no cluster": the
event passes the dead phases of every cluster, and serves another cluster's phase of work that came back (R245). -/
theorem not_phasesComplete : ¬ Obligations.PhasesComplete := by
  unfold Obligations.PhasesComplete
  intro h
  obtain ⟨-, -, -, -, hidle, -⟩ := h deadMergeState 0 0
  obtain ⟨t, hexec, -, hclusters⟩ := hidle rfl
  rw [vpmrgMerge_deadMergeState] at hexec
  cases hexec
  exact absurd (congrArg Cluster.merges (hclusters 1)) (by decide)

/-! ## Writes at home (R298, R399) -/

/-- A persistent region of the CXL device that holds the first byte of a line only. -/
def splitLineState : State := { persist := [(2 ^ 41, 1)] }

/-- A write of the first two bytes of that line. -/
def splitLineCells : Mem := [(2 ^ 41, 1), (2 ^ 41 + 1, 1)]

/-- The first byte decides: both go to the bytes of the persistent regions. -/
theorem homeWriteNow_splitLine :
    splitLineState.homeWriteNow none 0 splitLineCells .store = some { splitLineState with safeCxl := splitLineCells } := rfl

/-- The second byte is read on the capacity tier, which has not got it. -/
theorem homeByte_splitLine : ({ splitLineState with safeCxl := splitLineCells } : State).homeByte 0 (2 ^ 41 + 1) = 0 := by
  decide

/-- Refutes O27, in "a write of one line leaves at home exactly its bytes changed": said of every list of persistent
regions, also of one that ends within the line; the host can only mark whole pages (log 76). -/
theorem not_homeAccessesAreExact : ¬ Obligations.HomeAccessesAreExact := by
  unfold Obligations.HomeAccessesAreExact
  rintro ⟨-, hwrite⟩
  have hstored := (hwrite splitLineState none 0 (2 ^ 34) splitLineCells .store (by decide) (by decide) (by decide)
    (by decide) (fun _ => rfl) (fun _ _ _ h => nomatch h)).1 _ homeWriteNow_splitLine
  have hsecond := hstored.1 (2 ^ 41 + 1, 1) (by decide)
  rw [homeByte_splitLine] at hsecond
  exact absurd hsecond (by decide)

end Sys2Proof.Machine

/-! Words that the members of a convoy take in turn (R226): from what a word's effect answers for one member in its turn to
what the word does to the convoy. The four shapes of Safety's claims are each derived once, so that a word's own proof
says only what its effect answers for one member. -/
namespace Sys2Proof.Machine

/-! ## One member's pass -/

/-- A member that awaits no register and whose word passes its mode's checks takes the effect when its guards hold. -/
theorem memberRes_settled {s : State} {m : CoreId} {f : Fields} (body : CoreId → State → Res)
    (ha : (s.core m).awaits f = false) (hc : checkMode (s.core m).share f = none) :
    s.memberRes m f false true body = if f.ctl.guards (s.core m) = true then body m s else .done s := by
  unfold State.memberRes
  rw [hc]
  cases hg : f.ctl.guards (s.core m) <;> simp [ha]

/-- The pass of a word's effect over cores. -/
def Pass.through (f : Fields) (body : CoreId → State → Res) (l : List CoreId) (p : Pass) : Pass :=
  l.foldl (fun p m => p.take m (p.s.memberRes m f false true body)) p

theorem Pass.through_cons (f : Fields) (body : CoreId → State → Res) (m : CoreId) (l : List CoreId) (p : Pass) :
    p.through f body (m :: l) = (p.take m (p.s.memberRes m f false true body)).through f body l := rfl

theorem Pass.through_append (f : Fields) (body : CoreId → State → Res) (a b : List CoreId) (p : Pass) :
    p.through f body (a ++ b) = (p.through f body a).through f body b := List.foldl_append

/-- What a word of ready cores does, by the pass over its members. -/
theorem exec_of_pass {i : Instr} {f : Fields} {s : State} {body : CoreId → State → Res} (hf : i.fields = some f)
    (h : s.Ready f) (hx : exec i s = runWord i s body) :
    exec i s = .next (s.runEffects s f false body) := by
  rw [hx, runWord, word_ready hf h, runMembers_ready body h fun _ _ hp => by cases hp]

/-! ## Words that complete -/

/-- Members that can take an effect in turn leave a pass that nothing stops. -/
theorem Pass.through_turns {f : Fields} {body : CoreId → State → Res} {act : CoreId → State → State → Prop}
    {kept : State → Prop} (hb : ∀ m s t, kept s → act m s t → body m s = .done t ∧ kept t) (l : List CoreId) :
    ∀ {s t : State}, kept s → State.Turns f act l s t → Pass.through f body l { s := s } = { s := t } := by
  induction l with
  | nil =>
    intro s t _ ht
    rw [show t = s from ht]
    rfl
  | cons m l ih =>
    intro s t hs ht
    obtain ⟨ha, hc, u, hu, hrest⟩ := ht
    have hres : s.memberRes m f false true body = .done u ∧ kept u := by
      rw [memberRes_settled body ha hc]
      split at hu
      next hg => rw [if_pos hg]; exact hb m s u hs hu
      next hg => rw [if_neg hg, hu]; exact ⟨rfl, hs⟩
    rw [Pass.through_cons, hres.1]
    exact ih hres.2 hrest

/-- A word whose effect completes for each member in its turn completes for the convoy. The effect may read the state before
the word, of which `kept` says what no turn changes. -/
theorem inTurns_of_done_kept {i : Instr} {body : State → CoreId → State → Res} {act : CoreId → State → State → Prop}
    (kept : State → State → Prop) (hx : ∀ s, exec i s = runWord i s (body s)) (hrefl : ∀ s, kept s s)
    (hb : ∀ s₀ m s t, kept s₀ s → act m s t → body s₀ m s = .done t ∧ kept s₀ t) : InTurns i act := by
  intro s t f hf h ht
  rw [exec_of_pass hf h (hx s)]
  have hpass := Pass.through_turns (hb s) (s.convoyOf s.cur) (hrefl s) ht
  unfold Pass.through at hpass
  unfold State.runEffects
  simp only [hpass, List.isEmpty_nil, if_true, Pass.finish, List.contains_nil, Bool.false_eq_true, if_false]
  rfl

theorem inTurns_of_done {i : Instr} {body : CoreId → State → Res} {act : CoreId → State → State → Prop}
    (hx : ∀ s, exec i s = runWord i s body) (hb : ∀ m s t, act m s t → body m s = .done t) : InTurns i act :=
  inTurns_of_done_kept (body := fun _ => body) (fun _ _ => True) hx (fun _ => trivial)
    fun _ m s t _ h => ⟨hb m s t h, trivial⟩

/-! ## Words that stop -/

/-- Members whose guards do not hold take no part in a pass. -/
theorem Pass.through_unguarded {s : State} {f : Fields} {body : CoreId → State → Res} (l : List CoreId)
    (hr : ∀ m ∈ l, (s.core m).Ready f) (hg : ∀ m ∈ l, f.ctl.guards (s.core m) = false) (p : Pass) (hp : p.s = s) :
    p.through f body l = p := by
  induction l with
  | nil => rfl
  | cons m l ih =>
    have hm := hr m List.mem_cons_self
    have hres : p.s.memberRes m f false true body = .done s := by
      rw [hp, memberRes_settled body hm.settled hm.legal, hg m List.mem_cons_self, if_neg Bool.false_ne_true]
    rw [Pass.through_cons, hres, show p.take m (.done s) = p by rw [Pass.take, ← hp]]
    exact ih (fun k hk => hr k (List.mem_cons_of_mem _ hk)) (fun k hk => hg k (List.mem_cons_of_mem _ hk))

theorem Pass.take_stop_trap {p : Pass} {m : CoreId} {cause : Cause} {info : Word} (k : CoreId) (r : Res)
    (hp : p.stop = some (m, .trap cause info)) : (p.take k r).stop = some (m, .trap cause info) := by
  cases r <;> simp [Pass.take, hp, worseStop]

/-- Behind a trap nothing that later members do counts. -/
theorem Pass.through_stop_trap (f : Fields) (body : CoreId → State → Res) (l : List CoreId) {m : CoreId} {cause : Cause}
    {info : Word} (p : Pass) (hp : p.stop = some (m, .trap cause info)) :
    (p.through f body l).stop = some (m, .trap cause info) := by
  induction l generalizing p with
  | nil => exact hp
  | cons k l ih => exact ih _ (Pass.take_stop_trap k _ hp)

/-- An effect that traps for the first member whose guards hold traps for the convoy. -/
theorem firstTraps_of_trap {i : Instr} {cause : Cause} {body : State → CoreId → State → Res}
    {bad : CoreId → State → Word → Prop} (hx : ∀ s, exec i s = runWord i s (body s))
    (hb : ∀ m s info, bad m s info → body s m s = .trap cause info) : FirstTraps i cause bad := by
  intro s f a b m info hf h hms ha hm hbad
  rw [exec_of_pass hf h (hx s)]
  have hr : ∀ k ∈ a ++ m :: b, (s.core k).Ready f := hms ▸ h.each
  have hrm := hr m (by simp)
  have hpass : (Pass.through f (body s) (a ++ m :: b) { s := s }).stop = some (m, .trap cause info) := by
    rw [Pass.through_append, Pass.through_unguarded a (fun k hk => hr k (List.mem_append_left _ hk)) ha _ rfl, Pass.through_cons,
      memberRes_settled (body s) hrm.settled hrm.legal, if_pos hm, hb m s info hbad]
    exact Pass.through_stop_trap f (body s) b _ rfl
  unfold Pass.through at hpass
  rw [← hms] at hpass
  unfold State.runEffects
  simp only [hpass]
  rfl

/-- A stop of the one member whose guards hold stops the convoy. -/
theorem runEffects_only {s : State} {f : Fields} {body : CoreId → State → Res} {m : CoreId} {va code : Nat} {bad : Bool}
    (h : s.Ready f) (hmem : m ∈ s.convoyOf s.cur) (hm : f.ctl.guards (s.core m) = true)
    (ho : ∀ k ∈ s.convoyOf s.cur, k ≠ m → f.ctl.guards (s.core k) = false) (hb : body m s = .page va bad code) :
    s.runEffects s f false body = s.stopWord (s.convoyOf s.cur) m (.page va bad code) := by
  obtain ⟨a, b, hms⟩ := List.append_of_mem hmem
  have hn : (a ++ m :: b).Nodup := hms ▸ convoyOf_nodup s s.cur
  obtain ⟨-, hmb, hab⟩ := List.nodup_append.mp hn
  have hr : ∀ k ∈ a ++ m :: b, (s.core k).Ready f := hms ▸ h.each
  have hrm := hr m (by simp)
  have hoff : ∀ k ∈ a ++ m :: b, k ≠ m → f.ctl.guards (s.core k) = false := hms ▸ ho
  have ha : ∀ k ∈ a, f.ctl.guards (s.core k) = false := fun k hk =>
    hoff k (by simp [hk]) (hab k hk m List.mem_cons_self)
  have hbf : ∀ k ∈ b, f.ctl.guards (s.core k) = false := fun k hk =>
    hoff k (by simp [hk]) fun e => (List.nodup_cons.mp hmb).1 (e ▸ hk)
  have hpass : Pass.through f body (a ++ m :: b) { s := s } = { s := s, stop := some (m, .page va bad code) } := by
    rw [Pass.through_append, Pass.through_unguarded a (fun k hk => hr k (List.mem_append_left _ hk)) ha _ rfl, Pass.through_cons,
      memberRes_settled body hrm.settled hrm.legal, if_pos hm, hb]
    exact Pass.through_unguarded b (fun k hk => hr k (by simp [hk])) hbf _ rfl
  unfold Pass.through at hpass
  rw [← hms] at hpass
  unfold State.runEffects
  simp only [hpass]
  rfl

/-- What has stopped a pass, if anything has, is a wait. -/
def Pass.onlyWaits (p : Pass) : Prop := ∀ x, p.stop = some x → x.2 = .wait

theorem Pass.take_wait {p : Pass} (h : p.onlyWaits) (m : CoreId) :
    (p.take m .wait).onlyWaits ∧ (p.take m .wait).stop.isSome = true := by
  cases hs : p.stop with
  | none => exact ⟨fun x hx => by simp [Pass.take, hs, worseStop] at hx; rw [← hx], by simp [Pass.take, hs, worseStop]⟩
  | some y =>
    have hy := h y hs
    exact ⟨fun x hx => by simp [Pass.take, hs, worseStop, hy] at hx; rw [← hx, hy], by
      simp [Pass.take, hs, worseStop, hy]⟩

/-- An effect that waits for every member whose guards hold leaves a pass that only waits. -/
theorem Pass.through_waits {s : State} {f : Fields} {body : CoreId → State → Res} (l : List CoreId)
    (hr : ∀ m ∈ l, (s.core m).Ready f) (hb : ∀ m ∈ l, f.ctl.guards (s.core m) = true → body m s = .wait) (p : Pass)
    (hp : p.s = s) (hw : p.onlyWaits) :
    (p.through f body l).onlyWaits ∧
      (p.stop.isSome = true ∨ (∃ m ∈ l, f.ctl.guards (s.core m) = true) → (p.through f body l).stop.isSome = true) := by
  induction l generalizing p with
  | nil => exact ⟨hw, fun h => h.elim id fun ⟨_, hm, _⟩ => nomatch hm⟩
  | cons m l ih =>
    have hm := hr m List.mem_cons_self
    have hr' : ∀ k ∈ l, (s.core k).Ready f := fun k hk => hr k (List.mem_cons_of_mem _ hk)
    have hb' : ∀ k ∈ l, f.ctl.guards (s.core k) = true → body k s = .wait := fun k hk => hb k (List.mem_cons_of_mem _ hk)
    rw [Pass.through_cons, hp, memberRes_settled body hm.settled hm.legal]
    by_cases hg : f.ctl.guards (s.core m) = true
    · rw [if_pos hg, hb m List.mem_cons_self hg]
      obtain ⟨hwait, hsome⟩ := Pass.take_wait hw m
      obtain ⟨hwaits, hstop⟩ := ih hr' hb' (p.take m .wait) hp hwait
      exact ⟨hwaits, fun _ => hstop (.inl hsome)⟩
    · rw [if_neg hg, show p.take m (.done s) = p by rw [Pass.take, ← hp]]
      obtain ⟨hwaits, hstop⟩ := ih hr' hb' p hp hw
      refine ⟨hwaits, fun h => hstop (h.imp_right ?_)⟩
      rintro ⟨k, hk, hkg⟩
      rcases List.mem_cons.mp hk with rfl | hk
      · exact absurd hkg hg
      · exact ⟨k, hk, hkg⟩

/-- An effect that waits for every member whose guards hold leaves the package as it is. -/
theorem waits_of_wait {i : Instr} {body : CoreId → State → Res} {held : CoreId → State → Prop}
    (hx : ∀ s, exec i s = runWord i s body) (hb : ∀ m s, held m s → body m s = .wait) : Waits i held := by
  intro s f hf h hsome hheld
  rw [exec_of_pass hf h (hx s)]
  obtain ⟨hwaits, hstop⟩ := Pass.through_waits (s.convoyOf s.cur) h.each (fun m hm hg => hb m s (hheld m hm hg)) { s := s } rfl
    fun _ hx => nomatch hx
  obtain ⟨⟨m, r⟩, hp⟩ := Option.isSome_iff_exists.mp (hstop (.inr hsome))
  obtain rfl : r = .wait := hwaits _ hp
  unfold Pass.through at hp
  unfold State.runEffects
  simp only [hp]
  rfl

/-! ## Words that arrive -/

/-- Members that arrive in turn are all looked at again; each still stands as its own turn has left it. -/
theorem Pass.through_arrivals {f : Fields} {body : CoreId → State → Res} {act : CoreId → State → State → Prop}
    {stands : Core → Prop}
    (hb : ∀ m s u, act m s u → body m s = .arrived u ∧ stands (u.core m) ∧ ∀ k, k ≠ m → u.core k = s.core k)
    (l : List CoreId) (hl : l.Nodup) : ∀ {s t : State} (again : List CoreId), State.Turns f act l s t →
    Pass.through f body l { s := s, again := again } =
        { s := t, again := again ++ l.filter fun m => f.ctl.guards (s.core m) } ∧
      (∀ m ∈ l, f.ctl.guards (s.core m) = true → stands (t.core m)) ∧ ∀ k, k ∉ l → t.core k = s.core k := by
  induction l with
  | nil =>
    intro s t again ht
    obtain rfl : t = s := ht
    exact ⟨by simp [Pass.through], fun _ hm => (nomatch hm), fun _ _ => rfl⟩
  | cons m l ih =>
    intro s t again ht
    obtain ⟨hml, hnd⟩ := List.nodup_cons.mp hl
    obtain ⟨ha, hc, u, hu, hrest⟩ := ht
    have hstep : (u = s ∨ ∀ k, k ≠ m → u.core k = s.core k) := by
      split at hu
      · exact .inr (hb m s u hu).2.2
      · exact .inl hu
    have hother : ∀ k, k ≠ m → u.core k = s.core k := fun k hk => hstep.elim (fun e => by rw [e]) fun h => h k hk
    have hfilter : (l.filter fun k => f.ctl.guards (u.core k)) = l.filter fun k => f.ctl.guards (s.core k) :=
      List.filter_congr fun k hk => by rw [hother k fun e => hml (e ▸ hk)]
    have hkept : ∀ {t : State}, (∀ k, k ∉ l → t.core k = u.core k) → ∀ k, k ∉ m :: l → t.core k = s.core k :=
      fun h k hk => by
        obtain ⟨hkm, hkl⟩ := not_or.mp (List.mem_cons.not.mp hk)
        rw [h k hkl, hother k hkm]
    rw [Pass.through_cons, memberRes_settled body ha hc]
    by_cases hg : f.ctl.guards (s.core m) = true
    · rw [if_pos hg] at hu ⊢
      obtain ⟨hbody, hstand, -⟩ := hb m s u hu
      obtain ⟨hpass, hall, hrest'⟩ := ih hnd (again ++ [m]) hrest
      refine ⟨?_, ?_, hkept hrest'⟩
      · rw [hbody, Pass.take]
        simp only [hpass, hfilter, List.filter_cons, hg, if_true, List.append_assoc, List.singleton_append]
      · intro k hk hkg
        rcases List.mem_cons.mp hk with rfl | hk
        · rw [hrest' k hml]; exact hstand
        · exact hall k hk (by rwa [hother k fun e => hml (e ▸ hk)])
    · rw [if_neg hg] at hu ⊢
      subst hu
      obtain ⟨hpass, hall, hrest'⟩ := ih hnd again hrest
      refine ⟨?_, ?_, hkept hrest'⟩
      · rw [Pass.take]
        simp only [hpass, List.filter_cons, hg, Bool.false_eq_true, if_false]
      · intro k hk hkg
        rcases List.mem_cons.mp hk with rfl | hk
        · exact absurd hkg hg
        · exact hall k hk hkg

/-- Members that all wait when they look again leave a pass that only waits. -/
theorem foldl_take_wait {s : State} (body : CoreId → State → Res) (l : List CoreId)
    (hb : ∀ m ∈ l, body m s = .wait) (p : Pass) (hp : p.s = s) (hw : p.onlyWaits) :
    let r := l.foldl (fun (p : Pass) m => p.take m (body m p.s)) p
    r.onlyWaits ∧ (p.stop.isSome = true ∨ l ≠ [] → r.stop.isSome = true) := by
  induction l generalizing p with
  | nil => exact ⟨hw, fun h => h.elim id fun e => absurd rfl e⟩
  | cons m l ih =>
    obtain ⟨hwait, hsome⟩ := Pass.take_wait hw m
    obtain ⟨hwaits, hstop⟩ := ih (fun k hk => hb k (List.mem_cons_of_mem _ hk)) (p.take m .wait) hp hwait
    simp only [List.foldl_cons, hp, hb m List.mem_cons_self]
    exact ⟨hwaits, fun _ => hstop (.inl hsome)⟩

/-- An effect by which each member in its turn arrives, to stand at the word: the arrivals are made, and the convoy stands. -/
theorem arriveInTurns_of_arrived {i : Instr} {body : CoreId → State → Res} {act : CoreId → State → State → Prop}
    (stands : Core → Prop) (hx : ∀ s, exec i s = runWord i s body)
    (hb : ∀ m s u, act m s u → body m s = .arrived u ∧ stands (u.core m) ∧ ∀ k, k ≠ m → u.core k = s.core k)
    (hw : ∀ m s, stands (s.core m) → body m s = .wait) : ArriveInTurns i act := by
  intro s t f hf h ht ⟨m, hm, hg⟩
  rw [exec_of_pass hf h (hx s)]
  obtain ⟨hpass, hall, -⟩ := Pass.through_arrivals hb (s.convoyOf s.cur) (convoyOf_nodup s s.cur) [] ht
  rw [List.nil_append] at hpass
  have hne : ((s.convoyOf s.cur).filter fun m => f.ctl.guards (s.core m)) ≠ [] :=
    List.ne_nil_of_mem (List.mem_filter.mpr ⟨hm, hg⟩)
  obtain ⟨hwaits, hstop⟩ := foldl_take_wait (s := t) body _ (fun k hk =>
    hw k t (hall k (List.mem_filter.mp hk).1 (List.mem_filter.mp hk).2))
    { s := t } rfl fun _ hx => nomatch hx
  obtain ⟨⟨k, r⟩, hp⟩ := Option.isSome_iff_exists.mp (hstop (.inr hne))
  obtain rfl : r = .wait := hwaits _ hp
  have hagain : ((s.convoyOf s.cur).filter fun m => f.ctl.guards (s.core m)).isEmpty = false := by
    simpa using hne
  unfold Pass.through at hpass
  unfold State.runEffects
  simp only [hpass, hagain, Bool.false_eq_true, if_false, hp]

end Sys2Proof.Machine

/-! Proof of O33: the timeline words. A wait and a test answer by where the number stands to C and I; the words differ in how
they name it. -/
namespace Sys2Proof.Machine

/-! ## Waits and tests (R126, R127) -/

section
variable {s : State} {c : CoreId} {t : Timeline} {n : Nat}

theorem tlReach_ahead (info : Word) (g : Core → Core) (h : ((s.core c).tl t).issued < n) :
    s.tlReach c t n info g = .trap .timelineAhead info := if_pos h

theorem tlReach_waits (info : Word) (g : Core → Core) (hi : n ≤ ((s.core c).tl t).issued) (hd : ((s.core c).tl t).done < n) :
    s.tlReach c t n info g = .wait := by
  rw [State.tlReach, if_neg (Nat.not_lt.mpr hi), if_pos hd]

theorem tlReach_reached (info : Word) (g : Core → Core) (hi : n ≤ ((s.core c).tl t).issued)
    (hd : n ≤ ((s.core c).tl t).done) : s.tlReach c t n info g = .done ((s.acquire c t n).modCore c g) := by
  rw [State.tlReach, if_neg (Nat.not_lt.mpr hi), if_neg (Nat.not_lt.mpr hd)]

theorem tlTest_ahead (info : Word) (d : PReg) (h : ((s.core c).tl t).issued < n) :
    s.tlTest c t n info d = .trap .timelineAhead info := if_pos h

theorem tlTest_below (info : Word) (d : PReg) (hi : n ≤ ((s.core c).tl t).issued) (hd : ((s.core c).tl t).done < n) :
    s.tlTest c t n info d = .done (s.modCore c fun q => q.wp d false) := by
  rw [State.tlTest, if_neg (Nat.not_lt.mpr hi), if_pos hd]

theorem tlTest_reached (info : Word) (d : PReg) (hi : n ≤ ((s.core c).tl t).issued) (hd : n ≤ ((s.core c).tl t).done) :
    s.tlTest c t n info d = .done ((s.acquire c t n).modCore c fun q => q.wp d true) := by
  rw [State.tlTest, if_neg (Nat.not_lt.mpr hi), if_neg (Nat.not_lt.mpr hd)]
end

/-- A word whose effect, for a core that names operations up to a number, is the wait for them. -/
theorem reaches_of_tlReach {i : Instr} {body : CoreId → State → Res} {names : Core → Timeline → Nat → Prop}
    {info : Core → Timeline → Word} {hit : Timeline → Nat → Core → Core} (hx : ∀ s, exec i s = runWord i s body)
    (hb : ∀ m s t n, names (s.core m) t n → body m s = s.tlReach m t n (info (s.core m) t) (hit t n)) :
    (FirstTraps i .timelineAhead fun m s x => ∃ t n, names (s.core m) t n ∧ ((s.core m).tl t).issued < n ∧
      x = info (s.core m) t) ∧
    (Waits i fun m s => ∃ t n, names (s.core m) t n ∧ n ≤ ((s.core m).tl t).issued ∧ ((s.core m).tl t).done < n) ∧
    InTurns i fun m s u => ∃ t n, names (s.core m) t n ∧ n ≤ ((s.core m).tl t).issued ∧ n ≤ ((s.core m).tl t).done ∧
      u = (s.acquire m t n).modCore m (hit t n) := by
  refine ⟨firstTraps_of_trap hx ?_, waits_of_wait hx ?_, inTurns_of_done hx ?_⟩
  · rintro m s x ⟨t, n, hn, hahead, rfl⟩
    rw [hb m s t n hn, tlReach_ahead _ _ hahead]
  · rintro m s ⟨t, n, hn, hi, hd⟩
    rw [hb m s t n hn, tlReach_waits _ _ hi hd]
  · rintro m s u ⟨t, n, hn, hi, hd, rfl⟩
    rw [hb m s t n hn, tlReach_reached _ _ hi hd]

/-- A word whose effect, for a core that names operations up to a number, is the test of them. -/
theorem tests_of_tlTest {i : Instr} {body : CoreId → State → Res} {names : Core → Timeline → Nat → Prop}
    {info : Core → Timeline → Word} {d : PReg} (hx : ∀ s, exec i s = runWord i s body)
    (hb : ∀ m s t n, names (s.core m) t n → body m s = s.tlTest m t n (info (s.core m) t) d) :
    (FirstTraps i .timelineAhead fun m s x => ∃ t n, names (s.core m) t n ∧ ((s.core m).tl t).issued < n ∧
      x = info (s.core m) t) ∧
    InTurns i fun m s u => ∃ t n, names (s.core m) t n ∧ n ≤ ((s.core m).tl t).issued ∧
      (((s.core m).tl t).done < n ∧ u = s.modCore m (fun q => q.wp d false) ∨
        n ≤ ((s.core m).tl t).done ∧ u = (s.acquire m t n).modCore m fun q => q.wp d true) := by
  refine ⟨firstTraps_of_trap hx ?_, inTurns_of_done hx ?_⟩
  · rintro m s x ⟨t, n, hn, hahead, rfl⟩
    rw [hb m s t n hn, tlTest_ahead _ _ hahead]
  · rintro m s u ⟨t, n, hn, hi, ⟨hd, rfl⟩ | ⟨hd, rfl⟩⟩
    · rw [hb m s t n hn, tlTest_below _ _ hi hd]
    · rw [hb m s t n hn, tlTest_reached _ _ hi hd]

/-- The operations that a number of a timeline names, and those that a tag in a register names (R170). -/
def namesByNumber (tl : Timeline) (v : SImm) (q : Core) (t : Timeline) (n : Nat) : Prop := t = tl ∧ n = (v.val q).toNat
def namesByTag (r : SReg) (q : Core) (t : Timeline) (n : Nat) : Prop :=
  timelineOf ((q.rs r).toNat / 2 ^ 61) = some t ∧ n = (q.rs r).toNat % 2 ^ 61

/-- I, as TIMELINE_AHEAD reports it. -/
def issuedInfo (q : Core) (t : Timeline) : Word := BitVec.ofNat 64 (q.tl t).issued

/-- Settles O33: TLWAIT and JWAIT are one wait, TLPOLL and JPOLL one test, of operations named by number or by tag. -/
theorem timelineWords : Obligations.TimelineWords := by
  unfold Obligations.TimelineWords
  refine ⟨?_, ?_, ?_, ?_, ?_, ?_⟩
  · intro c d t which
    refine inTurns_of_done (i := .tlrd c d t which) (fun _ => rfl) ?_
    rintro m s u rfl
    cases which <;> rfl
  · intro c t v
    refine reaches_of_tlReach (i := .tlwait c t v) (names := namesByNumber t v) (info := issuedInfo)
      (hit := fun _ _ q => q) (fun _ => rfl) ?_
    rintro m s _ _ ⟨rfl, rfl⟩
    rfl
  · intro c d t v
    refine tests_of_tlTest (i := .tlpoll c d t v) (names := namesByNumber t v) (info := issuedInfo) (fun _ => rfl) ?_
    rintro m s _ _ ⟨rfl, rfl⟩
    rfl
  · intro c d r
    refine reaches_of_tlReach (i := .jwait c d r) (names := namesByTag r) (info := fun q _ => q.rs r)
      (hit := fun t n q => q.ws d (((q.tl t).statusOf n).setWidth 64)) (fun _ => rfl) ?_
    rintro m s t _ ⟨ht, rfl⟩
    simp only [ht]
    rfl
  · intro c d r
    refine tests_of_tlTest (i := .jpoll c d r) (names := namesByTag r) (info := fun q _ => q.rs r) (fun _ => rfl) ?_
    rintro m s t _ ⟨ht, rfl⟩
    simp only [ht]
    rfl
  · intro c d e r i hi
    simp only [List.mem_cons, List.not_mem_nil, or_false] at hi
    rcases hi with rfl | rfl
    · refine firstTraps_of_trap (i := .jwait c d r) (fun _ => rfl) ?_
      rintro m s x ⟨rfl, ht⟩
      simp only [ht]
    · refine firstTraps_of_trap (i := .jpoll c e r) (fun _ => rfl) ?_
      rintro m s x ⟨rfl, ht⟩
      simp only [ht]

end Sys2Proof.Machine

/-! Proofs of O30 and O31: the words of named barriers. What `arrive` answers depends on the barrier alone, case by case; a word
adds its kind of arrival and its own checks. -/
namespace Sys2Proof.Machine

/-! ## The barriers of a core -/

@[simp] theorem Core.bar_setBar_same (q : Core) (b : Nat) (x : Bar) : (q.setBar b x).bar b = x := by
  simp [Core.bar, Core.setBar]

@[simp] theorem Core.barCtx_setBar (q : Core) (b : Nat) (x : Bar) : (q.setBar b x).barCtx = q.barCtx := rfl

/-- A domain's number depends on the work and the membership of the core alone. -/
theorem domainKey_congr {s t : State} {c : CoreId} {b : Nat} (hc : (t.core c).barCtx = (s.core c).barCtx)
    (hm : ((t.core c).bar b).mem = ((s.core c).bar b).mem) : t.domainKey c b = s.domainKey c b := by
  simp only [State.domainKey, hc, hm]

/-! ## Arrivals (R121, R122) -/

/-- The barrier of a core that has arrived, standing at its word or not. -/
def Core.arrivedBar (q : Core) (b : Nat) (arr : Arrival) (stays : Bool) : Bar :=
  { q.bar b with st := .arrived, arr := some arr, upto := q.issue, fault := none, owed := false
                 mark := if stays then some q.pc else none, drained := false }

/-- The package with a core's arrival in it: its barrier, and the probe of its domain begun anew. -/
def State.withArrival (s : State) (c : CoreId) (b : Nat) (arr : Arrival) (stays : Bool) : State :=
  { s.modCore c (fun q => q.setBar b (q.arrivedBar b arr stays)) with
    probes := s.probes.set (s.domainKey c b) { s.probes.get (s.domainKey c b) {} with passes := 0 } }

theorem core_withArrival_same (s : State) (c : CoreId) (b : Nat) (arr : Arrival) (stays : Bool) :
    (s.withArrival c b arr stays).core c = (s.core c).setBar b ((s.core c).arrivedBar b arr stays) :=
  State.core_modCore_same s c fun q => q.setBar b (q.arrivedBar b arr stays)

theorem core_withArrival_other (s : State) {c k : CoreId} (h : k ≠ c) (b : Nat) (arr : Arrival) (stays : Bool) :
    (s.withArrival c b arr stays).core k = s.core k :=
  State.core_modCore_other s h fun q => q.setBar b (q.arrivedBar b arr stays)

/-- An arrival leaves the core's domain the one that it was. -/
theorem domainKey_modCore_arrivedBar (s : State) (c : CoreId) (b : Nat) (arr : Arrival) (stays : Bool) :
    (s.modCore c fun q => q.setBar b (q.arrivedBar b arr stays)).domainKey c b = s.domainKey c b :=
  domainKey_congr (by simp) (by simp [Core.arrivedBar])

/-- Registering an arrival leaves it, and completes the phase of a group of one. -/
theorem register_eq (s : State) (c : CoreId) (b : Nat) (arr : Arrival) (stays : Bool) :
    let t := s.withArrival c b arr stays
    s.register c b arr stays =
      if (t.seats c b).length = 1 && !((t.seats c b).any Seat.isDrain) &&
          (memLevel ((t.core c).bar b).mem != 5 || decide (s.ring.n ≤ 1)) then
        let u := t.passDead (clusterOf c)
        let v := (u.completePhase c b none).getD u
        if (u.cluster (clusterOf c)).merges.isEmpty then v.mergeNext (clusterOf c) else v
      else t := by
  unfold State.withArrival
  rw [← domainKey_modCore_arrivedBar s c b arr stays]
  rfl

/-- A core whose domain has other participants only leaves its arrival. -/
theorem register_among_others {s : State} {c : CoreId} {b : Nat} {arr : Arrival} {stays : Bool}
    (h : 2 ≤ ((s.withArrival c b arr stays).seats c b).length ∨ memLevel ((s.core c).bar b).mem = 5 ∧ 1 < s.ring.n) :
    s.register c b arr stays = s.withArrival c b arr stays := by
  have hmem : (((s.withArrival c b arr stays).core c).bar b).mem = ((s.core c).bar b).mem := by
    rw [core_withArrival_same, Core.bar_setBar_same]
    rfl
  rw [register_eq, hmem]
  refine if_neg ?_
  rcases h with h | ⟨hl, hn⟩
  · simp only [Bool.and_eq_true, decide_eq_true_eq]
    omega
  · simp only [hl, Bool.and_eq_true, Bool.or_eq_true, decide_eq_true_eq, bne_self_eq_false, Bool.false_eq_true, false_or]
    omega

/-! ## What a word that arrives answers (R121) -/

/-- A core stands at a word: the word has made an arrival of its barrier, and the phase is open. -/
def Core.standsAt (b : Nat) (q : Core) : Prop := (q.bar b).st = .arrived ∧ (q.bar b).mark = some q.pc

/-- A core comes anew to a word that arrives: no arrival that it has made there is pending or complete. -/
def Core.comesTo (q : Core) (b : Nat) : Prop := (q.bar b).st = .idle ∨ (q.bar b).mark ≠ some q.pc

section
variable {s : State} {c : CoreId} {b : Nat} {arr : State → Arrival} {waits : Bool} {level : Nat → Bool}
  {late : Bar → Option Nat} {extra : State → Option Res}

theorem arrive_of_standsAt (h : (s.core c).standsAt b) : s.arrive c b arr true level late extra = .wait := by
  obtain ⟨hst, hmark⟩ := h
  simp [State.arrive, hst, hmark]

/-- Behind its completed phase a word goes on with the barrier idle. -/
theorem arrive_leaves (hst : ((s.core c).bar b).st = .done) (hmark : ((s.core c).bar b).mark = some (s.core c).pc)
    (hfault : ((s.core c).bar b).fault = none) (howed : ((s.core c).bar b).owed = false) :
    s.arrive c b arr true level late extra = .done (s.leaveBarrier c b) := by
  simp [State.arrive, hst, hmark, hfault, howed]

/-- A word raises the fault that its phase has left. -/
theorem arrive_faulted {k : Nat} (hst : ((s.core c).bar b).st = .done)
    (hmark : ((s.core c).bar b).mark = some (s.core c).pc) (hfault : ((s.core c).bar b).fault = some k) :
    s.arrive c b arr true level late extra = .trapCompl (s.modCore c fun q => q.setBar b ((s.core c).bar b).over) k := by
  simp [State.arrive, hst, hmark, hfault]

theorem not_back_of_comesTo (h : (s.core c).comesTo b) :
    (waits && ((s.core c).bar b).mark == some (s.core c).pc && ((s.core c).bar b).st != .idle) = false := by
  rcases h with h | h <;> simp [h]

theorem arrive_outside (h : (s.core c).comesTo b) (hm : memOn ((s.core c).bar b).mem = false) :
    s.arrive c b arr waits level late extra = .trap .barrierFault (BitVec.ofNat 64 5) := by
  simp only [State.arrive, not_back_of_comesTo h, hm, Bool.false_eq_true, if_false, Bool.not_false, if_true]

theorem arrive_wrongLevel (h : (s.core c).comesTo b) (hm : memOn ((s.core c).bar b).mem = true)
    (hl : level (memLevel ((s.core c).bar b).mem) = false) :
    s.arrive c b arr waits level late extra = .trap .barrierFault (BitVec.ofNat 64 8) := by
  simp only [State.arrive, not_back_of_comesTo h, hm, hl, Bool.false_eq_true, if_false, Bool.not_true, Bool.not_false,
    if_true]

theorem arrive_notIdle (hmark : ((s.core c).bar b).mark ≠ some (s.core c).pc) (hst : ((s.core c).bar b).st ≠ .idle)
    (hm : memOn ((s.core c).bar b).mem = true) (hl : level (memLevel ((s.core c).bar b).mem) = true) :
    s.arrive c b arr waits level late extra = .trap .barrierFault (BitVec.ofNat 64 3) := by
  simp only [State.arrive, beq_eq_false_iff_ne.mpr hmark, hm, hl, bne_iff_ne.mpr hst, Bool.and_false, Bool.false_and,
    Bool.false_eq_true, if_false, Bool.not_true, if_true]

theorem arrive_late {n : Nat} (hst : ((s.core c).bar b).st = .idle) (hm : memOn ((s.core c).bar b).mem = true)
    (hl : level (memLevel ((s.core c).bar b).mem) = true) (hn : late ((s.core c).bar b) = some n) :
    s.arrive c b arr waits level late extra = .trap .barrierFault (BitVec.ofNat 64 n) := by
  simp only [State.arrive, hst, hm, hl, hn, bne_self_eq_false, Bool.and_false, Bool.false_eq_true, if_false,
    Bool.not_true]

/-- A word that passes its checks on an idle barrier that others share leaves its arrival. -/
theorem arrive_arrives (hst : ((s.core c).bar b).st = .idle) (hm : memOn ((s.core c).bar b).mem = true)
    (hl : level (memLevel ((s.core c).bar b).mem) = true) (hn : late ((s.core c).bar b) = none) (he : extra s = none)
    (hfree : memLevel ((s.core c).bar b).mem = 5 → (arr s).fenced = true → s.putsOpen c = false)
    (hmany : 2 ≤ ((s.withArrival c b (arr s) waits).seats c b).length ∨
      memLevel ((s.core c).bar b).mem = 5 ∧ 1 < s.ring.n) :
    s.arrive c b arr waits level late extra =
      if waits then .arrived (s.withArrival c b (arr s) waits) else .done (s.withArrival c b (arr s) waits) := by
  have hopen : (memLevel ((s.core c).bar b).mem == 5 && (arr s).fenced && s.putsOpen c) = false := by
    refine Bool.eq_false_iff.mpr fun h => ?_
    simp only [Bool.and_eq_true, beq_iff_eq] at h
    rw [hfree h.1.1 h.1.2] at h
    exact absurd h.2 Bool.false_ne_true
  simp only [State.arrive, hst, hm, hl, hn, he, hopen, bne_self_eq_false, Bool.and_false, Bool.false_eq_true, if_false,
    Bool.not_true, register_among_others hmany]
end

/-- An arrival that waits stands, and is its core's alone. -/
theorem withArrival_stands (s : State) (c : CoreId) (b : Nat) (arr : Arrival) :
    ((s.withArrival c b arr true).core c).standsAt b ∧
      ∀ k, k ≠ c → (s.withArrival c b arr true).core k = s.core k := by
  refine ⟨?_, fun k hk => core_withArrival_other s hk b arr true⟩
  rw [core_withArrival_same]
  exact ⟨by rw [Core.bar_setBar_same]; rfl, by rw [Core.bar_setBar_same]; rfl⟩

/-! ## Behind a phase (R121, R123) -/

/-- What a core becomes when it goes on behind a phase is written last. -/
theorem leaveBarrier_modCore_id (s : State) (c : CoreId) (b : Nat) :
    (s.leaveBarrier c b).modCore c id = s.leaveBarrier c b := by
  unfold State.leaveBarrier State.freshLines
  dsimp only
  split
  · rw [State.modCore_modCore]; rfl
  · split
    · rw [State.modCore_modCore]; rfl
    · rw [State.modCore_modCore]; rfl

theorem afterPhase_sound {s : State} {c : CoreId} {b : Nat} (g : Core → Core) (h : ((s.core c).bar b).fault = none) :
    s.afterPhase c b g = .done ((s.leaveBarrier c b).modCore c g) := by
  simp only [State.afterPhase, h]

theorem afterPhase_faulted {s : State} {c : CoreId} {b k : Nat} (g : Core → Core)
    (h : ((s.core c).bar b).fault = some k) :
    s.afterPhase c b g = .trapCompl (s.modCore c fun q => q.setBar b ((s.core c).bar b).over) k := by
  simp only [State.afterPhase, h]

/-! ## Faults at completion, on a lone core (R234) -/

/-- A core with nothing outstanding, whose vector waits for no update, takes the fault that its phase has left. -/
theorem stopWord_trapCompl_quiet {s t : State} {c : CoreId} {sub : Nat} (consume : State → State) (hq : (s.core c).Quiet)
    (hv : s.busyVector [c] = none) :
    s.stopWord [c] c (.trapCompl t sub) consume =
      (consume s).takeTrap [c] c .barrierFault (BitVec.ofNat 64 sub) (s.core c).pc (s.core c).blk true false := by
  have hl : s.performLoads c = s := by simp [State.performLoads, hq.loads]
  have hu : s.unsettled [c] = false := by simp [State.unsettled, hq.loads, hq.sc, hq.due]
  have hf : s.finishFences [c] = some s := by simp [State.finishFences, hq.fences]
  simp only [State.stopWord, List.foldl_cons, List.foldl_nil, hl, hu, hf, Bool.false_eq_true, if_false, State.orApply, hv]

theorem runWord_raises {i : Instr} {f : Fields} {s t : State} {sub : Nat} {body : CoreId → State → Res}
    (hf : i.fields = some f) (h : s.Alone f) (hx : exec i s = runWord i s body) (hq : (s.core s.cur).Quiet)
    (hv : s.busyVector [s.cur] = none) (hb : body s.cur s = .trapCompl t sub) :
    exec i s = .next (t.takeTrap [s.cur] s.cur .barrierFault (BitVec.ofNat 64 sub) (s.core s.cur).pc (s.core s.cur).blk
      true false) := by
  have hm : s.cur ∈ s.convoyOf s.cur := self_mem_convoyOf s s.cur
  have hres : s.memberRes s.cur f false true body = .trapCompl t sub := by
    rw [memberRes_settled body (h.ready.each _ hm).settled (h.ready.each _ hm).legal, if_pos h.guards, hb]
  rw [hx, runWord, word_ready hf h.ready, runMembers_alone h fun hp => by cases hp]
  simp only [hb, stopWord_trapCompl_quiet _ hq hv, State.consumePhases, List.foldl_cons, List.foldl_nil, hres]

/-- A lone core at a word that the leader resolves. -/
theorem runLeader_alone {i : Instr} {f : Fields} {s : State} {body : List CoreId → State → Res}
    (hf : i.fields = some f) (h : s.Alone f) (hx : exec i s = runLeaderWord i s body) :
    (∀ t, body [s.cur] s = .arrived t → body [s.cur] t = .wait → exec i s = .next t) ∧
    ∀ t sub, (s.core s.cur).Quiet → s.busyVector [s.cur] = none → body [s.cur] s = .trapCompl t sub →
      exec i s = .next (t.takeTrap [s.cur] s.cur .barrierFault (BitVec.ofNat 64 sub) (s.core s.cur).pc
        (s.core s.cur).blk true false) := by
  have hms := convoyOf_alone s s.cur h.lone
  have e : exec i s = .next (s.runLeader f body) := by rw [hx, runLeaderWord, word_ready hf h.ready]
  have hc := pass_checks f false false (s.convoyOf s.cur) s h.ready.each (fun _ _ hp => by cases hp)
  unfold State.runLeader at e
  rw [hms] at hc
  simp only [hms, hc, List.headD_cons, h.guards, if_true] at e
  constructor
  · intro t ht hw
    rw [e, ht]
    simp only [hw]
  · intro t sub hq hv ht
    rw [e, ht]
    simp only [stopWord_trapCompl_quiet _ hq hv, State.consumePhases, List.foldl_cons, List.foldl_nil, ht]

/-! ## The words of named barriers -/

/-- The arrival that a member leaves on an idle barrier that it shares with others. -/
def State.arrivesOn (b : Nat) (arr : Arrival) (stays : Bool) (m : CoreId) (s t : State) : Prop :=
  memOn ((s.core m).bar b).mem = true ∧ ((s.core m).bar b).st = .idle ∧ t = s.withArrival m b arr stays ∧
    (2 ≤ (t.seats m b).length ∨ memLevel ((s.core m).bar b).mem = 5 ∧ 1 < s.ring.n)

/-- A member goes on behind the completed phase of the word at which it stands. -/
def State.leavesBehind (b : Nat) (m : CoreId) (s t : State) : Prop :=
  ((s.core m).bar b).st = .done ∧ ((s.core m).bar b).mark = some (s.core m).pc ∧ ((s.core m).bar b).fault = none ∧
    ((s.core m).bar b).owed = false ∧ t = s.leaveBarrier m b

/-- A lone core raises the fault with which the phase of a barrier has completed, and consumes the phase. -/
def State.raisesFault (i : Instr) (b k : Nat) (s : State) : Prop :=
  (s.core s.cur).Quiet → s.busyVector [s.cur] = none →
    exec i s = .next ((s.modCore s.cur fun q => q.setBar b ((s.core s.cur).bar b).over).takeTrap [s.cur] s.cur .barrierFault
      (BitVec.ofNat 64 k) (s.core s.cur).pc (s.core s.cur).blk true false)

theorem arrive_of_arrivesOn {b : Nat} {stays : Bool} {m : CoreId} {s t : State} {arr : State → Arrival}
    {level : Nat → Bool} {late : Bar → Option Nat} {extra : State → Option Res} (h : State.arrivesOn b (arr s) stays m s t)
    (hl : level (memLevel ((s.core m).bar b).mem) = true) (hn : late ((s.core m).bar b) = none) (he : extra s = none)
    (hfree : memLevel ((s.core m).bar b).mem = 5 → (arr s).fenced = true → s.putsOpen m = false) :
    s.arrive m b arr stays level late extra = if stays then .arrived t else .done t := by
  obtain ⟨hm, hst, rfl, hmany⟩ := h
  exact arrive_arrives hst hm hl hn he hfree hmany

theorem State.arrivesOn.stands {b : Nat} {m : CoreId} {s t : State} {arr : Arrival} (h : State.arrivesOn b arr true m s t) :
    (t.core m).standsAt b ∧ ∀ k, k ≠ m → t.core k = s.core k := by
  obtain ⟨-, -, rfl, -⟩ := h
  exact withArrival_stands s m b arr

theorem arrive_of_leavesBehind {b : Nat} {m : CoreId} {s t : State} {arr : State → Arrival} {level : Nat → Bool}
    {late : Bar → Option Nat} {extra : State → Option Res} (h : State.leavesBehind b m s t) :
    s.arrive m b arr true level late extra = .done t := by
  obtain ⟨hst, hmark, hfault, howed, rfl⟩ := h
  exact arrive_leaves hst hmark hfault howed

/-- A word that does nothing but arrive and wait: its arrivals, and what it does behind its phase. -/
theorem arrives_and_leaves {i : Instr} {b : Nat} {arr : CoreId → State → Arrival} {level : Nat → Bool}
    {late : Bar → Option Nat} (hx : ∀ s, exec i s = runWord i s fun m s =>
      s.arrive m b (arr m) true level late fun _ => none) :
    (ArriveInTurns i fun m s t => level (memLevel ((s.core m).bar b).mem) = true ∧ late ((s.core m).bar b) = none ∧
      (memLevel ((s.core m).bar b).mem = 5 → (arr m s).fenced = true → s.putsOpen m = false) ∧
      State.arrivesOn b (arr m s) true m s t) ∧
    InTurns i (State.leavesBehind b) := by
  refine ⟨arriveInTurns_of_arrived (Core.standsAt b) hx ?_ fun m s h => arrive_of_standsAt h,
    inTurns_of_done hx fun m s t h => arrive_of_leavesBehind h⟩
  rintro m s t ⟨hl, hn, hfree, h⟩
  exact ⟨arrive_of_arrivesOn h hl hn rfl hfree, h.stands⟩

/-- The same from the premises that a statement makes. -/
theorem Turns_mono {f : Fields} {act act' : CoreId → State → State → Prop} (h : ∀ m s t, act' m s t → act m s t)
    (l : List CoreId) : ∀ {s t : State}, State.Turns f act' l s t → State.Turns f act l s t := by
  induction l with
  | nil => exact id
  | cons m l ih =>
    rintro s t ⟨ha, hc, u, hu, hrest⟩
    refine ⟨ha, hc, u, ?_, ih hrest⟩
    split at hu
    next hg => rw [if_pos hg]; exact h m s u hu
    next hg => rw [if_neg hg]; exact hu

theorem inTurns_mono {i : Instr} {act act' : CoreId → State → State → Prop} (ha : InTurns i act)
    (h : ∀ m s t, act' m s t → act m s t) : InTurns i act' :=
  fun s t f hf hr ht => ha s t f hf hr (Turns_mono h _ ht)

theorem arriveInTurns_mono {i : Instr} {act act' : CoreId → State → State → Prop} (ha : ArriveInTurns i act)
    (h : ∀ m s t, act' m s t → act m s t) : ArriveInTurns i act' :=
  fun s t f hf hr ht => ha s t f hf hr (Turns_mono h _ ht)

/-- BARA with its wait, and without. -/
theorem exec_bara (c : Ctl) (opts : BitVec 2) (n : BitVec 7) {stays : Bool} (h : opts.getLsbD 0 = !stays) (s : State) :
    exec (.bara c opts n) s = runWord (.bara c opts n) s fun m s =>
      s.arrive m n.toNat (fun _ => .plain (opts.getLsbD 1)) stays (fun _ => true) (fun _ => none) fun _ => none := by
  show execBara c opts n s = _
  rw [execBara, h, Bool.not_not]

/-- A fenced arrival on a barrier of ring level finds its core's puts acknowledged (R121). -/
theorem plain_free {s : State} {m : CoreId} {nofence : Bool} {level : Nat}
    (h : level = 5 → nofence = true ∨ s.putsOpen m = false) :
    level = 5 → (Arrival.plain nofence).fenced = true → s.putsOpen m = false := by
  intro hl hf
  rcases h hl with rfl | hp
  · cases hf
  · exact hp

/-- Settles O30: BARA is one arrival; BARW and BART look at the barrier's state, and `afterPhase` consumes the phase. -/
theorem barrierWords : Obligations.BarrierWords := by
  unfold Obligations.BarrierWords
  refine ⟨?_, ?_, ?_, ?_, ?_, ?_⟩
  · intro c d v n
    refine ⟨firstTraps_of_trap (i := .barm c d v n) (fun _ => rfl) ?_, inTurns_of_done (i := .barm c d v n) (fun _ => rfl) ?_⟩
    · rintro m s x ⟨k, hk, rfl⟩
      simp only [hk]
    · rintro m s t ⟨hk, rfl⟩
      simp only [hk]
      rfl
  · intro c mode n
    refine inTurns_of_done (i := .phase c mode n) (fun _ => rfl) ?_
    rintro m s t rfl
    cases mode <;> rfl
  · intro c opts n
    refine ⟨firstTraps_of_trap (i := .bara c opts n) (fun _ => rfl) ?_, fun h0 => ?_, fun h0 => ?_⟩
    · rintro m s x (⟨rfl, hm, hcomes⟩ | ⟨rfl, hm, hst, hmark⟩)
      · exact arrive_outside hcomes hm
      · exact arrive_notIdle hmark hst hm rfl
    · refine inTurns_of_done (exec_bara c opts n (stays := false) h0) ?_
      rintro m s t ⟨hfree, harrives⟩
      exact arrive_of_arrivesOn (arr := fun _ => .plain (opts.getLsbD 1)) harrives rfl rfl rfl (plain_free hfree)
    · obtain ⟨harrive, hleave⟩ := arrives_and_leaves (exec_bara c opts n (stays := true) h0)
      refine ⟨arriveInTurns_mono harrive ?_, hleave⟩
      rintro m s t ⟨hfree, harrives⟩
      exact ⟨rfl, rfl, plain_free hfree, harrives⟩
  · intro c n
    refine ⟨firstTraps_of_trap (i := .barw c n) (fun _ => rfl) ?_, waits_of_wait (i := .barw c n) (fun _ => rfl) ?_,
      inTurns_of_done (i := .barw c n) (fun _ => rfl) ?_⟩
    · rintro m s x ⟨rfl, hst⟩
      simp only [hst]
      rfl
    · intro m s hst
      simp only [hst]
    · rintro m s t ⟨hst, hfault, rfl⟩
      simp only [hst, afterPhase_sound _ hfault, leaveBarrier_modCore_id]
  · intro c d n
    refine inTurns_of_done (i := .bart c d n) (fun _ => rfl) ?_
    rintro m s t (⟨hst, rfl⟩ | ⟨hst, rfl⟩ | ⟨hst, hfault, rfl⟩)
    · simp only [hst]
    · simp only [hst]
    · simp only [hst, afterPhase_sound _ hfault]
  · intro s f h c d n k hst hfault
    constructor
    · intro hf hq hv
      refine runWord_raises (i := .barw c n) hf h rfl hq hv ?_
      simp only [hst, afterPhase_faulted _ hfault]
      rfl
    · intro hf hq hv
      refine runWord_raises (i := .bart c d n) hf h rfl hq hv ?_
      simp only [hst, afterPhase_faulted _ hfault]
      rfl

/-! ## PDRAIN, VPMRG, ECSUM and CONVOY on -/

/-- An address of the scratchpad resolves to one local place, and moves nothing. -/
theorem resolve_single_local {s : State} {c : CoreId} {a : Word} {o : Nat} (h : (s.core c).place a.toNat = some (.lm o))
    (write : Bool) (ch : BitVec 2) : s.resolve c write ch (runBytes a 1) = (s, { locs := [(0, o)] }) := by
  have hbytes : runBytes a 1 = [(0, a.toNat)] := by simp [runBytes, Nat.mod_eq_of_lt a.isLt]
  rw [hbytes]
  simp only [State.resolve, List.foldl_cons, List.foldl_nil, State.resolveByte, h, List.nil_append]

/-- VPMRG merges within a tile or a cluster. -/
theorem mergeLevel_iff (n : Nat) : ((fun n : Nat => n == 1 || n == 2) n) = true ↔ 1 ≤ n ∧ n ≤ 2 := by
  simp only [Bool.or_eq_true, beq_iff_eq]
  omega

/-- The core of ECSUM runs no idempotent task after its arrival either. -/
theorem State.arrivesOn.idem {b : Nat} {m : CoreId} {s t : State} {arr : Arrival} {stays : Bool}
    (h : State.arrivesOn b arr stays m s t) : (t.core m).idem = (s.core m).idem := by
  obtain ⟨-, -, rfl, -⟩ := h
  rw [core_withArrival_same]
  rfl

/-- CONVOY on of a lone core is an arrival like any other. -/
theorem exec_convoyOn (c : Ctl) (n : BitVec 7) : ∃ body : List CoreId → State → Res,
    (∀ s, exec (.convoy c (.on n)) s = runLeaderWord (.convoy c (.on n)) s body) ∧
    ∀ (s : State) (m : CoreId), (s.core m).convoy = false → body [m] s =
      s.arrive m n.toNat (fun _ => .convoy) true (fun _ => true) (fun _ => none) fun _ => none := by
  refine ⟨_, fun _ => rfl, fun s m h => ?_⟩
  simp only [List.headD_cons, h, Bool.false_eq_true, if_false]

theorem convoyOn_alone {s : State} {f : Fields} (h : s.Alone f) {c : Ctl} {n : BitVec 7}
    (hf : Instr.fields (.convoy c (.on n)) = some f) :
    (∀ k, ((s.core s.cur).bar n.toNat).st = .done → ((s.core s.cur).bar n.toNat).mark = some (s.core s.cur).pc →
      ((s.core s.cur).bar n.toNat).fault = some k → State.raisesFault (.convoy c (.on n)) n.toNat k s) ∧
    (∀ t, (memLevel ((s.core s.cur).bar n.toNat).mem = 5 → s.putsOpen s.cur = false) →
      State.arrivesOn n.toNat .convoy true s.cur s t → exec (.convoy c (.on n)) s = .next t) ∧
    ∀ t, State.leavesBehind n.toNat s.cur s t → s.Does (.convoy c (.on n)) f t := by
  obtain ⟨body, hx, hb⟩ := exec_convoyOn c n
  obtain ⟨hgoes, -⟩ := runLeaderWord_alone hf h (hx s)
  obtain ⟨harrives, hraises⟩ := runLeader_alone hf h (hx s)
  refine ⟨fun k hst hmark hfault hq hv => hraises _ k hq hv ?_, fun t hfree ht => harrives t ?_ ?_, fun t ht => hgoes t ?_⟩
  · rw [hb s s.cur h.lone, arrive_faulted hst hmark hfault]
  · rw [hb s s.cur h.lone]
    exact arrive_of_arrivesOn (arr := fun _ => .convoy) ht rfl rfl rfl fun hl _ => hfree hl
  · have hlone : (t.core s.cur).convoy = false := by
      obtain ⟨-, -, rfl, -⟩ := ht
      rw [core_withArrival_same]
      exact h.lone
    rw [hb t s.cur hlone, arrive_of_standsAt ht.stands.1]
  · rw [hb s s.cur h.lone, arrive_of_leavesBehind ht]

/-- ECSUM in work that is not idempotent, with its record in the scratchpad. -/
theorem ecsum_words (c : Ctl) (r : SReg) (opt : EcOpt) (n : BitVec 7) :
    (ArriveInTurns (.ecsum c r opt n) fun m s t => (s.core m).idem = false ∧
      memLevel ((s.core m).bar n.toNat).mem ≠ 5 ∧ s.checkAccess m accWrite [⟨(s.core m).rs r, 128, 128⟩] = none ∧
      ∃ o, (s.core m).place ((s.core m).rs r).toNat = some (.lm o) ∧
        State.arrivesOn n.toNat (.counters o none (decide (opt = .clear))) true m s t) ∧
    InTurns (.ecsum c r opt n) fun m s t => (s.core m).idem = false ∧ State.leavesBehind n.toNat m s t := by
  constructor
  · refine arriveInTurns_of_arrived (i := .ecsum c r opt n) (fun q => q.standsAt n.toNat ∧ q.idem = false)
      (fun _ => rfl) ?_ ?_
    · rintro m s t ⟨hidem, hlevel, hcheck, o, hplace, harrives⟩
      refine ⟨?_, ⟨harrives.stands.1, harrives.idem.trans hidem⟩, harrives.stands.2⟩
      simp only [hidem, Bool.false_eq_true, if_false]
      refine (arrive_of_arrivesOn (stays := true) ?_ ?_ rfl hcheck fun hl => absurd hl hlevel).trans rfl
      · simp only [resolve_single_local hplace]
        exact harrives
      · simpa using hlevel
    · rintro m s ⟨hstands, hidem⟩
      simp only [hidem, Bool.false_eq_true, if_false, arrive_of_standsAt hstands]
  · refine inTurns_of_done (i := .ecsum c r opt n) (fun _ => rfl) ?_
    rintro m s t ⟨hidem, hleaves⟩
    simp only [hidem, Bool.false_eq_true, if_false]
    exact arrive_of_leavesBehind hleaves

/-- Settles O31: the words differ in their arrival and in the checks before it. -/
theorem wordsThatArriveAndWait : Obligations.WordsThatArriveAndWait := by
  unfold Obligations.WordsThatArriveAndWait
  refine ⟨?_, ?_, ?_, ?_⟩
  · intro c d n
    obtain ⟨harrive, hleave⟩ := arrives_and_leaves (i := .pdrain c d n) (fun _ => rfl)
    refine ⟨arriveInTurns_mono harrive ?_, hleave, firstTraps_of_trap (i := .pdrain c d n) (fun _ => rfl) ?_⟩
    · rintro m s t ⟨hcomm, hfree, harrives⟩
      exact ⟨rfl, if_pos hcomm, fun hl _ => hfree hl, harrives⟩
    · rintro m s x ⟨rfl, hm, hst, hcomm⟩
      exact arrive_late hst hm rfl (if_neg (by simp [hcomm]))
  · intro c d a n
    obtain ⟨harrive, hleave⟩ := arrives_and_leaves (i := .vpmrg c d a n) (fun _ => rfl)
    refine ⟨arriveInTurns_mono harrive ?_, hleave, firstTraps_of_trap (i := .vpmrg c d a n) (fun _ => rfl) ?_⟩
    · rintro m s t ⟨hlow, hhigh, harrives⟩
      exact ⟨(mergeLevel_iff _).mpr ⟨hlow, hhigh⟩, rfl, fun _ hf => absurd hf Bool.false_ne_true, harrives⟩
    · rintro m s x ⟨rfl, hm, hst, hlevel⟩
      exact arrive_wrongLevel (.inl hst) hm (Bool.eq_false_iff.mpr fun hl =>
        Nat.not_le.mpr hlevel ((mergeLevel_iff _).mp hl).2)
  · intro c r opt n
    obtain ⟨harrive, hleave⟩ := ecsum_words c r opt n
    refine ⟨firstTraps_of_trap (i := .ecsum c r opt n) (fun _ => rfl) ?_, harrive, hleave,
      firstTraps_of_trap (i := .ecsum c r opt n) (fun _ => rfl) ?_⟩
    · rintro m s x ⟨rfl, hidem⟩
      simp only [hidem, if_true]
    · rintro m s x ⟨rfl, hidem, hm, hst, hlevel⟩
      simp only [hidem, Bool.false_eq_true, if_false]
      exact arrive_wrongLevel (.inl hst) hm (bne_eq_false_iff_eq.mpr hlevel)
  · intro s f h
    refine ⟨?_, ?_, ?_, fun c n hf => convoyOn_alone h hf⟩
    · intro c d n hf k hst hmark hfault hq hv
      exact runWord_raises (i := .pdrain c d n) hf h rfl hq hv (arrive_faulted hst hmark hfault)
    · intro c d a n hf k hst hmark hfault hq hv
      exact runWord_raises (i := .vpmrg c d a n) hf h rfl hq hv (arrive_faulted hst hmark hfault)
    · intro c r opt n hf hidem k hst hmark hfault hq hv
      refine runWord_raises (i := .ecsum c r opt n) hf h rfl hq hv ?_
      simp only [show (s.core s.cur).idem = false from hidem, Bool.false_eq_true, if_false]
      exact arrive_faulted hst hmark hfault

end Sys2Proof.Machine

/-! What the memory system leaves of the rest of the package: no read, write, translation or apply at home changes a core,
a launch or the page requests, which is said here once for each operation of the stores below the cores. -/
namespace Sys2Proof.Machine

/-- Two states have the same cores, launches and page requests. -/
structure State.SameUnits (s t : State) : Prop where
  cores : t.cores = s.cores
  launches : t.launches = s.launches
  pageReqs : t.pageReqs = s.pageReqs

namespace State.SameUnits

theorem refl {s : State} : s.SameUnits s := ⟨rfl, rfl, rfl⟩

theorem trans {s t u : State} (h : s.SameUnits t) (k : t.SameUnits u) : s.SameUnits u :=
  ⟨k.cores.trans h.cores, k.launches.trans h.launches, k.pageReqs.trans h.pageReqs⟩

theorem of {s t u : State} (k : t.SameUnits u) (h : s.SameUnits t) : s.SameUnits u := h.trans k

theorem core {s t : State} (h : s.SameUnits t) (c : CoreId) : t.core c = s.core c := by
  unfold State.core
  rw [h.cores]

/-- Steps that each leave the units leave them together. -/
theorem foldl {α : Type} {f : State → α → State} (hf : ∀ (s : State) a, s.SameUnits (f s a)) (l : List α) (s : State) :
    s.SameUnits (l.foldl f s) := by
  induction l generalizing s with
  | nil => exact refl
  | cons a l ih => exact (hf s a).trans (ih _)

theorem ite {p : Prop} [Decidable p] {s t u : State} (ht : s.SameUnits t) (hu : s.SameUnits u) :
    s.SameUnits (if p then t else u) := by
  split
  · exact ht
  · exact hu

end State.SameUnits

open State (SameUnits)

/-! ## Records -/

theorem hbmRecord_units (s : State) (base n : Nat) (r : DevRec) : s.SameUnits (s.hbmRecord base n r) :=
  .ite ⟨rfl, rfl, rfl⟩ .refl

theorem ringRecord_units (s : State) (r : DevRec) : s.SameUnits (s.ringRecord r) := ⟨rfl, rfl, rfl⟩

theorem queueRecord_units (s : State) (r : DevRec) : s.SameUnits (s.queueRecord r) :=
  (hbmRecord_units { s with backlog := s.backlog ++ [r] } _ _ r).of ⟨rfl, rfl, rfl⟩

theorem emit_units (s : State) (type : Nat) (fields : List (Nat × Nat × Nat)) : s.SameUnits (s.emit type fields) := by
  unfold State.emit
  dsimp only
  split
  · exact (ringRecord_units _ _).of ((hbmRecord_units _ _ _ _).of ⟨rfl, rfl, rfl⟩)
  · exact (queueRecord_units _ _).of ((hbmRecord_units _ _ _ _).of ⟨rfl, rfl, rfl⟩)

theorem resourceEvent_units (s : State) (sub ctx x : Nat) : s.SameUnits (s.resourceEvent sub ctx x) := emit_units _ _ _

theorem updPoison_units (s : State) (r line : Nat) : s.SameUnits (s.updPoison r line) := by
  unfold State.updPoison
  split
  · exact .refl
  · exact (emit_units _ _ _).of ⟨rfl, rfl, rfl⟩

/-! ## Poison, the capacity tier and the slices -/

theorem setPoison_units (s : State) (line : Nat) (bad : Bool) : s.SameUnits (s.setPoison line bad) :=
  .ite (.ite .refl ⟨rfl, rfl, rfl⟩) ⟨rfl, rfl, rfl⟩

theorem markPoison_units (s : State) (line : Nat) (mark : Option Bool) : s.SameUnits (s.markPoison line mark) := by
  cases mark with
  | none => exact .refl
  | some bad => exact setPoison_units s line bad

theorem clearPoison_units (s : State) (line : Nat) (cells : Mem) : s.SameUnits (s.clearPoison line cells) :=
  .ite (setPoison_units _ _ _) .refl

theorem keepCode_units (s : State) (line : Nat) (bytes : List Byte) : s.SameUnits (s.keepCode line bytes) :=
  .ite .refl ⟨rfl, rfl, rfl⟩

theorem keepPast_units (s : State) (h line : Nat) : s.SameUnits (s.keepPast h line) := keepCode_units s line _

theorem tierAccept_units {s t : State} {line : Nat} {bytes : List Byte} (h : s.tierAccept line bytes = some t) :
    s.SameUnits t := by
  unfold State.tierAccept at h
  dsimp only at h
  split at h
  · exact Option.some.inj h ▸ ⟨rfl, rfl, rfl⟩
  · split at h
    · exact Option.some.inj h ▸ ⟨rfl, rfl, rfl⟩
    · split at h
      · cases h
      · exact Option.some.inj h ▸ .ite ((resourceEvent_units _ _ _ _).of ⟨rfl, rfl, rfl⟩) ⟨rfl, rfl, rfl⟩

theorem setSlice_units (s : State) (h : Nat) (x : Slice) : s.SameUnits (s.setSlice h x) := ⟨rfl, rfl, rfl⟩

theorem dirEnter_units (s : State) (line : Nat) : s.SameUnits (s.dirEnter line) := .ite .refl ⟨rfl, rfl, rfl⟩

theorem installLine_units {s t : State} {h line : Nat} {drt : Bool} {bytes : List Byte}
    (hx : s.installLine h line drt bytes = some t) : s.SameUnits t := by
  unfold State.installLine at hx
  dsimp only at hx
  split at hx
  · cases hx
  · obtain ⟨x, -, rfl⟩ := Option.map_eq_some_iff.mp hx
    exact (setSlice_units s h x).trans (dirEnter_units _ line)

theorem sliceWrite_units {s t : State} {h line : Nat} {drt : Bool} {via : Via} {whole : Bool} {up : List Byte → List Byte}
    (hx : s.sliceWrite h line drt via whole up = some t) : s.SameUnits t := by
  unfold State.sliceWrite at hx
  split at hx
  · obtain ⟨x, -, rfl⟩ := Option.map_eq_some_iff.mp hx
    exact setSlice_units s h x
  · split at hx
    · exact installLine_units hx
    · exact Option.some.inj hx ▸ .refl

/-! ## Writes at home -/

theorem homeWriteNow_units {s t : State} {core : Option CoreId} {h : Nat} {cells : Mem} {via : Via}
    (hx : s.homeWriteNow core h cells via = some t) : s.SameUnits t := by
  unfold State.homeWriteNow at hx
  split at hx
  next => exact Option.some.inj hx ▸ .refl
  next pk b r =>
    dsimp only at hx
    have hpast := fun (s : State) => keepPast_units s h (pk / 128)
    have hclear := fun (s : State) => (clearPoison_units _ (pk / 128) ((pk, b) :: r)).of (hpast s)
    split at hx
    · cases hx
    split at hx
    · exact (sliceWrite_units hx).of ((hpast s).trans ⟨rfl, rfl, rfl⟩)
    split at hx
    case h_1 => exact Option.some.inj hx ▸ (hpast s).trans ⟨rfl, rfl, rfl⟩
    case h_2 | h_3 =>
      split at hx
      · exact Option.some.inj hx ▸ (hclear s).trans ⟨rfl, rfl, rfl⟩
      · split at hx
        · cases hx
        · next ht => exact (sliceWrite_units hx).of ((tierAccept_units ht).of ((hpast _).of (setPoison_units _ _ _)))
    case h_4 | h_5 | h_6 =>
      split at hx
      · exact Option.some.inj hx ▸ (hclear s).trans ⟨rfl, rfl, rfl⟩
      · exact (sliceWrite_units hx).of (hclear s)

theorem waitHome_units (s : State) (w : HomeWrite) (put : HomeWrite → List HomeWrite) : s.SameUnits (s.waitHome w put) :=
  .ite ((resourceEvent_units _ _ _ _).of ⟨rfl, rfl, rfl⟩) ⟨rfl, rfl, rfl⟩

theorem homeWrite_units (s : State) (core : Option CoreId) (h : Nat) (cells : Mem) (via : Via) (job : Option JobRef)
    (mark : Option Bool) : s.SameUnits (s.homeWrite core h cells via job mark) := by
  unfold State.homeWrite
  split
  · exact .refl
  · dsimp only
    split
    · exact ⟨rfl, rfl, rfl⟩
    · split
      · next hx => exact (markPoison_units _ _ _).of (homeWriteNow_units hx)
      · exact waitHome_units _ _ _

theorem paWrite_units (s : State) (pa : Nat) (bytes : List Byte) : s.SameUnits (s.paWrite pa bytes) := by
  refine .foldl (fun s c => ?_) _ s
  cases c with
  | nil => exact .refl
  | cons x c => exact homeWrite_units _ _ _ _ _ _ _

theorem l1WriteBack_units (s : State) (t line : Nat) : s.SameUnits (s.l1WriteBack t line) := by
  unfold State.l1WriteBack
  dsimp only
  split
  · exact .refl
  · exact .ite .refl ((homeWrite_units _ _ _ _ _ _ _).of ⟨rfl, rfl, rfl⟩)

theorem l1Expel_units (s : State) (t line : Nat) : s.SameUnits (s.l1Expel t line) :=
  (l1WriteBack_units s t line).trans ⟨rfl, rfl, rfl⟩

theorem l1Sweep_units (s : State) (t : Nat) (inval : Bool) (p : Nat → L1Line → Bool) : s.SameUnits (s.l1Sweep t inval p) :=
  .foldl (fun s _ => .ite (.ite (l1Expel_units s _ _) (l1WriteBack_units s _ _)) .refl) _ s

theorem l2WriteBack_units (s : State) (h line : Nat) : s.SameUnits (s.l2WriteBack h line) := by
  unfold State.l2WriteBack
  split
  · exact .refl
  · exact .ite ⟨rfl, rfl, rfl⟩ .refl

theorem rehash_units (s : State) (h line : Nat) : s.SameUnits (s.rehash h line) := by
  unfold State.rehash
  split
  · exact .refl
  · exact setSlice_units _ _ _

theorem l2Evict_units (s : State) (h line : Nat) : s.SameUnits (s.l2Evict h line) :=
  (setSlice_units _ _ _).of ((rehash_units _ _ _).of (l2WriteBack_units _ _ _))

theorem l2EvictAll_units (s : State) (p : Nat → L2Tag → Bool) : s.SameUnits (s.l2EvictAll p) :=
  .foldl (fun s _ => .foldl (fun s _ => .ite (l2Evict_units s _ _) .refl) _ s) _ s

/-! ## Translation -/

theorem modEntry_units (s : State) (pte : Nat) (f : Nat → Nat) : s.SameUnits (s.modEntry pte f) := by
  unfold State.modEntry
  exact .ite (paWrite_units _ _ _) .refl

theorem assignPage_units (s : State) (c : CoreId) (x : Xlat) : s.SameUnits (s.assignPage c x) :=
  .ite (.foldl (fun s _ => modEntry_units s _ _) _ s) .refl

theorem touchLeaf_units (s : State) (c : CoreId) (write : Bool) (x : Xlat) : s.SameUnits (s.touchLeaf c write x).1 := by
  unfold State.touchLeaf
  dsimp only
  split
  · exact .refl
  · dsimp only
    exact (modEntry_units _ _ _).of (assignPage_units s c x)

theorem fillWalks_units (s : State) (d ctx va : Nat) : s.SameUnits (s.fillWalks d ctx va) := by
  unfold State.fillWalks
  split <;> exact ⟨rfl, rfl, rfl⟩

/-! ## Applies and the synchronisation engines -/

theorem applyPair_units {s t : State} {p : Pair} (h : s.applyPair p = some t) : s.SameUnits t := by
  unfold State.applyPair at h
  split at h
  · dsimp only at h
    split at h
    · cases h
    · exact homeWriteNow_units h
  all_goals exact Option.some.inj h ▸ .refl

theorem applyList_units {l : List Pair} : ∀ {s t : State}, s.applyList l = some t → s.SameUnits t := by
  induction l with
  | nil => intro s t h; exact Option.some.inj h ▸ .refl
  | cons p l ih =>
    intro s t h
    unfold State.applyList at h
    split at h
    · cases h
    · next hp => exact (ih h).of (applyPair_units hp)

theorem applyWhere_units {s t : State} {pick : Pair → Bool} (h : s.applyWhere pick = some t) : s.SameUnits t := by
  unfold State.applyWhere at h
  dsimp only at h
  split at h
  · exact Option.some.inj h ▸ .refl
  · split at h
    · cases h
    · next hl =>
      exact Option.some.inj h ▸ (SameUnits.foldl (fun s _ => updPoison_units s _ _) _ _).of ((applyList_units hl).of ⟨rfl, rfl, rfl⟩)

theorem applyBlock_units {s t : State} {line : Nat} (h : s.applyBlock line = some t) : s.SameUnits t := applyWhere_units h

theorem holdLine_units {s t : State} {h line : Nat} (hx : s.holdLine h line = some t) : s.SameUnits t := by
  unfold State.holdLine at hx
  dsimp only at hx
  split at hx
  · exact Option.some.inj hx ▸ ⟨rfl, rfl, rfl⟩
  · split at hx
    · cases hx
    · exact Option.some.inj hx ▸ ((l2EvictAll_units _ _).of (.foldl (fun s _ => l1Expel_units s _ _) _ s)).trans ⟨rfl, rfl, rfl⟩

theorem engineRmw_units {s t : State} {h pk : Nat} {ty : AType} {new : Nat → Nat} {old : Nat} {bad : Bool}
    (hx : s.engineRmw h pk ty new = some (t, old, bad)) : s.SameUnits t := by
  unfold State.engineRmw at hx
  dsimp only at hx
  split at hx
  · cases hx
  next u hu =>
    split at hx
    · cases hx
    next v hv =>
      have hheld := (holdLine_units hv).of (applyBlock_units hu)
      split at hx
      · cases hx
      split at hx
      · cases hx; exact hheld
      split at hx
      · cases hx; exact hheld
      · obtain ⟨w, hw, he⟩ := Option.map_eq_some_iff.mp hx
        cases he
        exact (homeWriteNow_units hw).of hheld

end Sys2Proof.Machine

/-! Proof of O29: synchronisation objects (R111 to R114, R377, R378). -/
namespace Sys2Proof.Machine

/-- SOBJ checks the number, then the alignment of the range, then its length (R112). -/
theorem sobj_badObject (c : Ctl) (obj : SImm) (slot : BitVec 3) (base len : SReg) :
    FirstTraps (.sobj c obj slot base len) .badObject fun m s x =>
      let q := s.core m
      let o := (obj.val q).toNat
      let off := (q.rs base).toNat % 128 ≠ 0 ∨ (q.rs len).toNat % 128 ≠ 0
      x = 1 ∧ 65536 ≤ o ∨ x = 2 ∧ o < 65536 ∧ off ∨ x = 3 ∧ o < 65536 ∧ ¬ off ∧ 2 ^ 36 < (q.rs len).toNat := by
  refine firstTraps_of_trap (i := .sobj c obj slot base len) (fun _ => rfl) ?_
  rintro m s x (⟨rfl, ho⟩ | ⟨rfl, ho, hoff⟩ | ⟨rfl, ho, hoff, hlen⟩)
  · simp only [ho, if_true]
  · simp only [Nat.not_le.mpr ho, if_false, Bool.or_eq_true, bne_iff_ne, hoff, if_true]
  · simp only [Nat.not_le.mpr ho, if_false, Bool.or_eq_true, bne_iff_ne, hoff, hlen, if_true]

/-- SOBJ of an accepted range sets its slot, or clears it with length 0. -/
theorem sobj_sets (c : Ctl) (obj : SImm) (slot : BitVec 3) (base len : SReg) :
    InTurns (.sobj c obj slot base len) fun m s t =>
      let q := s.core m
      let k := objKey q.ctxNum (obj.val q)
      (obj.val q).toNat < 65536 ∧ (q.rs base).toNat % 128 = 0 ∧ (q.rs len).toNat % 128 = 0 ∧
        (q.rs len).toNat ≤ 2 ^ 36 ∧
        (q.rs len = 0 ∧ t = s.setObj k { s.obj k with ranges := (s.obj k).ranges.erase slot.toNat } ∨
          q.rs len ≠ 0 ∧ rangeFail q (q.rs base) (q.rs len) = none ∧
            t = s.setObj k { s.obj k with ranges := (s.obj k).ranges.set slot.toNat (q.rs base, q.rs len) }) := by
  refine inTurns_of_done (i := .sobj c obj slot base len) (fun _ => rfl) ?_
  rintro m s t ⟨ho, hb, hl, hlen, hset⟩
  simp only [Nat.not_le.mpr ho, if_false, hb, hl, bne_self_eq_false, Bool.or_self, Bool.false_eq_true, Nat.not_lt.mpr hlen]
  rcases hset with ⟨hz, rfl⟩ | ⟨hz, hfail, rfl⟩
  · simp only [hz, if_true]
  · simp only [hz, if_false, hfail]

/-- REL raises the count of its object once the stores to the object's ranges are performed (R113). -/
theorem rel_words (c : Ctl) (d : SReg) (obj : SImm) :
    (FirstTraps (.rel c d obj) .nonidemOp fun m s x => x = 0 ∧ (s.core m).idem = true) ∧
    (FirstTraps (.rel c d obj) .badObject fun m s x =>
      x = 1 ∧ (s.core m).idem = false ∧ 65536 ≤ (obj.val (s.core m)).toNat) ∧
    InTurns (.rel c d obj) fun m s t =>
      let q := s.core m
      let k := objKey q.ctxNum (obj.val q)
      q.idem = false ∧ (obj.val q).toNat < 65536 ∧ ∃ u, s.publishRanges m (s.objLines q.ctxNum (s.obj k)) = some u ∧
        t = (u.setObj k { u.obj k with count := (u.obj k).count + 1 }).modCore m fun q => q.ws d ((u.obj k).count + 1) := by
  refine ⟨firstTraps_of_trap (i := .rel c d obj) (fun _ => rfl) ?_,
    firstTraps_of_trap (i := .rel c d obj) (fun _ => rfl) ?_, inTurns_of_done (i := .rel c d obj) (fun _ => rfl) ?_⟩
  · rintro m s x ⟨rfl, hidem⟩
    simp only [hidem, if_true]
  · rintro m s x ⟨rfl, hidem, ho⟩
    simp only [hidem, Bool.false_eq_true, if_false, ho, if_true]
  · rintro m s t ⟨hidem, ho, u, hu, rfl⟩
    simp only [hidem, Bool.false_eq_true, if_false, Nat.not_le.mpr ho, hu]

/-- ACQ gives the count and lets the core's later loads see what the ranges hold (R114, R309). -/
theorem acq_words (c : Ctl) (d : SReg) (obj : SImm) :
    (FirstTraps (.acq c d obj) .badObject fun m s x => x = 1 ∧ 65536 ≤ (obj.val (s.core m)).toNat) ∧
    InTurns (.acq c d obj) fun m s t =>
      let q := s.core m
      let x := s.obj (objKey q.ctxNum (obj.val q))
      (obj.val q).toNat < 65536 ∧
      t = (s.l1Sweep (tileOf m) true fun line _ => lineIn (s.objLines q.ctxNum x) line && !s.lineStb line).modCore m fun q =>
        { q with early := q.early.filter fun (a, _) => !inRanges (s.objLines q.ctxNum x) a }.ws d x.count := by
  refine ⟨firstTraps_of_trap (i := .acq c d obj) (fun _ => rfl) ?_, inTurns_of_done (i := .acq c d obj) (fun _ => rfl) ?_⟩
  · rintro m s x ⟨rfl, ho⟩
    simp only [ho, if_true]
  · rintro m s t ⟨ho, rfl⟩
    simp only [Nat.not_le.mpr ho, if_false, State.modCore, (l1Sweep_units _ _ _ _).core m]

theorem syncLineReturn_drops (s : State) (line : Nat) : ∃ t, exec (.syncLineReturn line) s = .next t ∧
    t = { s with dies := t.dies } ∧ ∀ d, (t.die d).held = (s.die d).held.filter (· != line) := by
  refine ⟨_, rfl, rfl, fun d => ?_⟩
  simp only [State.die, SMap.get, SMap.find_mapVals]
  cases SMap.find s.dies d <;> rfl

/-- Settles O29: SOBJ, REL and ACQ check their number and range in the order of R112 and then complete, and ACQ's expulsion of lines
from L1 leaves every core as it is, so that its register and what it has read ahead are those of the word. -/
theorem synchronisationObjects : Obligations.SynchronisationObjects :=
  ⟨⟨fun c obj slot base len => ⟨sobj_badObject c obj slot base len, sobj_sets c obj slot base len⟩,
    fun c d obj => rel_words c d obj, fun c d obj => acq_words c d obj⟩, syncLineReturn_drops⟩

end Sys2Proof.Machine

/-! Proof of O26: the atomics read, combine and write one location (R115, R116). Before it, what translating and resolving
an access leaves of the core that makes it, and that an access of a core without fences passes their gate. -/
namespace Sys2Proof.Machine

/-! ## Translating and resolving -/

/-- A core that has translated addresses: only its µTLB, its view tracker and its overflow mark may have moved. -/
def Core.Resolved (q q' : Core) : Prop := q' = { q with utlb := q'.utlb, view := q'.view, ovfMark := q'.ovfMark }

theorem Core.Resolved.trans {q q' q'' : Core} (h : q.Resolved q') (k : q'.Resolved q'') : q.Resolved q'' := by
  unfold Core.Resolved at *
  rw [k, h]

theorem Core.Resolved.modCore_if (p : Prop) [Decidable p] (s : State) (c : CoreId) (f : Core → Core)
    (hf : ∀ q : Core, q.Resolved (f q)) : (s.core c).Resolved ((if p then s.modCore c f else s).core c) := by
  split
  · rw [State.core_modCore_same]
    exact hf _
  · rfl

theorem setOvfMark_resolved (q : Core) (m : Word) : q.Resolved { q with ovfMark := m } := rfl

theorem markOvf_resolved (q : Core) (base : Word) (g : Grants) (ea : Nat) : q.Resolved (q.markOvf base g ea) :=
  setOvfMark_resolved q _

theorem setView_resolved (q : Core) (v : Option (Nat × Nat)) : q.Resolved { q with view := v } := rfl

theorem fillTlbs_core (s : State) (c : CoreId) (ctx : Nat) (x : Xlat) :
    (s.fillTlbs c ctx x).core c = { s.core c with utlb := (tlbPut (s.core c).utlb ctx x).take 64 } := by
  simp [State.fillTlbs, State.fillTlb2]

/-- A translation that is found is used, which changes memory at most, and then cached. -/
theorem xlat_found {s : State} {c : CoreId} {ctx va : Nat} (write : Bool) {x : Xlat} (h : s.look c ctx va = .ok x) :
    ∃ u y, s.SameUnits u ∧ s.xlat c ctx va write = ((u.fillTlbs c ctx y).noteFrame ctx va y, .ok y) := by
  unfold State.xlat
  rw [h]
  exact ⟨_, _, (touchLeaf_units _ c write x).of (.ite .refl (fillWalks_units s _ ctx va)), rfl⟩

theorem xlat_resolved (s : State) (c : CoreId) (ctx va : Nat) (write : Bool) :
    (s.core c).Resolved ((s.xlat c ctx va write).1.core c) := by
  cases h : s.look c ctx va with
  | error m =>
    unfold State.xlat
    rw [h]
    rfl
  | ok x =>
    obtain ⟨u, y, hu, hx⟩ := xlat_found write h
    rw [hx, show ((u.fillTlbs c ctx y).noteFrame ctx va y).core c = (u.fillTlbs c ctx y).core c from rfl, fillTlbs_core, hu.core]
    rfl

theorem resolveByte_resolved (s : State) (c : CoreId) (write : Bool) (ch : BitVec 2) (w : Where) (i ea : Nat) :
    (s.core c).Resolved ((s.resolveByte c write ch w i ea).1.core c) := by
  unfold State.resolveByte
  dsimp only
  split
  · rfl
  · rfl
  next va ovf _ =>
    have hx := xlat_resolved s c (s.core c).ctxNum va write
    split
    next u e hu => rwa [hu] at hx
    next u x hu =>
      rw [hu] at hx
      refine hx.trans (.trans ?_ (.modCore_if _ _ _ _ fun q => markOvf_resolved q _ _ ea))
      split
      · rfl
      · rw [State.core_modCore_same]
        exact setView_resolved _ _

theorem resolve_resolved (s : State) (c : CoreId) (write : Bool) (ch : BitVec 2) (bytes : List (Nat × Nat)) :
    (s.core c).Resolved ((s.resolve c write ch bytes).1.core c) := by
  suffices h : ∀ (p : State × Where), (p.1.core c).Resolved
      ((bytes.foldl (fun (s, w) (i, ea) => s.resolveByte c write ch w i ea) p).1.core c) from
    h (s, {})
  induction bytes with
  | nil => intro p; rfl
  | cons x l ih => intro p; exact (resolveByte_resolved p.1 c write ch p.2 x.1 x.2).trans (ih _)

theorem fenceGate_open {s : State} {c : CoreId} (cls : Byte) (hf : (s.core c).fences = []) (hsc : (s.core c).sc = none) :
    s.fenceGate c cls = some s := by
  simp only [State.fenceGate, hf, hsc, Option.isSome_none, Bool.false_and, Bool.false_eq_true, if_false, List.foldl_nil]

/-! ## The atomics -/

/-- What an atomic does on one core in its turn: performed at issue, or left outstanding by the core's plan. -/
def AtomicTurn (d : Option SReg) (b : SReg) (t : AType) (op : Core → AtomOp) (v : Core → Nat) (new : Core → Nat → Nat)
    (m : CoreId) (s z : State) : Prop :=
  let n := atypeBits t / 8
  let q := s.core m
  let a := q.rs b
  q.idem = false ∧ s.checkAccess m accAtomic [⟨a, n, n⟩] = none ∧ q.fences = [] ∧ q.sc = none ∧
  let x := s.resolve m true 3 (runBytes a n)
  let y := x.1.modCore m fun q =>
    let q := { q with defer := q.defer.drop 1 }
    if d.isSome then q.countEvent 0x0040 1 else q
  ((x.1.core m).defer.headD false = true ∧ z = y.modCore m fun q =>
    { q with loads := q.loads ++ [{ n := q.issue, pc := q.pc, blk := q.blk
                                    dst := match d with
                                      | none => .nothing
                                      | some r => .scalar r n (atypeSigned t)
                                    lanes := x.2.lanes, locs := x.2.locs, rmw := some ⟨op (s.core m), t, v (s.core m)⟩ }]
             issue := q.issue + 1 }) ∨
  ((x.1.core m).defer.headD false = false ∧ ∃ w l ls u old bad,
    y.ownBefore m x.2.lanes = some w ∧ x.2.lanes = l :: ls ∧ w.engineRmw l.home l.pa t (new q) = some (u, old, bad) ∧
    z = u.modCore m fun q =>
      let q := { q with early := q.early.filter fun (k, _) => k / 32 != l.pa / 32 }
      match d with
      | none => q
      | some r => if bad then { q with due := q.due ++ [(q.pc, q.blk, a)] } else q.ws r (atypeExtend t old))

theorem atomic_nonidem {s : State} {c : CoreId} (d : Option SReg) (b : SReg) (t : AType) (x : Core → Rmw)
    (h : (s.core c).idem = true) : s.atomic c d b t x = .trap .nonidemOp 0 := by
  simp only [State.atomic, h, if_true]

theorem atomic_done {d : Option SReg} {b : SReg} {t : AType} {op : Core → AtomOp} {v : Core → Nat} {new : Core → Nat → Nat}
    (hnew : ∀ q old, Rmw.new ⟨op q, t, v q⟩ old = new q old) {m : CoreId} {s z : State} (h : AtomicTurn d b t op v new m s z) :
    s.atomic m d b t (fun q => ⟨op q, t, v q⟩) = .done z := by
  obtain ⟨hidem, hok, hf, hsc, hcase⟩ := h
  have hdefer := congrArg Core.defer (resolve_resolved s m true 3 (runBytes ((s.core m).rs b) (atypeBits t / 8)))
  have hrmw : Rmw.new ⟨op (s.core m), t, v (s.core m)⟩ = new (s.core m) := funext (hnew _)
  simp only at hdefer
  simp only [State.atomic, hidem, Bool.false_eq_true, if_false, hok, fenceGate_open _ hf hsc]
  rcases hcase with ⟨hd, rfl⟩ | ⟨hd, w, l, ls, u, old, bad, hown, hlanes, heng, rfl⟩
  · rw [if_pos (hdefer ▸ hd)]
    rfl
  · rw [if_neg (by rw [← hdefer, hd]; exact Bool.false_ne_true), hown, hlanes]
    dsimp only
    rw [hrmw, heng]
    rfl

/-- A word whose effect is an atomic traps in an idempotent task, and else takes its turns as an atomic. -/
theorem atomic_words {i : Instr} {d : Option SReg} {b : SReg} {t : AType} {op : Core → AtomOp} {v : Core → Nat}
    {new : Core → Nat → Nat} (hx : ∀ s, exec i s = runWord i s fun m s => s.atomic m d b t fun q => ⟨op q, t, v q⟩)
    (hnew : ∀ q old, Rmw.new ⟨op q, t, v q⟩ old = new q old) :
    (FirstTraps i .nonidemOp fun m s x => x = 0 ∧ (s.core m).idem = true) ∧
      (∀ q old, Rmw.new ⟨op q, t, v q⟩ old = new q old) ∧ InTurns i (AtomicTurn d b t op v new) := by
  refine ⟨firstTraps_of_trap hx ?_, hnew, inTurns_of_done hx fun m s z h => atomic_done hnew h⟩
  rintro m s x ⟨rfl, hidem⟩
  exact atomic_nonidem d b t _ hidem

/-- Settles O26: every atomic is one effect, whose new value is the operation's by its definition; the plan is read behind
the translation, which leaves it as it was. -/
theorem atomicsReturnTheOldValue : Obligations.AtomicsReturnTheOldValue := by
  refine ⟨fun c d b v t => ⟨?_, ?_, ?_, ?_, ?_, ?_, ?_⟩, fun c d b cv nv t => ?_, fun c b v t => ?_⟩
  all_goals exact atomic_words (fun _ => rfl) fun _ _ => rfl

end Sys2Proof.Machine

/-! Proof of O28: sequentially consistent operations issue, perform at a window, and complete (R117, R118). -/
namespace Sys2Proof.Machine

/-! ## Issue -/

/-- What a sequentially consistent operation leaves of one core in its turn. -/
def ScTurn (kind : ScKind) (d b : SReg) (v : Core → Word) (t : AType) (m : CoreId) (s z : State) : Prop :=
  let n := atypeBits t / 8
  let q := s.core m
  let a := q.rs b
  (kind = .load ∨ q.idem = false) ∧ s.checkAccess m (if kind = .load then accScRead else accScWrite) [⟨a, n, n⟩] = none ∧
  q.fences = [] ∧ q.sc = none ∧
  ∃ u l ls, s.fenceSteps m { pred := 0xFF, succ := 0xFF, scope := .package, upto := q.issue, pairs := s.pairsOut } = some u ∧
    let x := u.resolve m (kind != .load) 3 (runBytes a n)
    x.2.lanes = l :: ls ∧ z = x.1.modCore m fun q =>
      let o : ScOp := { kind := kind, d := d, t := t, pa := l.pa, home := l.home, va := a, v := v (s.core m), pc := q.pc, blk := q.blk
                        late := if (x.1.tile (tileOf m)).stretch = 0 then 0 else Config.scLate x.1.tick m }
      { q with early := [], sc := some o }

theorem scIssue_done {kind : ScKind} {d b : SReg} {v : Core → Word} {t : AType} {m : CoreId} {s z : State}
    (h : ScTurn kind d b v t m s z) : s.scIssue m kind d b (v (s.core m)) t = .done z := by
  obtain ⟨hkind, hok, hf, hsc, u, l, ls, hsteps, hlanes, rfl⟩ := h
  have hidem : ((s.core m).idem && kind != .load) = false := by
    rcases hkind with rfl | hi
    · simp
    · simp [hi]
  simp only [State.scIssue, hidem, Bool.false_eq_true, if_false, beq_iff_eq, hok, fenceGate_open _ hf hsc, hsteps, hlanes]

theorem sc_words {i : Instr} {kind : ScKind} {d b : SReg} {v : Core → Word} {t : AType}
    (hx : ∀ s, exec i s = runWord i s fun m s => s.scIssue m kind d b (v (s.core m)) t) :
    (kind ≠ .load → FirstTraps i .nonidemOp fun m s x => x = 0 ∧ (s.core m).idem = true) ∧
      InTurns i (ScTurn kind d b v t) := by
  refine ⟨fun hkind => firstTraps_of_trap hx ?_, inTurns_of_done hx fun m s z h => scIssue_done h⟩
  rintro m s x ⟨rfl, hidem⟩
  have hbad : ((s.core m).idem && kind != .load) = true := by simp [hidem, hkind]
  simp only [State.scIssue, hbad, if_true]

/-! ## The window -/

/-- What a window leaves of an operation: performed where it had reached Sirocco, else a window nearer. -/
def ScOp.Windowed (o o' : ScOp) : Prop :=
  (o.performed = none → o.late = 0 → o'.performed.isSome = true) ∧
    (o.performed = none → 0 < o.late → o' = { o with late := o.late - 1 }) ∧ (o.performed.isSome = true → o' = o)

/-- One core's place in a window: its own operation moves, and every other core's stands as it was. -/
theorem scPerform_cons {s t : State} {c : CoreId} {cs : List CoreId} (h : s.scPerform (c :: cs) = some t) :
    ∃ u : State, u.scPerform cs = some t ∧ (∀ k, k ≠ c → (u.core k).sc = (s.core k).sc) ∧
      ∀ o, (s.core c).sc = some o → ∃ o', (u.core c).sc = some o' ∧ o.Windowed o' := by
  unfold State.scPerform at h
  split at h
  next hn => exact ⟨s, h, fun _ _ => rfl, fun o ho => by rw [hn] at ho; cases ho⟩
  next o ho =>
    split at h
    next hp =>
      refine ⟨s, h, fun _ _ => rfl, fun o' ho' => ?_⟩
      obtain rfl : o = o' := Option.some.inj (ho.symm.trans ho')
      exact ⟨o, ho, fun hn => by simp [hn] at hp, fun hn => by simp [hn] at hp, fun _ => rfl⟩
    split at h
    next hp hl =>
      refine ⟨_, h, fun k hk => by rw [State.core_modCore_other s hk], fun o' ho' => ?_⟩
      obtain rfl : o = o' := Option.some.inj (ho.symm.trans ho')
      exact ⟨_, by rw [State.core_modCore_same], fun _ hz => by omega, fun _ _ => rfl, fun hs => absurd hs hp⟩
    next hp hl =>
      split at h
      · cases h
      next u old bad heng =>
        have hcore := (engineRmw_units heng).core
        refine ⟨_, h, fun k hk => by rw [State.core_modCore_other u hk, hcore], fun o' ho' => ?_⟩
        obtain rfl : o = o' := Option.some.inj (ho.symm.trans ho')
        refine ⟨{ o with performed := some (BitVec.ofNat 64 old), bad := bad && o.kind != .store }, ?_,
          fun _ _ => rfl, fun _ hz => absurd hz hl, fun hs => absurd hs hp⟩
        rw [State.core_modCore_same]
        dsimp only
        split <;> rfl

/-- A window leaves alone the operations of cores whose place it does not come to. -/
theorem scPerform_other {cs : List CoreId} : ∀ {s t : State}, s.scPerform cs = some t → ∀ k, k ∉ cs →
    (t.core k).sc = (s.core k).sc := by
  induction cs with
  | nil => intro s t h k _; rw [Option.some.inj h]
  | cons c cs ih =>
    intro s t h k hk
    obtain ⟨u, hu, hother, -⟩ := scPerform_cons h
    rw [ih hu k fun hmem => hk (List.mem_cons_of_mem _ hmem), hother k fun he => hk (he ▸ List.mem_cons_self)]

theorem scPerform_windowed {cs : List CoreId} (hn : cs.Nodup) : ∀ {s t : State}, s.scPerform cs = some t →
    ∀ c ∈ cs, ∀ o, (s.core c).sc = some o → ∃ o', (t.core c).sc = some o' ∧ o.Windowed o' := by
  induction cs with
  | nil => intro s t _ c hc; cases hc
  | cons k cs ih =>
    intro s t h c hc o ho
    obtain ⟨hk, hcs⟩ := List.nodup_cons.mp hn
    obtain ⟨u, hu, hother, hown⟩ := scPerform_cons h
    by_cases hck : c = k
    · subst hck
      rw [scPerform_other hu c hk]
      exact hown o ho
    · exact ih hcs hu c ((List.mem_cons.mp hc).resolve_left hck) o (by rw [hother c hck, ho])

theorem scPerform_idle {s : State} (h : ∀ c, (s.core c).sc = none) (cs : List CoreId) : s.scPerform cs = some s := by
  induction cs with
  | nil => rfl
  | cons c cs ih => rw [State.scPerform, h c]; exact ih

/-! ## Completion -/

theorem scComplete_waits {s : State} {c : CoreId} {o : ScOp} (ho : (s.core c).sc = some o) (hp : o.performed = none) :
    exec (.scOperationComplete c) s = .next s := by
  show execScOperationComplete c s = _
  simp only [execScOperationComplete, ho, hp]

theorem scComplete_ends {s : State} {c : CoreId} {o : ScOp} {old : Word} (ho : (s.core c).sc = some o) (hp : o.performed = some old) :
    exec (.scOperationComplete c) s = .next ((s.freshLines c).modCore c fun q =>
      if o.kind = .store ∨ o.bad = true then { q with sc := none }
      else ({ q with sc := none } : Core).ws o.d (atypeExtend o.t old.toNat)) := by
  show execScOperationComplete c s = _
  simp only [execScOperationComplete, ho, hp, Bool.or_eq_true, beq_iff_eq]

/-- Settles O28: an operation issues behind its fence; a window comes to each core once, where only that core's operation
moves, since the engines change no core; and completion writes what the window has read. -/
theorem sequentiallyConsistentOperations : Obligations.SequentiallyConsistentOperations := by
  refine ⟨⟨fun c d b t => ?_, fun c b v t => ?_, fun c d b v t => ?_⟩, fun s h => ?_, fun s t h => ⟨?_, fun c hc o ho => ?_⟩,
    fun s c o ho => ⟨scComplete_waits ho, fun old => scComplete_ends ho⟩⟩
  · exact sc_words (v := fun _ => 0) fun _ => rfl
  · exact sc_words (v := fun q => v.val q) fun _ => rfl
  · exact sc_words (v := fun q => v.val q) fun _ => rfl
  · show execSiroccoWindowClose s = _
    rw [execSiroccoWindowClose, scPerform_idle h, Option.getD_some]
  · show execSiroccoWindowClose s = _
    rw [execSiroccoWindowClose, h, Option.getD_some]
  · exact scPerform_windowed List.nodup_range h c (List.mem_range.mpr hc) o ho

end Sys2Proof.Machine

/-! Proof of O25: prefetch, write-back of a line, and fences (R108 to R110). -/
namespace Sys2Proof.Machine

/-! ## PRF and FLL (R108) -/

theorem prefetch_local {s : State} {ea : Word} (c : CoreId) (ch : BitVec 2) (level : PrfLevel) (h : isGlobal ea.toNat = false) :
    s.prefetch c ch level ea = s := by
  simp only [State.prefetch, h, Bool.not_false, if_true]

/-- Where a test picks no store of a core, none drains. -/
theorem drainWhere_none {s : State} {c : CoreId} {pick : PendStore → Bool} (h : ∀ p ∈ (s.core c).stores, pick p = false) :
    s.drainWhere c pick = s := by
  have hany : ∀ p : PendStore,
      ((s.core c).stores.any fun o => pick o && decide (p.n < o.n) && p.loc == o.loc && meets p.cells o.cells) = false := by
    intro p
    simp only [List.any_eq_false]
    intro o ho
    simp [h o ho]
  have hkeep : ∀ l : List PendStore, (∀ p ∈ l, pick p = false) →
      l.foldl (fun u p => if (pick p || (s.core c).stores.any fun o =>
          pick o && decide (p.n < o.n) && p.loc == o.loc && meets p.cells o.cells) = true
        then u.drainStore c p.n else u) s = s := by
    intro l
    induction l with
    | nil => intro _; rfl
    | cons p l ih =>
      intro hl
      rw [List.foldl_cons, hl p List.mem_cons_self, hany p]
      exact ih fun o ho => hl o (List.mem_cons_of_mem _ ho)
  exact hkeep _ h

/-- A line of which a core has no buffered store is written back at once. -/
theorem flushLine_clear {s : State} {c : CoreId} {line : Nat} (inval : Bool)
    (h : ∀ p ∈ (s.core c).stores, p.loc = false → ∀ y ∈ p.cells, y.1 / 128 ≠ line) :
    s.flushLine c inval line = .done (if inval then s.l1Expel (tileOf c) line else s.l1WriteBack (tileOf c) line) := by
  have hmine : ∀ p ∈ (s.core c).stores, (!p.loc && p.cells.any fun (a, _) => a / 128 == line) = false := by
    intro p hp
    cases hl : p.loc with
    | true => rfl
    | false => simpa using fun a b hab => h p hp hl (a, b) hab
  have hnone : ((s.core c).stores.any fun p => !p.loc && p.cells.any fun (a, _) => a / 128 == line) = false := by
    simpa only [List.any_eq_false, Bool.not_eq_true] using hmine
  unfold State.flushLine
  dsimp only
  rw [drainWhere_none hmine, hnone]
  rfl

theorem fll_words (c : Ctl) (b : SReg) (mode : FllMode) (disp : BitVec 16) :
    (FirstTraps (.fll c b mode disp) .addrFault fun m s x =>
      x = (s.core m).rs b + disp.signExtend 64 ∧ (s.core m).place x.toNat = none) ∧
    (FirstTraps (.fll c b mode disp) .protFault fun m s x => let q := s.core m
      x = q.rs b + disp.signExtend 64 ∧ ∃ va y, q.place x.toNat = some (.glob va false) ∧ s.look m q.ctxNum va = .ok y ∧
        s.viewBad (y.key va) = false ∧ q.mayUse true y.leaf = false) ∧
    InTurns (.fll c b mode disp) fun m s t => let q := s.core m
      let ea := q.rs b + disp.signExtend 64
      (∃ o, q.place ea.toNat = some (.lm o) ∧ t = s) ∨
      (∃ va, q.place ea.toNat = some (.glob va true) ∧ t = s) ∨
      ∃ va, q.place ea.toNat = some (.glob va false) ∧ ((∃ e, s.look m q.ctxNum va = .error e ∧ t = s) ∨
        ∃ x, s.look m q.ctxNum va = .ok x ∧ s.viewBad (x.key va) = false ∧ q.mayUse true x.leaf = true ∧ q.fences = [] ∧
          q.sc = none ∧ (∀ p ∈ q.stores, p.loc = false → ∀ y ∈ p.cells, y.1 / 128 ≠ x.key va / 128) ∧
          let u := (s.xlat m q.ctxNum va false).1
          t = if mode = .cleaninv then u.l1Expel (tileOf m) (x.key va / 128) else u.l1WriteBack (tileOf m) (x.key va / 128)) := by
  refine ⟨firstTraps_of_trap (i := .fll c b mode disp) (fun _ => rfl) ?_,
    firstTraps_of_trap (i := .fll c b mode disp) (fun _ => rfl) ?_, inTurns_of_done (i := .fll c b mode disp) (fun _ => rfl) ?_⟩
  · rintro m s x ⟨rfl, hp⟩
    simp only [effAddr, hp]
  · rintro m s x ⟨rfl, va, y, hp, hl, hv, hu⟩
    simp only [effAddr, hp, hl, hv, hu, Bool.false_eq_true, if_false, Bool.not_false, if_true]
  · rintro m s t (⟨o, hp, rfl⟩ | ⟨va, hp, rfl⟩ | ⟨va, hp, hcase⟩)
    · simp only [effAddr, hp]
    · simp only [effAddr, hp, if_true]
    rcases hcase with ⟨e, hl, rfl⟩ | ⟨x, hl, hv, hu, hf, hsc, hst, rfl⟩
    · simp only [effAddr, hp, hl, Bool.false_eq_true, if_false]
    · have hstores := congrArg Core.stores (xlat_resolved s m (s.core m).ctxNum va false)
      simp only at hstores
      simp only [effAddr, hp, hl, hv, hu, Bool.false_eq_true, if_false, Bool.not_true, fenceGate_open _ hf hsc]
      rw [flushLine_clear _ (hstores ▸ hst)]
      simp only [beq_iff_eq]

/-! ## FENCE (R109, R110) -/

theorem fence_words (c : Ctl) (pred succ : BitVec 8) (scope : Scope) :
    InTurns (.fence c pred succ scope) fun m s t => t = s.modCore m fun q =>
      let keep : Byte := if q.idem then 0xDF else 0xFF
      if pred &&& keep = 0 ∨ succ &&& keep = 0 then q
      else { q with
        fences := q.fences ++ [{ pred := pred &&& keep, succ := succ &&& keep, scope := scope, upto := q.issue, pairs := s.pairsOut }]
        early := if meet (succ &&& keep) 0x01 then []
          else if meet ((pred &&& keep) ||| (succ &&& keep)) 0x80 then q.early.filter fun (a, _) => viewOf a == 0 else q.early
        issue := q.issue + 1 } := by
  refine inTurns_of_done_kept (i := .fence c pred succ scope) (fun s t => t.pairsOut = s.pairsOut) (fun _ => rfl) (fun _ => rfl) ?_
  rintro s₀ m s t hk rfl
  refine ⟨?_, hk⟩
  rw [← hk]
  refine congrArg (fun g => Res.done (s.modCore m g)) (funext fun q => ?_)
  unfold Core.fence
  cases q.idem <;> simp only [Bool.or_eq_true, decide_eq_true_eq] <;> rfl

/-- A set that meets one of the global classes meets gl or gs. -/
theorem meet_global (set : Byte) : meet set 0x03 = (meet set clsGl || meet set clsGs) := by
  revert set
  decide

theorem fenceSteps_done {s t : State} {c : CoreId} {x : FenceRec} (h : s.fenceSteps c x = some t) : t.fenceDone c x = true := by
  unfold State.fenceSteps at h
  dsimp only at h
  split at h
  next hd => exact Option.some.inj h ▸ hd
  · cases h

/-- What a fence whose predecessor steps are done has ordered (R110). -/
theorem fenceDone_orders {t : State} {c : CoreId} {x : FenceRec} (h : t.fenceDone c x = true) :
    (∀ p ∈ (t.core c).stores, p.n < x.upto → p.inSet (x.pred ||| ((x.pred ||| x.succ) &&& 0x80)) = false) ∧
    (∀ l ∈ (t.core c).loads, l.n < x.upto → l.inSet x.pred = false) ∧
    (meet x.pred 0x03 = true → (t.core c).sc = none) ∧
    (meet x.pred 0x20 = true → (t.core c).idem = false → ∀ p ∈ t.flight, p.src = c → x.pairs ≤ p.num) ∧
    (∀ o ∈ t.opsOf (t.core c).inst, o.core = c → o.issued ≤ x.upto →
      meet x.pred 0x10 = true ∧ o.kind.readsSource = true ∨ meet x.pred 0x40 = true ∧ o.kind.ringSource = true →
      t.sourceRead o = true) ∧
    (2 ≤ x.reach → meet x.pred 0x03 = true → t.tileWaits (tileOf c) = false) := by
  unfold State.fenceDone at h
  simp only [← meet_global, Bool.not_eq_true', Bool.or_eq_false_iff] at h
  obtain ⟨⟨⟨⟨⟨⟨hsc, hloads⟩, hstores⟩, hwide⟩, hpairs⟩, -⟩, hops⟩ := h
  simp only [List.any_eq_false, Bool.and_eq_true, decide_eq_true_eq, not_and, Bool.not_eq_true] at hloads hstores
  refine ⟨hstores, hloads, fun hg => ?_, fun hu hi p hp hc => ?_, fun o ho hc hn hs => ?_, fun hr hg => ?_⟩
  · simpa only [hg, Bool.true_and, Option.isSome_eq_false_iff, Option.isNone_iff_eq_none] using hsc
  · have hue : meet x.pred clsUe = true := hu
    simp only [hue, hi, Bool.not_false, Bool.true_and, Bool.and_self, List.any_eq_false] at hpairs
    simpa [hc] using hpairs p hp
  · have hread := List.any_eq_false.mp hops o ho
    have hsource : (meet x.pred clsEi && o.kind.readsSource || meet x.pred clsRp && o.kind.ringSource) = true := by
      rw [Bool.or_eq_true, Bool.and_eq_true, Bool.and_eq_true]
      exact hs
    simpa only [hc, hn, hsource, beq_self_eq_true, decide_true, Bool.true_and, Bool.and_true, Bool.not_eq_true, Bool.not_eq_false']
      using hread
  · simpa only [hr, hg, decide_true, Bool.true_and] using hwide

/-- Settles O25: the words complete in turn, and a fence whose steps are taken has found nothing of its predecessor set left. -/
theorem prefetchFlushAndFence : Obligations.PrefetchFlushAndFence := by
  refine ⟨⟨fun c b level disp => ?_, fll_words, fence_words⟩,
    fun s t c x h => fenceDone_orders (fenceSteps_done h)⟩
  refine inTurns_of_done (i := .prf c b level disp) (fun _ => rfl) ?_
  rintro m s t (⟨hl, rfl⟩ | ⟨-, rfl⟩)
  · exact congrArg Res.done (prefetch_local m c.ch level hl)
  · rfl

end Sys2Proof.Machine

/-! Proof of O22: loads and stores of any address that pass their checks complete (R99 to R107, R262). -/
namespace Sys2Proof.Machine

/-! ## Loads -/

/-- What a load that has passed its checks leaves of one core, from the state `u` in which it is counted: outstanding, or
its destination written, or the deferred trap of poisoned data pending. -/
def LoadIssued (m : CoreId) (dst : LoadDst) (w : Where) (u t : State) : Prop :=
  let empty := w.lanes = [] ∧ w.locs = []
  let later := (u.core m).defer.headD false = true ∧ ¬ empty
  let u := if empty then u else u.modCore m fun q => { q with defer := q.defer.drop 1 }
  let x := u.core m
  let left := u.modCore m fun x =>
    { x with loads := x.loads ++ [{ n := x.issue, pc := x.pc, blk := x.blk, dst := dst, lanes := w.lanes, locs := w.locs }]
             issue := x.issue + 1 }
  later ∧ t = left ∨
  ¬ later ∧ x.loadsMeet w = false ∧ (u.readWhere m x.issue w = none ∧ t = left ∨
    ∃ v r, u.readWhere m x.issue w = some (v, r) ∧ (r.ue = none ∧ t = v.modCore m (fun x => x.loadInto dst r) ∨
      ∃ a, r.ue = some a ∧ t = v.modCore m fun x => { x with due := x.due ++ [(x.pc, x.blk, a)] }))

theorem issueLoad_done {m : CoreId} {dst : LoadDst} {w : Where} {s t : State} (h : LoadIssued m dst w (s.countAccess m w 0x0012) t) :
    s.issueLoad m dst w = .done t := by
  have hempty : (w.lanes.isEmpty && w.locs.isEmpty) = decide (w.lanes = [] ∧ w.locs = []) := by
    rw [Bool.eq_iff_iff]
    simp
  unfold LoadIssued at h
  unfold State.issueLoad
  generalize s.countAccess m w 0x0012 = u at h
  dsimp only at h ⊢
  simp only [hempty, decide_eq_true_eq, Bool.and_eq_true, Bool.not_eq_true', decide_eq_false_iff_not]
  have hcore : (u.core m).loadsMeet w = ((if w.lanes = [] ∧ w.locs = [] then u else
      u.modCore m fun q => { q with defer := q.defer.drop 1 }).core m).loadsMeet w := by
    split
    · rfl
    · rw [State.core_modCore_same]
      rfl
  have hissue : (u.core m).issue = ((if w.lanes = [] ∧ w.locs = [] then u else
      u.modCore m fun q => { q with defer := q.defer.drop 1 }).core m).issue := by
    split
    · rfl
    · rw [State.core_modCore_same]
  rcases h with ⟨hl, rfl⟩ | ⟨hl, hmeet, h⟩
  · rw [if_pos hl]
    rfl
  · rw [if_neg hl, hcore, hmeet, if_neg Bool.false_ne_true, hmeet, if_neg Bool.false_ne_true, hissue]
    rcases h with ⟨hr, rfl⟩ | ⟨v, r, hr, ⟨hue, rfl⟩ | ⟨a, hue, rfl⟩⟩
    · rw [hr]
      rfl
    · simp only [hr, hue]
    · simp only [hr, hue]
      rfl

/-- A load of one core in its turn: aligned as `aligned` says, past its checks, with nothing of its core before it. -/
def LoadTurn (c : Ctl) (dst : Core → LoadDst) (aligned : Core → Prop) (es : Core → List Elem) (bytes : Core → List (Nat × Nat))
    (m : CoreId) (s t : State) : Prop :=
  let q := s.core m
  aligned q ∧ q.fences = [] ∧ q.sc = none ∧ s.checkAccess m accRead (es q) = none ∧
    LoadIssued m (dst q) (s.resolve m false c.ch (bytes q)).2
      ((s.resolve m false c.ch (bytes q)).1.countAccess m (s.resolve m false c.ch (bytes q)).2 0x0012) t

theorem load_done {c : Ctl} {dst : Core → LoadDst} {aligned : Core → Prop} {es : Core → List Elem}
    {bytes : Core → List (Nat × Nat)} {m : CoreId} {s t : State} (h : LoadTurn c dst aligned es bytes m s t) :
    s.load m c.ch (dst (s.core m)) (es (s.core m)) (bytes (s.core m)) = .done t := by
  obtain ⟨-, hf, hsc, hok, hissued⟩ := h
  simp only [State.load, State.access, hok, fenceGate_open _ hf hsc]
  exact issueLoad_done hissued

/-! ## Stores -/

/-- A store of one core in its turn. -/
def StoreTurn (c : Ctl) (aligned : Core → Prop) (es : Core → List Elem) (bytes : Core → List (Nat × Nat))
    (byte : Core → Nat → Byte) (m : CoreId) (s t : State) : Prop :=
  let q := s.core m
  aligned q ∧ q.fences = [] ∧ q.sc = none ∧ s.checkAccess m accWrite (es q) = none ∧
    let u := s.resolve m true c.ch (bytes q)
    t = (u.1.countAccess m u.2 0x0013).buffer m u.2 (byte q)

theorem store_done {c : Ctl} {aligned : Core → Prop} {es : Core → List Elem} {bytes : Core → List (Nat × Nat)}
    {byte : Core → Nat → Byte} {m : CoreId} {s t : State} (h : StoreTurn c aligned es bytes byte m s t) :
    s.store m c.ch (es (s.core m)) (bytes (s.core m)) (byte (s.core m)) = .done t := by
  obtain ⟨-, hf, hsc, hok, rfl⟩ := h
  simp only [State.store, State.access, hok, fenceGate_open _ hf hsc]
  rfl

/-! ## Whole registers -/

/-- A whole-register access goes on to its load or store when it is aligned (log 30). -/
theorem aligned_or_trap {ea : Word} (h : ea.toNat % 32 = 0) (r : Res) :
    (if misalignedVec ea then Res.trap .misaligned ea else r) = r := by
  simp [misalignedVec, h]

theorem load_words {i : Instr} (c : Ctl) (dst : Core → LoadDst) (es : Core → List Elem) (bytes : Core → List (Nat × Nat))
    (hx : ∀ s, exec i s = runWord i s fun m s => s.load m c.ch (dst (s.core m)) (es (s.core m)) (bytes (s.core m))) :
    InTurns i (LoadTurn c dst (fun _ => True) es bytes) :=
  inTurns_of_done hx fun _ _ _ h => load_done h

theorem store_words {i : Instr} (c : Ctl) (es : Core → List Elem) (bytes : Core → List (Nat × Nat)) (byte : Core → Nat → Byte)
    (hx : ∀ s, exec i s = runWord i s fun m s => s.store m c.ch (es (s.core m)) (bytes (s.core m)) (byte (s.core m))) :
    InTurns i (StoreTurn c (fun _ => True) es bytes byte) :=
  inTurns_of_done hx fun _ _ _ h => store_done h

/-! ## The words -/

theorem ld_turns (c : Ctl) (d b : SReg) (size : MemSize) (disp : BitVec 16) :
    InTurns (.ld c d b size disp) (LoadTurn c (fun _ => .scalar d (memBytes size) (memSigned size)) (fun _ => True)
      (fun q => [⟨effAddr q b disp, memBytes size, memBytes size⟩]) fun q => runBytes (effAddr q b disp) (memBytes size)) :=
  load_words c (fun _ => .scalar d (memBytes size) (memSigned size)) (fun q => [⟨effAddr q b disp, memBytes size, memBytes size⟩])
    (fun q => runBytes (effAddr q b disp) (memBytes size)) fun _ => rfl

theorem ldp_turns (c : Ctl) (d1 d2 b : SReg) (disp : BitVec 16) :
    InTurns (.ldp c d1 d2 b disp) (LoadTurn c (fun _ => .pair d1 d2) (fun _ => True)
      (fun q => [⟨effAddr q b disp, 16, 8⟩]) fun q => runBytes (effAddr q b disp) 16) :=
  load_words c (fun _ => .pair d1 d2) (fun q => [⟨effAddr q b disp, 16, 8⟩]) (fun q => runBytes (effAddr q b disp) 16) fun _ => rfl

theorem ldv_turns (c : Ctl) (d : VReg) (b : SReg) (k : KOpt) (disp : BitVec 16) :
    InTurns (.ldv c d b k disp) (LoadTurn c (fun q => .vec d q.long) (fun q => (effAddr q b disp).toNat % 32 = 0)
      (fun q => laneElems (q.vecLanes k (effAddr q b disp))) fun q => q.vecLanes k (effAddr q b disp)) :=
  inTurns_of_done (i := .ldv c d b k disp) (fun _ => rfl) fun _ _ _ h => (aligned_or_trap h.1 _).trans (load_done h)

theorem ldvs_turns (c : Ctl) (d : VReg) (b : SReg) (stride : SImm) (size : ElSize) (k : KOpt) :
    InTurns (.ldvs c d b stride size k) (LoadTurn c (fun q => .vec d q.long) (fun _ => True)
      (fun q => stridedElems (elBytes size) (q.strided b stride (elBytes size) k))
      fun q => stridedBytes (elBytes size) (q.strided b stride (elBytes size) k)) :=
  load_words c (fun q => .vec d q.long) (fun q => stridedElems (elBytes size) (q.strided b stride (elBytes size) k))
    (fun q => stridedBytes (elBytes size) (q.strided b stride (elBytes size) k)) fun _ => rfl

theorem st_turns (c : Ctl) (b : SReg) (a : Src) (size : MemSize) (disp : BitVec 16) :
    InTurns (.st c b a size disp) (StoreTurn c (fun _ => True) (fun q => [⟨effAddr q b disp, memBytes size, memBytes size⟩])
      (fun q => runBytes (effAddr q b disp) (memBytes size)) fun q => wordByte (a.val q)) :=
  store_words c (fun q => [⟨effAddr q b disp, memBytes size, memBytes size⟩])
    (fun q => runBytes (effAddr q b disp) (memBytes size)) (fun q => wordByte (a.val q)) fun _ => rfl

theorem stp_turns (c : Ctl) (b : SReg) (a1 a2 : Src) (disp : BitVec 16) :
    InTurns (.stp c b a1 a2 disp) (StoreTurn c (fun _ => True) (fun q => [⟨effAddr q b disp, 16, 8⟩])
      (fun q => runBytes (effAddr q b disp) 16)
      fun q i => if i < 8 then wordByte (a1.val q) i else wordByte (a2.val q) (i - 8)) :=
  store_words c (fun q => [⟨effAddr q b disp, 16, 8⟩]) (fun q => runBytes (effAddr q b disp) 16)
    (fun q i => if i < 8 then wordByte (a1.val q) i else wordByte (a2.val q) (i - 8)) fun _ => rfl

theorem stv_turns (c : Ctl) (b : SReg) (v : VReg) (k : KOpt) (disp : BitVec 16) :
    InTurns (.stv c b v k disp) (StoreTurn c (fun q => (effAddr q b disp).toNat % 32 = 0)
      (fun q => laneElems (q.vecLanes k (effAddr q b disp))) (fun q => q.vecLanes k (effAddr q b disp)) fun q => vecByte q v) :=
  inTurns_of_done (i := .stv c b v k disp) (fun _ => rfl) fun _ _ _ h => (aligned_or_trap h.1 _).trans (store_done h)

theorem stvs_turns (c : Ctl) (b : SReg) (v : VReg) (stride : SImm) (size : ElSize) (k : KOpt) :
    InTurns (.stvs c b v stride size k) (StoreTurn c (fun _ => True)
      (fun q => stridedElems (elBytes size) (q.strided b stride (elBytes size) k))
      (fun q => lastWins (stridedBytes (elBytes size) (q.strided b stride (elBytes size) k))) fun q => vecByte q v) :=
  store_words c (fun q => stridedElems (elBytes size) (q.strided b stride (elBytes size) k))
    (fun q => lastWins (stridedBytes (elBytes size) (q.strided b stride (elBytes size) k))) (fun q => vecByte q v) fun _ => rfl

/-- Settles O22: every word is one load or store of its own bytes, behind its alignment. -/
theorem acceptedAccessesComplete : Obligations.AcceptedAccessesComplete :=
  ⟨ld_turns, ldp_turns, ldv_turns, ldvs_turns, st_turns, stp_turns, stv_turns, stvs_turns⟩

end Sys2Proof.Machine

/-! Proof of O20: loads from and stores to a core's share of local memory (R104 to R107, R262). A load or store whose bytes
all lie in the share passes its checks, resolves to offsets, and reads or buffers exactly their bytes. -/
namespace Sys2Proof.Machine

/-! ## Places in the share -/

/-- The address of local memory lies far below the end of the address space. -/
theorem place_lm_lt {q : Core} {ea o : Nat} (h : q.place ea = some (.lm o)) : ea < 2 ^ 57 := by
  have hstack : stackBase + 2 ^ 33 < 2 ^ 57 := by norm_num [stackBase]
  have hscratch : scratchBase + 2 ^ 22 < 2 ^ 57 := by norm_num [scratchBase]
  unfold Core.place at h
  split at h
  · cases h
  split at h
  next hin => exact lt_trans hin hstack
  split at h
  next hin =>
    rw [Bool.and_eq_true, decide_eq_true_eq, decide_eq_true_eq] at hin
    exact lt_trans hin.2 hscratch
  · cases h

/-- The bytes of an access that starts in local memory do not wrap around. -/
theorem toNat_add_of_place {q : Core} {ea : Word} {o i : Nat} (h : q.place ea.toNat = some (.lm o)) (hi : i < 2 ^ 57) :
    (ea + BitVec.ofNat 64 i).toNat = ea.toNat + i := by
  have := place_lm_lt h
  rw [BitVec.toNat_add, BitVec.toNat_ofNat]
  omega

theorem byteFail_lm {s : State} {m : CoreId} {k : AccKind} {ea o : Nat} (hk : k.global = false) (report : Word)
    (h : (s.core m).place ea = some (.lm o)) : s.byteFail m k report ea = none := by
  simp only [State.byteFail, h, hk, Bool.false_eq_true, if_false]

/-- Every byte of an element lies in local memory. -/
def Core.ElemLocal (q : Core) (e : Elem) : Prop :=
  ∀ i < e.n, ∃ o, q.place (e.ea + BitVec.ofNat 64 i).toNat = some (.lm o)

theorem elemFail_lm {s : State} {m : CoreId} {k : AccKind} {e : Elem} (hk : k.global = false) (ha : e.ea.toNat % e.align = 0)
    (hn : 0 < e.n) (hlt : e.n < 2 ^ 57) (h : (s.core m).ElemLocal e) : s.elemFail m k e = none := by
  obtain ⟨o, ho⟩ := h 0 hn
  obtain ⟨o', ho'⟩ := h (e.n - 1) (by omega)
  rw [BitVec.add_zero] at ho
  rw [toNat_add_of_place ho (by omega), ← Nat.add_sub_assoc hn] at ho'
  simp only [State.elemFail, ha, bne_self_eq_false, Bool.false_eq_true, if_false, byteFail_lm hk _ ho, byteFail_lm hk _ ho', ite_self,
    firstFail]

theorem accessFail_none {s : State} {m : CoreId} {k : AccKind} {es : List Elem} (h : ∀ e ∈ es, s.elemFail m k e = none) :
    s.accessFail m k es = none := by
  have hfold : es.foldl (fun f e => firstFail f (s.elemFail m k e)) none = none := by
    induction es with
    | nil => rfl
    | cons e es ih =>
      rw [List.foldl_cons, h e List.mem_cons_self]
      exact ih fun e' he => h e' (List.mem_cons_of_mem _ he)
  rw [State.accessFail, hfold]
  rfl

theorem checkAccess_none {s : State} {m : CoreId} {k : AccKind} {es : List Elem}
    (hspill : (headerOf (s.core m).hdr).noSpill = true → ∀ e ∈ es, inStack e.ea = false)
    (h : ∀ e ∈ es, s.elemFail m k e = none) : s.checkAccess m k es = none := by
  have hs : ((headerOf (s.core m).hdr).noSpill && es.any fun e => inStack e.ea) = false := by
    cases hb : (headerOf (s.core m).hdr).noSpill with
    | false => rfl
    | true => simpa using hspill hb
  simp only [State.checkAccess, hs, Bool.false_eq_true, if_false, accessFail_none h]

/-- An access whose elements lie among the bytes of a local one, each aligned, passes its checks. -/
theorem State.Local.accepted {s : State} {m : CoreId} {l : List (Nat × Word)} {off : Nat → Nat} (h : s.Local m l off)
    {k : AccKind} (hk : k.global = false) {es : List Elem}
    (hes : ∀ e ∈ es, e.ea.toNat % e.align = 0 ∧ 0 < e.n ∧ e.n < 2 ^ 57 ∧
      ∀ i < e.n, ∃ j, (j, e.ea + BitVec.ofNat 64 i) ∈ l) : s.checkAccess m k es = none := by
  refine checkAccess_none (fun hs e he => ?_) fun e he => ?_
  · obtain ⟨-, hn, -, hb⟩ := hes e he
    obtain ⟨j, hj⟩ := hb 0 hn
    rw [BitVec.add_zero] at hj
    exact h.spills hs _ hj
  · obtain ⟨ha, hn, hlt, hb⟩ := hes e he
    refine elemFail_lm hk ha hn hlt fun i hi => ?_
    obtain ⟨j, hj⟩ := hb i hi
    exact ⟨_, h.lies _ hj⟩

/-! ## Resolving and reading -/

theorem resolve_local {s : State} {m : CoreId} {l : List (Nat × Nat)} {off : Nat → Nat} (write : Bool) (ch : BitVec 2)
    (h : ∀ x ∈ l, (s.core m).place x.2 = some (.lm (off x.1))) :
    s.resolve m write ch l = (s, { locs := l.map fun x => (x.1, off x.1) }) := by
  have hfold : ∀ (l : List (Nat × Nat)) (w : Where), (∀ x ∈ l, (s.core m).place x.2 = some (.lm (off x.1))) →
      l.foldl (fun (s, w) (i, ea) => s.resolveByte m write ch w i ea) (s, w) =
        (s, { w with locs := w.locs ++ l.map fun x => (x.1, off x.1) }) := by
    intro l
    induction l with
    | nil => intro w _; simp
    | cons x l ih =>
      intro w hl
      have hx : s.resolveByte m write ch w x.1 x.2 = (s, { w with locs := w.locs ++ [(x.1, off x.1)] }) := by
        simp only [State.resolveByte, hl x List.mem_cons_self]
      simp only [List.foldl_cons, hx]
      rw [ih _ fun y hy => hl y (List.mem_cons_of_mem _ hy)]
      simp
  exact hfold l {} h

/-- The bytes that a load of sound local memory reads. -/
theorem readLocal_clean {s : State} {m : CoreId} {off : Nat → Nat} (l : List (Nat × Word)) (r : Read)
    (h : ∀ x ∈ l, (s.tile (tileOf m)).poison.contains (off x.1 / 128) = false) :
    (l.map fun x => (x.1, off x.1)).foldl (fun r (i, o) => s.readLocal m (s.core m).issue r i o) r =
      { r with bytes := r.bytes ++ l.map fun x => (x.1, s.localByte m (off x.1)) } := by
  induction l generalizing r with
  | nil => simp
  | cons x l ih =>
    have hx : s.readLocal m (s.core m).issue r x.1 (off x.1) = { r with bytes := r.bytes ++ [(x.1, s.localByte m (off x.1))] } := by
      unfold State.readLocal State.localByte
      cases (s.core m).forward (s.core m).issue true (off x.1) with
      | some b => rfl
      | none => simp only [h x List.mem_cons_self, Bool.false_and, Bool.false_eq_true, if_false, Option.getD_none]
    simp only [List.map_cons, List.foldl_cons, hx]
    rw [ih _ fun y hy => h y (List.mem_cons_of_mem _ hy)]
    simp

/-- What a load of local bytes has read. -/
def State.localRead (s : State) (m : CoreId) (l : List (Nat × Word)) (off : Nat → Nat) : Read :=
  { bytes := l.map fun x => (x.1, s.localByte m (off x.1)) }

theorem readWhere_local {s : State} {m : CoreId} {l : List (Nat × Word)} {off : Nat → Nat} (h : s.Local m l off) :
    s.readWhere m (s.core m).issue { locs := l.map fun x => (x.1, off x.1) } = some (s, s.localRead m l off) := by
  simp only [State.readWhere, readLocal_clean l {} h.clean]
  rfl

/-- A local access is one in every state with the same core and tile, and reads the same there. -/
theorem State.Local.same {s u : State} {m : CoreId} {l : List (Nat × Word)} {off : Nat → Nat} (h : s.Local m l off)
    (hc : u.core m = s.core m) (ht : u.tile (tileOf m) = s.tile (tileOf m)) :
    u.Local m l off ∧ u.localRead m l off = s.localRead m l off := by
  obtain ⟨hlies, hclean, hunfenced, hapart, hspills⟩ := h
  refine ⟨⟨?_, ?_, ?_, ?_, ?_⟩, by unfold State.localRead State.localByte; rw [hc, ht]⟩
  all_goals simp only [hc, ht]
  all_goals assumption

theorem modCore_congr {s : State} {m : CoreId} {f g : Core → Core} (h : f (s.core m) = g (s.core m)) :
    s.modCore m f = s.modCore m g := by
  rw [State.modCore, State.modCore, h]

/-- A core whose plan is empty is as it was when a load has used it. -/
theorem core_defer_drop {q : Core} (hd : q.defer = []) : { q with defer := q.defer.drop 1 } = q := by
  rw [hd]
  exact congrArg (fun x => ({ q with defer := x } : Core)) hd.symm

theorem State.Local.loadsMeet {s : State} {m : CoreId} {l : List (Nat × Word)} {off : Nat → Nat} (h : s.Local m l off) :
    (s.core m).loadsMeet { locs := l.map fun x => (x.1, off x.1) } = false := by
  simp only [Core.loadsMeet, List.any_nil, Bool.false_or, List.any_map, List.any_eq_false, Bool.not_eq_true]
  exact fun o ho x hx => h.apart o ho x hx

theorem State.Local.loadIssued {s : State} {m : CoreId} {l : List (Nat × Word)} {off : Nat → Nat} (h : s.Local m l off)
    (hd : (s.core m).defer = []) (dst : LoadDst) :
    LoadIssued m dst { locs := l.map fun x => (x.1, off x.1) } s
      (s.modCore m fun q => q.loadInto dst (s.localRead m l off)) := by
  unfold LoadIssued
  dsimp only
  rw [hd]
  generalize hu : (if ([] : List Lane) = [] ∧ (l.map fun x => (x.1, off x.1)) = [] then s
    else s.modCore m fun q => { q with defer := q.defer.drop 1 }) = u
  have hcore : u.core m = s.core m := by
    subst hu
    split
    · rfl
    · rw [State.core_modCore_same, core_defer_drop hd]
  have htile : u.tile (tileOf m) = s.tile (tileOf m) := by
    subst hu
    split <;> rfl
  have hmod : ∀ g, u.modCore m g = s.modCore m g := by
    intro g
    subst hu
    split
    · rfl
    · rw [State.modCore_modCore]
      exact modCore_congr (congrArg g (core_defer_drop hd))
  obtain ⟨hl, hread⟩ := h.same hcore htile
  refine .inr ⟨fun hlater => Bool.false_ne_true hlater.1, hl.loadsMeet, .inr ⟨u, _, readWhere_local hl, .inl ⟨rfl, ?_⟩⟩⟩
  rw [hmod, hread]

/-- A local load that the core's plan does not leave outstanding writes its destination from the bytes of its offsets. -/
theorem State.Local.loadTurn {c : Ctl} {dst : Core → LoadDst} {aligned : Core → Prop} {es : Core → List Elem}
    {bytes : Core → List (Nat × Nat)} {s t : State} {m : CoreId} {l : List (Nat × Word)} {off : Nat → Nat} (h : s.Local m l off)
    (hd : (s.core m).defer = []) (ha : aligned (s.core m)) (hok : s.checkAccess m accRead (es (s.core m)) = none)
    (hb : bytes (s.core m) = l.map fun x => (x.1, x.2.toNat))
    (ht : t = s.modCore m fun q => q.loadInto (dst (s.core m)) (s.localRead m l off)) :
    LoadTurn c dst aligned es bytes m s t := by
  have hres : s.resolve m false c.ch (bytes (s.core m)) = (s, { locs := l.map fun x => (x.1, off x.1) }) := by
    rw [hb, resolve_local false c.ch (off := off) (List.forall_mem_map.mpr h.lies), List.map_map]
    rfl
  obtain ⟨hf, hsc⟩ := h.unfenced
  refine ⟨ha, hf, hsc, hok, ?_⟩
  rw [hres, ht]
  exact h.loadIssued hd _

/-! ## The value of a load -/

/-- The byte of an index: what local memory holds at its offset, or zero where no byte of the access has the index. -/
theorem localRead_byte (s : State) (m : CoreId) (l : List (Nat × Word)) (off : Nat → Nat) (j : Nat) :
    (s.localRead m l off).byte j = if j ∈ l.map (·.1) then s.localByte m (off j) else 0 := by
  unfold State.localRead Read.byte
  induction l with
  | nil => rfl
  | cons x l ih =>
    by_cases hx : x.1 = j
    · simp [hx]
    · have hne : j ≠ x.1 := fun e => hx e.symm
      simpa [hx, hne] using ih

theorem localRead_num {s : State} {m : CoreId} {l : List (Nat × Word)} {off : Nat → Nat} {i n : Nat} {f : Nat → Byte}
    (h : ∀ k < n, (if i + k ∈ l.map (·.1) then s.localByte m (off (i + k)) else 0) = f k) :
    (s.localRead m l off).num i n = ofLe ((List.range n).map f) := by
  unfold Read.num
  refine congrArg ofLe (List.map_congr_left fun k hk => ?_)
  rw [localRead_byte, h k (List.mem_range.mp hk)]

theorem mem_bytesFrom_index {ea : Word} {n j : Nat} : j ∈ (bytesFrom ea n).map (·.1) ↔ j < n := by
  simp [bytesFrom]

theorem mem_bytesFrom {ea : Word} {n i : Nat} (h : i < n) : (i, ea + BitVec.ofNat 64 i) ∈ bytesFrom ea n :=
  List.mem_map.mpr ⟨i, List.mem_range.mpr h, rfl⟩

theorem runBytes_eq (ea : Word) (n : Nat) : runBytes ea n = (bytesFrom ea n).map fun x => (x.1, x.2.toNat) := by
  simp [runBytes, bytesFrom]

/-- A whole run read from local memory. -/
theorem localRead_num_run {s : State} {m : CoreId} {ea : Word} {off : Nat → Nat} {i n w : Nat} (h : i + n ≤ w) :
    (s.localRead m (bytesFrom ea w) off).num i n = ofLe ((List.range n).map fun k => s.localByte m (off (i + k))) :=
  localRead_num fun k hk => if_pos (mem_bytesFrom_index.mpr (by omega))

/-- The bytes of a vector register, in the mode in force. -/
theorem vbytes_cases (q : Core) : q.long = true ∧ q.vbits / 8 = 256 ∨ q.long = false ∧ q.vbits / 8 = 32 := by
  unfold Core.vbits
  cases q.long
  · exact .inr ⟨rfl, rfl⟩
  · exact .inl ⟨rfl, rfl⟩

/-- A vector load writes the number of its register's bytes. -/
theorem loadInto_vec (q : Core) (d : VReg) (r : Read) : q.loadInto (.vec d q.long) r = q.wv d (r.num 0 (q.vbits / 8)) := by
  unfold Core.loadInto Core.wv
  rcases vbytes_cases q with ⟨hl, hb⟩ | ⟨hl, hb⟩ <;> simp only [hl, hb, if_true, Bool.false_eq_true, if_false]

/-! ## Single accesses -/

/-- A single access of local bytes, aligned, passes its checks. -/
theorem State.Local.accepted_run {s : State} {m : CoreId} {ea : Word} {n align : Nat} {off : Nat → Nat}
    (h : s.Local m (bytesFrom ea n) off) {k : AccKind} (hk : k.global = false) (hn : 0 < n) (hlt : n < 2 ^ 57)
    (ha : ea.toNat % align = 0) : s.checkAccess m k [⟨ea, n, align⟩] = none :=
  h.accepted hk fun e he => by
    rw [List.mem_singleton.mp he]
    exact ⟨ha, hn, hlt, fun i hi => ⟨i, mem_bytesFrom hi⟩⟩

theorem memBytes_bounds (size : MemSize) : 0 < memBytes size ∧ memBytes size < 2 ^ 57 := by
  cases size <;> decide

theorem ld_local (c : Ctl) (d b : SReg) (size : MemSize) (disp : BitVec 16) :
    InTurns (.ld c d b size disp) fun m s t => let q := s.core m
      let ea := q.rs b + disp.signExtend 64
      let n := memBytes size
      ∃ off, q.defer = [] ∧ ea.toNat % n = 0 ∧ s.Local m (bytesFrom ea n) off ∧
        let x := ofLe ((List.range n).map fun i => s.localByte m (off i))
        t = s.modCore m fun q => q.ws d (if memSigned size then (BitVec.ofNat (8 * n) x).signExtend 64 else BitVec.ofNat 64 x) := by
  refine inTurns_mono (ld_turns c d b size disp) ?_
  rintro m s t ⟨off, hd, ha, h, rfl⟩
  obtain ⟨hn, hlt⟩ := memBytes_bounds size
  refine h.loadTurn hd trivial (h.accepted_run rfl hn hlt ha) (runBytes_eq _ _) ?_
  simp only [Core.loadInto, localRead_num_run (i := 0) (Nat.le_of_eq (Nat.zero_add _)), Nat.zero_add]
  rfl

theorem ldp_local (c : Ctl) (d1 d2 b : SReg) (disp : BitVec 16) :
    InTurns (.ldp c d1 d2 b disp) fun m s t => let q := s.core m
      let ea := q.rs b + disp.signExtend 64
      ∃ off, q.defer = [] ∧ ea.toNat % 8 = 0 ∧ s.Local m (bytesFrom ea 16) off ∧
        let x := fun k => BitVec.ofNat 64 (ofLe ((List.range 8).map fun i => s.localByte m (off (k + i))))
        t = s.modCore m fun q => (q.ws d1 (x 0)).ws d2 (x 8) := by
  refine inTurns_mono (ldp_turns c d1 d2 b disp) ?_
  rintro m s t ⟨off, hd, ha, h, rfl⟩
  refine h.loadTurn hd trivial (h.accepted_run rfl (by norm_num) (by norm_num) ha) (runBytes_eq _ _) ?_
  simp only [Core.loadInto, localRead_num_run (i := 0) (n := 8) (w := 16) (by norm_num),
    localRead_num_run (i := 8) (n := 8) (w := 16) (by norm_num)]

/-! ## Whole registers -/

/-- Byte lanes that lie in local memory pass their checks. -/
theorem State.Local.accepted_lanes {s : State} {m : CoreId} {l : List (Nat × Word)} {off : Nat → Nat} (h : s.Local m l off)
    {k : AccKind} (hk : k.global = false) : s.checkAccess m k (laneElems (l.map fun x => (x.1, x.2.toNat))) = none := by
  refine h.accepted hk fun e he => ?_
  simp only [laneElems, List.map_map, List.mem_map, Function.comp_apply, BitVec.ofNat_toNat, BitVec.setWidth_eq] at he
  obtain ⟨x, hx, rfl⟩ := he
  refine ⟨Nat.mod_one _, Nat.one_pos, by norm_num, fun i hi => ⟨x.1, ?_⟩⟩
  rw [Nat.lt_one_iff.mp hi, BitVec.add_zero]
  exact hx

/-- The enabled byte lanes of a whole-register access. -/
theorem vecLanes_eq (q : Core) (k : KOpt) (ea : Word) :
    q.vecLanes k ea = ((bytesFrom ea (q.vbits / 8)).filter fun x => q.enabled k 8 x.1).map fun x => (x.1, x.2.toNat) := by
  rw [Core.vecLanes, runBytes_eq, List.filter_map]
  rfl

theorem mem_lanes_index {q : Core} {k : KOpt} {ea : Word} {n j : Nat} :
    j ∈ ((bytesFrom ea n).filter fun x => q.enabled k 8 x.1).map (·.1) ↔ j < n ∧ q.enabled k 8 j = true := by
  simp only [bytesFrom, List.filter_map, List.map_map, List.mem_map, List.mem_filter, List.mem_range, Function.comp_apply]
  exact ⟨fun ⟨i, hi, he⟩ => he ▸ hi, fun h => ⟨j, h, rfl⟩⟩

theorem ldv_local (c : Ctl) (d : VReg) (b : SReg) (k : KOpt) (disp : BitVec 16) :
    InTurns (.ldv c d b k disp) fun m s t => let q := s.core m
      let ea := q.rs b + disp.signExtend 64
      ∃ off, q.defer = [] ∧ ea.toNat % 32 = 0 ∧ s.Local m ((bytesFrom ea (q.vbits / 8)).filter fun x => q.enabled k 8 x.1) off ∧
        t = s.modCore m fun q => q.wv d (ofLe ((List.range (q.vbits / 8)).map fun i =>
          if q.enabled k 8 i then s.localByte m (off i) else 0)) := by
  refine inTurns_mono (ldv_turns c d b k disp) ?_
  rintro m s t ⟨off, hd, ha, h, rfl⟩
  refine h.loadTurn hd ha (vecLanes_eq _ _ _ ▸ h.accepted_lanes rfl) (vecLanes_eq _ _ _) (modCore_congr ?_)
  rw [loadInto_vec]
  refine congrArg _ (localRead_num fun i hi => ?_).symm
  simp only [Nat.zero_add, mem_lanes_index, hi, true_and]

/-! ## Strided elements -/

/-- The bytes of strided elements, by their indices in the register. -/
def strideBytes (w : Nat) (ea : Nat → Word) (es : List Nat) : List (Nat × Word) :=
  es.flatMap fun e => (bytesFrom (ea e) w).map fun x => (w * e + x.1, x.2)

theorem stridedBytes_eq (w : Nat) (ea : Nat → Word) (es : List Nat) :
    stridedBytes w (es.map fun e => (e, ea e)) = (strideBytes w ea es).map fun x => (x.1, x.2.toNat) := by
  simp [stridedBytes, strideBytes, bytesFrom, List.flatMap_map, List.map_flatMap, Function.comp_def]

theorem mem_strideBytes_index {w : Nat} (hw : 0 < w) {ea : Nat → Word} {es : List Nat} {j : Nat} :
    j ∈ (strideBytes w ea es).map (·.1) ↔ j / w ∈ es := by
  simp only [strideBytes, bytesFrom, List.map_flatMap, List.map_map, List.mem_flatMap, List.mem_map, List.mem_range,
    Function.comp_apply]
  constructor
  · rintro ⟨e, he, i, hi, rfl⟩
    rwa [Nat.mul_add_div hw, Nat.div_eq_of_lt hi, Nat.add_zero]
  · exact fun h => ⟨j / w, h, j % w, Nat.mod_lt j hw, Nat.div_add_mod j w⟩

theorem localRead_num_strided {s : State} {m : CoreId} {w : Nat} (hw : 0 < w) {ea : Nat → Word} {es : List Nat}
    {off : Nat → Nat} {n : Nat} {on : Nat → Bool} (h : ∀ i < n, i / w ∈ es ↔ on (i / w) = true) :
    (s.localRead m (strideBytes w ea es) off).num 0 n =
      ofLe ((List.range n).map fun i => if on (i / w) then s.localByte m (off i) else 0) := by
  refine localRead_num fun i hi => ?_
  simp only [Nat.zero_add, mem_strideBytes_index hw, h i hi]

theorem State.Local.accepted_strided {s : State} {m : CoreId} {w : Nat} (hw : 0 < w) (hlt : w < 2 ^ 57) {ea : Nat → Word}
    {es : List Nat} {off : Nat → Nat} (h : s.Local m (strideBytes w ea es) off) {k : AccKind} (hk : k.global = false)
    (ha : ∀ e ∈ es, (ea e).toNat % w = 0) : s.checkAccess m k (stridedElems w (es.map fun e => (e, ea e))) = none := by
  refine h.accepted hk fun x hx => ?_
  simp only [stridedElems, List.map_map, List.mem_map, Function.comp_apply] at hx
  obtain ⟨e, he, rfl⟩ := hx
  refine ⟨ha e he, hw, hlt, fun i hi => ⟨w * e + i, ?_⟩⟩
  exact List.mem_flatMap.mpr ⟨e, he, List.mem_map.mpr ⟨_, mem_bytesFrom hi, rfl⟩⟩

theorem elBytes_bounds (size : ElSize) : 0 < elBytes size ∧ elBytes size < 2 ^ 57 := by
  cases size <;> decide

/-- The index of a register's byte is that of an element, by whole elements. -/
theorem div_elBytes_lt {q : Core} {size : ElSize} {i : Nat} (h : i < q.vbits / 8) : i / elBytes size < q.vbits / 8 / elBytes size := by
  rcases vbytes_cases q with ⟨-, hb⟩ | ⟨-, hb⟩ <;> rw [hb] at h ⊢ <;> cases size <;> simp only [elBytes] <;> omega

theorem ldvs_local (c : Ctl) (d : VReg) (b : SReg) (stride : SImm) (size : ElSize) (k : KOpt) :
    InTurns (.ldvs c d b stride size k) fun m s t => let q := s.core m
      let w := elBytes size
      let es := (List.range (q.vbits / 8 / w)).filter fun e => q.enabled k (8 * w) e
      let ea := fun e => q.rs b + BitVec.ofNat 64 e * stride.val q
      ∃ off, q.defer = [] ∧ (∀ e ∈ es, (ea e).toNat % w = 0) ∧
        s.Local m (es.flatMap fun e => (bytesFrom (ea e) w).map fun x => (w * e + x.1, x.2)) off ∧
        t = s.modCore m fun q => q.wv d (ofLe ((List.range (q.vbits / 8)).map fun i =>
          if q.enabled k (8 * w) (i / w) then s.localByte m (off i) else 0)) := by
  refine inTurns_mono (ldvs_turns c d b stride size k) ?_
  rintro m s t ⟨off, hd, ha, h, rfl⟩
  obtain ⟨hw, hlt⟩ := elBytes_bounds size
  refine State.Local.loadTurn h hd trivial (State.Local.accepted_strided hw hlt h rfl ha) (stridedBytes_eq _ _ _) (modCore_congr ?_)
  rw [loadInto_vec]
  refine congrArg _ (localRead_num_strided hw fun i hi => ?_).symm
  simp only [List.mem_filter, List.mem_range, div_elBytes_lt hi, true_and]

/-! ## Stores -/

/-- A local store enters the core's buffer with the bytes of its offsets. -/
theorem State.Local.storeTurn {c : Ctl} {aligned : Core → Prop} {es : Core → List Elem} {bytes : Core → List (Nat × Nat)}
    {byte : Core → Nat → Byte} {s t : State} {m : CoreId} {l : List (Nat × Word)} {off : Nat → Nat} (h : s.Local m l off)
    (ha : aligned (s.core m)) (hok : s.checkAccess m accWrite (es (s.core m)) = none)
    (hb : ∀ x ∈ bytes (s.core m), (s.core m).place x.2 = some (.lm (off x.1)))
    (ht : t = s.buffers m ((bytes (s.core m)).map fun x => (off x.1, byte (s.core m) x.1))) :
    StoreTurn c aligned es bytes byte m s t := by
  obtain ⟨hf, hsc⟩ := h.unfenced
  refine ⟨ha, hf, hsc, hok, ?_⟩
  rw [resolve_local true c.ch hb, ht]
  simp only [State.countAccess, List.isEmpty_nil, if_true, State.buffer, List.map_map]
  rfl

/-- The bytes of a local access lie at their offsets. -/
theorem State.Local.places {s : State} {m : CoreId} {l : List (Nat × Word)} {off : Nat → Nat} (h : s.Local m l off) :
    ∀ x ∈ l.map fun x => (x.1, x.2.toNat), (s.core m).place x.2 = some (.lm (off x.1)) :=
  List.forall_mem_map.mpr h.lies

theorem mem_of_mem_lastWins {x : Nat × Nat} {l : List (Nat × Nat)} (h : x ∈ lastWins l) : x ∈ l := by
  induction l with
  | nil => exact h
  | cons y l ih =>
    unfold lastWins at h
    split at h
    · exact List.mem_cons_of_mem _ (ih h)
    · rcases List.mem_cons.mp h with rfl | hl
      · exact List.mem_cons_self
      · exact List.mem_cons_of_mem _ (ih hl)

theorem st_local (c : Ctl) (b : SReg) (a : Src) (size : MemSize) (disp : BitVec 16) :
    InTurns (.st c b a size disp) fun m s t => let q := s.core m
      let ea := q.rs b + disp.signExtend 64
      ∃ off, ea.toNat % memBytes size = 0 ∧ s.Local m (bytesFrom ea (memBytes size)) off ∧
        t = s.buffers m ((List.range (memBytes size)).map fun i => (off i, (a.val q).extractLsb' (8 * i) 8)) := by
  refine inTurns_mono (st_turns c b a size disp) ?_
  rintro m s t ⟨off, ha, h, rfl⟩
  obtain ⟨hn, hlt⟩ := memBytes_bounds size
  refine h.storeTurn trivial (h.accepted_run rfl hn hlt ha) (runBytes_eq _ _ ▸ h.places) ?_
  rw [runBytes, List.map_map]
  rfl

theorem stp_local (c : Ctl) (b : SReg) (a1 a2 : Src) (disp : BitVec 16) :
    InTurns (.stp c b a1 a2 disp) fun m s t => let q := s.core m
      let ea := q.rs b + disp.signExtend 64
      ∃ off, ea.toNat % 8 = 0 ∧ s.Local m (bytesFrom ea 16) off ∧
        t = s.buffers m ((List.range 16).map fun i =>
          (off i, if i < 8 then (a1.val q).extractLsb' (8 * i) 8 else (a2.val q).extractLsb' (8 * (i - 8)) 8)) := by
  refine inTurns_mono (stp_turns c b a1 a2 disp) ?_
  rintro m s t ⟨off, ha, h, rfl⟩
  refine h.storeTurn trivial (h.accepted_run rfl (by norm_num) (by norm_num) ha) (runBytes_eq _ _ ▸ h.places) ?_
  rw [runBytes, List.map_map]
  rfl

theorem stv_local (c : Ctl) (b : SReg) (v : VReg) (k : KOpt) (disp : BitVec 16) :
    InTurns (.stv c b v k disp) fun m s t => let q := s.core m
      let ea := q.rs b + disp.signExtend 64
      let l := (bytesFrom ea (q.vbits / 8)).filter fun x => q.enabled k 8 x.1
      ∃ off, ea.toNat % 32 = 0 ∧ s.Local m l off ∧ t = s.buffers m (l.map fun x => (off x.1, vecByte q v x.1)) := by
  refine inTurns_mono (stv_turns c b v k disp) ?_
  rintro m s t ⟨off, ha, h, rfl⟩
  refine h.storeTurn ha (vecLanes_eq _ _ _ ▸ h.accepted_lanes rfl) (vecLanes_eq _ _ _ ▸ h.places) ?_
  rw [vecLanes_eq, List.map_map]
  rfl

theorem stvs_local (c : Ctl) (b : SReg) (v : VReg) (stride : SImm) (size : ElSize) (k : KOpt) :
    InTurns (.stvs c b v stride size k) fun m s t => let q := s.core m
      let w := elBytes size
      let es := (List.range (q.vbits / 8 / w)).filter fun e => q.enabled k (8 * w) e
      let ea := fun e => q.rs b + BitVec.ofNat 64 e * stride.val q
      let l := es.flatMap fun e => (bytesFrom (ea e) w).map fun x => (w * e + x.1, x.2)
      ∃ off, (∀ e ∈ es, (ea e).toNat % w = 0) ∧ s.Local m l off ∧
        t = s.buffers m ((lastWins (l.map fun x => (x.1, x.2.toNat))).map fun x => (off x.1, vecByte q v x.1)) := by
  refine inTurns_mono (stvs_turns c b v stride size k) ?_
  rintro m s t ⟨off, ha, h, rfl⟩
  obtain ⟨hw, hlt⟩ := elBytes_bounds size
  refine State.Local.storeTurn h trivial (State.Local.accepted_strided hw hlt h rfl ha)
    (fun x hx => h.places x ?_) ?_
  · rw [Core.strided, stridedBytes_eq] at hx
    exact mem_of_mem_lastWins hx
  · rw [Core.strided, stridedBytes_eq]
    rfl

/-- Settles O20: a local access is an accepted one (O22) whose bytes resolve to their offsets, and a load's bytes are then
those of its core's buffer or the tile. -/
theorem scratchpadAccesses : Obligations.ScratchpadAccesses :=
  ⟨⟨ld_local, ldp_local, ldv_local, ldvs_local⟩, st_local, stp_local, stv_local, stvs_local⟩

end Sys2Proof.Machine

/-! What the abort of an idempotent task leaves: its members without work, every launch but for the node as it was, and no
page request more (R239, R240). -/
namespace Sys2Proof.Machine

/-! ## Freeing cores -/

/-- From `s` to `t` launches and page requests are the same, and no core has been given work. -/
structure State.NoNewWork (s t : State) : Prop where
  launches : t.launches = s.launches
  pageReqs : t.pageReqs = s.pageReqs
  work : ∀ j, (s.core j).work = none → (t.core j).work = none

namespace State.NoNewWork

theorem refl {s : State} : s.NoNewWork s := ⟨rfl, rfl, fun _ h => h⟩

theorem trans {s t u : State} (h : s.NoNewWork t) (k : t.NoNewWork u) : s.NoNewWork u :=
  ⟨k.launches.trans h.launches, k.pageReqs.trans h.pageReqs, fun j hj => k.work j (h.work j hj)⟩

theorem of {s t u : State} (k : t.NoNewWork u) (h : s.NoNewWork t) : s.NoNewWork u := h.trans k

theorem foldl {α : Type} {f : State → α → State} (hf : ∀ (s : State) a, s.NoNewWork (f s a)) (l : List α) (s : State) :
    s.NoNewWork (l.foldl f s) := by
  induction l generalizing s with
  | nil => exact refl
  | cons a l ih => exact (hf s a).trans (ih _)

theorem modCore {s : State} (c : CoreId) {f : Core → Core} (hf : ∀ q, q.work = none → (f q).work = none) :
    s.NoNewWork (s.modCore c f) := by
  refine ⟨rfl, rfl, fun j hj => ?_⟩
  by_cases hjc : j = c
  · rw [hjc, State.core_modCore_same]
    exact hf _ (hjc ▸ hj)
  · rw [State.core_modCore_other s hjc, hj]

end State.NoNewWork

open State (SameUnits NoNewWork)

theorem State.SameUnits.noNewWork {s t : State} (h : s.SameUnits t) : s.NoNewWork t :=
  ⟨h.launches, h.pageReqs, fun j hj => h.core j ▸ hj⟩

theorem settleOne_units (s : State) (w : ViewWrite) : s.SameUnits (s.settleOne w) := by
  unfold State.settleOne
  split
  · exact .refl
  · exact (SameUnits.foldl (fun s _ => keepCode_units s _ _) _ s).trans ⟨rfl, rfl, rfl⟩

theorem settleViews_units (s : State) : s.SameUnits s.settleViews := by
  refine .foldl (fun s _ => ?_) _ s
  unfold State.settleView
  split
  · exact .refl
  · exact (settleOne_units _ _).of ⟨rfl, rfl, rfl⟩

theorem faultRecord_units (s : State) (o : EngOp) (status : Byte) (slice : Nat) (info : Word) :
    s.SameUnits (s.faultRecord o status slice info) := by
  unfold State.faultRecord
  split
  · exact .refl
  · exact ((paWrite_units _ _ _).of (.ite (resourceEvent_units _ _ _ _) .refl)).trans ⟨rfl, rfl, rfl⟩

theorem ite_work {p : Prop} [Decidable p] {a b : Core} {w : Option WorkRef} (ha : a.work = w) (hb : b.work = w) :
    (if p then a else b).work = w := by
  split
  · exact ha
  · exact hb

theorem opDone_work (q : Core) (t : Timeline) (n : Nat) (status : Byte) : (q.opDone t n status).work = q.work := by
  have hfail : ∀ p : Prop, ∀ _ : Decidable p,
      (if p then { (q.setTl t ((q.tl t).complete n status)).wakeFor 2 with engFail := some status }
      else (q.setTl t ((q.tl t).complete n status)).wakeFor 2).work = q.work := fun p _ => ite_work rfl rfl
  unfold Core.opDone
  dsimp only
  exact ite_work (hfail _ _) (ite_work (hfail _ _) (hfail _ _))

theorem opComplete_noNewWork (s : State) (o : EngOp) (status : Byte) (slice : Nat) (info : Word) :
    s.NoNewWork (s.opComplete o status slice info) := by
  have hrecord : s.SameUnits (if status = 0 then s else s.faultRecord o status slice info).settleViews :=
    (settleViews_units _).of (.ite .refl (faultRecord_units s o status slice info))
  unfold State.opComplete
  dsimp only
  generalize (if status = 0 then s else s.faultRecord o status slice info).settleViews = u at hrecord ⊢
  split
  · exact (NoNewWork.modCore o.core fun q hq => (opDone_work q _ _ _).trans hq).of
      (SameUnits.noNewWork ⟨hrecord.cores, hrecord.launches, hrecord.pageReqs⟩)
  · exact SameUnits.noNewWork ⟨hrecord.cores, hrecord.launches, hrecord.pageReqs⟩

theorem modOpHandle_noNewWork (s : State) (c : CoreId) (inst : Nat) (h : HReg) (f : Handle → Handle) :
    s.NoNewWork (s.modOpHandle c inst h f) := by
  unfold State.modOpHandle
  split
  · exact .modCore c fun _ hq => hq
  · split
    · dsimp only
      refine SameUnits.noNewWork ?_
      exact (paWrite_units _ _ _).of ⟨rfl, rfl, rfl⟩
    · exact ⟨rfl, rfl, fun _ hj => hj⟩

theorem cancelGang_noNewWork (s : State) (c : CoreId) (g : GangIssue) : s.NoNewWork (s.cancelGang c g) := by
  unfold State.cancelGang
  split
  · exact .refl
  · dsimp only
    refine (opComplete_noNewWork _ _ _ _ _).of ?_
    split
    · exact modOpHandle_noNewWork s _ _ _ _
    · exact .refl

theorem cancelGangs_noNewWork (s : State) (c : CoreId) : s.NoNewWork (s.cancelGangs c) :=
  (NoNewWork.foldl (fun s g => cancelGang_noNewWork s c g) _ _).of ⟨rfl, rfl, fun _ hj => hj⟩

theorem keepHandles_noNewWork (s : State) (c : CoreId) : s.NoNewWork (s.keepHandles c) := by
  unfold State.keepHandles
  dsimp only
  split
  · exact ⟨rfl, rfl, fun _ hj => hj⟩
  · exact .foldl (fun s o => opComplete_noNewWork s o _ _ _) _ s

theorem rejoinConvoy_noNewWork (s : State) (cl : Nat) : s.NoNewWork (s.rejoinConvoy cl) := by
  unfold State.rejoinConvoy
  dsimp only
  split
  · refine .foldl (fun s m => ?_) _ s
    exact .modCore m fun _ hq => hq
  · exact .refl

/-- A core that is freed has no work, and no other core is given any. -/
theorem freeCore_noNewWork (s : State) (c : CoreId) (keep : Bool) :
    s.NoNewWork (s.freeCore c keep) ∧ ((s.freeCore c keep).core c).work = none := by
  have hdiscard : s.NoNewWork (s.discard c) := .modCore c fun _ hq => hq
  have hheld : s.NoNewWork (((s.discard c).dropHandles c).keepHandles c) :=
    (keepHandles_noNewWork _ c).of ⟨hdiscard.launches, hdiscard.pageReqs, hdiscard.work⟩
  have hrejoin := rejoinConvoy_noNewWork ((((s.discard c).dropHandles c).keepHandles c).modCore c fun q => q.freed keep) (clusterOf c)
  refine ⟨hrejoin.of ((NoNewWork.modCore c fun _ _ => rfl).of hheld), hrejoin.work c ?_⟩
  rw [State.core_modCore_same]
  rfl

/-- Members that are freed one after the other have no work, and no other core is given any. -/
theorem freeMembers_noNewWork (keep : Bool) (ms : List CoreId) : ∀ s : State,
    s.NoNewWork (ms.foldl (fun s m => (s.cancelGangs m).freeCore m keep) s) ∧
      ∀ j ∈ ms, ((ms.foldl (fun s m => (s.cancelGangs m).freeCore m keep) s).core j).work = none := by
  induction ms with
  | nil => exact fun s => ⟨.refl, fun j hj => nomatch hj⟩
  | cons m ms ih =>
    intro s
    obtain ⟨hm, hnone⟩ := freeCore_noNewWork (s.cancelGangs m) m keep
    obtain ⟨hms, hrest⟩ := ih ((s.cancelGangs m).freeCore m keep)
    refine ⟨hms.of (hm.of (cancelGangs_noNewWork s m)), fun j hj => ?_⟩
    rcases List.mem_cons.mp hj with rfl | hj
    · exact hms.work j hnone
    · exact hrest j hj

end Sys2Proof.Machine

/-! Proof of O24: an access to an absent page asks the host for it, and its work waits or is aborted (R101, R239 to R241). -/
namespace Sys2Proof.Machine

/-! ## Nodes of a launch -/

/-- The first element that passes a test, where every element that passes it is replaced by one that does. -/
theorem find?_map_replace {α : Type} {p : α → Bool} {l : List α} {a b : α} (h : l.find? p = some a) (hb : p b = true) :
    (l.map fun x => if p x then b else x).find? p = some b := by
  induction l with
  | nil => cases h
  | cons x l ih =>
    cases hx : p x with
    | true => simp [hx, hb]
    | false =>
      rw [List.find?_cons, hx] at h
      simpa [hx] using ih h

theorem modNode_node? {s : State} {ctx : Nat} {id : Word} {n : Nat} {z : Node} (f : Node → Node)
    (h : s.node? ctx id n = some z) : (s.modNode ctx id n f).node? ctx id n = some (f z) := by
  obtain ⟨l, hl, hz⟩ := Option.bind_eq_some_iff.mp h
  have hp := List.find?_some hl
  simp only [Bool.and_eq_true, beq_iff_eq] at hp
  obtain ⟨⟨hctx, hid⟩, hrep⟩ := hp
  have hnode : l.node n = z := by rw [Launch.node, List.getD_eq_getElem?_getD, hz, Option.getD_some]
  have hfound : (s.modNode ctx id n f).launch? ctx id = some (l.setNode n (f z)) := by
    unfold State.modNode
    rw [hl]
    dsimp only
    rw [hnode]
    have hmap := find?_map_replace hl (b := l.setNode n (f z)) (by simp [Launch.setNode, hctx, hid, hrep])
    simpa only [State.launch?, State.setLaunch, Launch.setNode, hctx, hid] using hmap
  have hlt : n < l.nodes.length := (List.getElem?_eq_some_iff.mp hz).1
  rw [State.node?, hfound]
  simp [Launch.setNode, hlt]

theorem modNode_cores (s : State) (ctx : Nat) (id : Word) (n : Nat) (f : Node → Node) :
    (s.modNode ctx id n f).cores = s.cores ∧ (s.modNode ctx id n f).pageReqs = s.pageReqs := by
  unfold State.modNode
  split <;> exact ⟨rfl, rfl⟩

theorem node?_congr {s t : State} (h : t.launches = s.launches) (ctx : Nat) (id : Word) (n : Nat) :
    t.node? ctx id n = s.node? ctx id n := by
  rw [State.node?, State.node?, State.launch?, State.launch?, h]

/-! ## The abort of an idempotent task -/

theorem abortTask_ready {s : State} {c : CoreId} {w : WorkRef} {n : Nat} {z : Node} (why : Nat) (info : Word) (page : Option Nat)
    (hw : (s.core c).work = some w) (hn : w.node = some n) (hz : s.node? w.ctx w.launch n = some z)
    (hk : ∀ j ∈ s.membersOf c, (s.core j).req ≠ some .kill) :
    ∃ z', (s.abortTask c why info page).pageReqs = s.pageReqs ∧ (s.abortTask c why info page).node? w.ctx w.launch n = some z' ∧
      z'.st = .ready ∧ z'.replays = min (2 ^ 32 - 1) (z.replays + 1) ∧ z'.page = page ∧ z'.held = some (s.core c).inst ∧
      ∀ j ∈ s.membersOf c, ((s.abortTask c why info page).core j).work = none := by
  have hkill : ((s.membersOf c).any fun m => (s.core m).req == some .kill) = false := by
    simpa only [List.any_eq_false, beq_iff_eq] using hk
  obtain ⟨hfree, hnone⟩ := freeMembers_noNewWork true (s.membersOf c) s
  unfold State.abortTask
  simp only [hw, hn, hkill, Bool.false_eq_true, if_false, hz, Option.map_some, Option.getD_some]
  generalize (s.membersOf c).foldl (fun s m => (s.cancelGangs m).freeCore m true) s = u at hfree hnone
  have hemit := fun (fields : List (Nat × Nat × Nat)) => emit_units u 0x21 fields
  have hnode : ∀ fields, (u.emit 0x21 fields).node? w.ctx w.launch n = some z := fun fields => by
    rw [node?_congr ((hemit fields).launches.trans hfree.launches), hz]
  refine ⟨_, ?_, modNode_node? _ (hnode _), rfl, rfl, rfl, rfl, fun j hj => ?_⟩
  · rw [(modNode_cores _ _ _ _ _).2, (hemit _).pageReqs, hfree.pageReqs]
  · rw [State.core, (modNode_cores _ _ _ _ _).1, (hemit _).cores]
    exact hnone j hj

/-! ## The request -/

theorem pageRequest_once {s : State} {ctx va : Nat} (code c : Nat) (bad : Bool)
    (h : s.pageReqs.any (fun r => r.ctx == ctx && r.page == alignDown va 4096) = true) : s.pageRequest ctx va code 0 c bad = s := by
  simp only [State.pageRequest, h, if_true]

theorem pageRequest_new {s : State} {ctx va : Nat} (code c : Nat) (bad : Bool)
    (h : s.pageReqs.any (fun r => r.ctx == ctx && r.page == alignDown va 4096) = false) : ∃ no,
      let page := alignDown va 4096
      let gen := ((s.ctxs.find ctx).map (·.gen)).getD 0
      let t := s.emit 0x23 [(12, 1, ctx), (13, 1, code), (14, 1, if bad then 1 else 0), (15, 1, 0), (16, 8, gen.toNat),
        (24, 8, page), (32, 2, c)]
      s.pageRequest ctx va code 0 c bad = { t with pageReqs := s.pageReqs ++ [⟨ctx, gen, page, code, 0, c, bad, no⟩] } := by
  simp only [State.pageRequest, h, Bool.false_eq_true, if_false, (emit_units _ _ _).pageReqs]
  exact ⟨_, rfl⟩

/-- A page request changes no core and no launch. -/
theorem pageRequest_cores (s : State) (ctx va acc agent core : Nat) (bad : Bool) :
    (s.pageRequest ctx va acc agent core bad).cores = s.cores ∧ (s.pageRequest ctx va acc agent core bad).launches = s.launches := by
  unfold State.pageRequest
  dsimp only
  split
  · exact ⟨rfl, rfl⟩
  · exact ⟨(emit_units s _ _).cores, (emit_units s _ _).launches⟩

/-! ## The access -/

theorem byteFail_absent {s : State} {m : CoreId} {ea : Nat} {x : Miss} (k : AccKind) (report : Word) (hg : ea < stackBase)
    (hx : s.look m (s.core m).ctxNum ea = .error x) : s.byteFail m k report ea = some (6, .page ea x.bad k.code) := by
  have hplace : (s.core m).place ea = some (.glob ea false) := by simp only [Core.place, hg, if_true]
  simp only [State.byteFail, hplace, Bool.false_and, Bool.false_eq_true, if_false, Nat.not_le.mpr hg, hx]

/-- The sizes of single accesses. -/
def accSizes : List Nat := [1, 2, 4, 8]

/-- An aligned location that begins below the stack ends below it. -/
theorem last_lt_stackBase {va n : Nat} (hn : n ∈ accSizes) (ha : va % n = 0) (hg : va < stackBase) : va + n - 1 < stackBase := by
  have hs : stackBase % 8 = 0 := by norm_num [stackBase]
  generalize stackBase = top at hs hg ⊢
  simp only [accSizes, List.mem_cons, List.not_mem_nil, or_false] at hn
  rcases hn with rfl | rfl | rfl | rfl <;> omega

theorem checkAccess_absent {s : State} {m : CoreId} {k : AccKind} {a : Word} {n : Nat} {x y : Miss} (hn : n ∈ accSizes)
    (ha : a.toNat % n = 0) (hspill : (headerOf (s.core m).hdr).noSpill = true → inStack a = false) (hg : isGlobal a.toNat = true)
    (hx : s.look m (s.core m).ctxNum a.toNat = .error x) (hy : s.look m (s.core m).ctxNum (a.toNat + n - 1) = .error y) :
    s.checkAccess m k [⟨a, n, n⟩] = some (.page a.toNat x.bad k.code) := by
  have hlt : a.toNat < stackBase := of_decide_eq_true hg
  have hs : ((headerOf (s.core m).hdr).noSpill && inStack a) = false := by
    cases hb : (headerOf (s.core m).hdr).noSpill with
    | false => rfl
    | true => exact hspill hb
  have helem : s.elemFail m k ⟨a, n, n⟩ = some (6, .page a.toNat x.bad k.code) := by
    simp only [State.elemFail, ha, bne_self_eq_false, Bool.false_eq_true, if_false, byteFail_absent k a hlt hx,
      byteFail_absent k a (last_lt_stackBase hn ha hlt) hy]
    split <;> rfl
  simp only [State.checkAccess, List.any_cons, List.any_nil, Bool.or_false, hs, Bool.false_eq_true, if_false, State.accessFail,
    List.foldl_cons, List.foldl_nil, helem]
  rfl

/-- What an access of one aligned location does where its page is absent. -/
def AsksHost (i : Instr) (k : AccKind) (a : Core → Word) (n : Nat) : Prop :=
  ∀ (s : State) (f : Fields) (m : CoreId) (x y : Miss), i.fields = some f → s.Ready f →
    m ∈ s.convoyOf s.cur → f.ctl.guards (s.core m) = true → (∀ j ∈ s.convoyOf s.cur, j ≠ m → f.ctl.guards (s.core j) = false) →
    let q := s.core m
    let va := (a q).toNat
    ((k.global = true ∧ k.write = true → q.idem = false) ∧ (a q).toNat % n = 0 ∧
      ((headerOf q.hdr).noSpill = true → inStack (a q) = false)) →
    q.fences = [] → isGlobal va = true → s.look m q.ctxNum va = .error x → s.look m q.ctxNum (va + n - 1) = .error y →
    let asked := s.pageRequest q.ctxNum va k.code 0 m x.bad
    (q.idem = false → exec i s = .next (asked.modCore m fun q => { q with waitPage := some (alignDown va 4096) })) ∧
    (q.idem = true → ∀ w node z, q.work = some w → w.node = some node → s.node? w.ctx w.launch node = some z →
      (∀ j ∈ s.membersOf m, (s.core j).req ≠ some .kill) → ∃ t z', exec i s = .next t ∧ t.pageReqs = asked.pageReqs ∧
        t.node? w.ctx w.launch node = some z' ∧ z'.st = .ready ∧ z'.replays = min (2 ^ 32 - 1) (z.replays + 1) ∧
        z'.page = some (alignDown va 4096) ∧ z'.held = some q.inst ∧ ∀ j ∈ s.membersOf m, (t.core j).work = none)

/-- A word of one member whose page is absent is that member's page fault, when the member has no fence open. -/
theorem exec_page {i : Instr} {f : Fields} {s : State} {body : CoreId → State → Res} {m : CoreId} {va code : Nat} {bad : Bool}
    (hx : ∀ s, exec i s = runWord i s body) (hf : i.fields = some f) (h : s.Ready f) (hm : m ∈ s.convoyOf s.cur)
    (hg : f.ctl.guards (s.core m) = true) (ho : ∀ j ∈ s.convoyOf s.cur, j ≠ m → f.ctl.guards (s.core j) = false)
    (hfences : (s.core m).fences = []) (hcode : code ≠ 2) (hb : body m s = .page va bad code) :
    exec i s = .next (s.pageFault m va bad code) := by
  have hfinish : s.finishFences [m] = some s := by
    simp only [State.finishFences, List.foldl_cons, List.foldl_nil, hfences]
  rw [exec_of_pass hf h (hx s), runEffects_only h hm hg ho hb]
  simp only [State.stopWord, hcode, if_false, hfinish, Option.map_some, Option.getD_some]

theorem asksHost_of_check {i : Instr} {k : AccKind} {a : Core → Word} {n : Nat} {body : CoreId → State → Res}
    (hx : ∀ s, exec i s = runWord i s body) (hn : n ∈ accSizes) (hcode : k.code ≠ 2)
    (hb : ∀ s m r, (k.global = true ∧ k.write = true → (s.core m).idem = false) →
      s.checkAccess m k [⟨a (s.core m), n, n⟩] = some r → body m s = r) : AsksHost i k a n := by
  rintro s f m x y hf h hm hg ho q va ⟨hidem, hal, hspill⟩ hfences hglob hlx hly asked
  have hfault : exec i s = .next (s.pageFault m va x.bad k.code) :=
    exec_page hx hf h hm hg ho hfences hcode (hb s m _ hidem (checkAccess_absent hn hal hspill hglob hlx hly))
  obtain ⟨hcores, hlaunches⟩ := pageRequest_cores s q.ctxNum va k.code 0 m x.bad
  have hcore : ∀ j, asked.core j = s.core j := fun j => by rw [State.core, State.core, hcores]
  refine ⟨fun hi => ?_, fun hi w node z hw hnode hz hk => ?_⟩
  · rw [hfault, State.pageFault, if_neg (by rw [hi]; exact Bool.false_ne_true)]
  · have hmembers : asked.membersOf m = s.membersOf m := by rw [State.membersOf, State.membersOf, hcore]
    obtain ⟨z', hreqs, hz', hst, hreplays, hpage, hheld, hnone⟩ := abortTask_ready 2 (BitVec.ofNat 64 va)
      (some (alignDown va 4096)) ((congrArg Core.work (hcore m)).trans hw) hnode ((node?_congr hlaunches _ _ _).trans hz)
      (hmembers ▸ fun j hj => hcore j ▸ hk j hj)
    refine ⟨_, z', ?_, hreqs, hz', hst, hreplays, hpage, hheld.trans (congrArg (fun q => some q.inst) (hcore m)),
      hmembers ▸ hnone⟩
    rw [hfault, State.pageFault, if_pos hi]

/-! ## The words -/

theorem memBytes_accSizes (size : MemSize) : memBytes size ∈ accSizes := by
  cases size <;> decide

theorem atypeBytes_accSizes (t : AType) : atypeBits t / 8 ∈ accSizes := by
  cases t <;> decide

theorem ld_asks (c : Ctl) (d b : SReg) (size : MemSize) (disp : BitVec 16) :
    AsksHost (.ld c d b size disp) accRead (fun q => effAddr q b disp) (memBytes size) :=
  asksHost_of_check (fun _ => rfl) (memBytes_accSizes size) (by decide) fun s m r _ h => by
    simp only [State.load, State.access, h]

theorem st_asks (c : Ctl) (b : SReg) (a : Src) (size : MemSize) (disp : BitVec 16) :
    AsksHost (.st c b a size disp) accWrite (fun q => effAddr q b disp) (memBytes size) :=
  asksHost_of_check (fun _ => rfl) (memBytes_accSizes size) (by decide) fun s m r _ h => by
    simp only [State.store, State.access, h]

/-- A word whose effect is an atomic. -/
theorem atomic_asks {i : Instr} {d : Option SReg} {b : SReg} {t : AType} {x : CoreId → Core → Rmw}
    (hx : ∀ s, exec i s = runWord i s fun m s => s.atomic m d b t (x m)) :
    AsksHost i accAtomic (fun q => q.rs b) (atypeBits t / 8) :=
  asksHost_of_check hx (atypeBytes_accSizes t) (by decide) fun s m r hidem h => by
    simp only [State.atomic, hidem ⟨rfl, rfl⟩, Bool.false_eq_true, if_false, h]

/-- A word whose effect is the issue of a sequentially consistent operation. -/
theorem sc_asks {i : Instr} {kind : ScKind} {d b : SReg} {v : Core → Word} {t : AType} {k : AccKind}
    (hx : ∀ s, exec i s = runWord i s fun m s => s.scIssue m kind d b (v (s.core m)) t)
    (hk : kind = .load ∧ k = accScRead ∨ kind ≠ .load ∧ k = accScWrite) :
    AsksHost i k (fun q => q.rs b) (atypeBits t / 8) := by
  rcases hk with ⟨rfl, rfl⟩ | ⟨hkind, rfl⟩
  · refine asksHost_of_check hx (atypeBytes_accSizes t) (by decide) fun s m r _ h => ?_
    simp only [State.scIssue, bne_self_eq_false, Bool.and_false, Bool.false_eq_true, if_false, beq_self_eq_true, if_true, h]
  · refine asksHost_of_check hx (atypeBytes_accSizes t) (by decide) fun s m r hidem h => ?_
    simp only [State.scIssue, hidem ⟨rfl, rfl⟩, Bool.false_and, Bool.false_eq_true, if_false, beq_iff_eq, hkind, h]

/-- A core that awaits a page runs no word at its boundary. -/
theorem step_awaits_page {s : State} {r : List Move} {c : CoreId} (h : s.agenda = .core c :: r) (hc : c < 512) :
    let u : State := { s.tickOver with agenda := r }
    let l := (u.convoyOf c).headD c
    u.groupReq (u.groupOf l) = none → (u.core l).uiReady = false → (u.core l).pos = .word →
    (∀ m ∈ u.convoyOf c, (u.core m).running = true ∧ (u.core m).due = [] ∧ (u.core m).debugReq = false) →
    (∃ m ∈ u.convoyOf c, (u.core m).waitPage.isSome = true) → step s = .next u := by
  intro u l hreq hui hpos hms hwait
  rw [step_core h hc, coreStep_at_word rfl hreq hui hpos hms, if_pos (List.any_eq_true.mpr hwait)]
  exact unlessFull_next (.inr le_rfl)

/-- Settles O24: the checks of an access to an absent page answer with the page, which is the one member's page fault; the
abort of an idempotent task frees its members and returns its node, and a boundary waits for a page before any word. -/
theorem absentPagesAreRequested : Obligations.AbsentPagesAreRequested := by
  refine ⟨fun s ctx va code c bad => ⟨pageRequest_once code c bad, pageRequest_new code c bad⟩,
    ⟨ld_asks, st_asks, fun c d b v w t => ⟨fun i hi => ?_, ?_, ?_, ?_⟩⟩, fun s r c h hc => step_awaits_page h hc⟩
  · simp only [List.mem_cons, List.not_mem_nil, or_false] at hi
    rcases hi with rfl | rfl | rfl | rfl | rfl | rfl | rfl | rfl | rfl
    all_goals exact atomic_asks fun _ => rfl
  · exact sc_asks (v := fun _ => 0) (fun _ => rfl) (.inl ⟨rfl, rfl⟩)
  · exact sc_asks (v := fun q => v.val q) (fun _ => rfl) (.inr ⟨nofun, rfl⟩)
  · exact sc_asks (v := fun q => v.val q) (fun _ => rfl) (.inr ⟨nofun, rfl⟩)

end Sys2Proof.Machine

/-! Proofs of O35, O36 and O37: the vector unit's words but the conversions. A register is a number of elements, and
merging builds it anew; each word writes what its effect names on each core that runs it (`runCore_each`), so what is left
to prove is that the model's helpers and the statement name one function of the sources. -/
namespace Sys2Proof.Machine

/-! ## Numbers of elements (R129) -/

theorem ofElems_lt (w : Nat) (l : List Nat) : ofElems w l < 2 ^ (w * l.length) := by
  induction l with
  | nil => simp [ofElems]
  | cons x l ih =>
    have hx : x % 2 ^ w < 2 ^ w := Nat.mod_lt _ (Nat.two_pow_pos w)
    rw [ofElems, List.length_cons, Nat.mul_succ, Nat.add_comm, pow_add, mul_comm (2 ^ (w * l.length))]
    calc 2 ^ w * ofElems w l + x % 2 ^ w < 2 ^ w * ofElems w l + 2 ^ w := Nat.add_lt_add_left hx _
      _ = 2 ^ w * (ofElems w l + 1) := (Nat.mul_succ _ _).symm
      _ ≤ 2 ^ w * 2 ^ (w * l.length) := Nat.mul_le_mul_left _ ih

/-- Past its first element a number holds the elements of its tail. -/
theorem elem_ofElems_succ (w x : Nat) (l : List Nat) (e : Nat) :
    elem w (ofElems w (x :: l)) (e + 1) = elem w (ofElems w l) e := by
  have htail : ofElems w (x :: l) / 2 ^ w = ofElems w l := by
    rw [ofElems, Nat.add_mul_div_left _ _ (Nat.two_pow_pos w), Nat.div_eq_of_lt (Nat.mod_lt _ (Nat.two_pow_pos w)),
      Nat.zero_add]
  rw [elem, elem, Nat.mul_succ, Nat.add_comm, pow_add, ← Nat.div_div_eq_div_mul, htail]

theorem elem_ofElems (w : Nat) (l : List Nat) (e : Nat) : elem w (ofElems w l) e = l.getD e 0 % 2 ^ w := by
  induction l generalizing e with
  | nil => simp [elem, ofElems]
  | cons x l ih =>
    cases e with
    | zero => simp [elem, ofElems]
    | succ e => rw [elem_ofElems_succ, ih, List.getD_cons_succ]

/-! ## Vector registers after a write -/

theorem Core.rv_of_long {q : Core} (h : q.long = true) (r : VReg) : q.rv r = (q.l.get r.toNat 0).toNat := if_pos h
theorem Core.rv_of_short {q : Core} (h : ¬ q.long = true) (r : VReg) : q.rv r = (q.v.get r.toNat 0).toNat := if_neg h
theorem Core.rv_wv_of_long {q : Core} (h : q.long = true) (d r : VReg) (x : Nat) :
    (q.wv d x).rv r = ((q.l.set d.toNat (BitVec.ofNat 2048 x)).get r.toNat 0).toNat := by
  rw [Core.wv, if_pos h]
  exact if_pos h
theorem Core.rv_wv_of_short {q : Core} (h : ¬ q.long = true) (d r : VReg) (x : Nat) :
    (q.wv d x).rv r = ((q.v.set d.toNat (BitVec.ofNat 256 x)).get r.toNat 0).toNat := by
  rw [Core.wv, if_neg h]
  exact if_neg h

/-- A write cuts to the register's bits in the mode in force. -/
theorem Core.rv_wv_same (q : Core) (d : VReg) (x : Nat) : (q.wv d x).rv d = x % 2 ^ q.vbits := by
  have cut : ∀ n, q.vbits = n → (BitVec.ofNat n x).toNat = x % 2 ^ q.vbits := fun n hn => hn ▸ BitVec.toNat_ofNat x n
  by_cases h : q.long = true
  · rw [Core.rv_wv_of_long h, SMap.get_set_same]
    exact cut 2048 (if_pos h)
  · rw [Core.rv_wv_of_short h, SMap.get_set_same]
    exact cut 256 (if_neg h)

theorem Core.rv_wv_other (q : Core) {d r : VReg} (h : r ≠ d) (x : Nat) : (q.wv d x).rv r = q.rv r := by
  have hn : r.toNat ≠ d.toNat := fun e => h (BitVec.eq_of_toNat_eq e)
  by_cases hl : q.long = true
  · rw [Core.rv_wv_of_long hl, SMap.get_set_other _ hn, Core.rv_of_long hl]
  · rw [Core.rv_wv_of_short hl, SMap.get_set_other _ hn, Core.rv_of_short hl]

/-- A write to a vector register stays in the files of vectors. -/
theorem Core.wv_keeps (q : Core) (d : VReg) (x : Nat) : let y := q.wv d x
    y.s = q.s ∧ y.p = q.p ∧ y.k = q.k ∧ y.share = q.share := by
  unfold Core.wv
  split <;> exact ⟨rfl, rfl, rfl, rfl⟩

/-! ## Merging (R129, R131) -/

/-- The widths of elements fill a register of either mode. -/
theorem Core.width_mul_count (q : Core) {w : Nat} (hw : w ∈ [8, 16, 32, 64]) : w * q.count w = q.vbits := by
  have fills : ∀ w ∈ [8, 16, 32, 64], w ∣ 256 ∧ w ∣ 2048 := by decide
  refine Nat.mul_div_cancel' ?_
  unfold Core.vbits
  split
  · exact (fills w hw).2
  · exact (fills w hw).1

theorem Core.ofElems_fits (q : Core) {w : Nat} (hw : w ∈ [8, 16, 32, 64]) (g : Nat → Nat) :
    ofElems w ((List.range (q.count w)).map g) < 2 ^ q.vbits := by
  have h := ofElems_lt w ((List.range (q.count w)).map g)
  rwa [List.length_map, List.length_range, q.width_mul_count hw] at h

theorem Core.elem_merge (q : Core) (d : VReg) (k : KOpt) {w : Nat} (f : Nat → Nat) (hw : w ∈ [8, 16, 32, 64]) {e : Nat}
    (he : e < q.count w) :
    elem w ((q.merge d k w f).rv d) e = if q.enabled k w e then f e % 2 ^ w else elem w (q.rv d) e := by
  rw [Core.merge, Core.rv_wv_same, Nat.mod_eq_of_lt (q.ofElems_fits hw _), elem_ofElems]
  simp only [List.getD_eq_getElem?_getD, List.getElem?_map, List.getElem?_range he, Option.map_some, Option.getD_some]
  split
  · rfl
  · exact Nat.mod_mod _ _

/-- In short mode every element's lowest byte is one of the first 32, so that the mode cuts no mask (R131). -/
theorem Core.enabled_by_mask (q : Core) (r : KReg) {w : Nat} (hw : w ∈ [8, 16, 32, 64]) {e : Nat} (he : e < q.count w) :
    q.enabled (some r) w e = (q.rk r).getLsbD (e * w / 8) := by
  rw [Core.enabled, Core.maskBit]
  cases hl : q.long with
  | true => simp
  | false =>
    have hbits : w * q.count w = 256 := by
      rw [q.width_mul_count hw, Core.vbits, hl]
      rfl
    have hlast : e * w < 256 := by
      rw [← hbits, mul_comm]
      exact Nat.mul_lt_mul_of_pos_left he (Nat.pos_of_ne_zero (by rintro rfl; simp at hw))
    have hbyte : e * w / 8 < 32 := by omega
    simp [hbyte]

/-- Settles O35: the register is rebuilt element by element (`Core.elem_merge`), and a write to it leaves the others. -/
theorem vectorElementsAreMerged : Obligations.VectorElementsAreMerged := by
  intro q d k w f hw y
  obtain ⟨hs, hp, hk, hshare⟩ : y.s = q.s ∧ y.p = q.p ∧ y.k = q.k ∧ y.share = q.share := q.wv_keeps d _
  exact ⟨fun e he => q.elem_merge d k f hw he, fun r hr => q.rv_wv_other hr _, hs, hp, hk, hshare,
    fun e he => ⟨rfl, fun r => q.enabled_by_mask r hw he⟩⟩

/-! ## Words whose effect is named otherwise than in the model -/

/-- A word of each core's own state completes with whatever describes its effect. -/
theorem eachDoes_of_eq {i : Instr} {g h : Core → Core} (hx : ∀ s, exec i s = runCore i s g) (hgh : ∀ q, g q = h q) :
    EachDoes i h :=
  funext hgh ▸ runCore_each hx

/-! ## Arithmetic and reductions (R135, R138, R139, R141) -/

/-- The identities of VRMAX and VRMIN: the infinities of a float format, the bounds of an integer type. -/
theorem reduceMax_eq (q : Core) (isMax : Bool) (a : VReg) (k : KOpt) (t : VType) : q.reduceMax isMax a k t =
    if t = .bf16 then BitVec.ofNat 64 (treeOf (vminMaxF t isMax) (q.elemsOr a k 16 (if isMax then 0xFF80 else 0x7F80)))
    else if t = .fp32 then
      BitVec.ofNat 64 (treeOf (vminMaxF t isMax) (q.elemsOr a k 32 (if isMax then 0xFF800000 else 0x7F800000)))
    else t.extend (treeOf (if isMax then vmaxI t else vminI t)
      (q.elemsOr a k t.width (t.ofInt (if isMax then t.minInt else t.maxInt)))) := by
  cases t <;> cases isMax <;> rfl

/-- Settles O36: every element-wise word is written with the statement's own function; the reductions differ in how the
identity of a type is named. -/
theorem vectorArithmeticResults : Obligations.VectorArithmeticResults := by
  refine ⟨⟨?_, ?_, ?_, ?_, ?_, ?_, ?_, ?_, ?_, ?_, ?_, ?_, ?_, ?_, ?_⟩, ?_, ?_, ?_, ?_, ?_, ?_, ?_, ?_, ?_, ?_, ?_,
    fun _ d a k t => eachDoes_of_eq (fun _ => rfl) fun q => ?vrsum,
    fun _ d a k t => eachDoes_ws (fun _ => rfl) fun q => reduceMax_eq q true a k t,
    fun _ d a k t => eachDoes_ws (fun _ => rfl) fun q => reduceMax_eq q false a k t⟩
  case vrsum => cases t <;> rfl
  all_goals
    intros
    exact runCore_each fun _ => rfl

/-! ## Comparisons and moves (R136, R137, R142) -/

theorem mergeMask_eq (q : Core) (d : KReg) (k : KOpt) (w : Nat) (f : Nat → Bool) : q.mergeMask d k w f =
    q.wk d (BitVec.ofNat 256 (ofElems 1 ((List.range 256).map fun l =>
      if (if l < q.vbits / 8 ∧ q.enabled k w (l / (w / 8)) = true then f (l / (w / 8)) else (q.rk d).getLsbD l) then 1
      else 0))) := by
  simp only [Core.mergeMask, Bool.and_eq_true, decide_eq_true_eq]

theorem place1_eq (q : Core) (d : VReg) (w first : Nat) (xs : List Nat) : q.place1 d w first xs =
    q.merge d none w fun e =>
      if first ≤ e ∧ e < first + xs.length then xs.getD (e - first) 0 else elem w (q.rv d) e := by
  simp only [Core.place1, Bool.and_eq_true, decide_eq_true_eq]

/-- A lone core at VMODE: the share asked for is granted or not (R212). -/
theorem vmode_alone {s : State} {f : Fields} {c : Ctl} {x : VShare} (h : s.Alone f)
    (hf : Instr.fields (.vmode c x) = some f) :
    ((s.core s.cur).grants.lregs < shareOf x → s.TrapsAs (.vmode c x) .illegalOp 0x0105) ∧
    (shareOf x ≤ (s.core s.cur).grants.lregs →
      s.Does (.vmode c x) f (s.modCore s.cur fun q => q.setShare (shareOf x))) := by
  have hms := convoyOf_alone s s.cur h.lone
  have hleader : s.leader = s.cur := by rw [State.leader, hms, List.headD_cons]
  obtain ⟨hdone, -, htrap, -⟩ := runWord_alone hf h (rfl : exec (.vmode c x) s = runWord _ s _)
  constructor
  · intro hlt
    rw [State.TrapsAs, hleader, hms]
    exact htrap _ _ (if_pos hlt)
  · intro hle
    exact hdone _ (if_neg (Nat.not_lt.mpr hle))

/-- Settles O37: the comparisons and VINS name their guards as truth values (`mergeMask_eq`, `place1_eq`), the halves of
VZIP and VUZP are named one by one, and VMODE is `vmode_alone`; every other word is written with the statement's function. -/
theorem vectorMovesAndMasks : Obligations.VectorMovesAndMasks := by
  refine ⟨⟨fun _ d a b k cond t => eachDoes_of_eq (fun _ => rfl) fun q => mergeMask_eq q d k t.width _,
    fun _ d a b k cond t => eachDoes_of_eq (fun _ => rfl) fun q => mergeMask_eq q d k t.width _,
    ?_, ?_, ?_, ?_, fun _ d a x t => eachDoes_of_eq (fun _ => rfl) fun q => place1_eq q d t.width _ _,
    ?_, ?_, ?_, ?_, fun _ d a b half t => ?vzip, fun _ d a b half t => ?vuzp⟩, ?_, ?_, ?_, ?_, ?_,
    fun s f c x h hf => ?vmode⟩
  case vzip => cases half <;> exact runCore_each fun _ => rfl
  case vuzp => cases half <;> exact runCore_each fun _ => rfl
  case vmode => cases x <;> exact vmode_alone h hf
  all_goals
    intros
    exact runCore_each fun _ => rfl

end Sys2Proof.Machine

/-! Proof of O38: the vector unit's conversions (R143 to R149). What VCOMP keeps is said by ranks: an element's rank is the
number of elements that come before it in the choice, the ranks of a group are 0, 1, … in some order, and the kept elements
are those of the lowest ranks. -/
namespace Sys2Proof.Machine

/-! ## The largest of a group (R149) -/

/-- Element `j` of a group comes before element `i` in VCOMP's choice: its magnitude is larger, or equal and its index
lower. -/
def goesBefore (ms : List Nat) (j i : Nat) : Bool :=
  decide (ms.getD i 0 < ms.getD j 0) || (ms.getD j 0 == ms.getD i 0 && decide (j < i))

/-- How many elements of a group come before element `i`. -/
def rankOf (ms : List Nat) (i : Nat) : Nat := ((List.range ms.length).filter fun j => goesBefore ms j i).length

theorem goesBefore_iff {ms : List Nat} {j i : Nat} :
    goesBefore ms j i = true ↔ ms.getD i 0 < ms.getD j 0 ∨ ms.getD j 0 = ms.getD i 0 ∧ j < i := by
  simp only [goesBefore, Bool.or_eq_true, Bool.and_eq_true, decide_eq_true_eq, beq_iff_eq]

theorem goesBefore_irrefl (ms : List Nat) (i : Nat) : ¬ goesBefore ms i i = true := by
  rw [goesBefore_iff]
  omega

theorem goesBefore_trans {ms : List Nat} {i j k : Nat} (h : goesBefore ms i j = true) (h' : goesBefore ms j k = true) :
    goesBefore ms i k = true := by
  rw [goesBefore_iff] at h h' ⊢
  omega

theorem goesBefore_total (ms : List Nat) {i j : Nat} (h : i ≠ j) : goesBefore ms i j = true ∨ goesBefore ms j i = true := by
  rw [goesBefore_iff, goesBefore_iff]
  omega

theorem keepPos_eq (keep : Nat) (ms : List Nat) :
    keepPos keep ms = (List.range ms.length).filter fun i => decide (rankOf ms i < keep) := rfl

theorem mem_keepPos {keep : Nat} {ms : List Nat} {i : Nat} : i ∈ keepPos keep ms ↔ i < ms.length ∧ rankOf ms i < keep := by
  rw [keepPos_eq, List.mem_filter, List.mem_range, decide_eq_true_eq]

theorem length_filter_range (p : Nat → Bool) (n : Nat) :
    ((List.range n).filter p).length = ((Finset.range n).filter fun i => p i = true).card := by
  rw [← List.toFinset_card_of_nodup (List.nodup_range.filter p), List.toFinset_filter, List.toFinset_range]

theorem rankOf_eq_card (ms : List Nat) (i : Nat) :
    rankOf ms i = ((Finset.range ms.length).filter fun j => goesBefore ms j i = true).card :=
  length_filter_range _ _

theorem rankOf_lt_of_goesBefore {ms : List Nat} {i j : Nat} (h : goesBefore ms j i = true) (hj : j < ms.length) :
    rankOf ms j < rankOf ms i := by
  rw [rankOf_eq_card, rankOf_eq_card]
  refine Finset.card_lt_card (Finset.ssubset_iff_of_subset ?_ |>.mpr ⟨j, ?_, ?_⟩)
  · exact Finset.monotone_filter_right _ fun k _ hk => goesBefore_trans hk h
  · exact Finset.mem_filter.mpr ⟨Finset.mem_range.mpr hj, h⟩
  · exact fun hmem => goesBefore_irrefl ms j (Finset.mem_filter.mp hmem).2

theorem rankOf_lt_length {ms : List Nat} {i : Nat} (hi : i < ms.length) : rankOf ms i < ms.length := by
  rw [rankOf_eq_card]
  calc _ < (Finset.range ms.length).card :=
        Finset.card_lt_card (Finset.filter_ssubset.mpr ⟨i, Finset.mem_range.mpr hi, goesBefore_irrefl ms i⟩)
    _ = ms.length := Finset.card_range _

theorem rankOf_injOn (ms : List Nat) : Set.InjOn (rankOf ms) (Finset.range ms.length) := by
  intro i hi j hj heq
  by_contra hne
  rw [Finset.mem_coe, Finset.mem_range] at hi hj
  rcases goesBefore_total ms hne with h | h
  · exact absurd heq (rankOf_lt_of_goesBefore h hi).ne
  · exact absurd heq (rankOf_lt_of_goesBefore h hj).ne'

/-- The ranks of a group are 0, 1, … in some order. -/
theorem image_rankOf (ms : List Nat) : (Finset.range ms.length).image (rankOf ms) = Finset.range ms.length := by
  refine Finset.eq_of_subset_of_card_le (fun r hr => ?_) (Finset.card_image_of_injOn (rankOf_injOn ms)).ge
  obtain ⟨i, hi, rfl⟩ := Finset.mem_image.mp hr
  exact Finset.mem_range.mpr (rankOf_lt_length (Finset.mem_range.mp hi))

theorem card_rankOf_lt {keep : Nat} {ms : List Nat} (h : keep ≤ ms.length) :
    ((Finset.range ms.length).filter fun i => rankOf ms i < keep).card = keep := by
  have hinj := (rankOf_injOn ms).mono (Finset.coe_subset.mpr (Finset.filter_subset (fun i => rankOf ms i < keep) _))
  have hranks : (Finset.range ms.length).filter (· < keep) = Finset.range keep := by
    ext r
    simp only [Finset.mem_filter, Finset.mem_range]
    omega
  rw [← Finset.card_image_of_injOn hinj, ← Finset.filter_image (p := (· < keep)), image_rankOf, hranks, Finset.card_range]

theorem length_keepPos {keep : Nat} {ms : List Nat} (h : keep ≤ ms.length) : (keepPos keep ms).length = keep := by
  simp only [keepPos_eq, length_filter_range, decide_eq_true_eq, card_rankOf_lt h]

/-- VCOMP keeps the largest of a group, the lower index first among equals, at ascending positions. -/
theorem keepPos_largest (keep : Nat) (ms : List Nat) (h : keep ≤ ms.length) : let ps := keepPos keep ms
    ps.length = keep ∧ ps.Pairwise (· < ·) ∧ (∀ i ∈ ps, i < ms.length) ∧
    ∀ i ∈ ps, ∀ j < ms.length, j ∉ ps → ms.getD j 0 < ms.getD i 0 ∨ ms.getD j 0 = ms.getD i 0 ∧ i < j := by
  refine ⟨length_keepPos h, List.pairwise_lt_range.filter _, fun i hi => (mem_keepPos.mp hi).1, ?_⟩
  intro i hi j hj hnot
  obtain ⟨-, hrank⟩ := mem_keepPos.mp hi
  have hlow : keep ≤ rankOf ms j := Nat.le_of_not_lt fun hlt => hnot (mem_keepPos.mpr ⟨hj, hlt⟩)
  have hne : i ≠ j := by
    rintro rfl
    omega
  rcases goesBefore_total ms hne with hb | hb
  · exact (goesBefore_iff.mp hb).imp_right fun ⟨heq, hlt⟩ => ⟨heq.symm, hlt⟩
  · have := rankOf_lt_of_goesBefore hb hj
    omega

/-! ## The words -/

/-- Settles O38: the choice of VCOMP is `keepPos_largest`. Every word is written with the statement's own function, once its
format or pattern is known: VCVT by the kinds of its two types, VPK5 with the bytes that its run of trits takes, VCOMP with
positions and values kept in one list or in two. -/
theorem vectorConversions : Obligations.VectorConversions := by
  refine ⟨fun _ d a k part dst src => eachDoes_of_eq (fun _ => rfl) fun q => ?vcvt,
    fun _ d a e part mode fmt src => ?vqmx, fun _ _ _ _ _ _ _ => runCore_each fun _ => rfl,
    fun _ _ _ _ _ _ => runCore_each fun _ => rfl, fun _ _ _ _ _ _ => runCore_each fun _ => rfl,
    fun _ d a o fmt => eachDoes_of_eq (fun _ => rfl) fun q => ?vpk5,
    fun _ d a o fmt => eachDoes_of_eq (fun _ => rfl) fun q => ?vupk5,
    keepPos_largest,
    fun _ d m a part pat t => eachDoes_of_eq (fun _ => rfl) fun q => ?vcomp,
    fun _ d m a part pat t => eachDoes_of_eq (fun _ => rfl) fun q => ?vexpd⟩
  case vcvt =>
    cases hs : src.isFloat <;> cases hd : dst.isFloat
    all_goals simp only [vconv, hs, hd, Bool.and_eq_true, decide_eq_true_eq, Bool.false_eq_true, if_true, if_false]
  case vqmx => cases fmt <;> exact runCore_each fun _ => rfl
  case vpk5 =>
    cases fmt <;> cases q.long
    all_goals simp only [packTrits, List.length_map, List.length_range, if_true, if_false, Bool.false_eq_true]
  case vupk5 => cases fmt <;> rfl
  case vcomp =>
    cases pat
    all_goals simp only [compMag, beq_iff_eq, groupOf, groupElems, List.map_map, List.flatMap_map, Function.comp_def,
      List.map_id_fun', id, List.length_map, List.length_range]
  case vexpd => cases pat <;> rfl

end Sys2Proof.Machine

/-! Proof of O59: the state right after reset (R134, R219, R416). -/
namespace Sys2Proof.Machine

/-- Settles O59: reset lists nothing, so every unit is what an unlisted one is. -/
theorem resetIsWellKept : Obligations.ResetIsWellKept :=
  ⟨⟨rfl, rfl, rfl, rfl, fun _ => rfl⟩, rfl, rfl, rfl, rfl, rfl, rfl, rfl, rfl, rfl, fun _ =>
    ⟨rfl, rfl, rfl, rfl, ⟨rfl, rfl, rfl, rfl, rfl⟩, fun _ => rfl, fun _ => ⟨rfl, rfl⟩⟩⟩

end Sys2Proof.Machine

/-! Proof of O39: the matrix instructions issue their operations (R154, R158, R162 to R169). Before it, what the issue of an
engine operation answers on a core behind no fence, which the words of every engine share. -/
namespace Sys2Proof.Machine

/-! ## Issue (R110, R154) -/

@[simp] theorem core_issued (s : State) (m : CoreId) (t : Timeline) (kind : OpKind) :
    (s.issued m t kind).core m = (s.core m).setTl t { (s.core m).tl t with issued := ((s.core m).tl t).issued + 1 } :=
  State.core_setCore_same s m _

/-- The core of an issue has been written last: writing it again as it stands changes nothing. -/
theorem setCore_core_issued (s : State) (m : CoreId) (t : Timeline) (kind : OpKind) :
    (s.issued m t kind).setCore m ((s.issued m t kind).core m) = s.issued m t kind := by
  rw [core_issued]
  simp only [State.issued, State.setCore, SMap.set_set]

/-- Behind no fence an operation is numbered, takes its place with its engine, and gives its tag. -/
theorem issueOp_unfenced {s : State} {m : CoreId} (h : (s.core m).fences = [] ∧ (s.core m).sc = none) (t : Timeline)
    (d : SReg) (kind : OpKind) (after : State → Nat → State) :
    s.issueOp m t d kind after = .done (s.tagged m t kind d fun u => after u (((s.core m).tl t).issued + 1)) := by
  unfold State.issueOp
  rw [fenceGate_open clsEi h.1 h.2]
  rfl

theorem tagged_congr {s : State} {m : CoreId} {t : Timeline} {kind : OpKind} {d : SReg} {after after' : State → State}
    (h : after (s.issued m t kind) = after' (s.issued m t kind)) : s.tagged m t kind d after = s.tagged m t kind d after' := by
  unfold State.tagged
  rw [h]

/-- On every ready convoy whose members are behind no fence and `good`, in turn, the word issues an operation of a timeline: it is
numbered, takes its place with its engine as `after` says, and gives its tag in `d`. -/
def IssuesInTurns (i : Instr) (t : Timeline) (d : SReg) (good : CoreId → State → Prop) (kind : Core → OpKind)
    (after : CoreId → Core → State → State) : Prop :=
  InTurns i fun m s z => ((s.core m).fences = [] ∧ (s.core m).sc = none) ∧ good m s ∧
    z = s.tagged m t (kind (s.core m)) d (after m (s.core m))

theorem issues_in_turns {i : Instr} {body : CoreId → State → Res} {t : Timeline} {d : SReg} {good : CoreId → State → Prop}
    {kind : Core → OpKind} {after : CoreId → Core → State → State} (place : CoreId → State → State → Nat → State)
    (hx : ∀ s, exec i s = runWord i s body)
    (hb : ∀ m s, good m s → body m s = s.issueOp m t d (kind (s.core m)) (place m s))
    (hp : ∀ m s, let u := s.issued m t (kind (s.core m))
      place m s u (((s.core m).tl t).issued + 1) = after m (s.core m) u) : IssuesInTurns i t d good kind after := by
  refine inTurns_of_done hx ?_
  rintro m s z ⟨hcalm, hgood, rfl⟩
  rw [hb m s hgood, issueOp_unfenced hcalm]
  exact congrArg Res.done (tagged_congr (hp m s))

/-- An operation of one core enters the engine order of its cluster. -/
def entersOrder (kind : Core → OpKind) (m : CoreId) (q : Core) (u : State) : State :=
  ({ u with nextOp := u.nextOp + 1 } : State).arriveMx (clusterOf m)
    { id := u.nextOp, parts := [⟨m, q.inst, .mx, (q.tl .mx).issued + 1⟩], kind := kind q }

theorem issueMx_in_turns {i : Instr} {body : CoreId → State → Res} {d : SReg} {good : CoreId → State → Prop}
    {kind : Core → OpKind} (hx : ∀ s, exec i s = runWord i s body)
    (hb : ∀ m s, good m s → body m s = s.issueMx m d (kind (s.core m))) :
    IssuesInTurns i .mx d good kind (entersOrder kind) := by
  refine issues_in_turns _ hx hb fun m s => ?_
  simp only [core_issued]
  rfl

/-! ## MGANG and MJOB (R162, R164) -/

/-- An MGANG claims its slots where its core takes part, and joins its cluster's gang. -/
def joinsGang (dr : BitVec 2) (m : CoreId) (q : Core) (u : State) : State :=
  let x := q.desc dr
  let takes := (mdMask x).testBit (inCluster m)
  let u := if takes then u.modCore m fun q => (q.claimSlots (mdHandle x) (mdSteps x)).1 else u
  let g : GangIssue := ⟨q.inst, (q.tl .mx).issued + 1, x, q.metaBytes x, if takes then (q.handle (mdHandle x)).d else 0⟩
  (u.modCluster (clusterOf m) fun k =>
    { k with gangs := k.gangs.set (inCluster m) (k.gangs.get (inCluster m) [] ++ [g]) }).joinGangs (clusterOf m)

theorem mgang_issues (c : Ctl) (d : SReg) (dr : BitVec 2) : IssuesInTurns (.mgang c d dr) .mx d
    (fun m s => s.matrixFail m true ((s.core m).desc dr) = none) (fun q => .matrix true (q.desc dr)) (joinsGang dr) := by
  refine issues_in_turns _ (fun _ => rfl) (fun m s h => by simp only [h]; rfl) fun m s => ?_
  by_cases htakes : (mdMask ((s.core m).desc dr)).testBit (inCluster m) = true
  · simp only [takesPart, joinsGang, htakes, if_true, State.modCore]
    rw [core_issued]
    rfl
  · simp only [takesPart, joinsGang, htakes, if_true, Bool.false_eq_true, if_false, setCore_core_issued]
    rw [core_issued]
    rfl

/-- An MJOB claims its slots, waits for its turn among the pending operations, and is offered to the job queue. -/
def joinsQueue (dr : BitVec 2) (yld : Bool) (m : CoreId) (q : Core) (u : State) : State :=
  let x := q.desc dr
  let j : JobRef := ⟨m, q.inst, .mx, (q.tl .mx).issued + 1⟩
  let u := u.modCore m fun q => (q.claimSlots (mdHandle x) (mdSteps x)).1
  let op : MxOp := { id := u.nextOp, parts := [j], kind := .matrix false x, metas := [(inCluster m, q.metaBytes x)]
                     claims := [(inCluster m, j, (q.handle (mdHandle x)).d)] }
  (({ u with nextOp := u.nextOp + 1 } : State).modCluster (clusterOf m) fun k => { k with pending := k.pending ++ [op] }).offerJob
    m yld j

theorem mjob_issues (c : Ctl) (d : SReg) (dr : BitVec 2) : IssuesInTurns (.mjob c d dr) .mx d
    (fun m s => s.matrixFail m false ((s.core m).desc dr) = none ∧ (s.cluster (clusterOf m)).queued < 16)
    (fun q => .matrix false (q.desc dr)) (joinsQueue dr c.yld) := by
  refine issues_in_turns _ (fun _ => rfl) (fun m s h => by simp only [h.1, if_neg (Nat.not_le.mpr h.2)]; rfl) fun m s => ?_
  dsimp only [joinsQueue, State.modCore]
  rw [core_issued]
  rfl

theorem mjob_waits (c : Ctl) (d : SReg) (dr : BitVec 2) : Waits (.mjob c d dr) fun m s =>
    ((s.core m).fences = [] ∧ (s.core m).sc = none) ∧ s.matrixFail m false ((s.core m).desc dr) = none ∧
      16 ≤ (s.cluster (clusterOf m)).queued := by
  refine waits_of_wait (fun _ => rfl) ?_
  rintro m s ⟨-, hok, hfull⟩
  simp only [hok, if_pos hfull]

/-! ## The other words (R167 to R169) -/

/-- A W range that lies in its partition, and among the declared outputs of an idempotent task (R157, R167). -/
def Core.WRange (q : Core) (a : Word) (n : Nat) : Prop :=
  a.toNat < 2 ^ 29 ∧ a.toNat % 2 ^ 26 + n ≤ 2 ^ 26 ∧ (q.idem = true → q.declaredW a.toNat n = true)

theorem Core.WRange.badW {q : Core} {a : Word} {n : Nat} (h : q.WRange a n) : badW a n = false := by
  obtain ⟨hpart, hroom, -⟩ := h
  simp only [Machine.badW, Nat.div_eq_of_lt hpart, bne_self_eq_false, Bool.false_or, decide_eq_false_iff_not]
  omega

theorem Core.WRange.declared {q : Core} {a : Word} {n : Nat} (h : q.WRange a n) :
    (q.idem && !q.declaredW a.toNat n) = false := by
  obtain ⟨-, -, hdecl⟩ := h
  cases hi : q.idem
  · rfl
  · simp [hdecl hi]

theorem mbld_none_issues (c : Ctl) (d a b len : SReg) : IssuesInTurns (.mbld c d a b len) .mx d
    (fun m s => ((s.core m).rs a).toNat % 32 = 0 ∧ ((s.core m).rs b).toNat % 32 = 0 ∧ (s.core m).rs len = 0)
    (fun q => .load (q.rs a) (q.rs b) 0) fun m q u => u.jobDone ⟨m, q.inst, .mx, (q.tl .mx).issued + 1⟩ 0 0xFF 0 := by
  refine issues_in_turns (fun m _ s k => s.jobDone ⟨m, (s.core m).inst, .mx, k⟩ 0 0xFF 0) (fun _ => rfl) ?_ fun m s => ?_
  · rintro m s ⟨ha, hb, hlen⟩
    have hlen : ((s.core m).rs len).toNat = 0 := congrArg BitVec.toNat hlen
    simp only [ha, hb, hlen, bne_self_eq_false, Bool.and_false, Bool.false_and, Bool.false_eq_true, if_false, if_true]
  · simp only [core_issued]
    rfl

theorem mbld_issues (c : Ctl) (d a b len : SReg) :
    let load := fun (q : Core) => OpKind.load (q.rs a) (q.rs b) (q.rs len).toNat
    IssuesInTurns (.mbld c d a b len) .mx d (fun m s => let q := s.core m
      (q.rs a).toNat % 32 = 0 ∧ (q.rs b).toNat % 32 = 0 ∧ q.rs len ≠ 0 ∧ q.WRange (q.rs a) (q.rs len).toNat ∧
        s.rangesFail m [(accRead, q.rs b, (q.rs len).toNat)] = none) load (entersOrder load) := by
  refine issueMx_in_turns (fun _ => rfl) ?_
  rintro m s ⟨ha, hb, hlen, hroom, hok⟩
  have hlen : ((s.core m).rs len).toNat ≠ 0 := fun e => hlen (BitVec.eq_of_toNat_eq e)
  have hdecl := hroom.declared
  rw [Bool.and_eq_false_iff] at hdecl
  simp only [hroom.badW, ha, hb, hlen, hok, bne_self_eq_false, Bool.false_eq_true, if_false]
  rcases hdecl with h | h <;> simp [h]

theorem mscl_issues (c : Ctl) (d a : SReg) (v : VReg) :
    let scale := fun (q : Core) => OpKind.scale (q.rs a) (leBytes (q.vbits / 8) (q.rv v))
    IssuesInTurns (.mscl c d a v) .mx d
      (fun m s => ((s.core m).rs a).toNat % 32 = 0 ∧ (s.core m).WRange ((s.core m).rs a) ((s.core m).vbits / 8))
      scale (entersOrder scale) := by
  refine issueMx_in_turns (fun _ => rfl) ?_
  rintro m s ⟨ha, hroom⟩
  simp only [hroom.badW, hroom.declared, ha, Bool.not_false, Bool.and_true, bne_self_eq_false, Bool.false_eq_true, if_false]

theorem mperm_issues (c : Ctl) (d b : SReg) :
    IssuesInTurns (.mperm c d b) .mx d (fun m s => (s.core m).idem = false ∧ ((s.core m).rs b).toNat % 128 = 0 ∧
      s.rangesFail m [(accRead, (s.core m).rs b, 8192)] = none)
      (fun q => .perm (q.rs b)) (entersOrder fun q => .perm (q.rs b)) := by
  refine issueMx_in_turns (fun _ => rfl) ?_
  rintro m s ⟨hidem, hb, hok⟩
  simp only [hidem, hb, hok, bne_self_eq_false, Bool.false_eq_true, if_false]

theorem mperm_traps (c : Ctl) (d b : SReg) :
    FirstTraps (.mperm c d b) .nonidemOp fun m s x => x = 0 ∧ (s.core m).idem = true := by
  refine firstTraps_of_trap (fun _ => rfl) ?_
  rintro m s x ⟨rfl, hidem⟩
  simp only [hidem, if_true]

/-! ## Accumulator elements (R168, R169) -/

/-- The elements of MACR and MACW leave the tile. -/
def Core.OffTile (q : Core) (t : AccType) (row col : SImm) : Prop :=
  127 < (row.val q).toNat ∨ 128 < (col.val q).toNat + q.count (accWidth t)

theorem badElems_iff {q : Core} {t : AccType} {row col : SImm} :
    badElems (row.val q) (col.val q) (q.count (accWidth t)) = true ↔ q.OffTile t row col := by
  simp [badElems, Core.OffTile]

theorem macw_traps (c : Ctl) (d : SReg) (v : VReg) (t : AccType) (x : BitVec 2) (row col : SImm) :
    FirstTraps (.macw c d v t x row col) .illegalOp fun m s y => y = 0x0305 ∧ (s.core m).OffTile t row col := by
  refine firstTraps_of_trap (fun _ => rfl) ?_
  rintro m s y ⟨rfl, hbad⟩
  simp only [badElems_iff.mpr hbad, if_true]
  rfl

theorem macw_issues (c : Ctl) (d : SReg) (v : VReg) (t : AccType) (x : BitVec 2) (row col : SImm) :
    let write := fun (q : Core) =>
      OpKind.accWrite t x.toNat (row.val q).toNat (col.val q).toNat (leBytes (q.vbits / 8) (q.rv v))
    IssuesInTurns (.macw c d v t x row col) .mx d (fun m s => ¬ (s.core m).OffTile t row col) write (entersOrder write) :=
  issueMx_in_turns (fun _ => rfl) fun _ _ hgood => if_neg (mt badElems_iff.mp hgood)

theorem macr_traps (c : Ctl) (d : VReg) (k : SReg) {t : AccType} (x : BitVec 2) (row col : SImm) (ht : t ≠ .stat) :
    FirstTraps (.macr c d k t x row col) .illegalOp fun m s y => y = 0x0305 ∧ (s.core m).OffTile t row col := by
  refine firstTraps_of_trap (fun _ => rfl) ?_
  rintro m s y ⟨rfl, hbad⟩
  simp only [beq_iff_eq, ht, if_false, badElems_iff.mpr hbad, if_true]
  rfl

theorem macr_reads (c : Ctl) (d : VReg) (k : SReg) (t : AccType) (x : BitVec 2) (row col : SImm) :
    InTurns (.macr c d k t x row col) fun m s u => let q := s.core m
      let y := (s.cluster (clusterOf m)).acc.get x.toNat {}
      t = .stat ∧ u = s.setCore m (q.ws k (y.ovf.setWidth 64)) ∨
      t ≠ .stat ∧ ¬ q.OffTile t row col ∧ u = s.setCore m ((q.wv d (ofElems (accWidth t)
        ((List.range (q.count (accWidth t))).map fun e => accOut t (y.e.get (128 * (row.val q).toNat + (col.val q).toNat + e) 0)))).ws
          k (BitVec.ofNat 64 y.steps)) := by
  refine inTurns_of_done (fun _ => rfl) ?_
  rintro m s u (⟨rfl, rfl⟩ | ⟨ht, hgood, rfl⟩)
  · rfl
  · simp only [beq_iff_eq, ht, if_false]
    exact if_neg (mt badElems_iff.mp hgood)

/-- Settles O39: each word's checks, once passed, leave the issue of its operation (`issues_in_turns`), which enters the engine
order at once but for MGANG and MJOB; an MBLD of no bytes is over at its issue. -/
theorem matrixWordsIssue : Obligations.MatrixWordsIssue :=
  ⟨mgang_issues, fun c d dr => ⟨mjob_waits c d dr, mjob_issues c d dr⟩,
    fun c d a b len => ⟨mbld_none_issues c d a b len, mbld_issues c d a b len⟩, mscl_issues,
    fun c d b => ⟨mperm_traps c d b, mperm_issues c d b⟩,
    fun _ _ t => issueMx_in_turns (kind := fun _ => .zero t.toNat) (fun _ => rfl) fun _ _ _ => rfl,
    fun c d v t x row col => ⟨macw_traps c d v t x row col, macw_issues c d v t x row col⟩,
    fun c d k _ x row col => ⟨macr_traps c d k x row col, macr_reads c d k _ x row col⟩⟩

end Sys2Proof.Machine

/-! Proof of O40: MCFG, HBIND, CPYT and CTHR take their descriptors (R158, R161, R174, R176, R177). Before it, what the read of a
descriptor at issue gives, and what the offer of an operation to the job queue leaves. -/
namespace Sys2Proof.Machine

/-! ## Descriptors read at issue (R99 to R101, R158) -/

/-- Core `m` reads `n` bytes at `ea` at issue: past its checks, behind no fence and no load, they are `bytes`, poisoned at `ue`,
and the read leaves `v`. -/
def ReadsData (m : CoreId) (s : State) (ea : Word) (n : Nat) (v : State) (bytes : List Byte) (ue : Option Word) : Prop :=
  s.checkAccess m accRead [⟨ea, n, n⟩] = none ∧ (s.core m).fences = [] ∧ (s.core m).sc = none ∧ (s.core m).loads = [] ∧
  let w := (s.resolve m false 0 (runBytes ea n)).2
  let u := (s.resolve m false 0 (runBytes ea n)).1.countAccess m w 0x0012
  (u.core m).loads = [] ∧ ∃ r, u.readWhere m (u.core m).issue w = some (v, r) ∧ r.ue = ue ∧
    bytes = (List.range n).map r.byte ∧ (v.core m).fences = [] ∧ (v.core m).sc = none

theorem Core.loadsMeet_of_no_loads {q : Core} (h : q.loads = []) (w : Where) : q.loadsMeet w = false := by
  simp only [Core.loadsMeet, h, List.any_nil]

theorem loadData_reads {m : CoreId} {s v : State} {ea : Word} {n : Nat} {bytes : List Byte} {ue : Option Word}
    (h : ReadsData m s ea n v bytes ue) (go : State → List Byte → Res) :
    s.loadData m ea n n go =
      ue.elim (go v bytes) fun va => .done (v.modCore m fun x => { x with due := x.due ++ [(x.pc, x.blk, va)] }) := by
  obtain ⟨hok, hf, hsc, -, hloads, r, hread, rfl, rfl, -⟩ := h
  have hmeet := Core.loadsMeet_of_no_loads hloads (s.resolve m false 0 (runBytes ea n)).2
  unfold runBytes at hmeet hread
  simp only [State.loadData, State.access, hok, fenceGate_open _ hf hsc, show accRead.write = false from rfl, hmeet, hread,
    Bool.false_eq_true, if_false]
  cases r.ue <;> rfl

/-- What a word does that takes a descriptor: from the read of its bytes `go` gives the state behind it, and poisoned ones leave a
deferred trap pending (R234). -/
def TakesData (ea : Core → Word) (n : Nat) (go : CoreId → State → State → List Byte → State → Prop) (m : CoreId) (s t : State) :
    Prop :=
  ∃ v bytes, ReadsData m s (ea (s.core m)) n v bytes none ∧ go m s v bytes t ∨
    ∃ va, ReadsData m s (ea (s.core m)) n v bytes (some va) ∧ t = v.modCore m fun x => { x with due := x.due ++ [(x.pc, x.blk, va)] }

theorem loadData_takes (ea : Core → Word) {n : Nat} {go : CoreId → State → State → List Byte → State → Prop} {m : CoreId}
    {s t : State} {cont : State → List Byte → Res} (h : TakesData ea n go m s t)
    (hgo : ∀ v bytes, (v.core m).fences = [] ∧ (v.core m).sc = none → go m s v bytes t → cont v bytes = .done t) :
    s.loadData m (ea (s.core m)) n n cont = .done t := by
  obtain ⟨v, bytes, ⟨hread, hdone⟩ | ⟨va, hread, rfl⟩⟩ := h
  · rw [loadData_reads hread]
    obtain ⟨-, -, -, -, -, r, -, -, -, hcalm⟩ := hread
    exact hgo v bytes hcalm hdone
  · exact loadData_reads hread cont

/-- A descriptor's bad field, by its offset and subcode, as BAD_DESC reports them. -/
def BadData (ea : Core → Word) (n : Nat) (p : CoreId → State → List Byte → Nat → Nat → Prop) (m : CoreId) (s : State) (x : Word) :
    Prop :=
  ∃ v bytes off sub, ReadsData m s (ea (s.core m)) n v bytes none ∧ p m v bytes off sub ∧ x = BitVec.ofNat 64 (off * 256 + sub)

theorem loadData_bad (ea : Core → Word) {n : Nat} {p : CoreId → State → List Byte → Nat → Nat → Prop} {m : CoreId} {s : State}
    {x : Word} {cont : State → List Byte → Res} (h : BadData ea n p m s x)
    (hp : ∀ v bytes off sub, p m v bytes off sub → cont v bytes = badDesc off sub) :
    s.loadData m (ea (s.core m)) n n cont = .trap .badDesc x := by
  obtain ⟨v, bytes, off, sub, hread, hbad, rfl⟩ := h
  rw [loadData_reads hread]
  exact hp v bytes off sub hbad

/-! ## Offers to the job queue (R158, R330) -/

/-- The operation that an issue adds to those outstanding. -/
def State.newOp (s : State) (m : CoreId) (t : Timeline) (kind : OpKind) : EngOp :=
  { core := m, ctx := (s.core m).ctxNum, inst := (s.core m).inst, tl := t, n := ((s.core m).tl t).issued + 1, kind := kind
    env := (s.core m).engEnv, issued := (s.core m).issue, rc := (s.core m).ringCore.getD m }

theorem issued_ops (s : State) (m : CoreId) (t : Timeline) (kind : OpKind) :
    (s.issued m t kind).ops = s.ops ++ [s.newOp m t kind] := rfl

/-- The number of a new operation is none of the outstanding ones'. -/
theorem State.Numbered.new {s : State} {m : CoreId} (h : s.Numbered m) (t : Timeline) {o : EngOp} (ho : o ∈ s.ops) :
    ¬ (((o.core = m ∧ o.inst = (s.core m).inst) ∧ o.tl = t) ∧ o.n = ((s.core m).tl t).issued + 1) := by
  rintro ⟨⟨⟨hc, hi⟩, rfl⟩, hn⟩
  have := h o ho hc hi
  omega

theorem jobOp_issued {s : State} {m : CoreId} (h : s.Numbered m) (t : Timeline) (kind : OpKind) :
    (s.issued m t kind).jobOp ⟨m, (s.core m).inst, t, ((s.core m).tl t).issued + 1⟩ = some (s.newOp m t kind) := by
  have hold : s.ops.find? (fun o => o.core == m && o.inst == (s.core m).inst && o.tl == t &&
      o.n == ((s.core m).tl t).issued + 1) = none := by
    refine List.find?_eq_none.mpr fun o ho => ?_
    simpa only [Bool.and_eq_true, beq_iff_eq] using State.Numbered.new h t ho
  simp only [State.jobOp, issued_ops, List.find?_append, hold, Option.none_or]
  simp [State.newOp]

theorem setOp_issued {s : State} {m : CoreId} (h : s.Numbered m) (t : Timeline) (kind : OpKind) :
    (s.issued m t kind).setOp { s.newOp m t kind with queued := true } =
      { s.issued m t kind with ops := s.ops ++ [{ s.newOp m t kind with queued := true }] } := by
  have hold : ∀ x ∈ s.ops, (if x.same { s.newOp m t kind with queued := true } = true then
      { s.newOp m t kind with queued := true } else x) = x := by
    intro x hx
    refine if_neg ?_
    simpa only [EngOp.same, State.newOp, Bool.and_eq_true, beq_iff_eq] using h.new t hx
  simp only [State.setOp, issued_ops, List.map_append, List.map_congr_left hold, List.map_id', List.map_cons, List.map_nil]
  rw [if_pos (by simp [EngOp.same])]

/-- A copy-unit operation that finds room is outstanding, queued, and offered. -/
theorem issueCopy_offers {s : State} {m : CoreId} (hcalm : (s.core m).fences = [] ∧ (s.core m).sc = none) (hn : s.Numbered m)
    (hroom : (s.cluster (clusterOf m)).queued < 16) (yld : Bool) (d : SReg) (kind : OpKind) :
    s.issueCopy m yld d kind = .done (s.offered m kind d yld) := by
  unfold State.issueCopy State.offered
  rw [if_neg (Nat.not_le.mpr hroom), issueOp_unfenced hcalm]
  refine congrArg Res.done (tagged_congr ?_)
  simp only [core_issued, Core.setTl_inst, jobOp_issued hn, setOp_issued hn, issued_ops, List.dropLast_concat,
    List.getLast?_concat, Option.map_some, Option.toList_some]

theorem issueCopy_waits {s : State} {m : CoreId} (h : 16 ≤ (s.cluster (clusterOf m)).queued) (yld : Bool) (d : SReg)
    (kind : OpKind) : s.issueCopy m yld d kind = .wait := if_pos h

/-! ## The words (R161, R174, R176, R177) -/

theorem mcfg_takes (c : Ctl) (dr : BitVec 2) (b : SReg) (disp : BitVec 16) :
    InTurns (.mcfg c dr b disp) (TakesData (fun q => effAddr q b disp) 64 fun m _ v bytes t => mcfgFail bytes = none ∧
      t = v.modCore m fun q => { q with dr := q.dr.set dr.toNat bytes }) := by
  refine inTurns_of_done (fun _ => rfl) ?_
  intro m s t h
  refine loadData_takes (fun q => effAddr q b disp) h ?_
  rintro v bytes - ⟨hok, rfl⟩
  simp only [hok]

theorem mcfg_traps (c : Ctl) (dr : BitVec 2) (b : SReg) (disp : BitVec 16) :
    FirstTraps (.mcfg c dr b disp) .badDesc
      (BadData (fun q => effAddr q b disp) 64 fun _ _ bytes off sub => mcfgFail bytes = some (off, sub)) := by
  refine firstTraps_of_trap (fun _ => rfl) ?_
  intro m s x h
  refine loadData_bad (fun q => effAddr q b disp) h fun v bytes off sub hbad => ?_
  simp only [hbad]

/-- A handle that HBIND takes (R174). -/
def Core.Binds (q : Core) (h : HReg) : Prop := h.toNat < q.grants.handles ∧ (q.handle h).bindable = true

theorem hbind_state_traps (c : Ctl) (d : SReg) (h : HReg) (b : SReg) : FirstTraps (.hbind c d h b) .handleState fun m s x =>
    (s.core m).grants.handles ≤ h.toNat ∧ x = 0x10 ∨
      h.toNat < (s.core m).grants.handles ∧ ((s.core m).handle h).bindable = false ∧ x = BitVec.ofNat 64 ((s.core m).handle h).st.code := by
  refine firstTraps_of_trap (fun _ => rfl) ?_
  rintro m s x (⟨hout, rfl⟩ | ⟨hin, hbind, rfl⟩)
  · simp only [hout, if_true]
  · simp only [Nat.not_le.mpr hin, hbind, Bool.not_false, if_false, if_true]

theorem hbind_traps (c : Ctl) (d : SReg) (h : HReg) (b : SReg) : FirstTraps (.hbind c d h b) .badDesc fun m s x =>
    (s.core m).Binds h ∧ BadData (·.rs b) 64 (fun _ _ bytes off sub => stagesOf id bytes = .error off ∧ sub = 7) m s x := by
  refine firstTraps_of_trap (fun _ => rfl) ?_
  rintro m s x ⟨⟨hin, hbind⟩, hbad⟩
  simp only [Nat.not_le.mpr hin, hbind, Bool.not_true, Bool.false_eq_true, if_false]
  refine loadData_bad (·.rs b) hbad ?_
  rintro v bytes off sub ⟨hst, rfl⟩
  simp only [hst]

theorem hbind_takes (c : Ctl) (d : SReg) (h : HReg) (b : SReg) : InTurns (.hbind c d h b) fun m s t =>
    (s.core m).Binds h ∧ TakesData (·.rs b) 64 (fun m s v bytes t => (∃ sts, stagesOf id bytes = .ok sts) ∧
      let x := (s.core m).handle h
      let n := ((v.core m).tl .cp).issued + 1
      t = v.tagged m .cp (.stream h) d fun u => u.modCore m fun q => q.setHandle h
        { st := .stream, base := x.base, bytes := x.bytes, slots := x.slots, desc := bytes, opNum := n }) m s t := by
  refine inTurns_of_done (fun _ => rfl) ?_
  rintro m s t ⟨⟨hin, hbind⟩, htakes⟩
  simp only [Nat.not_le.mpr hin, hbind, Bool.not_true, Bool.false_eq_true, if_false]
  refine loadData_takes (·.rs b) htakes ?_
  rintro v bytes hcalm ⟨⟨sts, hst⟩, rfl⟩
  simp only [hst, issueOp_unfenced hcalm]

/-- What a word does whose descriptor, where `good`, is offered to the job queue: it is, or it waits while the queue is full. -/
theorem offers_data {i : Instr} {b d : SReg} {yld : Bool} {n : Nat} {good : Core → List Byte → Prop}
    {kind : List Byte → OpKind} {cont : CoreId → State → List Byte → Res}
    (hx : ∀ s, exec i s = runWord i s fun m s => s.loadData m ((s.core m).rs b) n n (cont m))
    (hgood : ∀ m v bytes, good (v.core m) bytes → cont m v bytes = v.issueCopy m yld d (kind bytes)) :
    InTurns i (TakesData (·.rs b) n fun m _ v bytes t => good (v.core m) bytes ∧ v.Numbered m ∧
        (v.cluster (clusterOf m)).queued < 16 ∧ t = v.offered m (kind bytes) d yld) ∧
      Waits i fun m s => ∃ v bytes, ReadsData m s ((s.core m).rs b) n v bytes none ∧ good (v.core m) bytes ∧
        16 ≤ (v.cluster (clusterOf m)).queued := by
  refine ⟨inTurns_of_done hx fun m s t h => loadData_takes (·.rs b) h ?_, waits_of_wait hx ?_⟩
  · rintro v bytes hcalm ⟨hok, hn, hroom, rfl⟩
    rw [hgood m v bytes hok, issueCopy_offers hcalm hn hroom]
  · rintro m s ⟨v, bytes, hread, hok, hfull⟩
    rw [loadData_reads hread, Option.elim_none, hgood m v bytes hok, issueCopy_waits hfull]

theorem cpyt_traps (c : Ctl) (d b : SReg) :
    FirstTraps (.cpyt c d b) .badDesc (BadData (·.rs b) 64 fun _ _ bytes off sub => sub = 7 ∧ (patBad (bytes.take 32) = some off ∨
      patBad (bytes.take 32) = none ∧ ∃ o, patBad (bytes.drop 32) = some o ∧ off = 32 + o)) := by
  refine firstTraps_of_trap (fun _ => rfl) ?_
  intro m s x h
  refine loadData_bad (·.rs b) h ?_
  rintro v bytes off sub ⟨rfl, hsrc | ⟨hsrc, o, hdst, rfl⟩⟩
  · simp only [hsrc]
  · simp only [hsrc, hdst]

theorem cthr_traps (c : Ctl) (d b : SReg) :
    FirstTraps (.cthr c d b) .badDesc (BadData (·.rs b) 32 fun _ _ bytes off sub => sub = 7 ∧ thBad bytes = some off) := by
  refine firstTraps_of_trap (fun _ => rfl) ?_
  intro m s x h
  refine loadData_bad (·.rs b) h ?_
  rintro v bytes off sub ⟨rfl, hbad⟩
  simp only [hbad]

/-- A pattern copy that CPYT issues (R176). -/
def GoodPattern (q : Core) (bytes : List Byte) : Prop :=
  patBad (bytes.take 32) = none ∧ patBad (bytes.drop 32) = none ∧ patTotal (bytes.take 32) = patTotal (bytes.drop 32) ∧
    q.undeclaredPat (bytes.drop 32) = false

/-- A ternarising copy that CTHR issues (R177). -/
def GoodThreshold (q : Core) (bytes : List Byte) : Prop :=
  thBad bytes = none ∧ (q.idem = true → ∀ g < thGroups bytes,
    q.declaredW (thT bytes + g * thStep bytes) (thBytes bytes) = true ∧ q.declaredW (thS bytes + g) 1 = true) ∧
  pastPart (thT bytes) ((thGroups bytes - 1) * thStep bytes + thBytes bytes) = false ∧
  pastPart (thS bytes) (thGroups bytes) = false

/-- Settles O40: a word continues from the read of its descriptor (`loadData_takes`, `loadData_bad`); CPYT's and CTHR's checks,
once passed, leave the offer (`offers_data`). -/
theorem descriptorsAreLoaded : Obligations.DescriptorsAreLoaded := by
  refine ⟨fun c dr b disp => ⟨mcfg_takes c dr b disp, mcfg_traps c dr b disp⟩,
    fun c d h b => ⟨hbind_state_traps c d h b, hbind_traps c d h b, hbind_takes c d h b⟩,
    fun c d b => ⟨cpyt_traps c d b, offers_data (good := GoodPattern) (kind := .pattern) (fun _ => rfl) ?cpyt⟩,
    fun c d b => ⟨cthr_traps c d b, offers_data (good := GoodThreshold) (kind := .ternarise) (fun _ => rfl) ?cthr⟩⟩
  case cpyt =>
    rintro m v bytes ⟨hsrc, hdst, htotal, hdecl⟩
    simp only [hsrc, hdst, htotal, hdecl, bne_self_eq_false, Bool.false_eq_true, if_false]
  case cthr =>
    rintro m v bytes ⟨hok, hdecl, hT, hS⟩
    have hout : ((v.core m).idem && !((List.range (thGroups bytes)).all fun g =>
        (v.core m).declaredW (thT bytes + g * thStep bytes) (thBytes bytes) && (v.core m).declaredW (thS bytes + g) 1)) = false := by
      cases hi : (v.core m).idem
      · rfl
      · simpa using hdecl hi
    simp only [hok, hout, hT, hS, Bool.false_eq_true, if_false]

end Sys2Proof.Machine

/-! What the memory system leaves of the clusters, the update regions and the model's numbers of operations: no read or write at
home, and no line that leaves a cache, changes them; a translation changes of them a cluster's second-level TLB alone. -/
namespace Sys2Proof.Machine

/-- Two states have the same clusters, update regions and next number of an operation. -/
structure State.SameEngines (s t : State) : Prop where
  clusters : t.clusters = s.clusters
  regions : t.regions = s.regions
  nextOp : t.nextOp = s.nextOp

namespace State.SameEngines

theorem refl {s : State} : s.SameEngines s := ⟨rfl, rfl, rfl⟩

theorem trans {s t u : State} (h : s.SameEngines t) (k : t.SameEngines u) : s.SameEngines u :=
  ⟨k.clusters.trans h.clusters, k.regions.trans h.regions, k.nextOp.trans h.nextOp⟩

theorem of {s t u : State} (k : t.SameEngines u) (h : s.SameEngines t) : s.SameEngines u := h.trans k

/-- Steps that each leave the engines leave them together. -/
theorem foldl {α : Type} {f : State → α → State} (hf : ∀ (s : State) a, s.SameEngines (f s a)) (l : List α) (s : State) :
    s.SameEngines (l.foldl f s) := by
  induction l generalizing s with
  | nil => exact refl
  | cons a l ih => exact (hf s a).trans (ih _)

theorem ite {p : Prop} [Decidable p] {s t u : State} (ht : s.SameEngines t) (hu : s.SameEngines u) :
    s.SameEngines (if p then t else u) := by
  split
  · exact ht
  · exact hu

end State.SameEngines

open State (SameEngines)

/-! ## Records and poison -/

theorem hbmRecord_engines (s : State) (base n : Nat) (r : DevRec) : s.SameEngines (s.hbmRecord base n r) :=
  .ite ⟨rfl, rfl, rfl⟩ .refl

theorem ringRecord_engines (s : State) (r : DevRec) : s.SameEngines (s.ringRecord r) := ⟨rfl, rfl, rfl⟩

theorem queueRecord_engines (s : State) (r : DevRec) : s.SameEngines (s.queueRecord r) :=
  (hbmRecord_engines { s with backlog := s.backlog ++ [r] } _ _ r).of ⟨rfl, rfl, rfl⟩

theorem emit_engines (s : State) (type : Nat) (fields : List (Nat × Nat × Nat)) : s.SameEngines (s.emit type fields) := by
  unfold State.emit
  dsimp only
  split
  · exact (ringRecord_engines _ _).of ((hbmRecord_engines _ _ _ _).of ⟨rfl, rfl, rfl⟩)
  · exact (queueRecord_engines _ _).of ((hbmRecord_engines _ _ _ _).of ⟨rfl, rfl, rfl⟩)

theorem setPoison_engines (s : State) (line : Nat) (bad : Bool) : s.SameEngines (s.setPoison line bad) :=
  .ite (.ite .refl ⟨rfl, rfl, rfl⟩) ⟨rfl, rfl, rfl⟩

theorem markPoison_engines (s : State) (line : Nat) (mark : Option Bool) : s.SameEngines (s.markPoison line mark) := by
  cases mark with
  | none => exact .refl
  | some bad => exact setPoison_engines s line bad

theorem clearPoison_engines (s : State) (line : Nat) (cells : Mem) : s.SameEngines (s.clearPoison line cells) :=
  .ite (setPoison_engines _ _ _) .refl

theorem keepPast_engines (s : State) (h line : Nat) : s.SameEngines (s.keepPast h line) := .ite .refl ⟨rfl, rfl, rfl⟩

/-! ## The capacity tier and the slices -/

theorem tierAccept_engines {s t : State} {line : Nat} {bytes : List Byte} (h : s.tierAccept line bytes = some t) :
    s.SameEngines t := by
  unfold State.tierAccept at h
  dsimp only at h
  split at h
  · exact Option.some.inj h ▸ ⟨rfl, rfl, rfl⟩
  · split at h
    · exact Option.some.inj h ▸ ⟨rfl, rfl, rfl⟩
    · split at h
      · cases h
      · exact Option.some.inj h ▸ .ite ((emit_engines _ _ _).of ⟨rfl, rfl, rfl⟩) ⟨rfl, rfl, rfl⟩

theorem installLine_engines {s t : State} {h line : Nat} {drt : Bool} {bytes : List Byte}
    (hx : s.installLine h line drt bytes = some t) : s.SameEngines t := by
  unfold State.installLine at hx
  dsimp only at hx
  split at hx
  · cases hx
  · obtain ⟨x, -, rfl⟩ := Option.map_eq_some_iff.mp hx
    exact .ite ⟨rfl, rfl, rfl⟩ ⟨rfl, rfl, rfl⟩

theorem sliceWrite_engines {s t : State} {h line : Nat} {drt : Bool} {via : Via} {whole : Bool} {up : List Byte → List Byte}
    (hx : s.sliceWrite h line drt via whole up = some t) : s.SameEngines t := by
  unfold State.sliceWrite at hx
  split at hx
  · obtain ⟨x, -, rfl⟩ := Option.map_eq_some_iff.mp hx
    exact ⟨rfl, rfl, rfl⟩
  · split at hx
    · exact installLine_engines hx
    · exact Option.some.inj hx ▸ .refl

/-! ## Writes at home -/

theorem homeWriteNow_engines {s t : State} {core : Option CoreId} {h : Nat} {cells : Mem} {via : Via}
    (hx : s.homeWriteNow core h cells via = some t) : s.SameEngines t := by
  unfold State.homeWriteNow at hx
  split at hx
  next => exact Option.some.inj hx ▸ .refl
  next pk b r =>
    dsimp only at hx
    have hpast := fun (s : State) => keepPast_engines s h (pk / 128)
    have hclear := fun (s : State) => (clearPoison_engines _ (pk / 128) ((pk, b) :: r)).of (hpast s)
    split at hx
    · cases hx
    split at hx
    · exact (sliceWrite_engines hx).of ((hpast s).trans ⟨rfl, rfl, rfl⟩)
    split at hx
    case h_1 => exact Option.some.inj hx ▸ (hpast s).trans ⟨rfl, rfl, rfl⟩
    case h_2 | h_3 =>
      split at hx
      · exact Option.some.inj hx ▸ (hclear s).trans ⟨rfl, rfl, rfl⟩
      · split at hx
        · cases hx
        · next ht => exact (sliceWrite_engines hx).of ((tierAccept_engines ht).of ((hpast _).of (setPoison_engines _ _ _)))
    case h_4 | h_5 | h_6 =>
      split at hx
      · exact Option.some.inj hx ▸ (hclear s).trans ⟨rfl, rfl, rfl⟩
      · exact (sliceWrite_engines hx).of (hclear s)

theorem homeWrite_engines (s : State) (core : Option CoreId) (h : Nat) (cells : Mem) (via : Via) (job : Option JobRef)
    (mark : Option Bool) : s.SameEngines (s.homeWrite core h cells via job mark) := by
  unfold State.homeWrite
  split
  · exact .refl
  · dsimp only
    split
    · exact ⟨rfl, rfl, rfl⟩
    · split
      · next hx => exact (markPoison_engines _ _ _).of (homeWriteNow_engines hx)
      · exact .ite ((emit_engines _ _ _).of ⟨rfl, rfl, rfl⟩) ⟨rfl, rfl, rfl⟩

theorem paWrite_engines (s : State) (pa : Nat) (bytes : List Byte) : s.SameEngines (s.paWrite pa bytes) := by
  refine .foldl (fun s c => ?_) _ s
  cases c with
  | nil => exact .refl
  | cons x c => exact homeWrite_engines _ _ _ _ _ _ _

/-! ## Lines that leave the caches -/

theorem l1WriteBack_engines (s : State) (t line : Nat) : s.SameEngines (s.l1WriteBack t line) := by
  unfold State.l1WriteBack
  dsimp only
  split
  · exact .refl
  · exact .ite .refl ((homeWrite_engines _ _ _ _ _ _ _).of ⟨rfl, rfl, rfl⟩)

theorem l1Expel_engines (s : State) (t line : Nat) : s.SameEngines (s.l1Expel t line) :=
  (l1WriteBack_engines s t line).trans ⟨rfl, rfl, rfl⟩

theorem l1SweepAll_engines (s : State) (inval : Bool) (p : Nat → L1Line → Bool) : s.SameEngines (s.l1SweepAll inval p) :=
  .foldl (fun s _ => .foldl (fun s _ => .ite (.ite (l1Expel_engines s _ _) (l1WriteBack_engines s _ _)) .refl) _ s) _ s

theorem l2Evict_engines (s : State) (h line : Nat) : s.SameEngines (s.l2Evict h line) := by
  have hback : s.SameEngines (s.l2WriteBack h line) := by
    unfold State.l2WriteBack
    split
    · exact .refl
    · exact .ite ⟨rfl, rfl, rfl⟩ .refl
  have hhash : (s.l2WriteBack h line).SameEngines ((s.l2WriteBack h line).rehash h line) := by
    unfold State.rehash
    split
    · exact .refl
    · exact ⟨rfl, rfl, rfl⟩
  exact (hback.trans hhash).trans ⟨rfl, rfl, rfl⟩

theorem l2EvictAll_engines (s : State) (p : Nat → L2Tag → Bool) : s.SameEngines (s.l2EvictAll p) :=
  .foldl (fun s _ => .foldl (fun s _ => .ite (l2Evict_engines s _ _) .refl) _ s) _ s

/-! ## Translation -/

theorem modEntry_engines (s : State) (pte : Nat) (f : Nat → Nat) : s.SameEngines (s.modEntry pte f) := by
  unfold State.modEntry
  exact .ite (paWrite_engines _ _ _) .refl

theorem assignPage_engines (s : State) (c : CoreId) (x : Xlat) : s.SameEngines (s.assignPage c x) :=
  .ite (.foldl (fun s _ => modEntry_engines s _ _) _ s) .refl

theorem touchLeaf_engines (s : State) (c : CoreId) (write : Bool) (x : Xlat) : s.SameEngines (s.touchLeaf c write x).1 := by
  unfold State.touchLeaf
  dsimp only
  split
  · exact .refl
  · dsimp only
    exact (modEntry_engines _ _ _).of (assignPage_engines s c x)

theorem fillWalks_engines (s : State) (d ctx va : Nat) : s.SameEngines (s.fillWalks d ctx va) := by
  unfold State.fillWalks
  split <;> exact ⟨rfl, rfl, rfl⟩

theorem xlat_found_engines {s : State} {c : CoreId} {ctx va : Nat} (write : Bool) {x : Xlat} (h : s.look c ctx va = .ok x) :
    ∃ u y, s.SameEngines u ∧ s.xlat c ctx va write = ((u.fillTlbs c ctx y).noteFrame ctx va y, .ok y) := by
  unfold State.xlat
  rw [h]
  exact ⟨_, _, (touchLeaf_engines _ c write x).of (.ite .refl (fillWalks_engines s _ ctx va)), rfl⟩

theorem xlat_regions (s : State) (c : CoreId) (ctx va : Nat) (write : Bool) :
    (s.xlat c ctx va write).1.regions = s.regions ∧ (s.xlat c ctx va write).1.nextOp = s.nextOp := by
  cases h : s.look c ctx va with
  | error e =>
    unfold State.xlat
    rw [h]
    exact ⟨rfl, rfl⟩
  | ok x =>
    obtain ⟨u, y, hu, hx⟩ := xlat_found_engines write h
    have hrest : ∀ (u : State) (y : Xlat), ((u.fillTlbs c ctx y).noteFrame ctx va y).regions = u.regions ∧
      ((u.fillTlbs c ctx y).noteFrame ctx va y).nextOp = u.nextOp := fun _ _ => ⟨rfl, rfl⟩
    rw [hx, (hrest u y).1, (hrest u y).2]
    exact ⟨hu.regions, hu.nextOp⟩

/-! ## The handles of an operation's work -/

theorem modOpHandle_engines (s : State) (c : CoreId) (inst : Nat) (h : HReg) (f : Handle → Handle) :
    s.SameEngines (s.modOpHandle c inst h f) := by
  unfold State.modOpHandle
  refine .ite ⟨rfl, rfl, rfl⟩ ?_
  split
  · exact (paWrite_engines _ _ _).of ⟨rfl, rfl, rfl⟩
  · exact ⟨rfl, rfl, rfl⟩

end Sys2Proof.Machine

/-! Proof of O49: events of the job queue, the matrix engine, streams and engine operations (R156, R163, R166, R174, R329, R330,
R339, R340). -/
namespace Sys2Proof.Machine

/-! ## The job queue (R330) -/

/-- How far an offer's core comes behind the one accepted last. -/
def Cluster.turn (x : Cluster) (j : JobRef) : Nat := (inCluster j.core + 7 - x.rr) % 8

theorem Cluster.turn_lt (x : Cluster) (j : JobRef) : x.turn j < 8 := Nat.mod_lt _ (by decide)

theorem findSome?_range_first {α : Type} {f : Nat → Option α} {t : Nat} {b : α} (ht : f t = some b)
    (hlow : ∀ k < t, f k = none) : ∀ {n : Nat}, t < n → (List.range n).findSome? f = some b := by
  intro n
  induction n with
  | zero => intro h; cases h
  | succ n ih =>
    intro h
    rw [List.range_succ, List.findSome?_append]
    rcases Nat.lt_or_eq_of_le (Nat.le_of_lt_succ h) with hlt | rfl
    · rw [ih hlt, Option.some_or]
    · have hnone : (List.range t).findSome? f = none := List.findSome?_eq_none_iff.mpr fun k hk => hlow k (List.mem_range.mp hk)
      simp [hnone, ht]

/-- Of the offers that pass a test, the first of the least turn is next. -/
theorem nextOffer_first {x : Cluster} {pick : JobRef → Bool} {a b : List JobRef} {j : JobRef} (h : x.offers = a ++ j :: b)
    (hj : pick j = true) (ha : ∀ k ∈ a, pick k = true → x.turn j < x.turn k) (hb : ∀ k ∈ b, pick k = true → x.turn j ≤ x.turn k) :
    x.nextOffer pick = some j := by
  have hleast : ∀ k ∈ x.offers, pick k = true → x.turn j ≤ x.turn k := by
    rw [h]
    intro k hk hp
    rcases List.mem_append.mp hk with hk | hk
    · exact (ha k hk hp).le
    · rcases List.mem_cons.mp hk with rfl | hk
      · exact le_rfl
      · exact hb k hk hp
  unfold Cluster.nextOffer rangeFrom
  rw [List.findSome?_map]
  refine findSome?_range_first (t := x.turn j) ?_ ?_ (x.turn_lt j)
  · refine List.find?_eq_some_iff_append.mpr ⟨by simp [hj, Cluster.turn], a, b, h, fun k hk => ?_⟩
    have := ha k hk
    simp only [Nat.zero_add, Bool.not_eq_true', Bool.and_eq_false_imp, beq_eq_false_iff_ne]
    exact fun hp => (this hp).ne'
  · intro t ht
    refine List.find?_eq_none.mpr fun k hk => ?_
    simp only [Nat.zero_add, Bool.and_eq_true, beq_iff_eq, not_and]
    intro hp he
    have := hleast k hk hp
    unfold Cluster.turn at ht this
    omega

theorem nextOffer_none {x : Cluster} {pick : JobRef → Bool} (h : ∀ k ∈ x.offers, pick k = false) : x.nextOffer pick = none := by
  unfold Cluster.nextOffer
  refine List.findSome?_eq_none_iff.mpr fun t _ => List.find?_eq_none.mpr fun k hk => ?_
  simp [h k hk]

theorem jobQueueAccept_none {s : State} {cl : Nat} (h : (s.cluster cl).offers = []) : exec (.jobQueueAccept cl) s = .next s := by
  have hnone : ∀ pick, (s.cluster cl).nextOffer pick = none := fun pick => nextOffer_none (by simp [h])
  show execJobQueueAccept cl s = .next s
  simp only [execJobQueueAccept, hnone, Option.none_or]

/-- The entry accepted: the first of the least turn among those that do not yield, or among all where every one yields. -/
theorem jobQueueAccept_first {s : State} {cl : Nat} {a b : List JobRef} {j : JobRef} (h : (s.cluster cl).offers = a ++ j :: b)
    (hlate : (s.cluster cl).late.contains j = true → ∀ k ∈ (s.cluster cl).offers, (s.cluster cl).late.contains k = true)
    (ha : ∀ k ∈ a, ((s.cluster cl).late.contains j || !(s.cluster cl).late.contains k) = true →
      (s.cluster cl).turn j < (s.cluster cl).turn k)
    (hb : ∀ k ∈ b, ((s.cluster cl).late.contains j || !(s.cluster cl).late.contains k) = true →
      (s.cluster cl).turn j ≤ (s.cluster cl).turn k) :
    exec (.jobQueueAccept cl) s = .next ((s.setCluster cl { s.cluster cl with
      offers := (s.cluster cl).offers.filter (· != j), late := (s.cluster cl).late.filter (· != j)
      jobs := (s.cluster cl).jobs ++ [j], rr := inCluster j.core }).receipt j.core 2) := by
  have hpick : (((s.cluster cl).nextOffer (!(s.cluster cl).late.contains ·)).or ((s.cluster cl).nextOffer fun _ => true)) = some j := by
    cases hj : (s.cluster cl).late.contains j with
    | false =>
      simp only [hj, Bool.false_or] at ha hb
      rw [nextOffer_first (pick := (!(s.cluster cl).late.contains ·)) h (by simp only [hj, Bool.not_false]) ha hb, Option.some_or]
    | true =>
      rw [hj] at ha hb
      rw [nextOffer_none fun k hk => by simp only [hlate hj k hk, Bool.not_true], Option.none_or]
      exact nextOffer_first h rfl (fun k hk _ => ha k hk rfl) fun k hk _ => hb k hk rfl
  show execJobQueueAccept cl s = _
  simp only [execJobQueueAccept, hpick]

theorem jobQueueDepart_none {s : State} {cl : Nat} {mx : Bool} (h : ∀ j ∈ (s.cluster cl).jobs, (j.tl == .mx) ≠ mx) :
    exec (.jobQueueDepart cl mx) s = .next s := by
  have hnone : (s.cluster cl).jobs.find? (fun j => (j.tl == .mx) == mx) = none :=
    List.find?_eq_none.mpr fun j hj => by simpa using h j hj
  show execJobQueueDepart cl mx s = .next s
  simp only [execJobQueueDepart, hnone]

theorem find?_first_alike {α : Type} {f : α → Bool} {l a b : List α} {j : α} (h : l = a ++ j :: b) (ha : ∀ k ∈ a, f k ≠ f j) :
    l.find? (fun k => f k == f j) = some j :=
  List.find?_eq_some_iff_append.mpr ⟨by simp, a, b, h, fun k hk => by simpa using ha k hk⟩

/-- The oldest entry of its engine leaves: a copy-unit operation departs, and an MJOB enters the engine order. -/
theorem jobQueueDepart_first {s : State} {cl : Nat} {a b : List JobRef} {j : JobRef} (h : (s.cluster cl).jobs = a ++ j :: b)
    (ha : ∀ k ∈ a, (k.tl == .mx) ≠ (j.tl == .mx)) :
    let x := s.cluster cl
    let u := (s.setCluster cl { x with jobs := x.jobs.filter (· != j) }).receipt j.core 2
    (j.tl ≠ .mx → (u.jobOp j = none → exec (.jobQueueDepart cl false) s = .next u) ∧
      ∀ o, u.jobOp j = some o → exec (.jobQueueDepart cl false) s = .next (u.setOp { o with queued := false })) ∧
    (j.tl = .mx → ∀ op, x.pending.find? (fun op => op.parts == [j]) = some op → exec (.jobQueueDepart cl true) s =
      .next ((u.modCluster cl fun x => { x with pending := x.pending.filter (·.id != op.id) }).arriveMx cl op)) := by
  have hfind := find?_first_alike (f := fun k : JobRef => k.tl == .mx) h ha
  refine ⟨fun htl => ?copy, fun htl op hop => ?mjob⟩
  case copy =>
    rw [beq_eq_false_iff_ne.mpr htl] at hfind
    constructor
    · intro hnone
      show execJobQueueDepart cl false s = _
      simp only [execJobQueueDepart, hfind, Bool.false_eq_true, if_false, hnone]
    · intro o ho
      show execJobQueueDepart cl false s = _
      simp only [execJobQueueDepart, hfind, Bool.false_eq_true, if_false, ho]
  case mjob =>
    rw [beq_iff_eq.mpr htl] at hfind
    show execJobQueueDepart cl true s = _
    simp only [execJobQueueDepart, hfind, if_true, hop]

/-! ## Starting (R329, R335, R340) -/

theorem matrixOperationStart_none {s : State} {cl : Nat} (h : ∀ op ∈ (s.cluster cl).order, op.started = true) :
    exec (.matrixOperationStart cl) s = .next s := by
  have hnone : (s.cluster cl).order.find? (!·.started) = none := List.find?_eq_none.mpr fun op ho => by simp [h op ho]
  show execMatrixOperationStart cl s = .next s
  simp only [execMatrixOperationStart, nextStart, hnone]

/-- No started operation of the order holds a slice or the tile that `op` is to hold. -/
def clearFor (order : List MxOp) (op : MxOp) : Prop :=
  ∀ y ∈ order, y.started = true →
    (∀ j ∈ y.holdsSlices, j ∉ op.holdsSlices) ∧ ∀ t, y.holdsTile = some t → op.holdsTile ≠ some t

theorem holds_iff (y op : MxOp) :
    (y.holdsSlices.any op.holdsSlices.contains || (y.holdsTile.isSome && y.holdsTile == op.holdsTile)) = false ↔
      (∀ j ∈ y.holdsSlices, j ∉ op.holdsSlices) ∧ ∀ t, y.holdsTile = some t → op.holdsTile ≠ some t := by
  have htile : (y.holdsTile.isSome && y.holdsTile == op.holdsTile) = false ↔ ∀ t, y.holdsTile = some t → op.holdsTile ≠ some t := by
    cases y.holdsTile with
    | none => simp
    | some t =>
      simp only [Option.isSome_some, Bool.true_and, beq_eq_false_iff_ne, Option.some.injEq, forall_eq']
      exact ne_comm
  rw [Bool.or_eq_false_iff, htile]
  simp

theorem nextStart_eq {order a b : List MxOp} {op : MxOp} (h : order = a ++ op :: b) (ha : ∀ y ∈ a, y.started = true)
    (hop : op.started = false) :
    (clearFor order op → nextStart order = some op) ∧ (¬ clearFor order op → nextStart order = none) := by
  have hfind : order.find? (!·.started) = some op :=
    List.find?_eq_some_iff_append.mpr ⟨by simp [hop], a, b, h, fun y hy => by simp [ha y hy]⟩
  have hbusy : (order.any fun x => x.started && ((x.holdsSlices.any op.holdsSlices.contains) ||
      (x.holdsTile.isSome && x.holdsTile == op.holdsTile))) = false ↔ clearFor order op := by
    rw [List.any_eq_false]
    refine forall₂_congr fun y _ => ?_
    rw [Bool.not_eq_true, Bool.and_eq_false_imp, holds_iff]
  unfold nextStart
  rw [hfind]
  constructor
  · intro hc
    simp only [hbusy.mpr hc, Bool.false_eq_true, if_false]
  · intro hc
    simp only [Bool.eq_true_of_not_eq_false (mt hbusy.mp hc), if_true]

theorem matrixOperationStart_waits {s : State} {cl : Nat} {a b : List MxOp} {op : MxOp} (h : (s.cluster cl).order = a ++ op :: b)
    (ha : ∀ y ∈ a, y.started = true) (hop : op.started = false) (hheld : ¬ clearFor (s.cluster cl).order op) :
    exec (.matrixOperationStart cl) s = .next s := by
  show execMatrixOperationStart cl s = .next s
  simp only [execMatrixOperationStart, (nextStart_eq h ha hop).2 hheld]

/-- An operation starts: a matrix operation with its tile as it stands and with the first failure of its steps. -/
theorem matrixOperationStart_starts {s : State} {cl : Nat} {a b : List MxOp} {op : MxOp} (h : (s.cluster cl).order = a ++ op :: b)
    (ha : ∀ y ∈ a, y.started = true) (hop : op.started = false) (hclear : clearFor (s.cluster cl).order op) :
    ((∀ gang d, op.kind ≠ .matrix gang d) → exec (.matrixOperationStart cl) s =
      .next (s.setCluster cl ((s.cluster cl).setMx { op with started := true }))) ∧
    ∀ gang d, op.kind = .matrix gang d → exec (.matrixOperationStart cl) s = .next (s.setCluster cl ((s.cluster cl).setMx
      { op with started := true, base := some ((s.cluster cl).acc.get (mdAcc d) {})
                fail := s.scan cl op d (List.range (mdSteps d)) })) := by
  have hnext := (nextStart_eq h ha hop).1 hclear
  refine ⟨fun hk => ?_, fun gang d hk => ?_⟩
  · show execMatrixOperationStart cl s = _
    simp only [execMatrixOperationStart, hnext]
  · show execMatrixOperationStart cl s = _
    simp only [execMatrixOperationStart, hnext, hk]

/-! ## Adding V into a tile (R163, R340) -/

/-- Adds one value into an element, and counts an overflow. -/
def addElem (st : SMap (BitVec 48) × Nat) (x : Nat × BitVec 48) : SMap (BitVec 48) × Nat :=
  let y := acxAdd (st.1.get x.1 0) (acxDecode x.2)
  (st.1.set x.1 y.1, if y.2 then st.2 + 1 else st.2)

/-- The values of a tile's rows, each with its element. -/
def tileCells (vs : List (List (BitVec 48))) : List (Nat × BitVec 48) :=
  vs.zipIdx.flatMap fun row => row.1.zipIdx.map fun v => (128 * row.2 + v.2, v.1)

theorem addV_eq (e : SMap (BitVec 48)) (vs : List (List (BitVec 48))) : addV e vs = (tileCells vs).foldl addElem (e, 0) := by
  simp only [addV, tileCells, List.foldl_flatMap, List.foldl_map]
  rfl

theorem get_foldl_addElem_other {k : Nat} {l : List (Nat × BitVec 48)} (h : ∀ x ∈ l, x.1 ≠ k) (st : SMap (BitVec 48) × Nat) :
    (l.foldl addElem st).1.get k 0 = st.1.get k 0 := by
  induction l generalizing st with
  | nil => rfl
  | cons x l ih =>
    rw [List.foldl_cons, ih fun y hy => h y (List.mem_cons_of_mem _ hy)]
    exact SMap.get_set_other _ (h x List.mem_cons_self).symm _ _

/-- Where no element is named twice, each takes its value once. -/
theorem get_foldl_addElem {k : Nat} {v : BitVec 48} {l : List (Nat × BitVec 48)} (hl : l.Pairwise fun x y => x.1 ≠ y.1)
    (h : (k, v) ∈ l) (st : SMap (BitVec 48) × Nat) :
    (l.foldl addElem st).1.get k 0 = (acxAdd (st.1.get k 0) (acxDecode v)).1 := by
  induction l generalizing st with
  | nil => cases h
  | cons x l ih =>
    obtain ⟨hx, hl⟩ := List.pairwise_cons.mp hl
    rw [List.foldl_cons]
    rcases List.mem_cons.mp h with rfl | h
    · rw [get_foldl_addElem_other fun y hy => (hx y hy).symm]
      exact SMap.get_set_same _ _ _ _
    · rw [ih hl h, show (addElem st x).1.get k 0 = st.1.get k 0 from SMap.get_set_other _ (hx _ h).symm _ _]

theorem zipIdx_pairwise {α : Type} (l : List α) : l.zipIdx.Pairwise fun x y => x.2 < y.2 := by
  have h : (l.zipIdx.map (·.2)).Pairwise (· < ·) := by
    rw [List.zipIdx_map_snd]
    exact List.pairwise_lt_range'
  exact List.pairwise_map.mp h

/-- Rows of at most 128 values name no element of a tile twice. -/
theorem tileCells_pairwise {vs : List (List (BitVec 48))} (h : ∀ row ∈ vs, row.length ≤ 128) :
    (tileCells vs).Pairwise fun x y => x.1 ≠ y.1 := by
  refine List.pairwise_flatMap.mpr ⟨fun row _ => List.pairwise_map.mpr ((zipIdx_pairwise row.1).imp fun hlt => ?_), ?_⟩
  · dsimp only
    omega
  · refine (zipIdx_pairwise vs).imp_of_mem ?_
    intro x y hx _ hlt p hp q hq
    obtain ⟨⟨v, c⟩, hv, rfl⟩ := List.mem_map.mp hp
    obtain ⟨w, -, rfl⟩ := List.mem_map.mp hq
    have hc : c < x.1.length := (List.mem_zipIdx' hv).1
    have := h x.1 (List.fst_mem_of_mem_zipIdx hx)
    dsimp only
    omega

theorem mem_tileCells {vs : List (List (BitVec 48))} {r c : Nat} (hr : r < vs.length) (hc : c < (vs.getD r []).length) :
    (128 * r + c, (vs.getD r []).getD c 0) ∈ tileCells vs := by
  have hget : ∀ {α : Type} {l : List α} {i : Nat} (d : α), i < l.length → (l.getD i d, i) ∈ l.zipIdx := fun d hi =>
    List.mem_zipIdx_iff_getElem?.mpr (by simp [hi])
  exact List.mem_flatMap.mpr ⟨(vs.getD r [], r), hget _ hr, List.mem_map.mpr ⟨((vs.getD r []).getD c 0, c), hget _ hc, rfl⟩⟩

/-- Each element of a tile takes its value, added with one rounding. -/
theorem addV_get {vs : List (List (BitVec 48))} (h : ∀ row ∈ vs, row.length ≤ 128) (e : SMap (BitVec 48)) {r c : Nat}
    (hr : r < vs.length) (hc : c < (vs.getD r []).length) :
    (addV e vs).1.get (128 * r + c) 0 = (acxAdd (e.get (128 * r + c) 0) (acxDecode ((vs.getD r []).getD c 0))).1 := by
  rw [addV_eq]
  exact get_foldl_addElem (tileCells_pairwise h) (mem_tileCells hr hc) _

/-- V has a row for each row of the operation and a value for each column. -/
theorem sliceV_rows (s : State) (cl j : Nat) (d slot metas : List Byte) (step : Nat) :
    (s.sliceV cl j d slot metas step).1.length = mdM d ∧ ∀ row ∈ (s.sliceV cl j d slot metas step).1, row.length = mdN d := by
  constructor
  · simp [State.sliceV]
  · intro row hrow
    simp only [State.sliceV, List.mem_map] at hrow
    obtain ⟨_, ⟨_, _, rfl⟩, rfl⟩ := hrow
    simp

/-! ## A step (R163, R340) -/

theorem countSlice_engines (s : State) (cl j bad : Nat) (d : List Byte) (step : Nat) :
    s.SameEngines (s.countSlice cl j bad d step) := .ite ⟨rfl, rfl, rfl⟩ ⟨rfl, rfl, rfl⟩

/-- A step of one slice of an operation that is in no chain: V goes into its tile and the operation has run a step more; of the
cluster nothing else changes. -/
theorem mxStep_one {s p : State} {cl j : Nat} {o : MxOp} {d slot : List Byte} (hp : s.ownParts o.parts = some p)
    (hslots : p.stepSlots o d = .ok [(j, slot)]) (hue : ∀ k ∈ o.slices, p.stepUe cl k d o.steps = none)
    (hscan : p.scan cl o d [o.steps] = none) (hchain : chained d = false) :
    let tile := (p.cluster cl).acc.get (mdAcc d) {}
    ∃ v ovf steps, p.SameEngines v ∧ s.mxStep cl o d = v.modCluster cl fun x =>
      { x.setMx { o with steps := o.steps + 1, partialTile := [] } with
          acc := x.acc.set (mdAcc d) { tile with
            e := (addV tile.e (p.sliceV cl j d slot (o.metas.get j []) o.steps).1).1, ovf := ovf, steps := steps } } := by
  have hue : (o.slices.findSome? fun k => p.stepUe cl k d o.steps) = none := List.findSome?_eq_none_iff.mpr hue
  have hlast : lastOfChain cl d = false := by simp [lastOfChain, hchain]
  unfold State.mxStep
  simp only [hp, hslots, hue, hscan, hlast, MxOp.elements, hchain, Bool.false_and, Bool.false_eq_true, if_false, List.foldl_cons,
    List.foldl_nil]
  exact ⟨_, _, _, .of (.foldl (fun s x => modOpHandle_engines s _ _ _ _) _ _) (countSlice_engines _ _ _ _ _ _), rfl⟩

/-- The operation that takes another's place in the order is found by its number. -/
theorem setMx_find {x : Cluster} {n : Nat} {o y : MxOp} (h : x.order.find? (·.id == n) = some o) (hy : y.id = o.id) :
    (x.setMx y).order.find? (·.id == n) = some y := by
  have hid : o.id = n := beq_iff_eq.mp (List.find?_some (p := fun z : MxOp => z.id == n) h)
  have hmap : (x.setMx y).order = x.order.map fun z => if (z.id == n) = true then y else z := by
    simp only [Cluster.setMx, hy, hid, beq_iff_eq]
  rw [hmap]
  exact find?_map_replace h (by simp [hy, hid])

theorem matrixStepCommit_eq {s : State} {cl n : Nat} {gang : Bool} {d : List Byte} {o : MxOp}
    (hfind : (s.cluster cl).order.find? (·.id == n) = some o) (hkind : o.kind = .matrix gang d) :
    exec (.matrixStepCommit cl n) s = if o.started && o.running then .next (s.mxStep cl o d) else .next s := by
  show execMatrixStepCommit cl n s = _
  simp only [execMatrixStepCommit, hfind, hkind]

theorem mxStep_behind_stores {s : State} {cl : Nat} {o : MxOp} {d : List Byte} (h : s.ownParts o.parts = none) :
    s.mxStep cl o d = s := by
  simp only [State.mxStep, h]

theorem mxStep_without_slots {s p : State} {cl : Nat} {o : MxOp} {d : List Byte} (hp : s.ownParts o.parts = some p)
    (h : p.stepSlots o d = .error none) : s.mxStep cl o d = p := by
  simp only [State.mxStep, hp, h]

/-- A step of one slice: the operation has run a step more, and each element has its V added with one rounding. -/
theorem mxStep_adds {s p : State} {cl n j : Nat} {o : MxOp} {d slot : List Byte} (hp : s.ownParts o.parts = some p)
    (hslots : p.stepSlots o d = .ok [(j, slot)]) (hue : ∀ k ∈ o.slices, p.stepUe cl k d o.steps = none)
    (hscan : p.scan cl o d [o.steps] = none) (hchain : chained d = false) (hn : mdN d ≤ 128)
    (hfind : (p.cluster cl).order.find? (·.id == n) = some o) :
    ∃ y, ((s.mxStep cl o d).cluster cl).order.find? (·.id == n) = some y ∧ y.steps = o.steps + 1 ∧ ∀ r < mdM d, ∀ c < mdN d,
      (((s.mxStep cl o d).cluster cl).acc.get (mdAcc d) {}).e.get (128 * r + c) 0 =
        (acxAdd (((p.cluster cl).acc.get (mdAcc d) {}).e.get (128 * r + c) 0)
          (acxDecode (((p.sliceV cl j d slot (o.metas.get j []) o.steps).1.getD r []).getD c 0))).1 := by
  obtain ⟨v, ovf, steps, hv, hstep⟩ := mxStep_one hp hslots hue hscan hchain
  have hcl : v.cluster cl = p.cluster cl := by
    unfold State.cluster
    rw [hv.clusters]
  rw [hstep, State.cluster_modCluster_same, hcl]
  refine ⟨_, setMx_find hfind rfl, rfl, fun r hr c hc => ?_⟩
  obtain ⟨hrows, hcols⟩ := sliceV_rows p cl j d slot (o.metas.get j []) o.steps
  rw [← hrows] at hr
  rw [SMap.get_set_same]
  refine addV_get (fun row hrow => (hcols row hrow).trans_le hn) _ hr ?_
  rw [List.getD_eq_getElem _ _ hr, hcols _ (List.getElem_mem hr)]
  exact hc

/-! ## The end of a chain (R166, R343) -/

theorem chainAdd_waits {s : State} {cl n : Nat} {gang : Bool} {d : List Byte} {o : MxOp}
    (hfind : (s.cluster cl).order.find? (·.id == n) = some o) (hkind : o.kind = .matrix gang d)
    (h : lastOfChain cl d = false ∨ s.chainReady d = none) : exec (.chainAdd cl n) s = .next s := by
  have hnone : (if lastOfChain cl d = true then s.chainReady d else none) = none := by
    rcases h with h | h <;> simp [h]
  show execChainAdd cl n s = .next s
  simp only [execChainAdd, hfind, hkind, hnone]

/-- Operations that take their places in the orders of their clusters, one after the other. -/
def State.setChain (s : State) (l : List (Nat × MxOp)) (g : MxOp → MxOp) : State :=
  l.foldl (fun s x => s.modCluster x.1 fun y => y.setMx (g x.2)) s

theorem setChain_cons (s : State) (x : Nat × MxOp) (l : List (Nat × MxOp)) (g : MxOp → MxOp) :
    s.setChain (x :: l) g = (s.modCluster x.1 fun y => y.setMx (g x.2)).setChain l g := rfl

theorem setChain_frame (l : List (Nat × MxOp)) (g : MxOp → MxOp) (s : State) :
    s.setChain l g = { s with clusters := (s.setChain l g).clusters } := by
  induction l generalizing s with
  | nil => rfl
  | cons x l ih =>
    rw [setChain_cons, ih]
    rfl

/-- The order of a cluster holds an operation of a number that is as `good` says. -/
def State.Orders (s : State) (k i : Nat) (good : MxOp → Prop) : Prop := ∃ z ∈ (s.cluster k).order, z.id = i ∧ good z

/-- An operation put in its place leaves every number of the orders, and what holds of all of them if it holds of it. -/
theorem orders_setMx {s : State} {k i : Nat} {good : MxOp → Prop} (h : s.Orders k i good) (k' : Nat) {y : MxOp} (hy : good y) :
    (s.modCluster k' fun x => x.setMx y).Orders k i good := by
  obtain ⟨z, hz, rfl, hg⟩ := h
  by_cases hk : k = k'
  · subst hk
    have hmem : (if z.id = y.id then y else z) ∈ ((s.modCluster k fun x => x.setMx y).cluster k).order := by
      rw [State.cluster_modCluster_same]
      exact List.mem_map.mpr ⟨z, hz, rfl⟩
    refine ⟨_, hmem, ?_⟩
    split
    · next he => exact ⟨he.symm, hy⟩
    · exact ⟨rfl, hg⟩
  · exact ⟨z, by rwa [State.modCluster, State.cluster_setCluster_other s hk], rfl, hg⟩

theorem orders_setChain {k i : Nat} {good : MxOp → Prop} {l : List (Nat × MxOp)} {g : MxOp → MxOp} (hl : ∀ x ∈ l, good (g x.2))
    {s : State} (h : s.Orders k i good) : (s.setChain l g).Orders k i good := by
  induction l generalizing s with
  | nil => exact h
  | cons x l ih =>
    exact ih (fun y hy => hl y (List.mem_cons_of_mem _ hy)) (orders_setMx h x.1 (hl x List.mem_cons_self))

/-- Each of the operations has taken its place. -/
theorem orders_setChain_mem {k : Nat} {y : MxOp} {good : MxOp → Prop} {l : List (Nat × MxOp)} {g : MxOp → MxOp}
    (hid : ∀ x, (g x).id = x.id) (hl : ∀ x ∈ l, good (g x.2)) (hy : (k, y) ∈ l) {s : State} (h : y ∈ (s.cluster k).order) :
    (s.setChain l g).Orders k y.id good := by
  suffices hs : ∀ s : State, s.Orders k y.id (fun _ => True) → (s.setChain l g).Orders k y.id good from
    hs s ⟨y, h, rfl, trivial⟩
  clear h
  induction l with
  | nil => cases hy
  | cons x l ih =>
    intro s hs
    have hl' : ∀ x ∈ l, good (g x.2) := fun z hz => hl z (List.mem_cons_of_mem _ hz)
    rcases List.mem_cons.mp hy with rfl | hy
    · obtain ⟨z, hz, hzid, -⟩ := hs
      refine orders_setChain hl' ⟨g y, ?_, hid y, hl _ List.mem_cons_self⟩
      rw [State.cluster_modCluster_same]
      exact List.mem_map.mpr ⟨z, hz, if_pos (hzid.trans (hid y).symm)⟩
    · exact ih hl' hy _ (orders_setMx hs x.1 trivial)

theorem orders_modCluster {s : State} {k i : Nat} {good : MxOp → Prop} {f : Cluster → Cluster} (hf : ∀ x, (f x).order = x.order)
    (cl : Nat) (h : s.Orders k i good) : (s.modCluster cl f).Orders k i good := by
  unfold State.Orders
  by_cases hk : k = cl
  · subst hk
    rwa [State.cluster_modCluster_same, hf]
  · rwa [State.modCluster, State.cluster_setCluster_other s hk]

theorem clustersOnly_modCluster {s t : State} (h : t = { s with clusters := t.clusters }) (cl : Nat) (f : Cluster → Cluster) :
    t.modCluster cl f = { s with clusters := (t.modCluster cl f).clusters } := by
  generalize t.clusters = c at h
  subst h
  rfl

theorem chainReady_mem {s : State} {d : List Byte} {l : List (Nat × MxOp)} (h : s.chainReady d = some l) {k : Nat} {y : MxOp}
    (hy : (k, y) ∈ l) : y ∈ (s.cluster k).order := by
  unfold State.chainReady at h
  dsimp only at h
  split at h
  · obtain rfl := Option.some.inj h
    obtain ⟨cl, -, hcl⟩ := List.mem_filterMap.mp hy
    obtain ⟨op, hop, he⟩ := Option.map_eq_some_iff.mp hcl
    obtain ⟨rfl, rfl⟩ := Prod.mk.inj he
    exact List.mem_of_find?_eq_some hop
  · cases h

/-- A chain ends in every cluster at once: every operation of it is finished, and has failed where one has. -/
theorem chainAdd_ends {s : State} {cl n : Nat} {gang : Bool} {d : List Byte} {o : MxOp} {l : List (Nat × MxOp)}
    (hfind : (s.cluster cl).order.find? (·.id == n) = some o) (hkind : o.kind = .matrix gang d)
    (hlast : lastOfChain cl d = true) (hready : s.chainReady d = some l) :
    ∃ u, exec (.chainAdd cl n) s = .next u ∧ u = { s with clusters := u.clusters } ∧
      ∀ k y, (k, y) ∈ l → u.Orders k y.id fun z =>
        z.finished = true ∧ ((∃ k' y', (k', y') ∈ l ∧ y'.fail.isSome = true) → z.fail.isSome = true) := by
  show ∃ u, execChainAdd cl n s = .next u ∧ _
  simp only [execChainAdd, hfind, hkind, hlast, if_true, hready]
  cases hbad : l.find? fun x => x.2.fail.isSome with
  | some x =>
    refine ⟨s.setChain l fun y => { y with finished := true, fail := some (y.fail.getD (6, 0xFF, BitVec.ofNat 64 x.1)) }, rfl,
      setChain_frame _ _ _, fun k y hy => ?_⟩
    refine orders_setChain_mem ?_ ?_ hy (chainReady_mem hready hy)
    · exact fun _ => rfl
    · exact fun _ _ => ⟨rfl, fun _ => rfl⟩
  | none =>
    have hgood : ∀ y : MxOp, (∃ k' y', (k', y') ∈ l ∧ y'.fail.isSome = true) → y.fail.isSome = true := by
      rintro y ⟨k', y', hy', hf⟩
      exact absurd hf (List.find?_eq_none.mp hbad _ hy')
    have hset : ∀ k y, (k, y) ∈ l → (s.setChain l fun y => { y with finished := true }).Orders k y.id fun z =>
        z.finished = true ∧ ((∃ k' y', (k', y') ∈ l ∧ y'.fail.isSome = true) → z.fail.isSome = true) := fun k y hy => by
      refine orders_setChain_mem ?_ ?_ hy (chainReady_mem hready hy)
      · exact fun _ => rfl
      · exact fun x _ => ⟨rfl, hgood x.2⟩
    refine ⟨(s.setChain l fun y => { y with finished := true }).modCluster cl _, rfl,
      clustersOnly_modCluster (setChain_frame l _ s) cl _, fun k y hy => orders_modCluster ?_ cl (hset k y hy)⟩
    exact fun _ => rfl

/-! ## Streams (R174) -/

theorem streamSlotFill_none {s : State} {c : CoreId} {h : HReg} (ho : ∀ o ∈ s.ops, (o.core == c && o.kind == .stream h) = false) :
    exec (.streamSlotFill c h) s = .next s := by
  have hnone : (s.ops.filter fun o => o.core == c && o.kind == .stream h) = [] :=
    List.filter_eq_nil_iff.mpr fun o hmem => by simp only [ho o hmem, Bool.false_eq_true, not_false_eq_true]
  show execStreamSlotFill c h s = .next s
  simp only [execStreamSlotFill, hnone, List.foldl_nil]

theorem streamSlotFill_one {s : State} {c : CoreId} {h : HReg} {o : EngOp}
    (ho : (s.ops.filter fun o => o.core == c && o.kind == .stream h) = [o]) (hcur : s.current o = o) :
    o.core = c ∧ exec (.streamSlotFill c h) s = .next (s.fillSlot o h) := by
  have hmine := (List.mem_filter.mp (ho ▸ List.mem_singleton_self o)).2
  refine ⟨beq_iff_eq.mp (Bool.and_eq_true_iff.mp hmine).1, ?_⟩
  show execStreamSlotFill c h s = _
  simp only [execStreamSlotFill, ho, List.foldl_cons, List.foldl_nil, hcur]

theorem fillSlot_waits {s : State} {o : EngOp} {h : HReg} (hw : let x := s.opHandle o.core o.inst h
    x.st ≠ .stream ∨ x.free = 0 ∨ s.streamGoes o = false ∨ s.writeTurn o (x.slotAt x.q).toNat x.bytes = false) :
    s.fillSlot o h = s := by
  refine if_pos ?_
  rcases hw with hw | hw | hw | hw <;> simp [hw]

/-- A stream's next free slot is filled with the bytes that come next, and committed; behind its last bytes it completes. -/
theorem fillSlot_fills {s u v w : State} {o : EngOp} {h : HReg} {sts : List Stage} {bs : List Byte} {bad : Nat} {k : Unit} :
    let x := s.opHandle o.core o.inst h
    let slot := (x.slotAt x.q).toNat
    let total := stagesTotal (patTotal x.desc) sts
    let m := min x.bytes (total - x.committed)
    x.st = .stream → x.free ≠ 0 → s.streamGoes o = true → s.writeTurn o slot x.bytes = true →
    stagesOf (s.cluster (clusterOf o.core)).permEntry x.desc = .ok sts → stagesBad sts = none → s.ownStores o = some u →
    u.streamBytes o x.desc sts x.committed m x.committed = .ok v (bs, bad) →
    v.engWrite o (x.bytes / 32 + 2) slot (padTo x.bytes bs) = .ok w k →
    let fin := decide (total ≤ x.committed + m)
    let y := w.modOpHandle o.core o.inst h fun x => { x.produce 1 with committed := x.committed + m, exhausted := fin }
    let z := if (y.core o.core).inst = o.inst then y.modCore o.core fun q => q.countEvent 0x0020 bad else y
    s.fillSlot o h = if fin then z.opComplete (z.current o) 0 0xFF 0 else z := by
  intro x slot total m hst hfree hgoes hturn hstages hok hown hbytes hwrite
  unfold State.fillSlot
  rw [if_neg (by simp [hst, hfree, hgoes, hturn, x, slot])]
  simp only [hstages, hown, hok, hbytes, hwrite, x, slot, total, m]

/-! ## The end of an operation (R156) -/

theorem engineOperationComplete_none {s : State} {c : CoreId} {tl : Timeline} {n : Nat} (h : s.opNamed c tl n = none) :
    exec (.engineOperationComplete c tl n) s = .next s := by
  show execEngineOperationComplete c tl n s = .next s
  simp only [execEngineOperationComplete, h]

theorem opRun_last {s u : State} {o : EngOp} (h : s.opBeat o 0 = (u, false)) : s.opRun (2 ^ 40) o = u := by
  rw [show 2 ^ 40 = (2 ^ 40 - 1) + 1 by norm_num]
  simp only [State.opRun, h]

/-- An operation of an engine's own does its last unit: it waits, or it completes. -/
theorem engineOperationComplete_unit {s : State} {c : CoreId} {tl : Timeline} {n : Nat} {o : EngOp} (h : s.opNamed c tl n = some o)
    (hk : ∀ gang d, o.kind ≠ .matrix gang d) :
    (∀ u, s.opUnit o 0 = .wait u → exec (.engineOperationComplete c tl n) s = .next u) ∧
    ∀ u st sl i, s.opUnit o 0 = .over u st sl i → exec (.engineOperationComplete c tl n) s =
      .next ((u.opComplete (u.current o) st sl i).dropOrphans.settleRegions) := by
  have hrun : exec (.engineOperationComplete c tl n) s = .next (State.opRun (2 ^ 40) s o) := by
    show execEngineOperationComplete c tl n s = _
    simp only [execEngineOperationComplete, h]
  constructor
  · intro u hu
    exact hrun.trans (congrArg _ (opRun_last (by rw [State.opBeat, hu])))
  · intro u st sl i hu
    exact hrun.trans (congrArg _ (opRun_last (by rw [State.opBeat, hu])))

/-- A matrix operation ends once it is over. -/
theorem engineOperationComplete_matrix {s : State} {c : CoreId} {tl : Timeline} {n : Nat} {o : EngOp} {gang g : Bool}
    {d e : List Byte} {op : MxOp} (h : s.opNamed c tl n = some o) (hk : o.kind = .matrix gang d) (hop : s.mxOf o = some op)
    (hopk : op.kind = .matrix g e) :
    exec (.engineOperationComplete c tl n) s = .next (if op.over e then s.mxEnd (clusterOf c) op e else s) := by
  show execEngineOperationComplete c tl n s = _
  simp only [execEngineOperationComplete, h, hk, hop, hopk]
  split <;> rfl

/-- Settles O49, event by event: each clause is the lemma above that names what the event finds. -/
theorem engineEvents : Obligations.EngineEvents := by
  refine ⟨fun s cl => ⟨jobQueueAccept_none, fun a j b h hlate ha hb => jobQueueAccept_first h hlate ha hb, fun mx => jobQueueDepart_none,
      fun a j b h ha => jobQueueDepart_first h ha⟩,
    fun s cl => ⟨matrixOperationStart_none, fun a op b h ha hop => ⟨matrixOperationStart_waits h ha hop, fun hc =>
      (matrixOperationStart_starts h ha hop hc).1, fun gang d hc => (matrixOperationStart_starts h ha hop hc).2 gang d⟩⟩,
    fun s cl n gang d o => ⟨fun hnone => ?absent, fun hfind hkind => ⟨fun hidle => ?idle, fun hst hrun => ⟨fun hown => ?stores,
      fun p hp => ⟨fun hslots => ?slots, fun j slot hslots hue hscan hchain hn hfind' => ?adds⟩⟩,
      chainAdd_waits hfind hkind, fun l hlast hready => chainAdd_ends hfind hkind hlast hready⟩⟩,
    fun s c h => ⟨streamSlotFill_none, fun o ho hcur => ?stream⟩,
    fun s c tl n => ⟨engineOperationComplete_none, fun o h => ⟨engineOperationComplete_unit h,
      fun gang d op g e hk hop hopk => engineOperationComplete_matrix h hk hop hopk⟩⟩⟩
  case absent =>
    constructor
    · show execMatrixStepCommit cl n s = .next s
      simp only [execMatrixStepCommit, hnone]
    · show execChainAdd cl n s = .next s
      simp only [execChainAdd, hnone]
  case idle =>
    rw [matrixStepCommit_eq hfind hkind, if_neg]
    rcases hidle with h | h <;> simp [h]
  case stores => rw [matrixStepCommit_eq hfind hkind, hst, hrun, mxStep_behind_stores hown]; rfl
  case slots => rw [matrixStepCommit_eq hfind hkind, hst, hrun, mxStep_without_slots hp hslots]; rfl
  case adds =>
    obtain ⟨y, hy, hsteps, hadd⟩ := mxStep_adds hp hslots hue hscan hchain hn hfind'
    exact ⟨s.mxStep cl o d, y, by rw [matrixStepCommit_eq hfind hkind, hst, hrun]; rfl, hy, hsteps, hadd⟩
  case stream =>
    obtain ⟨rfl, hfill⟩ := streamSlotFill_one ho hcur
    refine ⟨fun hw => by rw [hfill, fillSlot_waits hw], fun sts u v w bs bad k hst hfree hgoes hturn hstages hok hown => ?_⟩
    intro total m hbytes hwrite fin y z
    rw [hfill, fillSlot_fills hst hfree hgoes hturn hstages hok hown hbytes hwrite]

end Sys2Proof.Machine

/-! Proof of O42, in four parts. First: copies, gathers and the completion mask (R158, R175, R178, R179). -/
namespace Sys2Proof.Machine

/-! ## CPY (R175) -/

/-- A copy whose length and ranges pass CPY's checks. -/
def GoodCopy (a b len : SReg) (m : CoreId) (s : State) : Prop :=
  let q := s.core m
  (q.fences = [] ∧ q.sc = none) ∧ q.rs len ≠ 0 ∧ (q.rs len).toNat ≤ 2 ^ 32 ∧ q.undeclared (q.rs a).toNat (q.rs len).toNat = false ∧
    s.rangesFail m [(accRead, q.rs b, (q.rs len).toNat), (accWrite, q.rs a, (q.rs len).toNat)] = none

theorem toNat_ne_zero {x : Word} (h : x ≠ 0) : x.toNat ≠ 0 := fun e => h (BitVec.eq_of_toNat_eq e)

theorem cpy_length_traps (c : Ctl) (d a b len : SReg) :
    FirstTraps (.cpy c d a b len) .illegalOp fun m s x => 2 ^ 32 < ((s.core m).rs len).toNat ∧ x = 0x0305 := by
  refine firstTraps_of_trap (fun _ => rfl) ?_
  rintro m s x ⟨hlen, rfl⟩
  simp only [hlen, if_true]
  rfl

theorem cpy_output_traps (c : Ctl) (d a b len : SReg) : FirstTraps (.cpy c d a b len) .nonidemOp fun m s x => let q := s.core m
    q.rs len ≠ 0 ∧ (q.rs len).toNat ≤ 2 ^ 32 ∧ q.undeclared (q.rs a).toNat (q.rs len).toNat = true ∧ x = 0 := by
  refine firstTraps_of_trap (fun _ => rfl) ?_
  rintro m s x ⟨hlen, hmax, hout, rfl⟩
  simp only [Nat.not_lt.mpr hmax, toNat_ne_zero hlen, hout, if_false, if_true]

theorem cpy_range_traps (c : Ctl) (d a b len : SReg) (cause : Cause) :
    FirstTraps (.cpy c d a b len) cause fun m s x => let q := s.core m
      q.rs len ≠ 0 ∧ (q.rs len).toNat ≤ 2 ^ 32 ∧ q.undeclared (q.rs a).toNat (q.rs len).toNat = false ∧
        s.rangesFail m [(accRead, q.rs b, (q.rs len).toNat), (accWrite, q.rs a, (q.rs len).toNat)] = some (.trap cause x) := by
  refine firstTraps_of_trap (fun _ => rfl) ?_
  rintro m s x ⟨hlen, hmax, hout, hfail⟩
  simp only [Nat.not_lt.mpr hmax, toNat_ne_zero hlen, hout, hfail, Bool.false_eq_true, if_false]

theorem cpy_waits (c : Ctl) (d a b len : SReg) :
    Waits (.cpy c d a b len) fun m s => GoodCopy a b len m s ∧ 16 ≤ (s.cluster (clusterOf m)).queued := by
  refine waits_of_wait (fun _ => rfl) ?_
  rintro m s ⟨⟨-, hlen, hmax, hout, hok⟩, hfull⟩
  simp only [Nat.not_lt.mpr hmax, toNat_ne_zero hlen, hout, hok, Bool.false_eq_true, if_false, issueCopy_waits hfull]

theorem cpy_issues (c : Ctl) (d a b len : SReg) : InTurns (.cpy c d a b len) fun m s t => let q := s.core m
    (q.fences = [] ∧ q.sc = none) ∧ q.rs len = 0 ∧ t = s.tagged m .cp (.copy (q.rs a) (q.rs b) 0) d (fun u =>
        u.jobDone ⟨m, q.inst, .cp, (q.tl .cp).issued + 1⟩ 0 0xFF 0) ∨
      GoodCopy a b len m s ∧ (s.cluster (clusterOf m)).queued < 16 ∧ s.Numbered m ∧
        t = s.offered m (.copy (q.rs a) (q.rs b) (q.rs len).toNat) d c.yld := by
  refine inTurns_of_done (fun _ => rfl) ?_
  rintro m s t (⟨hcalm, hlen, rfl⟩ | ⟨⟨hcalm, hlen, hmax, hout, hok⟩, hroom, hn, rfl⟩)
  · have hlen : ((s.core m).rs len).toNat = 0 := congrArg BitVec.toNat hlen
    simp only [hlen, Nat.not_lt_zero, if_false, if_true, issueOp_unfenced hcalm]
    exact congrArg Res.done (tagged_congr (by simp only [core_issued]; rfl))
  · simp only [Nat.not_lt.mpr hmax, toNat_ne_zero hlen, hout, hok, Bool.false_eq_true, if_false, issueCopy_offers hcalm hn hroom]

/-! ## GTH, GTHM and GMSK (R178, R179) -/

/-- A gather that the checks behind the handle's state let go. -/
def GoodGather (h : HReg) (b : SReg) (v : VReg) (r : SReg) (q : Core) : Prop :=
  (q.handle h).st = .ring ∧ gatherStop (q.handle h) (q.gatherIdx v).length (q.rs b) (q.rs r) = none

theorem gth_traps (c : Ctl) (d : SReg) (h : HReg) (b : SReg) (v : VReg) (r : SReg) : FirstTraps (.gth c d h b v r) .handleState
    fun m s x => ((s.core m).handle h).st ≠ .ring ∧ x = BitVec.ofNat 64 ((s.core m).handle h).st.code := by
  refine firstTraps_of_trap (fun _ => rfl) ?_
  rintro m s x ⟨hst, rfl⟩
  simp only [bne_iff_ne, ne_eq, hst, not_false_eq_true, if_true]

theorem gth_waits (c : Ctl) (d : SReg) (h : HReg) (b : SReg) (v : VReg) (r : SReg) : Waits (.gth c d h b v r)
    fun m s => GoodGather h b v r (s.core m) ∧ ((s.core m).handle h).free < c.n.toNat + 1 := by
  refine waits_of_wait (fun _ => rfl) ?_
  rintro m s ⟨⟨hst, hok⟩, hfree⟩
  simp only [hst, bne_self_eq_false, Bool.false_eq_true, if_false, hok, Ctl.slots, hfree, if_true]

theorem gth_issues (c : Ctl) (d : SReg) (h : HReg) (b : SReg) (v : VReg) (r : SReg) : InTurns (.gth c d h b v r) fun m s t =>
    let q := s.core m
    let x := q.handle h
    GoodGather h b v r q ∧ (q.fences = [] ∧ q.sc = none) ∧ c.n.toNat + 1 ≤ x.free ∧ t = s.tagged m .gt
      (.gather h x.q (q.rs b) (q.gatherIdx v) (q.rs r).toNat (List.range (q.gatherIdx v).length) []) d fun u =>
        u.modCore m fun q => q.setHandle h { q.handle h with q := x.q + 1 } := by
  refine inTurns_of_done (fun _ => rfl) ?_
  rintro m s t ⟨⟨hst, hok⟩, hcalm, hfree, rfl⟩
  simp only [hst, bne_self_eq_false, Bool.false_eq_true, if_false, hok, Ctl.slots, Nat.not_lt.mpr hfree, issueOp_unfenced hcalm]

theorem gthm_traps (c : Ctl) (d : SReg) (h : HReg) (b : SReg) (v : VReg) (r : SReg) : FirstTraps (.gthm c d h b v r) .handleState
    fun m s x => let y := (s.core m).handle h
      (y.st ≠ .ring ∨ y.failed = []) ∧ x = BitVec.ofNat 64 y.st.code := by
  refine firstTraps_of_trap (fun _ => rfl) ?_
  rintro m s x ⟨hst | hfailed, rfl⟩
  · simp only [beq_eq_false_iff_ne.mpr hst]
  · cases hst : ((s.core m).handle h).st == .ring <;> simp only [hst, hfailed]

theorem gthm_issues (c : Ctl) (d : SReg) (h : HReg) (b : SReg) (v : VReg) (r : SReg) : InTurns (.gthm c d h b v r) fun m s t =>
    let q := s.core m
    let x := q.handle h
    let is := q.gatherIdx v
    (q.fences = [] ∧ q.sc = none) ∧ ∃ pos rest, x.st = .ring ∧ x.failed = pos :: rest ∧
      gatherStop x is.length (q.rs b) (q.rs r) = none ∧ t = s.tagged m .gt (.gather h pos (q.rs b) is (q.rs r).toNat
        ((List.range is.length).filter fun e => !q.gcm.getLsbD (4 * e)) []) d fun u =>
          u.modCore m fun q => q.setHandle h { q.handle h with failed := rest } := by
  refine inTurns_of_done (fun _ => rfl) ?_
  rintro m s t ⟨hcalm, pos, rest, hst, hfailed, hok, rfl⟩
  simp only [beq_iff_eq.mpr hst, hfailed, hok, issueOp_unfenced hcalm]
  rfl

theorem gmsk_moves (c : Ctl) (k : KReg) :
    (InTurns (.gmsk c k .read) fun m s t => t = s.modCore m fun q => q.wk k q.gcm) ∧
      InTurns (.gmsk c k .write) fun m s t => t = s.modCore m fun q => { q with gcm := q.rk k } :=
  ⟨inTurns_of_done (fun _ => rfl) fun _ _ _ ht => ht ▸ rfl, inTurns_of_done (fun _ => rfl) fun _ _ _ ht => ht ▸ rfl⟩

end Sys2Proof.Machine

/-! Proof of O42, second part: UREG (R181). A region that meets the range is one of `State.regionsMeeting`; every check of UREG
speaks of the first of them that a test picks. -/
namespace Sys2Proof.Machine

/-! ## Regions -/

theorem retireRegions_kept {s : State} (h : ∀ x ∈ s.regions, x.2.handles ≠ [] ∨ 0 < s.pendingOf x.1) : s.retireRegions = s := by
  have hall : s.regions.filter (fun x => !(x.2.handles.isEmpty && s.pendingOf x.1 == 0 &&
      s.cores.all fun y => y.2.upd.all (·.region != x.1))) = s.regions := by
    refine List.filter_eq_self.mpr fun x hx => ?_
    rcases h x hx with hh | hp
    · simp [hh]
    · simp [hp.ne']
  unfold State.retireRegions
  exact congrArg (fun l => { s with regions := l }) hall

/-- A region of a core's context meets a range. -/
def Core.Meets (q : Core) (a n : Nat) (g : Region) : Prop := g.ctx = q.ctxNum ∧ g.base < a + n ∧ a < g.base + g.len

/-- A region of exactly a range and operation. -/
def sameRange (a n : Nat) (o : UpdOp) (g : Region) : Prop := g.base = a ∧ g.len = n ∧ g.op = o

/-- A region that meets a range, of another extent or operation, which another handle than `x` keeps. -/
def Core.Differs (q : Core) (a n : Nat) (o : UpdOp) (x : CoreId × HReg) (g : Region) : Prop :=
  q.Meets a n g ∧ (∃ y ∈ g.handles, y ≠ x) ∧ ¬ sameRange a n o g

theorem mem_regionsMeeting {s : State} {q : Core} {a n : Nat} {x : Nat × Region} :
    x ∈ s.regionsMeeting q.ctxNum a n ↔ x ∈ s.regions ∧ q.Meets a n x.2 := by
  simp only [State.regionsMeeting, List.mem_filter, Core.Meets, Bool.and_eq_true, beq_iff_eq, decide_eq_true_eq, and_assoc]

theorem regionsMeeting_head (s : State) (q : Core) (a n : Nat) : (s.regionsMeeting q.ctxNum a n).head? =
    s.regions.find? fun x => decide (x.2.ctx = q.ctxNum ∧ x.2.base < a + n ∧ a < x.2.base + x.2.len) := by
  unfold State.regionsMeeting
  rw [List.head?_filter]
  refine congrFun (congrArg _ (funext fun x => ?_)) _
  rw [Bool.eq_iff_iff]
  simp only [Bool.and_eq_true, beq_iff_eq, decide_eq_true_eq, and_assoc]

/-- UREG's test for a region that stands against a registration. -/
def overlapTest (a n : Nat) (o : UpdOp) (x : CoreId × HReg) (y : Nat × Region) : Bool :=
  !(y.2.handles.filter (· != x)).isEmpty && !(y.2.base == a && y.2.len == n && y.2.op == o)

theorem overlapTest_iff {a n : Nat} {o : UpdOp} {x : CoreId × HReg} {y : Nat × Region} :
    overlapTest a n o x y = true ↔ (∃ z ∈ y.2.handles, z ≠ x) ∧ ¬ sameRange a n o y.2 := by
  simp only [overlapTest, sameRange, Bool.and_eq_true, Bool.not_eq_true', List.isEmpty_eq_false_iff_exists_mem, List.mem_filter,
    bne_iff_ne, ne_eq, Bool.and_eq_false_imp, beq_iff_eq, beq_eq_false_iff_ne, not_and, and_imp]

theorem overlap_none {s : State} {q : Core} {a n : Nat} {o : UpdOp} {x : CoreId × HReg}
    (h : ∀ y ∈ s.regions, ¬ q.Differs a n o x y.2) : (s.regionsMeeting q.ctxNum a n).find? (overlapTest a n o x) = none :=
  List.find?_eq_none.mpr fun y hy ht =>
    h y (mem_regionsMeeting.mp hy).1 ⟨(mem_regionsMeeting.mp hy).2, overlapTest_iff.mp ht⟩

theorem overlap_first {s : State} {q : Core} {a n : Nat} {o : UpdOp} {x : CoreId × HReg} {before after : List (Nat × Region)}
    {y : Nat × Region} (h : s.regions = before ++ y :: after) (hb : ∀ z ∈ before, ¬ q.Differs a n o x z.2)
    (hy : q.Differs a n o x y.2) : (s.regionsMeeting q.ctxNum a n).find? (overlapTest a n o x) = some y := by
  have hpick : ∀ z ∈ s.regions, (z ∈ s.regionsMeeting q.ctxNum a n ∧ overlapTest a n o x z = true) ↔ q.Differs a n o x z.2 :=
    fun z hz => by rw [mem_regionsMeeting, overlapTest_iff, and_assoc, and_iff_right hz]; rfl
  unfold State.regionsMeeting at hpick ⊢
  rw [List.find?_filter]
  refine List.find?_eq_some_iff_append.mpr ⟨?_, before, after, h, fun z hz => ?_⟩
  · have := (hpick y (h ▸ by simp)).mpr hy
    simpa [List.mem_filter] using And.intro (List.mem_filter.mp this.1).2 this.2
  · have hz' : z ∈ s.regions := h ▸ by simp [hz]
    have := mt (hpick z hz').mp (hb z hz)
    rw [List.mem_filter, and_iff_right hz'] at this
    simpa only [Bool.not_eq_true', ← Bool.not_eq_true, decide_eq_true_eq, Bool.and_eq_true] using this

/-! ## What a registration leaves -/

/-- A state has the update regions, the next number of an operation and a core's work of another. -/
structure State.KeepsRegions (s : State) (c : CoreId) (t : State) : Prop where
  regions : t.regions = s.regions
  nextOp : t.nextOp = s.nextOp
  work : (t.core c).work = (s.core c).work

namespace State.KeepsRegions

theorem refl {s : State} {c : CoreId} : s.KeepsRegions c s := ⟨rfl, rfl, rfl⟩

theorem trans {s t u : State} {c : CoreId} (h : s.KeepsRegions c t) (k : t.KeepsRegions c u) : s.KeepsRegions c u :=
  ⟨k.regions.trans h.regions, k.nextOp.trans h.nextOp, k.work.trans h.work⟩

/-- Steps on a state and something beside it that each keep the regions keep them together. -/
theorem foldl {α β : Type} {c : CoreId} {f : State × β → α → State × β}
    (hf : ∀ (p : State × β) a, p.1.KeepsRegions c (f p a).1)
    (l : List α) (p : State × β) : p.1.KeepsRegions c (l.foldl f p).1 := by
  induction l generalizing p with
  | nil => exact refl
  | cons a l ih => exact (hf p a).trans (ih _)

end State.KeepsRegions

theorem xlat_keepsRegions (s : State) (c : CoreId) (ctx va : Nat) (write : Bool) :
    s.KeepsRegions c (s.xlat c ctx va write).1 := by
  obtain ⟨hregions, hnext⟩ := xlat_regions s c ctx va write
  exact ⟨hregions, hnext, by rw [xlat_resolved s c ctx va write]⟩

theorem pinPages_keepsRegions (s : State) (c : CoreId) (ctx base n : Nat) : s.KeepsRegions c (s.pinPages c ctx base n).1 := by
  unfold State.pinPages
  refine State.KeepsRegions.foldl (fun p a => ?_) _ (s, ([] : List TlbEntry))
  dsimp only
  have hx := xlat_keepsRegions p.1 c ctx a true
  split
  · exact .refl
  · split
    all_goals
      next hu =>
        rw [hu] at hx
        exact hx

theorem uncacheRegion_keepsRegions (s : State) (g : Region) (c : CoreId) : s.KeepsRegions c (s.uncacheRegion g) := by
  unfold State.uncacheRegion
  generalize s.rangeLines g.ctx g.base g.len = runs
  let t := (s.l1SweepAll true fun line _ => lineIn runs line).l2EvictAll fun line _ => lineIn runs line
  have heng : s.SameEngines t := (l2EvictAll_engines _ _).of (l1SweepAll_engines s _ _)
  have hunits : s.SameUnits t := (l2EvictAll_units _ _).of (.foldl (fun s _ => l1Sweep_units s _ _ _) _ s)
  refine ⟨heng.regions, heng.nextOp, ?_⟩
  rw [← hunits.core c]
  simp only [State.core, SMap.get, SMap.find_mapVals]
  cases SMap.find t.cores c <;> rfl

theorem newRegion_keepsRegions (s : State) (c : CoreId) (g : Region) : s.KeepsRegions c (s.newRegion c g).1 :=
  (pinPages_keepsRegions s c g.ctx g.base g.len).trans (uncacheRegion_keepsRegions _ g c)

end Sys2Proof.Machine

/-! Proof of O42, third part: the checks of UREG in R181's order, and what it does behind them. A handle in UPDATE leaves its
region first, and the word is then taken again in the state that this leaves. -/
namespace Sys2Proof.Machine

/-! ## The checks of UREG, in R181's order -/

/-- No region is over that UREG would first let go. -/
def State.RegionsKept (s : State) : Prop := ∀ x ∈ s.regions, x.2.handles ≠ [] ∨ 0 < s.pendingOf x.1

/-- A length that UREG takes. -/
def RegionSized (n : Nat) : Prop := n % 128 = 0 ∧ 128 ≤ n ∧ n ≤ 2 ^ 32

/-- A handle that UREG takes. -/
def Core.Opens (q : Core) (h : HReg) : Prop := (q.handle h).st = .unbound ∨ (q.handle h).st = .update

/-- A range that passes UREG's checks of the grant, the operation, the length, the alignment and the addresses. -/
def RangedFor (h : HReg) (base len : SReg) (op : Byte) (m : CoreId) (s : State) (o : UpdOp) : Prop :=
  let q := s.core m
  s.RegionsKept ∧ h.toNat < q.grants.handles ∧ UpdOp.ofCode op.toNat = some o ∧ RegionSized (q.rs len).toNat ∧
    (q.rs base).toNat % 128 = 0 ∧ s.regionFail m (q.rs base).toNat (q.rs len).toNat = none

theorem regionSized_iff {n : Nat} : RegionSized n ↔ (n % 128 != 0 || n < 128 || 2 ^ 32 < n) = false := by
  simp [RegionSized, and_assoc]

theorem not_regionSized {n : Nat} (h : ¬ RegionSized n) : (n % 128 != 0 || n < 128 || 2 ^ 32 < n) = true := by
  rwa [regionSized_iff, Bool.not_eq_false] at h

theorem opens_iff {q : Core} {h : HReg} : q.Opens h ↔ ((q.handle h).st == .ring || (q.handle h).st == .stream) = false := by
  unfold Core.Opens
  cases (q.handle h).st <;> decide

theorem not_opens {q : Core} {h : HReg} (hop : ¬ q.Opens h) : ((q.handle h).st == .ring || (q.handle h).st == .stream) = true := by
  rwa [opens_iff, Bool.not_eq_false] at hop

theorem ureg_handle_traps (c : Ctl) (h : HReg) (base len : SReg) (op : Byte) :
    FirstTraps (.ureg c h base len op) .handleState fun m s x => s.RegionsKept ∧ let q := s.core m
      ¬ h.toNat < q.grants.handles ∧ x = 0x10 ∨
        h.toNat < q.grants.handles ∧ ¬ q.Opens h ∧ x = BitVec.ofNat 64 (q.handle h).st.code := by
  refine firstTraps_of_trap (fun _ => rfl) ?_
  rintro m s x ⟨hkept, ⟨hg, rfl⟩ | ⟨hg, hop, rfl⟩⟩
  · simp only [retireRegions_kept hkept, Nat.not_lt.mp hg, if_true]
  · simp only [retireRegions_kept hkept, Nat.not_le.mpr hg, not_opens hop, if_false, if_true]

theorem ureg_field_traps (c : Ctl) (h : HReg) (base len : SReg) (op : Byte) :
    FirstTraps (.ureg c h base len op) .illegalOp fun m s x => s.RegionsKept ∧ let q := s.core m
      h.toNat < q.grants.handles ∧ q.Opens h ∧ (UpdOp.ofCode op.toNat = none ∧ x = 0x0305 ∨
        UpdOp.ofCode op.toNat ≠ none ∧ ¬ RegionSized (q.rs len).toNat ∧ x = 0x0205) := by
  refine firstTraps_of_trap (fun _ => rfl) ?_
  rintro m s x ⟨hkept, hg, hop, ⟨ho, rfl⟩ | ⟨ho, hn, rfl⟩⟩
  · simp only [retireRegions_kept hkept, Nat.not_le.mpr hg, opens_iff.mp hop, Bool.false_eq_true, if_false, ho]
    rfl
  · obtain ⟨o, ho⟩ := Option.ne_none_iff_exists'.mp ho
    simp only [retireRegions_kept hkept, Nat.not_le.mpr hg, opens_iff.mp hop, Bool.false_eq_true, if_false, ho,
      not_regionSized hn, if_true]
    rfl

theorem ureg_base_traps (c : Ctl) (h : HReg) (base len : SReg) (op : Byte) :
    FirstTraps (.ureg c h base len op) .misaligned fun m s x => s.RegionsKept ∧ let q := s.core m
      h.toNat < q.grants.handles ∧ q.Opens h ∧ UpdOp.ofCode op.toNat ≠ none ∧ RegionSized (q.rs len).toNat ∧
        (q.rs base).toNat % 128 ≠ 0 ∧ x = q.rs base := by
  refine firstTraps_of_trap (fun _ => rfl) ?_
  rintro m s x ⟨hkept, hg, hop, ho, hn, ha, rfl⟩
  obtain ⟨o, ho⟩ := Option.ne_none_iff_exists'.mp ho
  simp only [retireRegions_kept hkept, Nat.not_le.mpr hg, opens_iff.mp hop, Bool.false_eq_true, if_false, ho,
    regionSized_iff.mp hn, bne_iff_ne.mpr ha, if_true]

theorem ureg_range_traps (c : Ctl) (h : HReg) (base len : SReg) (op : Byte) (cause : Cause) :
    FirstTraps (.ureg c h base len op) cause fun m s x => s.RegionsKept ∧ let q := s.core m
      h.toNat < q.grants.handles ∧ q.Opens h ∧ UpdOp.ofCode op.toNat ≠ none ∧ RegionSized (q.rs len).toNat ∧
        (q.rs base).toNat % 128 = 0 ∧ s.regionFail m (q.rs base).toNat (q.rs len).toNat = some (.trap cause x) := by
  refine firstTraps_of_trap (fun _ => rfl) ?_
  rintro m s x ⟨hkept, hg, hop, ho, hn, ha, hfail⟩
  obtain ⟨o, ho⟩ := Option.ne_none_iff_exists'.mp ho
  simp only [retireRegions_kept hkept, Nat.not_le.mpr hg, opens_iff.mp hop, Bool.false_eq_true, if_false, ho,
    regionSized_iff.mp hn, ha, bne_self_eq_false, hfail]

/-! ## UREG behind its checks -/

/-- A handle of a core joins a region, in a state `u` behind `s`. -/
def afterBinding (h : HReg) (m : CoreId) (s u : State) (r : Nat) (g : Region) : State :=
  let x : Region := { g with
    handles := g.handles ++ [(m, h)]
    launches := addNew g.launches (((s.core m).work.map (·.launch)).getD 0)
    seqs := if g.handles.any (·.1 == m) then g.seqs else g.seqs.set m 0 }
  ({ u with regions := u.regions.set r x } : State).modCore m fun q => q.setHandle h { q.handle h with st := .update, region := some r }

/-- The region that UREG registers anew, and the state behind it. -/
def newRegionFor (base len : SReg) (m : CoreId) (s : State) (o : UpdOp) : State × Region :=
  ({ s with nextOp := s.nextOp + 1 } : State).newRegion m
    { ctx := (s.core m).ctxNum, base := ((s.core m).rs base).toNat, len := ((s.core m).rs len).toNat, op := o }

theorem joinRegion_eq_afterBinding {s u : State} {m : CoreId} (hwork : (u.core m).work = (s.core m).work) (h : HReg) (r : Nat) (g : Region) :
    u.joinRegion m h r g = afterBinding h m s u r g := by
  unfold State.joinRegion afterBinding
  rw [hwork]

theorem joinRegion_new (base len : SReg) (h : HReg) (m : CoreId) (s : State) (o : UpdOp) :
    let u := newRegionFor base len m s o
    u.1.joinRegion m h (u.1.nextOp - 1) u.2 = afterBinding h m s u.1 s.nextOp u.2 := by
  have hk := newRegion_keepsRegions { s with nextOp := s.nextOp + 1 } m
    { ctx := (s.core m).ctxNum, base := ((s.core m).rs base).toNat, len := ((s.core m).rs len).toNat, op := o }
  have hn : (newRegionFor base len m s o).1.nextOp - 1 = s.nextOp := congrArg (· - 1) hk.nextOp
  dsimp only
  rw [hn]
  exact joinRegion_eq_afterBinding hk.work h s.nextOp _

/-- The regions that meet UREG's range. -/
def State.uregMet (base len : SReg) (m : CoreId) (s : State) : List (Nat × Region) :=
  s.regionsMeeting (s.core m).ctxNum ((s.core m).rs base).toNat ((s.core m).rs len).toNat

/-- The first of them that stands against the registration. -/
def State.uregOverlap (h : HReg) (base len : SReg) (m : CoreId) (s : State) (o : UpdOp) : Option (Nat × Region) :=
  (s.uregMet base len m).find? (overlapTest ((s.core m).rs base).toNat ((s.core m).rs len).toNat o (m, h))

/-- What UREG answers for one member whose handle, operation and range have passed its checks. -/
structure UregActs (h : HReg) (base len : SReg) (m : CoreId) (s : State) (o : UpdOp) (r : Res) : Prop where
  overlap : ∀ y, s.uregOverlap h base len m o = some y → r = .trap .updOverlap (BitVec.ofNat 64 y.2.base)
  unbinds : s.uregOverlap h base len m o = none → ((s.core m).handle h).st = .update → r = .arrived (s.unbindRegion m h)
  waits : s.uregOverlap h base len m o = none → ((s.core m).handle h).st = .unbound →
    (∃ x ∈ s.uregMet base len m, x.2.handles = []) → r = .wait
  joins : s.uregOverlap h base len m o = none → ((s.core m).handle h).st = .unbound →
    (∀ x ∈ s.uregMet base len m, x.2.handles ≠ []) → ∀ x, (s.uregMet base len m).head? = some x →
      r = .done (afterBinding h m s s x.1 x.2)
  opens : s.uregOverlap h base len m o = none → ((s.core m).handle h).st = .unbound → s.uregMet base len m = [] →
    r = .done (afterBinding h m s (newRegionFor base len m s o).1 s.nextOp (newRegionFor base len m s o).2)

theorem ureg_body (c : Ctl) (h : HReg) (base len : SReg) (op : Byte) : ∃ body : CoreId → State → Res,
    (∀ s, exec (.ureg c h base len op) s = runWord (.ureg c h base len op) s body) ∧
    ∀ m s o, (s.core m).Opens h → RangedFor h base len op m s o → UregActs h base len m s o (body m s) := by
  refine ⟨_, fun _ => rfl, ?_⟩
  rintro m s o hop ⟨hkept, hg, ho, hn, ha, hok⟩
  simp only [retireRegions_kept hkept, Nat.not_le.mpr hg, opens_iff.mp hop, Bool.false_eq_true, if_false, ho,
    regionSized_iff.mp hn, ha, bne_self_eq_false, hok]
  have hnew := joinRegion_new base len h m s o
  unfold newRegionFor at hnew
  constructor
  · intro y hy
    unfold State.uregOverlap State.uregMet overlapTest at hy
    simp only [hy]
  · intro hy hst
    unfold State.uregOverlap State.uregMet overlapTest at hy
    simp only [hy, hst, beq_self_eq_true, if_true]
  · rintro hy hst ⟨x, hx, he⟩
    have hany : ((s.uregMet base len m).any fun x => x.2.handles.isEmpty) = true :=
      List.any_eq_true.mpr ⟨x, hx, List.isEmpty_iff.mpr he⟩
    unfold State.uregOverlap State.uregMet overlapTest at hy
    unfold State.uregMet at hany
    simp only [hy, hst, hany, if_true]
    rfl
  · intro hy hst hall x hx
    have hany : ((s.uregMet base len m).any fun x => x.2.handles.isEmpty) = false :=
      List.any_eq_false.mpr fun x hx he => hall x hx (List.isEmpty_iff.mp he)
    obtain ⟨rest, hmet⟩ := List.head?_eq_some_iff.mp hx
    unfold State.uregOverlap State.uregMet overlapTest at hy
    unfold State.uregMet at hany hmet
    rw [hmet] at hy hany
    simp only [hmet, hy, hst, hany, Bool.false_eq_true, if_false]
    exact congrArg Res.done (joinRegion_eq_afterBinding rfl h x.1 x.2)
  · intro hy hst hmet
    unfold State.uregOverlap State.uregMet overlapTest at hy
    unfold State.uregMet at hmet
    simp only [hmet, List.find?_nil, hst, List.any_nil, Bool.false_eq_true, if_false]
    exact congrArg Res.done hnew

theorem ureg_overlap_traps (c : Ctl) (h : HReg) (base len : SReg) (op : Byte) :
    FirstTraps (.ureg c h base len op) .updOverlap fun m s x => let q := s.core m
      q.Opens h ∧ ∃ o before y after, RangedFor h base len op m s o ∧ s.regions = before ++ y :: after ∧
        (∀ z ∈ before, ¬ q.Differs (q.rs base).toNat (q.rs len).toNat o (m, h) z.2) ∧
        q.Differs (q.rs base).toNat (q.rs len).toNat o (m, h) y.2 ∧ x = BitVec.ofNat 64 y.2.base := by
  obtain ⟨body, hx, hacts⟩ := ureg_body c h base len op
  refine firstTraps_of_trap hx ?_
  rintro m s x ⟨hop, o, before, y, after, hr, hregions, hb, hy, rfl⟩
  exact (hacts m s o hop hr).overlap y (overlap_first hregions hb hy)

theorem ureg_waits (c : Ctl) (h : HReg) (base len : SReg) (op : Byte) : Waits (.ureg c h base len op) fun m s => let q := s.core m
    (q.handle h).st = .unbound ∧ ∃ o, RangedFor h base len op m s o ∧
      (∀ x ∈ s.regions, ¬ q.Differs (q.rs base).toNat (q.rs len).toNat o (m, h) x.2) ∧
      ∃ x ∈ s.regions, q.Meets (q.rs base).toNat (q.rs len).toNat x.2 ∧ x.2.handles = [] := by
  obtain ⟨body, hx, hacts⟩ := ureg_body c h base len op
  refine waits_of_wait hx ?_
  rintro m s ⟨hst, o, hr, hd, x, hmem, hmeets, he⟩
  exact (hacts m s o (.inl hst) hr).waits (overlap_none hd) hst ⟨x, mem_regionsMeeting.mpr ⟨hmem, hmeets⟩, he⟩

/-- UREG registers a new region, or joins the one that it meets. -/
def Registers (h : HReg) (base len : SReg) (op : Byte) (m : CoreId) (s t : State) : Prop :=
  let q := s.core m
  let a := (q.rs base).toNat
  let n := (q.rs len).toNat
  (q.handle h).st = .unbound ∧ ∃ o, RangedFor h base len op m s o ∧
    ((∀ x ∈ s.regions, ¬ q.Meets a n x.2) ∧
        t = afterBinding h m s (newRegionFor base len m s o).1 s.nextOp (newRegionFor base len m s o).2 ∨
      ∃ r g, s.regions.find? (fun x => decide (x.2.ctx = q.ctxNum ∧ x.2.base < a + n ∧ a < x.2.base + x.2.len)) = some (r, g) ∧
        (∀ x ∈ s.regions, q.Meets a n x.2 → sameRange a n o x.2 ∧ x.2.handles ≠ []) ∧ t = afterBinding h m s s r g)

theorem UregActs.registers {h : HReg} {base len : SReg} {op : Byte} {body : CoreId → State → Res}
    (hacts : ∀ m s o, (s.core m).Opens h → RangedFor h base len op m s o → UregActs h base len m s o (body m s))
    {m : CoreId} {s t : State} (hreg : Registers h base len op m s t) : body m s = .done t := by
  obtain ⟨hst, o, hr, ⟨hnone, rfl⟩ | ⟨r, g, hfind, hsame, rfl⟩⟩ := hreg
  · refine (hacts m s o (.inl hst) hr).opens (overlap_none fun x hx hd => hnone x hx hd.1) hst ?_
    exact List.eq_nil_iff_forall_not_mem.mpr fun x hx => hnone x (mem_regionsMeeting.mp hx).1 (mem_regionsMeeting.mp hx).2
  · refine (hacts m s o (.inl hst) hr).joins (overlap_none fun x hx hd => hd.2.2 (hsame x hx hd.1).1) hst ?_ (r, g) ?_
    · exact fun x hx => (hsame x (mem_regionsMeeting.mp hx).1 (mem_regionsMeeting.mp hx).2).2
    · exact (regionsMeeting_head s _ _ _).trans hfind

theorem ureg_registers (c : Ctl) (h : HReg) (base len : SReg) (op : Byte) :
    InTurns (.ureg c h base len op) (Registers h base len op) := by
  obtain ⟨body, hx, hacts⟩ := ureg_body c h base len op
  exact inTurns_of_done hx fun m s t => UregActs.registers hacts

theorem ureg_rebinds (c : Ctl) (h : HReg) (base len : SReg) (op : Byte) {s t : State} {f : Fields} {o : UpdOp} (ha : s.Alone f)
    (hf : (Instr.ureg c h base len op).fields = some f) (hst : ((s.core s.cur).handle h).st = .update)
    (hr : RangedFor h base len op s.cur s o)
    (hd : ∀ x ∈ s.regions, ¬ (s.core s.cur).Differs ((s.core s.cur).rs base).toNat ((s.core s.cur).rs len).toNat o (s.cur, h) x.2)
    (hreg : Registers h base len op s.cur (s.unbindRegion s.cur h) t) : s.Does (.ureg c h base len op) f t := by
  obtain ⟨body, hx, hacts⟩ := ureg_body c h base len op
  have hleave := (hacts s.cur s o (.inr hst) hr).unbinds (overlap_none hd) hst
  have hword : exec (.ureg c h base len op) s = .next (s.runMembers f false body) := (hx s).trans (word_ready hf ha.ready _)
  unfold State.Does
  rw [hword, runMembers_alone (priv := false) ha fun hp => (Bool.false_ne_true hp).elim, hleave]
  simp only [UregActs.registers hacts hreg]

theorem Core.passed_h (q : Core) (f : Fields) : (q.passed f).h = q.h := by
  unfold Core.passed Core.counted
  split <;> simp

theorem ureg_registers_new (c : Ctl) (h : HReg) (base len : SReg) (op : Byte) {s : State} {f : Fields} {o : UpdOp}
    (ha : s.Alone f) (hf : (Instr.ureg c h base len op).fields = some f) (hst : ((s.core s.cur).handle h).st = .unbound)
    (hr : RangedFor h base len op s.cur s o)
    (hnone : ∀ x ∈ s.regions, ¬ (s.core s.cur).Meets ((s.core s.cur).rs base).toNat ((s.core s.cur).rs len).toNat x.2) :
    let q := s.core s.cur
    ∃ t g, exec (.ureg c h base len op) s = .next t ∧ t.regions = s.regions.set s.nextOp g ∧ g.ctx = q.ctxNum ∧
      g.base = (q.rs base).toNat ∧ g.len = (q.rs len).toNat ∧ g.op = o ∧ g.handles = [(s.cur, h)] ∧
      ((t.core s.cur).handle h).st = .update ∧ ((t.core s.cur).handle h).region = some s.nextOp := by
  obtain ⟨body, hx, hacts⟩ := ureg_body c h base len op
  have hdone := UregActs.registers hacts ⟨hst, o, hr, .inl ⟨hnone, rfl⟩⟩
  have hk := newRegion_keepsRegions { s with nextOp := s.nextOp + 1 } s.cur
    { ctx := (s.core s.cur).ctxNum, base := ((s.core s.cur).rs base).toNat, len := ((s.core s.cur).rs len).toNat, op := o }
  have hregions : (newRegionFor base len s.cur s o).1.regions = s.regions := hk.regions
  refine ⟨_, _, (runWord_alone hf ha (hx s)).1 _ hdone, congrArg (SMap.set · _ _) hregions, rfl, rfl, rfl, rfl, rfl, ?_⟩
  simp only [State.passed, State.core_modCore_same, afterBinding, Core.handle, Core.passed_h, Core.setHandle, SMap.get_set_same, and_self]

end Sys2Proof.Machine

/-! Proof of O42, fourth part: emissions, UFLSH and UQRY (R182, R183, R367, R368). -/
namespace Sys2Proof.Machine

/-! ## Pairs that leave a core -/

/-- A handle that is in UPDATE on a region. -/
def Bound (m : CoreId) (s : State) (h : HReg) (r : Nat) (g : Region) : Prop :=
  ((s.core m).handle h).st = .update ∧ ((s.core m).handle h).region = some r ∧ s.region r = some g

/-- A core's pairs to a region, sent in order behind the `g.seqs.get m 0` that it has sent there before. -/
def State.afterPairs (s : State) (m : CoreId) (r : Nat) (g : Region) (l : List Pair) : State :=
  { s with regions := if l = [] then s.regions else s.regions.set r { g with seqs := g.seqs.set m (g.seqs.get m 0 + l.length) }
           flight := s.flight ++ (l.zipIdx.map fun x =>
             { x.1 with seq := (g.seqs.get m 0 + x.2) % 2 ^ 48, num := s.pairsOut + x.2 })
           pairsOut := s.pairsOut + l.length }

theorem sendPairs_cons {s : State} {m : CoreId} {p : Pair} {g : Region} (hr : s.region p.region = some g) (hsrc : p.src = m)
    (l : List Pair) : s.sendPairs m (p :: l) =
      ((s.afterPairs m p.region g [p]).modCore m fun q => { q with credits := q.credits - 1 }).sendPairs m l := by
  subst hsrc
  simp only [State.sendPairs, List.foldl_cons, hr]
  rfl

theorem afterPairs_cons (s : State) (m : CoreId) (r : Nat) (g : Region) (p : Pair) (l : List Pair) :
    (s.afterPairs m r g [p]).afterPairs m r { g with seqs := g.seqs.set m (g.seqs.get m 0 + 1) } l = s.afterPairs m r g (p :: l) := by
  have hregions : (if l = [] then (s.afterPairs m r g [p]).regions else (s.afterPairs m r g [p]).regions.set r
      { g with seqs := (g.seqs.set m (g.seqs.get m 0 + 1)).set m (g.seqs.get m 0 + 1 + l.length) }) =
      s.regions.set r { g with seqs := g.seqs.set m (g.seqs.get m 0 + (p :: l).length) } := by
    rw [SMap.set_set, List.length_cons, Nat.add_assoc, Nat.add_comm 1]
    split
    next hl => subst hl; rfl
    next => exact SMap.set_set _ _ _ _
  have hflight : (p :: l).zipIdx.map (fun x => { x.1 with seq := (g.seqs.get m 0 + x.2) % 2 ^ 48, num := s.pairsOut + x.2 }) =
      [p].zipIdx.map (fun x => { x.1 with seq := (g.seqs.get m 0 + x.2) % 2 ^ 48, num := s.pairsOut + x.2 }) ++
        l.zipIdx.map fun x => { x.1 with seq := (g.seqs.get m 0 + 1 + x.2) % 2 ^ 48, num := s.pairsOut + 1 + x.2 } := by
    simp only [List.zipIdx_cons, List.zipIdx_nil, List.zipIdx_succ, List.map_cons, List.map_nil, List.map_map, Function.comp_def,
      List.singleton_append, Nat.add_assoc, Nat.add_comm 1]
  unfold State.afterPairs at hregions ⊢
  rw [hflight, ← hregions]
  simp only [SMap.get_set_same, List.length_cons, List.length_nil, List.append_assoc, Nat.add_assoc, Nat.add_comm 1]
  rfl

theorem afterPairs_modCore (s : State) (m : CoreId) (f : Core → Core) (r : Nat) (g : Region) (l : List Pair) :
    (s.modCore m f).afterPairs m r g l = (s.afterPairs m r g l).modCore m f := rfl

theorem sendPairs_modCore {m : CoreId} {r : Nat} (f : Core → Core) (l : List Pair) {s : State} {g : Region}
    (hl : ∀ p ∈ l, p.region = r ∧ p.src = m) (hr : s.region r = some g) : (s.sendPairs m l).modCore m f =
      (s.afterPairs m r g l).modCore m fun q => f { q with credits := q.credits - l.length } := by
  induction l generalizing s g with
  | nil =>
    simp only [State.afterPairs, if_true, List.zipIdx_nil, List.map_nil, List.append_nil, List.length_nil, Nat.add_zero, Nat.sub_zero]
    rfl
  | cons p l ih =>
    obtain ⟨rfl, hsrc⟩ := hl p List.mem_cons_self
    have hnext : ((s.afterPairs m p.region g [p]).modCore m fun q => { q with credits := q.credits - 1 }).region p.region =
        some { g with seqs := g.seqs.set m (g.seqs.get m 0 + 1) } := SMap.find_set_same _ _ _
    rw [sendPairs_cons hr hsrc, ih (fun p hp => hl p (List.mem_cons_of_mem _ hp)) hnext, ← afterPairs_cons s m p.region g p l]
    rw [afterPairs_modCore, State.modCore_modCore]
    simp only [List.length_cons, Nat.sub_sub, Nat.add_comm 1]

/-! ## One emission -/

/-- The pair of an element's offset and value. -/
def Region.pair (g : Region) (r : Nat) (m : CoreId) (p : Nat × Nat × Nat) : Pair :=
  ⟨g.ctx, r, g.base + p.2.1 * (g.op.width / 8), m, 0, BitVec.ofNat 64 (p.2.2 % 2 ^ (8 * (g.op.width / 8))), 0⟩

/-- An offset lies past a region. -/
def Region.past (g : Region) (p : Nat × Nat × Nat) : Bool := decide (g.len / (g.op.width / 8) ≤ p.2.1)

theorem past_iff {g : Region} {p : Nat × Nat × Nat} : g.past p = true ↔ g.len / (g.op.width / 8) ≤ p.2.1 := decide_eq_true_iff

section
variable {m : CoreId} {s : State} {h : HReg} {r : Nat} {g : Region} {ps : List (Nat × Nat × Nat)} {info : Nat → Nat → Word}

theorem emission_past {p : Nat × Nat × Nat} (hb : Bound m s h r g) (hp : ps.find? g.past = some p) :
    s.emission m h ps info = .trap .updRange (info p.1 p.2.1) := by
  obtain ⟨hst, hregion, hg⟩ := hb
  unfold Region.past at hp
  simp only [State.emission, hst, hregion, Option.bind_some, hg, hp]

theorem emission_buffered (hb : Bound m s h r g) (hp : ps.find? g.past = none) (hidem : (s.core m).idem = true) :
    s.emission m h ps info = if 4096 < (s.core m).upd.length + ps.length then .trap .updFull 4096 else
      .done (s.modCore m fun q => ({ q with upd := q.upd ++ ps.map (g.pair r m) } : Core).countEvent 0x0041 ps.length) := by
  obtain ⟨hst, hregion, hg⟩ := hb
  unfold Region.past at hp
  simp only [State.emission, hst, hregion, Option.bind_some, hg, hp, hidem, if_true, List.length_map, State.modCore_modCore]
  rfl

theorem pairsBehind_loc {ps : List Pair} (h : ∀ y ∈ (s.core m).stores, y.loc = true) : s.pairsBehind m ps = some s := by
  have hmine : ∀ (k : PendStore → Bool), ∀ y ∈ (s.core m).stores, (!y.loc && k y) = false := fun k y hy => by rw [h y hy]; rfl
  have hany : ∀ k : PendStore → Bool, ¬ ((s.core m).stores.any fun y => !y.loc && k y) = true := fun k ht => by
    obtain ⟨y, hy, hyt⟩ := List.any_eq_true.mp ht
    exact Bool.false_ne_true ((hmine k y hy).symm.trans hyt)
  unfold State.pairsBehind
  dsimp only
  rw [drainWhere_none (hmine _)]
  exact if_neg (hany _)

theorem emission_sent (hb : Bound m s h r g) (hp : ps.find? g.past = none) (hidem : (s.core m).idem = false)
    (hcalm : (s.core m).fences = [] ∧ (s.core m).sc = none) (hloc : ∀ y ∈ (s.core m).stores, y.loc = true) :
    s.emission m h ps info = if (s.core m).credits < ps.length then .wait else
      .done ((s.afterPairs m r g (ps.map (g.pair r m))).modCore m fun q =>
        ({ q with credits := q.credits - ps.length } : Core).countEvent 0x0041 ps.length) := by
  obtain ⟨hst, hregion, hg⟩ := hb
  unfold Region.past at hp
  have hsend := sendPairs_modCore (fun q => q.countEvent 0x0041 ps.length) (ps.map (g.pair r m)) (m := m) (r := r)
    (fun p hp => by obtain ⟨x, -, rfl⟩ := List.mem_map.mp hp; exact ⟨rfl, rfl⟩) hg
  rw [List.length_map] at hsend
  rw [← hsend]
  simp only [State.emission, hst, hregion, Option.bind_some, hg, hp, hidem, Bool.false_eq_true, if_false,
    fenceGate_open clsUe hcalm.1 hcalm.2, pairsBehind_loc hloc, List.length_map]
  rfl

end

/-! ## UPD and UPDV -/

/-- The pairs `ps` of a word, in order, inside its region: buffered, or sent one by one. -/
def Emits (i : Instr) (h : HReg) (ps : CoreId → State → Nat → Region → List Pair) (inside : CoreId → State → Region → Prop) : Prop :=
  FirstTraps i .updFull (fun m s x => ∃ r g, Bound m s h r g ∧ inside m s g ∧ (s.core m).idem = true ∧
    4096 < (s.core m).upd.length + (ps m s r g).length ∧ x = 4096) ∧
  Waits i (fun m s => ∃ r g, Bound m s h r g ∧ inside m s g ∧ (s.core m).idem = false ∧
    ((s.core m).fences = [] ∧ (s.core m).sc = none) ∧ (∀ y ∈ (s.core m).stores, y.loc = true) ∧
    (s.core m).credits < (ps m s r g).length) ∧
  InTurns i fun m s t => ∃ r g, Bound m s h r g ∧ inside m s g ∧ let q := s.core m
    let l := ps m s r g
    (q.idem = true ∧ q.upd.length + l.length ≤ 4096 ∧
      t = s.modCore m (fun q => ({ q with upd := q.upd ++ l } : Core).countEvent 0x0041 l.length)) ∨
    (q.idem = false ∧ (q.fences = [] ∧ q.sc = none) ∧ (∀ y ∈ q.stores, y.loc = true) ∧ l.length ≤ q.credits ∧
      t = (s.afterPairs m r g l).modCore m fun q =>
        ({ q with credits := q.credits - l.length } : Core).countEvent 0x0041 l.length)

/-- A word whose effect on a bound handle is an emission of elements that lie inside the region. -/
theorem emits_of_emission {i : Instr} {h : HReg} {body : CoreId → State → Res} {inside : CoreId → State → Region → Prop}
    {ps : CoreId → State → Nat → Region → List Pair} (l : CoreId → State → Region → List (Nat × Nat × Nat))
    (info : CoreId → State → Nat → Nat → Word) (hx : ∀ s, exec i s = runWord i s body)
    (hbody : ∀ m s r g, Bound m s h r g → body m s = s.emission m h (l m s g) (info m s))
    (hin : ∀ m s g, inside m s g → (l m s g).find? g.past = none)
    (hps : ∀ m s r g, ps m s r g = (l m s g).map (g.pair r m)) : Emits i h ps inside := by
  obtain rfl : ps = fun m s r g => (l m s g).map (g.pair r m) := by funext m s r g; exact hps m s r g
  unfold Emits
  simp only [List.length_map]
  refine ⟨firstTraps_of_trap hx ?_, waits_of_wait hx ?_, inTurns_of_done hx ?_⟩
  · rintro m s x ⟨r, g, hb, hi, hidem, hfull, rfl⟩
    rw [hbody m s r g hb, emission_buffered hb (hin m s g hi) hidem, if_pos hfull]
  · rintro m s ⟨r, g, hb, hi, hidem, hcalm, hloc, hfew⟩
    rw [hbody m s r g hb, emission_sent hb (hin m s g hi) hidem hcalm hloc, if_pos hfew]
  · rintro m s t ⟨r, g, hb, hi, ⟨hidem, hroom, rfl⟩ | ⟨hidem, hcalm, hloc, henough, rfl⟩⟩
    · rw [hbody m s r g hb, emission_buffered hb (hin m s g hi) hidem, if_neg (Nat.not_lt.mpr hroom)]
    · rw [hbody m s r g hb, emission_sent hb (hin m s g hi) hidem hcalm hloc, if_neg (Nat.not_lt.mpr henough)]

/-- An offset of UPD lies past the region. -/
def PastRegion (q : Core) (o : SReg) (g : Region) : Prop := g.len / (g.op.width / 8) ≤ (q.rs o).toNat

theorem width_bytes (o : UpdOp) : 8 * (o.width / 8) = o.width := by cases o <;> rfl

theorem upd_range_traps (c : Ctl) (h : HReg) (o : SReg) (v : SImm) : FirstTraps (.upd c h o v) .updRange
    fun m s x => ∃ r g, Bound m s h r g ∧ PastRegion (s.core m) o g ∧ x = (s.core m).rs o := by
  refine firstTraps_of_trap (fun _ => rfl) ?_
  rintro m s x ⟨r, g, hb, hpast, rfl⟩
  have hp : g.past (0, ((s.core m).rs o).toNat, (v.val (s.core m)).toNat) = true := past_iff.mpr hpast
  refine (emission_past hb (List.find?_cons_of_pos hp)).trans ?_
  simp only [BitVec.ofNat_toNat, BitVec.setWidth_eq]

theorem upd_emits (c : Ctl) (h : HReg) (o : SReg) (v : SImm) : Emits (.upd c h o v) h
    (fun m s r g => let q := s.core m
      [⟨g.ctx, r, g.base + (q.rs o).toNat * (g.op.width / 8), m, 0, BitVec.ofNat 64 ((v.val q).toNat % 2 ^ g.op.width), 0⟩])
    fun m s g => ¬ PastRegion (s.core m) o g := by
  refine emits_of_emission (fun m s _ => [(0, ((s.core m).rs o).toNat, (v.val (s.core m)).toNat)])
    (fun _ _ _ o => BitVec.ofNat 64 o) (fun _ => rfl) (fun _ _ _ _ _ => rfl) ?_ ?_
  · intro m s g hin
    exact List.find?_eq_none.mpr fun p hp => by
      rw [List.mem_singleton.mp hp]
      exact fun ht => hin (past_iff.mp ht)
  · intro m s r g
    simp only [List.map_singleton, Region.pair, width_bytes]

/-- The elements that UPDV takes of a core: those of the region's width that its mask enables. -/
def Core.updElems (q : Core) (k : KOpt) (g : Region) : List Nat :=
  (List.range (if g.op.width = 64 then q.vbits / 64 else q.vbits / 32)).filter fun e => q.enabled k 32 e

/-- An element's offset lies inside the region. -/
def Core.updFits (q : Core) (o : VReg) (g : Region) (e : Nat) : Bool := decide (elem 32 (q.rv o) e < g.len / (g.op.width / 8))

/-- An element's place, offset and value. -/
def Core.updTriple (q : Core) (o v : VReg) (g : Region) (e : Nat) : Nat × Nat × Nat :=
  (e, elem 32 (q.rv o) e, elem g.op.width (q.rv v) e)

theorem past_updTriple (q : Core) (o v : VReg) (g : Region) (e : Nat) : g.past (q.updTriple o v g e) = !q.updFits o g e := by
  rw [Region.past, Core.updFits, ← decide_not]
  exact decide_eq_decide.mpr Nat.not_lt.symm

/-- UPDV's effect on one member. -/
theorem updv_body (c : Ctl) (h : HReg) (o v : VReg) (k : KOpt) : ∃ body : CoreId → State → Res,
    (∀ s, exec (.updv c h o v k) s = runWord (.updv c h o v k) s body) ∧ ∀ m s r g, Bound m s h r g →
      body m s = s.emission m h (((s.core m).updElems k g).map ((s.core m).updTriple o v g))
        fun e o => BitVec.ofNat 64 (e * 2 ^ 32 + o) := by
  refine ⟨_, fun _ => rfl, ?_⟩
  rintro m s r g ⟨-, hregion, hg⟩
  simp only [hregion, Option.bind_some, hg, Option.map_some, Option.getD_some]
  rfl

theorem updv_range_traps (c : Ctl) (h : HReg) (o v : VReg) (k : KOpt) : FirstTraps (.updv c h o v k) .updRange
    fun m s x => let q := s.core m
      ∃ r g e l, Bound m s h r g ∧ (q.updElems k g).dropWhile (q.updFits o g) = e :: l ∧
        x = BitVec.ofNat 64 (e * 2 ^ 32 + elem 32 (q.rv o) e) := by
  obtain ⟨body, hx, hbody⟩ := updv_body c h o v k
  refine firstTraps_of_trap hx ?_
  rintro m s x ⟨r, g, e, l, hb, hdrop, rfl⟩
  refine (hbody m s r g hb).trans (emission_past (p := (s.core m).updTriple o v g e) hb ?_)
  have hnot : (fun e => !(g.past ∘ (s.core m).updTriple o v g) e) = (s.core m).updFits o g := by
    funext e
    rw [Function.comp_apply, past_updTriple, Bool.not_not]
  rw [List.find?_map, List.find?_eq_head?_dropWhile_not, hnot, hdrop]
  rfl

theorem updv_emits (c : Ctl) (h : HReg) (o v : VReg) (k : KOpt) : Emits (.updv c h o v k) h
    (fun m s r g => let q := s.core m
      (q.updElems k g).map fun e => ⟨g.ctx, r, g.base + elem 32 (q.rv o) e * (g.op.width / 8), m, 0,
        BitVec.ofNat 64 (elem g.op.width (q.rv v) e % 2 ^ (8 * (g.op.width / 8))), 0⟩)
    fun m s g => ∀ e ∈ (s.core m).updElems k g, (s.core m).updFits o g e = true := by
  obtain ⟨body, hx, hbody⟩ := updv_body c h o v k
  refine emits_of_emission (fun m s g => ((s.core m).updElems k g).map ((s.core m).updTriple o v g))
    (fun _ _ e o => BitVec.ofNat 64 (e * 2 ^ 32 + o)) hx hbody ?_ ?_
  · intro m s g hin
    refine List.find?_eq_none.mpr fun p hp => ?_
    obtain ⟨e, he, rfl⟩ := List.mem_map.mp hp
    rw [past_updTriple, hin e he]
    decide
  · intro m s r g
    rw [List.map_map]
    rfl

/-! ## UFLSH and UQRY -/

theorem withRegion_bound {m : CoreId} {s : State} {h : HReg} {r : Nat} {g : Region} (hb : Bound m s h r g)
    (go : Nat → Region → Res) : s.withRegion m h go = go r g := by
  obtain ⟨hst, hregion, hg⟩ := hb
  simp only [State.withRegion, hst, hregion, hg]

theorem uflsh_issues (c : Ctl) (d : SReg) (h : HReg) : InTurns (.uflsh c d h) fun m s t =>
    ∃ r g, Bound m s h r g ∧ t = s.tagged m .up (.flush r s.pairsOut) d id := by
  refine inTurns_of_done (fun _ => rfl) ?_
  rintro m s t ⟨r, g, hb, rfl⟩
  exact withRegion_bound hb _

theorem uqry_reads (c : Ctl) (d : SReg) (h : HReg) : InTurns (.uqry c d h) fun m s t =>
    ∃ r g, Bound m s h r g ∧ t = s.modCore m fun q => q.ws d (s.regionWord r g) := by
  refine inTurns_of_done (fun _ => rfl) ?_
  rintro m s t ⟨r, g, hb, rfl⟩
  exact withRegion_bound hb _

/-! ## The obligation -/

/-- Settles O42: a clause for each word, each from the word's own lemmas. -/
theorem copiesGathersAndUpdates : Obligations.CopiesGathersAndUpdates := by
  unfold Obligations.CopiesGathersAndUpdates
  refine ⟨?_, ?_, ?_, gmsk_moves, ?_, ?_, ?_, ?_⟩
  · intro c d a b len
    exact ⟨cpy_length_traps c d a b len, cpy_output_traps c d a b len, cpy_range_traps c d a b len, cpy_waits c d a b len,
      cpy_issues c d a b len⟩
  · intro c d h b v r
    exact ⟨gth_traps c d h b v r, gth_waits c d h b v r, gth_issues c d h b v r⟩
  · intro c d h b v r
    exact ⟨gthm_traps c d h b v r, gthm_issues c d h b v r⟩
  · intro c h base len op
    exact ⟨ureg_handle_traps c h base len op, ureg_field_traps c h base len op, ureg_base_traps c h base len op,
      ureg_range_traps c h base len op, ureg_overlap_traps c h base len op, ureg_waits c h base len op,
      ureg_registers c h base len op, fun s f o ha hf hst hr hd t => ureg_rebinds c h base len op ha hf hst hr hd,
      fun s f o ha hf => ureg_registers_new c h base len op ha hf⟩
  · intro c h o v
    exact ⟨upd_range_traps c h o v, upd_emits c h o v⟩
  · intro c h o v k
    exact ⟨updv_range_traps c h o v k, updv_emits c h o v k⟩
  · intro c d h
    exact ⟨uflsh_issues c d h, uqry_reads c d h⟩

end Sys2Proof.Machine

/-! Proofs of O14 and O16: words that read a control register, the time or a counter. -/
namespace Sys2Proof.Machine

/-! ## Words that change each core by itself (R226) -/

/-- Members that each change by themselves can take a word in turn, and each changes as it stood before the word. -/
theorem exists_turns {f : Fields} {base : State} {act : CoreId → State → State → Prop} {g : CoreId → Core → Core}
    (hact : ∀ m (s : State), s = { base with cores := s.cores } → s.core m = base.core m → act m s (s.modCore m (g m)))
    {l : List CoreId} (hl : l.Nodup) (hr : ∀ m ∈ l, (base.core m).Ready f) :
    ∀ s : State, s = { base with cores := s.cores } → (∀ m ∈ l, s.core m = base.core m) →
      ∃ t, State.Turns f act l s t ∧ t = { base with cores := t.cores } ∧
        (∀ m ∈ l, t.core m = if f.ctl.guards (base.core m) then g m (base.core m) else base.core m) ∧
        ∀ c, c ∉ l → t.core c = s.core c := by
  induction l with
  | nil => exact fun s hs _ => ⟨s, rfl, hs, by simp, fun _ _ => rfl⟩
  | cons a l ih =>
    intro s hs hc
    obtain ⟨hal, hnd⟩ := List.nodup_cons.mp hl
    have ha : s.core a = base.core a := hc a List.mem_cons_self
    have hra : (s.core a).Ready f := ha ▸ hr a List.mem_cons_self
    let u : State := if f.ctl.guards (s.core a) = true then s.modCore a (g a) else s
    have hu : u = { base with cores := u.cores } := by
      simp only [u]
      split
      · rw [hs]; rfl
      · exact hs
    have hua : u.core a = if f.ctl.guards (base.core a) then g a (base.core a) else base.core a := by
      by_cases hg : f.ctl.guards (s.core a) = true <;> simp [u, hg, ← ha]
    have huo : ∀ c, c ≠ a → u.core c = s.core c := fun c hca => by
      by_cases hg : f.ctl.guards (s.core a) = true <;> simp [u, hg, State.core_modCore_other _ hca]
    obtain ⟨t, ht, hbase, hin, hout⟩ := ih hnd (fun m hm => hr m (List.mem_cons_of_mem _ hm)) u hu fun m hm =>
      (huo m fun e => hal (e ▸ hm)).trans (hc m (List.mem_cons_of_mem _ hm))
    refine ⟨t, ⟨hra.settled, hra.legal, u, ?_, ht⟩, hbase, ?_, ?_⟩
    · split
      next hg => simpa only [u, if_pos hg] using hact a s hs ha
      next hg => exact if_neg hg
    · intro m hm
      rcases List.mem_cons.mp hm with rfl | hm
      · rw [hout m hal, hua]
      · exact hin m hm
    · intro c hc'
      obtain ⟨hca, hcl⟩ := not_or.mp (List.mem_cons.not.mp hc')
      rw [hout c hcl, huo c hca]

/-- A word whose effect is on each core alone, and may depend on which core it is. -/
theorem runWord_own {i : Instr} {f : Fields} {s : State} {body : CoreId → State → Res} {g : CoreId → Core → Core}
    (hx : ∀ s, exec i s = runWord i s body) (hf : i.fields = some f) (h : s.Ready f)
    (hb : ∀ m (u : State), u = { s with cores := u.cores } → u.core m = s.core m → body m u = .done (u.modCore m (g m))) :
    ∃ t, exec i s = .next t ∧ t = { s with cores := t.cores } ∧
      (∀ m ∈ s.convoyOf s.cur, t.core m = (if f.ctl.guards (s.core m) then g m (s.core m) else s.core m).passed f) ∧
      ∀ c, c ∉ s.convoyOf s.cur → t.core c = s.core c := by
  have hn := convoyOf_nodup s s.cur
  obtain ⟨t, ht, hbase, hin, hout⟩ := exists_turns (act := fun m u v => body m u = .done v) hb hn h.each s rfl fun _ _ => rfl
  obtain ⟨hgo, hpassed, hrest⟩ := goOn_all t t _ hn f id rfl (fun _ _ => rfl) fun _ _ => rfl
  refine ⟨_, inTurns_of_done hx (fun _ _ _ hd => hd) s t f hf h ht, ?_, ?_, ?_⟩
  · rw [hgo, hbase]
  · intro m hm
    rw [hpassed m hm, id, hin m hm]
  · intro c hc
    rw [hrest c hc, hout c hc]

/-! ## CRR (R189, R190) -/

/-- What a control register reads as depends on its core and on what no core holds. -/
theorem readCr_congr {s u : State} {m : CoreId} (hu : u = { s with cores := u.cores }) (hm : u.core m = s.core m) (cr : CReg) :
    u.readCr m cr = s.readCr m cr := by
  rw [hu] at hm ⊢
  unfold State.readCr
  rw [hm]
  rfl

/-- Settles O14: each core reads its own register. -/
theorem controlRegistersRead : Obligations.ControlRegistersRead := by
  unfold Obligations.ControlRegistersRead
  intro s f c d cr hf h
  obtain ⟨t, hx, ht, hin, hout⟩ := runWord_own (i := .crr c d cr) (g := fun m q => q.ws d (s.readCr m cr)) (fun _ => rfl) hf h
    fun m u hu hm => by rw [readCr_congr hu hm]
  refine ⟨t, hx, ht, fun m hm => ?_, hout⟩
  rw [hin m hm]
  cases cr
  case droopCfg => rfl
  all_goals simp [State.readCr, tileOf, clusterOf, dieOf]

/-! ## Time, counters and random numbers (R191 to R195) -/

theorem leader_alone {s : State} (h : (s.core s.cur).convoy = false) : s.leader = s.cur := by
  rw [State.leader, convoyOf_alone s s.cur h, List.headD_cons]

/-- A word that traps on a lone core. -/
theorem runWord_trapsAs {i : Instr} {f : Fields} {s : State} {body : CoreId → State → Res} {cause : Cause} {info : Word}
    (hf : i.fields = some f) (h : s.Alone f) (hx : exec i s = runWord i s body) (hb : body s.cur s = .trap cause info) :
    s.TrapsAs i cause info := by
  obtain ⟨-, -, htrap, -⟩ := runWord_alone hf h hx
  rw [State.TrapsAs, leader_alone h.lone, convoyOf_alone s s.cur h.lone]
  exact htrap _ _ hb

/-- Settles O16: the words read what the statement names; ECCFG's value has 17 bits or more. -/
theorem timeCountersAndRandomNumbers : Obligations.TimeCountersAndRandomNumbers := by
  unfold Obligations.TimeCountersAndRandomNumbers
  refine ⟨fun s f c d hf h => ?tstamp, fun c d => runCore_each fun _ => rfl, fun c d n => runCore_each fun _ => rfl,
    fun c d k x => runCore_each fun _ => rfl, fun s f ha c n src hf => ⟨fun hv => ?counts, fun hv => ?tooWide⟩⟩
  case tstamp =>
    exact runWord_each hf h (fun m _ _ u hu _ => by rw [hu]) rfl
  case counts =>
    exact (runWord_alone (i := .eccfg c n src) hf ha rfl).1 _ (if_neg (by simpa using hv))
  case tooWide =>
    exact runWord_trapsAs (i := .eccfg c n src) hf ha rfl (if_pos (by simpa using Nat.div_pos hv (by decide)))

end Sys2Proof.Machine

/-! Proof of O19: CONVOY and TLBI (R198, R199, R308). -/
namespace Sys2Proof.Machine

theorem runLeaderWord_trapsAs {i : Instr} {f : Fields} {s : State} {body : List CoreId → State → Res} {cause : Cause} {info : Word}
    (hf : i.fields = some f) (h : s.Led f) (hx : exec i s = runLeaderWord i s body)
    (hb : body (s.convoyOf s.cur) s = .trap cause info) : s.TrapsAs i cause info :=
  (runLeaderWord_led hf h hx).2.2.1 cause info hb

/-! ## CONVOY (R198, R226) -/

theorem convoyOff_does {s : State} {f : Fields} {c : Ctl} (h : s.Led f) (hf : Instr.fields (.convoy c .off) = some f) :
    ((s.core s.leader).convoy = true → s.AllDo (.convoy c .off) f fun x => { x with convoy := false, rejoin := none }) ∧
    ((s.core s.leader).convoy = false → s.AllDo (.convoy c .off) f id) := by
  constructor
  · intro hc
    refine runLeaderWord_changes hf h rfl ?_ (membersChange_foldl (convoyOf_nodup s s.cur) _ s)
    rw [headD_convoyOf_cur]
    exact congrArg Res.done (if_pos hc)
  · intro hc
    refine runLeaderWord_changes hf h rfl ?_ (membersChange_refl s _)
    rw [headD_convoyOf_cur]
    exact congrArg Res.done (if_neg (by simp [hc]))

/-- CONVOY on at a barrier that its convoy has not itself arrived at. -/
theorem convoyOn_faults {s : State} {f : Fields} {c : Ctl} {b : BitVec 7} (h : s.Led f)
    (hf : Instr.fields (.convoy c (.on b)) = some f) (hc : (s.core s.leader).convoy = true)
    (hst : ((s.core s.leader).bar b.toNat).st = .idle) :
    s.TrapsAs (.convoy c (.on b)) .barrierFault (if memOn ((s.core s.leader).bar b.toNat).mem then 3 else 5) := by
  refine runLeaderWord_trapsAs hf h rfl ?_
  rw [headD_convoyOf_cur]
  exact (if_pos hc).trans (if_neg (by simp [hst]))

theorem convoyOn_goesOn {s : State} {f : Fields} {c : Ctl} {b : BitVec 7} (h : s.Led f)
    (hf : Instr.fields (.convoy c (.on b)) = some f) (hc : (s.core s.leader).convoy = true)
    (hst : ((s.core s.leader).bar b.toNat).st = .done) (hmark : ((s.core s.leader).bar b.toNat).mark = some (s.core s.leader).pc)
    (harr : ((s.core s.leader).bar b.toNat).arr = some .convoy) :
    exec (.convoy c (.on b)) s = .next (((s.convoyOf s.cur).foldl (fun s m => s.leaveBarrier m b.toNat) s).goOn
      (s.convoyOf s.cur) f) := by
  refine (runLeaderWord_led hf h rfl).1 _ ?_
  rw [headD_convoyOf_cur]
  exact (if_pos hc).trans (if_pos (by simp [hst, hmark, harr]))

/-! ## TLBI (R199, R308) -/

theorem SMap.get_mapVals {α : Type} (m : SMap α) (f : Nat → α → α) (k : Nat) {d : α} (hd : f k d = d) :
    SMap.get (SMap.mapVals m f) k d = f k (SMap.get m k d) := by
  simp only [SMap.get, SMap.find_mapVals]
  cases SMap.find m k with
  | none => exact hd.symm
  | some x => rfl

theorem core_tlbDropAll (s : State) (reach : CoreId → Bool) (p : TlbEntry → Bool) (w : WalkEntry → Bool) (k : CoreId) :
    (s.tlbDropAll reach p w).core k =
      if reach k then { s.core k with utlb := (s.core k).utlb.filter fun e => !p e } else s.core k :=
  SMap.get_mapVals s.cores _ k (by split <;> rfl)

theorem cluster_tlbDropAll (s : State) (reach : CoreId → Bool) (p : TlbEntry → Bool) (w : WalkEntry → Bool) (k : Nat) :
    (s.tlbDropAll reach p w).cluster k =
      if reach (8 * k) then { s.cluster k with tlb := (s.cluster k).tlb.filter fun e => !p e } else s.cluster k :=
  SMap.get_mapVals s.clusters _ k (by split <;> rfl)

/-- What a TLBI by page or context drops, by the test of a translation. -/
theorem TlbEntry.dropped_eq (e : TlbEntry) {mode : TlbiMode} (hm : mode ≠ .stable) (ctx va : Nat) :
    e.dropped mode ctx va = (e.ctx == ctx && (mode == .context || (decide (e.va ≤ va) && decide (va < e.va + e.size)))) := by
  cases mode with
  | page => rfl
  | context => rfl
  | stable => exact absurd rfl hm

theorem tlbi_drops {s u : State} {f : Fields} {c : Ctl} {mode : TlbiMode} {a : SReg} {r : TlbiScope} (h : s.Alone f)
    (hf : Instr.fields (.tlbi c mode a r) = some f) (hp : (s.core s.cur).priv = true)
    (hu : s.fenceSteps s.cur { pred := 0x02, succ := 0x03, scope := tlbiFence r, upto := (s.core s.cur).issue } = some u) :
    ∃ t, s.Does (.tlbi c mode a r) f t ∧ (mode ≠ .stable → ∃ w, t = u.tlbDropAll (tlbiReach r s.cur)
      (fun e => e.dropped mode (s.core s.cur).ctxNum ((s.core s.cur).rs a).toNat) w) := by
  have hsteps : s.fenceSteps s.cur
      { pred := clsGs, succ := clsGl ||| clsGs, scope := tlbiFence r, upto := (s.core s.cur).issue } = some u := hu
  refine ⟨_, runPriv_alone hf h hp rfl (by simp only [hsteps]; rfl), fun hm => ?_⟩
  have hs : (mode == .stable) = false := by simpa using hm
  simp only [hs, Bool.false_or, Bool.false_and, Bool.or_false, Bool.false_eq_true, if_false]
  exact ⟨_, rfl⟩

/-- Settles O19. -/
theorem convoysAndTranslationInvalidation : Obligations.ConvoysAndTranslationInvalidation := by
  unfold Obligations.ConvoysAndTranslationInvalidation
  refine ⟨fun s f c h hf => convoyOff_does h hf, fun s f c b h hf hc hst => ?fault, fun s f c b h hf hc hst hmark harr =>
    convoyOn_goesOn h hf hc hst hmark harr, fun s f c mode a r u h hf hp hu => ?tlbi⟩
  case fault =>
    have htrap := convoyOn_faults h hf hc hst
    exact ⟨fun hm => by rwa [if_pos hm] at htrap, fun hm => by rwa [if_neg (by simp [hm])] at htrap⟩
  case tlbi =>
    obtain ⟨t, ht, hdrop⟩ := tlbi_drops h hf hp hu
    refine ⟨t, ht, fun hm => ?_⟩
    obtain ⟨w, rfl⟩ := hdrop hm
    refine ⟨rfl, rfl, fun k => ?_, fun k => ?_⟩
    · rw [core_tlbDropAll]
      split <;> simp only [TlbEntry.dropped_eq _ hm]
    · rw [cluster_tlbDropAll]
      split <;> simp only [TlbEntry.dropped_eq _ hm]

end Sys2Proof.Machine

/-! Proof of O15: what CRW, CRSET and CRCLR write (R189, R190, R121, R231, R380, R382, R386). A write changes the one field
that its register shows, of the core or of its tile. -/
namespace Sys2Proof.Machine

theorem wakeIfPending (q : Core) : ∃ w, (if q.uiPending then q.wakeFor 1 else q) = { q with wakes := w } := by
  split
  · exact ⟨_, rfl⟩
  · exact ⟨_, rfl⟩

/-- A write of UI_EN beside it only wakes (R81). -/
theorem writeCr_uiEn (s : State) (c : CoreId) (v : Word) : ∃ w, s.writeCr c .uiEn v =
    s.modCore c fun q => { q with ui := { q.ui with en := v.setWidth 5 }, wakes := w } := by
  obtain ⟨w, hw⟩ := wakeIfPending { s.core c with ui := { (s.core c).ui with en := v.setWidth 5 } }
  exact ⟨w, congrArg (s.setCore c) hw⟩

/-! ## The other registers -/

theorem readCr_writeCr_other {s : State} {c : CoreId} {cr r : CReg} {v : Word} (h : r ≠ cr) (hb : cr = .tbCfg → r ≠ .tbBal) :
    (s.writeCr c cr v).readCr c r = s.readCr c r := by
  by_cases hui : cr = .uiEn
  · obtain ⟨w, hw⟩ := writeCr_uiEn s c v
    rw [hui] at h ⊢
    rw [hw]
    simp only [State.readCr, State.core_modCore_same]
    cases r <;> simp at h <;> rfl
  have index {n : Nat} {a b : BitVec n} (hab : a ≠ b) : a.toNat ≠ b.toNat := fun e => hab (BitVec.eq_of_toNat_eq e)
  cases cr
  all_goals simp only [State.writeCr, State.readCr, State.core_modCore_same, State.tile_modTile_same]
  case spillBase | spillOvf | uivec | uiPc | uiBlk | uiCause | trapCause | trapPc | trapInfo | trapBlk | trapStatus | fduty
      | droopThr | droopCfg => cases r <;> simp at h <;> rfl
  case uiEn => exact absurd rfl hui
  case tbCfg => cases r <;> simp at h hb <;> rfl
  case ec k => cases r with
    | ec j => simp only [SMap.get_set_other _ (index fun e => h (congrArg CReg.ec e))]
    | _ => rfl
  case ecsel k => cases r with
    | ecsel j => simp only [SMap.get_set_other _ (index fun e => h (congrArg CReg.ecsel e))]
    | _ => rfl
  case rgPath k => cases r with
    | rgPath j => simp only [SMap.get_set_other _ (index fun e => h (congrArg CReg.rgPath e))]
    | _ => rfl
  case member k => cases r with
    | member j => simp only [Core.setMember, Core.setBar, Core.bar, SMap.get_set_other _ (index fun e => h (congrArg CReg.member e))]
    | _ => rfl

/-- What a write of a control register leaves of the rest of the machine. -/
theorem writeCr_frame (s : State) (c : CoreId) (cr : CReg) (v : Word) : let u := s.writeCr c cr v
    u.mem = s.mem ∧ (∀ t, (u.tile t).lm = (s.tile t).lm) ∧ (∀ m, m ≠ c → u.core m = s.core m) ∧ (u.core c).s = (s.core c).s := by
  have tile_lm (g : Tile → Tile) (hg : ∀ t, (g t).lm = t.lm) (t : Nat) : ((s.modTile (tileOf c) g).tile t).lm = (s.tile t).lm := by
    by_cases ht : t = tileOf c
    · rw [ht, State.tile_modTile_same, hg]
    · rw [State.modTile, State.tile_setTile_other s ht]
  have core_only (g : Core → Core) (hg : (g (s.core c)).s = (s.core c).s) : let u := s.modCore c g
      u.mem = s.mem ∧ (∀ t, (u.tile t).lm = (s.tile t).lm) ∧ (∀ m, m ≠ c → u.core m = s.core m) ∧ (u.core c).s = (s.core c).s :=
    ⟨rfl, fun _ => rfl, fun m hm => State.core_modCore_other s hm _, by rw [State.core_modCore_same, hg]⟩
  cases cr
  case uiEn =>
    obtain ⟨w, hw⟩ := writeCr_uiEn s c v
    rw [hw]
    exact core_only _ rfl
  case droopThr | droopCfg | tbCfg => exact ⟨rfl, tile_lm _ fun _ => rfl, fun _ _ => rfl, rfl⟩
  case spillBase | spillOvf | uivec | uiPc | uiBlk | uiCause | trapCause | trapPc | trapInfo | trapBlk | trapStatus | fduty
      | ec | ecsel | rgPath | member => exact core_only _ rfl
  all_goals exact ⟨rfl, fun _ => rfl, fun _ _ => rfl, rfl⟩

/-! ## The register written -/

/-- What a control register of a core reads as behind a write of `v`, where it read `old`; none when the write is refused or
the register is read-only. -/
def Core.crAfter (q : Core) (cr : CReg) (old v : Word) : Option Word :=
  match cr with
  | .spillBase | .uivec | .uiPc | .uiBlk | .trapCause | .trapPc | .trapInfo | .trapBlk | .rgPath _ => some v
  | .spillOvf => some (v - BitVec.ofNat 64 (v.toNat % 128))
  | .uiEn => some (v &&& 0x1F)
  | .uiCause => some (old &&& ~~~v)
  | .trapStatus => some (v &&& 0xFF07)
  | .fduty => some (BitVec.ofNat 64 (max 1 (min 16 (v.toNat % 32)) + v.toNat / 2 ^ 8 % 8 * 2 ^ 8))
  | .droopThr => some (v &&& 0xFF)
  | .droopCfg => some (v &&& 1)
  | .tbCfg => some (BitVec.ofNat 64 (max 1 (v.toNat % 256) + v.toNat / 2 ^ 16 % 2 ^ 16 * 2 ^ 16))
  | .ec _ => some (v &&& 0xFFFFFFFFFFFF)
  | .ecsel _ => some (v &&& 0x1FFFF)
  | .member b =>
    if b.toNat < q.grants.barriers ∧ v.toNat < 2 ^ 16 ∧ v.toNat / 2 ^ 8 % 16 = 0 ∧ (q.bar b.toNat).st = .idle ∧
      (v.getLsbD 15 = true → 1 ≤ v.toNat / 2 ^ 12 % 8 ∧ v.toNat / 2 ^ 12 % 8 ≤ 5) then some v else none
  | .coreId | .tileId | .clusterId | .dieId | .pkgId | .ctxGen | .status | .tbBal | .tl _ | .lastHostSeq
  | .lastDevSeq => none

theorem setWidth_setWidth_and (v : Word) {n : Nat} (hn : n ≤ 64) :
    (v.setWidth n).setWidth 64 = v &&& BitVec.ofNat 64 (2 ^ n - 1) := by
  apply BitVec.eq_of_toNat_eq
  have h1 : v.toNat % 2 ^ n < 2 ^ 64 := lt_of_le_of_lt (Nat.mod_le _ _) v.isLt
  have h2 : 2 ^ n - 1 < 2 ^ 64 := lt_of_lt_of_le (Nat.sub_lt (Nat.two_pow_pos n) one_pos) (Nat.pow_le_pow_right two_pos hn)
  rw [BitVec.toNat_setWidth, BitVec.toNat_setWidth, BitVec.toNat_and, BitVec.toNat_ofNat, Nat.mod_eq_of_lt h1, Nat.mod_eq_of_lt h2,
    Nat.and_two_pow_sub_one_eq_mod]

theorem ofNat_alignDown (v : Word) : BitVec.ofNat 64 (alignDown v.toNat 128) = v - BitVec.ofNat 64 (v.toNat % 128) := by
  have hv := v.isLt
  apply BitVec.eq_of_toNat_eq
  simp only [alignDown, BitVec.toNat_ofNat, BitVec.toNat_sub]
  omega

theorem and_one_eq (v : Word) : v &&& 1 = BitVec.ofNat 64 (if v.getLsbD 0 then 1 else 0) := by
  apply BitVec.eq_of_toNat_eq
  rw [BitVec.toNat_and, BitVec.toNat_ofNat, show (1 : Word).toNat = 1 from rfl, Nat.and_one_is_mod, BitVec.getLsbD,
    Nat.testBit_zero]
  rcases Nat.mod_two_eq_zero_or_one v.toNat with h | h <;> simp [h]

theorem dutyOf_toNat (n : Nat) : (dutyOf n).toNat = max 1 (min 16 (n % 32)) := by
  rw [dutyOf, BitVec.toNat_ofNat]
  omega

/-- FILL as stored: at least 1 (R382). -/
theorem fillOf_toNat (v : Word) :
    (if v.setWidth 8 = (0 : BitVec 8) then (1 : BitVec 8) else v.setWidth 8).toNat = max 1 (v.toNat % 256) := by
  have hv : (v.setWidth 8).toNat = v.toNat % 256 := BitVec.toNat_setWidth 8 v
  split
  next h => rw [← hv, h]; rfl
  next h =>
    have hne : v.toNat % 256 ≠ 0 := fun e => h (BitVec.eq_of_toNat_eq (by rw [hv, e]; rfl))
    omega

/-- A write of a membership that passes the checks of BARM (R121). -/
theorem memberFault_none {q : Core} {b : Nat} {v : Word} (hb : b < q.grants.barriers) (hlt : v.toNat < 2 ^ 16)
    (h8 : v.toNat / 2 ^ 8 % 16 = 0) (hst : (q.bar b).st = .idle)
    (hlevel : v.getLsbD 15 = true → 1 ≤ v.toNat / 2 ^ 12 % 8 ∧ v.toNat / 2 ^ 12 % 8 ≤ 5) : q.memberFault b v = none := by
  have hlevel' : (v.getLsbD 15 && (bitsOf v.toNat 12 3 == 0 || decide (5 < bitsOf v.toNat 12 3))) = false := by
    cases h15 : v.getLsbD 15 with
    | false => rfl
    | true =>
      obtain ⟨hlo, hhi⟩ := hlevel h15
      have hbits : bitsOf v.toNat 12 3 = v.toNat / 2 ^ 12 % 8 := rfl
      simp only [hbits, Bool.true_and, Bool.or_eq_false_iff, beq_eq_false_iff_ne, decide_eq_false_iff_not]
      omega
  have hbits : bitsOf v.toNat 8 4 = 0 := h8
  rw [Core.memberFault, if_neg (Nat.not_le.mpr hb), hbits, hlevel', hst, Nat.div_eq_of_lt hlt]
  rfl

theorem readCr_writeCr_same {s : State} {c : CoreId} {cr : CReg} {v x : Word}
    (h : (s.core c).crAfter cr (s.readCr c cr) v = some x) : (s.writeCr c cr v).readCr c cr = x := by
  cases cr
  case uiEn =>
    obtain ⟨w, hw⟩ := writeCr_uiEn s c v
    simp only [Core.crAfter, Option.some.injEq] at h
    rw [hw, ← h]
    simp only [State.readCr, State.core_modCore_same]
    exact setWidth_setWidth_and v (n := 5) (by decide)
  all_goals simp only [Core.crAfter, Option.some.injEq, reduceCtorEq, State.writeCr, State.readCr, State.core_modCore_same,
    State.tile_modTile_same] at h ⊢
  case spillBase | uivec | uiPc | uiBlk | trapCause | trapPc | trapInfo | trapBlk | trapStatus => exact h
  case rgPath => rw [SMap.get_set_same, h]
  case droopThr =>  exact (setWidth_setWidth_and v (n := 8) (by decide)).trans h
  case ec => rw [SMap.get_set_same]; exact (setWidth_setWidth_and v (n := 48) (by decide)).trans h
  case ecsel => rw [SMap.get_set_same]; exact (setWidth_setWidth_and v (n := 17) (by decide)).trans h
  case uiCause =>
    rw [← h]
    apply BitVec.eq_of_getLsbD_eq
    intro i hi
    by_cases h5 : i < 5
    · simp [hi, h5]
    · have hc : (s.core c).ui.cause.getLsbD i = false := BitVec.getLsbD_of_ge _ _ (Nat.not_lt.mp h5)
      simp [hi, hc]
  case spillOvf => exact (ofNat_alignDown v).trans h
  case fduty => rw [← h, dutyOf_toNat, BitVec.extractLsb'_toNat, Nat.shiftRight_eq_div_pow]; rfl
  case droopCfg =>
    rw [← h, and_one_eq]
    exact congrArg (BitVec.ofNat 64) (by simp [Tile.droopCfg])
  case tbCfg => rw [← h, fillOf_toNat, BitVec.extractLsb'_toNat, Nat.shiftRight_eq_div_pow]; rfl
  case member b =>
    split at h
    next hok =>
      obtain ⟨-, hlt, -⟩ := hok
      rw [← Option.some.inj h, Core.setMember, Core.bar_setBar_same]
      refine BitVec.eq_of_toNat_eq ?_
      rw [BitVec.toNat_setWidth, BitVec.toNat_setWidth, Nat.mod_eq_of_lt hlt, Nat.mod_eq_of_lt v.isLt]
    next => cases h

/-! ## The words -/

/-- A write that is not refused is made, and then what the word does behind it. -/
theorem crWrite_done {s : State} {c : CoreId} {cr : CReg} {old v x : Word} (h : (s.core c).crAfter cr old v = some x)
    (k : State → State) : s.crWrite c cr v k = .done (k (s.writeCr c cr v)) := by
  cases cr
  case member b =>
    simp only [Core.crAfter] at h
    split at h
    next hok =>
      obtain ⟨hb, hlt, h8, hst, hlevel⟩ := hok
      simp only [State.crWrite, memberFault_none hb hlt h8 hst hlevel]
    next => cases h
  all_goals rfl

/-- A word that writes a control register completes at the privilege that the register needs (R189). -/
theorem runCr_done {i : Instr} {f : Fields} {s t : State} {cr : CReg} {body : CoreId → State → Res} (hf : i.fields = some f)
    (h : s.Alone f) (hp : cr.supervisor = true → (s.core s.cur).priv = true) (hx : exec i s = runCr i cr s body)
    (hb : body s.cur s = .done t) : s.Does i f t := by
  cases hc : cr.supervisor with
  | true => exact runPriv_alone hf h (hp hc) (hx.trans (by rw [runCr, hc]; rfl)) hb
  | false => exact (runWord_alone hf h (hx.trans (by rw [runCr, hc]; rfl))).1 _ hb

theorem ws_eq (q : Core) (d : SReg) (x : Word) : ∃ l, q.ws d x = { q with s := l } := by
  unfold Core.ws
  split
  · exact ⟨q.s, rfl⟩
  · exact ⟨_, rfl⟩

/-- A general register is no control register. -/
theorem readCr_ws (s : State) (c : CoreId) (d : SReg) (x : Word) (r : CReg) :
    (s.modCore c fun q => q.ws d x).readCr c r = s.readCr c r := by
  obtain ⟨l, hl⟩ := ws_eq (s.core c) d x
  simp only [State.readCr, State.core_modCore_same, hl]
  cases r <;> rfl

theorem rs_ws (q : Core) (d r : SReg) (x : Word) : (q.ws d x).rs r = if r = d ∧ r ≠ 0 then x else q.rs r := by
  split
  next h => rw [h.1, Core.rs_ws_same q (h.1 ▸ h.2)]
  next h =>
    by_cases hd : r = d
    · have h0 : r = 0 := by_contra fun h0 => h ⟨hd, h0⟩
      rw [← hd, h0]
      rfl
    · exact Core.rs_ws_other q hd x

/-- CRSET and CRCLR write what they make of the old value, which goes to `d`. -/
theorem crModify_done {s : State} {c : CoreId} {d : SReg} {cr : CReg} {g : Word → Word} {x : Word} (hcr : cr ≠ .droopCfg)
    (h : (s.core c).crAfter cr (s.readCr c cr) (g (s.readCr c cr)) = some x) :
    s.crModify c d cr g = .done ((s.writeCr c cr (g (s.readCr c cr))).modCore c fun q => q.ws d (s.readCr c cr)) := by
  have hne : (cr == .droopCfg) = false := by simpa using hcr
  rw [State.crModify, crWrite_done h, hne]
  rfl

/-- What CRSET and CRCLR leave behind. -/
theorem crModify_leaves {s : State} {c : CoreId} {d : SReg} {cr : CReg} {v old x : Word}
    (h : (s.core c).crAfter cr (s.readCr c cr) v = some x) : let u := (s.writeCr c cr v).modCore c fun q => q.ws d old
    u.readCr c cr = x ∧ ((∀ r, r ≠ cr → (cr = .tbCfg → r ≠ .tbBal) → u.readCr c r = s.readCr c r) ∧ u.mem = s.mem ∧
      (∀ t, (u.tile t).lm = (s.tile t).lm) ∧ ∀ m, m ≠ c → u.core m = s.core m) ∧
      ∀ r, (u.core c).rs r = if r = d ∧ r ≠ 0 then old else (s.core c).rs r := by
  obtain ⟨hmem, hlm, hcores, hs⟩ := writeCr_frame s c cr v
  refine ⟨?_, ⟨fun r hr hb => ?_, hmem, hlm, fun m hm => ?_⟩, fun r => ?_⟩
  · rw [readCr_ws, readCr_writeCr_same h]
  · rw [readCr_ws, readCr_writeCr_other hr hb]
  · rw [State.core_modCore_other _ hm, hcores m hm]
  · rw [State.core_modCore_same, rs_ws]
    simp only [Core.rs, hs]

/-- Settles O15: `Core.crAfter` is what the statement says a register reads as behind a write. -/
theorem controlRegisterWrites : Obligations.ControlRegisterWrites := by
  unfold Obligations.ControlRegisterWrites
  intro s f ha q n after others
  have hafter (cr : CReg) (old v : Word) : after cr old v = q.crAfter cr old v := by cases cr <;> rfl
  refine ⟨fun c a cr x hf hp hx => ?crw, fun c d a cr x hf hp hcr hx => ?crset, fun c d a cr x hf hp hcr hx => ?crclr⟩
  all_goals rw [hafter] at hx
  case crw =>
    obtain ⟨hmem, hlm, hcores, hs⟩ := writeCr_frame s s.cur cr (a.val q)
    exact ⟨_, runCr_done hf ha hp rfl (crWrite_done hx id), readCr_writeCr_same hx,
      ⟨fun r hr hb => readCr_writeCr_other hr hb, hmem, hlm, hcores⟩, hs⟩
  case crset => exact ⟨_, runCr_done hf ha hp rfl (crModify_done hcr hx), crModify_leaves hx⟩
  case crclr => exact ⟨_, runCr_done hf ha hp rfl (crModify_done hcr hx), crModify_leaves hx⟩

end Sys2Proof.Machine

/-! What a fetch reads and what it leaves (R39, R61, R308): it reads memory and the translations, of the cores and dies only the
caches of its own; its use changes no tile, no queue, and of the cores only its own micro-TLB. -/
namespace Sys2Proof.Machine

/-! ## What a fetch reads -/

/-- The package with other cores and dies. -/
def State.withUnits (s : State) (cores : SMap Core) (dies : SMap Die) : State := { s with cores := cores, dies := dies }
section
variable (s : State) (l : SMap Core) (d : SMap Die)

theorem plainByte_withUnits (pa : Nat) : (s.withUnits l d).plainByte pa = s.plainByte pa := rfl

theorem paByte_withUnits (pa : Nat) : (s.withUnits l d).paByte pa = s.paByte pa := by
  unfold State.paByte
  simp only [plainByte_withUnits]
  rfl

theorem paNum_withUnits (pa n : Nat) : (s.withUnits l d).paNum pa n = s.paNum pa n := by
  simp only [State.paNum, State.paRead, paByte_withUnits]

theorem viewGeom_withUnits (r : Nat) : (s.withUnits l d).viewGeom r = s.viewGeom r := by
  simp only [State.viewGeom, paNum_withUnits]
  rfl

theorem viewBad_withUnits (pk : Nat) : (s.withUnits l d).viewBad pk = s.viewBad pk := by
  simp only [State.viewBad, viewGeom_withUnits]
  rfl

theorem belowByte_withUnits (pk : Nat) : (s.withUnits l d).belowByte pk = s.belowByte pk := by
  have hview : (s.withUnits l d).viewByte pk = s.viewByte pk := by
    have hpend : (s.withUnits l d).viewPend = s.viewPend := rfl
    have hmem : (s.withUnits l d).mem = s.mem := rfl
    simp only [State.viewByte, viewGeom_withUnits, hpend, hmem]
  simp only [State.belowByte, hview, plainByte_withUnits]

theorem homeByte_withUnits (h pk : Nat) : (s.withUnits l d).homeByte h pk = s.homeByte h pk := by
  simp only [State.homeByte, belowByte_withUnits]
  rfl

theorem homeWord_withUnits (h pk : Nat) : (s.withUnits l d).homeWord h pk = s.homeWord h pk := by
  simp only [State.homeWord, homeByte_withUnits]

theorem imageOf_withUnits (x : Launch) : (s.withUnits l d).imageOf x = (s.imageOf x).withUnits l d := rfl

theorem codeWords_withUnits (x : Launch) (h pk : Nat) : (s.withUnits l d).codeWords x h pk = s.codeWords x h pk := by
  simp only [State.codeWords, imageOf_withUnits, homeWord_withUnits]
  rfl

theorem walkBy_withUnits (rd : Nat → Nat) (ctx va : Nat) : (s.withUnits l d).walkBy rd ctx va = s.walkBy rd ctx va := by
  simp only [State.walkBy, State.c64Entry, paNum_withUnits]
  rfl

end

/-- What a core fetches depends on its micro-TLB, its work and its die's walk cache, and on nothing else of cores and dies. -/
theorem fetch_congr {s t : State} {c : CoreId} (priv : Bool) (va : Word) (ht : t = s.withUnits t.cores t.dies)
    (hu : (t.core c).utlb = (s.core c).utlb) (hw : (t.core c).work = (s.core c).work)
    (hd : (t.die (dieOf c)).walks = (s.die (dieOf c)).walks) : t.fetch c priv va = s.fetch c priv va := by
  have hctx : (t.core c).ctxNum = (s.core c).ctxNum := by rw [Core.ctxNum, hw, Core.ctxNum]
  have hlook : ∀ ctx a, t.look c ctx a = s.look c ctx a := fun ctx a => by
    have hentry : t.walkEntry (dieOf c) ctx = s.walkEntry (dieOf c) ctx := by
      funext a
      rw [State.walkEntry, hd, ht, paNum_withUnits]
      rfl
    have hwalk : t.walkIn (dieOf c) ctx a = s.walkIn (dieOf c) ctx a := by
      rw [State.walkIn, hentry, ht, walkBy_withUnits]
      rfl
    simp only [State.look, hu, hwalk, congrArg State.clusters ht, State.cluster]
    rfl
  have hcode : ∀ h pk, t.codeWord c h pk = s.codeWord c h pk := fun h pk => by
    have hword : ∀ h pk, t.homeWord h pk = s.homeWord h pk := fun h pk => by rw [ht, homeWord_withUnits]
    have hwords : ∀ x, t.codeWords x h pk = s.codeWords x h pk := fun x => by rw [ht, codeWords_withUnits]
    have hlaunch : t.launch? = s.launch? := by rw [ht]; rfl
    have htick : t.tick = s.tick := by rw [ht]; rfl
    simp only [State.codeWord, hw, hword, hwords, hlaunch, htick]
  have hbad : ∀ pk, t.viewBad pk = s.viewBad pk := fun pk => by rw [ht, viewBad_withUnits]
  have hpairs : t.sorterPairs = s.sorterPairs := by rw [ht]; rfl
  have hblock : t.inBlockOf = s.inBlockOf := by rw [ht]; rfl
  have hhome : t.homeOf = s.homeOf := by rw [ht]; rfl
  simp only [State.fetch, hctx, hlook, hcode, hbad, hpairs, hblock, hhome]

/-! ## Memory changes no tile, no die and no engine operation -/

/-- Two states have the same tiles, dies and engine operations, and the same handles kept for these. -/
structure State.SameTiles (s t : State) : Prop where
  tiles : t.tiles = s.tiles
  dies : t.dies = s.dies
  ops : t.ops = s.ops
  orphans : t.orphans = s.orphans

namespace State.SameTiles

theorem refl {s : State} : s.SameTiles s := ⟨rfl, rfl, rfl, rfl⟩

theorem trans {s t u : State} (h : s.SameTiles t) (k : t.SameTiles u) : s.SameTiles u :=
  ⟨k.tiles.trans h.tiles, k.dies.trans h.dies, k.ops.trans h.ops, k.orphans.trans h.orphans⟩

theorem of {s t u : State} (k : t.SameTiles u) (h : s.SameTiles t) : s.SameTiles u := h.trans k

theorem foldl {α : Type} {f : State → α → State} (hf : ∀ (s : State) a, s.SameTiles (f s a)) (l : List α) (s : State) :
    s.SameTiles (l.foldl f s) := by
  induction l generalizing s with
  | nil => exact refl
  | cons a l ih => exact (ih _).of (hf s a)

theorem ite {p : Prop} [Decidable p] {s t u : State} (ht : s.SameTiles t) (hu : s.SameTiles u) :
    s.SameTiles (if p then t else u) := by
  split
  · exact ht
  · exact hu

end State.SameTiles

open State (SameTiles)

theorem hbmRecord_tiles (s : State) (base n : Nat) (r : DevRec) : s.SameTiles (s.hbmRecord base n r) := .ite ⟨rfl, rfl, rfl, rfl⟩ .refl

theorem ringRecord_tiles (s : State) (r : DevRec) : s.SameTiles (s.ringRecord r) := ⟨rfl, rfl, rfl, rfl⟩

theorem queueRecord_tiles (s : State) (r : DevRec) : s.SameTiles (s.queueRecord r) :=
  (hbmRecord_tiles { s with backlog := s.backlog ++ [r] } _ _ r).of ⟨rfl, rfl, rfl, rfl⟩

theorem emit_tiles (s : State) (type : Nat) (fields : List (Nat × Nat × Nat)) : s.SameTiles (s.emit type fields) := by
  unfold State.emit
  dsimp only
  split
  · exact (ringRecord_tiles _ _).of ((hbmRecord_tiles _ _ _ _).of ⟨rfl, rfl, rfl, rfl⟩)
  · exact (queueRecord_tiles _ _).of ((hbmRecord_tiles _ _ _ _).of ⟨rfl, rfl, rfl, rfl⟩)

theorem setPoison_tiles (s : State) (line : Nat) (bad : Bool) : s.SameTiles (s.setPoison line bad) :=
  .ite (.ite .refl ⟨rfl, rfl, rfl, rfl⟩) ⟨rfl, rfl, rfl, rfl⟩

theorem keepPast_tiles (s : State) (h line : Nat) : s.SameTiles (s.keepPast h line) := .ite .refl ⟨rfl, rfl, rfl, rfl⟩

theorem tierAccept_tiles {s t : State} {line : Nat} {bytes : List Byte} (h : s.tierAccept line bytes = some t) : s.SameTiles t := by
  unfold State.tierAccept at h
  dsimp only at h
  split at h
  · exact Option.some.inj h ▸ ⟨rfl, rfl, rfl, rfl⟩
  · split at h
    · exact Option.some.inj h ▸ ⟨rfl, rfl, rfl, rfl⟩
    · split at h
      · cases h
      · exact Option.some.inj h ▸ .ite ((emit_tiles _ _ _).of ⟨rfl, rfl, rfl, rfl⟩) ⟨rfl, rfl, rfl, rfl⟩

theorem sliceWrite_tiles {s t : State} {h line : Nat} {drt : Bool} {via : Via} {whole : Bool} {up : List Byte → List Byte}
    (hx : s.sliceWrite h line drt via whole up = some t) : s.SameTiles t := by
  unfold State.sliceWrite State.installLine at hx
  dsimp only at hx
  split at hx
  · obtain ⟨x, -, rfl⟩ := Option.map_eq_some_iff.mp hx
    exact ⟨rfl, rfl, rfl, rfl⟩
  · split at hx
    · split at hx
      · cases hx
      · obtain ⟨x, -, rfl⟩ := Option.map_eq_some_iff.mp hx
        exact .ite ⟨rfl, rfl, rfl, rfl⟩ ⟨rfl, rfl, rfl, rfl⟩
    · exact Option.some.inj hx ▸ .refl

theorem homeWriteNow_tiles {s t : State} {core : Option CoreId} {h : Nat} {cells : Mem} {via : Via}
    (hx : s.homeWriteNow core h cells via = some t) : s.SameTiles t := by
  unfold State.homeWriteNow at hx
  split at hx
  next => exact Option.some.inj hx ▸ .refl
  next pk b r =>
    dsimp only at hx
    have hpast := fun (s : State) => keepPast_tiles s h (pk / 128)
    have hclear := fun (s : State) =>
      (SameTiles.ite (setPoison_tiles (s.keepPast h (pk / 128)) _ _) .refl :
        (s.keepPast h (pk / 128)).SameTiles ((s.keepPast h (pk / 128)).clearPoison (pk / 128) ((pk, b) :: r))).of (hpast s)
    split at hx
    · cases hx
    split at hx
    · exact (sliceWrite_tiles hx).of ((hpast s).trans ⟨rfl, rfl, rfl, rfl⟩)
    split at hx
    case h_1 => exact Option.some.inj hx ▸ (hpast s).trans ⟨rfl, rfl, rfl, rfl⟩
    case h_2 | h_3 =>
      split at hx
      · exact Option.some.inj hx ▸ (hclear s).trans ⟨rfl, rfl, rfl, rfl⟩
      · split at hx
        · cases hx
        · next ht => exact (sliceWrite_tiles hx).of ((tierAccept_tiles ht).of ((hpast _).of (setPoison_tiles _ _ _)))
    case h_4 | h_5 | h_6 =>
      split at hx
      · exact Option.some.inj hx ▸ (hclear s).trans ⟨rfl, rfl, rfl, rfl⟩
      · exact (sliceWrite_tiles hx).of (hclear s)

theorem homeWrite_tiles (s : State) (core : Option CoreId) (h : Nat) (cells : Mem) (via : Via) (job : Option JobRef)
    (mark : Option Bool) : s.SameTiles (s.homeWrite core h cells via job mark) := by
  unfold State.homeWrite
  split
  · exact .refl
  · dsimp only
    split
    · exact ⟨rfl, rfl, rfl, rfl⟩
    · split
      · next hx =>
        refine SameTiles.of ?_ (homeWriteNow_tiles hx)
        cases mark with
        | none => exact .refl
        | some bad => exact setPoison_tiles _ _ bad
      · exact .ite ((emit_tiles _ _ _).of ⟨rfl, rfl, rfl, rfl⟩) ⟨rfl, rfl, rfl, rfl⟩

/-! ## Translations -/

theorem paWrite_tiles (s : State) (pa : Nat) (bytes : List Byte) : s.SameTiles (s.paWrite pa bytes) := by
  refine .foldl (fun s c => ?_) _ s
  cases c with
  | nil => exact .refl
  | cons x c => exact homeWrite_tiles _ _ _ _ _ _ _

theorem modEntry_tiles (s : State) (pte : Nat) (f : Nat → Nat) : s.SameTiles (s.modEntry pte f) := by
  unfold State.modEntry
  exact .ite (paWrite_tiles _ _ _) .refl

theorem assignPage_tiles (s : State) (c : CoreId) (x : Xlat) : s.SameTiles (s.assignPage c x) :=
  .ite (.foldl (fun s _ => modEntry_tiles s _ _) _ s) .refl

theorem touchLeaf_tiles (s : State) (c : CoreId) (write : Bool) (x : Xlat) : s.SameTiles (s.touchLeaf c write x).1 := by
  unfold State.touchLeaf
  dsimp only
  split
  · exact .refl
  · dsimp only
    exact (modEntry_tiles _ _ _).of (assignPage_tiles s c x)

/-- A translation changes of a die its walk cache alone. -/
theorem fillWalks_keeps (s : State) (d ctx va : Nat) : (s.fillWalks d ctx va).tiles = s.tiles ∧
    ∀ k, ((s.fillWalks d ctx va).die k).pq = (s.die k).pq := by
  unfold State.fillWalks
  split
  · exact ⟨rfl, fun _ => rfl⟩
  · refine ⟨rfl, fun k => ?_⟩
    by_cases hk : k = d
    · rw [hk, State.die_modDie_same]
    · simp only [State.die, State.modDie, SMap.get_set_other _ hk]

theorem fillTlbs_core_other (s : State) {c m : CoreId} (h : m ≠ c) (ctx : Nat) (x : Xlat) :
    (s.fillTlbs c ctx x).core m = s.core m := by
  rw [State.fillTlbs, State.fillTlb2, State.modCluster_core, State.core_modCore_other s h]

theorem xlat_keeps (s : State) (c : CoreId) (ctx va : Nat) (write : Bool) : let t := (s.xlat c ctx va write).1
    t.tiles = s.tiles ∧ (∀ k, (t.die k).pq = (s.die k).pq) ∧ ∀ m, m ≠ c → t.core m = s.core m := by
  unfold State.xlat
  split
  · exact ⟨rfl, fun _ => rfl, fun _ _ => rfl⟩
  next x _ =>
    have hwalk (b : Bool) : let u := if b then s else s.fillWalks (dieOf c) ctx va
        u.tiles = s.tiles ∧ (∀ k, (u.die k).pq = (s.die k).pq) ∧ ∀ m, u.core m = s.core m := by
      cases b
      · obtain ⟨htiles, hpq⟩ := fillWalks_keeps s (dieOf c) ctx va
        exact ⟨htiles, hpq, (fillWalks_units s (dieOf c) ctx va).core⟩
      · exact ⟨rfl, fun _ => rfl, fun _ => rfl⟩
    dsimp only
    obtain ⟨htiles, hpq, hcore⟩ :=
      hwalk ((tlbFind (s.core c).utlb ctx va).isSome || (tlbFind (s.cluster (clusterOf c)).tlb ctx va).isSome)
    obtain ⟨hleaf, hdies, -, -⟩ := touchLeaf_tiles _ c write x
    refine ⟨hleaf.trans htiles, fun k => ?_, fun m hm => ?_⟩
    · exact (congrArg (fun l : SMap Die => (l.get k {}).pq) hdies).trans (hpq k)
    · exact (fillTlbs_core_other _ hm ctx _).trans (((touchLeaf_units _ c write x).core m).trans (hcore m))

/-- Using a fetched word changes no tile, no queue of a die, and of the cores only the fetching one's translations. -/
theorem fetchUse_keeps (s : State) (c : CoreId) (va : Word) : let t := s.fetchUse c va
    t.tiles = s.tiles ∧ (∀ k, (t.die k).pq = (s.die k).pq) ∧ (∀ m, m ≠ c → t.core m = s.core m) ∧
      (s.core c).Resolved (t.core c) := by
  obtain ⟨htiles, hpq, hcore⟩ := xlat_keeps s c (s.core c).ctxNum va.toNat false
  exact ⟨htiles, hpq, hcore, xlat_resolved s c _ _ _⟩

end Sys2Proof.Machine

/-! Proof of O12: ERET and UIRET (R186 to R188, R234, R237). A member of a convoy comes back in its turn, and each by itself: no
convoy re-forms while one that has not parked runs. -/
namespace Sys2Proof.Machine

/-! ## Words by which every member goes elsewhere -/

/-- A pass in which each member in its turn jumps, as `step` says. -/
theorem pass_jumps {f : Fields} {priv : Bool} {body : CoreId → State → Res} {step : State → CoreId → State} (l : List CoreId) :
    ∀ (u : State) (j : List CoreId), (∀ a m b, l = a ++ m :: b →
      (a.foldl step u).memberRes m f priv true body = .jumped (step (a.foldl step u) m)) →
    l.foldl (fun (p : Pass) m => p.take m (p.s.memberRes m f priv true body)) { s := u, jumped := j } =
      { s := l.foldl step u, jumped := l.reverse ++ j } := by
  induction l with
  | nil => exact fun _ _ _ => rfl
  | cons x l ih =>
    intro u j h
    have hx : u.memberRes x f priv true body = .jumped (step u x) := h [] x l rfl
    rw [List.foldl_cons, List.foldl_cons, hx, List.reverse_cons, List.append_assoc]
    exact ih (step u x) (x :: j) fun a m b hab => h (x :: a) m b (by rw [hab]; rfl)

theorem foldl_unless_all {l : List CoreId} {p : CoreId → Bool} (h : ∀ m ∈ l, p m = true) (g : State → CoreId → State) (s : State) :
    l.foldl (fun s m => if p m then s else g s m) s = s := by
  induction l generalizing s with
  | nil => rfl
  | cons m l ih =>
    rw [List.foldl_cons, if_pos (h m List.mem_cons_self)]
    exact ih (fun k hk => h k (List.mem_cons_of_mem _ hk)) s

/-- A word whose effect is a jump for each member in its turn, none of whom the earlier ones change. -/
theorem runMembers_jumps {f : Fields} {s : State} {priv : Bool} {body : CoreId → State → Res} {step : State → CoreId → State}
    (h : s.Ready f) (hp : ∀ m ∈ s.convoyOf s.cur, priv = true → (s.core m).priv = true)
    (hg : ∀ m ∈ s.convoyOf s.cur, f.ctl.guards (s.core m) = true)
    (hb : ∀ a m b, s.convoyOf s.cur = a ++ m :: b → (a.foldl step s).core m = s.core m ∧
      body m (a.foldl step s) = .jumped (step (a.foldl step s) m)) :
    s.runMembers f priv body = ((s.convoyOf s.cur).foldl step s).countIssue (s.convoyOf s.cur) f := by
  have hpass := pass_jumps (f := f) (priv := priv) (body := body) (step := step) (s.convoyOf s.cur) s [] fun a m b hab => by
    obtain ⟨hcore, hbody⟩ := hb a m b hab
    have hm : m ∈ s.convoyOf s.cur := by rw [hab]; simp
    rw [memberRes_ready (hcore ▸ h.each m hm) (hcore ▸ hp m hm), hcore, hg m hm, hbody]
    rfl
  rw [runMembers_ready body h hp]
  unfold State.runEffects
  simp only [hpass, List.isEmpty_nil, if_true, Pass.finish, List.append_nil]
  exact foldl_unless_all (fun m hm => by simpa using hm) _ _

/-! ## Convoys that do not re-form (R55) -/

/-- No convoy re-forms in the cluster of a core that runs its work unparked. -/
theorem rejoinConvoy_of_unparked {s : State} {m : CoreId} (hw : (s.core m).work.isSome = true) (he : (s.core m).ended = none)
    (hp : (s.core m).parked = false) : s.rejoinConvoy (clusterOf m) = s := by
  refine if_neg fun h => ?_
  obtain ⟨-, hall⟩ := Bool.and_eq_true_iff.mp h
  have hm : m ∈ (clusterCores (clusterOf m)).filter fun m => (s.core m).work.isSome && (s.core m).ended.isNone :=
    List.mem_filter.mpr ⟨mem_clusterCores.mpr rfl, by simp [hw, he]⟩
  exact absurd (List.all_eq_true.mp hall m hm) (by simp [hp])

theorem Core.issuing_running {q : Core} (h : q.issuing = true) : q.work.isSome = true ∧ q.ended = none ∧ q.parked = false := by
  simp only [Core.issuing, Bool.and_eq_true, Bool.not_eq_true', Option.isNone_iff_eq_none] at h
  obtain ⟨⟨⟨⟨⟨⟨hw, -⟩, -⟩, -⟩, hp⟩, he⟩, -⟩ := h
  exact ⟨hw, he, hp⟩

/-! ## ERET (R187) -/

/-- TRAP_PC lies at a word of the block at TRAP_BLK, whose header is `w`. -/
def Core.trapInside (q : Core) (w : Word) : Prop :=
  isHeader w = true ∧ q.trap.pc.toNat % 8 = 0 ∧ q.trap.blk.toNat + 8 ≤ q.trap.pc.toNat ∧
    q.trap.pc.toNat ≤ (q.trap.blk + BitVec.ofNat 64 (8 * (headerOf w).len)).toNat

/-- The core as ERET resumes its block, whose header is `w`: with PCONV set it stays in its convoy. -/
def Core.returned (mode : EretMode) (w : Word) (q : Core) : Core :=
  { q with
    priv := q.trap.status.getLsbD 0, inHandler := false, blk := q.trap.blk, hdr := w
    pc := if mode = .retry then q.trap.pc else q.trap.pc + 8
    pos := if mode = .next ∧ q.trap.pc = q.trap.blk + BitVec.ofNat 64 (8 * (headerOf w).len) then .header .fall else .word
    convoy := if q.trap.status.getLsbD 1 = true then q.convoy else false }

theorem Core.trapInside_iff {q : Core} {w : Word} : q.trapInside w ↔
    (!isHeader w || q.trap.pc.toNat % 8 != 0 || decide (q.trap.pc.toNat < q.trap.blk.toNat + 8) ||
      decide ((q.trap.blk + BitVec.ofNat 64 (8 * (headerOf w).len)).toNat < q.trap.pc.toNat)) = false := by
  simp only [Core.trapInside, Bool.or_eq_false_iff, Bool.not_eq_false', bne_eq_false_iff_eq, decide_eq_false_iff_not, Nat.not_lt,
    and_assoc]

section
variable {s : State} {m : CoreId} {mode : EretMode} {w : Word}

theorem eretFrom_outside (hd : (s.core m).deferredTrap = false) (hw : s.fetch m (s.core m).priv (s.core m).trap.blk = .word w)
    (h : ¬ (s.core m).trapInside w) : s.eretFrom m mode = .trap .badTarget (s.core m).trap.pc := by
  rw [Core.trapInside_iff, Bool.not_eq_false] at h
  simp only [State.eretFrom, hd, hw, h, Bool.false_eq_true, if_false, if_true]

theorem eretFrom_completion (hd : (s.core m).deferredTrap = false) (hw : s.fetch m (s.core m).priv (s.core m).trap.blk = .word w)
    (h2 : (s.core m).trap.status.getLsbD 2 = true) : s.eretFrom m .retry = .trap .badTarget (s.core m).trap.pc := by
  simp only [State.eretFrom, hd, hw, h2, Bool.false_eq_true, if_false]
  split
  · rfl
  · rfl

theorem eretFrom_inside (hd : (s.core m).deferredTrap = false) (hw : s.fetch m (s.core m).priv (s.core m).trap.blk = .word w)
    (hin : (s.core m).trapInside w) (h2 : mode = .retry → (s.core m).trap.status.getLsbD 2 = false)
    (hrun : (s.core m).issuing = true) (hstay : (s.core m).trap.status.getLsbD 1 = true → (s.core m).convoy = true) :
    s.eretFrom m mode = .jumped ((s.fetchUse m (s.core m).trap.blk).modCore m (Core.returned mode w)) := by
  have hmode : (mode == .retry && (s.core m).trap.status.getLsbD 2) = false := by
    cases mode with
    | retry => exact h2 rfl
    | next => rfl
  obtain ⟨-, -, -, hres⟩ := fetchUse_keeps s m (s.core m).trap.blk
  obtain ⟨hwork, hended, hparked⟩ := Core.issuing_running hrun
  have hrejoin : ((s.fetchUse m (s.core m).trap.blk).modCore m (Core.returned mode w)).rejoinConvoy (clusterOf m) =
      (s.fetchUse m (s.core m).trap.blk).modCore m (Core.returned mode w) := by
    refine rejoinConvoy_of_unparked ?_ ?_ ?_ <;> rw [State.core_modCore_same, hres]
    · exact hwork
    · exact hended
    · exact hparked
  simp only [State.eretFrom, hd, hw, Core.trapInside_iff.mp hin, hmode, Bool.false_eq_true, if_false]
  refine congrArg Res.jumped (Eq.trans (congrArg (State.rejoinConvoy · (clusterOf m)) (modCore_congr ?_)) hrejoin)
  rw [hres]
  cases mode <;> by_cases h1 : (s.core m).trap.status.getLsbD 1 = true <;>
    by_cases hlast : (s.core m).trap.pc = (s.core m).trap.blk + BitVec.ofNat 64 (8 * (headerOf w).len) <;>
    simp only [Core.returned, h1, hlast, hstay, if_true, if_false, and_true, and_false, reduceCtorEq]

end

/-! ## UIRET (R188) -/

/-- Counting a word changes of a core its counters and what stands over from word to word. -/
theorem counted_eq (q : Core) (f : Fields) : ∃ e, q.counted f = { q with yld := f.ctl.yld, stood := none, ec := e } := by
  unfold Core.counted
  split
  · exact ⟨_, rfl⟩
  · exact ⟨_, rfl⟩

/-- Eight registers from `base` on, written from a list of values. -/
theorem get_foldl_set {g : Nat → Word} (base n : Nat) (m : SMap Word) (j : Nat) :
    ((List.range n).foldl (fun l i => l.set (base + i) (g i)) m).get j 0 =
      if base ≤ j ∧ j < base + n then g (j - base) else m.get j 0 := by
  induction n with
  | zero => simp
  | succ n ih =>
    rw [List.range_succ, List.foldl_append, List.foldl_cons, List.foldl_nil]
    by_cases hj : j = base + n
    · rw [hj, SMap.get_set_same, if_pos (by omega), Nat.add_sub_cancel_left]
    · rw [SMap.get_set_other _ hj, ih]
      exact if_congr (by omega) rfl rfl

/-- The core with s56 to s63 restored. -/
def Core.restored (q : Core) : Core :=
  { q with s := (List.range 8).foldl (fun l i => l.set (56 + i) (q.shadow.get i 0)) q.s }

theorem foldl_restores (q : Core) :
    (List.range 8).foldl (fun (q : Core) i => { q with s := q.s.set (56 + i) (q.shadow.get i 0) }) q = q.restored := rfl

theorem Core.rs_restored (q : Core) (r : SReg) :
    q.restored.rs r = if 56 ≤ r.toNat then q.shadow.get (r.toNat - 56) 0 else q.rs r := by
  have hlt : r.toNat < 64 := r.isLt
  have hget : q.restored.s.get r.toNat 0 =
      if 56 ≤ r.toNat ∧ r.toNat < 56 + 8 then q.shadow.get (r.toNat - 56) 0 else q.s.get r.toNat 0 :=
    get_foldl_set (g := fun i => q.shadow.get i 0) 56 8 q.s r.toNat
  by_cases h56 : 56 ≤ r.toNat
  · have h0 : r ≠ 0 := fun e => by rw [e] at h56; exact absurd h56 (by decide)
    rw [if_pos h56, Core.rs, if_neg h0, hget.trans (if_pos (by omega))]
  · rw [if_neg h56, Core.rs, Core.rs, hget.trans (if_neg (by omega))]

/-- The core as UIRET comes back. -/
def Core.interruptOver (q : Core) (hdr : Word) (pos : Pos) : Core :=
  { q.restored with uih := false, pc := q.ui.pc, blk := q.ui.blk, hdr := hdr, pos := pos }

section
variable {s : State} {m : CoreId} {w : Word}

theorem uiretFrom_outside (h : (s.core m).uih = false) : s.uiretFrom m = .trap .uiState 0 := by
  simp only [State.uiretFrom, h, Bool.not_false, if_true]

theorem uiretFrom_header (hu : (s.core m).uih = true) (hw : s.fetch m (s.core m).priv (s.core m).ui.blk = .word w)
    (hpc : (s.core m).ui.pc = (s.core m).ui.blk) :
    s.uiretFrom m = .jumped (s.modCore m fun q => q.interruptOver q.hdr (.header .fall)) := by
  simp only [State.uiretFrom, hu, hw, hpc, Bool.not_true, Bool.false_eq_true, if_false, if_true, foldl_restores]
  exact congrArg Res.jumped (modCore_congr (by simp only [Core.interruptOver, hpc]))

theorem uiretFrom_inside (hu : (s.core m).uih = true) (hw : s.fetch m (s.core m).priv (s.core m).ui.blk = .word w)
    (hh : isHeader w = true) (hal : (s.core m).ui.pc.toNat % 8 = 0) (hlo : (s.core m).ui.blk.toNat + 8 ≤ (s.core m).ui.pc.toNat)
    (hhi : (s.core m).ui.pc.toNat ≤ (s.core m).ui.blk.toNat + 8 * (headerOf w).len) :
    s.uiretFrom m = .jumped ((s.fetchUse m (s.core m).ui.blk).modCore m fun q => q.interruptOver w .word) := by
  have hpc : (s.core m).ui.pc ≠ (s.core m).ui.blk := fun e => by rw [e] at hlo; omega
  obtain ⟨-, -, -, hres⟩ := fetchUse_keeps s m (s.core m).ui.blk
  simp only [State.uiretFrom, hu, hw, hpc, hh, hal, Nat.not_lt.mpr hlo, Nat.not_lt.mpr hhi, Bool.not_true, Bool.false_eq_true, if_false,
    bne_self_eq_false, decide_false, Bool.or_self, foldl_restores]
  refine congrArg Res.jumped (modCore_congr ?_)
  rw [hres]
  rfl

end

/-! ## The words -/

/-- A supervisor word of a lone core at supervisor privilege that goes elsewhere, or traps. -/
theorem runPriv_outcomes {i : Instr} {f : Fields} {s : State} {body : CoreId → State → Res} (hf : i.fields = some f) (h : s.Alone f)
    (hp : (s.core s.cur).priv = true) (hx : exec i s = runPriv i s body) :
    (∀ t, body s.cur s = .jumped t → s.JumpsAs i f t) ∧
    ∀ cause info, body s.cur s = .trap cause info → s.TrapsAs i cause info := by
  have e : exec i s = .next (s.runMembers f true body) := by rw [hx, runPriv, word_ready hf h.ready]
  rw [runMembers_alone h (fun _ => hp)] at e
  refine ⟨fun t ht => ?_, fun cause info ht => ?_⟩
  · rw [State.JumpsAs, e, ht]
  · rw [State.TrapsAs, leader_alone h.lone, convoyOf_alone s s.cur h.lone, e, ht]
    rfl

/-- A supervisor word by which each member of a convoy goes elsewhere, in its turn. -/
theorem runPriv_jumps {i : Instr} {f : Fields} {s : State} {body : CoreId → State → Res} {step : State → CoreId → State}
    (hf : i.fields = some f) (h : s.Ready f) (hp : ∀ m ∈ s.convoyOf s.cur, (s.core m).priv = true)
    (hg : ∀ m ∈ s.convoyOf s.cur, f.ctl.guards (s.core m) = true) (hx : exec i s = runPriv i s body)
    (hb : ∀ a m b, s.convoyOf s.cur = a ++ m :: b → (a.foldl step s).core m = s.core m ∧
      body m (a.foldl step s) = .jumped (step (a.foldl step s) m)) :
    exec i s = .next (((s.convoyOf s.cur).foldl step s).countIssue (s.convoyOf s.cur) f) := by
  rw [hx, runPriv, word_ready hf h, runMembers_jumps h (fun m hm _ => hp m hm) hg hb]

/-- From a deferred trap the last member's ERET ends the work, and that of the others only waits for it (R237). -/
theorem eretFrom_deferred {s : State} {m : CoreId} (mode : EretMode) (hd : (s.core m).deferredTrap = true) :
    s.eretFrom m mode = .jumped (if (s.convoyOf m).getLast? == some m then
      s.endTraps (s.convoyOf m) false false (s.core m).trap.cause (s.core m).trap.pc (s.core m).trap.info else s) := by
  simp only [State.eretFrom, hd, if_true]

/-- ERET of a convoy from a deferred trap ends the work once, with the values of the last member. -/
theorem eret_convoyDeferred {s : State} {f : Fields} {c : Ctl} {mode : EretMode} {a : List CoreId} {m : CoreId} (hr : s.Ready f)
    (hf : Instr.fields (.eret c mode) = some f) (hms : s.convoyOf s.cur = a ++ [m])
    (hall : ∀ k ∈ s.convoyOf s.cur, f.ctl.guards (s.core k) = true ∧ (s.core k).priv = true ∧ (s.core k).deferredTrap = true) :
    exec (.eret c mode) s = .next ((s.endTraps (s.convoyOf s.cur) false false (s.core m).trap.cause (s.core m).trap.pc
      (s.core m).trap.info).countIssue (s.convoyOf s.cur) f) := by
  let step := fun (u : State) (k : CoreId) => if k = m then
    u.endTraps (s.convoyOf s.cur) false false (u.core k).trap.cause (u.core k).trap.pc (u.core k).trap.info else u
  have hn : (a ++ [m]).Nodup := hms ▸ convoyOf_nodup s s.cur
  have hma : m ∉ a := fun h => (List.nodup_append.mp hn).2.2 m h m (List.mem_singleton_self m) rfl
  have hkeep : ∀ l : List CoreId, m ∉ l → l.foldl step s = s := by
    intro l hl
    induction l with
    | nil => rfl
    | cons k l ih =>
      obtain ⟨hk, hl⟩ := not_or.mp (List.mem_cons.not.mp hl)
      rw [List.foldl_cons, show step s k = s from if_neg (Ne.symm hk), ih hl]
  have hlast : (s.convoyOf s.cur).getLast? = some m := by rw [hms, List.getLast?_append_of_ne_nil _ (by simp)]; rfl
  have hend : (s.convoyOf s.cur).foldl step s = s.endTraps (s.convoyOf s.cur) false false (s.core m).trap.cause (s.core m).trap.pc
      (s.core m).trap.info := by
    conv_lhs => rw [hms, List.foldl_append, hkeep a hma]
    exact if_pos rfl
  rw [← hend]
  refine runPriv_jumps hf hr (fun k hk => (hall k hk).2.1) (fun k hk => (hall k hk).1) rfl fun l k b hlk => ?_
  have hk : k ∈ s.convoyOf s.cur := by rw [hlk]; simp
  have hml : m ∉ l := fun hml => by
    have hm : m ∈ k :: b := List.mem_of_getLast? (by rw [← hlast, hlk, List.getLast?_append_of_ne_nil _ (by simp)])
    exact (List.nodup_append.mp (hlk ▸ convoyOf_nodup s s.cur)).2.2 m hml m hm rfl
  rw [hkeep l hml]
  refine ⟨rfl, ?_⟩
  rw [eretFrom_deferred mode (hall k hk).2.2, convoyOf_member hk, hlast]
  by_cases hkm : k = m
  · simp [step, hkm]
  · simp [step, hkm, Ne.symm hkm]

theorem convoy_of_mem {s : State} {c m : CoreId} (hc : (s.core c).convoy = true) (hm : m ∈ s.convoyOf c) : (s.core m).convoy = true := by
  rw [State.convoyOf, if_pos hc] at hm
  exact (List.mem_filter.mp hm).2

/-- Turns that each change one core leave every other core as it was. -/
theorem foldl_core_other {step : State → CoreId → State} (hstep : ∀ u k m, m ≠ k → (step u k).core m = u.core m) {m : CoreId}
    (l : List CoreId) (hm : m ∉ l) (s : State) : (l.foldl step s).core m = s.core m := by
  induction l generalizing s with
  | nil => rfl
  | cons k l ih =>
    obtain ⟨hk, hl⟩ := not_or.mp (List.mem_cons.not.mp hm)
    rw [List.foldl_cons, ih hl, hstep s k m hk]

/-- A member's turn at the ERET of a convoy, which began in `s₀`: its block's header is read, and it alone comes back. -/
def eretTurn (s₀ : State) (mode : EretMode) (h pc w : Word) (s : State) (m : CoreId) : State :=
  (s.fetchUse m h).modCore m fun y =>
    { y with
      priv := (s₀.core m).trap.status.getLsbD 0, inHandler := false, blk := h, hdr := w
      pc := if mode = .retry then pc else pc + 8
      pos := if mode = .next ∧ pc = h + BitVec.ofNat 64 (8 * (headerOf w).len) then .header .fall else .word }

section
variable {s₀ s : State} {mode : EretMode} {h pc w : Word}

theorem eretTurn_other (s : State) (k m : CoreId) (hm : m ≠ k) : (eretTurn s₀ mode h pc w s k).core m = s.core m := by
  obtain ⟨-, -, hcore, -⟩ := fetchUse_keeps s k h
  rw [eretTurn, State.core_modCore_other _ hm, hcore m hm]

theorem eretTurn_convoy (s : State) (m : CoreId) : ((eretTurn s₀ mode h pc w s m).core m).convoy = (s.core m).convoy := by
  obtain ⟨-, -, -, hres⟩ := fetchUse_keeps s m h
  rw [eretTurn, State.core_modCore_same, hres]

/-- A member that stays in its convoy comes back as `eretFrom` says. -/
theorem returned_eq_eretTurn {m : CoreId} (hcore : s.core m = s₀.core m) (hblk : (s₀.core m).trap.blk = h) (hpc : (s₀.core m).trap.pc = pc)
    (h1 : (s₀.core m).trap.status.getLsbD 1 = true) :
    (s.fetchUse m h).modCore m (Core.returned mode w) = eretTurn s₀ mode h pc w s m := by
  obtain ⟨-, -, -, hres⟩ := fetchUse_keeps s m h
  rw [hcore] at hres
  refine modCore_congr ?_
  rw [hres]
  simp only [Core.returned, h1, hblk, hpc, if_true]
end

/-- ERET of a whole convoy (R237): each member's turn leaves the others as they were. -/
theorem eret_convoy {s : State} {f : Fields} {c : Ctl} {mode : EretMode} {h pc w : Word} (hr : s.Ready f)
    (hf : Instr.fields (.eret c mode) = some f) (hc : (s.core s.cur).convoy = true)
    (hall : ∀ m ∈ s.convoyOf s.cur, f.ctl.guards (s.core m) = true ∧ (s.core m).priv = true ∧ (s.core m).deferredTrap = false ∧
      (s.core m).trap.blk = h ∧ (s.core m).trap.pc = pc ∧ (s.core m).trap.status.getLsbD 1 = true ∧
      (mode = .retry → (s.core m).trap.status.getLsbD 2 = false))
    (hin : ∀ m ∈ s.convoyOf s.cur, (s.core m).trapInside w)
    (hfetch : ∀ k m, (s.convoyOf s.cur)[k]? = some m →
      (((s.convoyOf s.cur).take k).foldl (eretTurn s mode h pc w) s).fetch m true h = .word w) :
    exec (.eret c mode) s = .next (((s.convoyOf s.cur).foldl (eretTurn s mode h pc w) s).countIssue (s.convoyOf s.cur) f) ∧
    ∀ m ∈ s.convoyOf s.cur, (((s.convoyOf s.cur).foldl (eretTurn s mode h pc w) s).core m).convoy = true := by
  have hn := convoyOf_nodup s s.cur
  have hself : ∀ a m b, s.convoyOf s.cur = a ++ m :: b → (a.foldl (eretTurn s mode h pc w) s).core m = s.core m := fun a m b hab =>
    foldl_core_other eretTurn_other a (fun hma => (List.nodup_append.mp (hab ▸ hn)).2.2 m hma m List.mem_cons_self rfl) s
  constructor
  · refine runPriv_jumps hf hr (fun m hm => (hall m hm).2.1) (fun m hm => (hall m hm).1) rfl fun a m b hab => ?_
    have hm : m ∈ s.convoyOf s.cur := by rw [hab]; simp
    have hcore := hself a m b hab
    obtain ⟨-, hpriv, hd, hblk, hpc, h1, h2⟩ := hall m hm
    have hw : (a.foldl (eretTurn s mode h pc w) s).fetch m true h = .word w := by
      have := hfetch a.length m (by rw [hab]; simp)
      rwa [hab, List.take_left] at this
    refine ⟨hcore, ?_⟩
    rw [eretFrom_inside (w := w) (hcore ▸ hd) (by rw [hcore, hpriv, hblk, hw]) (hcore ▸ hin m hm) (hcore ▸ h2)
      (hcore ▸ (hr.each m hm).issuing) (fun _ => hcore ▸ convoy_of_mem hc hm), hcore, hblk, returned_eq_eretTurn hcore hblk hpc h1]
  · intro m hm
    obtain ⟨a, b, hab⟩ := List.append_of_mem hm
    have hmb : m ∉ b := (List.nodup_cons.mp (List.nodup_append.mp (hab ▸ hn)).2.1).1
    rw [hab, List.foldl_append, List.foldl_cons, foldl_core_other eretTurn_other b hmb, eretTurn_convoy, hself a m b hab]
    exact convoy_of_mem hc hm

/-- ERET of a lone core whose trap was taken alone. -/
theorem eret_alone {s : State} {f : Fields} {c : Ctl} {mode : EretMode} {w : Word} (ha : s.Alone f)
    (hf : Instr.fields (.eret c mode) = some f) (hp : (s.core s.cur).priv = true) (hd : (s.core s.cur).deferredTrap = false)
    (hw : s.fetch s.cur true (s.core s.cur).trap.blk = .word w) :
    ((s.core s.cur).trapInside w → (mode = .retry → (s.core s.cur).trap.status.getLsbD 2 = false) →
      (s.core s.cur).trap.status.getLsbD 1 = false →
      s.JumpsAs (.eret c mode) f ((s.fetchUse s.cur (s.core s.cur).trap.blk).modCore s.cur (Core.returned mode w))) ∧
    (¬ (s.core s.cur).trapInside w → s.TrapsAs (.eret c mode) .badTarget (s.core s.cur).trap.pc) ∧
    (mode = .retry → (s.core s.cur).trap.status.getLsbD 2 = true → s.TrapsAs (.eret c mode) .badTarget (s.core s.cur).trap.pc) := by
  obtain ⟨hjump, htrap⟩ := runPriv_outcomes hf ha hp (rfl : exec (.eret c mode) s = runPriv _ s _)
  rw [← hp] at hw
  refine ⟨fun hin h2 h1 => hjump _ ?_, fun hout => htrap _ _ (eretFrom_outside hd hw hout), fun hm h2 => htrap _ _ ?_⟩
  · exact eretFrom_inside hd hw hin h2 (ha.ready.each _ (self_mem_convoyOf s s.cur)).issuing fun h => by rw [h1] at h; cases h
  · rw [hm]
    exact eretFrom_completion hd hw h2

/-! ## The statement -/

/-- Settles O12: a lone core's ERET is `eretFrom` on it, a convoy's on each member in its turn (`runMembers_jumps`). -/
theorem handlersReturn : Obligations.HandlersReturn := by
  unfold Obligations.HandlersReturn
  refine ⟨fun s f ha => ⟨fun c mode w hf hp hd hw => ?eret, fun c mode hf hp hd => ?deferred, fun c w hf hu hw hh hal hlo hhi => ?uiret,
    fun c w hf hu hw hpc => ?uiretHeader, fun c hf hu => ?uiState⟩, fun s f c mode a m hr hf hms hall => ?convoyDeferred,
    fun s f c mode w h pc hr hf hc hall hh hal hlo hhi hfetch => ?convoy⟩
  case eret =>
    obtain ⟨hjump, hout, hcompl⟩ := eret_alone ha hf hp hd hw
    refine ⟨fun hin h2 h1 => ?_, hout, hcompl⟩
    have hback := hjump hin h2 h1
    obtain ⟨-, -, -, hres⟩ := fetchUse_keeps s s.cur (s.core s.cur).trap.blk
    rwa [modCore_congr (f := Core.returned mode w)] at hback
    rw [hres]
    simp only [Core.returned, h1, Bool.false_eq_true, if_false]
  case deferred =>
    refine (runPriv_outcomes hf ha hp rfl).1 _ ?_
    rw [eretFrom_deferred mode hd, convoyOf_alone s s.cur ha.lone]
    exact congrArg Res.jumped (if_pos (by simp))
  case uiret =>
    refine ⟨_, (runWord_alone hf ha rfl).2.1 _ (uiretFrom_inside hu hw hh hal hlo hhi), ?_⟩
    obtain ⟨htiles, -, -, hres⟩ := fetchUse_keeps s s.cur (s.core s.cur).ui.blk
    obtain ⟨e, he⟩ := counted_eq (((s.fetchUse s.cur (s.core s.cur).ui.blk).core s.cur).interruptOver w .word) f
    simp only [State.counted, State.core_modCore_same, he]
    rw [hres]
    exact ⟨rfl, rfl, rfl, rfl, rfl, rfl, Core.rs_restored _, rfl, htiles⟩
  case uiretHeader =>
    refine ⟨_, (runWord_alone hf ha rfl).2.1 _ (uiretFrom_header hu hw hpc), ?_⟩
    obtain ⟨e, he⟩ := counted_eq ((s.core s.cur).interruptOver (s.core s.cur).hdr (.header .fall)) f
    simp only [State.counted, State.core_modCore_same, he]
    exact ⟨rfl, rfl, rfl⟩
  case uiState => exact runWord_trapsAs hf ha rfl (uiretFrom_outside hu)
  case convoyDeferred =>
    refine eret_convoyDeferred hr hf hms fun k hk => ?_
    obtain ⟨hg, -, hp, hd⟩ := hall k hk
    exact ⟨hg, hp, hd⟩
  case convoy =>
    refine eret_convoy hr hf hc hall (fun m hm => ?_) hfetch
    obtain ⟨-, -, -, hblk, hpc, -⟩ := hall m hm
    rw [Core.trapInside, hblk, hpc]
    exact ⟨hh, hal, hlo, hhi⟩

end Sys2Proof.Machine

/-! Proof of O13: user-level interrupts (R188, R235, R238). A convoy with nothing outstanding enters by its leader's causes and
vector, or takes the trap of a vector that is no handler's. -/
namespace Sys2Proof.Machine

/-! ## Convoys with nothing outstanding -/

/-- No member of a convoy has anything outstanding, or is asked for anything. -/
def State.Idle (s : State) (ms : List CoreId) : Prop :=
  ∀ m ∈ ms, (s.core m).issuing = true ∧ (s.core m).Quiet ∧ (s.core m).req = none

theorem performLoads_idle {s : State} {ms : List CoreId} (h : ∀ m ∈ ms, (s.core m).loads = []) :
    ms.foldl (fun s m => s.performLoads m) s = s := by
  induction ms with
  | nil => rfl
  | cons m ms ih =>
    have hm : s.performLoads m = s := by rw [State.performLoads, h m List.mem_cons_self, List.foldl_nil]
    rw [List.foldl_cons, hm]
    exact ih fun k hk => h k (List.mem_cons_of_mem _ hk)

theorem unsettled_idle {s : State} {ms : List CoreId} (h : ∀ m ∈ ms, (s.core m).Quiet) : s.unsettled ms = false := by
  refine List.any_eq_false.mpr fun m hm => ?_
  obtain ⟨hloads, -, -, hsc, hdue⟩ := h m hm
  simp [hloads, hsc, hdue]

theorem Core.running_of_issuing {q : Core} (h : q.issuing = true) : q.running = true := by
  simp only [Core.issuing, Bool.and_eq_true] at h
  obtain ⟨⟨⟨⟨⟨⟨hw, hpre⟩, hdbg⟩, hsleep⟩, hpark⟩, hend⟩, -⟩ := h
  simp [Core.running, hw, hpre, hdbg, hsleep, hpark, hend]

theorem userInterruptEntry_unready {s : State} {c : CoreId} (h : (s.core ((s.convoyOf c).headD c)).uiReady = false) :
    exec (.userInterruptEntry c) s = .next s :=
  if_neg (by rw [h, Bool.false_and, Bool.false_and]; exact Bool.false_ne_true)

theorem headD_convoyOf_leader (s : State) (c : CoreId) (d : CoreId) :
    (s.convoyOf ((s.convoyOf c).headD c)).headD d = (s.convoyOf c).headD c := by
  rw [convoyOf_leader]
  cases h : s.convoyOf c with
  | nil => exact absurd (self_mem_convoyOf s c) (by simp [h])
  | cons m ms => rfl

section
variable {s : State} {c : CoreId} {w : Word}

theorem userInterruptEntry_ready (hi : s.Idle (s.convoyOf c)) (hr : (s.core ((s.convoyOf c).headD c)).uiReady = true) :
    exec (.userInterruptEntry c) s = .next (s.uiEnter ((s.convoyOf c).headD c)) := by
  have hl := headD_mem_convoyOf s c
  refine if_pos ?_
  rw [hr, stands_before_word (Core.pos_of_issuing (hi _ hl).1), Bool.true_and, Bool.true_and]
  refine List.all_eq_true.mpr fun m hm => ?_
  obtain ⟨hiss, hq, hreq⟩ := hi m hm
  simp [Core.running_of_issuing hiss, hq.due, hreq, hq.sc]

/-! ## A vector that is a handler's -/

/-- The core as a user interrupt enters its handler at `v`. -/
def Core.interrupted (v : Word) (q : Core) : Core :=
  { q with
    shadow := (List.range 8).foldl (fun sh i => SMap.set sh i (q.s.get (56 + i) 0)) []
    ui := { q.ui with pc := q.pc, blk := if q.pos == .word then q.blk else q.pc }
    uih := true, priv := false, pc := v, pos := .header .handler, waitPage := none }

theorem Core.interrupted_shadow (v : Word) (q : Core) {i : Nat} (hi : i < 8) :
    (q.interrupted v).shadow.get i 0 = q.s.get (56 + i) 0 := by
  have h := get_foldl_set (g := fun i => q.s.get (56 + i) 0) 0 8 [] i
  simp only [Nat.zero_add, Nat.zero_le, hi, and_self, if_true, Nat.sub_zero] at h
  exact h

theorem uiEnter_enters (hi : s.Idle (s.convoyOf c)) (hl : (s.convoyOf c).headD c = c)
    (hw : s.fetch c (s.core c).priv (s.core c).ui.vec = .word w) (hh : isHeader w = true) (hk : (headerOf w).kind = 4) :
    s.uiEnter c = (s.convoyOf c).foldl (fun u m => u.modCore m (Core.interrupted (s.core c).ui.vec)) (s.fetchUse c (s.core c).ui.vec) := by
  have hload := performLoads_idle fun m hm => (hi m hm).2.1.loads
  have hset := unsettled_idle fun m hm => (hi m hm).2.1
  simp only [State.uiEnter, hload, hset, hl, hw, hh, hk, Bool.not_true, bne_self_eq_false, Bool.or_self, Bool.false_eq_true, if_false]
  rfl

theorem fetchUse_resolved (s : State) (c : CoreId) (va : Word) (m : CoreId) : (s.core m).Resolved ((s.fetchUse c va).core m) := by
  obtain ⟨-, -, hcore, hres⟩ := fetchUse_keeps s c va
  by_cases hm : m = c
  · exact hm ▸ hres
  · rw [hcore m hm]
    rfl

/-- What a convoy is as its leader's interrupt enters its handler. -/
theorem uiEnter_handler (hi : s.Idle (s.convoyOf c)) (hl : (s.convoyOf c).headD c = c)
    (hw : s.fetch c (s.core c).priv (s.core c).ui.vec = .word w) (hh : isHeader w = true) (hk : (headerOf w).kind = 4) :
    (s.uiEnter c).mem = (s.fetchUse c (s.core c).ui.vec).mem ∧ (s.uiEnter c).tiles = s.tiles ∧
      (∀ m ∈ s.convoyOf c, ∃ q, (s.core m).Resolved q ∧ (s.uiEnter c).core m = q.interrupted (s.core c).ui.vec) ∧
      ∀ m, m ∉ s.convoyOf c → (s.uiEnter c).core m = s.core m := by
  obtain ⟨hframe, hin, hout⟩ := membersChange_foldl (convoyOf_nodup s c) (Core.interrupted (s.core c).ui.vec)
    (s.fetchUse c (s.core c).ui.vec)
  obtain ⟨htiles, -, hcore, -⟩ := fetchUse_keeps s c (s.core c).ui.vec
  have hmem := congrArg State.mem hframe
  have htiles' := congrArg State.tiles hframe
  rw [uiEnter_enters hi hl hw hh hk]
  exact ⟨hmem, htiles'.trans htiles, fun m hm => ⟨_, fetchUse_resolved s c _ m, hin m hm⟩,
    fun m hm => (hout m hm).trans (hcore m fun e => hm (e ▸ self_mem_convoyOf s c))⟩

/-- The registers of a core as it enters its handler at `v`, whatever its translations have become. -/
theorem Core.interrupted_registers {q r : Core} (hres : q.Resolved r) (hpos : q.pos = .word) (v : Word) : let y := r.interrupted v
    y.ui = { q.ui with pc := q.pc, blk := q.blk } ∧ (∀ i < 8, y.shadow.get i 0 = q.s.get (56 + i) 0) ∧
      y.uih = true ∧ y.priv = false ∧ y.pc = v ∧ y.pos = .header .handler ∧ y.s = q.s ∧ y.convoy = q.convoy ∧ y.trap = q.trap := by
  rw [hres]
  refine ⟨?_, fun i hlt => Core.interrupted_shadow _ _ hlt, rfl, rfl, rfl, rfl, rfl, rfl, rfl⟩
  simp [Core.interrupted, hpos]
end

/-! ## Taking a trap (R235, R237) -/

theorem vector_congr {s t : State} {q r : Core} (hc : t.ctxs = s.ctxs) (hw : r.work = q.work) : t.vector r = s.vector q := by
  rw [State.vector, State.vector, hw, hc]

/-- The trap registers of a core that takes a trap (R235, R237). -/
def Core.recorded (cause : Cause) (info pc blk : Word) (compl deferred : Bool) (member : CoreId) (q : Core) : Core :=
  { q with
    trap := { cause := cause.code, pc := pc, info := info, blk := blk, status := trapStatus q compl member }
    deferredTrap := deferred }

/-- The core before the vector `v`. -/
def Core.vectored (v : Word) (q : Core) : Core :=
  { q with priv := true, inHandler := true, pc := v, pos := .header .handler, waitPage := none }

/-- Members outside handlers, whose context has a usable vector, all take the trap there, and nothing else changes. -/
theorem takeTrap_changes {s : State} {ms : List CoreId} (hn : ms.Nodup) (member : CoreId) (cause : Cause) (info pc blk : Word)
    (compl deferred : Bool) (hh : (s.core (ms.headD 0)).inHandler = false) (hv : s.vector (s.core (ms.headD 0)) ≠ 0)
    (hx : ∃ x, s.fetch (ms.headD 0) true (s.vector (s.core (ms.headD 0))) = .word x ∧ isHeader x = true ∧ (headerOf x).kind = 2) :
    s.MembersChange ms (fun q => (q.recorded cause info pc blk compl deferred member).vectored (s.vector (s.core (ms.headD 0))))
      (s.takeTrap ms member cause info pc blk compl deferred) := by
  obtain ⟨u, hu⟩ : ∃ u, u = ms.foldl (fun u m => u.modCore m (Core.recorded cause info pc blk compl deferred member)) s := ⟨_, rfl⟩
  have hchange : s.MembersChange ms (Core.recorded cause info pc blk compl deferred member) u := hu ▸ membersChange_foldl hn _ s
  obtain ⟨hframe, hin, hout⟩ := id hchange
  have hdies : u.dies = s.dies := by rw [hframe]
  have hctxs : u.ctxs = s.ctxs := by rw [hframe]
  have hkeeps : (u.core (ms.headD 0)).work = (s.core (ms.headD 0)).work ∧ (u.core (ms.headD 0)).utlb = (s.core (ms.headD 0)).utlb := by
    by_cases hm : ms.headD 0 ∈ ms
    · rw [hin _ hm]
      exact ⟨rfl, rfl⟩
    · rw [hout _ hm]
      exact ⟨rfl, rfl⟩
  have hvec : u.vector (u.core (ms.headD 0)) = s.vector (s.core (ms.headD 0)) := vector_congr hctxs hkeeps.1
  have hok : u.vectorOk (ms.headD 0) (s.vector (s.core (ms.headD 0))) = true := by
    obtain ⟨x, hfetch, hhead, hkind⟩ := hx
    rw [State.vectorOk, fetch_congr (s := s) true _ (by rw [State.withUnits, hdies]; exact hframe) hkeeps.2 hkeeps.1
      (by rw [State.die, hdies]; rfl), hfetch]
    simp [hhead, hkind]
  have htake : s.takeTrap ms member cause info pc blk compl deferred =
      ms.foldl (fun v m => v.modCore m (Core.vectored (s.vector (s.core (ms.headD 0))))) u := by
    have hu' : ms.foldl (fun s m => s.modCore m fun q =>
        { q with trap := { cause := cause.code, pc := pc, info := info, blk := blk, status := trapStatus q compl member }
                 deferredTrap := deferred }) s = u := hu.symm
    simp only [State.takeTrap, hh, hu', hvec, if_neg hv, hok, Bool.not_true, Bool.false_eq_true, if_false]
    rfl
  rw [htake]
  exact hchange.trans (membersChange_foldl hn _ u)

/-! ## A vector that is no handler's -/

section
variable {s : State} {c : CoreId} {w : Word}

/-- The vector of core `c`'s user interrupts is no handler's (R188); the second case is log 64's. -/
def State.BadUiVector (s : State) (c : CoreId) (w : Word) : Prop :=
  (∃ e, s.fetch c (s.core c).priv (s.core c).ui.vec = .trap e) ∨
    s.fetch c (s.core c).priv (s.core c).ui.vec = .word w ∧ (isHeader w = false ∨ (headerOf w).kind ≠ 4)

/-- The core with its user interrupts disabled. -/
def Core.uiDisabled (q : Core) : Core := { q with ui := { q.ui with en := 0 } }

theorem uiEnter_traps (hi : s.Idle (s.convoyOf c)) (hl : (s.convoyOf c).headD c = c) (hbad : s.BadUiVector c w) :
    s.uiEnter c = s.orApply (s.convoyOf c) ((s.modCore c Core.uiDisabled).takeTrap (s.convoyOf c) c .badTarget (s.core c).ui.vec
      (s.core c).pc (s.core c).blk false false) := by
  have hload := performLoads_idle fun m hm => (hi m hm).2.1.loads
  have hset := unsettled_idle fun m hm => (hi m hm).2.1
  have hpos : ((s.core c).pos == .word) = true :=
    beq_iff_eq.mpr (Core.pos_of_issuing (hi c (self_mem_convoyOf s c)).1)
  obtain ⟨e, he⟩ | ⟨hw, hnot⟩ := hbad
  · simp only [State.uiEnter, hload, hset, hl, he, hpos, if_true, Bool.false_eq_true, if_false]
    rfl
  · have hnot' : (!isHeader w || (headerOf w).kind != 4) = true := by
      obtain h | h := hnot <;> simp [h]
    simp only [State.uiEnter, hload, hset, hl, hw, hnot', hpos, if_true, Bool.false_eq_true, if_false]
    rfl

theorem orApply_usable {ms : List CoreId} (t : State)
    (hx : ∃ x, s.fetch (ms.headD 0) true (s.vector (s.core (ms.headD 0))) = .word x ∧ isHeader x = true ∧ (headerOf x).kind = 2) :
    s.orApply ms t = t := by
  obtain ⟨x, hfetch, -, -⟩ := hx
  have hbusy : s.busyVector ms = none := by
    refine if_pos ?_
    rw [hfetch]
    exact Bool.or_true _
  rw [State.orApply, hbusy]

/-- A core of the convoy of leader `l` as it takes the trap of `l`'s bad vector, with `v` the vector of its context. -/
def Core.badUiVector (l : CoreId) (v : Word) (q lead : Core) (m : CoreId) : Core :=
  { q with
    ui := { q.ui with en := if m = l then 0 else q.ui.en }
    priv := true, inHandler := true, deferredTrap := false, pc := v, pos := .header .handler, waitPage := none
    trap := { cause := 0x02, pc := lead.pc, info := lead.ui.vec, blk := lead.blk
              status := BitVec.ofNat 64 ((if q.priv then 1 else 0) + (if q.convoy then 2 else 0) +
                256 * (if q.convoy then l % 8 else 255)) } }

theorem uiEnter_badVector (hi : s.Idle (s.convoyOf c)) (hl : (s.convoyOf c).headD c = c) (hr : (s.core c).uiReady = true)
    (hbad : s.BadUiVector c w) (hv : s.vector (s.core c) ≠ 0)
    (hx : ∃ x, s.fetch c true (s.vector (s.core c)) = .word x ∧ isHeader x = true ∧ (headerOf x).kind = 2) :
    s.uiEnter c = { s with cores := (s.uiEnter c).cores } ∧
      (∀ m ∈ s.convoyOf c, (s.uiEnter c).core m = (s.core m).badUiVector c (s.vector (s.core c)) (s.core c) m) ∧
      ∀ m, m ∉ s.convoyOf c → (s.uiEnter c).core m = s.core m := by
  have hself := self_mem_convoyOf s c
  have hl0 : (s.convoyOf c).headD 0 = c := by
    cases h : s.convoyOf c with
    | nil => rw [h] at hself; exact absurd hself List.not_mem_nil
    | cons m ms => rw [h] at hl; exact hl
  obtain ⟨u, hu⟩ : ∃ u, u = s.modCore c Core.uiDisabled := ⟨_, rfl⟩
  have hin : u.core c = (s.core c).uiDisabled := by rw [hu, State.core_modCore_same]
  have hout : ∀ m, m ≠ c → u.core m = s.core m := fun m hm => by rw [hu, State.core_modCore_other _ hm]
  have hvec : u.vector (u.core c) = s.vector (s.core c) := by
    rw [hin]
    exact vector_congr (by rw [hu]; rfl) rfl
  have hfetch : u.fetch c true (s.vector (s.core c)) = s.fetch c true (s.vector (s.core c)) :=
    fetch_congr true _ (by rw [hu]; rfl) (by rw [hin]; rfl) (by rw [hin]; rfl) (by rw [hu]; rfl)
  have hhandler : (u.core c).inHandler = false := by
    simp only [Core.uiReady, Bool.and_eq_true, Bool.not_eq_true'] at hr
    obtain ⟨⟨⟨-, h⟩, -⟩, -⟩ := hr
    rw [hin]
    exact h
  have hchange := takeTrap_changes (s := u) (convoyOf_nodup s c) c .badTarget (s.core c).ui.vec (s.core c).pc (s.core c).blk false false
    (by rw [hl0]; exact hhandler) (by rw [hl0, hvec]; exact hv) (by rw [hl0, hvec, hfetch]; exact hx)
  rw [uiEnter_traps hi hl hbad, orApply_usable _ (by rw [hl0]; exact hx), ← hu]
  rw [hl0, hvec] at hchange
  obtain ⟨hframe, hmembers, hothers⟩ := hchange
  refine ⟨hframe.trans (by rw [hu]; rfl), fun m hm => (hmembers m hm).trans ?_, fun m hm => (hothers m hm).trans (hout m fun e => hm (e ▸ hself))⟩
  by_cases hmc : m = c
  · subst hmc
    rw [hin, Core.badUiVector, if_pos rfl]
    rfl
  · rw [hout m hmc, Core.badUiVector, if_neg hmc]
    rfl

end

/-- A lone core with nothing outstanding is an idle convoy of one. -/
theorem idle_alone {s : State} {c : CoreId} (hi : (s.core c).issuing = true) (hc : (s.core c).convoy = false) (hq : (s.core c).Quiet)
    (hr : (s.core c).req = none) : s.Idle (s.convoyOf c) := by
  rw [convoyOf_alone s c hc]
  exact fun m hm => List.mem_singleton.mp hm ▸ ⟨hi, hq, hr⟩

/-- Settles O13: the event is `uiEnter` of the convoy's leader, which enters the handler or takes the trap of a bad vector. -/
theorem userInterruptsEnterTheirHandler : Obligations.UserInterruptsEnterTheirHandler := by
  unfold Obligations.UserInterruptsEnterTheirHandler
  refine ⟨?_, ?_⟩
  · intro s c w q hi hc hq hr
    have hself : (s.convoyOf c).headD c = c := by rw [convoyOf_alone s c hc]; rfl
    have hidle := idle_alone hi hc hq hr
    refine ⟨fun hv => userInterruptEntry_unready ?_, fun hu hw hh hk => ?_⟩
    · have hv' : (s.core c).ui.vec = 0 := hv
      rw [hself, Core.uiReady, hv', bne_self_eq_false, Bool.and_false]
    · have hexec := userInterruptEntry_ready hidle (by rw [hself]; exact hu)
      rw [hself] at hexec
      obtain ⟨hmem, htiles, hin, -⟩ := uiEnter_handler hidle hself hw hh hk
      obtain ⟨r, hres, hcore⟩ := hin c (self_mem_convoyOf s c)
      obtain ⟨hui, hsh, huih, hpriv, hpc, hpos, hs, -, htrap⟩ := Core.interrupted_registers hres (Core.pos_of_issuing hi) q.ui.vec
      refine ⟨_, hexec, ?_⟩
      rw [hcore]
      exact ⟨hui, hsh, huih, hpriv, hpc, hpos, hs, htrap, hmem, htiles⟩
  · intro s c w ms l v hi hne hu
    have hconvoy : s.convoyOf l = ms := convoyOf_leader s c
    have hl : (s.convoyOf l).headD l = l := headD_convoyOf_leader s c l
    have hidle : s.Idle (s.convoyOf l) := fun m hm => hi m (hconvoy ▸ hm)
    have hexec := userInterruptEntry_ready (c := c) hi hu
    refine ⟨fun hw hh hk => ?_, fun hbad hv hx => ?_⟩
    · obtain ⟨hmem, htiles, hin, hout⟩ := uiEnter_handler hidle hl hw hh hk
      rw [hconvoy] at hin hout
      refine ⟨_, hexec, hmem, htiles, fun m hm => ?_, fun m hm => ?_⟩
      · obtain ⟨r, hres, hcore⟩ := hin m hm
        have hregs := Core.interrupted_registers hres (Core.pos_of_issuing (hi m hm).1) v
        rw [hcore]
        exact hregs
      · have h := hout m hm
        exact ⟨congrArg Core.pc h, congrArg Core.ui h⟩
    · obtain ⟨hframe, hin, hout⟩ := uiEnter_badVector hidle hl hu hbad hv hx
      rw [hconvoy] at hin hout
      exact ⟨_, hexec, hframe, hin, hout⟩

end Sys2Proof.Machine

/-! Proof of O43: the ring words (R199 to R202). Puts and flags, sends and receives are operations of the rg timeline; one that
fails at once leaves its completion there and no operation. -/
namespace Sys2Proof.Machine

open State (SameTiles SameUnits)

/-! ## Completions of operations -/

theorem resourceEvent_tiles (s : State) (sub ctx x : Nat) : s.SameTiles (s.resourceEvent sub ctx x) := emit_tiles _ _ _

theorem keepCode_tiles (s : State) (line : Nat) (bytes : List Byte) : s.SameTiles (s.keepCode line bytes) :=
  .ite .refl ⟨rfl, rfl, rfl, rfl⟩

theorem l2DropAll_tiles (s : State) (p : Nat → L2Tag → Bool) : s.SameTiles (s.l2DropAll p) := ⟨rfl, rfl, rfl, rfl⟩

theorem settleOne_tiles (s : State) (w : ViewWrite) : s.SameTiles (s.settleOne w) := by
  unfold State.settleOne
  split
  · exact .refl
  · have hkeep := SameTiles.foldl (f := fun s line => s.keepCode line (s.belowLine line)) (fun s _ => keepCode_tiles s _ _)
    exact (l2DropAll_tiles _ _).of ((hkeep _ s).trans ⟨rfl, rfl, rfl, rfl⟩)

theorem settleViews_tiles (s : State) : s.SameTiles s.settleViews := by
  refine .foldl (fun s _ => ?_) _ s
  unfold State.settleView
  split
  · exact .refl
  · exact (settleOne_tiles _ _).of ⟨rfl, rfl, rfl, rfl⟩

theorem faultRecord_tiles (s : State) (o : EngOp) (status : Byte) (slice : Nat) (info : Word) :
    s.SameTiles (s.faultRecord o status slice info) := by
  unfold State.faultRecord
  split
  · exact .refl
  · next x _ =>
    dsimp only
    have hevent : s.SameTiles (if 4096 ≤ x.faults then s.resourceEvent 1 o.ctx 0 else s) := .ite (resourceEvent_tiles _ _ _ _) .refl
    generalize (if 4096 ≤ x.faults then s.resourceEvent 1 o.ctx 0 else s) = u at hevent ⊢
    generalize leBytes 8 (tagOf o.tl o.n).toNat ++ leBytes 2 o.core ++ [status, BitVec.ofNat 8 slice] ++ leBytes 4 x.gen.toNat ++
      leBytes 8 info.toNat ++ leBytes 8 s.now = bytes
    obtain ⟨htiles, hdies, hops, horphans⟩ := hevent.trans (paWrite_tiles u (x.faultLog + 32 * (x.faults % 4096)) bytes)
    exact ⟨htiles, hdies, hops, horphans⟩

theorem opDone_inst (q : Core) (t : Timeline) (n : Nat) (status : Byte) : (q.opDone t n status).inst = q.inst := by
  unfold Core.opDone
  dsimp only
  split_ifs <;> rfl

theorem opDone_tls (q : Core) (t : Timeline) (n : Nat) (status : Byte) :
    (q.opDone t n status).tls = (q.setTl t ((q.tl t).complete n status)).tls := by
  unfold Core.opDone
  dsimp only
  split_ifs <;> rfl

theorem opDone_tl (q : Core) (t : Timeline) (n : Nat) (status : Byte) : (q.opDone t n status).tl t = (q.tl t).complete n status := by
  rw [Core.tl, opDone_tls]
  exact SMap.get_set_same ..

theorem catchUp_keeps (k : Nat) (t : Tline) : (t.catchUp k).issued = t.issued ∧ (t.catchUp k).status = t.status := by
  induction k generalizing t with
  | zero => exact ⟨rfl, rfl⟩
  | succ k ih =>
    unfold Tline.catchUp
    split
    · exact ih _
    · exact ⟨rfl, rfl⟩

theorem complete_issued (t : Tline) (n : Nat) (status : Byte) : (t.complete n status).issued = t.issued := (catchUp_keeps _ _).1

/-- The completion of the operation that has been issued last can be read (R127). -/
theorem statusOf_complete {t : Tline} {n : Nat} (h : t.issued = n) (hn : n ≠ 0) (status : Byte) :
    (t.complete n status).statusOf n = status := by
  have hstatus : (t.complete n status).status = t.status.set (n % 256) status := (catchUp_keeps _ _).2.trans (if_pos (by omega))
  rw [Tline.statusOf, complete_issued, if_neg hn, if_neg (by omega), hstatus, SMap.get_set_same]

/-- What the completion of an operation of the work on a core does there. -/
theorem opComplete_here {s : State} {o : EngOp} (h : (s.core o.core).inst = o.inst) (status : Byte) (slice : Nat) (info : Word) :
    let t := s.opComplete o status slice info
    t.ops = s.ops.filter (!·.same o) ∧ t.orphans = s.orphans ∧ t.core o.core = (s.core o.core).opDone o.tl o.n status ∧
      ∀ c, c ≠ o.core → t.core c = s.core c := by
  have hunits : s.SameUnits (if status = 0 then s else s.faultRecord o status slice info).settleViews :=
    (settleViews_units _).of (.ite .refl (faultRecord_units s o status slice info))
  have htiles : s.SameTiles (if status = 0 then s else s.faultRecord o status slice info).settleViews :=
    (settleViews_tiles _).of (.ite .refl (faultRecord_tiles s o status slice info))
  unfold State.opComplete
  dsimp only
  generalize (if status = 0 then s else s.faultRecord o status slice info).settleViews = u at hunits htiles ⊢
  have hcore : ∀ c, ({ u with ops := u.ops.filter fun x => !x.same o } : State).core c = s.core c := hunits.core
  rw [if_pos ((congrArg Core.inst (hcore o.core)).trans h)]
  refine ⟨congrArg _ htiles.ops, htiles.orphans, ?_, fun c hc => ?_⟩
  · rw [State.core_modCore_same, hcore]
  · rw [State.core_modCore_other _ hc, hcore]

/-- The completion of an operation of other work leaves a core as it is. -/
theorem opComplete_elsewhere {s : State} {o : EngOp} {c : CoreId} (h : ¬ (o.core = c ∧ o.inst = (s.core c).inst)) (status : Byte)
    (slice : Nat) (info : Word) : let t := s.opComplete o status slice info
    t.core c = s.core c ∧ t.ops = s.ops.filter (!·.same o) := by
  have hunits : s.SameUnits (if status = 0 then s else s.faultRecord o status slice info).settleViews :=
    (settleViews_units _).of (.ite .refl (faultRecord_units s o status slice info))
  have htiles : s.SameTiles (if status = 0 then s else s.faultRecord o status slice info).settleViews :=
    (settleViews_tiles _).of (.ite .refl (faultRecord_tiles s o status slice info))
  unfold State.opComplete
  dsimp only
  generalize (if status = 0 then s else s.faultRecord o status slice info).settleViews = u at hunits htiles ⊢
  have hcore : ∀ c, ({ u with ops := u.ops.filter fun x => !x.same o } : State).core c = s.core c := hunits.core
  split
  · next hi =>
    have hne : c ≠ o.core := fun e => h ⟨e.symm, by rw [← hi, hcore, e]⟩
    exact ⟨by rw [State.core_modCore_other _ hne, hcore], congrArg _ htiles.ops⟩
  · exact ⟨hcore c, congrArg _ htiles.ops⟩

/-! ## Operations that fail at once -/

/-- From `s` to `t` the operations are the same, and a core runs the same work with the same timelines. -/
structure State.SameLine (c : CoreId) (s t : State) : Prop where
  inst : (t.core c).inst = (s.core c).inst
  tls : (t.core c).tls = (s.core c).tls
  ops : t.ops = s.ops
  orphans : t.orphans = s.orphans

namespace State.SameLine

theorem refl {c : CoreId} {s : State} : s.SameLine c s := ⟨rfl, rfl, rfl, rfl⟩

theorem trans {c : CoreId} {s t u : State} (h : s.SameLine c t) (k : t.SameLine c u) : s.SameLine c u :=
  ⟨k.inst.trans h.inst, k.tls.trans h.tls, k.ops.trans h.ops, k.orphans.trans h.orphans⟩

theorem of {c : CoreId} {s t u : State} (k : t.SameLine c u) (h : s.SameLine c t) : s.SameLine c u := h.trans k

theorem modCore {c : CoreId} (s : State) {f : Core → Core} (hinst : ∀ q, (f q).inst = q.inst) (htls : ∀ q, (f q).tls = q.tls) :
    s.SameLine c (s.modCore c f) :=
  ⟨by rw [State.core_modCore_same, hinst], by rw [State.core_modCore_same, htls], rfl, rfl⟩

theorem memory {c : CoreId} {s t : State} (h : s.SameUnits t) (k : s.SameTiles t) : s.SameLine c t :=
  ⟨congrArg Core.inst (h.core c), congrArg Core.tls (h.core c), k.ops, k.orphans⟩

/-- A loop over steps for the work on a core. -/
theorem foldl {α : Type} {c : CoreId} {inst : Nat} {f : State → α → State}
    (hf : ∀ (s : State) a, (s.core c).inst = inst → s.SameLine c (f s a)) (l : List α) (s : State) (h : (s.core c).inst = inst) :
    s.SameLine c (l.foldl f s) := by
  induction l generalizing s with
  | nil => exact refl
  | cons a l ih => exact (hf s a h).trans (ih _ ((hf s a h).inst.trans h))

end State.SameLine

theorem modOpHandle_line {s : State} {c : CoreId} {inst : Nat} (h : (s.core c).inst = inst) (r : HReg) (f : Handle → Handle) :
    s.SameLine c (s.modOpHandle c inst r f) := by
  rw [State.modOpHandle, if_pos h]
  exact .modCore s (fun _ => rfl) fun _ => rfl

theorem fillRecv_line {s : State} {o : EngOp} (h : (s.core o.core).inst = o.inst) (r : HReg) (pos : Nat) (data : List Byte) :
    s.SameLine o.core (s.fillRecv o r pos data) := by
  unfold State.fillRecv
  dsimp only
  split
  · next pa _ =>
    have hw := State.SameLine.memory (c := o.core) (paWrite_units s pa data) (paWrite_tiles s pa data)
    exact hw.trans (modOpHandle_line (hw.inst.trans h) _ _)
  · exact (modOpHandle_line (s := s.modTile (tileOf o.core) _) h _ _).of ⟨rfl, rfl, rfl, rfl⟩

/-- A ring operation of the work on core `c` is over: it is outstanding no more, and its status can be read. -/
structure State.RingOver (c : CoreId) (inst n : Nat) (status : Byte) (t : State) : Prop where
  runs : (t.core c).inst = inst
  issued : ((t.core c).tl .rg).issued = n
  read : ((t.core c).tl .rg).statusOf n = status
  gone : ∀ o ∈ t.ops, ¬ (o.core = c ∧ o.inst = inst ∧ o.tl = .rg ∧ o.n = n)

section
variable {c : CoreId} {inst n : Nat} {status : Byte}

theorem State.RingOver.modCore {t : State} (h : t.RingOver c inst n status) {f : Core → Core} (hinst : ∀ q, (f q).inst = q.inst)
    (htls : ∀ q, (f q).tls = q.tls) : (t.modCore c f).RingOver c inst n status := by
  have htl : ((t.modCore c f).core c).tl .rg = (t.core c).tl .rg := by rw [State.core_modCore_same, Core.tl, htls, Core.tl]
  exact ⟨by rw [State.core_modCore_same, hinst, h.runs], by rw [htl, h.issued], by rw [htl, h.read], h.gone⟩

theorem State.RingOver.opComplete {t : State} (h : t.RingOver c inst n status) {o : EngOp} (ho : ¬ (o.core = c ∧ o.inst = inst))
    (st : Byte) (slice : Nat) (info : Word) : (t.opComplete o st slice info).RingOver c inst n status := by
  obtain ⟨hcore, hops⟩ := opComplete_elsewhere (s := t) (h.runs.symm ▸ ho) st slice info
  exact ⟨hcore ▸ h.runs, hcore ▸ h.issued, hcore ▸ h.read, fun x hx => h.gone x (List.mem_filter.mp (hops ▸ hx)).1⟩

theorem State.RingOver.dropOrphans {t : State} (h : t.RingOver c inst n status) (ho : ∀ x ∈ t.orphans, x.inst ≠ inst) :
    t.dropOrphans.RingOver c inst n status := by
  unfold State.dropOrphans
  dsimp only
  refine List.foldlRecOn _ _ (motive := State.RingOver c inst n status) ⟨h.runs, h.issued, h.read, h.gone⟩ fun u hu o hmem => ?_
  refine hu.opComplete ?_ 0 0xFF 0
  rintro ⟨-, hi⟩
  obtain ⟨-, hgone⟩ := List.mem_filter.mp hmem
  obtain ⟨x, hx, hsame⟩ := List.any_eq_true.mp (Bool.and_eq_true_iff.mp hgone).2
  have hxi : o.inst = x.inst := by simpa using (Bool.and_eq_true_iff.mp hsame).2
  exact ho x (List.mem_filter.mp hx).1 (hxi.symm.trans hi)
end

/-- What stands before the completion of a failed ring operation has counted for RFENCE and for the probes only. -/
theorem ringEnd_eq {s : State} {o : EngOp} (hi : (s.core o.core).inst = o.inst) (status : Byte) (info : Word) :
    ∃ u, s.SameLine o.core u ∧ s.ringEnd o status info = (u.opComplete o status 0xFF info).dropOrphans := by
  obtain ⟨v, hv⟩ : ∃ v, v = if (status != 0 && o.kind.isPut) = true then
      s.modIssuer o (fun q => { q with ringFails := min (2 ^ 64 - 1) (q.ringFails + 1) })
        fun r => { r with ringFails := r.ringFails + 1 } else s := ⟨_, rfl⟩
  have hline : s.SameLine o.core v := by
    rw [hv]
    split
    · rw [State.modIssuer, if_pos hi]
      exact .modCore s (fun _ => rfl) fun _ => rfl
    · exact .refl
  refine ⟨v.receipt o.core 5, hline.trans ⟨rfl, rfl, rfl, rfl⟩, ?_⟩
  unfold State.ringEnd
  dsimp only
  rw [← hv, if_pos (hline.inst.trans hi)]

/-- The end of the ring operation that has been issued last on its core. -/
theorem ringEnd_over {s : State} {o : EngOp} (hi : (s.core o.core).inst = o.inst) (ht : o.tl = .rg)
    (hn : ((s.core o.core).tl .rg).issued = o.n) (hn0 : o.n ≠ 0) (ho : ∀ x ∈ s.orphans, x.inst ≠ o.inst) (status : Byte) (info : Word) :
    (s.ringEnd o status info).RingOver o.core o.inst o.n status := by
  obtain ⟨u, ⟨hinst, htls, -, horphans⟩, heq⟩ := ringEnd_eq hi status info
  obtain ⟨hops, horphans', hcore, -⟩ := opComplete_here (hinst.trans hi) status 0xFF info
  have hissued : ((u.core o.core).tl .rg).issued = o.n := by rw [Core.tl, htls, ← Core.tl, hn]
  have htl : ((u.opComplete o status 0xFF info).core o.core).tl .rg = ((u.core o.core).tl .rg).complete o.n status := by
    rw [hcore, ht, opDone_tl]
  rw [heq]
  refine State.RingOver.dropOrphans ⟨?_, ?_, ?_, fun x hx => ?_⟩ fun x hx => ho x ?_
  · rw [hcore, opDone_inst, hinst, hi]
  · rw [htl, complete_issued, hissued]
  · rw [htl, statusOf_complete hissued hn0]
  · rintro ⟨hxc, hxi, hxt, hxn⟩
    have hsame := (List.mem_filter.mp (hops ▸ hx)).2
    simp [EngOp.same, hxc, hxi, hxt, hxn, ht] at hsame
  · exact horphans ▸ horphans' ▸ hx

theorem endSlots_over {s : State} {o : EngOp} (hi : (s.core o.core).inst = o.inst) (ht : o.tl = .rg)
    (hn : ((s.core o.core).tl .rg).issued = o.n) (hn0 : o.n ≠ 0) (ho : ∀ x ∈ s.orphans, x.inst ≠ o.inst) (status : Byte) (info : Word) :
    (s.endSlots o status info).RingOver o.core o.inst o.n status := by
  have hend : ∀ u, s.SameLine o.core u → (u.ringEnd o status info).RingOver o.core o.inst o.n status := by
    rintro u ⟨hinst, htls, -, horphans⟩
    exact ringEnd_over (hinst.trans hi) ht (by rw [Core.tl, htls, ← Core.tl, hn]) hn0 (horphans ▸ ho) status info
  unfold State.endSlots
  split
  case h_1 h _ _ first n _ => exact hend _ (.foldl (fun u _ hu => modOpHandle_line hu _ _) _ s hi)
  case h_2 h _ _ first n _ => exact hend _ (.foldl (fun u _ hu => fillRecv_line hu _ _ _) _ s hi)
  all_goals exact hend s .refl

/-! ## Issue (R200) -/

section
variable {s : State} {m : CoreId} {d : SReg} {kind : OpKind}

/-- The number of a ring operation that is issued next. -/
def State.ringTag (s : State) (m : CoreId) : Word :=
  BitVec.ofNat 64 (Timeline.rg.code * 2 ^ 61 + (((s.core m).tl .rg).issued + 1) % 2 ^ 61)

theorem op_issued (s : State) (m : CoreId) (kind : OpKind) :
    ∃ o, (s.issued m .rg kind).op m .rg (((s.core m).tl .rg).issued + 1) = some o ∧
      o.core = m ∧ o.inst = (s.core m).inst ∧ o.tl = .rg ∧ o.n = ((s.core m).tl .rg).issued + 1 := by
  have hsome : ((s.issued m .rg kind).op m .rg (((s.core m).tl .rg).issued + 1)).isSome = true := by
    refine List.find?_isSome.mpr ⟨s.newOp m .rg kind, by rw [issued_ops]; simp, ?_⟩
    simp [State.newOp, core_issued]
  obtain ⟨o, ho⟩ := Option.isSome_iff_exists.mp hsome
  have hp := List.find?_some ho
  simp only [core_issued, Core.setTl_inst, Bool.and_eq_true, beq_iff_eq] at hp
  obtain ⟨⟨⟨hc, ht⟩, hn⟩, hi⟩ := hp
  exact ⟨o, ho, hc, hi, ht, hn⟩

theorem op_issued_numbered (hn : s.Numbered m) : (s.issued m .rg kind).op m .rg (((s.core m).tl .rg).issued + 1) =
    (s.issued m .rg kind).ops.getLast? := by
  have hold : s.ops.find? (fun o => o.core == m && o.tl == .rg && o.n == ((s.core m).tl .rg).issued + 1 && o.inst == (s.core m).inst) =
      none := by
    refine List.find?_eq_none.mpr fun o ho => ?_
    have := hn.new .rg ho
    simp only [Bool.and_eq_true, beq_iff_eq]
    tauto
  simp only [State.op, core_issued, Core.setTl_inst, issued_ops, List.find?_append, hold, Option.none_or, List.getLast?_concat]
  simp [State.newOp]

theorem ringIssue_goes : s.ringIssue m d kind 0 = .done (s.tagged m .rg kind d id) := by
  unfold State.ringIssue
  dsimp only
  cases (s.engIssue m .rg kind).1.op m .rg (s.engIssue m .rg kind).2 <;> rfl

theorem ringIssue_fails {o : EngOp} {status : Byte}
    (ho : (s.issued m .rg kind).op m .rg (((s.core m).tl .rg).issued + 1) = some o) (hst : status ≠ 0) :
    s.ringIssue m d kind status =
      .done (((s.issued m .rg kind).endSlots o status (ringFailInfo o)).modCore m fun q => q.ws d (s.ringTag m)) := by
  unfold State.ringIssue
  have ho' : (s.engIssue m .rg kind).1.op m .rg (s.engIssue m .rg kind).2 = some o := ho
  simp only [ho', if_neg hst]
  rfl

/-- A ring operation that fails at once is over when its word completes. -/
theorem ringIssue_over {status : Byte} (hst : status ≠ 0) (ho : ∀ x ∈ s.orphans, x.inst ≠ (s.core m).inst) :
    ∃ t, s.ringIssue m d kind status = .done t ∧ t.RingOver m (s.core m).inst (((s.core m).tl .rg).issued + 1) status := by
  obtain ⟨o, hop, hc, hi, ht, hn⟩ := op_issued s m kind
  refine ⟨_, ringIssue_fails hop hst, ?_⟩
  rw [← hi, ← hn]
  subst hc
  refine State.RingOver.modCore (endSlots_over ?_ ht ?_ ?_ ?_ status _) (fun q => Core.ws_inst q _ _) fun q => Core.ws_tls q _ _
  · rw [core_issued, Core.setTl_inst, hi]
  · rw [core_issued, hn]
    exact congrArg Tline.issued (SMap.get_set_same ..)
  · rw [hn]
    exact Nat.succ_ne_zero _
  · rw [hi]
    exact ho
end

/-! ## What the ring words share -/

/-- Nothing holds a ring word back, and the work may issue it (R110, R200). -/
def Core.MayRing (q : Core) : Prop := (q.fences = [] ∧ q.sc = none) ∧ q.idem = false

/-- A package that is another one of the ring (R199). -/
def State.OtherPkg (s : State) (p : Nat) : Prop := p ≠ s.ring.pkgId ∧ p < s.ring.n

/-- A ring operation, numbered, has failed at once. -/
def State.RingFailed (s : State) (m : CoreId) (kind : OpKind) (d : SReg) (status : Byte) (t : State) : Prop := let u := s.issued m .rg kind
  s.Numbered m ∧ ∃ o, u.ops.getLast? = some o ∧ t = (u.endSlots o status (ringFailInfo o)).modCore m fun q =>
    q.ws d (BitVec.ofNat 64 (Timeline.rg.code * 2 ^ 61 + (((s.core m).tl .rg).issued + 1) % 2 ^ 61))

/-- A word on a lone core gives its operation a number and its status at once. -/
def State.FailsAtOnce (s : State) (i : Instr) (status : Byte) : Prop := let q := s.core s.cur
  let n := (q.tl .rg).issued + 1
  (∀ x ∈ s.orphans, x.inst ≠ q.inst) → ∃ t, exec i s = .next t ∧
  ((t.core s.cur).tl .rg).issued = n ∧ ((t.core s.cur).tl .rg).statusOf n = status ∧
  ∀ o ∈ t.ops, ¬ (o.core = s.cur ∧ o.inst = q.inst ∧ o.tl = .rg ∧ o.n = n)

theorem ringIssue_failed {s t : State} {m : CoreId} {kind : OpKind} {d : SReg} {status : Byte} (hst : status ≠ 0)
    (h : s.RingFailed m kind d status t) : s.ringIssue m d kind status = .done t := by
  obtain ⟨hn, o, ho, rfl⟩ := h
  exact ringIssue_fails ((op_issued_numbered hn).trans ho) hst

theorem Core.passed_inst (q : Core) (f : Fields) : (q.passed f).inst = q.inst := by
  obtain ⟨e, he⟩ := counted_eq q f
  rw [Core.passed, he, Core.advance_inst]

theorem Core.passed_tls (q : Core) (f : Fields) : (q.passed f).tls = q.tls := by
  obtain ⟨e, he⟩ := counted_eq q f
  rw [Core.passed, he, Core.advance_tls]

theorem failsAtOnce_of_body {i : Instr} {f : Fields} {s : State} {body : CoreId → State → Res} {status : Byte} (hf : i.fields = some f)
    (h : s.Alone f) (hx : exec i s = runWord i s body)
    (hb : (∀ x ∈ s.orphans, x.inst ≠ (s.core s.cur).inst) → ∃ t, body s.cur s = .done t ∧
      t.RingOver s.cur (s.core s.cur).inst (((s.core s.cur).tl .rg).issued + 1) status) : s.FailsAtOnce i status := by
  intro ho
  obtain ⟨t, ht, hover⟩ := hb ho
  obtain ⟨hdone, -⟩ := runWord_alone hf h hx
  obtain ⟨-, hissued, hread, hgone⟩ := hover.modCore (f := fun q => q.passed f) (fun q => Core.passed_inst q f) fun q => Core.passed_tls q f
  exact ⟨_, hdone t ht, hissued, hread, hgone⟩

/-! ## Puts and flags (R200) -/

theorem putIssue_eq {s : State} {m : CoreId} (h : (s.core m).MayRing) (d : SReg) (p : Nat) (kind : OpKind) :
    s.putIssue m d p kind = if 256 ≤ (s.putsOf m).length then .wait else s.ringIssue m d kind (s.pkgStatus p) := by
  obtain ⟨⟨hf, hsc⟩, -⟩ := h
  rw [State.putIssue, fenceGate_open clsRp hf hsc]

theorem pkgStatus_other {s : State} {p : Nat} (h : s.OtherPkg p) : s.pkgStatus p = 0 :=
  if_neg (by simp [h.1, h.2])

theorem pkgStatus_none {s : State} {p : Nat} (h : ¬ s.OtherPkg p) : s.pkgStatus p = 0x33 :=
  if_pos (by simpa [State.OtherPkg, or_iff_not_imp_left] using h)

/-- A word that issues a put or a flag where `good` holds. -/
theorem puts_of_putIssue {i : Instr} {d : SReg} {pk : Core → Nat} {kind : Core → OpKind} {good : CoreId → State → Prop}
    {body : CoreId → State → Res} (hx : ∀ s, exec i s = runWord i s body)
    (hb : ∀ m s, (s.core m).MayRing → good m s → body m s = s.putIssue m d (pk (s.core m)) (kind (s.core m))) :
    Waits i (fun m s => (s.core m).MayRing ∧ good m s ∧ 256 ≤ (s.putsOf m).length) ∧
    (InTurns i fun m s t => let q := s.core m
      q.MayRing ∧ good m s ∧ (s.putsOf m).length < 256 ∧ (s.OtherPkg (pk q) ∧ t = s.tagged m .rg (kind q) d id ∨
        ¬ s.OtherPkg (pk q) ∧ s.RingFailed m (kind q) d 0x33 t)) ∧
    ∀ (s : State) (f : Fields), s.Alone f → Instr.fields i = some f → let q := s.core s.cur
      q.MayRing → good s.cur s → (s.putsOf s.cur).length < 256 → ¬ s.OtherPkg (pk q) → s.FailsAtOnce i 0x33 := by
  refine ⟨waits_of_wait hx ?_, inTurns_of_done hx ?_, ?_⟩
  · rintro m s ⟨hq, hgood, hfull⟩
    rw [hb m s hq hgood, putIssue_eq hq, if_pos hfull]
  · rintro m s t ⟨hq, hgood, hroom, ⟨hp, rfl⟩ | ⟨hp, ht⟩⟩
    · rw [hb m s hq hgood, putIssue_eq hq, if_neg (Nat.not_le.mpr hroom), pkgStatus_other hp]
      exact ringIssue_goes
    · rw [hb m s hq hgood, putIssue_eq hq, if_neg (Nat.not_le.mpr hroom), pkgStatus_none hp]
      exact ringIssue_failed (by decide) ht
  · intro s f ha hf q hq hgood hroom hp
    refine failsAtOnce_of_body hf ha (hx s) fun ho => ?_
    rw [hb s.cur s hq hgood, putIssue_eq hq, if_neg (Nat.not_le.mpr hroom), pkgStatus_none hp]
    exact ringIssue_over (by decide) ho

/-- An aligned length of a put (R200). -/
def putSized (n : Nat) : Prop := n % 32 = 0 ∧ 32 ≤ n ∧ n ≤ 4096

theorem putSized_iff {n : Nat} : putSized n ↔ (n % 32 != 0 || n < 32 || 4096 < n) = false := by
  simp [putSized, and_assoc]

theorem not_putSized {n : Nat} (h : ¬ putSized n) : (n % 32 != 0 || n < 32 || 4096 < n) = true :=
  Bool.not_eq_false _ ▸ fun e => h (putSized_iff.mpr e)

theorem rput_misaligned (c : Ctl) (d : SReg) (pkg : SImm) (dst src : SReg) (len : SImm) :
    FirstTraps (.rput c d pkg dst src len) .misaligned fun m s x => let q := s.core m
      let n := (len.val q).toNat
      q.idem = false ∧ (¬ putSized n ∧ x = len.val q ∨ putSized n ∧ (q.rs dst).toNat % 32 ≠ 0 ∧ x = q.rs dst ∨
        putSized n ∧ (q.rs dst).toNat % 32 = 0 ∧ (q.rs src).toNat % 32 ≠ 0 ∧ x = q.rs src) := by
  refine firstTraps_of_trap (fun _ => rfl) ?_
  rintro m s x ⟨hi, ⟨hn, rfl⟩ | ⟨hn, hd, rfl⟩ | ⟨hn, hd, hs, rfl⟩⟩
  · simp only [hi, not_putSized hn, Bool.false_eq_true, if_false, if_true]
  · simp only [hi, putSized_iff.mp hn, bne_iff_ne.mpr hd, Bool.false_eq_true, if_false, if_true]
  · simp only [hi, putSized_iff.mp hn, hd, bne_self_eq_false, bne_iff_ne.mpr hs, Bool.false_eq_true, if_false, if_true]

/-- A put that the checks let go. -/
def GoodPut (dst src : SReg) (len : SImm) (m : CoreId) (s : State) : Prop := let q := s.core m
  let n := (len.val q).toNat
  putSized n ∧ (q.rs dst).toNat % 32 = 0 ∧ (q.rs src).toNat % 32 = 0 ∧ s.checkAccess m accRead [⟨q.rs src, n, 1⟩] = none

/-! ## Channels (R202) -/

/-- A valid channel of the core, in a direction. -/
def State.OwnsChan (s : State) (m : CoreId) (ch : BitVec 5) (sends : Bool) : Prop :=
  ∃ y, s.ring.chans.find (16 * (ch.toNat / 16) + ch.toNat % 16) = some y ∧ y.valid = true ∧ y.core = m ∧
    y.ctx = (s.core m).ctxNum ∧ y.sends = sends

/-- The paths of a channel's port are down. -/
def State.PortDown (s : State) (ch : BitVec 5) : Prop :=
  ∀ p ∈ (if ch.toNat / 16 = 1 then [0, 1] else [2, 3]), (s.link p).up = false ∧ (s.link p).training = false

section
variable {s : State} {m : CoreId} {ch : BitVec 5} {sends : Bool}

theorem pathDown_iff : s.pathDown (portPaths (ch.toNat / 16)) = true ↔ s.PortDown ch := by
  simp [State.pathDown, State.PortDown, portPaths]

theorem chanStatus_free (h : s.OwnsChan m ch sends) (hd : ¬ s.PortDown ch) : s.chanStatus m (ch.toNat / 16) (ch.toNat % 16) sends = 0 := by
  obtain ⟨y, hy, hv, hc, hx, hs⟩ := h
  have hup : s.pathDown (portPaths (ch.toNat / 16)) = false := Bool.eq_false_iff.mpr (mt pathDown_iff.mp hd)
  simp only [State.chanStatus, hy, hv, hc, hx, hs, hup, beq_self_eq_true, Bool.and_self, Bool.not_true, Bool.false_eq_true, if_false]

theorem chanStatus_down (h : s.OwnsChan m ch sends) (hd : s.PortDown ch) :
    s.chanStatus m (ch.toNat / 16) (ch.toNat % 16) sends = 0x30 := by
  obtain ⟨y, hy, hv, hc, hx, hs⟩ := h
  simp only [State.chanStatus, hy, hv, hc, hx, hs, pathDown_iff.mpr hd, beq_self_eq_true, Bool.and_self, Bool.not_true, Bool.false_eq_true,
    if_false, if_true]

theorem chanStatus_none (h : ¬ s.OwnsChan m ch sends) : s.chanStatus m (ch.toNat / 16) (ch.toNat % 16) sends = 0x32 := by
  unfold State.chanStatus
  split
  · next y hy =>
    refine if_pos (Bool.not_eq_true' _ ▸ Bool.eq_false_iff.mpr fun hall => h ⟨y, hy, ?_⟩)
    simpa [and_assoc] using hall
  · rfl
end

/-- A word that claims slots and issues a send or a receive where the handle is `ready`. -/
theorem streams_of_ringIssue {i : Instr} {d : SReg} {ch : BitVec 5} {sends : Bool} {ready : Core → Prop} {claim : Core → Core}
    {kind : Core → OpKind} {body : CoreId → State → Res} (hx : ∀ s, exec i s = runWord i s body)
    (hinst : ∀ q, (claim q).inst = q.inst) (htls : ∀ q, (claim q).tls = q.tls)
    (hb : ∀ m s, (s.core m).MayRing → ready (s.core m) → body m s = (s.modCore m claim).ringIssue m d (kind (s.core m))
      (s.chanStatus m (ch.toNat / 16) (ch.toNat % 16) sends)) :
    (InTurns i fun m s t => let q := s.core m
      let u := s.modCore m claim
      q.MayRing ∧ ready q ∧ (s.OwnsChan m ch sends ∧ ¬ s.PortDown ch ∧ t = u.tagged m .rg (kind q) d id ∨
        ¬ s.OwnsChan m ch sends ∧ u.RingFailed m (kind q) d 0x32 t ∨
        s.OwnsChan m ch sends ∧ s.PortDown ch ∧ u.RingFailed m (kind q) d 0x30 t)) ∧
    ∀ (s : State) (f : Fields), s.Alone f → Instr.fields i = some f → (s.core s.cur).MayRing → ready (s.core s.cur) →
      (¬ s.OwnsChan s.cur ch sends → s.FailsAtOnce i 0x32) ∧ (s.OwnsChan s.cur ch sends → s.PortDown ch → s.FailsAtOnce i 0x30) := by
  refine ⟨inTurns_of_done hx ?_, fun s f ha hf hq hr => ?_⟩
  · rintro m s t ⟨hq, hr, ⟨ho, hd, rfl⟩ | ⟨ho, ht⟩ | ⟨ho, hd, ht⟩⟩
    · rw [hb m s hq hr, chanStatus_free ho hd]
      exact ringIssue_goes
    · rw [hb m s hq hr, chanStatus_none ho]
      exact ringIssue_failed (by decide) ht
    · rw [hb m s hq hr, chanStatus_down ho hd]
      exact ringIssue_failed (by decide) ht
  · have hclaim : ((s.modCore s.cur claim).core s.cur).inst = (s.core s.cur).inst ∧
        ((s.modCore s.cur claim).core s.cur).tl .rg = (s.core s.cur).tl .rg := by
      rw [State.core_modCore_same, Core.tl, htls, Core.tl]
      exact ⟨hinst _, rfl⟩
    have hfail : ∀ status : Byte, status ≠ 0 → s.chanStatus s.cur (ch.toNat / 16) (ch.toNat % 16) sends = status →
        s.FailsAtOnce i status := by
      intro status hst hs
      refine failsAtOnce_of_body hf ha (hx s) fun horphans => ?_
      have hover := ringIssue_over (s := s.modCore s.cur claim) (m := s.cur) (d := d) (kind := kind (s.core s.cur)) hst
        (by rw [hclaim.1]; exact horphans)
      rw [hb s.cur s hq hr, hs]
      rwa [hclaim.1, hclaim.2] at hover
    exact ⟨fun ho => hfail _ (by decide) (chanStatus_none ho), fun ho hd => hfail _ (by decide) (chanStatus_down ho hd)⟩

/-! ## The words -/

theorem sourceStop_ready {x : Handle} (h : HReg) {k : Nat} (hs : x.st = .ring ∨ x.st = .stream) (hk : k ≤ x.p - x.d) :
    x.sourceStop h k = none := by
  rcases hs with hs | hs <;> simp only [Handle.sourceStop, hs, Handle.filled, hk, if_true]

theorem sourceStop_waits {x : Handle} (h : HReg) {k : Nat} (hs : x.st = .ring) (hk : x.p - x.d < k) : x.sourceStop h k = some .wait := by
  have hne : (HState.ring == HState.stream) = false := rfl
  simp only [Handle.sourceStop, hs, Handle.filled, Nat.not_le.mpr hk, hne, Bool.false_and, Bool.false_eq_true, if_false]

theorem destStop_ready {x : Handle} {k : Nat} (hs : x.st = .ring) (hk : k ≤ x.slots - (x.q - x.c)) : x.destStop k = none := by
  simp only [Handle.destStop, hs, Handle.free, hk, if_true]

theorem destStop_waits {x : Handle} {k : Nat} (hs : x.st = .ring) (hk : x.slots - (x.q - x.c) < k) : x.destStop k = some .wait := by
  simp only [Handle.destStop, hs, Handle.free, Nat.not_le.mpr hk, if_false]

/-- Settles O43: puts and flags go through `putIssue`, sends and receives through `ringIssue` on claimed slots. -/
theorem ringWords : Obligations.RingWords := by
  unfold Obligations.RingWords
  refine ⟨?_, ?_, ?_, ?_⟩
  · intro c d pkg dst src len i k sized
    refine ⟨firstTraps_of_trap (fun _ => rfl) ?_, rput_misaligned c d pkg dst src len,
      puts_of_putIssue (good := GoodPut dst src len) (pk := fun q => (pkg.val q).toNat % 16)
        (kind := fun q => .put ((pkg.val q).toNat % 16) (q.rs dst) (q.rs src) (k q)) (fun _ => rfl) ?_⟩
    · rintro m s x ⟨hi, rfl⟩
      exact if_pos hi
    · rintro m s ⟨-, hi⟩ ⟨hn, hd, hs, hok⟩
      simp only [hi, putSized_iff.mp hn, hd, hs, hok, bne_self_eq_false, Bool.false_eq_true, if_false]
      rfl
  · intro c d pkg dst v i
    refine ⟨firstTraps_of_trap (fun _ => rfl) ?_, firstTraps_of_trap (fun _ => rfl) ?_,
      puts_of_putIssue (good := fun m s => ((s.core m).rs dst).toNat % 8 = 0) (pk := fun q => (pkg.val q).toNat % 16)
        (kind := fun q => .flag ((pkg.val q).toNat % 16) (q.rs dst) (v.val q)) (fun _ => rfl) ?_⟩
    · rintro m s x ⟨hi, rfl⟩
      exact if_pos hi
    · rintro m s x ⟨hi, hd, rfl⟩
      simp only [hi, bne_iff_ne.mpr hd, Bool.false_eq_true, if_false, if_true]
    · rintro m s ⟨-, hi⟩ hd
      simp only [hi, hd, bne_self_eq_false, Bool.false_eq_true, if_false]
  · intro c d
    refine ⟨waits_of_wait (fun _ => rfl) fun m s h => if_neg ?_, inTurns_of_done (fun _ => rfl) ?_⟩
    · exact fun he => h (List.isEmpty_iff.mp he)
    · rintro m s t ⟨h, rfl⟩
      exact if_pos (List.isEmpty_iff.mpr h)
  · intro streams
    refine ⟨?_, ?_⟩
    · intro c d h ch i k
      refine ⟨firstTraps_of_trap (fun _ => rfl) ?_, waits_of_wait (fun _ => rfl) ?_,
        streams_of_ringIssue (sends := true) (ready := fun q => let x := q.handle h
            (x.st = .ring ∨ x.st = .stream) ∧ k ≤ x.p - x.d)
          (claim := fun q => q.setHandle h { q.handle h with d := (q.handle h).d + k })
          (kind := fun q => .send h (ch.toNat / 16) (ch.toNat % 16) (q.handle h).d k) (fun _ => rfl) (fun _ => rfl) (fun _ => rfl) ?_⟩
      · rintro m s x ⟨hi, rfl⟩
        exact if_pos hi
      · rintro m s ⟨hi, hs, hk⟩
        have hstop : ((s.core m).handle h).sourceStop h (c.n.toNat + 1) = some .wait := sourceStop_waits h hs hk
        simp only [hi, Ctl.slots, hstop, Bool.false_eq_true, if_false]
      · rintro m s ⟨⟨hf, hsc⟩, hi⟩ ⟨hs, hk⟩
        have hstop : ((s.core m).handle h).sourceStop h (c.n.toNat + 1) = none := sourceStop_ready h hs hk
        simp only [hi, Ctl.slots, hstop, fenceGate_open clsRp hf hsc, Bool.false_eq_true, if_false]
        rfl
    · intro c d h ch i k
      refine ⟨firstTraps_of_trap (fun _ => rfl) ?_, waits_of_wait (fun _ => rfl) ?_,
        streams_of_ringIssue (sends := false) (ready := fun q => let x := q.handle h
            x.st = .ring ∧ k ≤ x.slots - (x.q - x.c))
          (claim := fun q => q.setHandle h { q.handle h with q := (q.handle h).q + k })
          (kind := fun q => .recv h (ch.toNat / 16) (ch.toNat % 16) (q.handle h).q k) (fun _ => rfl) (fun _ => rfl) (fun _ => rfl) ?_⟩
      · rintro m s x ⟨hi, rfl⟩
        exact if_pos hi
      · rintro m s ⟨hi, hs, hk⟩
        have hstop : ((s.core m).handle h).destStop (c.n.toNat + 1) = some .wait := destStop_waits hs hk
        simp only [hi, Ctl.slots, hstop, Bool.false_eq_true, if_false]
      · rintro m s ⟨⟨hf, hsc⟩, hi⟩ ⟨hs, hk⟩
        have hstop : ((s.core m).handle h).destStop (c.n.toNat + 1) = none := destStop_ready hs hk
        simp only [hi, Ctl.slots, hstop, fenceGate_open clsRp hf hsc, Bool.false_eq_true, if_false]
        rfl

end Sys2Proof.Machine

/-! Proof of O50, first part: update pairs (R366 to R376). Pairs reach a sorter's batch, in key order its bins, and from there
their lines. -/
namespace Sys2Proof.Machine

/-! ## Insertion by a strict order -/

section
variable {α : Type} {r : α → α → Prop} [DecidableRel r]

/-- No element of a list comes before an earlier one. -/
def InOrder (r : α → α → Prop) (l : List α) : Prop := l.Pairwise fun x y => ¬ r y x

variable (htrans : ∀ x y z, r x y → r y z → r x z) (hasymm : ∀ x y, r x y → ¬ r y x)

include htrans hasymm in
theorem orderedInsert_inOrder {l : List α} (h : InOrder r l) (x : α) : InOrder r (l.orderedInsert r x) := by
  induction l with
  | nil => exact List.pairwise_singleton _ _
  | cons y l ih =>
    obtain ⟨hy, hl⟩ := List.pairwise_cons.mp h
    rw [List.orderedInsert_cons]
    split
    · next hxy =>
      refine List.pairwise_cons.mpr ⟨fun z hz => ?_, h⟩
      rcases List.mem_cons.mp hz with rfl | hz
      · exact hasymm _ _ hxy
      · exact fun hzx => hy z hz (htrans _ _ _ hzx hxy)
    · next hxy =>
      refine List.pairwise_cons.mpr ⟨fun z hz => ?_, ih hl⟩
      rcases List.mem_cons.mp ((List.perm_orderedInsert r x l).mem_iff.mp hz) with rfl | hz
      · exact hxy
      · exact hy z hz

include htrans hasymm in
/-- Elements inserted one by one are a permutation in order. -/
theorem foldl_orderedInsert_sorts {insert : α → List α → List α} (hi : ∀ x l, insert x l = l.orderedInsert r x) (l : List α) :
    (l.foldl (fun acc x => insert x acc) []).Perm l ∧ InOrder r (l.foldl (fun acc x => insert x acc) []) := by
  suffices h : ∀ (l acc : List α), InOrder r acc →
      (l.foldl (fun acc x => insert x acc) acc).Perm (acc ++ l) ∧ InOrder r (l.foldl (fun acc x => insert x acc) acc) from
    h l [] .nil
  intro l
  induction l with
  | nil => exact fun acc h => ⟨by simp, h⟩
  | cons x l ih =>
    intro acc h
    obtain ⟨hperm, hord⟩ := ih (insert x acc) (by rw [hi]; exact orderedInsert_inOrder htrans hasymm h x)
    refine ⟨hperm.trans ?_, hord⟩
    rw [hi]
    exact ((List.perm_orderedInsert r x acc).append_right l).trans List.perm_middle.symm
end

/-! ## Key order (R368) -/

/-- The order of keys, by address, source and number. -/
def KeyLt (a b : Nat × Nat × Nat) : Prop := a.1 < b.1 ∨ a.1 = b.1 ∧ (a.2.1 < b.2.1 ∨ a.2.1 = b.2.1 ∧ a.2.2 < b.2.2)

theorem KeyLt.trans {a b c : Nat × Nat × Nat} (h : KeyLt a b) (k : KeyLt b c) : KeyLt a c := by
  unfold KeyLt at *
  omega

theorem KeyLt.asymm {a b : Nat × Nat × Nat} (h : KeyLt a b) : ¬ KeyLt b a := by
  unfold KeyLt at *
  omega

theorem pairLt_iff {a b : Pair} : pairLt a b = true ↔ KeyLt (a.addr, a.src, a.seq) (b.addr, b.src, b.seq) := by
  simp [pairLt, KeyLt]

theorem insertPair_eq (p : Pair) (l : List Pair) : insertPair p l = l.orderedInsert (fun a b => pairLt a b = true) p := by
  induction l with
  | nil => rfl
  | cons q l ih => rw [insertPair, List.orderedInsert_cons, ih]

theorem sortPairs_sorts (l : List Pair) : (sortPairs l).Perm l ∧ (sortPairs l).Pairwise fun p q => pairLt q p = false := by
  obtain ⟨hperm, hord⟩ := foldl_orderedInsert_sorts (r := fun a b => pairLt a b = true)
    (fun _ _ _ h k => pairLt_iff.mpr ((pairLt_iff.mp h).trans (pairLt_iff.mp k)))
    (fun _ _ h k => (pairLt_iff.mp h).asymm (pairLt_iff.mp k)) insertPair_eq l
  exact ⟨hperm, hord.imp Bool.eq_false_iff.mpr⟩

/-! ## Arrival (R367, R369) -/

section
variable {s : State} {k : Nat} {p : Pair}

/-- A pair leaves the flight, and its source has its credit back. -/
def State.leavesFlight (s : State) (k : Nat) (p : Pair) : State :=
  ({ s with flight := s.flight.eraseIdx k } : State).modCore p.src fun q => { q with credits := min 256 (q.credits + 1) }

theorem entersAt_none (h : (s.ctxs.find p.ctx).any (·.dying) = true ∨ s.pairLoc p = none) : s.entersAt p = none := by
  unfold State.entersAt
  rcases h with h | h
  · rw [if_pos h]
  · rw [h, Option.map_none, ite_self]

theorem entersAt_some {pk h : Nat} (hl : s.pairLoc p = some (pk, h)) (hd : (s.ctxs.find p.ctx).any (·.dying) = false) :
    s.entersAt p = some (sorterOf h) := by
  rw [State.entersAt, hd, hl]
  rfl

theorem arrivePair_nothing (h : s.flight.length ≤ k) : s.arrivePair k = s := by
  rw [State.arrivePair, List.getElem?_eq_none h]

theorem arrivePair_dropped (hp : s.flight[k]? = some p) (h : s.entersAt p = none) : s.arrivePair k = s.leavesFlight k p := by
  rw [State.arrivePair, hp]
  dsimp only
  rw [h]
  rfl

/-- The pair joins the batch of sorter `d`. -/
def State.joinsBatch (s : State) (k : Nat) (p : Pair) (d : Nat) : State :=
  let r := (s.leavesFlight k p).receipt p.src (sorterLevel p.src d)
  r.setSorter d { r.sorter d with batch := (s.sorter d).batch ++ [p] }

theorem arrivePair_joins {d : Nat} (hp : s.flight[k]? = some p) (hd : s.entersAt p = some d) (hb : (s.sorter d).batch.length < batchCap) :
    s.arrivePair k = if batchCap ≤ (s.sorter d).batch.length + 1 then (s.joinsBatch k p d).closeBatch d else s.joinsBatch k p d := by
  rw [State.arrivePair, hp]
  dsimp only
  simp only [hd, if_neg (Nat.not_le.mpr hb)]
  rfl

theorem arrivePair_stuck {d : Nat} (hp : s.flight[k]? = some p) (hd : s.entersAt p = some d) (hb : batchCap ≤ (s.sorter d).batch.length)
    (hb' : batchCap ≤ ((s.closeBatch d).sorter d).batch.length) : s.arrivePair k = s.closeBatch d := by
  rw [State.arrivePair, hp]
  dsimp only
  simp only [hd, if_pos hb, if_pos hb']
end

/-! ## Batches and bins (R369) -/

section
variable {s : State} {k : Nat}

theorem binPairs_append {x y : List Pair} {w : State} (h : x.foldlM (fun (u : State) p => u.binPair k p) s = some w) :
    s.binPairs k (x ++ y) = w.binPairs k y := by
  induction x generalizing s with
  | nil => exact Option.some.inj h ▸ rfl
  | cons p x ih =>
    obtain ⟨u, hu, hx⟩ := Option.bind_eq_some_iff.mp (List.foldlM_cons (m := Option) .. ▸ h)
    rw [List.cons_append, State.binPairs, hu]
    exact ih hx

theorem closeBatch_passes {x y : List Pair} {w : State} (hs : sortPairs (s.sorter k).batch = x ++ y)
    (h : x.foldlM (fun (u : State) p => u.binPair k p) (s.setSorter k { s.sorter k with batch := [] }) = some w) :
    s.closeBatch k = w.binPairs k y := by
  rw [State.closeBatch, hs]
  exact binPairs_append h

theorem binPairs_stuck {p : Pair} {r : List Pair} (h : s.binPair k p = none) :
    s.binPairs k (p :: r) = s.setSorter k { s.sorter k with batch := p :: r ++ (s.sorter k).batch } := by
  rw [State.binPairs, h]

theorem binPair_joins {p : Pair} {line home : Nat} {ps : List Pair} (hl : s.pairLoc p = some (128 * line + p.addr % 128, home))
    (hb : (s.sorter k).bins.find? (·.1 == line) = some (line, ps)) (hc : ps.length < binCap) :
    s.binPair k p = some (s.setSorter k { s.sorter k with
      bins := (s.sorter k).bins.filter (·.1 != line) ++ [(line, insertPair p ps)] }) := by
  have hline : (128 * line + p.addr % 128) / 128 = line := by omega
  simp only [State.binPair, hl, hline, hb, if_pos hc]
end

/-! ## Applying (R373, R374) -/

section
variable {s : State} {ctx line k : Nat}

/-- The pending pairs of a line of regions that are flushed or are to end, in key order. -/
def State.pendingFor (s : State) (ctx line : Nat) : List Pair :=
  sortPairs (s.sorterPairs.filter fun p => p.ctx == ctx && p.addr / 128 == line && s.applies p.region)

theorem applyStep_first (s : State) (ctx line : Nat) : ∃ m, s.applyStep ctx line = (s.pendingFor ctx line).take m ∧
    (s.pendingFor ctx line ≠ [] → 1 ≤ m ∧ m ≤ (s.pendingFor ctx line).length) := by
  refine ⟨_, rfl, fun h => ⟨Nat.le_add_right _ _, ?_⟩⟩
  have := Nat.mod_lt (Config.applyCut s.tick) (List.length_pos_iff.mpr h)
  simp only [State.pendingFor] at this ⊢
  omega

theorem applyWhere_nothing (s : State) {pick : Pair → Bool} (h : ∀ p, pick p = false) : s.applyWhere pick = some s := by
  have hnil : s.sorterPairs.filter pick = [] := List.filter_eq_nil_iff.mpr fun p _ => by simp [h p]
  rw [State.applyWhere, hnil]
  rfl

theorem updateApply_eq (s : State) (ctx line : Nat) : exec (.updateApply ctx line) s =
    ((s.endFlushes ctx line).applyWhere (s.applyStep ctx line).contains).elim (.next s) fun u => .next u.settleRegions := by
  show execUpdateApply ctx line s = _
  unfold execUpdateApply
  cases (s.endFlushes ctx line).applyWhere (s.applyStep ctx line).contains <;> rfl

theorem updateApply_nothing (h : s.pendingFor ctx line = []) :
    exec (.updateApply ctx line) s = .next (s.endFlushes ctx line).settleRegions := by
  obtain ⟨m, hm, -⟩ := applyStep_first s ctx line
  rw [updateApply_eq, applyWhere_nothing _ fun p => by rw [hm, h]; simp]
  rfl

/-- A bin of the line stands full. -/
def State.FullBin (s : State) (k line : Nat) : Prop := ∃ ps, (line, ps) ∈ (s.sorter k).bins ∧ binCap ≤ ps.length

theorem fullBin_iff : ((s.sorter k).bins.any fun (l, ps) => l == line && decide (binCap ≤ ps.length)) = true ↔ s.FullBin k line := by
  simp only [List.any_eq_true, Bool.and_eq_true, beq_iff_eq, decide_eq_true_eq, State.FullBin]
  exact ⟨fun ⟨⟨l, ps⟩, hm, hl, hc⟩ => ⟨ps, hl ▸ hm, hc⟩, fun ⟨ps, hm, hc⟩ => ⟨_, hm, rfl, hc⟩⟩

theorem backgroundFlush_nothing (h : ¬ s.FullBin k line) : exec (.backgroundFlush k line) s = .next s :=
  if_neg (mt fullBin_iff.mp h)

theorem backgroundFlush_applies (h : s.FullBin k line) : exec (.backgroundFlush k line) s =
    (s.applyBlock line).elim (.next s) fun u => .next u.settleRegions := by
  refine (if_pos (fullBin_iff.mpr h)).trans ?_
  cases s.applyBlock line <;> rfl
end

end Sys2Proof.Machine

/-! Proof of O50, second part: packets and flags that arrive, acknowledgements, slots and links (R200, R202, R255 to R257, R412,
R413). -/
namespace Sys2Proof.Machine

/-! ## Packets (R200, R255) -/

section
variable {s : State} {p : RingPkt}

theorem holdPacket_new (hp : p ∉ s.ring.waiting) (hc : p.counts = none) (hh : p.held = 0) (page : Option Nat) :
    s.holdPacket p page = { s with ring := { s.ring with
      holds := s.ring.holds + 1, waiting := s.ring.waiting ++ [{ p with page := page, held := s.ring.holds + 1 }] } } := by
  have hno : s.ring.waiting.contains p = false := by simpa using hp
  simp only [State.holdPacket, hc, hh, hno, if_true, Option.isSome_none, Bool.false_eq_true, if_false,
    Nat.max_eq_right (Nat.le_succ s.ring.holds)]

/-- What is held and has no answer stays held. -/
theorem ringRetry_unanswered (h : ∀ w ∈ s.ring.heldOrder, w.page.isSome = true) : s.ringRetry = s := by
  suffices hl : ∀ l : List RingPkt, (∀ w ∈ l, w.page.isSome = true) → l.foldl (fun s p => s.retryHeld p) s = s from hl _ h
  intro l hl
  induction l with
  | nil => rfl
  | cons w l ih =>
    have hw : s.retryHeld w = s := if_pos (hl w List.mem_cons_self)
    rw [List.foldl_cons, hw]
    exact ih fun x hx => hl x (List.mem_cons_of_mem _ hx)

/-- A packet has been performed, or is held: it is delivered again. -/
def State.Delivered (s : State) (p : RingPkt) : Prop :=
  s.packetDone p = true ∨ ∃ w ∈ s.ring.waiting, ({ w with page := none, held := 0 } : RingPkt) = p

theorem delivered_iff : (s.packetDone p || (s.ring.waiting.any fun w => { w with page := none, held := 0 } == p)) = true ↔
    s.Delivered p := by
  simp [State.Delivered]
end

section
variable {s : State} {pkg rctx : Nat} {path : PathSeq} {dst : Word} {data : List Byte}

/-- The packet of RING_PACKET_PERFORM. -/
def ringPacket (pkg rctx : Nat) (path : PathSeq) (dst : Word) (data : List Byte) : RingPkt :=
  { pkg, rctx, path := path.path, seq := path.seq, dst, data }

theorem packetPerform_again (hw : ∀ w ∈ s.ring.heldOrder, w.page.isSome = true) (h : s.Delivered (ringPacket pkg rctx path dst data)) :
    exec (.ringPacketPerform pkg rctx path dst data) s = .next s := by
  show execRingPacketPerform pkg rctx path dst data s = _
  unfold execRingPacketPerform
  rw [ringRetry_unanswered hw]
  exact if_pos (delivered_iff.mpr h)

/-- A new packet is looked at behind the packets held ahead of it. -/
theorem packetPerform_new (hw : ∀ w ∈ s.ring.heldOrder, w.page.isSome = true) (h : ¬ s.Delivered (ringPacket pkg rctx path dst data)) :
    exec (.ringPacketPerform pkg rctx path dst data) s = .next ((s.aheadOf (ringPacket pkg rctx path dst data)).elim
      ((s.perform (ringPacket pkg rctx path dst data)).getD s) fun w => s.holdPacket (ringPacket pkg rctx path dst data) w.page) := by
  show execRingPacketPerform pkg rctx path dst data s = _
  unfold execRingPacketPerform
  rw [ringRetry_unanswered hw]
  refine (if_neg (mt delivered_iff.mp h)).trans ?_
  show (match s.aheadOf (ringPacket pkg rctx path dst data) with
    | some w => Host.Outcome.next (s.holdPacket (ringPacket pkg rctx path dst data) w.page)
    | none => Host.Outcome.next ((s.perform (ringPacket pkg rctx path dst data)).getD s)) = _
  cases s.aheadOf (ringPacket pkg rctx path dst data) <;> rfl
end

section
variable {s : State} {p : RingPkt}

theorem perform_denied (h : s.land p = .denied) : s.perform p = some ((s.unhold p).countPacket p) := by
  rw [State.perform, h]

theorem perform_absent {ctx va : Nat} {m : Miss} (h : s.land p = .absent ctx va m) :
    s.perform p = some ((s.pageRequest ctx va 1 5 0xFFFF m.bad).holdPacket p (some (alignDown va 4096))) := by
  rw [State.perform, h]

theorem perform_lands {ctx : Nat} {cells : List (Nat × Mem)} {l : Option State} (h : s.land p = .lands ctx cells)
    (hl : (((s.unhold p).portReceipt ctx).landTouch ctx p.dst.toNat p.data.length).landCells cells = l) :
    s.perform p = l.map fun u => u.countPacket p := by
  rw [State.perform, h, ← hl]

theorem countPacket_flag (h : p.counts.isSome = true) : s.countPacket p = s := if_pos h
end

/-! ## Ordered flags (R256) -/

section
variable {s : State} {pkg rctx : Nat} {path : PathSeq} {dst v : Word} {counts : List Nat}

/-- The packet of ORDERED_FLAG_PERFORM. -/
def flagPacket (pkg rctx : Nat) (path : PathSeq) (dst v : Word) (counts : List Nat) : RingPkt :=
  { pkg, rctx, path := path.path, seq := path.seq, dst, data := leBytes 8 v.toNat, counts := some counts }

theorem flagPerform_held {g : RingPkt} (h : s.heldFlag (flagPacket pkg rctx path dst v counts) = some g) :
    exec (.orderedFlagPerform pkg rctx path dst v counts) s = .next (if s.flagNext g then s.performFlag g else s) := by
  show execOrderedFlagPerform pkg rctx path dst v counts s = _
  unfold execOrderedFlagPerform
  unfold flagPacket at h
  dsimp only
  rw [h]

/-- A flag has taken its place. -/
def State.placesFlag (s : State) (f : RingPkt) : State :=
  { s with ring := { s.ring with
    flags := s.ring.flags ++ [f], flagsTaken := s.ring.flagsTaken.set (flagsKey f) (s.ring.flagsTaken.get (flagsKey f) 0 + 1) } }

theorem flagPerform_new (h : s.heldFlag (flagPacket pkg rctx path dst v counts) = none) :
    exec (.orderedFlagPerform pkg rctx path dst v counts) s =
      if path.seq ≠ s.ring.flagsTaken.get (pkg * 8192 + rctx) 0 ∨ 64 ≤ s.ring.flags.length then .next s
      else let u := s.placesFlag (flagPacket pkg rctx path dst v counts)
        .next (if u.flagNext (flagPacket pkg rctx path dst v counts) then u.performFlag (flagPacket pkg rctx path dst v counts) else u) := by
  show execOrderedFlagPerform pkg rctx path dst v counts s = _
  unfold execOrderedFlagPerform
  unfold flagPacket at h ⊢
  dsimp only
  rw [h]
  dsimp only
  simp only [Bool.or_eq_true, bne_iff_ne, decide_eq_true_eq]
  rfl
end

/-! ## Acknowledgements (R202, R257) -/

section
variable {s : State} {c : CoreId} {n path : Nat} {st : Byte} {o : EngOp}

/-- The oldest operation of a number is the first one that is the same. -/
theorem find?_same_of_opNamed (h : s.opNamed c .rg n = some o) : (s.ops.find? fun x => x.same o) = some o := by
  obtain ⟨hp, a, b, hab, ha⟩ := List.find?_eq_some_iff_append.mp h
  refine List.find?_eq_some_iff_append.mpr ⟨by simp [EngOp.same], a, b, hab, fun x hx => ?_⟩
  simp only [Bool.and_eq_true, beq_iff_eq] at hp
  obtain ⟨⟨hc, ht⟩, hn⟩ := hp
  have hx' := ha x hx
  simp only [EngOp.same, hc, ht, hn]
  simp only [Bool.not_eq_true', Bool.and_eq_false_iff] at hx' ⊢
  tauto

theorem ringAck_unknown (h : s.opNamed c .rg n = none) : exec (.ringAck c n path st) s = .next s := by
  show execRingAck c n path st s = _
  rw [execRingAck, h]

section
variable {h : HReg} {port ch first k : Nat}

theorem ringAck_send_down (ho : s.opNamed c .rg n = some o) (hk : o.kind = .send h port ch first k)
    (hd : ∀ p ∈ portPaths port, (s.link p).up = false) : exec (.ringAck c n path st) s = .next s := by
  show execRingAck c n path st s = _
  have hnone : ((portPaths port).find? fun p => (s.link p).up) = none :=
    List.find?_eq_none.mpr fun p hp => by rw [hd p hp]; exact Bool.false_ne_true
  simp only [execRingAck, ho, hk, hnone]

/-- An acknowledgement before which no slot has to leave. -/
theorem ringAck_send (ho : s.opNamed c .rg n = some o) (hk : o.kind = .send h port ch first k)
    (hu : ∃ p ∈ portPaths port, (s.link p).up = true) (hs : (st = 0 && o.sent.length = o.acked) = false) :
    exec (.ringAck c n path st) s = .next (s.slotAck o h first k st) := by
  show execRingAck c n path st s = _
  obtain ⟨p, hp⟩ := Option.isSome_iff_exists.mp (List.find?_isSome.mpr hu)
  simp only [execRingAck, ho, hk, hp, hs, Bool.false_eq_true, if_false, find?_same_of_opNamed ho]
end

theorem ringAck_put_down (ho : s.opNamed c .rg n = some o) (hk : o.kind.isPut = true) (hd : 4 ≤ path ∨ (s.link path).up = false) :
    exec (.ringAck c n path st) s = .next s := by
  show execRingAck c n path st s = _
  have hdown : (4 ≤ path || !(s.link path).up) = true := by simpa using hd
  unfold execRingAck
  rw [ho]
  dsimp only
  cases hkind : o.kind with
  | put | flag => exact if_pos hdown
  | _ => exact absurd hk (by simp [hkind, OpKind.isPut])

/-- An acknowledgement of a packet that has left. -/
theorem ringAck_put (ho : s.opNamed c .rg n = some o) (hk : o.kind.isPut = true) (hp : path < 4) (hu : (s.link path).up = true)
    (hs : o.acked < o.sent.length) : exec (.ringAck c n path st) s = .next (s.putAck o path st) := by
  show execRingAck c n path st s = _
  have hup : ¬ (4 ≤ path || !(s.link path).up) = true := by simp [hp, hu]
  have hleft : o.sent.length ≠ o.acked := Nat.ne_of_gt hs
  unfold execRingAck
  rw [ho]
  dsimp only
  cases hkind : o.kind with
  | put | flag =>
    refine (if_neg hup).trans ?_
    simp only [if_neg hleft, find?_same_of_opNamed ho]
  | _ => exact absurd hk (by simp [hkind, OpKind.isPut])
end

section
variable {s : State} {o : EngOp} {path : Nat} {st : Byte}

theorem putAck_left (hs : o.acked < o.sent.length) : s.putAck o path st =
    let u := s.pathCount o path
    let x : EngOp := { o with
      acked := o.acked + 1, fail := if st ≠ 0 ∧ o.fail = none then some (st, ringFailInfo o) else o.fail }
    if o.acked + 1 = o.kind.packets then u.ringEnd x ((x.fail.map (·.1)).getD 0) ((x.fail.map (·.2)).getD 0) else u.setOp x := by
  refine (if_neg (Nat.not_le.mpr hs)).trans ?_
  simp only [Bool.and_eq_true, bne_iff_ne, Option.isNone_iff_eq_none]

theorem slotAck_left {h : HReg} {first k : Nat} (hst : st = 0) (hs : o.acked < o.sent.length) : s.slotAck o h first k st =
    let u := s.modOpHandle o.core o.inst h fun x => x.commitC (first + o.acked)
    let x : EngOp := { o with acked := o.acked + 1 }
    if o.acked + 1 = k then u.ringEnd x 0 0 else u.setOp x := by
  subst hst
  exact (if_neg (by decide)).trans (if_neg (Nat.not_le.mpr hs))
end

/-! ## Slots that arrive (R202) -/

section
variable {s : State} {port ch : Nat} {data : List Byte}

/-- An operation is a receive on a channel. -/
def EngOp.receivesOn (port ch : Nat) (o : EngOp) : Bool :=
  match o.kind with
  | .recv _ p k _ _ => p == port && k == ch
  | _ => false

theorem receivesOn_iff {o : EngOp} : o.receivesOn port ch = true ↔ ∃ h first n, o.kind = .recv h port ch first n := by
  unfold EngOp.receivesOn
  split
  · next h p k first n hk => simp [hk]
  · next hk => simp only [Bool.false_eq_true, false_iff]; exact fun ⟨h, first, n, he⟩ => hk _ _ _ _ _ he

theorem slotArrive_nothing (h : ∀ o ∈ s.ops, ∀ r first n, o.kind ≠ .recv r port ch first n) :
    exec (.ringSlotArrive port ch data) s = .next s := by
  show execRingSlotArrive port ch data s = _
  have hnone : s.ops.find? (EngOp.receivesOn port ch) = none :=
    List.find?_eq_none.mpr fun o ho hr => by
      obtain ⟨r, first, n, hk⟩ := receivesOn_iff.mp hr
      exact h o ho r first n hk
  unfold execRingSlotArrive
  split
  · rfl
  · next ho => cases hnone.symm.trans ho

theorem slotArrive_first {a b : List EngOp} {o : EngOp} {h : HReg} {first n : Nat} (hab : s.ops = a ++ o :: b)
    (ha : ∀ x ∈ a, ∀ h' f' n', x.kind ≠ .recv h' port ch f' n') (hk : o.kind = .recv h port ch first n) :
    exec (.ringSlotArrive port ch data) s =
      if (s.opHandle o.core o.inst h).bytes ≠ data.length then .next (s.endSlots o 0x32 (ringFailInfo o))
      else .next (if o.acked + 1 = n then ((s.portReceipt o.ctx).fillRecv o h (first + o.acked) data).ringEnd
          { o with acked := o.acked + 1 } 0 0
        else ((s.portReceipt o.ctx).fillRecv o h (first + o.acked) data).setOp { o with acked := o.acked + 1 }) := by
  show execRingSlotArrive port ch data s = _
  have hfind : s.ops.find? (EngOp.receivesOn port ch) = some o := by
    refine List.find?_eq_some_iff_append.mpr ⟨receivesOn_iff.mpr ⟨h, first, n, hk⟩, a, b, hab, fun x hx => ?_⟩
    rw [Bool.not_eq_true', Bool.eq_false_iff]
    intro hr
    obtain ⟨h', f', n', hk'⟩ := receivesOn_iff.mp hr
    exact ha x hx h' f' n' hk'
  unfold execRingSlotArrive
  split
  · next ho => cases hfind.symm.trans ho
  · next o' ho =>
    obtain rfl : o = o' := Option.some.inj (hfind.symm.trans ho)
    simp only [hk, bne_iff_ne, ne_eq]
end

/-! ## Links (R412, R413) -/

section
variable {s : State} {k lanes : Nat}

theorem laneRetire_eq (s : State) (k : Nat) : exec (.laneRetire k) s = let l := s.link k
    if 4 ≤ k || !l.up then .next s
    else if 8 < l.lanes then .next ((s.setLink k { l with lanes := 8 }).ringEvent 2 k 8) else .next (s.dropLink k (l.lanes - 1)) := rfl

theorem linkDown_eq (s : State) (k : Nat) : exec (.linkDown k) s = let l := s.link k
    if 4 ≤ k || !(l.up || l.training) then .next s else .next (s.dropLink k (min 7 l.lanes)) := rfl

theorem linkTrained_eq (s : State) (k lanes : Nat) : exec (.linkTrained k lanes) s =
    if 4 ≤ k || !(s.link k).training then .next s else if lanes < 8 then .next (s.dropLink k lanes)
    else .next ((s.setLink k { up := true, lanes := lanes }).ringEvent 1 k lanes) := rfl

theorem linkEvents_unknown (h : 4 ≤ k) : ∀ i ∈ [Instr.laneRetire k, .linkDown k, .linkTrained k lanes], exec i s = .next s := by
  intro i hi
  simp only [List.mem_cons, List.not_mem_nil, or_false] at hi
  rcases hi with rfl | rfl | rfl
  · simp [laneRetire_eq, h]
  · simp [linkDown_eq, h]
  · simp [linkTrained_eq, h]
end

/-- Settles O50: each event is one of the steps above. -/
theorem updateAndRingEvents : Obligations.UpdateAndRingEvents := by
  unfold Obligations.UpdateAndRingEvents
  refine ⟨?_, ?_, ?_, ?_, ?_⟩
  · intro s k
    have harrival : ∀ t, s.arrivePair k = t → exec (.updatePairArrival k) s = .next t.settleRegions := fun t ht =>
      ht ▸ (rfl : exec (.updatePairArrival k) s = .next (s.arrivePair k).settleRegions)
    refine ⟨fun h => harrival s (arrivePair_nothing h), fun p hp => ⟨fun h => ?_, fun pk h hl hd => ⟨fun hb => ?_, fun hb => ?_,
      fun hb hb' => ?_⟩⟩, ⟨(sortPairs_sorts _).1, (sortPairs_sorts _).2, fun x y w hs hx => ⟨?_, ?_⟩⟩, fun p line home ps hl hb hc => ?_,
      fun ctx line => ⟨applyStep_first s ctx line, updateApply_nothing, fun h => ?_, fun u h => ?_⟩, fun line => ⟨fun h => ?_,
      fun h => ⟨fun ha => ?_, fun u ha => ?_⟩⟩⟩
    · exact harrival _ (arrivePair_dropped hp (entersAt_none h))
    · exact harrival _ ((arrivePair_joins hp (entersAt_some hl hd) (by omega)).trans (if_neg (by omega)))
    · exact harrival _ ((arrivePair_joins hp (entersAt_some hl hd) (by omega)).trans (if_pos (by omega)))
    · exact harrival _ (arrivePair_stuck hp (entersAt_some hl hd) hb hb')
    · rintro rfl
      exact congrArg Host.Outcome.next (closeBatch_passes hs hx)
    · rintro p r rfl hnone
      exact congrArg Host.Outcome.next ((closeBatch_passes hs hx).trans (binPairs_stuck hnone))
    · exact binPair_joins hl hb hc
    · rw [updateApply_eq, show (s.endFlushes ctx line).applyWhere (s.applyStep ctx line).contains = none from h]
      rfl
    · rw [updateApply_eq, show (s.endFlushes ctx line).applyWhere (s.applyStep ctx line).contains = some u from h]
      rfl
    · exact backgroundFlush_nothing fun ⟨ps, hm, hc⟩ => absurd (h line ps hm rfl) (by omega)
    · rw [backgroundFlush_applies h, ha]
      rfl
    · rw [backgroundFlush_applies h, ha]
      rfl
  · intro s pkg rctx path dst v data counts p i
    refine ⟨fun hp page => holdPacket_new hp rfl rfl page, fun hw => ⟨packetPerform_again hw, fun hnew => ?_⟩, ?_⟩
    · have hexec := packetPerform_new hw hnew
      have hperform : s.aheadOf p = none → ∀ t, (s.perform p).getD s = t → exec i s = .next t := fun ha t ht =>
        hexec.trans (congrArg _ ((congrArg (fun x : Option RingPkt => x.elim _ _) ha).trans ht))
      refine ⟨fun w ha => hexec.trans (congrArg _ (congrArg (fun x : Option RingPkt => x.elim _ _) ha)), fun ha => ⟨fun hl => ?_,
        fun ctx va m hl => ?_, fun ctx cells hl => ⟨fun hn => ?_, fun u hu => ?_⟩⟩⟩
      · exact hperform ha _ (by rw [perform_denied hl]; rfl)
      · exact hperform ha _ (by rw [perform_absent hl]; rfl)
      · exact hperform ha _ (by rw [perform_lands hl hn]; rfl)
      · exact hperform ha _ (by rw [perform_lands hl hu]; rfl)
    · intro f j n u
      refine ⟨fun g hg => ⟨fun hn => ?_, fun hn => ?_⟩, fun hnew => ?_⟩
      · exact (flagPerform_held hg).trans (congrArg _ (if_neg (Bool.eq_false_iff.mp hn)))
      · exact (flagPerform_held hg).trans (congrArg _ (if_pos hn))
      have hexec := flagPerform_new hnew
      refine ⟨fun h => hexec.trans (if_pos h), fun hseq hroom => ?_⟩
      have hplaced := hexec.trans (if_neg (fun h => h.elim (· hseq) (Nat.not_le.mpr hroom)))
      have hperform : u.flagNext f = true → ∀ t, (u.perform f).getD u = t → exec j s = .next t := fun hn t ht =>
        hplaced.trans (congrArg _ ((if_pos hn).trans ht))
      refine ⟨fun hn => hplaced.trans (congrArg _ (if_neg (Bool.eq_false_iff.mp hn))), fun hn => ⟨fun hl => ?_, fun ctx cells w hl hw => ?_⟩⟩
      · exact hperform hn _ (by rw [perform_denied hl]; exact countPacket_flag rfl)
      · exact hperform hn _ (by rw [perform_lands hl hw]; exact countPacket_flag rfl)
  · intro s c n path st
    refine ⟨ringAck_unknown, fun o ho => ⟨fun h port ch first k hk => ⟨fun hd => ringAck_send_down ho hk hd, fun hu => ⟨fun hst => ?_,
      fun hst hs => ?_⟩⟩, fun hk => ⟨fun hd => ringAck_put_down ho hk hd, fun hp hu hs => ⟨fun hn => ?_, fun hn => ?_⟩⟩⟩⟩
    · exact (ringAck_send ho hk hu (by rw [decide_eq_false hst, Bool.false_and])).trans (congrArg _ (if_pos (bne_iff_ne.mpr hst)))
    · refine (ringAck_send ho hk hu (by simp [Nat.ne_of_gt hs])).trans (congrArg _ ?_)
      rw [slotAck_left hst hs]
    · refine (ringAck_put ho hk hp hu hs).trans (congrArg _ ?_)
      rw [putAck_left hs]
      exact if_neg hn
    · refine (ringAck_put ho hk hp hu hs).trans (congrArg _ ?_)
      rw [putAck_left hs]
      exact if_pos hn
  · intro s port ch data
    refine ⟨slotArrive_nothing, fun a o b h first n hab ha hk => ⟨fun hne => ?_, fun heq => ⟨fun hn => ?_, fun hn => ?_⟩⟩⟩
    · exact (slotArrive_first hab ha hk).trans (if_pos hne)
    · exact (slotArrive_first hab ha hk).trans ((if_neg (not_not.mpr heq)).trans (congrArg _ (if_pos hn)))
    · exact (slotArrive_first hab ha hk).trans ((if_neg (not_not.mpr heq)).trans (congrArg _ (if_neg hn)))
  · intro s k lanes l
    refine ⟨rfl, linkEvents_unknown, fun hu => ⟨?_, fun ht => ?_⟩, fun ht => ?_, fun hk => ⟨fun hu hl => ?_, fun hu hl => ?_,
      fun h => ?_, fun ht => ?_⟩⟩
    · simp only [laneRetire_eq, show (s.link k).up = false from hu, Bool.not_false, Bool.or_true, if_true]
    · simp only [linkDown_eq, show (s.link k).up = false from hu, show (s.link k).training = false from ht, Bool.or_self, Bool.not_false,
        Bool.or_true, if_true]
    · simp only [linkTrained_eq, show (s.link k).training = false from ht, Bool.not_false, Bool.or_true, if_true]
    · exact (laneRetire_eq s k).trans ((if_neg (by simp [hk, show (s.link k).up = true from hu])).trans (if_pos hl))
    · exact (laneRetire_eq s k).trans ((if_neg (by simp [hk, show (s.link k).up = true from hu])).trans (if_neg (Nat.not_lt.mpr hl)))
    · have hl : ((s.link k).up || (s.link k).training) = true := Bool.or_eq_true_iff.mpr h
      exact (linkDown_eq s k).trans (if_neg (by rw [hl]; simp [hk]))
    · refine (linkTrained_eq s k lanes).trans ((if_neg (by simp [hk, show (s.link k).training = true from ht])).trans ?_)
      exact (apply_ite Host.Outcome.next _ _ _).symm

end Sys2Proof.Machine

/-! Proof of O17, first part: the entries of a priority queue (R225, R232). A pop looks at the 32 smallest of its context's
entries, in the order of their keys and in the order of their skip counts; an entry's place in either is the number of entries
that come before it. -/
namespace Sys2Proof.Machine

/-! ## The two orders -/

/-- Of two entries the first has the smaller key, or was pushed first. -/
def keyBefore (x y : PqEntry) : Bool := decide (x.key.toNat < y.key.toNat) || (x.key == y.key && decide (x.push < y.push))

/-- Of two entries the first has been skipped more often, or was pushed first. -/
def skipBefore (x y : PqEntry) : Bool := decide (y.skip < x.skip) || (x.skip == y.skip && decide (x.push < y.push))

theorem keyBefore_iff {x y : PqEntry} :
    keyBefore x y = true ↔ x.key.toNat < y.key.toNat ∨ x.key.toNat = y.key.toNat ∧ x.push < y.push := by
  simp [keyBefore, BitVec.toNat_inj]

theorem skipBefore_iff {x y : PqEntry} : skipBefore x y = true ↔ y.skip < x.skip ∨ x.skip = y.skip ∧ x.push < y.push := by
  simp [skipBefore]

theorem insertByKey_eq (x : PqEntry) (l : List PqEntry) : insertByKey x l = l.orderedInsert (fun x y => keyBefore x y = true) x := by
  induction l with
  | nil => rfl
  | cons y l ih =>
    rw [insertByKey, List.orderedInsert_cons, ih]
    rfl

theorem insertBySkip_eq (x : PqEntry) (l : List PqEntry) : insertBySkip x l = l.orderedInsert (fun x y => skipBefore x y = true) x := by
  induction l with
  | nil => rfl
  | cons y l ih =>
    rw [insertBySkip, List.orderedInsert_cons, ih]
    rfl

/-- Entries are told apart by their numbers. -/
def Numbers (l : List PqEntry) : Prop := (l.map (·.push)).Nodup

theorem Numbers.pairwise {l : List PqEntry} (h : Numbers l) : l.Pairwise fun x y => x.push ≠ y.push := List.pairwise_map.mp h

theorem Numbers.nodup {l : List PqEntry} (h : Numbers l) : l.Nodup := List.Nodup.of_map _ h

theorem Numbers.eq_of_push {l : List PqEntry} (h : Numbers l) {x y : PqEntry} (hx : x ∈ l) (hy : y ∈ l) (he : x.push = y.push) : x = y :=
  List.inj_on_of_nodup_map h hx hy he

theorem Numbers.filter {l : List PqEntry} (h : Numbers l) (p : PqEntry → Bool) : Numbers (l.filter p) :=
  h.sublist (List.filter_sublist.map _)

/-- In a list in strict order, the place of an entry is the number of those that come before it. -/
theorem length_filter_before {before : PqEntry → PqEntry → Bool} (hasymm : ∀ x y, before x y = true → before y x = false)
    {l : List PqEntry} (h : l.Pairwise fun x y => before x y = true) {i : Nat} (hi : i < l.length) :
    (l.filter fun y => before y l[i]).length = i := by
  have hsplit : l = l.take i ++ l[i] :: l.drop (i + 1) := by rw [← List.drop_eq_getElem_cons hi, List.take_append_drop]
  obtain ⟨-, hrest, hpast⟩ := List.pairwise_append.mp (hsplit ▸ h)
  obtain ⟨hlater, -⟩ := List.pairwise_cons.mp hrest
  have hself : before l[i] l[i] = false := Bool.eq_false_iff.mpr fun hx => absurd (hasymm _ _ hx) (by simp [hx])
  have htake : (l.take i).filter (fun y => before y l[i]) = l.take i :=
    List.filter_eq_self.mpr fun y hy => hpast y hy _ List.mem_cons_self
  have hdrop : (l.drop (i + 1)).filter (fun y => before y l[i]) = [] :=
    List.filter_eq_nil_iff.mpr fun y hy => by simp [hasymm _ y (hlater y hy)]
  have hfilter : l.filter (fun y => before y l[i]) = l.take i := by
    refine (congrArg (List.filter _) hsplit).trans ?_
    rw [List.filter_append, htake, List.filter_cons_of_neg (by simp [hself]), hdrop, List.append_nil]
  rw [hfilter, List.length_take, Nat.min_eq_left hi.le]

theorem keyBefore_asymm (x y : PqEntry) (h : keyBefore x y = true) : keyBefore y x = false := by
  rw [Bool.eq_false_iff, Ne, keyBefore_iff]
  rw [keyBefore_iff] at h
  omega

theorem skipBefore_asymm (x y : PqEntry) (h : skipBefore x y = true) : skipBefore y x = false := by
  rw [Bool.eq_false_iff, Ne, skipBefore_iff]
  rw [skipBefore_iff] at h
  omega

theorem keyBefore_total {x y : PqEntry} (h : x.push ≠ y.push) : keyBefore x y = true ∨ keyBefore y x = true := by
  simp only [keyBefore_iff]
  omega

theorem skipBefore_total {x y : PqEntry} (h : x.push ≠ y.push) : skipBefore x y = true ∨ skipBefore y x = true := by
  simp only [skipBefore_iff]
  omega

/-- The entries of a context by key. -/
def byKey (l : List PqEntry) (ctx : Nat) : List PqEntry := (l.filter (·.ctx == ctx)).foldl (fun acc x => insertByKey x acc) []

/-- The 32 smallest of a context's entries by skip count. -/
def bySkip (l : List PqEntry) (ctx : Nat) : List PqEntry := (pqFront l ctx).foldl (fun acc x => insertBySkip x acc) []

section
variable {l : List PqEntry} {ctx : Nat}

theorem byKey_perm (l : List PqEntry) (ctx : Nat) : (byKey l ctx).Perm (l.filter (·.ctx == ctx)) :=
  (foldl_orderedInsert_sorts (r := fun x y => keyBefore x y = true)
    (fun x y z h k => keyBefore_iff.mpr (by rw [keyBefore_iff] at h k; omega))
    (fun x y h => by simp [keyBefore_asymm x y h]) insertByKey_eq _).1

theorem byKey_pairwise (hl : Numbers l) : (byKey l ctx).Pairwise fun x y => keyBefore x y = true := by
  have hord : InOrder (fun x y => keyBefore x y = true) (byKey l ctx) := (foldl_orderedInsert_sorts
    (fun x y z h k => keyBefore_iff.mpr (by rw [keyBefore_iff] at h k; omega))
    (fun x y h => by simp [keyBefore_asymm x y h]) insertByKey_eq _).2
  have hpush : (byKey l ctx).Pairwise fun x y => x.push ≠ y.push :=
    ((byKey_perm l ctx).pairwise_iff fun h => h.symm).mpr (hl.filter _).pairwise
  exact (hord.and hpush).imp fun ⟨hno, hne⟩ => (keyBefore_total hne).resolve_right hno

theorem bySkip_perm (l : List PqEntry) (ctx : Nat) : (bySkip l ctx).Perm (pqFront l ctx) :=
  (foldl_orderedInsert_sorts (r := fun x y => skipBefore x y = true)
    (fun x y z h k => skipBefore_iff.mpr (by rw [skipBefore_iff] at h k; omega))
    (fun x y h => by simp [skipBefore_asymm x y h]) insertBySkip_eq _).1

theorem pqFront_eq (l : List PqEntry) (ctx : Nat) : pqFront l ctx = (byKey l ctx).take 32 := rfl

theorem pqFront_pairwise (hl : Numbers l) : (pqFront l ctx).Pairwise fun x y => keyBefore x y = true :=
  (byKey_pairwise hl).sublist (List.take_sublist _ _)

theorem mem_of_mem_pqFront {x : PqEntry} (h : x ∈ pqFront l ctx) : x ∈ l ∧ x.ctx = ctx := by
  obtain ⟨hx, hc⟩ := List.mem_filter.mp ((byKey_perm l ctx).mem_iff.mp (List.mem_of_mem_take h))
  exact ⟨hx, beq_iff_eq.mp hc⟩

theorem bySkip_pairwise (hl : Numbers l) : (bySkip l ctx).Pairwise fun x y => skipBefore x y = true := by
  have hord : InOrder (fun x y => skipBefore x y = true) (bySkip l ctx) := (foldl_orderedInsert_sorts
    (fun x y z h k => skipBefore_iff.mpr (by rw [skipBefore_iff] at h k; omega))
    (fun x y h => by simp [skipBefore_asymm x y h]) insertBySkip_eq _).2
  have hfront : (pqFront l ctx).Pairwise fun x y => x.push ≠ y.push := by
    have hpush : (byKey l ctx).Pairwise fun x y => x.push ≠ y.push :=
      ((byKey_perm l ctx).pairwise_iff fun h => h.symm).mpr (hl.filter _).pairwise
    exact hpush.sublist (List.take_sublist _ _)
  have hpush : (bySkip l ctx).Pairwise fun x y => x.push ≠ y.push := ((bySkip_perm l ctx).pairwise_iff fun h => h.symm).mpr hfront
  exact (hord.and hpush).imp fun ⟨hno, hne⟩ => (skipBefore_total hne).resolve_right hno

/-! ## The 32 smallest, and their places -/

/-- One of the 32 smallest entries of a context. -/
def inFront (ctx : Nat) (l : List PqEntry) (x : PqEntry) : Bool :=
  x.ctx == ctx && decide ((l.filter fun y => y.ctx == ctx && keyBefore y x).length < 32)

/-- The place by skip count of one of them. -/
def skipPlace (ctx : Nat) (l : List PqEntry) (x : PqEntry) : Nat :=
  (l.filter fun y => inFront ctx l y && skipBefore y x).length + 1

theorem keyRank_getElem (hl : Numbers l) {i : Nat} (hi : i < (byKey l ctx).length) :
    (l.filter fun y => y.ctx == ctx && keyBefore y (byKey l ctx)[i]).length = i := by
  have hperm := ((byKey_perm l ctx).filter fun y => keyBefore y (byKey l ctx)[i]).length_eq
  rw [length_filter_before keyBefore_asymm (byKey_pairwise hl) hi, List.filter_filter] at hperm
  exact (congrArg List.length (List.filter_congr fun y _ => Bool.and_comm _ _)).trans hperm.symm

theorem inFront_iff (hl : Numbers l) {x : PqEntry} (hx : x ∈ l) : inFront ctx l x = true ↔ x ∈ pqFront l ctx := by
  have hmem : x.ctx = ctx ↔ x ∈ byKey l ctx := by
    rw [(byKey_perm l ctx).mem_iff, List.mem_filter, beq_iff_eq]
    exact ⟨fun h => ⟨hx, h⟩, fun h => h.2⟩
  rw [inFront, Bool.and_eq_true, beq_iff_eq, decide_eq_true_iff, hmem, pqFront_eq]
  refine ⟨fun ⟨hk, hr⟩ => ?_, fun h => ⟨List.mem_of_mem_take h, ?_⟩⟩
  · obtain ⟨i, hi, rfl⟩ := List.mem_iff_getElem.mp hk
    rw [keyRank_getElem hl hi] at hr
    exact List.mem_take_iff_getElem.mpr ⟨i, by omega, rfl⟩
  · obtain ⟨i, hi, rfl⟩ := List.mem_take_iff_getElem.mp h
    rw [keyRank_getElem hl (by omega)]
    omega

theorem pqFront_perm (hl : Numbers l) : (l.filter (inFront ctx l)).Perm (pqFront l ctx) := by
  refine (List.perm_ext_iff_of_nodup (hl.nodup.filter _) ?_).mpr fun x => ?_
  · refine (pqFront_pairwise hl).imp fun {x y} h => ?_
    rintro rfl
    exact absurd (keyBefore_asymm x x h) (by simp [h])
  · rw [List.mem_filter]
    exact ⟨fun ⟨hx, hf⟩ => (inFront_iff hl hx).mp hf, fun h => ⟨(mem_of_mem_pqFront h).1, (inFront_iff hl (mem_of_mem_pqFront h).1).mpr h⟩⟩

theorem skipPlace_getElem (hl : Numbers l) {i : Nat} (hi : i < (bySkip l ctx).length) : skipPlace ctx l (bySkip l ctx)[i] = i + 1 := by
  have hperm := (((pqFront_perm hl).trans (bySkip_perm l ctx).symm).filter fun y => skipBefore y (bySkip l ctx)[i]).length_eq
  rw [length_filter_before skipBefore_asymm (bySkip_pairwise hl) hi, List.filter_filter] at hperm
  exact congrArg (· + 1) ((congrArg List.length (List.filter_congr fun y _ => Bool.and_comm _ _)).trans hperm)

theorem mem_bySkip (hl : Numbers l) {x : PqEntry} : x ∈ bySkip l ctx ↔ x ∈ l ∧ inFront ctx l x = true := by
  rw [((bySkip_perm l ctx).trans (pqFront_perm hl).symm).mem_iff, List.mem_filter]

theorem length_bySkip_le (l : List PqEntry) (ctx : Nat) : (bySkip l ctx).length ≤ 32 := by
  rw [(bySkip_perm l ctx).length_eq, pqFront_eq, List.length_take]
  exact Nat.min_le_left _ _

theorem skipPlace_le (hl : Numbers l) {x : PqEntry} (hx : x ∈ l) (hf : inFront ctx l x = true) : skipPlace ctx l x ≤ 32 := by
  obtain ⟨i, hi, rfl⟩ := List.mem_iff_getElem.mp ((mem_bySkip hl).mpr ⟨hx, hf⟩)
  rw [skipPlace_getElem hl hi]
  have := length_bySkip_le l ctx
  omega

/-! ## The pop (R225, R232) -/

/-- Some entry of the front is due. -/
def SomeDue (ctx : Nat) (l : List PqEntry) : Prop := ∃ x ∈ l, inFront ctx l x = true ∧ x.skip + skipPlace ctx l x = 32

theorem pqDue_iff (hl : Numbers l) : pqDue (bySkip l ctx) = true ↔ SomeDue ctx l := by
  simp only [pqDue, List.any_eq_true, beq_iff_eq]
  constructor
  · rintro ⟨⟨x, i⟩, hm, hdue⟩
    obtain ⟨hi, hx⟩ := List.getElem?_eq_some_iff.mp (List.mem_zipIdx_iff_getElem?.mp hm)
    dsimp only at hi hx hdue
    subst hx
    obtain ⟨hx, hf⟩ := (mem_bySkip hl).mp (List.getElem_mem hi)
    exact ⟨_, hx, hf, by rw [skipPlace_getElem hl hi]; exact hdue⟩
  · rintro ⟨x, hx, hf, hdue⟩
    obtain ⟨i, hi, rfl⟩ := List.mem_iff_getElem.mp ((mem_bySkip hl).mpr ⟨hx, hf⟩)
    rw [skipPlace_getElem hl hi] at hdue
    exact ⟨⟨_, i⟩, List.mem_zipIdx_iff_getElem?.mpr (List.getElem?_eq_getElem hi), hdue⟩

/-- What a pop makes of an entry that stays. -/
def afterPop (ctx : Nat) (l : List PqEntry) (y : PqEntry) : PqEntry :=
  if y.ctx ≠ ctx then y else if inFront ctx l y then { y with skip := y.skip + 1 } else { y with skip := 0 }

theorem pqPop_eq (hl : Numbers l) : pqPop l ctx =
    (if pqDue (bySkip l ctx) then (bySkip l ctx).head? else (pqFront l ctx).head?).map fun e =>
      (e, (l.filter fun x => x.push != e.push).map (afterPop ctx l)) := by
  unfold pqPop
  refine congrArg (fun f => Option.map f _) (funext fun e => congrArg (Prod.mk e) (List.map_congr_left fun x hx => ?_))
  have hxl := (List.mem_filter.mp hx).1
  have hfront : ((pqFront l ctx).any fun y => y.push == x.push) = inFront ctx l x := by
    rw [Bool.eq_iff_iff, inFront_iff hl hxl, List.any_eq_true]
    refine ⟨fun ⟨y, hy, he⟩ => ?_, fun h => ⟨x, h, beq_self_eq_true _⟩⟩
    exact hl.eq_of_push (mem_of_mem_pqFront hy).1 hxl (beq_iff_eq.mp he) ▸ hy
  rw [hfront, afterPop]
  simp only [bne_iff_ne]

theorem pqPop_none (hl : Numbers l) : pqPop l ctx = none ↔ ∀ x ∈ l, x.ctx ≠ ctx := by
  have hfront : pqFront l ctx = [] ↔ ∀ x ∈ l, x.ctx ≠ ctx := by
    rw [pqFront_eq, List.take_eq_nil_iff, ← List.length_eq_zero_iff (l := byKey l ctx), (byKey_perm l ctx).length_eq]
    simp [List.filter_eq_nil_iff]
  rw [pqPop_eq hl, Option.map_eq_none_iff, ← hfront]
  split
  · rw [List.head?_eq_none_iff]
    exact ⟨fun h => (h ▸ bySkip_perm l ctx).nil_eq.symm, fun h => (h ▸ bySkip_perm l ctx).eq_nil⟩
  · exact List.head?_eq_none_iff

theorem mem_afterPop {e : PqEntry} {x : PqEntry} : x ∈ (l.filter fun x => x.push != e.push).map (afterPop ctx l) ↔
    ∃ y ∈ l, y.push ≠ e.push ∧ x = afterPop ctx l y := by
  simp only [List.mem_map, List.mem_filter, bne_iff_ne, and_assoc, eq_comm (a := x)]

/-- The entry that a pop takes is due, or has the smallest key. -/
theorem pqPop_some (hl : Numbers l) {e : PqEntry} {rest : List PqEntry} (h : pqPop l ctx = some (e, rest)) :
    e ∈ l ∧ inFront ctx l e = true ∧ (SomeDue ctx l → skipPlace ctx l e = 1) ∧
      (¬ SomeDue ctx l → ∀ x ∈ l, x.ctx = ctx → x = e ∨ keyBefore e x = true) ∧
      rest = (l.filter fun x => x.push != e.push).map (afterPop ctx l) := by
  rw [pqPop_eq hl] at h
  obtain ⟨e', he, hpair⟩ := Option.map_eq_some_iff.mp h
  obtain ⟨rfl, rfl⟩ := Prod.mk.inj hpair
  by_cases hd : SomeDue ctx l
  · rw [if_pos ((pqDue_iff hl).mpr hd)] at he
    obtain ⟨b, hb⟩ := List.head?_eq_some_iff.mp he
    have h0 : 0 < (bySkip l ctx).length := by rw [hb]; exact Nat.succ_pos _
    have he0 : (bySkip l ctx)[0] = e' := by simp [hb]
    obtain ⟨hx, hf⟩ := (mem_bySkip hl).mp (List.getElem_mem h0)
    rw [he0] at hx hf
    exact ⟨hx, hf, fun _ => he0 ▸ skipPlace_getElem hl h0, fun hno => absurd hd hno, rfl⟩
  · rw [if_neg (mt (pqDue_iff hl).mp hd)] at he
    obtain ⟨b, hb⟩ := List.head?_eq_some_iff.mp he
    have hmem : e' ∈ pqFront l ctx := by rw [hb]; exact List.mem_cons_self
    obtain ⟨hx, -⟩ := mem_of_mem_pqFront hmem
    refine ⟨hx, (inFront_iff hl hx).mpr hmem, fun h => absurd h hd, fun _ x hxl hc => ?_, rfl⟩
    have hk : x ∈ byKey l ctx := (byKey_perm l ctx).mem_iff.mpr (List.mem_filter.mpr ⟨hxl, beq_iff_eq.mpr hc⟩)
    obtain ⟨c, hcons⟩ : ∃ c, byKey l ctx = e' :: c := by
      cases hkeys : byKey l ctx with
      | nil => rw [hkeys] at hk; cases hk
      | cons y c =>
        rw [pqFront_eq, hkeys] at hb
        exact ⟨c, by rw [(List.cons.inj hb).1]⟩
    rw [hcons] at hk
    rcases List.mem_cons.mp hk with rfl | hk
    · exact .inl rfl
    · exact .inr ((List.pairwise_cons.mp (hcons ▸ byKey_pairwise hl)).1 x hk)
end

end Sys2Proof.Machine

/-! Proof of O17, second part: no entry is skipped too often (R225, R232). -/
namespace Sys2Proof.Machine

/-! ## The bound (R225) -/

section
variable {l : List PqEntry} {ctx : Nat}

/-- No entry of the front has been skipped more often than its place allows. -/
def Bounded (ctx : Nat) (l : List PqEntry) : Prop := ∀ x ∈ l, inFront ctx l x = true → x.skip + skipPlace ctx l x ≤ 32

theorem inFront_ctx {x : PqEntry} (h : inFront ctx l x = true) : x.ctx = ctx := beq_iff_eq.mp (Bool.and_eq_true_iff.mp h).1

theorem inFront_sublist {l' : List PqEntry} (hs : l'.Sublist l) {x : PqEntry} (h : inFront ctx l x = true) : inFront ctx l' x = true := by
  obtain ⟨hc, hr⟩ := Bool.and_eq_true_iff.mp h
  refine Bool.and_eq_true_iff.mpr ⟨hc, decide_eq_true ?_⟩
  exact Nat.lt_of_le_of_lt (hs.filter _).length_le (of_decide_eq_true hr)

theorem afterPop_eq (ctx : Nat) (l : List PqEntry) (y : PqEntry) : ∃ n, afterPop ctx l y = { y with skip := n } := by
  unfold afterPop
  split_ifs
  · exact ⟨_, rfl⟩
  · exact ⟨_, rfl⟩
  · exact ⟨_, rfl⟩

theorem afterPop_front {y : PqEntry} (h : inFront ctx l y = true) : (afterPop ctx l y).skip = y.skip + 1 := by
  rw [afterPop, if_neg (not_not.mpr (inFront_ctx h)), if_pos h]

theorem afterPop_behind {y : PqEntry} (hc : y.ctx = ctx) (h : ¬ inFront ctx l y = true) : (afterPop ctx l y).skip = 0 := by
  rw [afterPop, if_neg (not_not.mpr hc), if_neg h]

theorem afterPop_push (y : PqEntry) : (afterPop ctx l y).push = y.push := by
  obtain ⟨n, hn⟩ := afterPop_eq ctx l y
  rw [hn]

/-- The front does not depend on the skip counts. -/
theorem inFront_map (l' : List PqEntry) (y : PqEntry) : inFront ctx (l'.map (afterPop ctx l)) (afterPop ctx l y) = inFront ctx l' y := by
  have hkeep : ∀ z, ((afterPop ctx l z).ctx == ctx && keyBefore (afterPop ctx l z) (afterPop ctx l y)) =
      (z.ctx == ctx && keyBefore z y) := fun z => by
    obtain ⟨m, hm⟩ := afterPop_eq ctx l z
    obtain ⟨n, hn⟩ := afterPop_eq ctx l y
    rw [hm, hn]
    rfl
  have hctx : (afterPop ctx l y).ctx = y.ctx := by
    obtain ⟨n, hn⟩ := afterPop_eq ctx l y
    rw [hn]
  rw [inFront, inFront, List.filter_map, List.length_map, hctx]
  exact congrArg (fun p => y.ctx == ctx && decide ((l'.filter p).length < 32)) (funext hkeep)

theorem skipPlace_map (l' : List PqEntry) (y : PqEntry) : skipPlace ctx (l'.map (afterPop ctx l)) (afterPop ctx l y) =
    (l'.filter fun z => inFront ctx l' z && skipBefore (afterPop ctx l z) (afterPop ctx l y)).length + 1 := by
  rw [skipPlace, List.filter_map, List.length_map]
  exact congrArg (fun p => (l'.filter p).length + 1) (funext fun z => by rw [Function.comp_apply, inFront_map])

/-- Only what came before an entry that stays in the front comes before it after the pop. -/
theorem skipBefore_afterPop {l' : List PqEntry} {y z : PqEntry} (hy : inFront ctx l y = true) (hz : inFront ctx l' z = true)
    (h : skipBefore (afterPop ctx l z) (afterPop ctx l y) = true) : inFront ctx l z = true ∧ skipBefore z y = true := by
  rw [skipBefore_iff, afterPop_front hy, afterPop_push, afterPop_push] at h
  by_cases hf : inFront ctx l z = true
  · rw [afterPop_front hf] at h
    exact ⟨hf, skipBefore_iff.mpr (by omega)⟩
  · rw [afterPop_behind (inFront_ctx hz) hf] at h
    omega

/-- The entries that come before one in the front. -/
def aheadOf (ctx : Nat) (l : List PqEntry) (y : PqEntry) : List PqEntry := l.filter fun z => inFront ctx l z && skipBefore z y

theorem skipPlace_eq (ctx : Nat) (l : List PqEntry) (y : PqEntry) : skipPlace ctx l y = (aheadOf ctx l y).length + 1 := rfl

/-- Of an entry that stays in the front, what a pop leaves ahead is some of what was. -/
theorem skipPlace_afterPop_le {e y : PqEntry} (hy : inFront ctx l y = true) : let l' := l.filter fun x => x.push != e.push
    skipPlace ctx (l'.map (afterPop ctx l)) (afterPop ctx l y) ≤ ((aheadOf ctx l y).filter fun x => x.push != e.push).length + 1 := by
  intro l'
  rw [skipPlace_map, aheadOf, List.filter_filter, List.filter_filter]
  refine Nat.succ_le_succ (List.monotone_filter_right l fun z hz => ?_).length_le
  obtain ⟨hahead, hne⟩ := Bool.and_eq_true_iff.mp hz
  obtain ⟨hfront, hskip⟩ := Bool.and_eq_true_iff.mp hahead
  obtain ⟨hf, hs⟩ := skipBefore_afterPop hy hfront hskip
  rw [hne, hf, hs]
  rfl

theorem bounded_of_pop (hl : Numbers l) {e : PqEntry} {rest : List PqEntry} (h : pqPop l ctx = some (e, rest)) (hb : Bounded ctx l) :
    Bounded ctx rest := by
  obtain ⟨he, hfe, hdue, -, rfl⟩ := pqPop_some hl h
  have hrest : Numbers ((l.filter fun x => x.push != e.push).map (afterPop ctx l)) := by
    rw [Numbers, List.map_map]
    exact (List.map_congr_left fun y _ => afterPop_push y) ▸ hl.filter _
  intro x hx hfx
  obtain ⟨y, hy, hne, rfl⟩ := mem_afterPop.mp hx
  rw [inFront_map] at hfx
  by_cases hfy : inFront ctx l y = true
  · have hle := skipPlace_afterPop_le (e := e) hfy
    have hplace := hb y hy hfy
    rw [skipPlace_eq] at hplace
    rw [afterPop_front hfy]
    by_cases hd : SomeDue ctx l
    · have hahead : ((aheadOf ctx l y).filter fun x => x.push != e.push).length < (aheadOf ctx l y).length := by
        refine List.length_filter_lt_length_iff_exists.mpr ⟨e, List.mem_filter.mpr ⟨he, ?_⟩, by simp⟩
        rw [hfe, Bool.true_and]
        refine (skipBefore_total hne.symm).resolve_right fun hye => ?_
        have hnone : aheadOf ctx l e = [] := List.length_eq_zero_iff.mp (Nat.succ_injective (hdue hd))
        have hmem : y ∈ aheadOf ctx l e := List.mem_filter.mpr ⟨hy, by rw [hfy, hye]; rfl⟩
        exact List.not_mem_nil (hnone ▸ hmem)
      omega
    · have hnot : y.skip + skipPlace ctx l y ≠ 32 := fun heq => hd ⟨y, hy, hfy, heq⟩
      have hsub := List.length_filter_le (fun x => x.push != e.push) (aheadOf ctx l y)
      rw [skipPlace_eq] at hnot
      omega
  · rw [afterPop_behind (inFront_ctx hfx) hfy, Nat.zero_add]
    exact skipPlace_le hrest hx (by rw [inFront_map]; exact hfx)

theorem bounded_of_push (hl : Numbers l) {x : PqEntry} (hx : ∀ y ∈ l, y.push < x.push) (hs : x.skip = 0) (hb : Bounded ctx l) :
    Bounded ctx (l ++ [x]) := by
  have hnew : Numbers (l ++ [x]) := by
    rw [Numbers, List.map_append, List.nodup_append]
    refine ⟨hl, List.nodup_singleton _, fun a ha b hb => ?_⟩
    obtain ⟨y, hy, rfl⟩ := List.mem_map.mp ha
    obtain rfl : b = x.push := by simpa using hb
    exact Nat.ne_of_lt (hx y hy)
  intro y hy hf
  rcases List.mem_append.mp hy with hyl | hyx
  · refine Nat.le_trans (Nat.add_le_add_left ?_ _) (hb y hyl (inFront_sublist (List.sublist_append_left _ _) hf))
    have hlast : ([x].filter fun z => inFront ctx (l ++ [x]) z && skipBefore z y) = [] := by
      refine List.filter_eq_nil_iff.mpr fun z hz => ?_
      rw [List.mem_singleton.mp hz, Bool.and_eq_true, skipBefore_iff, hs]
      have := hx y hyl
      omega
    rw [skipPlace_eq, skipPlace_eq, aheadOf, List.filter_append, hlast, List.append_nil]
    refine Nat.succ_le_succ (List.monotone_filter_right l fun z hz => ?_).length_le
    obtain ⟨hfz, hsz⟩ := Bool.and_eq_true_iff.mp hz
    rw [inFront_sublist (List.sublist_append_left _ _) hfz, hsz]
    rfl
  · rw [List.mem_singleton.mp hyx] at hf ⊢
    rw [hs, Nat.zero_add]
    exact skipPlace_le hnew (List.mem_append_right _ (List.mem_singleton_self x)) hf

/-! ## A queue in which nothing has been passed over -/

theorem inFront_of_few (hfew : (l.filter (·.ctx == ctx)).length < 32) {x : PqEntry} (hc : x.ctx = ctx) : inFront ctx l x = true := by
  refine Bool.and_eq_true_iff.mpr ⟨beq_iff_eq.mpr hc, decide_eq_true (Nat.lt_of_le_of_lt ?_ hfew)⟩
  exact (List.monotone_filter_right l fun z hz => (Bool.and_eq_true_iff.mp hz).1).length_le

theorem not_someDue_of_few (hl : Numbers l) (hfew : (l.filter (·.ctx == ctx)).length < 32) (hskip : ∀ x ∈ l, x.ctx = ctx → x.skip = 0) :
    ¬ SomeDue ctx l := by
  rintro ⟨x, hx, hf, hdue⟩
  obtain ⟨i, hi, rfl⟩ := List.mem_iff_getElem.mp ((mem_bySkip hl).mpr ⟨hx, hf⟩)
  rw [skipPlace_getElem hl hi, hskip _ hx (inFront_ctx hf)] at hdue
  have hlen := (bySkip_perm l ctx).length_eq
  rw [pqFront_eq, List.length_take, (byKey_perm l ctx).length_eq] at hlen
  omega
end

end Sys2Proof.Machine

/-! Proof of O17, third part: the words TASKPUT and TASKGET (R196). -/
namespace Sys2Proof.Machine

/-! ## TASKPUT -/

/-- What a member's TASKPUT does. -/
def TaskPuts (d : PReg) (key : SImm) (e : SReg) (arg : SImm) (m : CoreId) (s t : State) : Prop := let q := s.core m
  let die := s.die (dieOf m)
  q.idem = false ∧ (q.rs e).toNat % 8 = 0 ∧
  (65536 ≤ die.pq.length ∧ t = s.modCore m (fun q => q.wp d false) ∨
  ¬ 65536 ≤ die.pq.length ∧ t = ({ s with dies := s.dies.set (dieOf m) { die with
      pushes := die.pushes + 1
      pq := die.pq ++ [⟨q.ctxNum, (key.val q).setWidth 32, q.rs e, arg.val q, 0, die.pushes⟩] } } : State).modCore m
        fun q => q.wp d true)

theorem taskput_puts (c : Ctl) (d : PReg) (key : SImm) (e : SReg) (arg : SImm) :
    InTurns (.taskput c d key e arg) (TaskPuts d key e arg) := by
  refine inTurns_of_done (fun _ => rfl) ?_
  rintro m s t ⟨hi, ha, ⟨hfull, rfl⟩ | ⟨hroom, rfl⟩⟩
  · simp only [hi, ha, bne_self_eq_false, if_pos hfull, Bool.false_eq_true, if_false]
  · simp only [hi, ha, bne_self_eq_false, if_neg hroom, Bool.false_eq_true, if_false]
    rfl

theorem taskput_misaligned (c : Ctl) (d : PReg) (key : SImm) (e : SReg) (arg : SImm) : FirstTraps (.taskput c d key e arg) .misaligned
    fun m s x => (s.core m).idem = false ∧ ((s.core m).rs e).toNat % 8 ≠ 0 ∧ x = (s.core m).rs e := by
  refine firstTraps_of_trap (fun _ => rfl) ?_
  rintro m s x ⟨hi, ha, rfl⟩
  simp only [hi, bne_iff_ne.mpr ha, Bool.false_eq_true, if_false, if_true]

/-! ## Targets (R53) -/

/-- A target at which no header that may be entered stands. -/
def State.BadTarget (s : State) (c : CoreId) (t : Word) (kinds : Nat → Bool) : Prop :=
  t.toNat % 8 ≠ 0 ∨ isGlobal t.toNat = false ∨ ∃ w, s.fetch c (s.core c).priv t = .word w ∧
    (isHeader w = false ∨ (headerOf w).kind < 5 ∧ kinds (headerOf w).kind = false)

theorem checkTarget_bad {s : State} {c : CoreId} {t : Word} {kinds : Nat → Bool} (h : s.BadTarget c t kinds) (go : State → Res) :
    s.checkTarget c t kinds go = .trap .badTarget t := by
  unfold State.checkTarget
  by_cases hplace : (t.toNat % 8 != 0 || !isGlobal t.toNat) = true
  · exact if_pos hplace
  · obtain ⟨w, hw, hbad⟩ : ∃ w, s.fetch c (s.core c).priv t = .word w ∧
        (isHeader w = false ∨ (headerOf w).kind < 5 ∧ kinds (headerOf w).kind = false) := by
      obtain h | h | h := h
      · simp [h] at hplace
      · simp [h] at hplace
      · exact h
    have hno : (!isHeader w || (decide ((headerOf w).kind < 5) && !kinds (headerOf w).kind)) = true := by
      obtain hb | ⟨hk, hb⟩ := hbad
      · simp [hb]
      · simp [hk, hb]
    simp only [if_neg hplace, hw, hno, if_true]

theorem finishFences_idle {s : State} {ms : List CoreId} (h : ∀ m ∈ ms, (s.core m).fences = []) : s.finishFences ms = some s := by
  suffices hf : ∀ (u : Option State) (ms : List CoreId), (∀ m ∈ ms, (s.core m).fences = []) →
      ms.foldl (fun r m => (s.core m).fences.foldl (fun r f =>
        match r with
        | none => none
        | some s => (s.fenceSteps m f).map fun s => s.modCore m fun q => { q with fences := q.fences.filter (· != f) }) r) u = u from
    hf (some s) ms h
  intro u ms
  induction ms with
  | nil => exact fun _ => rfl
  | cons m ms ih =>
    intro h
    rw [List.foldl_cons, h m List.mem_cons_self, List.foldl_nil]
    exact ih fun k hk => h k (List.mem_cons_of_mem _ hk)

/-! ## TASKGET -/

section
variable {s : State} {f : Fields} {c : Ctl} {a k r : SReg} {how : How}

/-- The queue of the leader's die has become `rest`. -/
def State.popped (s : State) (rest : List PqEntry) : State := s.modDie (dieOf s.leader) fun x => { x with pq := rest }

theorem fetch_popped (s : State) (rest : List PqEntry) (m : CoreId) (priv : Bool) (va : Word) :
    (s.popped rest).fetch m priv va = s.fetch m priv va := by
  refine fetch_congr priv va rfl rfl rfl ?_
  unfold State.popped
  by_cases h : dieOf m = dieOf s.leader
  · rw [h, State.die_modDie_same]
  · simp only [State.die, State.modDie, SMap.get_set_other _ h]

theorem taskget_idem (hf : Instr.fields (.taskget c a k r how) = some f) (h : s.Led f) (hi : (s.core s.leader).idem = true) :
    s.TrapsAs (.taskget c a k r how) .nonidemOp 0 := by
  obtain ⟨-, -, htrap, -⟩ := runLeaderWord_led hf h (by rfl : exec (.taskget c a k r how) s = runLeaderWord (.taskget c a k r how) s _)
  exact htrap _ _ (by simp only [headD_convoyOf_cur, hi, if_true])

theorem taskget_poll (hf : Instr.fields (.taskget c a k r .poll) = some f) (h : s.Led f) (hi : (s.core s.leader).idem = false)
    (hp : pqPop (s.die (dieOf s.leader)).pq (s.core s.leader).ctxNum = none) :
    s.AllDo (.taskget c a k r .poll) f fun q => q.ws k (BitVec.allOnes 64) := by
  refine runLeaderWord_changes hf h (by rfl : _ = runLeaderWord (.taskget c a k r .poll) s _) ?_
    (membersChange_writeAll (convoyOf_nodup s s.cur) k (BitVec.allOnes 64) s)
  simp only [headD_convoyOf_cur, hi, hp, Bool.false_eq_true, if_false]
  rfl

theorem taskget_wait (hf : Instr.fields (.taskget c a k r .wait) = some f) (h : s.Led f) (hi : (s.core s.leader).idem = false)
    (hp : pqPop (s.die (dieOf s.leader)).pq (s.core s.leader).ctxNum = none) : exec (.taskget c a k r .wait) s = .next s := by
  obtain ⟨-, -, -, hwait⟩ := runLeaderWord_led hf h (by rfl : exec (.taskget c a k r .wait) s = runLeaderWord (.taskget c a k r .wait) s _)
  exact hwait (by simp only [headD_convoyOf_cur, hi, hp, Bool.false_eq_true, if_false, beq_self_eq_true, if_true])

/-- What every member has of a popped entry. -/
def handOver (ms : List CoreId) (a k r : SReg) (x : PqEntry) (back : Word) (s : State) : State :=
  writeAll ms r back (writeAll ms k (x.key.setWidth 64) (writeAll ms a x.arg s))

variable {x : PqEntry} {rest : List PqEntry}

theorem taskget_enters (hf : Instr.fields (.taskget c a k r how) = some f) (h : s.Led f) (hi : (s.core s.leader).idem = false)
    (hp : pqPop (s.die (dieOf s.leader)).pq (s.core s.leader).ctxNum = some (x, rest)) (he : (s.popped rest).Enters x.entry kindTask) :
    exec (.taskget c a k r how) s = .next (((handOver (s.convoyOf s.cur) a k r x (s.core s.leader).fallthrough
      ((s.popped rest).fetchUse s.leader x.entry)).goTo (s.convoyOf s.cur) x.entry).countIssue (s.convoyOf s.cur) f) := by
  obtain ⟨-, hjump, -, -⟩ := runLeaderWord_led hf h (by rfl : exec (.taskget c a k r how) s = runLeaderWord (.taskget c a k r how) s _)
  have htarget := jump_enters he (handOver (s.convoyOf s.cur) a k r x (s.core s.leader).fallthrough)
  rw [State.jump, headD_convoyOf_cur] at htarget
  refine hjump _ ?_
  simp only [headD_convoyOf_cur, hi, hp, Bool.false_eq_true, if_false]
  split
  · next heq => cases htarget.symm.trans heq
  · exact htarget

theorem taskget_badTarget (hf : Instr.fields (.taskget c a k r how) = some f) (h : s.Led f) (hi : (s.core s.leader).idem = false)
    (hp : pqPop (s.die (dieOf s.leader)).pq (s.core s.leader).ctxNum = some (x, rest))
    (hbad : s.BadTarget s.leader x.entry kindTask) (hq : ∀ m ∈ s.convoyOf s.cur, (s.core m).Quiet)
    (hb : s.busyVector (s.convoyOf s.cur) = none) :
    exec (.taskget c a k r how) s = .next (((s.popped rest).preciseTrap (s.convoyOf s.cur) s.leader .badTarget x.entry
      (s.core s.leader).pc (s.core s.leader).blk).countIssue (s.convoyOf s.cur) f) := by
  obtain ⟨-, hjump, -, -⟩ := runLeaderWord_led hf h (by rfl : exec (.taskget c a k r how) s = runLeaderWord (.taskget c a k r how) s _)
  have hcheck := checkTarget_bad (s := s.popped rest) (c := s.leader) (t := x.entry) (kinds := kindTask)
    (by rw [State.BadTarget, fetch_popped]; exact hbad)
  have hload : (s.convoyOf s.cur).foldl (fun u m => u.performLoads m) (s.popped rest) = s.popped rest :=
    performLoads_idle fun m hm => (hq m hm).loads
  have hset : (s.popped rest).unsettled (s.convoyOf s.cur) = false := unsettled_idle hq
  have hfences : (s.popped rest).finishFences (s.convoyOf s.cur) = some (s.popped rest) := finishFences_idle fun m hm => (hq m hm).fences
  have hbusy : (s.popped rest).busyVector (s.convoyOf s.cur) = none := by
    rw [← hb]
    simp only [State.busyVector, fetch_popped]
    rfl
  unfold State.popped at hcheck hload hset hfences hbusy ⊢
  refine hjump _ ?_
  simp only [headD_convoyOf_cur, hi, hp, hcheck, hload, hset, hfences, hbusy, Option.isNone_some, Option.isSome_none, Bool.or_self,
    Bool.false_eq_true, if_false]
end

/-- Settles O17: the words pop by `pqPop`, whose front and places are those that the statement counts out. -/
theorem theTaskQueue : Obligations.TheTaskQueue := by
  unfold Obligations.TheTaskQueue
  refine ⟨⟨?_, ?_⟩, ?_, ?_⟩
  · intro c d key e arg i full
    refine ⟨firstTraps_of_trap (fun _ => rfl) ?_, taskput_misaligned c d key e arg, taskput_puts c d key e arg⟩
    rintro m s x ⟨hi, rfl⟩
    exact if_pos hi
  · intro s f h l q ms die c a k r how hf i
    refine ⟨taskget_idem hf h, fun hi hp => ⟨?_, ?_⟩, fun x rest hi hp => ⟨fun he => ?_, fun hbad hq hb => ?_⟩⟩
    · rintro rfl
      exact taskget_poll hf h hi hp
    · rintro rfl
      exact taskget_wait hf h hi hp
    · intro v
      have hn := convoyOf_nodup s s.cur
      have hchange := ((((membersChange_writeAll hn a x.arg v).trans (membersChange_writeAll hn k (x.key.setWidth 64) _)).trans
        (membersChange_writeAll hn r q.fallthrough _)).trans
        (membersChange_foldl hn (fun y => { y with pc := x.entry, pos := .header .jump }) _)).trans (membersChange_countIssue hn f _)
      obtain ⟨hframe, hin, hout⟩ := hchange
      obtain ⟨-, hpq, -, -⟩ := fetchUse_keeps (s.popped rest) l x.entry
      have hmem := congrArg State.mem hframe
      have hdies := congrArg State.dies hframe
      refine ⟨_, taskget_enters hf h hi hp he, ?_, hmem, hin, hout⟩
      have hdie : ∀ u : State, u.dies = v.dies → (u.die (dieOf l)).pq = (v.die (dieOf l)).pq := fun u hu => by rw [State.die, hu, State.die]
      refine (hdie _ hdies).trans ((hpq _).trans ?_)
      rw [State.popped, State.die_modDie_same]
    · refine taskget_badTarget hf h hi hp ?_ hq hb
      exact hbad.imp_right (Or.imp_right fun ⟨w, hw, hno⟩ => ⟨w, hw, hno.imp_right fun ⟨hk, hne⟩ => ⟨hk, beq_false_of_ne hne⟩⟩)
  · intro l ctx hl hfew hskip
    refine ⟨pqPop_none hl, fun e rest h => ?_⟩
    obtain ⟨he, hfe, -, hmin, rfl⟩ := pqPop_some hl h
    refine ⟨he, inFront_ctx hfe, fun x hx hc => ?_, fun x => ?_⟩
    · rcases hmin (not_someDue_of_few hl hfew hskip) x hx hc with rfl | hlt
      · exact .inr ⟨rfl, Nat.le_refl _⟩
      · rw [keyBefore_iff] at hlt
        exact hlt.imp_right fun ⟨hk, hlt⟩ => ⟨BitVec.eq_of_toNat_eq hk, Nat.le_of_lt hlt⟩
    · have hafter : ∀ y ∈ l, afterPop ctx l y = if y.ctx = ctx then { y with skip := 1 } else y := by
        intro y hy
        unfold afterPop
        by_cases hc : y.ctx = ctx
        · rw [if_neg (not_not.mpr hc), if_pos (inFront_of_few hfew hc), if_pos hc, hskip y hy hc]
        · rw [if_pos hc, if_neg hc]
      rw [mem_afterPop]
      exact exists_congr fun y => and_congr_right fun hy => by rw [hafter y hy]
  · intro l ctx hl first front place bounded
    refine ⟨pqPop_none hl, fun e rest h => ?_, fun x hx hs hb => bounded_of_push hl hx hs hb⟩
    obtain ⟨he, hfe, hdue, hmin, hrest⟩ := pqPop_some hl h
    refine ⟨he, hfe, hdue, fun hno => hmin fun ⟨x, hx, hf, hd⟩ => hno x hx hf hd, fun x => ?_, bounded_of_pop hl h⟩
    rw [hrest]
    exact mem_afterPop

end Sys2Proof.Machine

/-! Memory and records do not look at cores: what they do to a package with other cores and dies is what they do to it, with these
cores and dies (R218, R403). -/
namespace Sys2Proof.Machine

/-- `t` is `s` with other cores and dies. -/
def State.Twin (l : SMap Core) (d : SMap Die) (s t : State) : Prop := t = s.withUnits l d

/-- The same of what steps come to that may have to wait. -/
def TwinRes (l : SMap Core) (d : SMap Die) (a b : Option State) : Prop := b = a.map (·.withUnits l d)

section
variable {l : SMap Core} {d : SMap Die} {s t : State}

theorem State.Twin.ite {p : Prop} [Decidable p] {s' t' : State} (h : s.Twin l d t) (h' : s'.Twin l d t') :
    (if p then s else s').Twin l d (if p then t else t') := by
  split
  · exact h
  · exact h'

theorem State.Twin.foldl {α : Type} {f : State → α → State} (hf : ∀ (s t : State) a, s.Twin l d t → (f s a).Twin l d (f t a))
    (xs : List α) {s t : State} (h : s.Twin l d t) : (xs.foldl f s).Twin l d (xs.foldl f t) := by
  induction xs generalizing s t with
  | nil => exact h
  | cons a xs ih => exact ih (hf s t a h)

theorem TwinRes.none : TwinRes l d none none := rfl

theorem TwinRes.some (h : s.Twin l d t) : TwinRes l d (some s) (some t) := congrArg _ h

theorem TwinRes.ite {p : Prop} [Decidable p] {a a' b b' : Option State} (h : TwinRes l d a b) (h' : TwinRes l d a' b') :
    TwinRes l d (if p then a else a') (if p then b else b') := by
  split
  · exact h
  · exact h'

theorem TwinRes.map {α : Type} {f g : α → State} (o : Option α) (h : ∀ x, (f x).Twin l d (g x)) : TwinRes l d (o.map f) (o.map g) := by
  cases o with
  | none => exact .none
  | some x => exact .some (h x)

/-! ## Records -/

theorem hbmRecord_twin (h : s.Twin l d t) (base n : Nat) (r : DevRec) : (s.hbmRecord base n r).Twin l d (t.hbmRecord base n r) := by
  subst h
  exact .ite rfl rfl

theorem queueRecord_twin (h : s.Twin l d t) (r : DevRec) : (s.queueRecord r).Twin l d (t.queueRecord r) := by
  subst h
  exact hbmRecord_twin rfl _ _ r

/-- The record that `emit` writes next. -/
def State.nextRecord (s : State) (type : Nat) (fields : List (Nat × Nat × Nat)) : DevRec :=
  ⟨s.lastDev + 1, recordBytes ((0, 8, s.lastDev + 1) :: (8, 4, type) :: fields)⟩

/-- A record is numbered and kept. -/
def State.keepRecord (s : State) (r : DevRec) : State :=
  { s with lastDev := s.lastDev + 1, kept := (s.kept ++ [r]).drop ((s.kept ++ [r]).length - keptCap) }.hbmRecord s.cfg.keptBase keptCap r

/-- A record goes into the ring, or behind the backlog. -/
def State.tellRecord (s : State) (r : DevRec) : State := if s.backlog.isEmpty && s.evRoom then s.ringRecord r else s.queueRecord r

theorem emit_eq (s : State) (type : Nat) (fields : List (Nat × Nat × Nat)) :
    s.emit type fields = (s.keepRecord (s.nextRecord type fields)).tellRecord (s.nextRecord type fields) := rfl

theorem keepRecord_twin (h : s.Twin l d t) (r : DevRec) : (s.keepRecord r).Twin l d (t.keepRecord r) := by
  subst h
  unfold State.keepRecord
  generalize keptCap = n
  exact hbmRecord_twin rfl _ _ r

theorem tellRecord_twin (h : s.Twin l d t) (r : DevRec) : (s.tellRecord r).Twin l d (t.tellRecord r) := by
  subst h
  exact .ite rfl (queueRecord_twin rfl r)

theorem emit_twin (h : s.Twin l d t) (type : Nat) (fields : List (Nat × Nat × Nat)) : (s.emit type fields).Twin l d (t.emit type fields) := by
  have hr : t.nextRecord type fields = s.nextRecord type fields := by
    subst h
    rfl
  rw [emit_eq, emit_eq, hr]
  exact tellRecord_twin (keepRecord_twin h _) _

theorem resourceEvent_twin (h : s.Twin l d t) (sub ctx x : Nat) : (s.resourceEvent sub ctx x).Twin l d (t.resourceEvent sub ctx x) := by
  have hnow : t.now = s.now := by
    subst h
    rfl
  rw [State.resourceEvent, State.resourceEvent, hnow]
  exact emit_twin h _ _

/-! ## Home -/

theorem keepCode_twin (h : s.Twin l d t) (line : Nat) (bytes : List Byte) : (s.keepCode line bytes).Twin l d (t.keepCode line bytes) := by
  subst h
  exact .ite rfl rfl

theorem setPoison_twin (h : s.Twin l d t) (line : Nat) (bad : Bool) : (s.setPoison line bad).Twin l d (t.setPoison line bad) := by
  subst h
  exact .ite (.ite rfl rfl) rfl

theorem markPoison_twin (h : s.Twin l d t) (line : Nat) (mark : Option Bool) : (s.markPoison line mark).Twin l d (t.markPoison line mark) := by
  cases mark with
  | none => exact h
  | some bad => exact setPoison_twin h line bad

theorem clearPoison_twin (h : s.Twin l d t) (line : Nat) (cells : Mem) : (s.clearPoison line cells).Twin l d (t.clearPoison line cells) :=
  .ite (setPoison_twin h line false) h

theorem keepPast_twin (h : s.Twin l d t) (home line : Nat) : (s.keepPast home line).Twin l d (t.keepPast home line) := by
  have hline : t.homeLine home line = s.homeLine home line := by
    subst h
    simp only [State.homeLine, homeByte_withUnits]
  rw [State.keepPast, State.keepPast, hline]
  exact keepCode_twin h line _

theorem dirEnter_twin (h : s.Twin l d t) (line : Nat) : (s.dirEnter line).Twin l d (t.dirEnter line) := by
  subst h
  refine .ite rfl ?_
  simp only [viewGeom_withUnits]
  rfl

theorem installLine_twin (h : s.Twin l d t) (home line : Nat) (drt : Bool) (bytes : List Byte) :
    TwinRes l d (s.installLine home line drt bytes) (t.installLine home line drt bytes) := by
  subst h
  exact .ite .none (.map _ fun x => dirEnter_twin rfl line)

theorem sliceWrite_twin (h : s.Twin l d t) (home line : Nat) (drt : Bool) (via : Via) (whole : Bool) (up : List Byte → List Byte) :
    TwinRes l d (s.sliceWrite home line drt via whole up) (t.sliceWrite home line drt via whole up) := by
  have hat : t.l2At home line = s.l2At home line := by
    subst h
    rfl
  have hslice : t.slice home = s.slice home := by
    subst h
    rfl
  unfold State.sliceWrite
  rw [hat, hslice]
  cases s.l2At home line with
  | none => exact .ite (installLine_twin h home line drt _) (.some h)
  | some x => exact .map _ fun x => by subst h; rfl

theorem tierAccept_twin (h : s.Twin l d t) (line : Nat) (bytes : List Byte) :
    TwinRes l d (s.tierAccept line bytes) (t.tierAccept line bytes) := by
  subst h
  cases s
  unfold State.tierAccept
  dsimp only [State.withUnits, State.slotsUsed, State.poolSize, State.tierTag]
  refine .ite rfl (.ite rfl ?_)
  split
  · exact .none
  · exact .some (.ite (resourceEvent_twin rfl _ _ _) rfl)

theorem noSlot_twin (h : s.Twin l d t) (cells : Mem) : t.noSlot cells = s.noSlot cells := by
  cases cells with
  | nil => rfl
  | cons x cells =>
    have htier : t.tierLine (x.1 / 128) = s.tierLine (x.1 / 128) := by subst h; rfl
    have hmig : t.migrating (x.1 / 128) = s.migrating (x.1 / 128) := by subst h; rfl
    have htiered : t.tiered x.1 = s.tiered x.1 := by subst h; rfl
    unfold State.noSlot
    dsimp only
    rw [htier, hmig, htiered, tierAccept_twin h, Option.isNone_map]

theorem homeWriteNow_twin (h : s.Twin l d t) (core : Option CoreId) (home : Nat) (cells : Mem) (via : Via) :
    TwinRes l d (s.homeWriteNow core home cells via) (t.homeWriteNow core home cells via) := by
  unfold State.homeWriteNow
  cases cells with
  | nil => exact .some h
  | cons x cells =>
    have hpast := keepPast_twin h home (x.1 / 128)
    have hclear := clearPoison_twin hpast (x.1 / 128) (x :: cells)
    have hmig : t.migrating (x.1 / 128) = s.migrating (x.1 / 128) := by subst h; rfl
    have hexcl : t.excluded x.1 = s.excluded x.1 := by subst h; rfl
    have hpoison : t.poisoned (x.1 / 128) = s.poisoned (x.1 / 128) := by subst h; rfl
    dsimp only
    rw [hmig, hexcl, hpoison]
    generalize t.keepPast home (x.1 / 128) = tp at hpast hclear ⊢
    generalize s.keepPast home (x.1 / 128) = sp at hpast hclear ⊢
    refine .ite .none (.ite (sliceWrite_twin ?_ _ _ _ _ _ _) ?_)
    · subst hpast
      rfl
    generalize (via != .store && (x :: cells).length == 128) = whole
    generalize tp.clearPoison (x.1 / 128) (x :: cells) = tc at hclear ⊢
    generalize sp.clearPoison (x.1 / 128) (x :: cells) = sc at hclear ⊢
    cases storeOf x.1 with
    | host =>
      subst hpast
      exact .some rfl
    | lpddr | cxl =>
      refine .ite ?_ ?_
      · subst hclear
        exact .some rfl
      · have hset := setPoison_twin h (x.1 / 128) (s.poisoned (x.1 / 128) && (x :: cells).length != 128)
        generalize t.setPoison (x.1 / 128) (s.poisoned (x.1 / 128) && (x :: cells).length != 128) = tw at hset ⊢
        generalize s.setPoison (x.1 / 128) (s.poisoned (x.1 / 128) && (x :: cells).length != 128) = sw at hset ⊢
        have htier : tw.tierLine (x.1 / 128) = sw.tierLine (x.1 / 128) := by subst hset; rfl
        rw [htier, tierAccept_twin (keepPast_twin hset home (x.1 / 128)) (x.1 / 128) _]
        cases (sw.keepPast home (x.1 / 128)).tierAccept (x.1 / 128) _ with
        | none => exact .none
        | some u => exact sliceWrite_twin rfl _ _ _ _ _ _
    | hbm | view | unbacked =>
      have hat : tc.l2At home (x.1 / 128) = sc.l2At home (x.1 / 128) := by subst hclear; rfl
      dsimp only
      rw [hat]
      cases sc.l2At home (x.1 / 128) with
      | some y => exact sliceWrite_twin hclear _ _ _ _ _ _
      | none =>
        cases whole with
        | true => exact sliceWrite_twin hclear _ _ _ _ _ _
        | false =>
          subst hclear
          exact .some rfl

theorem homeWrite_twin (h : s.Twin l d t) (core : Option CoreId) (home : Nat) (cells : Mem) (via : Via) (job : Option JobRef)
    (mark : Option Bool) : (s.homeWrite core home cells via job mark).Twin l d (t.homeWrite core home cells via job mark) := by
  unfold State.homeWrite
  cases cells with
  | nil => exact h
  | cons x cells =>
    have hqueued : t.lineQueued (x.1 / 128) = s.lineQueued (x.1 / 128) := by subst h; rfl
    dsimp only
    rw [hqueued, homeWriteNow_twin h core home (x :: cells) via]
    refine .ite (by subst h; rfl) ?_
    cases s.homeWriteNow core home (x :: cells) via with
    | some u => exact markPoison_twin rfl _ _
    | none =>
      subst h
      dsimp only [Option.map_none, State.waitHome]
      have hslot : (s.withUnits l d).noSlot (x :: cells) = s.noSlot (x :: cells) := noSlot_twin rfl _
      rw [hslot]
      exact .ite (resourceEvent_twin rfl _ _ _) rfl

theorem paWrite_twin (h : s.Twin l d t) (pa : Nat) (bytes : List Byte) : (s.paWrite pa bytes).Twin l d (t.paWrite pa bytes) := by
  refine .foldl (fun s t c hst => ?_) _ h
  cases c with
  | nil => exact hst
  | cons x c =>
    have hslot : t.slotOfLine (x.1 / 128) = s.slotOfLine (x.1 / 128) := by subst hst; rfl
    dsimp only
    rw [hslot]
    exact homeWrite_twin hst _ _ _ _ _ _

/-! ## Views and the fault log -/

theorem settleOne_twin (h : s.Twin l d t) (w : ViewWrite) : (s.settleOne w).Twin l d (t.settleOne w) := by
  have hgeom : t.viewGeom w.region = s.viewGeom w.region := by subst h; exact viewGeom_withUnits ..
  unfold State.settleOne
  rw [hgeom]
  cases s.viewGeom w.region with
  | none => exact h
  | some g =>
    have hkeep := State.Twin.foldl (l := l) (d := d) (f := fun s line => s.keepCode line (s.belowLine line))
      (fun s t line hst => by
        have hbelow : t.belowLine line = s.belowLine line := by
          subst hst
          simp only [State.belowLine, belowByte_withUnits]
        rw [hbelow]
        exact keepCode_twin hst _ _) ((g.arrayCells w).foldl (fun l (a, _) => addNew l (a / 128)) []) h
    dsimp only
    rw [hkeep]
    rfl

theorem settleViews_twin (h : s.Twin l d t) : s.settleViews.Twin l d t.settleViews := by
  have hpend : t.viewPend = s.viewPend := by subst h; rfl
  rw [State.settleViews, State.settleViews, hpend]
  refine .foldl (fun s t _ hst => ?_) _ h
  have hpend' : t.viewPend = s.viewPend := by subst hst; rfl
  unfold State.settleView
  rw [hpend']
  cases s.viewPend with
  | nil => exact hst
  | cons w r => exact settleOne_twin (by subst hst; rfl) w

theorem faultRecord_twin (h : s.Twin l d t) (o : EngOp) (status : Byte) (slice : Nat) (info : Word) :
    (s.faultRecord o status slice info).Twin l d (t.faultRecord o status slice info) := by
  have hctxs : t.ctxs = s.ctxs := by subst h; rfl
  have hnow : t.now = s.now := by subst h; rfl
  unfold State.faultRecord
  rw [hctxs, hnow]
  cases s.ctxs.find o.ctx with
  | none => exact h
  | some x =>
    dsimp only
    have hevent : (if 4096 ≤ x.faults then s.resourceEvent 1 o.ctx 0 else s).Twin l d
      (if 4096 ≤ x.faults then t.resourceEvent 1 o.ctx 0 else t) := .ite (resourceEvent_twin h _ _ _) h
    rw [paWrite_twin hevent]
    rfl

end
end Sys2Proof.Machine

/-! When the cores of a persistent program end by TASKAB, it makes no difference to what is left of them which number their TASKAB
had: nothing but `State.abortOf` reads it, and a free core has none (R197, R224). -/
namespace Sys2Proof.Machine

/-! ## Writes of different cores -/

theorem SMap.set_comm {α : Type} {j k : Nat} (h : j ≠ k) (a b : α) (m : SMap α) : (m.set j a).set k b = (m.set k b).set j a := by
  induction m with
  | nil => grind [SMap.set]
  | cons x m ih => grind [SMap.set]

theorem SMap.mem_of_find {α : Type} {m : SMap α} {k : Nat} {a : α} (h : SMap.find m k = some a) : (k, a) ∈ m := by
  induction m with
  | nil => cases h
  | cons x m ih =>
    obtain ⟨j, c⟩ := x
    unfold SMap.find at h
    split at h
    · next hj => exact hj ▸ Option.some.inj h ▸ List.mem_cons_self
    · exact List.mem_cons_of_mem _ (ih h)

/-- A map all of whose values meet a test has it of the value that stands for a key. -/
theorem SMap.get_of_all {α : Type} {p : α → Bool} {m : SMap α} (k : Nat) {x : α} (hx : p x = true) (h : m.all (fun y => p y.2) = true) :
    p (m.get k x) = true := by
  unfold SMap.get
  cases hf : SMap.find m k with
  | none => exact hx
  | some a => exact List.all_eq_true.mp h _ (SMap.mem_of_find hf)

/-- A value that meets a test as the one before it did leaves the map meeting it as before. -/
theorem SMap.all_set {α : Type} (p : α → Bool) (m : SMap α) (k : Nat) (a x : α) (hx : p x = true) (ha : p a = p (m.get k x)) :
    (m.set k a).all (fun y => p y.2) = m.all fun y => p y.2 := by
  have hall := fun h => ha.trans (SMap.get_of_all (m := m) k hx h)
  induction m with
  | nil => simp [SMap.set, hall rfl]
  | cons y m ih =>
    obtain ⟨j, c⟩ := y
    unfold SMap.set
    by_cases hj : j = k
    · have hget : SMap.get ((j, c) :: m) k x = c := by simp [SMap.get, SMap.find, hj]
      rw [if_pos hj, List.all_cons, List.all_cons, ha, hget]
    · have hget : SMap.get ((j, c) :: m) k x = SMap.get m k x := by simp [SMap.get, SMap.find, hj]
      rw [hget] at ha
      rw [if_neg hj]
      split
      · rw [List.all_cons]
        cases hm : List.all ((j, c) :: m) fun y => p y.2 with
        | true => rw [hall hm, Bool.and_self]
        | false => exact Bool.and_false _
      · rw [List.all_cons, List.all_cons, ih ha fun h => ha.trans (SMap.get_of_all k hx h)]

section
variable {e : Ended} {m : CoreId} {s t : State}

/-- The core with another end, where it has one. -/
def Core.endsAs (e : Ended) (q : Core) : Core := { q with ended := q.ended.map fun _ => e }

/-- `t` is `s` but for how core `m` has ended. -/
def State.EndsAs (m : CoreId) (e : Ended) (s t : State) : Prop := t = s.modCore m (Core.endsAs e)

theorem State.EndsAs.core (h : s.EndsAs m e t) (k : CoreId) : ∃ x, t.core k = { s.core k with ended := x } ∧ x.isNone = (s.core k).ended.isNone := by
  subst h
  by_cases hk : k = m
  · rw [hk, State.core_modCore_same]
    exact ⟨_, rfl, Option.isNone_map⟩
  · rw [State.core_modCore_other _ hk]
    exact ⟨_, rfl, rfl⟩

theorem State.EndsAs.twin (h : s.EndsAs m e t) : s.Twin (s.cores.set m ((s.core m).endsAs e)) s.dies t := h

/-- What does not look at cores and dies, and leaves them, leaves the difference. -/
theorem endsAs_of_twin {u v : State} (h : s.EndsAs m e t) (hu : s.SameUnits u) (ht : s.SameTiles u)
    (hf : ∀ l d, s.Twin l d t → u.Twin l d v) : u.EndsAs m e v := by
  have hv := hf _ _ h.twin
  rw [State.Twin, ← hu.cores, ← ht.dies, ← hu.core m] at hv
  exact hv

theorem modCore_endsAs (h : s.EndsAs m e t) (k : CoreId) {f : Core → Core} (hf : ∀ q, f (q.endsAs e) = (f q).endsAs e) :
    (s.modCore k f).EndsAs m e (t.modCore k f) := by
  subst h
  unfold State.EndsAs
  by_cases hk : k = m
  · rw [hk, State.modCore_modCore, State.modCore_modCore]
    exact congrArg _ (funext hf)
  · calc (s.modCore m (Core.endsAs e)).modCore k f
        = s.withUnits ((s.cores.set m ((s.core m).endsAs e)).set k (f (s.core k))) s.dies := by
          rw [State.modCore, State.core_modCore_other s hk]
          rfl
      _ = s.withUnits ((s.cores.set k (f (s.core k))).set m ((s.core m).endsAs e)) s.dies := by rw [SMap.set_comm (Ne.symm hk)]
      _ = (s.modCore k f).modCore m (Core.endsAs e) := by
          refine Eq.trans ?_ (congrArg (fun q : Core => State.withUnits _ ((s.modCore k f).cores.set m (q.endsAs e)) _)
            (State.core_modCore_other s (Ne.symm hk) f).symm)
          rfl

theorem State.EndsAs.foldl {α : Type} {f : State → α → State} (hf : ∀ (s t : State) a, s.EndsAs m e t → (f s a).EndsAs m e (f t a))
    (xs : List α) {s t : State} (h : s.EndsAs m e t) : (xs.foldl f s).EndsAs m e (xs.foldl f t) := by
  induction xs generalizing s t with
  | nil => exact h
  | cons a xs ih => exact ih (hf s t a h)

theorem workEvent_endsAs (h : s.EndsAs m e t) (sub : Nat) (c : CoreId) (w : WorkRef) (flags : Nat) (x0 x1 x2 x3 : Word) :
    (s.workEvent sub c w flags x0 x1 x2 x3).EndsAs m e (t.workEvent sub c w flags x0 x1 x2 x3) :=
  endsAs_of_twin h (emit_units _ _ _) (emit_tiles _ _ _) fun _ _ hst => emit_twin hst _ _

/-! ## Operations -/

theorem ite_endsAs {p : Prop} [Decidable p] {a b a' b' : Core} (ha : a' = a.endsAs e) (hb : b' = b.endsAs e) :
    (if p then a' else b') = (if p then a else b).endsAs e := by
  split
  · exact ha
  · exact hb

/-- What a core keeps of the status of an operation. -/
def Core.noteStatus (status : Byte) (q : Core) : Core :=
  if status == 0x10 || (status == 0x13 && q.engFail.isNone) then { q with engFail := some status } else q

/-- What the advance of a timeline causes on its core. -/
def Core.noteDone (tl : Timeline) (still : Prop) [Decidable still] (q : Core) : Core :=
  if still then q
  else
    let q := { q with ui := { q.ui with cause := q.ui.cause ||| (1#5 <<< tl.code) } }
    if q.uiPending then q.wakeFor 1 else q

theorem opDone_eq (q : Core) (tl : Timeline) (n : Nat) (status : Byte) : q.opDone tl n status =
    (((q.setTl tl ((q.tl tl).complete n status)).wakeFor 2).noteStatus status).noteDone tl
      (((q.tl tl).complete n status).done = (q.tl tl).done) := rfl

theorem noteStatus_endsAs (status : Byte) (q : Core) : (q.endsAs e).noteStatus status = (q.noteStatus status).endsAs e :=
  ite_endsAs rfl rfl

theorem noteDone_endsAs (tl : Timeline) (still : Prop) [Decidable still] (q : Core) :
    (q.endsAs e).noteDone tl still = (q.noteDone tl still).endsAs e :=
  ite_endsAs rfl (ite_endsAs rfl rfl)

theorem opDone_endsAs (q : Core) (tl : Timeline) (n : Nat) (status : Byte) :
    (q.endsAs e).opDone tl n status = (q.opDone tl n status).endsAs e := by
  rw [opDone_eq q, ← noteDone_endsAs, ← noteStatus_endsAs]
  rfl

theorem modOpHandle_endsAs (h : s.EndsAs m e t) (c : CoreId) (inst : Nat) (r : HReg) (f : Handle → Handle) :
    (s.modOpHandle c inst r f).EndsAs m e (t.modOpHandle c inst r f) := by
  obtain ⟨x, hx, -⟩ := h.core c
  have hinst : (t.core c).inst = (s.core c).inst := by rw [hx]
  have hsaved : t.saved = s.saved := by subst h; rfl
  have harea : t.saveArea = s.saveArea := by subst h; rfl
  unfold State.modOpHandle
  rw [hinst, hsaved]
  split
  · exact modCore_endsAs h c fun _ => rfl
  · split
    · next r _ =>
      have hsave : ∀ l, ({ s with saved := l } : State).EndsAs m e { t with saved := l } := fun l => by subst h; rfl
      simp only [State.coreRecord, harea]
      exact endsAs_of_twin (hsave _) (paWrite_units _ _ _) (paWrite_tiles _ _ _) fun _ _ hst => paWrite_twin hst _ _
    · subst h
      rfl

theorem opComplete_endsAs (h : s.EndsAs m e t) (o : EngOp) (status : Byte) (slice : Nat) (info : Word) :
    (s.opComplete o status slice info).EndsAs m e (t.opComplete o status slice info) := by
  have hrecord : (if status = 0 then s else s.faultRecord o status slice info).settleViews.EndsAs m e
      (if status = 0 then t else t.faultRecord o status slice info).settleViews :=
    endsAs_of_twin h ((settleViews_units _).of (.ite .refl (faultRecord_units s o status slice info)))
      ((settleViews_tiles _).of (.ite .refl (faultRecord_tiles s o status slice info)))
      fun _ _ hst => settleViews_twin (.ite hst (faultRecord_twin hst o status slice info))
  unfold State.opComplete
  dsimp only
  generalize (if status = 0 then s else s.faultRecord o status slice info).settleViews = u at hrecord ⊢
  generalize (if status = 0 then t else t.faultRecord o status slice info).settleViews = v at hrecord ⊢
  obtain ⟨x, hx, -⟩ := hrecord.core o.core
  have hinst : (({ v with ops := v.ops.filter fun x => !x.same o } : State).core o.core).inst =
      (({ u with ops := u.ops.filter fun x => !x.same o } : State).core o.core).inst := by
    show (v.core o.core).inst = (u.core o.core).inst
    rw [hx]
  rw [hinst]
  split
  · exact modCore_endsAs (by subst hrecord; rfl) _ fun q => opDone_endsAs q _ _ _
  · subst hrecord
    rfl

/-! ## Cores that become free (R164, R219, R239) -/

theorem cancelGang_endsAs (h : s.EndsAs m e t) (c : CoreId) (g : GangIssue) : (s.cancelGang c g).EndsAs m e (t.cancelGang c g) := by
  have hops : t.ops = s.ops := by subst h; rfl
  unfold State.cancelGang
  rw [hops]
  split
  · exact h
  · dsimp only
    refine opComplete_endsAs ?_ _ _ _ _
    split
    · exact modOpHandle_endsAs h _ _ _ _
    · exact h

theorem cancelGangs_endsAs (h : s.EndsAs m e t) (c : CoreId) : (s.cancelGangs c).EndsAs m e (t.cancelGangs c) := by
  have hcluster : t.cluster (clusterOf c) = s.cluster (clusterOf c) := by subst h; rfl
  unfold State.cancelGangs
  rw [hcluster]
  exact .foldl (fun s t g hst => cancelGang_endsAs hst c g) _ (by subst h; rfl)

theorem dropHandles_endsAs (h : s.EndsAs m e t) (c : CoreId) : (s.dropHandles c).EndsAs m e (t.dropHandles c) := by
  have hupd : ∀ r, (t.cores.all fun x => x.2.upd.all (·.region != r)) = s.cores.all fun x => x.2.upd.all (·.region != r) := by
    intro r
    subst h
    exact SMap.all_set (fun q : Core => q.upd.all (·.region != r)) s.cores m _ {} rfl rfl
  have hretire : ∀ regions, ({ s with regions := regions } : State).retireRegions.EndsAs m e ({ t with regions := regions } : State).retireRegions := by
    intro regions
    unfold State.retireRegions
    simp only [hupd]
    subst h
    rfl
  have hregions : t.regions = s.regions := by subst h; rfl
  unfold State.dropHandles
  rw [hregions]
  exact hretire _

theorem keepHandles_endsAs (h : s.EndsAs m e t) (c : CoreId) : (s.keepHandles c).EndsAs m e (t.keepHandles c) := by
  obtain ⟨x, hx, -⟩ := h.core c
  have hinst : (t.core c).inst = (s.core c).inst := by rw [hx]
  have hh : (t.core c).h = (s.core c).h := by rw [hx]
  have hops : t.opsOf = s.opsOf := by subst h; rfl
  unfold State.keepHandles State.stopStreams
  dsimp only
  rw [hinst, hh, hops]
  split
  · subst h
    rfl
  · exact .foldl (fun s t o hst => opComplete_endsAs hst o _ _ _) _ h

theorem rejoinConvoy_endsAs (h : s.EndsAs m e t) (cl : Nat) : (s.rejoinConvoy cl).EndsAs m e (t.rejoinConvoy cl) := by
  have hcore : ∀ k, (t.core k).work = (s.core k).work ∧ (t.core k).ended.isNone = (s.core k).ended.isNone ∧
      (t.core k).parked = (s.core k).parked := fun k => by
    obtain ⟨x, hx, hnone⟩ := h.core k
    rw [hx]
    exact ⟨rfl, hnone, rfl⟩
  have hms : ((clusterCores cl).filter fun k => (t.core k).work.isSome && (t.core k).ended.isNone) =
      (clusterCores cl).filter fun k => (s.core k).work.isSome && (s.core k).ended.isNone :=
    List.filter_congr fun k _ => by rw [(hcore k).1, (hcore k).2.1]
  unfold State.rejoinConvoy
  dsimp only
  rw [hms]
  simp only [fun k => (hcore k).2.2]
  split
  · exact .foldl (fun s t k hst => modCore_endsAs (f := fun q => { q with convoy := true, parked := false, rejoin := none }) hst k
      fun _ => rfl) _ h
  · exact h

theorem discard_endsAs (h : s.EndsAs m e t) (c : CoreId) : (s.discard c).EndsAs m e (t.discard c) :=
  modCore_endsAs (f := fun q => { q with stores := [], loads := [], upd := [], fences := [] }) h c fun _ => rfl

/-- A core of which nothing but what stands until the next dispatch is left has no end. -/
theorem finished_endsAs (q : Core) : (q.endsAs e).finished = q.finished := rfl

theorem endsAs_finished (q : Core) : q.finished.endsAs e = q.finished := rfl

/-- A core's steps before it is free. -/
def State.winds (s : State) (c : CoreId) : State := (((s.cancelGangs c).discard c).dropHandles c).keepHandles c

theorem winds_endsAs (h : s.EndsAs m e t) (c : CoreId) : (s.winds c).EndsAs m e (t.winds c) :=
  keepHandles_endsAs (dropHandles_endsAs (discard_endsAs (cancelGangs_endsAs h c) c) c) c

theorem leave_eq (s : State) (c : CoreId) :
    (s.cancelGangs c).freeWith c Core.finished = ((s.winds c).modCore c Core.finished).rejoinConvoy (clusterOf c) := rfl

/-- The difference outlasts another core's becoming free. -/
theorem leave_endsAs (h : s.EndsAs m e t) (c : CoreId) :
    ((s.cancelGangs c).freeWith c Core.finished).EndsAs m e ((t.cancelGangs c).freeWith c Core.finished) := by
  rw [leave_eq, leave_eq]
  exact rejoinConvoy_endsAs (modCore_endsAs (f := Core.finished) (winds_endsAs h c) c fun q =>
    (finished_endsAs q).trans (endsAs_finished q).symm) _

/-- How a core has ended is gone once it is free. -/
theorem leave_absorbs (h : s.EndsAs m e t) : (t.cancelGangs m).freeWith m Core.finished = (s.cancelGangs m).freeWith m Core.finished := by
  rw [leave_eq, leave_eq, winds_endsAs h m, State.modCore_modCore]
  rfl

theorem leaveCores_absorbs {ms : List CoreId} (hm : m ∈ ms) (h : s.EndsAs m e t) : t.leaveCores ms = s.leaveCores ms := by
  induction ms generalizing s t with
  | nil => exact absurd hm List.not_mem_nil
  | cons k ms ih =>
    unfold State.leaveCores at ih ⊢
    rw [List.foldl_cons, List.foldl_cons]
    by_cases hk : k = m
    · subst hk
      rw [leave_absorbs h]
    · exact ih ((List.mem_cons.mp hm).resolve_left (Ne.symm hk)) (leave_endsAs h k)

end
end Sys2Proof.Machine

/-! Proof of O18: TASKEND, TASKAB and the report of completion (R197, R216, R217, R224). -/
namespace Sys2Proof.Machine

/-! ## Members that end -/

theorem work_foldl_modCore {f : Core → Core} (hf : ∀ q, (f q).work = q.work) (ms : List CoreId) (s : State) (m : CoreId) :
    ((ms.foldl (fun u m => u.modCore m f) s).core m).work = (s.core m).work := by
  induction ms generalizing s with
  | nil => rfl
  | cons k ks ih =>
    refine (ih _).trans ?_
    by_cases hm : m = k
    · rw [hm, State.core_modCore_same, hf]
    · rw [State.core_modCore_other _ hm]

theorem work_rejoinConvoy (s : State) (cl : Nat) (m : CoreId) : ((s.rejoinConvoy cl).core m).work = (s.core m).work := by
  unfold State.rejoinConvoy
  dsimp only
  split
  · exact work_foldl_modCore (f := fun q => { q with convoy := true, parked := false, rejoin := none }) (fun _ => rfl) _ s m
  · rfl

/-- The members of the convoy of leader `l` have ended as `how` says, and a dissolved convoy re-forms (R55). -/
def State.memberEnds (s : State) (ms : List CoreId) (how : Ended) (l : CoreId) : State :=
  (ms.foldl (fun u m => u.modCore m fun q => { q with ended := some how }) s).rejoinConvoy (clusterOf l)

theorem work_memberEnds (s : State) (ms : List CoreId) (how : Ended) (l m : CoreId) :
    ((s.memberEnds ms how l).core m).work = (s.core m).work :=
  (work_rejoinConvoy _ _ m).trans (work_foldl_modCore (f := fun q => { q with ended := some how }) (fun _ => rfl) ms s m)

theorem membersOf_memberEnds (s : State) (ms : List CoreId) (how : Ended) (l : CoreId) :
    (s.memberEnds ms how l).membersOf l = s.membersOf l := by
  rw [State.membersOf, State.membersOf, work_memberEnds]

section
variable {s : State} {ms : List CoreId} {how : Ended} {l : CoreId} {w : WorkRef}

theorem endMembers_node {n : Nat} (hl : ms.headD 0 = l) (hw : (s.core l).work = some w) (hn : w.node = some n) :
    s.endMembers ms how = ((s.memberEnds ms how l).lastMember l w n).elim .wait .jumped := by
  have hw' := (work_memberEnds s ms how l l).trans hw
  unfold State.memberEnds at hw' ⊢
  simp only [State.endMembers, hl, hw', hn]
  cases ((ms.foldl (fun u m => u.modCore m fun q => { q with ended := some how }) s).rejoinConvoy (clusterOf l)).lastMember l w n <;> rfl

theorem endMembers_persistent_end (hl : ms.headD 0 = l) (hw : (s.core l).work = some w) (hn : w.node = none) :
    s.endMembers ms .taskEnd = .jumped (s.memberEnds ms .taskEnd l) := by
  have hw' := (work_memberEnds s ms .taskEnd l l).trans hw
  unfold State.memberEnds at hw' ⊢
  simp only [State.endMembers, hl, hw', hn]

theorem endMembers_persistent_abort {code : Word} {o : Nat} (hl : ms.headD 0 = l) (hw : (s.core l).work = some w) (hn : w.node = none) :
    s.endMembers ms (.taskAb code o) = .jumped (ms.foldl (fun u m => u.endPersistent m w)
      ((ms.foldl (fun u m => u.workEvent 2 m w 0 code 0 0 0) (s.memberEnds ms (.taskAb code o) l)).leaveCores ms)) := by
  have hw' := (work_memberEnds s ms (.taskAb code o) l l).trans hw
  unfold State.memberEnds at hw' ⊢
  simp only [State.endMembers, hl, hw', hn]
end

/-! ## The TASKAB that counts (R197) -/

/-- The TASKAB that a core has issued, with its number in the order of issue. -/
def State.abortBy (s : State) (m : CoreId) : Option (CoreId × Word × Nat) :=
  match (s.core m).ended with
  | some (.taskAb code order) => some (m, code, order)
  | some .taskEnd | none => none

/-- Of two TASKABs the one that counts, where `b` comes of the lower core. -/
def earlierAbort (best : Option (CoreId × Word × Nat)) (x : CoreId × Word × Nat) : Option (CoreId × Word × Nat) :=
  match best with
  | none => some x
  | some b => if x.2.2 < b.2.2 then some x else some b

theorem abortOf_eq (s : State) (ms : List CoreId) :
    s.abortOf ms = ((ms.filterMap s.abortBy).foldl earlierAbort none).map fun x => (x.1, x.2.1) := rfl

theorem abortBy_eq_some {s : State} {m : CoreId} {x : CoreId × Word × Nat} :
    s.abortBy m = some x ↔ x.1 = m ∧ (s.core m).ended = some (.taskAb x.2.1 x.2.2) := by
  obtain ⟨k, v, o⟩ := x
  unfold State.abortBy
  split
  · next code order h =>
    simp only [h, Option.some.injEq, Prod.mk.injEq, Ended.taskAb.injEq]
    exact ⟨fun ⟨a, b, c⟩ => ⟨a.symm, b, c⟩, fun ⟨a, b, c⟩ => ⟨a.symm, b, c⟩⟩
  · next h => simp [h]
  · next h => simp [h]

theorem foldl_earlierAbort_keeps {b : CoreId × Word × Nat} {l : List (CoreId × Word × Nat)} (h : ∀ x ∈ l, b.2.2 ≤ x.2.2) :
    l.foldl earlierAbort (some b) = some b := by
  induction l with
  | nil => rfl
  | cons x l ih =>
    have hx : earlierAbort (some b) x = some b := if_neg (Nat.not_lt.mpr (h x List.mem_cons_self))
    rw [List.foldl_cons, hx]
    exact ih fun y hy => h y (List.mem_cons_of_mem _ hy)

/-- In ascending order of the cores, the first TASKAB of the smallest number is the one that is found. -/
theorem foldl_earlierAbort_first {b : CoreId × Word × Nat} {best : Option (CoreId × Word × Nat)} {l : List (CoreId × Word × Nat)}
    (hl : l.Pairwise fun x y => x.1 < y.1) (hb : b ∈ l) (h : ∀ x ∈ l, b.2.2 ≤ x.2.2 ∧ (b.2.2 = x.2.2 → b.1 ≤ x.1))
    (hbest : ∀ x ∈ best, b.2.2 < x.2.2) : l.foldl earlierAbort best = some b := by
  induction l generalizing best with
  | nil => exact absurd hb List.not_mem_nil
  | cons x l ih =>
    obtain ⟨hx, hl'⟩ := List.pairwise_cons.mp hl
    have htail : ∀ y ∈ l, b.2.2 ≤ y.2.2 ∧ (b.2.2 = y.2.2 → b.1 ≤ y.1) := fun y hy => h y (List.mem_cons_of_mem _ hy)
    rw [List.foldl_cons]
    rcases List.mem_cons.mp hb with hbx | hbl
    · have hstep : earlierAbort best x = some x := by
        cases best with
        | none => rfl
        | some y => exact if_pos (hbx ▸ hbest y rfl)
      rw [hstep, ← hbx]
      exact foldl_earlierAbort_keeps fun y hy => (htail y hy).1
    · have hlt : b.2.2 < x.2.2 := by
        obtain ⟨hle, heq⟩ := h x List.mem_cons_self
        exact lt_of_le_of_ne hle fun e => absurd (heq e) (not_le.mpr (hx b hbl))
      refine ih hl' hbl htail fun y hy => ?_
      cases best with
      | none => exact Option.some.inj hy ▸ hlt
      | some z =>
        have hz := hbest z rfl
        unfold earlierAbort at hy
        dsimp only at hy
        split at hy
        · exact Option.some.inj hy ▸ hlt
        · exact Option.some.inj hy ▸ hz

theorem abortOf_first {s : State} {ms : List CoreId} {m : CoreId} {v : Word} {o : Nat} (hms : ms.Pairwise (· < ·)) (hm : m ∈ ms)
    (he : (s.core m).ended = some (.taskAb v o))
    (h : ∀ k ∈ ms, ∀ x p, (s.core k).ended = some (.taskAb x p) → o ≤ p ∧ (o = p → m ≤ k)) : s.abortOf ms = some (m, v) := by
  have hfound : (ms.filterMap s.abortBy).foldl earlierAbort none = some (m, v, o) := by
    refine foldl_earlierAbort_first ?_ (List.mem_filterMap.mpr ⟨m, hm, abortBy_eq_some.mpr ⟨rfl, he⟩⟩) ?_ (fun _ hx => nomatch hx)
    · refine List.pairwise_filterMap.mpr (hms.imp fun {a b} hab x hx y hy => ?_)
      rw [(abortBy_eq_some.mp hx).1, (abortBy_eq_some.mp hy).1]
      exact hab
    · intro x hx
      obtain ⟨k, hk, hxk⟩ := List.mem_filterMap.mp hx
      obtain ⟨hxm, hxe⟩ := abortBy_eq_some.mp hxk
      exact hxm ▸ h k hk _ _ hxe
  rw [abortOf_eq, hfound]
  rfl

theorem abortOf_none {s : State} {ms : List CoreId} (h : ∀ m ∈ ms, (s.core m).ended = some .taskEnd) : s.abortOf ms = none := by
  have hnil : ms.filterMap s.abortBy = [] := by
    refine List.filterMap_eq_nil_iff.mpr fun m hm => ?_
    rw [State.abortBy, h m hm]
  rw [abortOf_eq, hnil]
  rfl

theorem membersOf_ascending (s : State) (c : CoreId) : (s.membersOf c).Pairwise (· < ·) := by
  unfold State.membersOf
  split
  · exact List.pairwise_map.mpr (List.pairwise_lt_range.imp fun h => Nat.add_lt_add_left h _)
  · exact List.pairwise_singleton _ _

/-! ## The last member of a node's work (R197, R216) -/

section
variable {s : State} {c : CoreId} {w : WorkRef} {n : Nat}

theorem lastMember_running (h : ∃ k ∈ s.membersOf c, (s.core k).ended = none) : s.lastMember c w n = some s := by
  obtain ⟨k, hk, he⟩ := h
  exact if_pos (List.any_eq_true.mpr ⟨k, hk, by rw [he]; rfl⟩)

theorem lastMember_ended (h : ∀ k ∈ s.membersOf c, (s.core k).ended ≠ none) :
    ((s.membersOf c).any fun m => (s.core m).ended.isNone) = false :=
  List.any_eq_false.mpr fun k hk => by simp [Option.isNone_iff_eq_none, h k hk]

theorem lastMember_ending (h : ∀ k ∈ s.membersOf c, (s.core k).ended = some .taskEnd) :
    s.lastMember c w n = some (s.modNode w.ctx w.launch n fun x => { x with st := .ending }) := by
  have hall := lastMember_ended (s := s) (c := c) fun k hk => by rw [h k hk]; exact Option.some_ne_none _
  simp only [State.lastMember, hall, abortOf_none h, Bool.false_eq_true, if_false]

theorem lastMember_aborted {m : CoreId} {v : Word} (h : ∀ k ∈ s.membersOf c, (s.core k).ended ≠ none)
    (ha : s.abortOf (s.membersOf c) = some (m, v)) :
    s.lastMember c w n = (s.finishMembers (s.membersOf c)).map fun y =>
      (((y.workEvent 2 m w 0 v 0 0 0).leaveCores (s.membersOf c)).releaseHeld w.ctx w.launch n).endNode w.ctx w.launch n 0x40 v := by
  simp only [State.lastMember, lastMember_ended h, ha, Bool.false_eq_true, if_false]
end

/-! ## The report (R197, R217, R224) -/

/-- The cores whose part of the work has ended by TASKEND. -/
def State.endedCores (s : State) (ctx : Nat) (launch : Word) (node : Option Nat) : List CoreId :=
  (s.cores.filter fun (_, q) => (q.work.any fun w => w.ctx == ctx && w.launch == launch && w.node == node) &&
    q.ended == some .taskEnd).map (·.1)

section
variable {s : State} {ctx launch node : Nat}

theorem endStatus_eq (s : State) (ms : List CoreId) : let fails := ms.filterMap fun m => (s.core m).engFail
    s.endStatus ms = if 0x10 ∈ fails then 0x10 else if 0x13 ∈ fails then 0x13 else 0 := by
  simp only [State.endStatus, List.contains_iff_mem]

theorem report_node {x : Node} (hx : s.node? ctx (BitVec.ofNat 64 launch) node = some x) (hn : node ≠ 0xFFFFFFFF) :
    exec (.taskCompletionReport ctx launch node) s =
      if x.st != .ending || (s.endedCores ctx (BitVec.ofNat 64 launch) (some node)).any (fun c => (s.core c).req.isSome) then .next s
      else match s.finishMembers (s.endedCores ctx (BitVec.ofNat 64 launch) (some node)) with
        | none => .next s
        | some u => .next (((u.leaveCores (s.endedCores ctx (BitVec.ofNat 64 launch) (some node))).releaseHeld ctx
            (BitVec.ofNat 64 launch) node).endNode ctx (BitVec.ofNat 64 launch) node
              (u.endStatus (s.endedCores ctx (BitVec.ofNat 64 launch) (some node))) 0) := by
  show execTaskCompletionReport ctx launch node s = _
  simp only [execTaskCompletionReport, if_neg hn, hx]
  rfl

theorem report_persistent {c : CoreId} {w : WorkRef} (hc : s.endedCores ctx (BitVec.ofNat 64 launch) none = [c])
    (hw : (s.core c).work = some w) :
    exec (.taskCompletionReport ctx launch 0xFFFFFFFF) s =
      .next ((s.finishCore c).elim s fun u => (u.leaveCores [c]).endPersistent c w) := by
  show execTaskCompletionReport ctx launch 0xFFFFFFFF s = _
  unfold State.endedCores at hc
  simp only [execTaskCompletionReport, if_true, hc, List.foldl_cons, List.foldl_nil, hw]
  cases s.finishCore c <;> rfl
end

/-- A part of a node's work ends: what a word `i` does that the leader resolves by `endMembers` in a state `b`. -/
theorem goes_of_endMembers {i : Instr} {f : Fields} {s b : State} {ms : List CoreId} {how : Ended} {l : CoreId} {w : WorkRef}
    (hl : ms.headD 0 = l) (hw : (b.core l).work = some w) (hgm : b.membersOf l = s.membersOf l)
    (hjump : ∀ t, b.endMembers ms how = .jumped t → exec i s = .next (t.countIssue ms f))
    (hwait : b.endMembers ms how = .wait → exec i s = .next s) :
    let u := b.memberEnds ms how l
    let goes := fun (t : State) => exec i s = .next (t.countIssue ms f)
    let gm := s.membersOf l
    ∀ n, w.node = some n →
      ((∃ k ∈ gm, (u.core k).ended = none) → goes u) ∧
      ((∀ k ∈ gm, (u.core k).ended = some .taskEnd) → goes (u.modNode w.ctx w.launch n fun x => { x with st := .ending })) ∧
      ∀ m v o, (∀ k ∈ gm, (u.core k).ended ≠ none) → m ∈ gm → (u.core m).ended = some (.taskAb v o) →
        (∀ k ∈ gm, ∀ x p, (u.core k).ended = some (.taskAb x p) → o ≤ p ∧ (o = p → m ≤ k)) →
        (u.finishMembers gm = none → exec i s = .next s) ∧
        ∀ y, u.finishMembers gm = some y →
          goes ((((y.workEvent 2 m w 0 v 0 0 0).leaveCores gm).releaseHeld w.ctx w.launch n).endNode w.ctx w.launch n 0x40 v) := by
  intro u goes gm n hn
  have hend := endMembers_node (how := how) hl hw hn
  have hu : gm = u.membersOf l := hgm.symm.trans (membersOf_memberEnds b ms how l).symm
  rw [hu]
  refine ⟨fun h => hjump _ ?_, fun h => hjump _ ?_, fun m v o h hm he hfirst => ?_⟩
  · rw [hend, lastMember_running h]
    rfl
  · rw [hend, lastMember_ending h]
    rfl
  · have haborted := lastMember_aborted (w := w) (n := n) h (abortOf_first (membersOf_ascending _ l) hm he hfirst)
    refine ⟨fun hfin => hwait ?_, fun y hfin => hjump _ ?_⟩
    · rw [hend, haborted, hfin]
      rfl
    · rw [hend, haborted, hfin]
      rfl

/-! ## TASKAB on a persistent core (R197, R224) -/

/-- Every member ends in the same way. -/
def State.allEnd (s : State) (ms : List CoreId) (how : Ended) : State :=
  ms.foldl (fun u m => u.modCore m fun q => { q with ended := some how }) s

theorem allEnd_endsAs {s t : State} {m : CoreId} {e : Ended} (h : s.EndsAs m e t) (ms : List CoreId) :
    (s.allEnd ms e).EndsAs m e (t.allEnd ms e) :=
  .foldl (fun _ _ k hst => modCore_endsAs (f := fun q => { q with ended := some e }) hst k fun _ => rfl) ms h

/-- What does not tell how its cores have ended does not tell two ends apart. -/
theorem allEnd_absorbed {f : State → State} {ms : List CoreId} {e e' : Ended}
    (hf : ∀ m ∈ ms, ∀ s t : State, s.EndsAs m e t → f t = f s) (s : State) : f (s.allEnd ms e) = f (s.allEnd ms e') := by
  induction ms generalizing s with
  | nil => rfl
  | cons m ms ih =>
    have hset : (s.modCore m fun q => { q with ended := some e' }).EndsAs m e (s.modCore m fun q => { q with ended := some e }) := by
      rw [State.EndsAs, State.modCore_modCore]
      rfl
    exact (hf m List.mem_cons_self _ _ (allEnd_endsAs hset ms)).trans (ih (fun k hk => hf k (List.mem_cons_of_mem _ hk)) _)

/-- What is left of persistent cores that TASKAB has ended. -/
def State.abortLeaves (ms : List CoreId) (l : CoreId) (w : WorkRef) (v : Word) (s : State) : State :=
  (ms.foldl (fun u m => u.workEvent 2 m w 0 v 0 0 0) (s.rejoinConvoy (clusterOf l))).leaveCores ms

theorem abortLeaves_absorbs {ms : List CoreId} {l m : CoreId} {w : WorkRef} {v : Word} {e : Ended} (hm : m ∈ ms) {s t : State}
    (h : s.EndsAs m e t) : t.abortLeaves ms l w v = s.abortLeaves ms l w v := by
  have hleft := rejoinConvoy_endsAs h (clusterOf l)
  have hevents := State.EndsAs.foldl (f := fun u k => u.workEvent 2 k w 0 v 0 0 0)
    (fun _ _ k hst => workEvent_endsAs hst 2 k w 0 v 0 0 0) ms hleft
  exact leaveCores_absorbs hm hevents

/-- A TASKAB that reads its number anew for each member gives every member the same. -/
theorem foldl_taskAb_eq (v : Word) (ms : List CoreId) (s : State) :
    ms.foldl (fun u m => u.modCore m fun q => { q with ended := some (.taskAb v u.orders) }) s = s.allEnd ms (.taskAb v s.orders) := by
  induction ms generalizing s with
  | nil => rfl
  | cons m ms ih => exact ih _

theorem taskab_persistent {s : State} {ms : List CoreId} {l : CoreId} {w : WorkRef} (hl : ms.headD 0 = l) (hw : (s.core l).work = some w)
    (hn : w.node = none) (v : Word) : let b : State := { s with orders := s.orders + 1 }
    b.endMembers ms (.taskAb v s.orders) = .jumped (ms.foldl (fun u m => u.endPersistent m w)
      ((ms.foldl (fun u m => u.modCore m fun q => { q with ended := some (.taskAb v u.orders) }) b).abortLeaves ms l w v)) := by
  intro b
  have hwb : (b.core l).work = some w := hw
  have hsame : (b.allEnd ms (.taskAb v s.orders)).abortLeaves ms l w v = (b.allEnd ms (.taskAb v b.orders)).abortLeaves ms l w v :=
    allEnd_absorbed (fun _ hm _ _ h => abortLeaves_absorbs hm h) b
  rw [foldl_taskAb_eq, ← hsame]
  exact endMembers_persistent_abort hl hwb hn

/-- The code that the leader's TASKAB gives. -/
def State.abortCode (s : State) (code : SImm) : Word := ((code.val (s.core s.leader)).setWidth 32 : BitVec 32).setWidth 64

theorem taskab_led {s : State} {f : Fields} {c : Ctl} {code : SImm} (hf : Instr.fields (.taskab c code) = some f) (h : s.Led f) :
    (∀ t, ({ s with orders := s.orders + 1 } : State).endMembers (s.convoyOf s.cur) (.taskAb (s.abortCode code) s.orders) = .jumped t →
      exec (.taskab c code) s = .next (t.countIssue (s.convoyOf s.cur) f)) ∧
    (({ s with orders := s.orders + 1 } : State).endMembers (s.convoyOf s.cur) (.taskAb (s.abortCode code) s.orders) = .wait →
      exec (.taskab c code) s = .next s) := by
  obtain ⟨-, hjump, -, hwait⟩ := runLeaderWord_led hf h (by rfl : exec (.taskab c code) s = runLeaderWord (.taskab c code) s _)
  rw [State.abortCode, ← headD_convoyOf_cur s 0]
  exact ⟨hjump, hwait⟩

/-- Settles O18: the leader resolves both words by `endMembers`, and the report by `finishMembers` of the ended cores. -/
theorem workEnds : Obligations.WorkEnds := by
  unfold Obligations.WorkEnds
  refine ⟨?_, ?_, ?_⟩
  · intro s f h l ms ends
    have hl : ms.headD 0 = l := headD_convoyOf_cur s 0
    refine ⟨fun c w hf hw => ?_, fun c code w hf hw => ?_⟩
    · obtain ⟨-, hjump, -, hwait⟩ := runLeaderWord_led hf h (by rfl : exec (.taskend c) s = runLeaderWord (.taskend c) s _)
      refine ⟨fun ⟨m, hm, hq⟩ => hwait (if_neg ?_), fun hq => ?_⟩
      · exact fun hall => absurd (List.all_eq_true.mp hall m hm) (by rw [hq]; exact Bool.false_ne_true)
      · have hall : (ms.all fun m => (s.core m).quiet) = true := List.all_eq_true.mpr hq
        exact ⟨goes_of_endMembers hl hw rfl (fun t ht => hjump t ((if_pos hall).trans ht)) fun ht => hwait ((if_pos hall).trans ht),
          fun hn => hjump _ ((if_pos hall).trans (endMembers_persistent_end hl hw hn))⟩
    · intro v b
      obtain ⟨hjump, hwait⟩ := taskab_led hf h
      have hwb : (b.core l).work = some w := hw
      exact ⟨goes_of_endMembers (b := b) hl hwb rfl hjump hwait, fun hn => hjump _ (taskab_persistent hl hw hn v)⟩
  · intro s ctx launch node x cores hx hn hcores
    have hrep := report_node hx hn
    rw [show s.endedCores ctx (BitVec.ofNat 64 launch) (some node) = cores from hcores.symm] at hrep
    refine ⟨fun h => hrep.trans (if_pos ?_), fun u hst hreq hfin => ?_⟩
    · obtain h | ⟨c, hc, hr⟩ := h
      · simp [h]
      · rw [List.any_eq_true.mpr ⟨c, hc, hr⟩, Bool.or_true]
    · intro fails
      have hno : (cores.any fun c => (s.core c).req.isSome) = false :=
        List.any_eq_false.mpr fun c hc => by rw [hreq c hc]; exact Bool.false_ne_true
      rw [hrep, hst, hno, if_neg (by decide), hfin]
      exact congrArg (fun status => Host.Outcome.next (State.endNode _ ctx (BitVec.ofNat 64 launch) node status 0))
        (endStatus_eq u cores)
  · intro s ctx launch c w hc hw
    have hrep := report_persistent hc hw
    exact ⟨fun hfin => hrep.trans (by rw [hfin]; rfl), fun u hfin => hrep.trans (by rw [hfin]; rfl)⟩

end Sys2Proof.Machine
